-- ==== Sys2Proof/Word.lean ====
section
/-! DEFINITION. The word types of the machine and the plain records that its packets and events carry
(R4, R14, R54, R56, R67, R206, R244, R256, R262). Everything here is plain data. -/

namespace Sys2Proof

abbrev Byte := BitVec 8
abbrev Half := BitVec 16
abbrev Word32 := BitVec 32
abbrev Word := BitVec 64
/-- The 64 bytes of a block, byte 0 in bits [7:0] (R61). -/
abbrev Block := BitVec 512
/-- A block descriptor: format code in [7:0], scale in [15:8] (R59). -/
abbrev Desc := BitVec 16
/-- An element of an accumulator tile (R67). -/
abbrev A34 := BitVec 34
/-- A strand handle (R54), a channel handle (R403) or 0x8000_0000 + an engine number (R261). -/
abbrev Handle := BitVec 32
abbrev ScopeId := BitVec 24

/-- The fault codes of R310. -/
inductive FaultName where
  | illegal | priv | align | path | xlate | tokenAbsent | tokenReadonly | poisoned | sealedWrite | deferred
  | stackLimit | accHeld | matrix | queueUnbound | scopeState | cancel | tokensHeld | brk | dataUe | integrity
  | vaultParity | truncated | deadPeer | format | determinism | spawnLimit | migrateDenied | fetch | regUe
  | regUnallocated
  deriving DecidableEq, Repr

/-- What a raised fault carries into the trap status words (R56, R308). `aux` is none where no rule states what
sw.trapaux holds for the fault: a free value then (log entry 2). -/
structure Trap where
  code : FaultName
  sub : BitVec 8 := 0
  va : Word := 0
  aux : Option Word := none
  deriving DecidableEq, Repr

/-- Who can hold a token (R207, R345, R403). -/
inductive PartyKind where
  | strand | scope | fdom | peer | engine | channel
  deriving DecidableEq, Repr

structure Party where
  kind : PartyKind
  id : BitVec 32
  dev : BitVec 16 := 0
  deriving DecidableEq, Repr

/-- A sync-cell operation on its way to the cell's home (R201, R202). `dst` is the stack position of x[d].
`number` is the fresh number of the operation. -/
structure SyncReq where
  number : Nat
  sk : Nat
  handle : Handle
  lcore : Nat
  pasid : BitVec 20
  va : Word
  key : Nat
  op : BitVec 4
  ord : BitVec 2
  val : Word
  cmp : Word
  dst : Option Nat
  scope : ScopeId
  retired : Word
  deriving DecidableEq, Repr

/-- The answer of a cell's home: to which address, and what the operation found and left in the cell. -/
structure SyncAns where
  number : Nat
  sk : Nat
  handle : Handle
  dst : Option Nat
  val : Word
  fault : Option Trap
  va : Word := 0
  key : Nat := 0
  old : Word := 0
  new : Word := 0
  deriving DecidableEq, Repr

/-- A travelling context (R256). The fields after `qpos` are the model's own: the rank words, the image whose
side tables govern the strand, and the number of the record a restore takes the rest of the strand from (R318). -/
structure Ctx where
  x : List Word
  dbits : BitVec 8
  preds : BitVec 8
  pc : BitVec 16
  kind : BitVec 8
  prio : BitVec 4
  frm : BitVec 2
  fflags : BitVec 6
  weight : BitVec 32
  scope : ScopeId
  origin : Handle
  vfmt : Desc
  mfmt : Desc
  rkey0 : Word
  rkey1 : Word
  retired : Word
  quantum : BitVec 32
  qpos : BitVec 16
  rank : BitVec 16 := 0
  nrank : BitVec 16 := 1
  gang : ScopeId := 0
  image : Nat := 0
  restore : Option Nat := none
  node : Option Nat := none
  /-- the strand has observed the cancellation of its scope (R304) -/
  seen : Bool := false
  /-- the number of times its packet has been truncated (R250) -/
  tries : Nat := 0
  /-- the pc is 0x1_0000, which the 16 bits of `pc` do not hold (R85) -/
  pcEnd : Bool := false
  /-- a rank of a launch in QUANTA mode that waited when quantum 0 began: it takes part from then on (R393) -/
  takes : Bool := false
  deriving DecidableEq, Repr

/-- A message on its way to a channel (R244, R252, R275). `number` ties its answer to the waiting sender. -/
structure Msg where
  number : Nat
  lcore : Nat
  chan : BitVec 6
  words : List Word
  sender : Handle
  sk : Nat
  scope : ScopeId
  weight : BitVec 32
  wantReply : Bool
  tenant : BitVec 12
  /-- the sender's core, 512 dev + core for one on a peer device; with sw.retired at the sending instruction the party of the
  order log (R387) -/
  fromCore : Nat := 0
  retired : Word := 0
  deriving DecidableEq, Repr

/-- A reply to a SENDR (R277, R278). -/
structure ReplyMsg where
  /-- the replying strand; 0 for a reply that no strand sends -/
  sender : Handle := 0
  number : Nat
  sk : Nat
  dest : Handle
  /-- the core that the reply goes to, if it is one of a peer device -/
  peer : Option Nat := none
  status : BitVec 8
  words : List Word
  deriving DecidableEq, Repr

/-- An engine command (R283 to R288) with its progress. `unitsDone` counts sectors of CPY and COLL and units of
GATH and SCAT. `issued`: its completion word has been written 0 and its tokens are lent; `returned`: it has made its
release and returned them. -/
structure EngCmd where
  number : Nat
  eng : Nat
  op : BitVec 3
  fscope : BitVec 3
  blk : List Word
  issuer : Handle
  sk : Nat
  lcore : Nat
  rank : BitVec 16
  nrank : BitVec 16
  gang : ScopeId
  scope : ScopeId
  weight : BitVec 32
  shielded : Bool
  pasid : BitVec 20
  node : Option Nat
  unitsDone : Nat
  inQuantum : Nat
  code : Option (BitVec 15)
  paused : Bool
  retired : Word
  pageAns : Option (Nat × BitVec 2 × BitVec 4) := none
  issued : Bool := false
  returned : Bool := false
  /-- the number of times its inbox has refused it (R253) -/
  tries : Nat := 0
  /-- at scope `.sys`: the number of host writes before the doorbell, which come before its first read (R223) -/
  bell : Nat := 0
  /-- its sector is on its way to its destination -/
  inFlight : Bool := false
  /-- its place in the order in which commands have entered its engine's inbox (R260) -/
  seat : Nat := 0
  /-- the cancellation of its QUANTA scope has taken effect (R394) -/
  stopping : Bool := false
  /-- it has performed its first read (R203) -/
  began : Bool := false
  /-- the step of the gang that a COLL joins, and its digest so far (R287) -/
  step : Nat := 0
  dig : Word := 0
  deriving DecidableEq, Repr

/-- What a refusal sends back (R252, R260). -/
inductive Refused where
  | msg (m : Msg)
  | cmd (c : EngCmd)
  deriving DecidableEq, Repr

/-- A request of a token instruction to its home (R209). `op` is f6 of major TOKEN. -/
structure TokReq where
  op : BitVec 6
  region : Word
  arg : Word
  handle : Handle
  sk : Nat
  lcore : Nat
  pasid : BitVec 20
  scope : ScopeId
  dst : Option Nat
  retired : Word
  deriving DecidableEq, Repr

structure TokAns where
  sk : Nat
  handle : Handle
  dst : Option Nat
  val : Word
  fault : Option Trap
  deriving DecidableEq, Repr

/-- The kinds of grant (R208, R209). -/
inductive GrantKind where
  | lend | ret | give | share | shareRet | park
  deriving DecidableEq, Repr

structure Grant where
  kind : GrantKind
  number : Nat
  lcore : Nat
  region : Word
  pasid : BitVec 20
  giver : Party
  receiver : Party
  scope : ScopeId
  retired : Word
  deriving DecidableEq, Repr

/-- A launch on its way to the Kiln's loader (R330, R355). -/
structure LoadReq where
  image : Word
  first : Nat
  count : Nat
  entry : Nat
  args : List Word
  compl : Word
  scope : ScopeId
  member : Bool
  weight : BitVec 32
  pasid : BitVec 20
  tenant : BitVec 12
  sk : Nat
  issuer : Handle
  /-- clusters whose ranks a dispatch record has already placed (R364) -/
  skip : List Nat := []
  deriving DecidableEq, Repr

/-- Who asks a memory controller for a sector (R190, R198). -/
inductive MemParty where
  | host (tag : Nat)
  | core (pcore : Nat)
  | engine (eng : Nat)
  deriving DecidableEq, Repr

structure MemReq where
  number : Nat
  off : Nat
  data : Block
  byteMask : BitVec 64
  desc : Option Desc
  by_ : MemParty
  /-- the place of a host's write among its writes (R223) -/
  seq : Nat := 0
  deriving DecidableEq, Repr

structure MemAns where
  number : Nat
  off : Nat
  data : Block
  desc : Desc
  fault : Option Trap
  by_ : MemParty
  deriving DecidableEq, Repr

/-- A flit as it crosses a link: payload, sideband of R243, the number under which the model keeps what its packet means, the
input port whose buffer it waits in on its way through a router, and in a flit with ABORT the cause (R250). -/
structure Flit where
  payload : Block
  side : BitVec 43
  parcel : Nat
  via : Option Nat := none
  cause : BitVec 8 := 0
  deriving DecidableEq, Repr

/-- A translation entry (R350), decoded: naturally aligned range of 2^logSize bytes. -/
structure TransEntry where
  pasid : BitVec 20
  vbase : Nat
  logSize : Nat
  tbase : Nat
  r : Bool
  w : Bool
  deriving DecidableEq, Repr

/-- A host command taken from a queue (R262). -/
structure HostCmd where
  queue : Nat
  deadline : Word
  opcode : BitVec 16
  tier : BitVec 8
  tenant : BitVec 12
  tag : Word
  compl : Word
  args : List Word
  /-- for a LAUNCH: clusters whose ranks a dispatch record has already placed (R364) -/
  skip : List Nat := []
  deriving DecidableEq, Repr

/-- A handler-table entry as a load or HSET writes it (R349). -/
structure HandlerEntry where
  pc : BitVec 16
  prio : BitVec 4
  depth : BitVec 5
  mask : Bool
  tenant : BitVec 12
  scratch : Word
  deriving DecidableEq, Repr

/-- A firmware slot: its header fields, its reserved bytes in order, and its body (R365). -/
structure SlotImage where
  magic : BitVec 32
  version : BitVec 32
  svn : BitVec 32
  length : Nat
  bodyHash : BitVec 384
  pubKey : List Byte
  signature : List Byte
  reserved : List Byte
  body : List Byte
  deriving DecidableEq, Repr

end Sys2Proof
end

