-- ==== Sys2Proof/Config.lean ====
section
/-! DEFINITION. What is fixed for the machine: its counts (R16 to R20), its address map (R172 to R177, R342), the
constants of the generator (R80), and the free values of the manual, which have no body. -/

namespace Sys2Proof.Config

/-- A value the manual leaves open, fresh for each number (log entry 2). Nothing can be proved of it. -/
opaque freeWord : Nat → Word

/-- AES-256-XTS over a 64-byte sector under a pair of keys and its window offset, and its inverse (R189). No rule of the
model rests on their values. -/
opaque xtsEncrypt : BitVec 512 → Nat → BitVec 512 → BitVec 512
opaque xtsDecrypt : BitVec 512 → Nat → BitVec 512 → BitVec 512
/-- GMAC under AES-256 over a sector's ciphertext, descriptor and window offset, cut to 56 bits (R189). -/
opaque gmac : BitVec 256 → BitVec 512 → BitVec 16 → Nat → BitVec 56
/-- SHA-384, a standard the manual names (R365, R368); log entry 6. -/
opaque sha384 : List Byte → BitVec 384
/-- ECDSA P-384 verification of a signature over bytes under a public key (R365); log entry 6. -/
opaque ecdsaVerify : List Byte → List Byte → List Byte → Bool
/-- ECDSA P-384 signature by the alias key, which is derived from the running body's hash (R368); log entry 6. -/
opaque aliasSign : BitVec 384 → List Byte → List Byte
/-- The fused hash of the public key (R365); log entry 6. -/
opaque keyHash : BitVec 384
/-- The boot ROM, whose hash is measurement 1 (R368); log entry 6. -/
opaque bootRom : List Byte

/-- Physical cores of the module (R16). -/
def pcores : Nat := 544
/-- Logical cores (R17). -/
def lcores : Nat := 512
def clusters : Nat := 32
def engines : Nat := 128
/-- Memory units: 8 HBM stacks and 16 LPDDR 6 packages (R342). -/
def memUnits : Nat := 24

/-- Keys of the one memory: each storage has its own range of keys, and the offset within it is added.
The device window (R176) begins at key 0. -/
def hostBase : Nat := 2 ^ 64
def vaultBase : Nat := 2 ^ 66
def istoreBase : Nat := 2 ^ 67
def sramBase : Nat := 2 ^ 68
/-- Keys of the device registers, for the stores that a region holds back (R185); they name no bytes. -/
def ioBase : Nat := 2 ^ 70

/-- Size of a vault (R20), of an instruction store (R20) and of the Kiln's SRAM (R354), in bytes. -/
def vaultSize : Nat := 2 ^ 23
def istoreSize : Nat := 2 ^ 16
def sramSize : Nat := 2 ^ 21

/-- The parts of the device window (R176, R177). -/
def hbmEnd : Nat := 2 ^ 39
def lpddrStart : Nat := 2 ^ 40
def windowSize : Nat := 2 ^ 41
def unitVisible : Nat := 56 * 2 ^ 30
/-- The device tables of a unit, and from their end on their mirror. -/
def tableStart : Nat := 63 * 2 ^ 30
def tableSize : Nat := 2 ^ 29

/-- Bytes of code in a packet of 4 flits of 64 bytes, behind its header of 24 (R244, R245). -/
def codePiece : Nat := 232

/-- Offset of the spill areas in a vault (R45), and size of one. -/
def spillStart : Nat := 0x600000
def spillSize : Nat := 0x4000

/-- Weight of a newly opened scope, and of one refill or rank (R299, R300). -/
def scopeWeight : Nat := 2 ^ 32
def refillWeight : Nat := 2 ^ 16

/-- The multipliers of the generator (R80). -/
def genMul : List Word :=
  [0x9A3C55E17D24B68F, 0xC6E10B934F7AD25B, 0xE39D4A1786C2F035, 0xB5F279C81E64AD31]

/-- High half of the key of the digest step (R82). -/
def digestKey : Word := 0x5A17C3E90B46D28F

/-- Cycles of a heartbeat window (R377), a budget period (R373), a supply window (R381), the truncation timer
(R250), the bound on a waiting REPLAY request (R388) and the wait after a refused request (R239, R288, R312). -/
def heartbeatWindow : Nat := 4096
def budgetPeriod : Nat := 8192
def supplyWindow : Nat := 2 ^ 20
def truncationTime : Nat := 4096
def retryWait : Nat := 64

end Sys2Proof.Config
end

