-- ==== Sys2Proof/Syntax.lean ====
section
/-! DEFINITION. The instructions and events of the machine: one constructor per row of spec/opcode_table.json. The
operands of an encoded instruction are its fields, under the table's letters, at the width the encoding gives them
(R87, R89, R91, R92, R358). Encoded instructions with operands come first, in the table's order; then those without;
then the events, whose subject (the packet that arrives, the timer that ends) stands in the state (log entry 1). -/

namespace Sys2Proof

inductive Instr where
  | add (d a b : BitVec 5) (g : BitVec 3)
  | sub (d a b : BitVec 5) (g : BitVec 3)
  | mul (d a b : BitVec 5) (g : BitVec 3)
  | mulh (d a b : BitVec 5) (g : BitVec 3)
  | mulhu (d a b : BitVec 5) (g : BitVec 3)
  | div (d a b : BitVec 5) (g : BitVec 3)
  | divu (d a b : BitVec 5) (g : BitVec 3)
  | rem (d a b : BitVec 5) (g : BitVec 3)
  | remu (d a b : BitVec 5) (g : BitVec 3)
  | and (d a b : BitVec 5) (g : BitVec 3)
  | or (d a b : BitVec 5) (g : BitVec 3)
  | xor (d a b : BitVec 5) (g : BitVec 3)
  | andn (d a b : BitVec 5) (g : BitVec 3)
  | shl (d a b : BitVec 5) (g : BitVec 3)
  | shr (d a b : BitVec 5) (g : BitVec 3)
  | sar (d a b : BitVec 5) (g : BitVec 3)
  | ror (d a b : BitVec 5) (g : BitVec 3)
  | min (d a b : BitVec 5) (g : BitVec 3)
  | max (d a b : BitVec 5) (g : BitVec 3)
  | minu (d a b : BitVec 5) (g : BitVec 3)
  | maxu (d a b : BitVec 5) (g : BitVec 3)
  | clz (d a : BitVec 5) (g : BitVec 3)
  | ctz (d a : BitVec 5) (g : BitVec 3)
  | popc (d a : BitVec 5) (g : BitVec 3)
  | bswap (d a : BitVec 5) (g : BitVec 3)
  | sext (d a w : BitVec 5) (g : BitVec 3)
  | zext (d a w : BitVec 5) (g : BitVec 3)
  | addw (d a b : BitVec 5) (g : BitVec 3)
  | mov (d a : BitVec 5) (g : BitVec 3)
  | movCompact (d a : BitVec 5)
  | addCompact (d a : BitVec 5)
  | subCompact (d a : BitVec 5)
  | andCompact (d a : BitVec 5)
  | orCompact (d a : BitVec 5)
  | xorCompact (d a : BitVec 5)
  | shlCompact (d a : BitVec 5)
  | shrCompact (d a : BitVec 5)
  | addi (d a : BitVec 5) (i : BitVec 12)
  | addiCompact (d : BitVec 5) (i : BitVec 8)
  | andi (d a : BitVec 5) (i : BitVec 12)
  | ori (d a : BitVec 5) (i : BitVec 12)
  | xori (d a : BitVec 5) (i : BitVec 12)
  | shli (d a : BitVec 5) (k : BitVec 6)
  | shri (d a : BitVec 5) (k : BitVec 6)
  | sari (d a : BitVec 5) (k : BitVec 6)
  | rori (d a : BitVec 5) (k : BitVec 6)
  | lim (d : BitVec 5) (i : BitVec 19)
  | limCompact (d : BitVec 5) (i : BitVec 8)
  | lis (d : BitVec 5) (s : BitVec 2) (i : BitVec 16)
  | ceq (p : BitVec 3) (a b : BitVec 5) (g : BitVec 3)
  | cne (p : BitVec 3) (a b : BitVec 5) (g : BitVec 3)
  | clt (p : BitVec 3) (a b : BitVec 5) (g : BitVec 3)
  | cle (p : BitVec 3) (a b : BitVec 5) (g : BitVec 3)
  | cltu (p : BitVec 3) (a b : BitVec 5) (g : BitVec 3)
  | cleu (p : BitVec 3) (a b : BitVec 5) (g : BitVec 3)
  | pand (p a b g : BitVec 3)
  | por (p a b g : BitVec 3)
  | pxor (p a b g : BitVec 3)
  | pnot (p a g : BitVec 3)
  | pfx (p : BitVec 3) (a : BitVec 5) (g : BitVec 3)
  | xfp (d : BitVec 5) (a g : BitVec 3)
  | fceq (p : BitVec 3) (a b : BitVec 5) (g : BitVec 3) (z : BitVec 1)
  | fclt (p : BitVec 3) (a b : BitVec 5) (g : BitVec 3) (z : BitVec 1)
  | fcle (p : BitVec 3) (a b : BitVec 5) (g : BitVec 3) (z : BitVec 1)
  | fcun (p : BitVec 3) (a b : BitVec 5) (g : BitVec 3) (z : BitVec 1)
  | ceqi (p : BitVec 3) (a : BitVec 5) (i : BitVec 12)
  | cnei (p : BitVec 3) (a : BitVec 5) (i : BitVec 12)
  | clti (p : BitVec 3) (a : BitVec 5) (i : BitVec 12)
  | cltui (p : BitVec 3) (a : BitVec 5) (i : BitVec 12)
  | br (g : BitVec 3) (n : BitVec 1) (o : BitVec 20)
  | brCompact (g : BitVec 3) (n : BitVec 1) (o : BitVec 9)
  | call (n : BitVec 5) (o : BitVec 16)
  | callr (n a : BitVec 5)
  | alloc (n : BitVec 5) (h : BitVec 1)
  | jmpr (a : BitVec 5)
  | mfs (d : BitVec 5) (n : BitVec 12)
  | mts (a : BitVec 5) (n : BitVec 12)
  | fadd (d a b : BitVec 5) (g : BitVec 3) (z : BitVec 1)
  | fsub (d a b : BitVec 5) (g : BitVec 3) (z : BitVec 1)
  | fmul (d a b : BitVec 5) (g : BitVec 3) (z : BitVec 1)
  | ffma (d a b : BitVec 5) (g : BitVec 3) (z : BitVec 1)
  | fdiv (d a b : BitVec 5) (g : BitVec 3) (z : BitVec 1)
  | fsqrt (d a : BitVec 5) (g : BitVec 3) (z : BitVec 1)
  | fmin (d a b : BitVec 5) (g : BitVec 3) (z : BitVec 1)
  | fmax (d a b : BitVec 5) (g : BitVec 3) (z : BitVec 1)
  | fabs (d a : BitVec 5) (g : BitVec 3) (z : BitVec 1)
  | fneg (d a : BitVec 5) (g : BitVec 3) (z : BitVec 1)
  | fcvti (d a k : BitVec 5) (g : BitVec 3) (z : BitVec 1)
  | fcvtf (d a k : BitVec 5) (g : BitVec 3) (z : BitVec 1)
  | fcvtw (d a : BitVec 5) (g : BitVec 3) (z : BitVec 1)
  | fcvtb (d a c : BitVec 5) (g : BitVec 3) (z : BitVec 1)
  | fclass (d a : BitVec 5) (g : BitVec 3) (z : BitVec 1)
  | ldB (d b : BitVec 5) (i : BitVec 11)
  | ldBu (d b : BitVec 5) (i : BitVec 11)
  | ldH (d b : BitVec 5) (i : BitVec 11)
  | ldHu (d b : BitVec 5) (i : BitVec 11)
  | ldW (d b : BitVec 5) (i : BitVec 11)
  | ldWu (d b : BitVec 5) (i : BitVec 11)
  | ldD (d b : BitVec 5) (i : BitVec 11)
  | ldDCompact (d b : BitVec 5) (o : BitVec 2)
  | stB (s b : BitVec 5) (i : BitVec 11)
  | stH (s b : BitVec 5) (i : BitVec 11)
  | stW (s b : BitVec 5) (i : BitVec 11)
  | stD (s b : BitVec 5) (i : BitVec 11)
  | stDCompact (s b : BitVec 5) (o : BitVec 2)
  | ldsB (d b : BitVec 5) (i : BitVec 11)
  | ldsBu (d b : BitVec 5) (i : BitVec 11)
  | ldsH (d b : BitVec 5) (i : BitVec 11)
  | ldsHu (d b : BitVec 5) (i : BitVec 11)
  | ldsW (d b : BitVec 5) (i : BitVec 11)
  | ldsWu (d b : BitVec 5) (i : BitVec 11)
  | ldsD (d b : BitVec 5) (i : BitVec 11)
  | chk (a : BitVec 5) (o : BitVec 19)
  | sld (d a : BitVec 5) (g : BitVec 3) (o : BitVec 2)
  | sst (a b : BitVec 5) (g : BitVec 3) (o : BitVec 2)
  | aadd (d a b : BitVec 5) (g : BitVec 3) (o : BitVec 2)
  | aswap (d a b : BitVec 5) (g : BitVec 3) (o : BitVec 2)
  | acas (d a b : BitVec 5) (g : BitVec 3) (o : BitVec 2)
  | aand (d a b : BitVec 5) (g : BitVec 3) (o : BitVec 2)
  | aor (d a b : BitVec 5) (g : BitVec 3) (o : BitVec 2)
  | axor (d a b : BitVec 5) (g : BitVec 3) (o : BitVec 2)
  | amax (d a b : BitVec 5) (g : BitVec 3) (o : BitVec 2)
  | amin (d a b : BitVec 5) (g : BitVec 3) (o : BitVec 2)
  | amaxu (d a b : BitVec 5) (g : BitVec 3) (o : BitVec 2)
  | aminu (d a b : BitVec 5) (g : BitVec 3) (o : BitVec 2)
  | fence (g s : BitVec 3) (k : BitVec 2)
  | flushr (a : BitVec 5) (g : BitVec 3)
  | tlend (a b : BitVec 5) (g : BitVec 3)
  | tret (a : BitVec 5) (g : BitVec 3)
  | tgive (a b : BitVec 5) (g : BitVec 3)
  | tsplit (d a b : BitVec 5) (g : BitVec 3)
  | tshare (a b : BitVec 5) (g : BitVec 3)
  | tjoin (a : BitVec 5) (g : BitVec 3)
  | tqry (d a : BitVec 5) (g : BitVec 3)
  | twait (d a b : BitVec 5) (g : BitVec 3)
  | tseal (a : BitVec 5) (g : BitVec 3)
  | tunseal (a : BitVec 5) (g : BitVec 3)
  | tclr (a : BitVec 5) (g : BitVec 3)
  | tclaim (d a : BitVec 5) (g : BitVec 3)
  | vadd (d a b : BitVec 4) (g : BitVec 3)
  | vsub (d a b : BitVec 4) (g : BitVec 3)
  | vmul (d a b : BitVec 4) (g : BitVec 3)
  | vfma (d a b : BitVec 4) (g : BitVec 3)
  | vmin (d a b : BitVec 4) (g : BitVec 3)
  | vmax (d a b : BitVec 4) (g : BitVec 3)
  | vabs (d a : BitVec 4) (g : BitVec 3)
  | vneg (d a : BitVec 4) (g : BitVec 3)
  | vand (d a b : BitVec 4) (g : BitVec 3)
  | vor (d a b : BitVec 4) (g : BitVec 3)
  | vxor (d a b : BitVec 4) (g : BitVec 3)
  | vshl (d a : BitVec 4) (k : BitVec 5) (g : BitVec 3)
  | vshr (d a : BitVec 4) (k : BitVec 5) (g : BitVec 3)
  | vcvt (d a : BitVec 4) (p g : BitVec 3)
  | vscl (d a : BitVec 4) (k : BitVec 5) (g : BitVec 3)
  | vreds (d a : BitVec 4) (g : BitVec 3)
  | vredm (d a : BitVec 4) (m : BitVec 1) (g : BitVec 3)
  | vbc (d : BitVec 4) (a : BitVec 5) (g : BitVec 3)
  | vext (d : BitVec 5) (a : BitVec 4) (i : BitVec 5) (g : BitVec 3)
  | vins (d : BitVec 4) (a i : BitVec 5) (g : BitVec 3)
  | vperm (d a b : BitVec 4) (g : BitVec 3)
  | vsel (d a b : BitVec 4) (g : BitVec 3)
  | vcmpeq (d a b : BitVec 4) (g : BitVec 3)
  | vcmpeqPred (l : BitVec 1) (p : BitVec 3) (a b : BitVec 4) (g : BitVec 3)
  | vcmplt (d a b : BitVec 4) (g : BitVec 3)
  | vcmpltPred (l : BitVec 1) (p : BitVec 3) (a b : BitVec 4) (g : BitVec 3)
  | vcmple (d a b : BitVec 4) (g : BitVec 3)
  | vcmplePred (l : BitVec 1) (p : BitVec 3) (a b : BitVec 4) (g : BitVec 3)
  | viota (d : BitVec 4) (a : BitVec 5) (g : BitVec 3)
  | vrnd (d : BitVec 4) (a : BitVec 5) (g : BitVec 3)
  | vdgst (a : BitVec 4) (g : BitVec 3)
  | vfmt (d a : BitVec 4) (g : BitVec 3)
  | vmov (d a : BitVec 4) (g : BitVec 3)
  | vdesc (d : BitVec 4) (a : BitVec 5) (g : BitVec 3)
  | vld (d : BitVec 4) (b : BitVec 5) (i : BitVec 11)
  | vst (c : BitVec 1) (s : BitVec 4) (b : BitVec 5) (i : BitVec 11)
  | vlds (d : BitVec 4) (b : BitVec 5) (i : BitVec 11)
  | vsts (s : BitVec 4) (b : BitVec 5) (i : BitVec 11)
  | mma (h : BitVec 2) (f : BitVec 3) (a b : BitVec 5) (g : BitVec 3)
  | mzero (h : BitVec 2) (f g : BitVec 3)
  | mld (h : BitVec 2) (f : BitVec 3) (a : BitVec 5) (g : BitVec 3)
  | mst (h : BitVec 2) (f : BitVec 3) (a : BitVec 5) (e : BitVec 1) (g : BitVec 3)
  | msnap (h : BitVec 2) (f : BitVec 3) (a b : BitVec 5) (g : BitVec 3)
  | mwait (h : BitVec 2) (f g : BitVec 3)
  | mwaitCompact (h : BitVec 2) (f : BitVec 3)
  | mstat (h : BitVec 2) (f : BitVec 3) (b : BitVec 5) (g : BitVec 3)
  | mcanc (h : BitVec 2) (f g : BitVec 3)
  | mres (h : BitVec 2) (f g : BitVec 3)
  | rndk (d a : BitVec 5) (g : BitVec 3)
  | dgst (a : BitVec 5) (g : BitVec 3)
  | qbind (q : BitVec 3) (a b : BitVec 5) (g : BitVec 3)
  | qunb (q g : BitVec 3)
  | qrd (d : BitVec 5) (q g : BitVec 3)
  | qrdCompact (q : BitVec 3) (d : BitVec 5)
  | qwr (a : BitVec 5) (q g : BitVec 3)
  | qwrCompact (q : BitVec 3) (a : BitVec 5)
  | qpoll (p q g : BitVec 3)
  | qstat (d : BitVec 5) (q g : BitVec 3)
  | send (a b : BitVec 5) (g n : BitVec 3)
  | sendr (d a b : BitVec 5) (g n : BitVec 3)
  | reply (b : BitVec 5) (g n : BitVec 3)
  | hret (g : BitVec 3)
  | hmask (a : BitVec 5) (g : BitVec 3)
  | hunm (a : BitVec 5) (g : BitVec 3)
  | hset (a b : BitVec 5) (g : BitVec 3)
  | cpy (s : BitVec 3) (a : BitVec 5) (g : BitVec 3)
  | gath (s : BitVec 3) (a : BitVec 5) (g : BitVec 3)
  | scat (s : BitVec 3) (a : BitVec 5) (g : BitVec 3)
  | coll (s : BitVec 3) (a : BitVec 5) (g : BitVec 3)
  | node (d a b : BitVec 5) (g : BitVec 3)
  | ewt (d a : BitVec 5) (g : BitVec 3)
  | echk (d a : BitVec 5) (g : BitVec 3)
  | edec (a : BitVec 5) (g : BitVec 3)
  | spawn (d a b : BitVec 5) (g : BitVec 3)
  | migr (a : BitVec 5) (g : BitVec 3)
  | steal (d a : BitVec 5) (g : BitVec 3)
  | yield (g : BitVec 3)
  | endStrand (g : BitVec 3)
  | gang (a : BitVec 5) (g : BitVec 3)
  | bar (a : BitVec 5) (g : BitVec 3)
  | barCompact (a : BitVec 5)
  | sopen (d a k : BitVec 5) (g : BitVec 3)
  | sclose (a : BitVec 5) (g : BitVec 3)
  | scanc (a : BitVec 5) (g : BitVec 3)
  | swin (a : BitVec 5) (g : BitVec 3)
  | shld (g : BitVec 3)
  | sunsh (g : BitVec 3)
  | cpt (g : BitVec 3)
  | sres (d a : BitVec 5) (r : BitVec 1) (g : BitVec 3)
  | nop (g : BitVec 3)
  | pause (a : BitVec 5) (g : BitVec 3)
  | pauseCompact (a : BitVec 5)
  | trap (a : BitVec 5) (g : BitVec 3)
  | eret (g : BitVec 3)
  | sleep (a : BitVec 5) (g : BitVec 3)
  | krf (t s d : BitVec 5)
  | kbfx (t s d : BitVec 5)
  | kswt (s d : BitVec 5)
  | kdsp (t s d : BitVec 5)
  | ret
  | retCompact
  | hretCompact
  | yieldCompact
  | endCompact
  | cptCompact
  | nopCompact
  | lateFaultTrap | groupSpill | groupFill | linkRecordSpill | bankPowerOff | matrixStep | engineSector
  | engineCommandEnd | nodeReservationRetry | l0Eviction | atsCompletion | priResponse | atsInvalidation | flitSend
  | flitArrival | negativeAcknowledge | flitAcknowledge | truncationTimeout | partitionRestart | message
  | replyArrival | refusal | sendResend | queueWord | creditRequest | creditGrant | creditRequestRetry
  | syncCellOperation | syncCellReply | migration | spawnPlacement | wheelReplace | overflowRefill | admission
  | autoMigration | codeStore | handlerTableWrite | start | imageLoad | engineCommand | stealRequest | stealReply
  | tokenQuery | tokenQueryReply | memoryRead | readReply | memoryWrite | writeAcknowledgement | engineData
  | collectiveData | tokenRequest | tokenGrant | tokenGrantArrival | weightReturn | refillRequest | refillReply
  | cancelPacket | successDeclaration | closeStatus | barrierArrival | barrierRelease | predecessorDecrement
  | acknowledgement | kilnControl | digest | healthEvent | heartbeatSend | heartbeat | heartbeatWindowEnd | spareRemap
  | coreStop | sentinelReplay | supplyAdjust | budgetPeriodStart | quantumEnd | replayDiverged | twaitTimeout
  | barTimeout | sleepEnd | preemptionRequest | preemptionSave | preemptionRestore | clusterGate | kilnGate
  | wakeSequence | coreWake | thermalLimit | thermalShutdown | kilnDispatch | kilnWatchdog | doorbell | queue0Create
  | svncommit | writeSlot | reset | errorInjection | logEntryClear | registerWrite | hostBar2Access | launch | cancel
  | switchOut | switchIn | regionCreate | regionDestroy | migrate | powerCap | partition | nopCommand | tenantCreate
  | queueCreate | queueDestroy | powerOn | firmwareBringup | firmwareTimeout | spdmRequest | peerLinkUp | peerLinkDown
  | notAnInstruction | sequentialFlowPastEnd | pauseEnd | kilnTimer | modulePowerCrossesCap | coldReset | refreshFault
  deriving DecidableEq, Repr

end Sys2Proof
end

