-- ==== Sys2Proof/Machine/State.lean ====
section
/-! DEFINITION. The state of the module: plain data, holding every piece of state the manual names (INVENTORY.md lists
each with its rule), the faults and refusals of the model, and the state after reset. Tables with few used entries are
lists of keys and values in rising key order; what an unlisted key reads as is fixed by its accessor. -/

namespace Sys2Proof.Machine

/-- A table by key, in strictly rising key order (Machine/Maps.lean). -/
abbrev Assoc (β : Type) := List (Nat × β)

/-- The module's memories never stop the model: every access the manual calls absent raises a trap of R187. The one
fault is an address that no storage of the module holds, asked for by an event from outside (R176: the unused part of
the window). Safe: the model stops where the manual gives the requester no answer. -/
inductive Fault where
  | noSuchAddress
  deriving DecidableEq, Repr

/-- Why an instruction has no meaning in a state. -/
inductive Refusal where
  /-- Raised by an arm of Dispatch.lean that has no meaning yet. Safe: nothing is claimed of the instruction. -/
  | notModelled (mnemonic : String)
  /-- Raised by an instruction of a strand executed in a state whose current strand is not live: no core issues it
  (R314). Safe: `step` never does so. -/
  | noStrand
  /-- Raised by an instruction of the Kiln executed in a state with no current hart (R354). Safe: `step` never does. -/
  | noHart
  deriving DecidableEq, Repr

/-! ### Strands -/

/-- A position of the register stack: value, D bit (R40), and its error state (R53): `lost` is the error bit that a fill
brought back, `flip` the bits of the stored entry that differ from those its check bits stand for (R194). -/
structure RegEntry where
  val : Word := 0
  d : Bool := false
  lost : Bool := false
  flip : Word := 0
  deriving DecidableEq, Repr

/-- A link record (R47). -/
structure LinkRec where
  trap : Bool
  s : Nat
  n : Nat
  pc : BitVec 16
  deriving DecidableEq, Repr

/-- A vector register: 64 bytes, descriptor (R49), and the flipped bits of its eight protected words (R143, R194). -/
structure VReg where
  data : Block := 0
  desc : Desc := 0
  flip : Block := 0
  deriving DecidableEq, Repr

/-- A binding of a queue register (R236, R270). `num` numbers a send binding, by which credits and refusals find it, and
the pair FIFO of a pair binding. `words` holds received words of kind 1 and unsent words of kind 0; `reserved` counts, for a
receive side, the entries granted to each sender (its handle and the number of its binding) and not yet used; `requests`
holds its waiting credit requests. `asked`: a credit request of a send side is out. -/
structure Binding where
  kind : BitVec 3
  num : Nat := 0
  side : Bool := false
  chan : BitVec 6 := 0
  partner : Handle := 0
  pdev : BitVec 16 := 0
  broken : Bool := false
  dead : Bool := false
  credits : Nat := 0
  words : List Word := []
  asked : Bool := false
  reserved : List (Handle × Nat × Nat) := []
  requests : List (Handle × Nat × Nat) := []
  deriving DecidableEq, Repr

/-- A record of the open-scope stack (R296), with the stock of weight the opener holds in the scope (R299). `s` is the
window size before the SOPEN. `returned`: the SCLOSE has returned the stock (R334). -/
structure OpenRec where
  scope : ScopeId
  /-- the number of the SOPEN: a later scope may have the same identifier -/
  num : Nat := 0
  w : Nat
  s : Nat
  k : Nat
  stock : Nat
  returned : Bool := false
  deriving DecidableEq, Repr

/-- What a handler activation was started by (R255, R277). `reply`: the sender and number of a SENDR not yet
answered; `from_`: the sender's core, a peer device's from 512 on. -/
structure Activation where
  lcore : Nat
  chan : BitVec 6
  from_ : Nat := 0
  reply : Option (Handle × Nat × Nat)
  deriving DecidableEq, Repr

/-- A store held back in an idempotent region (R185): the physical key, the bytes, and for a whole block its
descriptor. -/
structure HeldStore where
  va : Word
  key : Nat
  bytes : List Byte
  desc : Option Desc
  /-- a further unit of the VSTS held before it: the two count as one store (R155) -/
  more : Bool := false
  deriving DecidableEq, Repr

/-- The idempotent region a strand is inside (R185). -/
structure Idem where
  start : BitVec 16
  stop : BitVec 16
  stores : List HeldStore := []
  deriving DecidableEq, Repr

/-- A sync-cell operation whose reply has not come (R202, R203). -/
structure PendSync where
  number : Nat
  dst : Option Nat
  key : Nat
  acq : Bool
  reads : Bool
  writes : Bool
  deriving DecidableEq, Repr

/-- The answer that a home or a timer gives a waiting instruction. -/
inductive Answer where
  | done
  | value (v : Word)
  | words (status : BitVec 8) (ws : List Word)
  | close (status : BitVec 3) (res : Word)
  | refused (cause : BitVec 8)
  | timeout
  | trap (t : Trap)
  deriving DecidableEq, Repr

/-- What a strand waits for; a waiting strand does not issue (R237, R314). -/
inductive Wait where
  /-- nothing: the strand is runnable -/
  | none
  /-- the answer numbered `n` of a home, an engine, a Wheel or the Kiln's loader -/
  | reply (n : Nat)
  /-- the answer numbered `n`, where the wait observes cancellation (R303) -/
  | point (n : Nat)
  /-- the end of a SLEEP -/
  | sleep (n : Nat)
  /-- every access already issued has its reply (R218) -/
  | drain
  /-- the accesses that a FENCE of this kind names (R204); `core`: for the parties of its own core -/
  | fence (kind : BitVec 2) (core : Bool := false)
  /-- a word to read, or room to write one, in queue register `q` (R272) -/
  | queueIn (q : Nat)
  | queueOut (q : Nat)
  /-- DONE in the completion word at a memory key (R290). In a QUANTA scope the EWT waits at the word's home once its request
  has been served there: `home` (R397). -/
  | word (key : Nat) (home : Bool := true)
  /-- a right to a region (TWAIT, R209) -/
  | token (region : Word) (n : Nat)
  /-- a tile operation (R158, R159) -/
  | tile
  /-- a page of a tenant (R183) -/
  | page (pasid : BitVec 20) (page : Nat) (need : BitVec 2)
  /-- for the answer of the host's IOMMU, with no page request: of an LDS (R199), and in an idempotent region (R186) -/
  | ats (pasid : BitVec 20) (page : Nat)
  /-- a token leaving RECLAIMING (R207) -/
  | reclaim (region : Word)
  /-- a core that has stopped and answers no packet (R378); the fault of an LDS is deferred (R199) -/
  | silent (pcore : Nat) (va : Word) (lds : Bool := false)
  /-- a spill or fill of its registers or link records (R43, R46) -/
  | spill
  /-- a spill or fill of its registers that another strand waits for (R132) -/
  | transfer
  /-- a refill of its weight (R299) -/
  | refill
  /-- the close of the innermost open scope by the default action (R304) -/
  | closing
  /-- the acknowledgement of its migration (R326), an automatic one or that of a MIGR -/
  | migrating (n : Nat) (auto : Bool)
  deriving DecidableEq, Repr

/-- A strand in its slot. `sk` = 16 × physical core + slot; the handle is made of it and of `gen` (R54). -/
structure Strand where
  sk : Nat
  gen : BitVec 18
  scope : ScopeId
  image : Nat := 0
  gang : ScopeId := 0
  rank : BitVec 16 := 0
  nrank : BitVec 16 := 1
  /-- the number of the wait of its BAR (R331) -/
  barWait : Option Nat := none
  collStep : Nat := 0
  pc : BitVec 17
  w : Nat := 0
  s : Nat := 8
  stack : Assoc RegEntry := []
  /-- resident groups with their places in the physical register store (R43) -/
  groups : Assoc Nat := []
  /-- groups in the spill area -/
  spilled : List Nat := []
  /-- link records, newest first; the oldest `linkSpilled` of them stand in the spill area (R46) -/
  links : List LinkRec := []
  linkSpilled : Nat := 0
  preds : BitVec 8 := 0
  vset : Bool := false
  vregs : Assoc VReg := []
  ox0 : Word := 0
  ox1 : Word := 0
  ox2 : Word := 0
  ox3 : Word := 0
  queues : Assoc Binding := []
  retired : Word := 0
  quantum : BitVec 32 := 0
  qpos : BitVec 16 := 0
  frm : BitVec 2 := 0
  fflags : BitVec 6 := 0
  vfmt : Desc := 0x0001
  mfmt : Desc := 0x0002
  rkey0 : Word := 0
  rkey1 : Word := 0
  trapcode : BitVec 16 := 0
  trappc : Word := 0
  trapva : Word := 0
  trapaux : Word := 0
  trapDepth : Nat := 0
  spillbase : Word := 0
  sender : Handle := 0
  chan : BitVec 6 := 0
  digest : Word := 0
  /-- performance counters 0x200–0x20B and 0x230–0x233 by number (R392) -/
  perf : Assoc Word := []
  /-- sw.evs0–sw.evs3 by number -/
  evs : Assoc (BitVec 10) := []
  opens : List OpenRec := []
  weight : Nat := 0
  saggar : Bool := false
  cancelSeen : Bool := false
  prio : BitVec 4 := 0
  act : Option Activation := none
  idem : Option Idem := none
  /-- a commit whose store to a sync cell is not performed yet: its number, and the held stores after it (R185, R233) -/
  commit : Option (Nat × List HeldStore) := none
  wait : Wait := .none
  answer : Option Answer := none
  /-- the PRI response that has ended a wait for a page (R182) with a code, or without a translation: the page, the permissions, the code. It stands until the
  access has met it, through the run from START of an aborted region (R186). -/
  pageAns : Option (Nat × BitVec 2 × BitVec 4) := none
  /-- the page for which the host's IOMMU has answered the current access without a page request (R186, R199) -/
  atsAns : Option Nat := none
  /-- the truncated reply that its current instruction will meet (R250) -/
  cut : Option (BitVec 8) := none
  /-- the number of resends of a waiting SEND or command, for its back-off (R253) -/
  backoff : Nat := 0
  pend : List PendSync := []
  /-- faults of sync-cell operations reported after they had retired (R410), oldest first -/
  late : List Trap := []
  /-- a trap raised whose entry waits for accesses, spills or fills (R308, R320), with its sw.trappc -/
  raised : Option (Trap × Word) := none
  /-- token transfers issued (R203); those in `State.outst` are not performed yet -/
  moves : List Nat := []
  /-- engine commands issued (R203); see `State.unread` -/
  cmds : List Nat := []
  remoteHome : BitVec 10 := 0
  remoteCount : BitVec 12 := 0
  serial : Nat := 0
  /-- instructions retired since a pre-emption request (R316) -/
  preempt : Option Nat := none
  /-- strands that go first after a YIELD (R328) -/
  yieldTo : List Nat := []
  /-- the cycle at which the strand's PAUSE runs out; 0 when none is under way (R341) -/
  pauseTo : Nat := 0
  /-- the default action is under way: true when it parks owned tokens (R213, R304) -/
  dying : Bool := false
  /-- does the strand take part in the current quantum of its domain (R382) -/
  inQuantum : Bool := true
  /-- the node whose strand this is (R288) -/
  node : Option Nat := none
  deriving DecidableEq, Repr

/-! ### Cores -/

/-- A line of the L0 buffer (R180), keyed by the memory key of its 64 bytes. `diff` marks injected bit errors of each
of its eight words (R192); `place` is its place in the array, which its log entries name (R193); `keyid` and `integ` are
those of its region (R189); `tags` are the tenants and virtual offsets it has been reached under. -/
structure L0Line where
  data : Block
  desc : Desc
  dirty : Bool
  diff : Block := 0
  place : Nat := 0
  keyid : BitVec 12 := 0
  integ : Bool := false
  tags : List (BitVec 20 × Nat) := []
  /-- the scope of the last store to it, for which it is written back (R374) -/
  scope : ScopeId := 0
  deriving DecidableEq, Repr

/-- An accumulator tile (R51, R67): its holder, its 256 elements, and the flipped bits of its protected words by their
number (R143, R194). -/
structure Tile where
  holder : Option Nat := none
  elems : Assoc A34 := []
  flip : Assoc Word := []
  steps : BitVec 32 := 0
  total : BitVec 16 := 0
  deriving DecidableEq, Repr

inductive OpState where
  | running
  | suspended
  deriving DecidableEq, Repr

/-- A matrix operation (R158, R161, R168). -/
structure TileOp where
  sk : Nat
  aBase : Word
  bBase : Word
  ox : Word
  k : Nat
  steps : Nat
  total : Nat
  shape : BitVec 2
  first : BitVec 3
  state : OpState := .running
  cause : BitVec 8 := 0
  va : Word := 0
  flags : BitVec 6 := 0
  number : Nat := 0
  paused : Bool := false
  pageAns : Option (Nat × BitVec 2 × BitVec 4) := none
  /-- lane counts of A and B, from their first blocks; 0 before the first step -/
  la : Nat := 0
  lb : Nat := 0
  deriving DecidableEq, Repr

/-- A saved strand (R316 to R319): the masks of its save, what the record of R317 holds, and what the Kiln keeps beside
it. `pos` orders the records; `off` is the record's place in the save area, none where there was no room. -/
structure Saved where
  top : ScopeId
  full : Bool := true
  pmask : BitVec 8 := 0xFF
  qmask : BitVec 8 := 0xFF
  vmask : BitVec 16 := 0xFFFF
  amask : BitVec 8 := 0xFF
  xmask : BitVec 32 := 0xFFFFFFFF
  st : Strand
  tiles : Assoc Tile := []
  ops : List TileOp := []
  parked : List (Word × BitVec 20) := []
  lcore : Nat
  ctx : Ctx
  pos : Nat
  off : Option Nat := none
  deriving DecidableEq, Repr

/-- Power state of a register bank (R52). -/
inductive BankState where
  | on
  | retention
  | off
  deriving DecidableEq, Repr

/-- An entry of an error log (R193). -/
structure LogEntry where
  w0 : Word := 0
  w1 : Word := 0
  w2 : Word := 0
  w3 : Word := 0
  deriving DecidableEq, Repr

/-- A physical core. Tile operations are listed in issue order. -/
structure Core where
  lines : Assoc L0Line := []
  gens : Assoc (BitVec 18) := []
  tiles : Assoc Tile := []
  ops : List TileOp := []
  /-- bank power states, and the cycle since which no group of the bank is allocated -/
  banks : Assoc BankState := []
  bankIdle : Assoc Nat := []
  arrival : List Ctx := []
  overflow : List Ctx := []
  deque : List Ctx := []
  serials : Assoc Nat := []
  rr : Nat := 15
  cancels : List ScopeId := []
  issued : Assoc Nat := []
  stopped : Bool := false
  gated : Bool := false
  logs : Assoc LogEntry := []
  inject : Assoc Word := []
  coreIssue : Word := 0
  coreIdle : Word := 0
  coreWakes : Word := 0
  dead : Bool := false
  retired : Bool := false
  missed : BitVec 2 := 0
  sent : BitVec 32 := 0
  beat : Bool := false
  noisy : Nat := 0
  quiet : Nat := 0
  deriving DecidableEq, Repr

/-- An entry of a handler table (R349) with its mailbox (R252). -/
structure Handler where
  pc : BitVec 16 := 0
  prio : BitVec 4 := 0
  depth : BitVec 5 := 0
  mask : Bool := false
  active : Option Nat := none
  tenant : BitVec 12 := 0
  scratch : Word := 0
  /-- regions that the channel borrowed under an entry that is gone: they return when its activation ends (R403) -/
  back : List (Word × BitVec 20) := []
  box : List Msg := []
  deriving DecidableEq, Repr

/-- What is kept by logical core: handler table, neighbour FIFOs of the reading core (R241; the cycle from which each
word is visible), instruction-store ranges by tenant (R231), and the Kiln's copy of the store (R379). -/
structure LCore where
  handlers : Assoc Handler := []
  fifoL : List (Nat × Word) := []
  fifoR : List (Nat × Word) := []
  ranges : List (BitVec 12 × Nat × Nat) := []
  copy : Assoc (BitVec 8) := []
  deriving DecidableEq, Repr

/-- A pair FIFO (R270), between the writing and the reading strand. -/
structure Pair where
  num : Nat
  outH : Handle
  inH : Handle
  outB : Bool := false
  inB : Bool := false
  words : List (Nat × Word) := []
  broken : Bool := false
  deriving DecidableEq, Repr

/-! ### Clusters, engines, links -/

inductive NodeState where
  | free
  | waiting
  | running
  | sending
  deriving DecidableEq, Repr

/-- An entry of a node table (R347). -/
structure Node where
  gen : BitVec 16 := 0
  state : NodeState := .free
  op : BitVec 3 := 0
  fscope : BitVec 3 := 0
  pred : Nat := 0
  mscope : ScopeId := 0
  succ1 : BitVec 16 := 0xFFFF
  succ0 : BitVec 16 := 0xFFFF
  creator : Handle := 0
  weight : Nat := 0
  blk : List Word := []
  issue : Option EngCmd := none
  deriving DecidableEq, Repr

/-- A cluster: node table, routing word (R351), health counts (R391) and cone counters by scope (R374). The weight
mirrors of its scope unit (R301) are the view `State.mirror` of the weights that members on its cores hold. -/
structure Cluster where
  nodes : Assoc Node := []
  tokenCtl : Word := 0
  linken : BitVec 4 := 0
  intermask : BitVec 4 := 0
  corr : Word := 0
  uncorr : Word := 0
  retry : Word := 0
  discard : Word := 0
  ignored : Word := 0
  dropped : Word := 0
  sentcl : Word := 0
  cluFlits : Word := 0
  cluTrunc : Word := 0
  flits : Assoc Nat := []
  sectors : Assoc Nat := []
  gated : Bool := false
  deriving DecidableEq, Repr

/-- An engine (R260): its inbox in order of arrival, how many commands have entered it, and the one served last. -/
structure Engine where
  inbox : List EngCmd := []
  entered : Nat := 0
  turn : Nat := 0
  /-- its partition is down (R249) -/
  stopped : Bool := false
  deriving DecidableEq, Repr

/-- One class of a link (R247, R248, R249). The transmitter: the flits that wait, the number of the packet in progress or 0,
the retry buffer (SEQ, flit, times sent), the next SEQ. The receiver: its reassembly context, with the port by which the
packet goes on, and the flits in its input buffer. -/
structure LinkClass where
  queue : List Flit := []
  current : Nat := 0
  retryBuf : List (BitVec 5 × Flit × Nat) := []
  seq : BitVec 5 := 0
  active : Bool := false
  hdr : BitVec 192 := 0
  hdrParcel : Nat := 0
  got : Nat := 0
  out : Option Nat := none
  since : Nat := 0
  nextSeq : BitVec 5 := 0
  buffer : Nat := 0
  deriving DecidableEq, Repr

/-- A link: its three classes (0 C, 1 U, 2 B), the count of flit times B has waited, and whether it bars new C and U
packets until a B flit is sent (R247). -/
structure Link where
  cls : Assoc LinkClass := []
  bWait : Nat := 0
  bar : Bool := false
  stopped : Bool := false
  deriving DecidableEq, Repr

/-! ### Module tables -/

inductive TokState where
  | free
  | held
  | lent
  | shared
  | split
  | sealed_
  | poisoned
  | reclaiming
  deriving DecidableEq, Repr

/-- An entry of the token directory (R345), with the parties that have given up rights before the home has recorded it
and those whose grant has not arrived (R208). -/
structure Token where
  region : Word
  pasid : BitVec 20
  keyid : BitVec 12 := 0
  integ : Bool := false
  state : TokState
  prior : TokState := .free
  splitlog : BitVec 3 := 0
  owner : Party
  lost : Bool := false
  borrowers : List Party := []
  shares : List Party := []
  parent : Word := 0
  tagbase : Word := 0
  leaving : List Party := []
  /-- the owner has issued a TGIVE (R399), or so many TSHAREs, that the home has not recorded -/
  giving : Bool := false
  sharing : Nat := 0
  coming : List Party := []
  /-- the step of a migration: 1 the region is released, 2 copied, 3 its translation invalidated (R226) -/
  migration : BitVec 2 := 0
  /-- the ranges of the region whose invalidation has completed since it was copied: base and size -/
  gone : List (Nat × Nat) := []
  /-- the return of this live borrower makes the token POISONED, owned by the fault-domain scope (R346) -/
  orphan : Option (ScopeId × Party) := none
  deriving DecidableEq, Repr

inductive ScopeState where
  | unused
  | isOpen
  | draining
  deriving DecidableEq, Repr

/-- A scope control block (R294). -/
structure Scb where
  parent : ScopeId := 0
  id : ScopeId
  state : ScopeState := .isOpen
  saved : Bool := false
  shield : BitVec 2 := 0
  sys : Bool := false
  faulted : Bool := false
  damaged : Bool := false
  won : Bool := false
  cancelled : Bool := false
  dmode : BitVec 2 := 0
  prio : BitVec 4 := 15
  qlenm1 : BitVec 12 := 255
  tier : BitVec 2 := 0
  arrdepth : BitVec 7 := 16
  corelim : BitVec 4 := 0
  spawnlim : BitVec 16 := 0
  migthr : BitVec 12 := 0
  declreg : BitVec 9 := 64
  deadline : Word := 0xFFFFFFFFFFFFFFFF
  issmin : BitVec 16 := 7168
  issmax : BitVec 16 := 0xFFFF
  fltmin : BitVec 16 := 7168
  fltmax : BitVec 16 := 0xFFFF
  memmin : BitVec 16 := 7168
  memmax : BitVec 16 := 0xFFFF
  fdom : ScopeId := 0
  trappc : BitVec 16 := 0
  cancpc : BitVec 16 := 0
  trapv : Bool := false
  cancv : Bool := false
  result : Word := 0
  outw : Nat := 0
  issued : Nat := 0
  pweight : Nat := 0
  live : BitVec 32 := 0
  opener : Handle := 0
  openerSk : Nat := 0
  /-- the number of its SOPEN -/
  num : Nat := 0
  pasid : BitVec 20 := 0
  keyid : BitVec 12 := 0
  opw : BitVec 10 := 0
  ops : BitVec 6 := 0
  opk : BitVec 6 := 0
  savearea : Word := 0
  logbase : Word := 0
  loglen : BitVec 32 := 0
  logpos : BitVec 32 := 0
  tenant : BitVec 12 := 0
  /-- the issue, flit and memory cone maxima that the Kiln has set for the next budget period (R32, R373) -/
  capped : Option (BitVec 16 × BitVec 16 × BitVec 16) := none
  deriving DecidableEq, Repr

/-- A launch by the host (R311, R355): its cores, entry, completion record, and the ranks it has still to release. -/
structure Launch where
  first : Nat
  count : Nat
  compl : Word
  tag : Word
  deadline : Word
  released : Nat := 0
  tenant : BitVec 12 := 0
  deriving DecidableEq, Repr

/-- A gang's barrier and its collective steps (R330, R331, R287). `members` holds the rank and strand of each live
member; `arrived` the ranks that have arrived at generation `gen`; `ahead` those at the next; `dead` the dead members to
report, with the ranks that have still to hear. -/
structure Gang where
  nrank : Nat
  members : List (Nat × Handle) := []
  gen : Nat := 0
  /-- by rank, the generation of its next BAR, or of the one it waits in (R331, R406) -/
  gens : Assoc Nat := []
  arrived : List Nat := []
  ahead : List Nat := []
  dead : List (Nat × List Nat) := []
  /-- collective steps: index, rank, command -/
  steps : List (Nat × Nat × EngCmd) := []
  digests : List (Nat × Nat × Word) := []
  /-- contributions to a step's current sector: step, rank, block -/
  parts : List (Nat × Nat × Block × Desc) := []
  /-- steps that have ended as a whole, with their code (R287) -/
  ended : List (Nat × BitVec 15) := []
  scope : ScopeId := 0
  deriving DecidableEq, Repr

/-- A loaded image (R105 to R111): its range in the stores, its side table and its region table. -/
structure Image where
  textbase : Nat
  size : Nat
  tenant : BitVec 12
  points : List (BitVec 16 × BitVec 8 × BitVec 8 × BitVec 32 × BitVec 16 × BitVec 8) := []
  regions : List (BitVec 16 × BitVec 16) := []
  deriving DecidableEq, Repr

/-- Where a request for a page stands (R181, R182): at the host's IOMMU; at the host as a page request, `sent` or waiting
its turn; at the IOMMU again after a response of Success; at the IOMMU for an access that sends no page request yet. -/
inductive PageStage where
  | ats
  | pri
  | again
  | quiet
  deriving DecidableEq, Repr

/-- A page that accesses wait for. -/
structure PageReq where
  pasid : BitVec 20
  page : Nat
  /-- the permissions the access needs: bit 0 read, bit 1 write -/
  need : BitVec 2
  stage : PageStage
  sent : Bool
  deriving DecidableEq, Repr

/-- A copy in a queue control block (R263). -/
structure QcbCopy where
  ringva : Word := 0
  ringsize : BitVec 32 := 0
  head : BitVec 32 := 0
  tenant : BitVec 16 := 0
  state : BitVec 8 := 0
  tiermin : BitVec 8 := 0
  errcode : BitVec 16 := 0
  pend : BitVec 32 := 0xFFFFFFFF
  consumed : Word := 0
  deriving DecidableEq, Repr

structure Qcb where
  gen : Word := 0
  a : QcbCopy := {}
  b : QcbCopy := {}
  headSince : Nat := 0
  deriving DecidableEq, Repr

/-- A hart of the Kiln (R354, R362). -/
structure Hart where
  regs : Assoc Word := []
  pc : Word := 0
  mtvec : Word := 0
  pending : BitVec 9 := 0
  mcause : Word := 0
  mtval : Word := 0
  mepc : Word := 0
  waiting : Bool := false
  /-- the other machine-mode registers of RISC-V (PRESUMED, log entry 36): MIE and MPIE of mstatus, the enables of mie,
  mscratch, minstret, and the address and size of a load-reserve's reservation -/
  mie : Bool := false
  mpie : Bool := false
  enables : Word := 0
  mscratch : Word := 0
  minstret : Word := 0
  reservation : Option (Nat × Nat) := none
  /-- the cycle from which the watchdog counts (R354), and the page that a KRF has asked for (R181, R359) -/
  since : Nat := 0
  asked : Option (BitVec 20 × Nat) := none
  deriving DecidableEq, Repr

/-- An entry of the key table (R171, R189): the pair of AES-256-XTS keys, and the integrity key. -/
structure KeyPair where
  xts : BitVec 512 := 0
  integ : BitVec 256 := 0
  deriving DecidableEq, Repr

/-- The Kiln, the host port and the always-on part (R262 to R266, R354 to R367, R412). -/
structure Kiln where
  harts : Assoc Hart := []
  queues : Assoc Qcb := []
  tails : Assoc (BitVec 32) := []
  latched : Assoc Word := []
  latchOrder : List Nat := []
  discards : Nat := 0
  log : List (Word × Nat) := []
  /-- dispatch records of the firmware that a Wheel has taken and whose launch has not begun: TAG, cluster (R364) -/
  placing : List (Word × Nat) := []
  q0ring : Word := 0
  q0size : Word := 0
  q0create : Bool := false
  mode : BitVec 4 := 0
  slot : BitVec 4 := 0
  cause : BitVec 8 := 0
  svn : BitVec 8 := 0
  fuses : BitVec 8 := 0
  slotA : Option SlotImage := none
  slotB : Option SlotImage := none
  failures : Nat := 0
  bootlog : Assoc Word := []
  mboxCmd : Word := 0
  mboxArg : Word := 0
  mboxResp : Word := 0
  /-- the upload buffer, by word (R367) -/
  buffer : Assoc Word := []
  ktime0 : Nat := 0
  gated : Bool := false
  /-- the key ids given to tenants, and the key table by key id -/
  keys : List (BitVec 12) := []
  keyTable : Assoc KeyPair := []
  tenants : List (BitVec 12 × ScopeId) := []
  /-- fault events written to the host: code, fault domain, detail (R309, R390) -/
  reports : List (Nat × ScopeId × List Word) := []
  /-- signed answers to attestation requests, by index (R368) -/
  measured : List (Nat × List (BitVec 8)) := []
  /-- peer devices whose Kiln has authenticated itself (R369) -/
  peersAuth : List Nat := []
  /-- the pairs of the tenant pairing tables: device number, tenant (R369) -/
  paired : List (Nat × BitVec 12) := []
  saves : Assoc Saved := []
  /-- scopes whose save found its area too small (R317) -/
  noResume : List ScopeId := []
  deriving DecidableEq, Repr

/-- A strand's request held to its quantum's end (R383, R409). -/
structure Held where
  phase : Nat
  lcore : Nat
  serial : Nat
  order : Nat
  lane : Nat
  ev : Instr
  /-- accesses of an issuer outside the domain that come first -/
  waits : List Nat := []
  deriving DecidableEq, Repr

/-- What an event is about: the packet that arrives, the strand whose timer ends. -/
inductive Payload where
  | none
  | n1 (a : Nat)
  | n2 (a b : Nat)
  | n3 (a b c : Nat)
  | flag (b : Bool)
  | word (n : Nat) (v : Word)
  | msg (m : Msg)
  | reply (r : ReplyMsg)
  | refused (cause : BitVec 8) (what : Refused)
  | queueWord (lcore : Nat) (chan : BitVec 6) (sender : Handle) (num : Nat) (w : Word)
  | fifo (pair : Bool) (num : Nat) (right : Bool) (writer : Handle) (w : Word)
  | creditRequest (lcore : Nat) (chan : BitVec 6) (sender : Handle) (num count : Nat)
  | creditGrant (sender : Handle) (num count : Nat) (nochan : Bool)
  | syncReq (r : SyncReq)
  | syncAns (r : SyncAns)
  | ctx (place : Nat) (named : Option Nat) (c : Ctx)
  | code (lcore off : Nat) (bytes : List (BitVec 8))
  | released (r : LoadReq) (image gang : Nat) (start : Ctx)
  | started (r : LoadReq)
  | handler (lcore chan : Nat) (e : HandlerEntry)
  | load (r : LoadReq)
  | cmd (c : EngCmd)
  | steal (thief : Nat) (handle : Handle) (number victim : Nat)
  /-- a placement that has been sent to a core -/
  | sentTo (lcore cluster : Nat) (named : Option Nat) (c : Ctx)
  | stolen (thief : Nat) (handle : Handle) (number : Nat) (c : Option Ctx)
  | tokReq (number : Nat) (r : TokReq)
  | memReq (r : MemReq)
  | memAns (r : MemAns)
  | grant (g : Grant)
  | weight (scope : ScopeId) (w : Nat) (lost live : Bool)
  | strand (sk : Nat) (handle : Handle) (n : Nat)
  | scopeAt (scope : ScopeId) (n : Nat)
  | win (scope : ScopeId) (w : Word) (party : Nat) (retired : Word)
  | close (scope : ScopeId) (num sk : Nat) (opener : Handle) (status : BitVec 3) (res : Word)
  | answer (sk : Nat) (handle : Handle) (number : Nat) (a : Answer)
  | node (number : Nat) (w : Word) (c : EngCmd)
  | digest (gang step rank : Nat) (d : Word)
  | decrement (node : Nat) (gen : Option (BitVec 16)) (count : Nat)
  | flit (port : Nat) (f : Flit)
  | trans (e : TransEntry)
  | page (pasid : BitVec 20) (page : Nat) (code : BitVec 4)
  | invalidate (pasid : BitVec 20) (vbase logSize : Nat)
  | host (c : HostCmd) (phase : Nat)
  | bar2 (off : Nat) (write : Option (BitVec 64)) (tag : Nat)
  | reject (sub : BitVec 8) (w : Word32)
  | scopeOp (sk : Nat) (handle : Handle) (number : Nat) (scope : ScopeId) (op : Nat) (retired : Word)
  deriving DecidableEq, Repr

/-- A quantum domain (R382): held requests in order of issue, and the phase of the end in progress. -/
structure Domain where
  held : List (Held × Payload) := []
  ending : Bool := false
  started : Bool := true
  count : Nat := 0
  deriving DecidableEq, Repr

/-! ### The schedule (log entry 1) -/

/-- An event that is due or in flight. Events of one nonzero lane happen in order (R251); `waits` names the sync-cell
operations that must have been performed first (R203, R232). -/
structure Pending where
  due : Nat := 0
  lane : Nat := 0
  waits : List Nat := []
  ev : Instr
  arg : Payload := .none
  /-- the class, source and destination of its packet, as a lane gives them (R251); 0 for what no packet carries -/
  route : Nat := 0
  /-- the number of its packet while that crosses a link (R246); 0 for none -/
  parcel : Nat := 0
  deriving DecidableEq, Repr

/-- One choice of the schedule: which of the moves that are possible comes next, and how many cycles pass. -/
structure SchedEntry where
  pick : Nat
  wait : Nat
  deriving DecidableEq, Repr

/-- Who moves next: the schedule chooses, or a strand, a hart or an event of the agenda is fixed. -/
inductive Turn where
  | choose
  | issue (sk : Nat)
  | hart (h : Nat)
  | event (i : Nat)
  deriving DecidableEq, Repr

structure State where
  /-- all memories of the module and the host, one key space (Config); canonical, an unlisted byte reads 0 -/
  mem : List Host.Cell
  /-- descriptors by key of a 64-byte block (R63); an unlisted one is 0 -/
  descs : Assoc Desc
  /-- flipped bits against the stored check words, by key of an 8-byte word (R188, R192) -/
  errs : Assoc Word
  /-- sectors whose word of the tag area is the inverted tag of what they hold (R189, R194); the others hold its tag -/
  badTags : List Nat
  /-- the pair of keys under which a sector is stored (R189); 0, plaintext, where none is listed -/
  seals : Assoc (BitVec 512)
  strands : Assoc Strand
  cores : Assoc Core
  lcores : Assoc LCore
  clusters : Assoc Cluster
  engines : Assoc Engine
  links : Assoc Link
  pairs : List Pair
  tokens : List Token
  scopes : Assoc Scb
  launches : Assoc Launch
  gangs : Assoc Gang
  images : Assoc Image
  domains : Assoc Domain
  /-- close statuses kept at the home for an opener that is saved, by the number of the SOPEN (R334) -/
  kept : List (Nat × BitVec 3 × Word)
  /-- the positions each core's cluster map gives: physical position of the spare in use, by cluster (R18) -/
  spares : Assoc Nat
  /-- the translation store with its caches, whose replacement is not architectural (R181, R350) -/
  trans : List TransEntry
  /-- the model's own field: translations that have gone, the newest first, by which the regions of device memory are still
  told apart (R189, R193; log entry 23) -/
  oldTrans : List TransEntry
  pages : List PageReq
  pageAlloc : Nat
  pagesOn : Bool
  /-- Invalidation Completions sent (R184) -/
  invalidations : Nat
  devwin : Word
  /-- the host's writes so far, and those it had made before its last doorbell (R223) -/
  hostSeq : Nat
  bellSeq : Nat
  cxlRanges : List (Nat × Nat)
  unitLogs : Assoc LogEntry
  unitInject : Assoc Word
  parts : Assoc (BitVec 2 × BitVec 2)
  peers : Assoc (BitVec 2 × BitVec 12 × Word)
  /-- packets that have left for peer devices (R369) -/
  peerOut : List (Instr × Payload)
  powerCap : Nat
  noAdmit : Bool
  supply : Assoc Nat
  powerOff : Bool
  cycle : Nat
  kiln : Kiln
  /-- order-log positions by site, for LTIME (R387) -/
  ltimes : List (ScopeId × Nat × Word × Nat)
  /-- requests of REPLAY scopes that wait for their turn: scope, kind, site, choice, since (R388) -/
  stuck : List (ScopeId × Nat × Word × Nat × Nat)
  /-- cells that hold the completion word of a command that has ended (R386) -/
  doneWords : List Nat
  agenda : List Pending
  outst : List Nat
  /-- the requests taken in this cycle: the place that took them, the rank of the sender (R202, R254) -/
  served : List (Nat × Nat)
  /-- when work last left a cluster (R34) -/
  idleAt : Assoc Nat
  sched : List SchedEntry
  turn : Turn
  cur : Nat
  curHart : Nat
  arg : Payload
  fresh : Nat
  deriving DecidableEq, Repr

/-- The module after cold reset, before its start-up (R365, R366): booting, nothing in its stores, every bank OFF, no
strand, and the power-on sequence due. The values the manual does not give are those of log entries 1 to 6. -/
def State.reset : State where
  mem := []
  descs := []
  errs := []
  badTags := []
  seals := []
  strands := []
  cores := []
  lcores := []
  clusters := []
  engines := []
  links := []
  pairs := []
  tokens := []
  scopes := []
  launches := []
  gangs := []
  images := []
  domains := []
  kept := []
  spares := []
  trans := []
  oldTrans := []
  pages := []
  pageAlloc := 4096
  pagesOn := true
  invalidations := 0
  devwin := 0
  hostSeq := 0
  bellSeq := 0
  cxlRanges := []
  unitLogs := []
  unitInject := []
  parts := []
  peers := []
  peerOut := []
  powerCap := 2300
  noAdmit := false
  supply := []
  powerOff := false
  cycle := 0
  kiln := {}
  ltimes := []
  stuck := []
  doneWords := []
  agenda := [{ ev := .powerOn }]
  outst := []
  served := []
  idleAt := []
  sched := []
  turn := .choose
  cur := 0
  curHart := 0
  arg := .none
  fresh := 0

end Sys2Proof.Machine
end

