-- ==== Sys2Proof/Machine/Maps.lean ====
section
/-! DEFINITION. Tables by key, and the named places of the state: strands, cores, clusters, engines, scopes. A table is
a list of keys and values in strictly rising key order. -/

namespace Sys2Proof.Machine

/-- The value listed under a key. -/
def Assoc.find {β : Type} : Assoc β → Nat → Option β
  | [], _ => none
  | (k, v) :: rest, i => if i = k then some v else Assoc.find rest i

/-- The table with the value of a listed key replaced. -/
def Assoc.replace {β : Type} : Assoc β → Nat → β → Assoc β
  | [], _, _ => []
  | (k, u) :: rest, i, v => if i = k then (i, v) :: rest else (k, u) :: Assoc.replace rest i v

/-- The table with a new key at its place in the order. -/
def Assoc.place {β : Type} : Assoc β → Nat → β → Assoc β
  | [], i, v => [(i, v)]
  | (k, u) :: rest, i, v => if i < k then (i, v) :: (k, u) :: rest else (k, u) :: Assoc.place rest i v

/-- The table with one key's value replaced or added. -/
def Assoc.insert {β : Type} (l : Assoc β) (i : Nat) (v : β) : Assoc β :=
  if (l.find i).isSome then l.replace i v else l.place i v

def Assoc.erase {β : Type} (l : Assoc β) (i : Nat) : Assoc β := l.filter fun kv => kv.1 != i

/-- Reading with a default, and a write that keeps no entry equal to the default. -/
def Assoc.get {β : Type} (dflt : β) (l : Assoc β) (i : Nat) : β := (l.find i).getD dflt

def Assoc.put {β : Type} [DecidableEq β] (dflt : β) (l : Assoc β) (i : Nat) (v : β) : Assoc β :=
  if v = dflt then l.erase i else l.insert i v

/-- Keys rise strictly. -/
def Assoc.sorted {β : Type} : Assoc β → Bool
  | [] => true
  | [_] => true
  | (k, _) :: (k', v') :: rest => k < k' && Assoc.sorted ((k', v') :: rest)

/-! ### Places of the state -/

/-- Physical core of a strand key, and its slot. -/
def pcoreOf (sk : Nat) : Nat := sk / 16
def slotOf (sk : Nat) : Nat := sk % 16
/-- Cluster and position of a physical core (R17). -/
def clusterOf (pcore : Nat) : Nat := pcore / 17
def posOf (pcore : Nat) : Nat := pcore % 17
def quadOf (cluster : Nat) : Nat := cluster / 8

def State.strand (s : State) (sk : Nat) : Option Strand := s.strands.find sk
def State.setStrand (s : State) (st : Strand) : State := { s with strands := s.strands.insert st.sk st }
def State.dropStrand (s : State) (sk : Nat) : State := { s with strands := s.strands.erase sk }

/-- Changes a strand that lives; nothing otherwise. -/
def State.modStrand (s : State) (sk : Nat) (f : Strand → Strand) : State :=
  match s.strand sk with
  | some st => s.setStrand (f st)
  | none => s

def State.core (s : State) (pcore : Nat) : Core := s.cores.get {} pcore
def State.setCore (s : State) (pcore : Nat) (c : Core) : State := { s with cores := s.cores.insert pcore c }
def State.modCore (s : State) (pcore : Nat) (f : Core → Core) : State := s.setCore pcore (f (s.core pcore))

def State.lcore (s : State) (l : Nat) : LCore := s.lcores.get {} l
def State.modLCore (s : State) (l : Nat) (f : LCore → LCore) : State :=
  { s with lcores := s.lcores.insert l (f (s.lcore l)) }

def State.cluster (s : State) (c : Nat) : Cluster := s.clusters.get {} c
def State.modCluster (s : State) (c : Nat) (f : Cluster → Cluster) : State :=
  { s with clusters := s.clusters.insert c (f (s.cluster c)) }

/-- Work leaves a cluster: the time that it has been idle counts from now (R34). -/
def State.workLeaves (s : State) (c : Nat) : State := { s with idleAt := s.idleAt.insert c s.cycle }

def State.engine (s : State) (e : Nat) : Engine := s.engines.get {} e
def State.modEngine (s : State) (e : Nat) (f : Engine → Engine) : State :=
  { s with engines := s.engines.insert e (f (s.engine e)) }

def State.scb (s : State) (id : ScopeId) : Option Scb := s.scopes.find id.toNat
def State.setScb (s : State) (b : Scb) : State := { s with scopes := s.scopes.insert b.id.toNat b }
def State.modScb (s : State) (id : ScopeId) (f : Scb → Scb) : State :=
  match s.scb id with
  | some b => s.setScb (f b)
  | none => s

/-- The SCB of a scope that must exist; an absent one reads as an unused block. -/
def State.scope (s : State) (id : ScopeId) : Scb := (s.scb id).getD { id := id, state := .unused }

def State.modKiln (s : State) (f : Kiln → Kiln) : State := { s with kiln := f s.kiln }
def State.hart (s : State) (h : Nat) : Hart := s.kiln.harts.get {} h
def State.modHart (s : State) (h : Nat) (f : Hart → Hart) : State :=
  s.modKiln fun k => { k with harts := k.harts.insert h (f (s.hart h)) }

/-- The physical core that serves a logical core, if any (R17, R18, R391): its own position, or the spare. -/
def State.physical (s : State) (l : Nat) : Option Nat :=
  let c := l / 16
  let p := 17 * c + l % 16
  if (s.core p).dead then
    if s.spares.find c = some (l % 16) && !(s.core (17 * c + 16)).dead then some (17 * c + 16) else none
  else some p

/-- The active position a physical core serves; 31 for none (R391). -/
def State.lpos (s : State) (pcore : Nat) : Nat :=
  if posOf pcore = 16 then (s.spares.find (clusterOf pcore)).getD 31
  else if s.spares.find (clusterOf pcore) = some (posOf pcore) then 31 else posOf pcore

/-- The logical core a physical core serves (R17); one that serves none any more counts as that of its own position. -/
def State.logical (s : State) (pcore : Nat) : Nat :=
  16 * clusterOf pcore + (if s.lpos pcore = 31 then posOf pcore else s.lpos pcore) % 16

/-- Has the logical core been retired (R18)? -/
def State.isRetired (s : State) (l : Nat) : Bool := (s.core (17 * (l / 16) + l % 16)).retired

/-- The handle of a strand key and generation (R54). -/
def handleOf (sk : Nat) (gen : BitVec 18) : Handle :=
  let c := clusterOf (pcoreOf sk)
  BitVec.ofNat 2 (quadOf c) ++ BitVec.ofNat 3 (c % 8) ++ BitVec.ofNat 5 (posOf (pcoreOf sk))
    ++ BitVec.ofNat 4 (slotOf sk) ++ gen

def Strand.handle (st : Strand) : Handle := handleOf st.sk st.gen
def Strand.pcore (st : Strand) : Nat := pcoreOf st.sk
def Strand.cluster (st : Strand) : Nat := clusterOf st.pcore

def handleGen (h : Handle) : BitVec 18 := h.extractLsb' 0 18
def handlePos (h : Handle) : Nat := (h.extractLsb' 22 5).toNat
def handleCluster (h : Handle) : Nat := (h.extractLsb' 27 5).toNat
def handleSlot (h : Handle) : Nat := (h.extractLsb' 18 4).toNat
/-- The strand key a handle names. -/
def handleSk (h : Handle) : Nat := 16 * (17 * handleCluster h + handlePos h) + handleSlot h

/-- The live strand a handle names: its slot carries the generation (R55). -/
def State.named (s : State) (h : Handle) : Option Strand :=
  if handlePos h ≤ 16 then
    match s.strand (handleSk h) with
    | some st => if st.gen = handleGen h then some st else none
    | none => none
  else none

/-- The strand of a numbered wait, when it still lives. -/
def State.waiter (s : State) (sk : Nat) (h : Handle) : Option Strand :=
  match s.strand sk with
  | some st => if st.handle = h then some st else none
  | none => none

/-- Bit 0 of a pc is 0 (R83): one written with it set, by an override or a link record, loses it (log entry 43). -/
def evenPc (pc : BitVec 16) : BitVec 16 := pc &&& 0xFFFE

/-! ### Events -/

/-- Puts an event into the agenda. -/
def State.push (s : State) (p : Pending) : State := { s with agenda := s.agenda ++ [p] }

/-! The nodes that packets go between (R244): logical core `l` is node `l`; then the units of the clusters, the Kiln, and the
peer devices. -/

/-- Unit `u` of cluster `c`, by its DUNIT. -/
def unitNode (c u : Nat) : Nat := 512 + 16 * c + u
def kilnNode : Nat := 1024
/-- A core as a node: core `l` of peer device `dev` is numbered 512 dev + l, and stands behind node 2,048. -/
def coreNode (l : Nat) : Nat := if l < 512 then l else 2048 + l
def peerNode (dev : Nat) : Nat := coreNode (512 * dev)
def engineNode (e : Nat) : Nat := unitNode (e / 4) (3 + e % 4)

/-- The lane of ordered packets of class `cls` from a source to a destination (R251): of one lane, an event happens only
after those sent before it. Class 3 is what no link carries. -/
def laneOf (cls src dst : Nat) : Nat := 1 + cls + 4 * (src + 2 ^ 33 * dst)

def routeClass (r : Nat) : Nat := (r - 1) % 4
def routeSrc (r : Nat) : Nat := (r - 1) / 4 % 2 ^ 33
def routeDst (r : Nat) : Nat := (r - 1) / 2 ^ 35

/-- An event in order behind the others of its lane (0: no lane). -/
def State.send (s : State) (lane : Nat) (ev : Instr) (arg : Payload) : State :=
  s.push { due := s.cycle, lane := lane, route := lane, ev := ev, arg := arg }

/-- A packet of class B without the ordered bit: it keeps no order with others (R251). -/
def State.bulk (s : State) (src dst : Nat) (ev : Instr) (arg : Payload) : State :=
  s.push { due := s.cycle, route := laneOf 2 src dst, ev := ev, arg := arg }

/-- The packet of an event has left for a peer device (R369): what the device does with it is its own. -/
def State.leaves (s : State) (ev : Instr) : State := { s with peerOut := s.peerOut ++ [(ev, s.arg)] }

/-- An event at a later cycle. -/
def State.after (s : State) (cycles : Nat) (ev : Instr) (arg : Payload) : State :=
  s.push { due := s.cycle + cycles, ev := ev, arg := arg }

/-- A fresh number for an operation that will be answered. -/
def State.number (s : State) : Nat × State := (s.fresh, { s with fresh := s.fresh + 1 })

/-- A free value (log entry 2). -/
def State.freeWord (s : State) : Word × State := (Config.freeWord s.fresh, { s with fresh := s.fresh + 1 })

/-- Gives a waiting strand its answer; an ended strand, or one that waits for something else, discards it. -/
def State.reply (s : State) (sk : Nat) (h : Handle) (n : Nat) (a : Answer) : State :=
  match s.waiter sk h with
  | some st =>
    if st.wait = .reply n ∨ st.wait = .point n ∨ st.wait = .sleep n then
      s.setStrand { st with wait := .none, answer := some a }
    else s
  | none => s

/-- What an instruction or an event answers. -/
abbrev Out := Host.Outcome State Fault Refusal

end Sys2Proof.Machine
end

