-- ==== Sys2Proof/Machine/Flags.lean ====
section
/-! DEFINITION. The sticky flags of sw.fflags (R56, R72). What sets each stands with the rounding of Numbers.lean; every
instruction that rounds ORs them in (R74). -/

namespace Sys2Proof.Machine

def fNone : BitVec 6 := 0
def fInvalid : BitVec 6 := 1
def fDivzero : BitVec 6 := 2
def fOverflow : BitVec 6 := 4
def fUnderflow : BitVec 6 := 8
def fInexact : BitVec 6 := 16
def fSaturated : BitVec 6 := 32

def flagIf (b : Bool) (f : BitVec 6) : BitVec 6 := if b then f else 0

/-- ORs flags into sw.fflags (R57, R74). -/
def Strand.orFlags (st : Strand) (f : BitVec 6) : Strand := { st with fflags := st.fflags ||| f }

end Sys2Proof.Machine
end

