-- ==== Sys2Proof/Machine/Numbers.lean ====
section
/-! DEFINITION. Numbers: formats, exact values, rounding, saturation and flags (R59 to R73), the internal format A34 (R67),
exact arithmetic on values, the generator and the digest step (R80 to R82). -/

namespace Sys2Proof.Machine

/-! ### Exact values -/

/-- An exact value: NaN, an infinity, or (−1)^neg × m × 2^e. -/
inductive Num where
  | nan
  | inf (neg : Bool)
  | fin (neg : Bool) (m : Nat) (e : Int)
  deriving DecidableEq, Repr

/-- m × 2^d rounded down, and the part cut off, as a Nat over 2^(−d). -/
def shiftDown (m : Nat) (d : Int) : Nat := if 0 ≤ d then m <<< d.toNat else m >>> (-d).toNat
def cutOff (m : Nat) (d : Int) : Nat := if 0 ≤ d then 0 else m % 2 ^ (-d).toNat

/-- Order of two magnitudes. -/
def cmpMag (m : Nat) (e : Int) (n : Nat) (f : Int) : Ordering :=
  let lo := min e f
  compare (m <<< (e - lo).toNat) (n <<< (f - lo).toNat)

def Num.isNan : Num → Bool
  | .nan => true
  | _ => false

def Num.isZero : Num → Bool
  | .fin _ 0 _ => true
  | _ => false

def Num.sign : Num → Bool
  | .nan => false
  | .inf n => n
  | .fin n _ _ => n

def Num.neg : Num → Num
  | .nan => .nan
  | .inf n => .inf (!n)
  | .fin n m e => .fin (!n) m e

/-- The value as a signed integer over 2^lo. -/
def signedOver (neg : Bool) (m : Nat) (e lo : Int) : Int :=
  let v : Int := Int.ofNat (m <<< (e - lo).toNat)
  if neg then -v else v

/-- A < B of two values that are not NaN, zeros equal. -/
def Num.lt (a b : Num) : Bool :=
  match a, b with
  | .inf n, .inf n' => n && !n'
  | .inf n, .fin _ _ _ => n
  | .fin _ _ _, .inf n => !n
  | .fin n m e, .fin n' m' e' => signedOver n m e (min e e') < signedOver n' m' e' (min e e')
  | _, _ => false

def Num.eqv (a b : Num) : Bool := !a.isNan && !b.isNan && !a.lt b && !b.lt a

/-- The larger or smaller of two values (R72): −0 is less than +0, one NaN yields the other operand. -/
def Num.pick (max : Bool) (a b : Num) : Num :=
  if a.isNan then b
  else if b.isNan then a
  else
    let less := a.lt b || (a.isZero && b.isZero && a.sign && !b.sign)
    if less = max then b else a

/-! ### Rounding -/

/-- Rounding modes (R69). -/
inductive Mode where
  | rne
  | rtz
  | rdn
  | rup
  deriving DecidableEq, Repr

def modeOf (m : BitVec 2) : Mode :=
  match m.toNat with
  | 0 => .rne
  | 1 => .rtz
  | 2 => .rdn
  | _ => .rup

/-- Does a directed mode take the next larger magnitude? -/
def Mode.away (m : Mode) (neg : Bool) : Bool :=
  match m with
  | .rup => !neg
  | .rdn => neg
  | _ => false

/-- m × 2^d rounded to an integer: the result and whether it is inexact. Ties go to even. -/
def roundInt (mode : Mode) (neg : Bool) (m : Nat) (d : Int) : Nat × Bool :=
  let r := shiftDown m d
  let c := cutOff m d
  if c = 0 then (r, false)
  else
    let half := 2 ^ ((-d).toNat - 1)
    let up := match mode with
      | .rne => half < c || (c = half && r % 2 = 1)
      | _ => mode.away neg
    (if up then r + 1 else r, true)

/-- The formats (R60, R66, R67). `flt`: exponent bits, fraction bits, bias; the last field tells the IEEE formats (infinity
and NaN) from E5M2, E4M3 and E2M1, which saturate. -/
inductive FltKind where
  | ieee
  | e5m2
  | e4m3
  | e2m1
  deriving DecidableEq, Repr

inductive Fmt where
  | flt (eb fb bias : Nat) (kind : FltKind)
  | int (signed : Bool) (bits : Nat)
  | uniform4
  | power4
  | hybrid4
  deriving DecidableEq, Repr

def fmtFp32 : Fmt := .flt 8 23 127 .ieee
def fmtBf16 : Fmt := .flt 8 7 127 .ieee
def fmtFp16 : Fmt := .flt 5 10 15 .ieee
def fmtE4m3 : Fmt := .flt 4 3 7 .e4m3
def fmtE5m2 : Fmt := .flt 5 2 15 .e5m2
def fmtE2m1 : Fmt := .flt 2 1 1 .e2m1
def fmtFp64 : Fmt := .flt 11 52 1023 .ieee
def fmtA34 : Fmt := .flt 10 23 511 .ieee

/-- The exponent of the last place of a format's subnormals. -/
def lastPlace (fb bias : Nat) : Int := 1 - Int.ofNat bias - Int.ofNat fb

/-- The value of a pattern (R60, R66, R67). -/
def unpack (f : Fmt) (x : Nat) : Num :=
  match f with
  | .flt eb fb bias kind =>
    let neg := (x >>> (eb + fb)) % 2 = 1
    let e := (x >>> fb) % 2 ^ eb
    let fr := x % 2 ^ fb
    let top := 2 ^ eb - 1
    let q := lastPlace fb bias
    if e = top ∧ (kind = .ieee ∨ kind = .e5m2) then (if fr = 0 then .inf neg else .nan)
    else if e = top ∧ kind = .e4m3 ∧ fr = 2 ^ fb - 1 then .nan
    else if e = 0 then .fin (if kind = .e2m1 ∧ fr = 0 then false else neg) fr q
    else .fin neg (2 ^ fb + fr) (q + Int.ofNat (e - 1))
  | .int signed bits =>
    let v := x % 2 ^ bits
    if signed ∧ 2 ^ (bits - 1) ≤ v then .fin true (2 ^ bits - v) 0 else .fin false v 0
  | .uniform4 =>
    let v := x % 16
    if v < 8 then .fin true (8 - v) 0 else .fin false (v - 8) 0
  | .power4 =>
    let i := x % 8
    if i = 0 then .fin false 0 0 else .fin (8 ≤ x % 16) 1 (Int.ofNat i - 4)
  | .hybrid4 =>
    let i := x % 8
    if i = 0 then .fin false 0 0
    else if i < 4 then .fin (8 ≤ x % 16) i 0 else .fin (8 ≤ x % 16) 1 (Int.ofNat i - 2)

/-- The canonical NaN of a floating format (R73). -/
def canonical (eb fb : Nat) (kind : FltKind) : Nat :=
  match kind with
  | .e4m3 => 0x7F
  | _ => (2 ^ eb - 1) * 2 ^ fb + 2 ^ (fb - 1)

/-- The largest finite pattern of a format, without its sign. -/
def largest (eb fb : Nat) (kind : FltKind) : Nat :=
  match kind with
  | .ieee | .e5m2 => (2 ^ eb - 1) * 2 ^ fb - 1
  | .e4m3 => 2 ^ (eb + fb) - 2
  | .e2m1 => 2 ^ (eb + fb) - 1

/-- Rounds a nonzero finite magnitude to a floating format (R69 to R72). -/
def packFlt (eb fb bias : Nat) (kind : FltKind) (mode : Mode) (neg : Bool) (m : Nat) (e : Int) : Nat × BitVec 6 :=
  let q0 := lastPlace fb bias
  let q := max (Int.ofNat m.log2 + e - Int.ofNat fb) q0
  let (r0, ix) := roundInt mode neg m (e - q)
  -- a carry out of the fraction moves up one place
  let (r, q) := if r0 = 2 ^ (fb + 1) then (2 ^ fb, q + 1) else (r0, q)
  let ef := if r < 2 ^ fb then 0 else (q - q0).toNat + 1
  let pat := ef * 2 ^ fb + r % 2 ^ fb
  let sgn := if neg then 2 ^ (eb + fb) else 0
  let small := if kind = .e2m1 then cmpMag m e 1 q0 = .lt else cmpMag m e (2 ^ fb) q0 = .lt
  let top := largest eb fb kind
  if pat ≤ top then
    let z := kind = .e2m1 ∧ pat = 0
    ((if z then 0 else sgn) + pat, flagIf ix fInexact ||| flagIf (ix && small) fUnderflow)
  else if kind = .ieee then
    let toInf := match mode with
      | .rne => true
      | _ => mode.away neg
    (sgn + (if toInf then top + 1 else top), fOverflow ||| fInexact)
  else (sgn + top, fOverflow ||| fInexact ||| fSaturated)

/-- The members of the two Q4 types whose steps are powers of two, extended without an upper bound: member `i`. -/
def member (hybrid : Bool) (i : Nat) : Nat × Int :=
  if i = 0 then (0, 0)
  else if hybrid then (if i < 4 then (i, 0) else (1, Int.ofNat i - 2)) else (1, Int.ofNat i - 4)

/-- The largest member not above a magnitude. -/
def memberBelow (hybrid : Bool) (m : Nat) (e : Int) : Nat :=
  if hybrid then
    if cmpMag m e 4 0 = .lt then shiftDown m e else (Int.ofNat m.log2 + e + 2).toNat
  else if cmpMag m e 1 (-3) = .lt then 0 else (Int.ofNat m.log2 + e + 4).toNat

/-- Rounds a nonzero finite magnitude to one of them; a tie goes to the even index (R69; log entry 11). -/
def packMember (hybrid : Bool) (mode : Mode) (neg : Bool) (m : Nat) (e : Int) : Nat × BitVec 6 :=
  let i := memberBelow hybrid m e
  let (a, ea) := member hybrid i
  let (b, eb) := member hybrid (i + 1)
  let exact := cmpMag m e a ea = .eq
  let lo := min ea eb
  let sum := a <<< (ea - lo).toNat + b <<< (eb - lo).toNat
  let up := match mode with
    | .rne =>
      match cmpMag (2 * m) e sum lo with
      | .lt => false
      | .gt => true
      | .eq => i % 2 = 1
    | _ => mode.away neg
  let j := if exact then i else if up then i + 1 else i
  let (one, eone) := member hybrid 1
  let small := cmpMag m e one eone = .lt
  let sgn := if neg then 8 else 0
  if j ≤ 7 then
    (if j = 0 then 0 else sgn + j, flagIf (!exact) fInexact ||| flagIf (!exact && small) fUnderflow)
  else (sgn + 7, fOverflow ||| fInexact ||| fSaturated)

/-- Rounds a finite magnitude to an integer range and gives the value. -/
def packInt (lo hi : Int) (mode : Mode) (neg : Bool) (m : Nat) (e : Int) : Int × BitVec 6 :=
  let (r, ix) := roundInt mode neg m e
  let v : Int := if neg then -Int.ofNat r else Int.ofNat r
  let small := m != 0 && cmpMag m e 1 0 = .lt
  let under := flagIf (ix && small) fUnderflow
  if v < lo then
    if lo = 0 then (0, fSaturated ||| fInexact ||| under) else (lo, fOverflow ||| fInexact ||| fSaturated)
  else if hi < v then (hi, fOverflow ||| fInexact ||| fSaturated)
  else (v, flagIf ix fInexact ||| under)

/-- A value written in a format: its pattern and the flags (R69 to R73). -/
def pack (f : Fmt) (mode : Mode) (v : Num) : Nat × BitVec 6 :=
  match f with
  | .flt eb fb bias kind =>
    match v with
    | .nan => if kind = .e2m1 then (0, fInvalid) else (canonical eb fb kind, 0)
    | .inf neg =>
      let sgn := if neg then 2 ^ (eb + fb) else 0
      if kind = .ieee then (sgn + largest eb fb kind + 1, 0) else (sgn + largest eb fb kind, fSaturated)
    | .fin neg m e =>
      if m = 0 then (if neg ∧ kind ≠ .e2m1 then 2 ^ (eb + fb) else 0, 0) else packFlt eb fb bias kind mode neg m e
  | .int signed bits =>
    let hi : Int := if signed then 2 ^ (bits - 1) - 1 else 2 ^ bits - 1
    let lo : Int := if signed then -(2 ^ (bits - 1)) else 0
    let enc (x : Int) : Nat := (x % 2 ^ bits).toNat
    match v with
    | .nan => (0, fInvalid)
    | .inf neg => (enc (if neg then lo else hi), fSaturated)
    | .fin neg m e =>
      let (x, fl) := packInt lo hi mode neg m e
      (enc x, fl)
  | .uniform4 =>
    match v with
    | .nan => (8, fInvalid)
    | .inf neg => (if neg then 0 else 15, fSaturated)
    | .fin neg m e =>
      let (x, fl) := packInt (-8) 7 mode neg m e
      ((x + 8).toNat, fl)
  | .power4 | .hybrid4 =>
    match v with
    | .nan => (0, fInvalid)
    | .inf neg => (if neg then 15 else 7, fSaturated)
    | .fin neg m e => if m = 0 then (0, 0) else packMember (f = .hybrid4) mode neg m e

/-! ### Exact arithmetic (R70, R72) -/

/-- The sign of an exact zero sum of opposite signs. -/
def zeroSign (mode : Mode) : Bool := mode = .rdn

/-- A + B, with INVALID for ∞ − ∞. -/
def Num.add (mode : Mode) (a b : Num) : Num × BitVec 6 :=
  match a, b with
  | .nan, _ => (.nan, 0)
  | _, .nan => (.nan, 0)
  | .inf n, .inf n' => if n = n' then (.inf n, 0) else (.nan, fInvalid)
  | .inf n, _ => (.inf n, 0)
  | _, .inf n => (.inf n, 0)
  | .fin n m e, .fin n' m' e' =>
    let lo := min e e'
    let v := signedOver n m e lo + signedOver n' m' e' lo
    if v = 0 then (.fin (if m = 0 ∧ m' = 0 ∧ n = n' then n else zeroSign mode) 0 0, 0)
    else (.fin (v < 0) v.natAbs lo, 0)

/-- A × B, with INVALID for 0 × ∞. -/
def Num.mul (a b : Num) : Num × BitVec 6 :=
  match a, b with
  | .nan, _ => (.nan, 0)
  | _, .nan => (.nan, 0)
  | .inf n, .inf n' => (.inf (n != n'), 0)
  | .inf n, .fin n' m _ => if m = 0 then (.nan, fInvalid) else (.inf (n != n'), 0)
  | .fin n m _, .inf n' => if m = 0 then (.nan, fInvalid) else (.inf (n != n'), 0)
  | .fin n m e, .fin n' m' e' => (.fin (n != n') (m * m') (e + e'), 0)

/-- A × B + C without rounding the product; 0 × ∞ is invalid even when C is NaN (R134). -/
def Num.fma (mode : Mode) (a b c : Num) : Num × BitVec 6 :=
  let (p, f1) := a.mul b
  let (r, f2) := Num.add mode c p
  (r, f1 ||| f2)

/-- A / B to far more places than any format has, with a last place that tells an inexact quotient. -/
def Num.div (a b : Num) : Num × BitVec 6 :=
  match a, b with
  | .nan, _ => (.nan, 0)
  | _, .nan => (.nan, 0)
  | .inf _, .inf _ => (.nan, fInvalid)
  | .inf n, .fin n' _ _ => (.inf (n != n'), 0)
  | .fin n _ _, .inf n' => (.fin (n != n') 0 0, 0)
  | .fin n m e, .fin n' m' e' =>
    if m' = 0 then (if m = 0 then (.nan, fInvalid) else (.inf (n != n'), fDivzero))
    else if m = 0 then (.fin (n != n') 0 0, 0)
    else
      let k := 70 + m'.log2
      let q := (m <<< k) / m'
      let r := (m <<< k) % m'
      (.fin (n != n') (2 * q + (if r = 0 then 0 else 1)) (e - e' - Int.ofNat k - 1), 0)

/-- The integer square root, bit by bit. -/
def isqrt (n : Nat) : Nat :=
  (List.range (n.log2 / 2 + 1)).foldr (fun i r => if (r + 2 ^ i) * (r + 2 ^ i) ≤ n then r + 2 ^ i else r) 0

/-- √A, in the same manner. -/
def Num.sqrt (a : Num) : Num × BitVec 6 :=
  match a with
  | .nan => (.nan, 0)
  | .inf n => if n then (.nan, fInvalid) else (.inf false, 0)
  | .fin n m e =>
    if m = 0 then (.fin n 0 0, 0)
    else if n then (.nan, fInvalid)
    else
      let m := if e % 2 = 0 then m else 2 * m
      let e := if e % 2 = 0 then e else e - 1
      let big := m <<< 140
      let r := isqrt big
      (.fin false (2 * r + (if r * r = big then 0 else 1)) (e / 2 - 71), 0)

/-! ### A34 (R67, R68) -/

def a34Num (x : A34) : Num := unpack fmtA34 x.toNat

/-- Rounds to A34 in RNE. -/
def toA34 (v : Num) : A34 × BitVec 6 :=
  let (p, f) := pack fmtA34 .rne v
  (BitVec.ofNat 34 p, f)

/-! ### The generator and the digest (R80 to R82) -/

/-- K((lo, hi), ctr). -/
def genK (lo hi ctr : Word) : Word :=
  let z0 := ctr ^^^ lo
  let step (zi : Word × Nat) (m : Word) : Word × Nat :=
    let z := zi.1 ^^^ (zi.1 >>> 31)
    let z := z * m
    (z ^^^ hi.rotateRight (13 * zi.2 + 7), zi.2 + 1)
  let z := (Config.genMul.foldl step (z0, 0)).1
  z ^^^ (z >>> 29)

/-- The digest step. -/
def digestStep (d w : Word) : Word := genK d Config.digestKey w

/-- u of R81 as a value: (result >> 40) × 2^−24. -/
def uniformOf (r : Word) : Num := .fin false (r >>> 40).toNat (-24)

end Sys2Proof.Machine
end

