-- ==== Sys2Proof/WellFormed.lean ====
section
/-! DEFINITION. Which instructions are well formed: the combinations of operands that the encoding rules allow beyond
the width of each field (R94, R95 subcodes 3 and 5, R116, R136, R139, R150, R201, R269). -/

namespace Sys2Proof

/-- A group shape needs an even first accumulator for .2h and .2v, and 0 or 4 for .4 (R94, R156). -/
def tileAligned (h : BitVec 2) (f : BitVec 3) : Bool :=
  if h == 0 then true else if h == 3 then f == 0 || f == 4 else f.extractLsb' 0 1 == 0

/-- A MSG word count of 1 to 4 whose words end at or below x31 (R94, R269). -/
def wordCount (n : BitVec 3) (b : BitVec 5) : Bool :=
  1 ≤ n.toNat && n.toNat ≤ 4 && b.toNat + n.toNat ≤ 32

def Instr.wellFormed : Instr → Bool
  | .sext _ _ w _ => w ≤ 2
  | .zext _ _ w _ => w ≤ 2
  | .movCompact d a => !(d == 0 && a == 0)
  | .br g n _ => !(g == 0 && n == 1)
  | .brCompact g n _ => !(g == 0 && n == 1)
  | .fcvti _ _ k _ _ => k ≤ 3
  | .fcvtf _ _ k _ _ => k ≤ 3
  | .fcvtb _ _ c _ _ => c ≤ 3
  | .sld _ _ _ o => o != 2
  | .sst _ _ _ o => o != 1
  | .fence _ s _ => s ≤ 4
  | .vext _ _ i _ => i ≤ 8
  | .vins _ _ i _ => i ≤ 7
  | .mma h f _ _ _ => tileAligned h f
  | .mzero h f _ => tileAligned h f
  | .mld h f _ _ => tileAligned h f
  | .mst h f _ _ _ => tileAligned h f
  | .msnap h f _ _ _ => tileAligned h f
  | .mwait h f _ => tileAligned h f
  | .mwaitCompact h f => tileAligned h f
  | .mstat h f _ _ => tileAligned h f
  | .mcanc h f _ => tileAligned h f
  | .mres h f _ => tileAligned h f
  | .send _ b _ n => wordCount n b
  | .sendr d _ b _ n => wordCount n b && d ≤ 27
  | .reply b _ n => wordCount n b
  | .cpy s _ _ => s ≤ 4
  | .gath s _ _ => s ≤ 4
  | .scat s _ _ => s ≤ 4
  | .coll s _ _ => s ≤ 4
  | .add _ _ _ _ | .sub _ _ _ _ | .mul _ _ _ _ | .mulh _ _ _ _ | .mulhu _ _ _ _ | .div _ _ _ _ | .divu _ _ _ _
  | .rem _ _ _ _ | .remu _ _ _ _ | .and _ _ _ _ | .or _ _ _ _ | .xor _ _ _ _ | .andn _ _ _ _ | .shl _ _ _ _
  | .shr _ _ _ _ | .sar _ _ _ _ | .ror _ _ _ _ | .min _ _ _ _ | .max _ _ _ _ | .minu _ _ _ _ | .maxu _ _ _ _
  | .clz _ _ _ | .ctz _ _ _ | .popc _ _ _ | .bswap _ _ _ | .addw _ _ _ _ | .mov _ _ _ | .addCompact _ _
  | .subCompact _ _ | .andCompact _ _ | .orCompact _ _ | .xorCompact _ _ | .shlCompact _ _ | .shrCompact _ _
  | .addi _ _ _ | .addiCompact _ _ | .andi _ _ _ | .ori _ _ _ | .xori _ _ _ | .shli _ _ _ | .shri _ _ _ | .sari _ _ _
  | .rori _ _ _ | .lim _ _ | .limCompact _ _ | .lis _ _ _ | .ceq _ _ _ _ | .cne _ _ _ _ | .clt _ _ _ _ | .cle _ _ _ _
  | .cltu _ _ _ _ | .cleu _ _ _ _ | .pand _ _ _ _ | .por _ _ _ _ | .pxor _ _ _ _ | .pnot _ _ _ | .pfx _ _ _
  | .xfp _ _ _ | .fceq _ _ _ _ _ | .fclt _ _ _ _ _ | .fcle _ _ _ _ _ | .fcun _ _ _ _ _ | .ceqi _ _ _ | .cnei _ _ _
  | .clti _ _ _ | .cltui _ _ _ | .call _ _ | .callr _ _ | .alloc _ _ | .jmpr _ | .mfs _ _ | .mts _ _ | .fadd _ _ _ _ _
  | .fsub _ _ _ _ _ | .fmul _ _ _ _ _ | .ffma _ _ _ _ _ | .fdiv _ _ _ _ _ | .fsqrt _ _ _ _ | .fmin _ _ _ _ _
  | .fmax _ _ _ _ _ | .fabs _ _ _ _ | .fneg _ _ _ _ | .fcvtw _ _ _ _ | .fclass _ _ _ _ | .ldB _ _ _ | .ldBu _ _ _
  | .ldH _ _ _ | .ldHu _ _ _ | .ldW _ _ _ | .ldWu _ _ _ | .ldD _ _ _ | .ldDCompact _ _ _ | .stB _ _ _ | .stH _ _ _
  | .stW _ _ _ | .stD _ _ _ | .stDCompact _ _ _ | .ldsB _ _ _ | .ldsBu _ _ _ | .ldsH _ _ _ | .ldsHu _ _ _
  | .ldsW _ _ _ | .ldsWu _ _ _ | .ldsD _ _ _ | .chk _ _ | .aadd _ _ _ _ _ | .aswap _ _ _ _ _ | .acas _ _ _ _ _
  | .aand _ _ _ _ _ | .aor _ _ _ _ _ | .axor _ _ _ _ _ | .amax _ _ _ _ _ | .amin _ _ _ _ _ | .amaxu _ _ _ _ _
  | .aminu _ _ _ _ _ | .flushr _ _ | .tlend _ _ _ | .tret _ _ | .tgive _ _ _ | .tsplit _ _ _ _ | .tshare _ _ _
  | .tjoin _ _ | .tqry _ _ _ | .twait _ _ _ _ | .tseal _ _ | .tunseal _ _ | .tclr _ _ | .tclaim _ _ _ | .vadd _ _ _ _
  | .vsub _ _ _ _ | .vmul _ _ _ _ | .vfma _ _ _ _ | .vmin _ _ _ _ | .vmax _ _ _ _ | .vabs _ _ _ | .vneg _ _ _
  | .vand _ _ _ _ | .vor _ _ _ _ | .vxor _ _ _ _ | .vshl _ _ _ _ | .vshr _ _ _ _ | .vcvt _ _ _ _ | .vscl _ _ _ _
  | .vreds _ _ _ | .vredm _ _ _ _ | .vbc _ _ _ | .vperm _ _ _ _ | .vsel _ _ _ _ | .vcmpeq _ _ _ _
  | .vcmpeqPred _ _ _ _ _ | .vcmplt _ _ _ _ | .vcmpltPred _ _ _ _ _ | .vcmple _ _ _ _ | .vcmplePred _ _ _ _ _
  | .viota _ _ _ | .vrnd _ _ _ | .vdgst _ _ | .vfmt _ _ _ | .vmov _ _ _ | .vdesc _ _ _ | .vld _ _ _ | .vst _ _ _ _
  | .vlds _ _ _ | .vsts _ _ _ | .rndk _ _ _ | .dgst _ _ | .qbind _ _ _ _ | .qunb _ _ | .qrd _ _ _ | .qrdCompact _ _
  | .qwr _ _ _ | .qwrCompact _ _ | .qpoll _ _ _ | .qstat _ _ _ | .hret _ | .hmask _ _ | .hunm _ _ | .hset _ _ _
  | .node _ _ _ _ | .ewt _ _ _ | .echk _ _ _ | .edec _ _ | .spawn _ _ _ _ | .migr _ _ | .steal _ _ _ | .yield _
  | .endStrand _ | .gang _ _ | .bar _ _ | .barCompact _ | .sopen _ _ _ _ | .sclose _ _ | .scanc _ _ | .swin _ _
  | .shld _ | .sunsh _ | .cpt _ | .sres _ _ _ _ | .nop _ | .pause _ _ | .pauseCompact _ | .trap _ _ | .eret _
  | .sleep _ _ | .krf _ _ _ | .kbfx _ _ _ | .kswt _ _ | .kdsp _ _ _ | .ret | .retCompact | .hretCompact
  | .yieldCompact | .endCompact | .cptCompact | .nopCompact | .lateFaultTrap | .groupSpill | .groupFill
  | .linkRecordSpill | .bankPowerOff | .matrixStep | .engineSector | .engineCommandEnd | .nodeReservationRetry
  | .l0Eviction | .atsCompletion | .priResponse | .atsInvalidation | .flitSend | .flitArrival | .negativeAcknowledge
  | .flitAcknowledge | .truncationTimeout | .partitionRestart | .message | .replyArrival | .refusal | .sendResend
  | .queueWord | .creditRequest | .creditGrant | .creditRequestRetry | .syncCellOperation | .syncCellReply
  | .migration | .spawnPlacement | .wheelReplace | .overflowRefill | .admission | .autoMigration | .codeStore
  | .handlerTableWrite | .start | .imageLoad | .engineCommand | .stealRequest | .stealReply | .tokenQuery
  | .tokenQueryReply | .memoryRead | .readReply | .memoryWrite | .writeAcknowledgement | .engineData | .collectiveData
  | .tokenRequest | .tokenGrant | .tokenGrantArrival | .weightReturn | .refillRequest | .refillReply | .cancelPacket
  | .successDeclaration | .closeStatus | .barrierArrival | .barrierRelease | .predecessorDecrement | .acknowledgement
  | .kilnControl | .digest | .healthEvent | .heartbeatSend | .heartbeat | .heartbeatWindowEnd | .spareRemap
  | .coreStop | .sentinelReplay | .supplyAdjust | .budgetPeriodStart | .quantumEnd | .replayDiverged | .twaitTimeout
  | .barTimeout | .sleepEnd | .preemptionRequest | .preemptionSave | .preemptionRestore | .clusterGate | .kilnGate
  | .wakeSequence | .coreWake | .thermalLimit | .thermalShutdown | .kilnDispatch | .kilnWatchdog | .doorbell
  | .queue0Create | .svncommit | .writeSlot | .reset | .errorInjection | .logEntryClear | .registerWrite
  | .hostBar2Access | .launch | .cancel | .switchOut | .switchIn | .regionCreate | .regionDestroy | .migrate
  | .powerCap | .partition | .nopCommand | .tenantCreate | .queueCreate | .queueDestroy | .powerOn | .firmwareBringup
  | .firmwareTimeout | .spdmRequest | .peerLinkUp | .peerLinkDown | .notAnInstruction | .sequentialFlowPastEnd
  | .pauseEnd | .kilnTimer | .modulePowerCrossesCap | .coldReset | .refreshFault => true

/-- An instruction is well formed when its operands are a combination the encoding admits. -/
abbrev WellFormed (i : Instr) : Prop := i.wellFormed = true

end Sys2Proof
end

