-- ==== Sys2Proof/Decode.lean ====
section
/-! DEFINITION. Decoding and encoding (R83 to R95, R358). `W` holds the first halfword in bits 31 to 16. A pattern that
is not an instruction is refused with the subcode of R95, the lowest that fits. -/

namespace Sys2Proof

/-! ### Fields of a 32-bit word (R87) -/

def fMajor (w : Word32) : BitVec 5 := w.extractLsb' 24 5
def fD (w : Word32) : BitVec 5 := w.extractLsb' 19 5
def fA (w : Word32) : BitVec 5 := w.extractLsb' 14 5
def fB (w : Word32) : BitVec 5 := w.extractLsb' 9 5
def fG (w : Word32) : BitVec 3 := w.extractLsb' 6 3
def f6 (w : Word32) : BitVec 6 := w.extractLsb' 0 6
def fF2 (w : Word32) : BitVec 2 := w.extractLsb' 12 2
def fImm12 (w : Word32) : BitVec 12 := w.extractLsb' 0 12
def fImm19 (w : Word32) : BitVec 19 := w.extractLsb' 0 19
def fSlot (w : Word32) : BitVec 2 := w.extractLsb' 17 2
def fKzero (w : Word32) : BitVec 1 := w.extractLsb' 16 1
def fImm16 (w : Word32) : BitVec 16 := w.extractLsb' 0 16
def fM3 (w : Word32) : BitVec 3 := w.extractLsb' 11 3
def fDisp (w : Word32) : BitVec 11 := w.extractLsb' 0 11
def fDir (w : Word32) : BitVec 1 := w.extractLsb' 13 1
def fYzero (w : Word32) : BitVec 1 := w.extractLsb' 12 1
def fTop3 (w : Word32) : BitVec 3 := w.extractLsb' 21 3
def fInv (w : Word32) : BitVec 1 := w.extractLsb' 20 1
def fOff20 (w : Word32) : BitVec 20 := w.extractLsb' 0 20
def fN5 (w : Word32) : BitVec 5 := w.extractLsb' 16 5
def fReg (w : Word32) : BitVec 5 := w.extractLsb' 11 5

/-- Low bits of a five-bit field: a predicate or queue (3), a vector register (4). -/
def low3 (x : BitVec 5) : BitVec 3 := x.extractLsb' 0 3
def high2 (x : BitVec 5) : BitVec 2 := x.extractLsb' 3 2
def low4 (x : BitVec 5) : BitVec 4 := x.extractLsb' 0 4
def high1 (x : BitVec 5) : BitVec 1 := x.extractLsb' 4 1
def low1 (x : BitVec 5) : BitVec 1 := x.extractLsb' 0 1
def up4 (x : BitVec 5) : BitVec 4 := x.extractLsb' 1 4
def bit3 (x : BitVec 5) : BitVec 1 := x.extractLsb' 3 1

/-! ### Refusals (R95) -/

abbrev DecodeResult := Except (BitVec 8) Instr

/-- Subcode 4: a must-be-zero field holds something else (R89). -/
def zeroField {n : Nat} (x : BitVec n) (r : DecodeResult) : DecodeResult :=
  if x = 0 then r else .error 4

/-- Subcode 5: a combination that no instruction has. -/
def admit5 (ok : Bool) (i : Instr) : DecodeResult := if ok then .ok i else .error 5

/-- A format-A instruction whose operands are all window registers. -/
def dec3 (w : Word32) (mk : BitVec 5 → BitVec 5 → BitVec 5 → BitVec 3 → Instr) : DecodeResult :=
  .ok (mk (fD w) (fA w) (fB w) (fG w))

/-- One that uses d and a. -/
def decDA (w : Word32) (mk : BitVec 5 → BitVec 5 → BitVec 3 → Instr) : DecodeResult :=
  zeroField (fB w) (.ok (mk (fD w) (fA w) (fG w)))

/-- One that uses a and b. -/
def decAB (w : Word32) (mk : BitVec 5 → BitVec 5 → BitVec 3 → Instr) : DecodeResult :=
  zeroField (fD w) (.ok (mk (fA w) (fB w) (fG w)))

/-- One that uses a only. -/
def decA (w : Word32) (mk : BitVec 5 → BitVec 3 → Instr) : DecodeResult :=
  zeroField (fD w) (zeroField (fB w) (.ok (mk (fA w) (fG w))))

/-- One that uses no operand. -/
def dec0 (w : Word32) (mk : BitVec 3 → Instr) : DecodeResult :=
  zeroField (fD w) (zeroField (fA w) (zeroField (fB w) (.ok (mk (fG w)))))

/-- Format A with a predicate destination (R89). -/
def decPD (w : Word32) (r : BitVec 3 → DecodeResult) : DecodeResult :=
  zeroField (high2 (fD w)) (r (low3 (fD w)))

/-- Vector operands d, a and b (R89). -/
def decV3 (w : Word32) (mk : BitVec 4 → BitVec 4 → BitVec 4 → BitVec 3 → Instr) : DecodeResult :=
  zeroField (high1 (fD w)) (zeroField (high1 (fA w)) (zeroField (high1 (fB w))
    (.ok (mk (low4 (fD w)) (low4 (fA w)) (low4 (fB w)) (fG w)))))

def decV2 (w : Word32) (mk : BitVec 4 → BitVec 4 → BitVec 3 → Instr) : DecodeResult :=
  zeroField (high1 (fD w)) (zeroField (high1 (fA w)) (zeroField (fB w)
    (.ok (mk (low4 (fD w)) (low4 (fA w)) (fG w)))))

def decVK (w : Word32) (mk : BitVec 4 → BitVec 4 → BitVec 5 → BitVec 3 → Instr) : DecodeResult :=
  zeroField (high1 (fD w)) (zeroField (high1 (fA w)) (.ok (mk (low4 (fD w)) (low4 (fA w)) (fB w) (fG w))))

/-- A vector destination and a window source. -/
def decVX (w : Word32) (mk : BitVec 4 → BitVec 5 → BitVec 3 → Instr) : DecodeResult :=
  zeroField (high1 (fD w)) (zeroField (fB w) (.ok (mk (low4 (fD w)) (fA w) (fG w))))

/-- A vector compare: d[23] chooses the predicate form (R150). -/
def decVC (w : Word32) (mkMask : BitVec 4 → BitVec 4 → BitVec 4 → BitVec 3 → Instr)
    (mkPred : BitVec 1 → BitVec 3 → BitVec 4 → BitVec 4 → BitVec 3 → Instr) : DecodeResult :=
  zeroField (high1 (fA w)) (zeroField (high1 (fB w))
    (if high1 (fD w) = 0 then .ok (mkMask (low4 (fD w)) (low4 (fA w)) (low4 (fB w)) (fG w))
     else .ok (mkPred (bit3 (fD w)) (low3 (fD w)) (low4 (fA w)) (low4 (fB w)) (fG w))))

/-- A matrix instruction: shape and first accumulator in d (R89, R94). -/
def decM (w : Word32) (mk : BitVec 2 → BitVec 3 → Instr) : DecodeResult :=
  admit5 (tileAligned (high2 (fD w)) (low3 (fD w))) (mk (high2 (fD w)) (low3 (fD w)))

/-- Format M. -/
def decMem (w : Word32) (mk : BitVec 5 → BitVec 5 → BitVec 11 → Instr) : DecodeResult :=
  .ok (mk (fD w) (fA w) (fDisp w))

/-- Format I. -/
def decI (w : Word32) (mk : BitVec 5 → BitVec 5 → BitVec 12 → Instr) : DecodeResult :=
  .ok (mk (fD w) (fA w) (fImm12 w))

/-- A shift by an immediate: imm12[11:6] must be zero (R88). -/
def decK (w : Word32) (mk : BitVec 5 → BitVec 5 → BitVec 6 → Instr) : DecodeResult :=
  zeroField ((fImm12 w).extractLsb' 6 6) (.ok (mk (fD w) (fA w) ((fImm12 w).extractLsb' 0 6)))

/-- An engine command: scope in d (R283). -/
def decScope (w : Word32) (mk : BitVec 3 → BitVec 5 → BitVec 3 → Instr) : DecodeResult :=
  if low3 (fD w) ≤ 4 then
    zeroField (high2 (fD w)) (zeroField (fB w) (.ok (mk (low3 (fD w)) (fA w) (fG w))))
  else .error 3

/-! ### The majors (R94) -/

def decodeAlu (w : Word32) : DecodeResult :=
  match (f6 w).toNat with
  | 0x00 => dec3 w .add
  | 0x01 => dec3 w .sub
  | 0x02 => dec3 w .mul
  | 0x03 => dec3 w .mulh
  | 0x04 => dec3 w .mulhu
  | 0x05 => dec3 w .div
  | 0x06 => dec3 w .divu
  | 0x07 => dec3 w .rem
  | 0x08 => dec3 w .remu
  | 0x09 => dec3 w .and
  | 0x0A => dec3 w .or
  | 0x0B => dec3 w .xor
  | 0x0C => dec3 w .andn
  | 0x0D => dec3 w .shl
  | 0x0E => dec3 w .shr
  | 0x0F => dec3 w .sar
  | 0x10 => dec3 w .ror
  | 0x11 => dec3 w .min
  | 0x12 => dec3 w .max
  | 0x13 => dec3 w .minu
  | 0x14 => dec3 w .maxu
  | 0x15 => decDA w .clz
  | 0x16 => decDA w .ctz
  | 0x17 => decDA w .popc
  | 0x18 => decDA w .bswap
  | 0x19 => admit5 (fB w ≤ 2) (.sext (fD w) (fA w) (fB w) (fG w))
  | 0x1A => admit5 (fB w ≤ 2) (.zext (fD w) (fA w) (fB w) (fG w))
  | 0x1B => dec3 w .addw
  | 0x1F => decDA w .mov
  | _ => .error 3

def decodeAlui (w : Word32) : DecodeResult :=
  match (fF2 w).toNat with
  | 0 => decI w .addi
  | 1 => decI w .andi
  | 2 => decI w .ori
  | _ => decI w .xori

def decodeShi (w : Word32) : DecodeResult :=
  match (fF2 w).toNat with
  | 0 => decK w .shli
  | 1 => decK w .shri
  | 2 => decK w .sari
  | _ => decK w .rori

def decodePred (w : Word32) : DecodeResult :=
  match (f6 w).toNat with
  | 0x00 => decPD w fun p => .ok (.ceq p (fA w) (fB w) (fG w))
  | 0x01 => decPD w fun p => .ok (.cne p (fA w) (fB w) (fG w))
  | 0x02 => decPD w fun p => .ok (.clt p (fA w) (fB w) (fG w))
  | 0x03 => decPD w fun p => .ok (.cle p (fA w) (fB w) (fG w))
  | 0x04 => decPD w fun p => .ok (.cltu p (fA w) (fB w) (fG w))
  | 0x05 => decPD w fun p => .ok (.cleu p (fA w) (fB w) (fG w))
  | 0x08 => decPD w fun p => zeroField (high2 (fA w)) (zeroField (high2 (fB w))
      (.ok (.pand p (low3 (fA w)) (low3 (fB w)) (fG w))))
  | 0x09 => decPD w fun p => zeroField (high2 (fA w)) (zeroField (high2 (fB w))
      (.ok (.por p (low3 (fA w)) (low3 (fB w)) (fG w))))
  | 0x0A => decPD w fun p => zeroField (high2 (fA w)) (zeroField (high2 (fB w))
      (.ok (.pxor p (low3 (fA w)) (low3 (fB w)) (fG w))))
  | 0x0B => decPD w fun p => zeroField (high2 (fA w)) (zeroField (fB w)
      (.ok (.pnot p (low3 (fA w)) (fG w))))
  | 0x0C => decPD w fun p => zeroField (fB w) (.ok (.pfx p (fA w) (fG w)))
  | 0x0D => zeroField (high2 (fA w)) (zeroField (fB w) (.ok (.xfp (fD w) (low3 (fA w)) (fG w))))
  | 0x10 => decPD w fun p => .ok (.fceq p (fA w) (fB w) (fG w) 0)
  | 0x11 => decPD w fun p => .ok (.fclt p (fA w) (fB w) (fG w) 0)
  | 0x12 => decPD w fun p => .ok (.fcle p (fA w) (fB w) (fG w) 0)
  | 0x13 => decPD w fun p => .ok (.fcun p (fA w) (fB w) (fG w) 0)
  | 0x30 => decPD w fun p => .ok (.fceq p (fA w) (fB w) (fG w) 1)
  | 0x31 => decPD w fun p => .ok (.fclt p (fA w) (fB w) (fG w) 1)
  | 0x32 => decPD w fun p => .ok (.fcle p (fA w) (fB w) (fG w) 1)
  | 0x33 => decPD w fun p => .ok (.fcun p (fA w) (fB w) (fG w) 1)
  | _ => .error 3

def decodePredi (w : Word32) : DecodeResult :=
  match (fF2 w).toNat with
  | 0 => decPD w fun p => .ok (.ceqi p (fA w) (fImm12 w))
  | 1 => decPD w fun p => .ok (.cnei p (fA w) (fImm12 w))
  | 2 => decPD w fun p => .ok (.clti p (fA w) (fImm12 w))
  | _ => decPD w fun p => .ok (.cltui p (fA w) (fImm12 w))

def decodeBr (w : Word32) : DecodeResult :=
  admit5 (!(fTop3 w == 0 && fInv w == 1)) (.br (fTop3 w) (fInv w) (fOff20 w))

def decodeWin (w : Word32) : DecodeResult :=
  match (fTop3 w).toNat with
  | 0 => .ok (.call (fN5 w) (fImm16 w))
  | 1 => zeroField (fDisp w) (.ok (.callr (fN5 w) (fReg w)))
  | 2 => zeroField (fN5 w) (zeroField (fImm16 w) (.ok .ret))
  | 3 => zeroField ((fImm16 w).extractLsb' 0 15) (.ok (.alloc (fN5 w) ((fImm16 w).extractLsb' 15 1)))
  | 4 => zeroField (fN5 w) (zeroField (fDisp w) (.ok (.jmpr (fReg w))))
  | _ => .error 3

def decodeLd (w : Word32) : DecodeResult :=
  match (fM3 w).toNat with
  | 0 => decMem w .ldB
  | 1 => decMem w .ldBu
  | 2 => decMem w .ldH
  | 3 => decMem w .ldHu
  | 4 => decMem w .ldW
  | 5 => decMem w .ldWu
  | 6 => decMem w .ldD
  | _ => .error 3

def decodeSt (w : Word32) : DecodeResult :=
  match (fM3 w).toNat with
  | 0 => decMem w .stB
  | 1 => decMem w .stH
  | 2 => decMem w .stW
  | 3 => decMem w .stD
  | _ => .error 3

def decodeLds (w : Word32) : DecodeResult :=
  match (fM3 w).toNat with
  | 0 => decMem w .ldsB
  | 1 => decMem w .ldsBu
  | 2 => decMem w .ldsH
  | 3 => decMem w .ldsHu
  | 4 => decMem w .ldsW
  | 5 => decMem w .ldsWu
  | 6 => decMem w .ldsD
  | _ => .error 3

/-- A read-modify-write operation on a sync cell (R201). -/
def decRmw (w : Word32) (mk : BitVec 5 → BitVec 5 → BitVec 5 → BitVec 3 → BitVec 2 → Instr) : DecodeResult :=
  .ok (mk (fD w) (fA w) (fB w) (fG w) ((f6 w).extractLsb' 0 2))

def decodeSync (w : Word32) : DecodeResult :=
  match ((f6 w).extractLsb' 2 4).toNat with
  | 0 => zeroField (fB w) (admit5 ((f6 w).extractLsb' 0 2 != 2)
      (.sld (fD w) (fA w) (fG w) ((f6 w).extractLsb' 0 2)))
  | 1 => zeroField (fD w) (admit5 ((f6 w).extractLsb' 0 2 != 1)
      (.sst (fA w) (fB w) (fG w) ((f6 w).extractLsb' 0 2)))
  | 2 => decRmw w .aadd
  | 3 => decRmw w .aswap
  | 4 => decRmw w .acas
  | 5 => decRmw w .aand
  | 6 => decRmw w .aor
  | 7 => decRmw w .axor
  | 8 => decRmw w .amax
  | 9 => decRmw w .amin
  | 10 => decRmw w .amaxu
  | 11 => decRmw w .aminu
  | _ => .error 3

def decodeFence (w : Word32) : DecodeResult :=
  if (f6 w).extractLsb' 5 1 = 0 then
    if (f6 w).extractLsb' 2 3 ≤ 4 then
      zeroField (fD w) (zeroField (fA w) (zeroField (fB w)
        (.ok (.fence (fG w) ((f6 w).extractLsb' 2 3) ((f6 w).extractLsb' 0 2)))))
    else .error 3
  else
    zeroField ((f6 w).extractLsb' 0 5) (decA w .flushr)

def decodeToken (w : Word32) : DecodeResult :=
  match (f6 w).toNat with
  | 0 => decAB w .tlend
  | 1 => decA w .tret
  | 2 => decAB w .tgive
  | 3 => dec3 w .tsplit
  | 4 => decAB w .tshare
  | 5 => decA w .tjoin
  | 6 => decDA w .tqry
  | 7 => dec3 w .twait
  | 8 => decA w .tseal
  | 9 => decA w .tunseal
  | 10 => decA w .tclr
  | 11 => decDA w .tclaim
  | _ => .error 3

def decodeVec (w : Word32) : DecodeResult :=
  match (f6 w).toNat with
  | 0x00 => decV3 w .vadd
  | 0x01 => decV3 w .vsub
  | 0x02 => decV3 w .vmul
  | 0x03 => decV3 w .vfma
  | 0x04 => decV3 w .vmin
  | 0x05 => decV3 w .vmax
  | 0x06 => decV2 w .vabs
  | 0x07 => decV2 w .vneg
  | 0x08 => decV3 w .vand
  | 0x09 => decV3 w .vor
  | 0x0A => decV3 w .vxor
  | 0x0B => decVK w .vshl
  | 0x0C => decVK w .vshr
  | 0x0D => zeroField (high1 (fD w)) (zeroField (high1 (fA w)) (zeroField (high2 (fB w))
      (.ok (.vcvt (low4 (fD w)) (low4 (fA w)) (low3 (fB w)) (fG w)))))
  | 0x0E => decVK w .vscl
  | 0x0F => decV2 w .vreds
  | 0x10 => zeroField (high1 (fD w)) (zeroField (high1 (fA w))
      (admit5 (up4 (fB w) == 0) (.vredm (low4 (fD w)) (low4 (fA w)) (low1 (fB w)) (fG w))))
  | 0x11 => decVX w .vbc
  | 0x12 => zeroField (high1 (fA w)) (admit5 (fB w ≤ 8) (.vext (fD w) (low4 (fA w)) (fB w) (fG w)))
  | 0x13 => zeroField (high1 (fD w)) (admit5 (fB w ≤ 7) (.vins (low4 (fD w)) (fA w) (fB w) (fG w)))
  | 0x14 => decV3 w .vperm
  | 0x15 => decV3 w .vsel
  | 0x16 => decVC w .vcmpeq .vcmpeqPred
  | 0x17 => decVC w .vcmplt .vcmpltPred
  | 0x18 => decVC w .vcmple .vcmplePred
  | 0x19 => decVX w .viota
  | 0x1A => decVX w .vrnd
  | 0x1B => zeroField (fD w) (zeroField (high1 (fA w)) (zeroField (fB w) (.ok (.vdgst (low4 (fA w)) (fG w)))))
  | 0x1C => decV2 w .vfmt
  | 0x1D => decV2 w .vmov
  | 0x1E => decVX w .vdesc
  | _ => .error 3

def decodeVmem (w : Word32) : DecodeResult :=
  match (fM3 w).toNat with
  | 0 => zeroField (high1 (fD w)) (.ok (.vld (low4 (fD w)) (fA w) (fDisp w)))
  | 1 => .ok (.vst (high1 (fD w)) (low4 (fD w)) (fA w) (fDisp w))
  | 2 => zeroField (high1 (fD w)) (.ok (.vlds (low4 (fD w)) (fA w) (fDisp w)))
  | 3 => zeroField (high1 (fD w)) (.ok (.vsts (low4 (fD w)) (fA w) (fDisp w)))
  | _ => .error 3

def decodeMat (w : Word32) : DecodeResult :=
  match (f6 w).toNat with
  | 0 => decM w fun h f => .mma h f (fA w) (fB w) (fG w)
  | 1 => zeroField (fA w) (zeroField (fB w) (decM w fun h f => .mzero h f (fG w)))
  | 2 => zeroField (fB w) (decM w fun h f => .mld h f (fA w) (fG w))
  | 3 => zeroField (up4 (fB w)) (decM w fun h f => .mst h f (fA w) (low1 (fB w)) (fG w))
  | 4 => decM w fun h f => .msnap h f (fA w) (fB w) (fG w)
  | 5 => zeroField (fA w) (zeroField (fB w) (decM w fun h f => .mwait h f (fG w)))
  | 6 => zeroField (fA w) (decM w fun h f => .mstat h f (fB w) (fG w))
  | 7 => zeroField (fA w) (zeroField (fB w) (decM w fun h f => .mcanc h f (fG w)))
  | 8 => zeroField (fA w) (zeroField (fB w) (decM w fun h f => .mres h f (fG w)))
  | _ => .error 3

def decodeQueue (w : Word32) : DecodeResult :=
  match (f6 w).toNat with
  | 0 => zeroField (high2 (fD w)) (.ok (.qbind (low3 (fD w)) (fA w) (fB w) (fG w)))
  | 1 => zeroField (fD w) (zeroField (fA w) (zeroField (high2 (fB w)) (.ok (.qunb (low3 (fB w)) (fG w)))))
  | 2 => zeroField (fA w) (zeroField (high2 (fB w)) (.ok (.qrd (fD w) (low3 (fB w)) (fG w))))
  | 3 => zeroField (fD w) (zeroField (high2 (fB w)) (.ok (.qwr (fA w) (low3 (fB w)) (fG w))))
  | 4 => zeroField (high2 (fD w)) (zeroField (fA w) (zeroField (high2 (fB w))
      (.ok (.qpoll (low3 (fD w)) (low3 (fB w)) (fG w)))))
  | 5 => zeroField (fA w) (zeroField (high2 (fB w)) (.ok (.qstat (fD w) (low3 (fB w)) (fG w))))
  | _ => .error 3

def decodeMsg (w : Word32) : DecodeResult :=
  let n : BitVec 3 := (f6 w).extractLsb' 3 3
  match ((f6 w).extractLsb' 0 3).toNat with
  | 0 => zeroField (fD w) (admit5 (wordCount n (fB w)) (.send (fA w) (fB w) (fG w) n))
  | 1 => admit5 (wordCount n (fB w) && fD w ≤ 27) (.sendr (fD w) (fA w) (fB w) (fG w) n)
  | 2 => zeroField (fD w) (zeroField (fA w) (admit5 (wordCount n (fB w)) (.reply (fB w) (fG w) n)))
  | 3 => zeroField (fD w) (zeroField (fA w) (zeroField (fB w) (admit5 (n == 0) (.hret (fG w)))))
  | 4 => zeroField (fD w) (zeroField (fB w) (admit5 (n == 0) (.hmask (fA w) (fG w))))
  | 5 => zeroField (fD w) (zeroField (fB w) (admit5 (n == 0) (.hunm (fA w) (fG w))))
  | 6 => zeroField (fD w) (admit5 (n == 0) (.hset (fA w) (fB w) (fG w)))
  | _ => .error 3

def decodeEng (w : Word32) : DecodeResult :=
  match (f6 w).toNat with
  | 0 => decScope w .cpy
  | 1 => decScope w .gath
  | 2 => decScope w .scat
  | 3 => decScope w .coll
  | 4 => dec3 w .node
  | 5 => decDA w .ewt
  | 6 => decDA w .echk
  | 7 => decA w .edec
  | _ => .error 3

def decodeStrand (w : Word32) : DecodeResult :=
  match (f6 w).toNat with
  | 0 => dec3 w .spawn
  | 1 => decA w .migr
  | 2 => decDA w .steal
  | 3 => dec0 w .yield
  | 4 => dec0 w .endStrand
  | 5 => decA w .gang
  | 6 => decA w .bar
  | _ => .error 3

def decodeScopeMajor (w : Word32) : DecodeResult :=
  match (f6 w).toNat with
  | 0 => dec3 w .sopen
  | 1 => decA w .sclose
  | 2 => decA w .scanc
  | 3 => decA w .swin
  | 4 => dec0 w .shld
  | 5 => dec0 w .sunsh
  | 6 => dec0 w .cpt
  | 7 => admit5 (up4 (fB w) == 0) (.sres (fD w) (fA w) (low1 (fB w)) (fG w))
  | _ => .error 3

def decodeSpec (w : Word32) : DecodeResult :=
  if fDir w = 0 then zeroField (fA w) (zeroField (fYzero w) (.ok (.mfs (fD w) (fImm12 w))))
  else zeroField (fD w) (zeroField (fYzero w) (.ok (.mts (fA w) (fImm12 w))))

def decodeSys (w : Word32) : DecodeResult :=
  match (f6 w).toNat with
  | 0 => dec0 w .nop
  | 1 => decA w .pause
  | 2 => decA w .trap
  | 3 => dec0 w .eret
  | 4 => decA w .sleep
  | _ => .error 3

/-- A floating-point operation with sources a and b (R133); `z` = 1 is `.d`. -/
def decF3 (w : Word32)
    (mk : BitVec 5 → BitVec 5 → BitVec 5 → BitVec 3 → BitVec 1 → Instr) : DecodeResult :=
  .ok (mk (fD w) (fA w) (fB w) (fG w) ((f6 w).extractLsb' 5 1))

def decF2 (w : Word32) (mk : BitVec 5 → BitVec 5 → BitVec 3 → BitVec 1 → Instr) : DecodeResult :=
  zeroField (fB w) (.ok (mk (fD w) (fA w) (fG w) ((f6 w).extractLsb' 5 1)))

/-- A conversion: b holds a code of 0 to 3 (R136, R139). -/
def decFK (w : Word32)
    (mk : BitVec 5 → BitVec 5 → BitVec 5 → BitVec 3 → BitVec 1 → Instr) : DecodeResult :=
  admit5 (fB w ≤ 3) (mk (fD w) (fA w) (fB w) (fG w) ((f6 w).extractLsb' 5 1))

def decodeFlt (w : Word32) : DecodeResult :=
  match ((f6 w).extractLsb' 0 5).toNat with
  | 0 => decF3 w .fadd
  | 1 => decF3 w .fsub
  | 2 => decF3 w .fmul
  | 3 => decF3 w .ffma
  | 4 => decF3 w .fdiv
  | 5 => decF2 w .fsqrt
  | 6 => decF3 w .fmin
  | 7 => decF3 w .fmax
  | 8 => decF2 w .fabs
  | 9 => decF2 w .fneg
  | 10 => decFK w .fcvti
  | 11 => decFK w .fcvtf
  | 12 => decF2 w .fcvtw
  | 13 => decFK w .fcvtb
  | 14 => decF2 w .fclass
  | _ => .error 3

def decodeMix (w : Word32) : DecodeResult :=
  match (f6 w).toNat with
  | 0 => decDA w .rndk
  | 1 => decA w .dgst
  | _ => .error 3

/-- A 32-bit instruction (R83, R94): `w` has 0b111 in its top three bits. -/
def decodeWord (w : Word32) : DecodeResult :=
  match (fMajor w).toNat with
  | 0x00 => decodeAlu w
  | 0x01 => decodeAlui w
  | 0x02 => decodeShi w
  | 0x03 => .ok (.lim (fD w) (fImm19 w))
  | 0x04 => zeroField (fKzero w) (.ok (.lis (fD w) (fSlot w) (fImm16 w)))
  | 0x05 => decodePred w
  | 0x06 => decodePredi w
  | 0x07 => decodeBr w
  | 0x08 => decodeWin w
  | 0x09 => decodeLd w
  | 0x0A => decodeSt w
  | 0x0B => decodeSync w
  | 0x0C => decodeFence w
  | 0x0D => decodeToken w
  | 0x0E => decodeVec w
  | 0x0F => decodeVmem w
  | 0x10 => decodeMat w
  | 0x11 => decodeQueue w
  | 0x12 => decodeMsg w
  | 0x13 => decodeEng w
  | 0x14 => decodeStrand w
  | 0x15 => decodeScopeMajor w
  | 0x16 => decodeSpec w
  | 0x17 => decodeSys w
  | 0x18 => decodeFlt w
  | 0x19 => decodeMix w
  | 0x1A => decodeLds w
  | 0x1B => .ok (.chk (fD w) (fImm19 w))
  | _ => .error 2

/-! ### Compact forms (R91, R92) -/

def hGroup (h : Half) : BitVec 3 := h.extractLsb' 13 3
def hF3 (h : Half) : BitVec 3 := h.extractLsb' 10 3
def hD (h : Half) : BitVec 5 := h.extractLsb' 5 5
def hA (h : Half) : BitVec 5 := h.extractLsb' 0 5
def hReg (h : Half) : BitVec 5 := h.extractLsb' 8 5
def hImm8 (h : Half) : BitVec 8 := h.extractLsb' 0 8
def hBit12 (h : Half) : BitVec 1 := h.extractLsb' 12 1
def hLreg (h : Half) : BitVec 5 := h.extractLsb' 7 5
def hBase (h : Half) : BitVec 5 := h.extractLsb' 2 5
def hDisp2 (h : Half) : BitVec 2 := h.extractLsb' 0 2
def hInv (h : Half) : BitVec 1 := h.extractLsb' 9 1
def hOff9 (h : Half) : BitVec 9 := h.extractLsb' 0 9
def hQ (h : Half) : BitVec 3 := h.extractLsb' 9 3
def hX (h : Half) : BitVec 5 := h.extractLsb' 4 5
def hLow4 (h : Half) : BitVec 4 := h.extractLsb' 0 4

def decodeGroup0 (h : Half) : DecodeResult :=
  match (hF3 h).toNat with
  | 0 => if hD h = 0 ∧ hA h = 0 then .error 1 else .ok (.movCompact (hD h) (hA h))
  | 1 => .ok (.addCompact (hD h) (hA h))
  | 2 => .ok (.subCompact (hD h) (hA h))
  | 3 => .ok (.andCompact (hD h) (hA h))
  | 4 => .ok (.orCompact (hD h) (hA h))
  | 5 => .ok (.xorCompact (hD h) (hA h))
  | 6 => .ok (.shlCompact (hD h) (hA h))
  | _ => .ok (.shrCompact (hD h) (hA h))

/-- Group 5: f5 in [12:8], the argument in [7:0] (R92). -/
def decodeGroup5 (h : Half) : DecodeResult :=
  let arg := hImm8 h
  let up3 : BitVec 3 := arg.extractLsb' 5 3
  let a : BitVec 5 := arg.extractLsb' 0 5
  match (hReg h).toNat with
  | 0 => zeroField arg (.ok .nopCompact)
  | 1 => zeroField up3 (.ok (.pauseCompact a))
  | 2 => zeroField arg (.ok .cptCompact)
  | 3 => zeroField arg (.ok .retCompact)
  | 4 => zeroField arg (.ok .endCompact)
  | 5 => zeroField arg (.ok .hretCompact)
  | 6 => zeroField arg (.ok .yieldCompact)
  | 7 => zeroField up3 (.ok (.barCompact a))
  | 8 => zeroField up3 (admit5 (tileAligned (high2 a) (low3 a)) (.mwaitCompact (high2 a) (low3 a)))
  | _ => .error 3

/-- A compact halfword: its top three bits are not 0b111. -/
def decodeHalf (h : Half) : DecodeResult :=
  match (hGroup h).toNat with
  | 0 => decodeGroup0 h
  | 1 => .ok (.addiCompact (hReg h) (hImm8 h))
  | 2 => .ok (.limCompact (hReg h) (hImm8 h))
  | 3 => if hBit12 h = 0 then .ok (.ldDCompact (hLreg h) (hBase h) (hDisp2 h))
         else .ok (.stDCompact (hLreg h) (hBase h) (hDisp2 h))
  | 4 => admit5 (!(hF3 h == 0 && hInv h == 1)) (.brCompact (hF3 h) (hInv h) (hOff9 h))
  | 5 => decodeGroup5 h
  | _ => zeroField (hLow4 h)
      (if hBit12 h = 0 then .ok (.qrdCompact (hQ h) (hX h)) else .ok (.qwrCompact (hQ h) (hX h)))

/-! ### The Kiln's instructions (R358) -/

def kT (w : Word32) : BitVec 5 := w.extractLsb' 20 5
def kS (w : Word32) : BitVec 5 := w.extractLsb' 15 5
def kD (w : Word32) : BitVec 5 := w.extractLsb' 7 5
def kF3 (w : Word32) : BitVec 3 := w.extractLsb' 12 3
def kF7 (w : Word32) : BitVec 7 := w.extractLsb' 25 7
def kOp (w : Word32) : BitVec 7 := w.extractLsb' 0 7

/-- A word of the custom-0 opcode; none is the illegal-instruction exception of R358. KSWT needs rs2 = x0. -/
def decodeKiln (w : Word32) : Option Instr :=
  if kOp w = 0x0B ∧ kF7 w = 0 then
    match (kF3 w).toNat with
    | 0 => some (.krf (kT w) (kS w) (kD w))
    | 1 => some (.kbfx (kT w) (kS w) (kD w))
    | 2 => if kT w = 0 then some (.kswt (kS w) (kD w)) else none
    | 3 => some (.kdsp (kT w) (kS w) (kD w))
    | _ => none
  else none

/-! ### The byte stream (R4, R83) -/

/-- What decoding the bytes at a program counter gives. -/
inductive Decoded where
  | instr (i : Instr) (len : Nat)
  /-- Not an instruction: the subcode of R95 and the halfword or word. -/
  | reject (sub : BitVec 8) (w : Word32)
  /-- The bytes end before the instruction does. -/
  | short
  deriving DecidableEq, Repr

def halfOf (lo hi : Byte) : Half := hi ++ lo

/-- Bits [15:13] of the first halfword give the length (R83). -/
def isLong (h : Half) : Bool := hGroup h == 7

def resultOf (r : DecodeResult) (len : Nat) (w : Word32) : Decoded :=
  match r with
  | .ok i => .instr i len
  | .error sub => .reject sub w

def decode (bytes : List Byte) : Decoded :=
  match bytes with
  | b0 :: b1 :: rest =>
    let h := halfOf b0 b1
    if isLong h then
      match rest with
      | b2 :: b3 :: _ => resultOf (decodeWord (h ++ halfOf b2 b3)) 4 (h ++ halfOf b2 b3)
      | _ => .short
    else resultOf (decodeHalf h) 2 (h.setWidth 32)
  | _ => .short

/-! ### Packing the formats (R87) -/

def packA (maj d a b : BitVec 5) (g : BitVec 3) (f : BitVec 6) : Word32 := 7#3 ++ maj ++ d ++ a ++ b ++ g ++ f
def packI (maj d a : BitVec 5) (f : BitVec 2) (i : BitVec 12) : Word32 := 7#3 ++ maj ++ d ++ a ++ f ++ i
def packL (maj d : BitVec 5) (i : BitVec 19) : Word32 := 7#3 ++ maj ++ d ++ i
def packK (maj d : BitVec 5) (s : BitVec 2) (i : BitVec 16) : Word32 := 7#3 ++ maj ++ d ++ s ++ 0#1 ++ i
def packM (maj d a : BitVec 5) (f : BitVec 3) (i : BitVec 11) : Word32 := 7#3 ++ maj ++ d ++ a ++ f ++ i
def packY (maj d a : BitVec 5) (dir : BitVec 1) (n : BitVec 12) : Word32 := 7#3 ++ maj ++ d ++ a ++ dir ++ 0#1 ++ n
def packB (maj : BitVec 5) (g : BitVec 3) (n : BitVec 1) (o : BitVec 20) : Word32 := 7#3 ++ maj ++ g ++ n ++ o
def packW (maj : BitVec 5) (f : BitVec 3) (n : BitVec 5) (o : BitVec 16) : Word32 := 7#3 ++ maj ++ f ++ n ++ o
def packWr (maj : BitVec 5) (f : BitVec 3) (n a : BitVec 5) : Word32 := 7#3 ++ maj ++ f ++ n ++ a ++ 0#11
def packKiln (t s : BitVec 5) (f : BitVec 3) (d : BitVec 5) : Word32 := 0#7 ++ t ++ s ++ f ++ d ++ 0x0B#7

/-- The word of a 32-bit instruction; 0 for a constructor that has none. -/
def encodeWord : Instr → Word32
  | .add d a b g => packA 0 d a b g 0x00
  | .sub d a b g => packA 0 d a b g 0x01
  | .mul d a b g => packA 0 d a b g 0x02
  | .mulh d a b g => packA 0 d a b g 0x03
  | .mulhu d a b g => packA 0 d a b g 0x04
  | .div d a b g => packA 0 d a b g 0x05
  | .divu d a b g => packA 0 d a b g 0x06
  | .rem d a b g => packA 0 d a b g 0x07
  | .remu d a b g => packA 0 d a b g 0x08
  | .and d a b g => packA 0 d a b g 0x09
  | .or d a b g => packA 0 d a b g 0x0A
  | .xor d a b g => packA 0 d a b g 0x0B
  | .andn d a b g => packA 0 d a b g 0x0C
  | .shl d a b g => packA 0 d a b g 0x0D
  | .shr d a b g => packA 0 d a b g 0x0E
  | .sar d a b g => packA 0 d a b g 0x0F
  | .ror d a b g => packA 0 d a b g 0x10
  | .min d a b g => packA 0 d a b g 0x11
  | .max d a b g => packA 0 d a b g 0x12
  | .minu d a b g => packA 0 d a b g 0x13
  | .maxu d a b g => packA 0 d a b g 0x14
  | .clz d a g => packA 0 d a 0 g 0x15
  | .ctz d a g => packA 0 d a 0 g 0x16
  | .popc d a g => packA 0 d a 0 g 0x17
  | .bswap d a g => packA 0 d a 0 g 0x18
  | .sext d a w g => packA 0 d a w g 0x19
  | .zext d a w g => packA 0 d a w g 0x1A
  | .addw d a b g => packA 0 d a b g 0x1B
  | .mov d a g => packA 0 d a 0 g 0x1F
  | .addi d a i => packI 1 d a 0 i
  | .andi d a i => packI 1 d a 1 i
  | .ori d a i => packI 1 d a 2 i
  | .xori d a i => packI 1 d a 3 i
  | .shli d a k => packI 2 d a 0 (0#6 ++ k)
  | .shri d a k => packI 2 d a 1 (0#6 ++ k)
  | .sari d a k => packI 2 d a 2 (0#6 ++ k)
  | .rori d a k => packI 2 d a 3 (0#6 ++ k)
  | .lim d i => packL 3 d i
  | .lis d s i => packK 4 d s i
  | .ceq p a b g => packA 5 (0#2 ++ p) a b g 0x00
  | .cne p a b g => packA 5 (0#2 ++ p) a b g 0x01
  | .clt p a b g => packA 5 (0#2 ++ p) a b g 0x02
  | .cle p a b g => packA 5 (0#2 ++ p) a b g 0x03
  | .cltu p a b g => packA 5 (0#2 ++ p) a b g 0x04
  | .cleu p a b g => packA 5 (0#2 ++ p) a b g 0x05
  | .pand p a b g => packA 5 (0#2 ++ p) (0#2 ++ a) (0#2 ++ b) g 0x08
  | .por p a b g => packA 5 (0#2 ++ p) (0#2 ++ a) (0#2 ++ b) g 0x09
  | .pxor p a b g => packA 5 (0#2 ++ p) (0#2 ++ a) (0#2 ++ b) g 0x0A
  | .pnot p a g => packA 5 (0#2 ++ p) (0#2 ++ a) 0 g 0x0B
  | .pfx p a g => packA 5 (0#2 ++ p) a 0 g 0x0C
  | .xfp d a g => packA 5 d (0#2 ++ a) 0 g 0x0D
  | .fceq p a b g z => packA 5 (0#2 ++ p) a b g (z ++ 0x10#5)
  | .fclt p a b g z => packA 5 (0#2 ++ p) a b g (z ++ 0x11#5)
  | .fcle p a b g z => packA 5 (0#2 ++ p) a b g (z ++ 0x12#5)
  | .fcun p a b g z => packA 5 (0#2 ++ p) a b g (z ++ 0x13#5)
  | .ceqi p a i => packI 6 (0#2 ++ p) a 0 i
  | .cnei p a i => packI 6 (0#2 ++ p) a 1 i
  | .clti p a i => packI 6 (0#2 ++ p) a 2 i
  | .cltui p a i => packI 6 (0#2 ++ p) a 3 i
  | .br g n o => packB 7 g n o
  | .call n o => packW 8 0 n o
  | .callr n a => packWr 8 1 n a
  | .ret => packW 8 2 0 0
  | .alloc n h => packW 8 3 n (h ++ 0#15)
  | .jmpr a => packWr 8 4 0 a
  | .mfs d n => packY 0x16 d 0 0 n
  | .mts a n => packY 0x16 0 a 1 n
  | .fadd d a b g z => packA 0x18 d a b g (z ++ 0#5)
  | .fsub d a b g z => packA 0x18 d a b g (z ++ 1#5)
  | .fmul d a b g z => packA 0x18 d a b g (z ++ 2#5)
  | .ffma d a b g z => packA 0x18 d a b g (z ++ 3#5)
  | .fdiv d a b g z => packA 0x18 d a b g (z ++ 4#5)
  | .fsqrt d a g z => packA 0x18 d a 0 g (z ++ 5#5)
  | .fmin d a b g z => packA 0x18 d a b g (z ++ 6#5)
  | .fmax d a b g z => packA 0x18 d a b g (z ++ 7#5)
  | .fabs d a g z => packA 0x18 d a 0 g (z ++ 8#5)
  | .fneg d a g z => packA 0x18 d a 0 g (z ++ 9#5)
  | .fcvti d a k g z => packA 0x18 d a k g (z ++ 10#5)
  | .fcvtf d a k g z => packA 0x18 d a k g (z ++ 11#5)
  | .fcvtw d a g z => packA 0x18 d a 0 g (z ++ 12#5)
  | .fcvtb d a c g z => packA 0x18 d a c g (z ++ 13#5)
  | .fclass d a g z => packA 0x18 d a 0 g (z ++ 14#5)
  | .ldB d b i => packM 9 d b 0 i
  | .ldBu d b i => packM 9 d b 1 i
  | .ldH d b i => packM 9 d b 2 i
  | .ldHu d b i => packM 9 d b 3 i
  | .ldW d b i => packM 9 d b 4 i
  | .ldWu d b i => packM 9 d b 5 i
  | .ldD d b i => packM 9 d b 6 i
  | .stB s b i => packM 10 s b 0 i
  | .stH s b i => packM 10 s b 1 i
  | .stW s b i => packM 10 s b 2 i
  | .stD s b i => packM 10 s b 3 i
  | .ldsB d b i => packM 0x1A d b 0 i
  | .ldsBu d b i => packM 0x1A d b 1 i
  | .ldsH d b i => packM 0x1A d b 2 i
  | .ldsHu d b i => packM 0x1A d b 3 i
  | .ldsW d b i => packM 0x1A d b 4 i
  | .ldsWu d b i => packM 0x1A d b 5 i
  | .ldsD d b i => packM 0x1A d b 6 i
  | .chk a o => packL 0x1B a o
  | .sld d a g o => packA 0x0B d a 0 g (0#4 ++ o)
  | .sst a b g o => packA 0x0B 0 a b g (1#4 ++ o)
  | .aadd d a b g o => packA 0x0B d a b g (2#4 ++ o)
  | .aswap d a b g o => packA 0x0B d a b g (3#4 ++ o)
  | .acas d a b g o => packA 0x0B d a b g (4#4 ++ o)
  | .aand d a b g o => packA 0x0B d a b g (5#4 ++ o)
  | .aor d a b g o => packA 0x0B d a b g (6#4 ++ o)
  | .axor d a b g o => packA 0x0B d a b g (7#4 ++ o)
  | .amax d a b g o => packA 0x0B d a b g (8#4 ++ o)
  | .amin d a b g o => packA 0x0B d a b g (9#4 ++ o)
  | .amaxu d a b g o => packA 0x0B d a b g (10#4 ++ o)
  | .aminu d a b g o => packA 0x0B d a b g (11#4 ++ o)
  | .fence g s k => packA 0x0C 0 0 0 g (0#1 ++ s ++ k)
  | .flushr a g => packA 0x0C 0 a 0 g 0x20
  | .tlend a b g => packA 0x0D 0 a b g 0
  | .tret a g => packA 0x0D 0 a 0 g 1
  | .tgive a b g => packA 0x0D 0 a b g 2
  | .tsplit d a b g => packA 0x0D d a b g 3
  | .tshare a b g => packA 0x0D 0 a b g 4
  | .tjoin a g => packA 0x0D 0 a 0 g 5
  | .tqry d a g => packA 0x0D d a 0 g 6
  | .twait d a b g => packA 0x0D d a b g 7
  | .tseal a g => packA 0x0D 0 a 0 g 8
  | .tunseal a g => packA 0x0D 0 a 0 g 9
  | .tclr a g => packA 0x0D 0 a 0 g 10
  | .tclaim d a g => packA 0x0D d a 0 g 11
  | .vadd d a b g => packA 0x0E (0#1 ++ d) (0#1 ++ a) (0#1 ++ b) g 0x00
  | .vsub d a b g => packA 0x0E (0#1 ++ d) (0#1 ++ a) (0#1 ++ b) g 0x01
  | .vmul d a b g => packA 0x0E (0#1 ++ d) (0#1 ++ a) (0#1 ++ b) g 0x02
  | .vfma d a b g => packA 0x0E (0#1 ++ d) (0#1 ++ a) (0#1 ++ b) g 0x03
  | .vmin d a b g => packA 0x0E (0#1 ++ d) (0#1 ++ a) (0#1 ++ b) g 0x04
  | .vmax d a b g => packA 0x0E (0#1 ++ d) (0#1 ++ a) (0#1 ++ b) g 0x05
  | .vabs d a g => packA 0x0E (0#1 ++ d) (0#1 ++ a) 0 g 0x06
  | .vneg d a g => packA 0x0E (0#1 ++ d) (0#1 ++ a) 0 g 0x07
  | .vand d a b g => packA 0x0E (0#1 ++ d) (0#1 ++ a) (0#1 ++ b) g 0x08
  | .vor d a b g => packA 0x0E (0#1 ++ d) (0#1 ++ a) (0#1 ++ b) g 0x09
  | .vxor d a b g => packA 0x0E (0#1 ++ d) (0#1 ++ a) (0#1 ++ b) g 0x0A
  | .vshl d a k g => packA 0x0E (0#1 ++ d) (0#1 ++ a) k g 0x0B
  | .vshr d a k g => packA 0x0E (0#1 ++ d) (0#1 ++ a) k g 0x0C
  | .vcvt d a p g => packA 0x0E (0#1 ++ d) (0#1 ++ a) (0#2 ++ p) g 0x0D
  | .vscl d a k g => packA 0x0E (0#1 ++ d) (0#1 ++ a) k g 0x0E
  | .vreds d a g => packA 0x0E (0#1 ++ d) (0#1 ++ a) 0 g 0x0F
  | .vredm d a m g => packA 0x0E (0#1 ++ d) (0#1 ++ a) (0#4 ++ m) g 0x10
  | .vbc d a g => packA 0x0E (0#1 ++ d) a 0 g 0x11
  | .vext d a i g => packA 0x0E d (0#1 ++ a) i g 0x12
  | .vins d a i g => packA 0x0E (0#1 ++ d) a i g 0x13
  | .vperm d a b g => packA 0x0E (0#1 ++ d) (0#1 ++ a) (0#1 ++ b) g 0x14
  | .vsel d a b g => packA 0x0E (0#1 ++ d) (0#1 ++ a) (0#1 ++ b) g 0x15
  | .vcmpeq d a b g => packA 0x0E (0#1 ++ d) (0#1 ++ a) (0#1 ++ b) g 0x16
  | .vcmpeqPred l p a b g => packA 0x0E (1#1 ++ l ++ p) (0#1 ++ a) (0#1 ++ b) g 0x16
  | .vcmplt d a b g => packA 0x0E (0#1 ++ d) (0#1 ++ a) (0#1 ++ b) g 0x17
  | .vcmpltPred l p a b g => packA 0x0E (1#1 ++ l ++ p) (0#1 ++ a) (0#1 ++ b) g 0x17
  | .vcmple d a b g => packA 0x0E (0#1 ++ d) (0#1 ++ a) (0#1 ++ b) g 0x18
  | .vcmplePred l p a b g => packA 0x0E (1#1 ++ l ++ p) (0#1 ++ a) (0#1 ++ b) g 0x18
  | .viota d a g => packA 0x0E (0#1 ++ d) a 0 g 0x19
  | .vrnd d a g => packA 0x0E (0#1 ++ d) a 0 g 0x1A
  | .vdgst a g => packA 0x0E 0 (0#1 ++ a) 0 g 0x1B
  | .vfmt d a g => packA 0x0E (0#1 ++ d) (0#1 ++ a) 0 g 0x1C
  | .vmov d a g => packA 0x0E (0#1 ++ d) (0#1 ++ a) 0 g 0x1D
  | .vdesc d a g => packA 0x0E (0#1 ++ d) a 0 g 0x1E
  | .vld d b i => packM 0x0F (0#1 ++ d) b 0 i
  | .vst c s b i => packM 0x0F (c ++ s) b 1 i
  | .vlds d b i => packM 0x0F (0#1 ++ d) b 2 i
  | .vsts s b i => packM 0x0F (0#1 ++ s) b 3 i
  | .mma h f a b g => packA 0x10 (h ++ f) a b g 0
  | .mzero h f g => packA 0x10 (h ++ f) 0 0 g 1
  | .mld h f a g => packA 0x10 (h ++ f) a 0 g 2
  | .mst h f a e g => packA 0x10 (h ++ f) a (0#4 ++ e) g 3
  | .msnap h f a b g => packA 0x10 (h ++ f) a b g 4
  | .mwait h f g => packA 0x10 (h ++ f) 0 0 g 5
  | .mstat h f b g => packA 0x10 (h ++ f) 0 b g 6
  | .mcanc h f g => packA 0x10 (h ++ f) 0 0 g 7
  | .mres h f g => packA 0x10 (h ++ f) 0 0 g 8
  | .rndk d a g => packA 0x19 d a 0 g 0
  | .dgst a g => packA 0x19 0 a 0 g 1
  | .qbind q a b g => packA 0x11 (0#2 ++ q) a b g 0
  | .qunb q g => packA 0x11 0 0 (0#2 ++ q) g 1
  | .qrd d q g => packA 0x11 d 0 (0#2 ++ q) g 2
  | .qwr a q g => packA 0x11 0 a (0#2 ++ q) g 3
  | .qpoll p q g => packA 0x11 (0#2 ++ p) 0 (0#2 ++ q) g 4
  | .qstat d q g => packA 0x11 d 0 (0#2 ++ q) g 5
  | .send a b g n => packA 0x12 0 a b g (n ++ 0#3)
  | .sendr d a b g n => packA 0x12 d a b g (n ++ 1#3)
  | .reply b g n => packA 0x12 0 0 b g (n ++ 2#3)
  | .hret g => packA 0x12 0 0 0 g 3
  | .hmask a g => packA 0x12 0 a 0 g 4
  | .hunm a g => packA 0x12 0 a 0 g 5
  | .hset a b g => packA 0x12 0 a b g 6
  | .cpy s a g => packA 0x13 (0#2 ++ s) a 0 g 0
  | .gath s a g => packA 0x13 (0#2 ++ s) a 0 g 1
  | .scat s a g => packA 0x13 (0#2 ++ s) a 0 g 2
  | .coll s a g => packA 0x13 (0#2 ++ s) a 0 g 3
  | .node d a b g => packA 0x13 d a b g 4
  | .ewt d a g => packA 0x13 d a 0 g 5
  | .echk d a g => packA 0x13 d a 0 g 6
  | .edec a g => packA 0x13 0 a 0 g 7
  | .spawn d a b g => packA 0x14 d a b g 0
  | .migr a g => packA 0x14 0 a 0 g 1
  | .steal d a g => packA 0x14 d a 0 g 2
  | .yield g => packA 0x14 0 0 0 g 3
  | .endStrand g => packA 0x14 0 0 0 g 4
  | .gang a g => packA 0x14 0 a 0 g 5
  | .bar a g => packA 0x14 0 a 0 g 6
  | .sopen d a k g => packA 0x15 d a k g 0
  | .sclose a g => packA 0x15 0 a 0 g 1
  | .scanc a g => packA 0x15 0 a 0 g 2
  | .swin a g => packA 0x15 0 a 0 g 3
  | .shld g => packA 0x15 0 0 0 g 4
  | .sunsh g => packA 0x15 0 0 0 g 5
  | .cpt g => packA 0x15 0 0 0 g 6
  | .sres d a r g => packA 0x15 d a (0#4 ++ r) g 7
  | .nop g => packA 0x17 0 0 0 g 0
  | .pause a g => packA 0x17 0 a 0 g 1
  | .trap a g => packA 0x17 0 a 0 g 2
  | .eret g => packA 0x17 0 0 0 g 3
  | .sleep a g => packA 0x17 0 a 0 g 4
  | .krf t s d => packKiln t s 0 d
  | .kbfx t s d => packKiln t s 1 d
  | .kswt s d => packKiln 0 s 2 d
  | .kdsp t s d => packKiln t s 3 d
  | _ => 0

/-- The halfword of a compact instruction; none for every other constructor. -/
def encodeHalf : Instr → Option Half
  | .movCompact d a => some (0#3 ++ 0#3 ++ d ++ a)
  | .addCompact d a => some (0#3 ++ 1#3 ++ d ++ a)
  | .subCompact d a => some (0#3 ++ 2#3 ++ d ++ a)
  | .andCompact d a => some (0#3 ++ 3#3 ++ d ++ a)
  | .orCompact d a => some (0#3 ++ 4#3 ++ d ++ a)
  | .xorCompact d a => some (0#3 ++ 5#3 ++ d ++ a)
  | .shlCompact d a => some (0#3 ++ 6#3 ++ d ++ a)
  | .shrCompact d a => some (0#3 ++ 7#3 ++ d ++ a)
  | .addiCompact d i => some (1#3 ++ d ++ i)
  | .limCompact d i => some (2#3 ++ d ++ i)
  | .ldDCompact d b o => some (3#3 ++ 0#1 ++ d ++ b ++ o)
  | .stDCompact s b o => some (3#3 ++ 1#1 ++ s ++ b ++ o)
  | .brCompact g n o => some (4#3 ++ g ++ n ++ o)
  | .nopCompact => some 0xA000
  | .pauseCompact a => some (5#3 ++ 1#5 ++ 0#3 ++ a)
  | .cptCompact => some 0xA200
  | .retCompact => some 0xA300
  | .endCompact => some 0xA400
  | .hretCompact => some 0xA500
  | .yieldCompact => some 0xA600
  | .barCompact a => some (5#3 ++ 7#5 ++ 0#3 ++ a)
  | .mwaitCompact h f => some (5#3 ++ 8#5 ++ 0#3 ++ h ++ f)
  | .qrdCompact q d => some (6#3 ++ 0#1 ++ q ++ d ++ 0#4)
  | .qwrCompact q a => some (6#3 ++ 1#1 ++ q ++ a ++ 0#4)
  | _ => none

/-- Does the instruction belong to the Kiln's harts? -/
def Instr.isKiln : Instr → Bool
  | .krf _ _ _ => true
  | .kbfx _ _ _ => true
  | .kswt _ _ => true
  | .kdsp _ _ _ => true
  | _ => false

/-- Does the constructor stand for an event, which no word encodes? -/
def Instr.isEvent (i : Instr) : Bool := (encodeHalf i).isNone && encodeWord i == 0

/-- The two bytes of a halfword, little-endian (R4). -/
def halfBytes (h : Half) : List Byte := [h.extractLsb' 0 8, h.extractLsb' 8 8]

/-- The bytes of a 32-bit instruction: the first halfword at the lower address. -/
def wordBytes (w : Word32) : List Byte := halfBytes (w.extractLsb' 16 16) ++ halfBytes (w.extractLsb' 0 16)

/-- The bytes of a RISC-V word, little-endian. -/
def kilnBytes (w : Word32) : List Byte := halfBytes (w.extractLsb' 0 16) ++ halfBytes (w.extractLsb' 16 16)

/-- The bytes of an instruction in its store; none for an event. -/
def encode (i : Instr) : List Byte :=
  match encodeHalf i with
  | some h => halfBytes h
  | none => if i.isEvent then [] else if i.isKiln then kilnBytes (encodeWord i) else wordBytes (encodeWord i)

/-- What sw.trapaux holds of an instruction raised with subcode 0 (R95): its halfword or word. -/
def instrWord (i : Instr) : Word :=
  match encodeHalf i with
  | some h => h.setWidth 64
  | none => (encodeWord i).setWidth 64

/-- The bytes of a word numbered as the opcode table numbers it: in a 32-bit instruction the spec's W (R83), whose
first halfword is bits 31 to 16; a word of the Kiln is a RISC-V word. -/
def tableBytes (nbits w : Nat) : List Byte :=
  if nbits = 16 then halfBytes (BitVec.ofNat 16 w)
  else if nbits = 32 then
    let v := BitVec.ofNat 32 w
    if v.extractLsb' 29 3 ≠ 7 ∧ v.extractLsb' 0 7 = 0x0B then kilnBytes v else wordBytes v
  else []

/-- Is the word one of the Kiln's (R358)? -/
def tableIsKiln (nbits w : Nat) : Bool :=
  nbits == 32 && (BitVec.ofNat 32 w).extractLsb' 29 3 != 7 && (BitVec.ofNat 32 w).extractLsb' 0 7 == 0x0B#7

/-- The Kiln's decoder on bytes. -/
def decodeKilnBytes (bytes : List Byte) : Option Instr :=
  match bytes with
  | b0 :: b1 :: b2 :: b3 :: _ => decodeKiln (b3 ++ b2 ++ b1 ++ b0)
  | _ => none

/-- The instruction that the decoder reads from a word of the opcode table. -/
def decodeTableWord (nbits w : Nat) : Option Instr :=
  if tableIsKiln nbits w then decodeKilnBytes (tableBytes nbits w)
  else match decode (tableBytes nbits w) with
    | .instr i len => if 8 * len = nbits then some i else none
    | _ => none

end Sys2Proof
end

