-- ==== Sys2Proof/Machine/Bytes.lean ====
section
/-! DEFINITION. Bytes, words and blocks of the one memory; little-endian (R4); CRC-16 (R188, R243). -/

namespace Sys2Proof.Machine

/-- The `n` low bytes of a vector, the least significant first. -/
def leBytes {w : Nat} (n : Nat) (v : BitVec w) : List Byte := (List.range n).map fun i => v.extractLsb' (8 * i) 8

/-- The number that bytes hold, the least significant first. -/
def ofLe : List Byte → Nat
  | [] => 0
  | b :: rest => b.toNat + 256 * ofLe rest

def wordOf (bs : List Byte) : Word := BitVec.ofNat 64 (ofLe bs)

/-- What a byte of any memory of the module reads as: 0 until something is written (R366; log entry 5). -/
def State.byte (s : State) (k : Nat) : Byte := Assoc.get 0 s.mem k

/-- Writes one byte, keeping the canonical form. -/
def State.setByte (s : State) (k : Nat) (b : Byte) : State := { s with mem := Assoc.put 0 s.mem k b }

def State.bytes (s : State) (k n : Nat) : List Byte := (List.range n).map fun i => s.byte (k + i)

def State.setBytes (s : State) (k : Nat) : List Byte → State
  | [] => s
  | b :: rest => (s.setByte k b).setBytes (k + 1) rest

def State.word (s : State) (k : Nat) : Word := wordOf (s.bytes k 8)
def State.setWord (s : State) (k : Nat) (v : Word) : State := s.setBytes k (leBytes 8 v)
def State.block (s : State) (k : Nat) : Block := BitVec.ofNat 512 (ofLe (s.bytes k 64))
def State.desc (s : State) (k : Nat) : Desc := s.descs.get 0 k
def State.setDesc (s : State) (k : Nat) (d : Desc) : State := { s with descs := s.descs.put 0 k d }
def State.err (s : State) (k : Nat) : Word := s.errs.get 0 k
def State.setErr (s : State) (k : Nat) (v : Word) : State := { s with errs := s.errs.put 0 k v }

/-- The memory keeps its canonical form: addresses strictly rising, no entry equal to what an unlisted one reads as. -/
def memoryWf (m : List Host.Cell) : Bool := Assoc.sorted m && m.all fun c => c.2 != 0

/-- Byte `i` of a block. -/
def blockByte (b : Block) (i : Nat) : Byte := b.extractLsb' (8 * i) 8
def blockWord (b : Block) (i : Nat) : Word := b.extractLsb' (64 * i) 64

/-- A block with `bs` laid over it from byte `off` on. -/
def overlay (b : Block) (off : Nat) (bs : List Byte) : Block :=
  let m : Block := (BitVec.ofNat 512 (2 ^ (8 * bs.length) - 1)) <<< (8 * off)
  (b &&& ~~~ m) ||| ((BitVec.ofNat 512 (ofLe bs)) <<< (8 * off) &&& m)

/-- One byte into a CRC-16 with polynomial 0x1021. -/
def crcByte (c : BitVec 16) (b : Byte) : BitVec 16 :=
  (List.range 8).foldl (fun c _ => if c.msb then (c <<< 1) ^^^ 0x1021#16 else c <<< 1) (c ^^^ (b ++ 0#8))

def crc16 (init : BitVec 16) (bs : List Byte) : BitVec 16 := bs.foldl crcByte init

/-- The key of the 64-byte block that holds a byte, and of its 8-byte word. -/
def blockKey (k : Nat) : Nat := k / 64 * 64
def wordKey (k : Nat) : Nat := k / 8 * 8

/-- The memory key of a byte of a vault, by physical core. -/
def vaultKey (pcore off : Nat) : Nat := Config.vaultBase + pcore * Config.vaultSize + off
def istoreKey (pcore off : Nat) : Nat := Config.istoreBase + pcore * Config.istoreSize + off

/-- Is the key one of a vault, of the host's memory, of device memory? -/
def isVault (k : Nat) : Bool := Config.vaultBase ≤ k && k < Config.istoreBase
def isHost (k : Nat) : Bool := Config.hostBase ≤ k && k < Config.vaultBase
def isDevice (k : Nat) : Bool := k < Config.windowSize

/-- The unit of a window offset: HBM stack 0–7, or 8 + LPDDR package (R176, R342). -/
def unitOf (o : Nat) : Nat := if o < Config.hbmEnd then o / 2 ^ 36 else 8 + (o - Config.lpddrStart) / 2 ^ 36

/-- The cluster whose router serves the granule of a window offset (R21). -/
def routerOf (o : Nat) : Nat :=
  let u := unitOf o
  if u < 8 then 8 * (u / 2) + 4 + 2 * (u % 2) + (o / 2 ^ 12) % 2 else 8 * ((u - 8) / 4) + 4 + (u - 8) % 4

/-- The unit that serves a memory key: a vault, the port of a memory controller (R21), or for the host's memory the I/O
die. -/
def memoryNode (key : Nat) : Nat :=
  if isVault key then unitNode (clusterOf ((key - Config.vaultBase) / Config.vaultSize)) 14
  else if isHost key then kilnNode
  else unitNode (routerOf key) 13

/-- A window offset that translated accesses reach (R176, R177). -/
def isVisible (o : Nat) : Bool :=
  (o < Config.hbmEnd || (Config.lpddrStart ≤ o && o < Config.windowSize)) && o % 2 ^ 36 < Config.unitVisible

/-- A window offset in the device tables of a unit (R177). -/
def isTable (o : Nat) : Bool :=
  (o < Config.hbmEnd || (Config.lpddrStart ≤ o && o < Config.windowSize))
    && Config.tableStart ≤ o % 2 ^ 36 && o % 2 ^ 36 < Config.tableStart + Config.tableSize

/-! ### Error logs and counts (R193, R391) -/

/-- Which log an event goes to: a memory unit's, or one of the six arrays of a physical core. -/
inductive LogArray where
  | unit (u : Nat)
  | core (pcore array : Nat)
  deriving DecidableEq, Repr

def State.logs (s : State) : LogArray → Nat → LogEntry
  | .unit u, i => s.unitLogs.get {} (16 * u + i)
  | .core p a, i => (s.core p).logs.get {} (16 * a + i)

def State.setLog (s : State) (a : LogArray) (i : Nat) (e : LogEntry) : State :=
  match a with
  | .unit u => { s with unitLogs := s.unitLogs.put {} (16 * u + i) e }
  | .core p ar => s.modCore p fun c => { c with logs := c.logs.put {} (16 * ar + i) e }

/-- Stores an event in the lowest free entry, or sets OVER in entry 15; counts it in the cluster either way. -/
def State.logEvent (s : State) (a : LogArray) (cluster : Nat) (kind : BitVec 8) (addr : BitVec 48) (synd : Word)
    (ctx : BitVec 32) (pasid : BitVec 20) (keyid : BitVec 12) : State :=
  let e : LogEntry :=
    { w0 := 1#1 ++ 0#7 ++ kind ++ addr, w1 := synd, w2 := ctx ++ pasid ++ keyid, w3 := BitVec.ofNat 64 s.cycle }
  let s := match (List.range 16).find? fun i => !(s.logs a i).w0.msb with
    | some i => s.setLog a i { e with w0 := e.w0 ||| ((s.logs a i).w0 &&& 0x4000000000000000#64) }
    | none => s.setLog a 15 { s.logs a 15 with w0 := (s.logs a 15).w0 ||| 0x4000000000000000#64 }
  if kind = 1 ∨ kind = 6 ∨ kind = 7 then s.modCluster cluster fun c => { c with corr := c.corr + 1 }
  else s.modCluster cluster fun c => { c with uncorr := c.uncorr + 1 }

/-! ### Sectors of device memory (R188 to R191) -/

/-- The flipped bits of a sector against its check bits. -/
def State.sectorDiff (s : State) (k : Nat) : Block :=
  BitVec.ofNat 512 (ofLe ((List.range 8).flatMap fun i => leBytes 8 (s.err (k + 8 * i))))

def diffBytes (d : Block) : List Byte := leBytes 64 d
def badBytes (d : Block) : Nat := ((diffBytes d).filter (· != 0)).length

/-- A sector with its errors cleared. -/
def State.clearErrs (s : State) (k : Nat) : State :=
  (List.range 8).foldl (fun s i => s.setErr (k + 8 * i) 0) s

/-- Writes a whole block: data, and its descriptor where one is given; every earlier error is cleared (R191, R192). -/
def State.setBlock (s : State) (k : Nat) (b : Block) (d : Option Desc) : State :=
  let s := (s.setBytes k (leBytes 64 b)).clearErrs k
  let s := { s with badTags := s.badTags.filter (· != k) }
  match d with
  | some d => if isHost k then s else s.setDesc k d
  | none => s

/-- Who reads or writes, for the log, at which address, for the trap, and the key id and INTEG bit of the region. -/
structure Ctx0 where
  ctx : BitVec 32 := 0
  pasid : BitVec 20 := 0
  keyid : BitVec 12 := 0
  integ : Bool := false
  va : Word := 0
  deriving DecidableEq, Repr

/-- The pair of keys of a key id; 0, plaintext, for key id 0 (R189). -/
def State.pairOf (s : State) (keyid : BitVec 12) : BitVec 512 :=
  if keyid = 0 then 0 else (s.kiln.keyTable.get {} keyid.toNat).xts

/-- What a sector's plaintext under one pair of keys is stored as. -/
def sealed (pair : BitVec 512) (k : Nat) (b : Block) : Block := if pair = 0 then b else Config.xtsEncrypt pair k b

/-- The plaintext of a sector that a region with a key id reads: what was written, where it was written under the same
keys; else what their cipher makes of the stored bytes (R189). `State.mem` holds the plaintext as it was written. -/
def State.plain (s : State) (k : Nat) (keyid : BitVec 12) (b : Block) : Block :=
  let p := s.seals.get 0 k
  let q := s.pairOf keyid
  if p = q then b else if q = 0 then sealed p k b else Config.xtsDecrypt q k (sealed p k b)

/-- The word of the tag area for a sector (R189): the tag of what is stored, or after an injection its inverse. -/
def State.tagWord (s : State) (k : Nat) (keyid : BitVec 12) : BitVec 56 :=
  let t := Config.gmac (s.kiln.keyTable.get {} keyid.toNat).integ (sealed (s.seals.get 0 k) k (s.block k ^^^ s.sectorDiff k)) (s.desc k) k
  if s.badTags.contains k then ~~~t else t

/-- A whole sector written for a region: its data under the region's keys, its descriptor, its check words and its tag; a
sector of the device tables in their mirror too (R177). -/
def State.putSector (s : State) (c : Ctx0) (k : Nat) (b : Block) (d : Option Desc) : State :=
  let s := s.setBlock k b d
  if isTable k then s.setBlock (k + Config.tableSize) b d
  else if isDevice k then { s with seals := s.seals.put 0 k (s.pairOf c.keyid) } else s

/-- What the two stages of R190 find. -/
inductive SectorRead where
  | good
  | corrected
  | uncorrectable
  | tagBad (corrected : Bool)
  deriving DecidableEq, Repr

/-- The outcome of reading a sector; `integ`: it lies in an integrity region. The CRC and the parity are linear, so they
are decided by the flipped bits alone. More than 4 damaged bytes are never decoded: the code's roots are not given (R188;
log entry 12). -/
def State.sectorOutcome (s : State) (k : Nat) (integ : Bool) : SectorRead :=
  let d := s.sectorDiff k
  let seen := crc16 0 (diffBytes d ++ [0, 0]) != 0
  if seen && badBytes d > 4 then .uncorrectable
  else if integ && (s.badTags.contains k || (!seen && d != 0)) then .tagBad seen
  else if seen then .corrected else .good

/-- Reads a sector of device memory: the state after any correction and log, and the data or the fault (R190). A sector of
the device tables has no correction parity: when its CRC fails, its mirror is taken and rewrites it (R177); a mirror that
fails too leaves no copy (log entry 59). -/
def State.readSector (s : State) (k : Nat) (c : Ctx0) : State × Except Trap Block :=
  let d := s.sectorDiff k
  let synd : Word := (BitVec.ofNat 64 (crc16 0 (diffBytes d ++ [0, 0])).toNat)
  let log (s : State) (kind : BitVec 8) (sy : Word) :=
    s.logEvent (.unit (unitOf k)) (routerOf k) kind (BitVec.ofNat 48 k) sy c.ctx c.pasid c.keyid
  let fix (s : State) := s.setBytes k (leBytes 64 (s.block k ^^^ d)) |>.clearErrs k
  let syndC := synd ||| (BitVec.ofNat 64 (badBytes d) <<< 16)
  let mirror := k + Config.tableSize
  if isTable k && crc16 0 (diffBytes d ++ [0, 0]) != 0 && s.sectorOutcome mirror false == .good then
    let s := log ((s.setBytes k (leBytes 64 (s.block mirror))).clearErrs k) 1 synd
    (s, .ok (s.block k))
  else match if isTable k && s.sectorOutcome k false != .good then .uncorrectable else s.sectorOutcome k c.integ with
  | .good => (s, .ok (s.plain k c.keyid (s.block k)))
  | .corrected => let s := log (fix s) 1 syndC; (s, .ok (s.plain k c.keyid (s.block k)))
  | .uncorrectable => (log s 2 synd, .error { code := .dataUe, va := c.va, aux := BitVec.ofNat 64 k })
  | .tagBad false => (log s 3 0, .error { code := .integrity, sub := 0, va := c.va, aux := BitVec.ofNat 64 k })
  | .tagBad true => (log (fix s) 4 syndC, .error { code := .integrity, sub := 1, va := c.va, aux := BitVec.ofNat 64 k })

/-- The failing parity bits of a word: even positions in bit 0, odd in bit 1 (R192). -/
def parityOf (d : Word) : BitVec 2 :=
  let odd (m : Word) : Bool := ((List.range 64).filter fun i => (d &&& m).getLsbD i).length % 2 == 1
  BitVec.ofBool (odd 0xAAAAAAAAAAAAAAAA) ++ BitVec.ofBool (odd 0x5555555555555555)

end Sys2Proof.Machine
end

