-- ==== Sys2Proof/Machine/Regions.lean ====
section
/-! DEFINITION. Region words (R206), the token directory (R207, R345), who has a right to what, and the translation of
an address (R173, R176, R350). -/

namespace Sys2Proof.Machine

/-- A decoded region word: path code, base offset, and the log of its size. -/
structure Region where
  path : Nat
  base : Nat
  k : Nat
  deriving DecidableEq, Repr

def Region.vault (r : Region) : Bool := r.path == 3
def Region.covers (r : Region) (off : Nat) : Bool := r.base ≤ off && off < r.base + 2 ^ r.k
def Region.meets (a b : Region) : Bool := a.base < b.base + 2 ^ b.k && b.base < a.base + 2 ^ a.k

/-- The region word of a path, base and size. -/
def regionWord (path base k : Nat) : Word := BitVec.ofNat 64 (path * 2 ^ 50 + base + (2 ^ (k - 1) - 2 ^ 11))

/-- Decodes a region word; none when it is malformed (R206). -/
def decodeRegion (w : Word) : Option Region :=
  let path := (w.extractLsb' 50 4).toNat
  let off := (w.extractLsb' 0 50).toNat
  let k? : Option Nat :=
    if !w.getLsbD 11 then some 12
    else ((List.range 20).find? fun i => !w.getLsbD (12 + i)).map fun i => 13 + i
  match k? with
  | none => none
  | some k =>
    let base := if k = 12 then off else off - off % 2 ^ (k - 1)
    if w.extractLsb' 54 10 ≠ 0 ∨ w.extractLsb' 0 11 ≠ 0 then none
    else if !(path < 5 || path == 6) then none
    else if path = 3 ∧ (2 ^ 32 ≤ base ∨ 2 ^ 23 < base % 2 ^ 23 + 2 ^ k) then none
    else some { path := path, base := base, k := k }

/-- The region of a directory entry. -/
def Token.reg (t : Token) : Region := (decodeRegion t.region).getD { path := 0, base := 0, k := 0 }

/-- Is the entry the token of exactly this region for a tenant (R206)? -/
def Token.isFor (t : Token) (r : Region) (pasid : BitVec 20) : Bool :=
  t.pasid == pasid && t.reg.vault == r.vault && t.reg.base == r.base && t.reg.k == r.k

/-- The token of a spill area, in the part of a vault that hardware uses (R175): the scope of its strand holds it, until a
request changes it. The Kiln holds the rest, which for a tenant is as if no token covered it (R206; log entry 55). -/
def State.spillToken (s : State) (pasid : BitVec 20) (off : Nat) : Option Token :=
  (s.strands.find? fun kv =>
    (s.scope kv.2.scope).pasid == pasid && (kv.2.spillbase.extractLsb' 0 32).toNat == off / 2 ^ 14 * 2 ^ 14).map fun kv =>
  { region := regionWord 3 (off / 2 ^ 14 * 2 ^ 14) 14, pasid := pasid, state := .held
    owner := { kind := .scope, id := kv.2.scope.setWidth 32 } }

/-- The token of exactly this region for a tenant: a listed one, or that of a spill area (R175). -/
def State.token (s : State) (r : Region) (pasid : BitVec 20) : Option Token :=
  match s.tokens.find? fun t => t.isFor r pasid with
  | some t => some t
  | none => if r.vault && r.k = 14 && decide (Config.spillStart ≤ r.base % 2 ^ 23) then s.spillToken pasid r.base else none

/-- Changes the token of a region; that of a spill area is listed from its first change on. -/
def State.modToken (s : State) (r : Region) (pasid : BitVec 20) (f : Token → Token) : State :=
  if s.tokens.any fun t => t.isFor r pasid then
    { s with tokens := s.tokens.map fun t => if t.isFor r pasid then f t else t }
  else match s.token r pasid with
    | some t => { s with tokens := s.tokens ++ [f t] }
    | none => s

def State.dropToken (s : State) (r : Region) (pasid : BitVec 20) : State :=
  { s with tokens := s.tokens.filter fun t => !t.isFor r pasid }

/-- Does a region reach the part of a vault that holds spill areas, the overflow area and the Kiln's data (R175)? -/
def Region.system (r : Region) : Bool := r.vault && Config.spillStart < r.base % 2 ^ 23 + 2 ^ r.k

/-- The token that covers an address of a tenant: the smallest region, so a sherd before the region it is part of. -/
def State.covering (s : State) (pasid : BitVec 20) (vault : Bool) (off : Nat) : Option Token :=
  let listed := (s.tokens.filter fun t => t.pasid == pasid && t.reg.vault == vault && t.reg.covers off).foldl
    (fun best t => match best with
      | none => some t
      | some b => if t.reg.k < b.reg.k then some t else some b) none
  if listed.isNone && vault && decide (Config.spillStart ≤ off % 2 ^ 23) then s.spillToken pasid off else listed

/-- A channel as a party (R403): the core field of its handle is 31. -/
def channelHandle (lcore : Nat) (chan : BitVec 6) : Handle :=
  BitVec.ofNat 2 (lcore / 128) ++ BitVec.ofNat 3 (lcore / 16 % 8) ++ 31#5 ++ BitVec.ofNat 4 (lcore % 16) ++ 0#12 ++ chan

def strandParty (h : Handle) : Party := { kind := .strand, id := h }
def scopeParty (id : ScopeId) : Party := { kind := .scope, id := id.setWidth 32 }
def engineParty (e : Nat) (number : Nat) : Party := { kind := .engine, id := BitVec.ofNat 32 (0x80000000 + e), dev := BitVec.ofNat 16 number }

/-- The parties an access of a strand acts for: itself, and the channel of its activation (R403). -/
def Strand.parties (st : Strand) : List Party :=
  strandParty st.handle ::
    (match st.act with
    | some a => [{ kind := .channel, id := channelHandle a.lcore a.chan }]
    | none => [])

/-- Has the party the rights that the home records for it, neither given up nor still on their way (R208)? -/
def Token.settled (t : Token) (p : Party) : Bool := !t.leaving.contains p && !t.coming.contains p

/-- The party with the full token: the owner of a HELD one, the last borrower of a LENT one (R207). -/
def Token.full (t : Token) : Option Party :=
  match t.state with
  | .held => if t.giving || t.sharing != 0 then none else some t.owner
  | .lent => t.borrowers.getLast?
  | _ => none

def Token.holdsFull (t : Token) (ps : List Party) : Bool :=
  match t.full with
  | some p => ps.contains p && t.settled p
  | none => false

/-- Read-shares of a party that it has received and not given up. -/
def Token.netShares (t : Token) (p : Party) : Nat := t.shares.count p - t.leaving.count p - t.coming.count p

/-- Does one of the parties read under SHARED: the owner or a share holder? An owner whose TSHARE is on its way reads
already under it (R208). -/
def Token.holdsShare (t : Token) (ps : List Party) : Bool :=
  ((t.state == .shared && !t.giving) || (t.state == .held && !t.giving && t.sharing != 0)) &&
      ps.contains t.owner && t.settled t.owner
    || t.state == .shared && ps.any fun p => t.netShares p != 0

/-- Who makes an access. -/
structure Who where
  pcore : Nat
  pasid : BitVec 20
  parties : List Party
  sys : Bool
  ctx : BitVec 32
  scope : ScopeId := 0
  cluster : Nat := 0
  /-- the PRI response that ended this access's wait (R182) -/
  pageAns : Option (Nat × BitVec 2 × BitVec 4) := none
  /-- the reply to what it reads or writes beyond its own core and vault is truncated, with this subcode (R250) -/
  cut : Option (BitVec 8) := none
  /-- an engine reads and writes memory itself; a strand through L0 -/
  engine : Bool := false
  deriving DecidableEq, Repr

/-- Why an access does not go on. -/
inductive Stop where
  | trap (t : Trap)
  | page (pasid : BitVec 20) (page : Nat) (need : BitVec 2)
  | reclaim (region : Word)
  /-- the instruction waits, and is executed again when the wait is over -/
  | hold (w : Wait)
  deriving DecidableEq, Repr

/-- Actions of an instruction: they may change the state and stop. -/
abbrev Act := ExceptT Stop (StateM State)

def raise {α : Type} (t : Trap) : Act α := throw (.trap t)

/-- Runs an action. -/
def Act.go {α : Type} (a : Act α) (s : State) : Except Stop α × State := a.run s

/-- The token stage of an access on a path other than SYNC (R173, R187 point 6). -/
def tokenFault (t? : Option Token) (path : Nat) (ps : List Party) (write : Bool) (va : Word) : Option Stop :=
  let absent (aux : Word) : Option Stop := some (.trap { code := .tokenAbsent, va := va, aux := aux })
  match t? with
  | none => if path = 1 ∧ write then some (.trap { code := .sealedWrite, va := va, aux := some 0 }) else absent 0
  | some t =>
    let fault (c : FaultName) : Option Stop := some (.trap { code := c, va := va, aux := t.region })
    match t.state with
    | .free => some (.trap { code := .path, sub := 6, va := va, aux := t.region })
    | .reclaiming => some (.reclaim t.region)
    | .poisoned => fault .poisoned
    | .sealed_ => if write then fault .sealedWrite else none
    | .shared =>
      if path = 1 then (if write then fault .sealedWrite else absent t.region)
      else if t.holdsShare ps then (if write then fault .tokenReadonly else none) else absent t.region
    | .held | .lent | .split =>
      if path = 1 then (if write then fault .sealedWrite else absent t.region)
      else if t.holdsFull ps then none
      else if t.holdsShare ps then (if write then fault .tokenReadonly else none) else absent t.region

/-- The token stage on SYNC: the covering token must be FREE. -/
def cellFault (t? : Option Token) (va : Word) : Option Stop :=
  match t? with
  | none => some (.trap { code := .tokenAbsent, va := va, aux := some 0 })
  | some t =>
    match t.state with
    | .free => none
    | .reclaiming => some (.reclaim t.region)
    | _ => some (.trap { code := .path, sub := 6, va := va, aux := t.region })

/-! ### Translation (R181, R350) -/

def transCovers (e : TransEntry) (pasid : BitVec 20) (off : Nat) : Bool :=
  e.pasid == pasid && e.vbase ≤ off && off < e.vbase + 2 ^ e.logSize

/-- The entry used for an address: the smallest that covers it. -/
def State.transEntry (s : State) (pasid : BitVec 20) (off : Nat) : Option TransEntry :=
  (s.trans.filter fun e => transCovers e pasid off).foldl
    (fun best e => match best with
      | none => some e
      | some b => if e.logSize < b.logSize then some e else some b) none

/-- The memory key of a translated address: a window offset, or a host address (R176, R179). -/
def State.keyOf (s : State) (t : Nat) : Nat :=
  if s.devwin.toNat ≤ t ∧ t < s.devwin.toNat + Config.windowSize then t - s.devwin.toNat else Config.hostBase + t

def inWindow (key : Nat) : Bool := key < Config.windowSize

/-- The accesses that paths tell apart (R173). -/
inductive Access where
  | load (size : Nat)
  | store (size : Nat)
  | vec (write : Bool)
  | engine (write : Bool) (size : Nat)
  | matrix (write : Bool)
  /-- a write of part of a 64-byte block of results (R163) -/
  | part
  | cell (write : Bool)
  deriving DecidableEq, Repr

def Access.write : Access → Bool
  | .load _ => false
  | .store _ => true
  | .vec w => w
  | .engine w _ => w
  | .matrix w => w
  | .part => true
  | .cell w => w

/-- Does the access need a read permission (R182): every one but a write of a whole block, which fetches nothing (R191)? -/
def Access.reads : Access → Bool
  | .vec w => !w
  | .engine w n => !(w && n == 64)
  | .matrix w => !w
  | _ => true

/-- The permissions an access needs: bit 0 read, bit 1 write. -/
def Access.need (a : Access) : BitVec 2 := BitVec.ofBool a.write ++ BitVec.ofBool a.reads

/-- Does a translation give the permissions? -/
def transGives (e : TransEntry) (need : BitVec 2) : Bool := (e.r || !need.getLsbD 0) && (e.w || !need.getLsbD 1)

def Access.align : Access → Nat
  | .load n => n
  | .store n => n
  | .vec _ => 64
  | .engine _ n => n
  | .matrix _ | .part => 64
  | .cell _ => 8

/-- Does the path accept the access (R173, R157, R197)? A write on RO is accepted here and refused as SEALED_WRITE. -/
def Access.accepted (a : Access) (path : Nat) : Bool :=
  match a with
  | .load n | .store n => path < 2 || path == 3 || path == 4 || path == 6 || ((path == 2 || path == 7) && n == 8)
  | .vec _ | .engine _ _ => path < 2 || path == 3 || path == 4 || path == 6
  | .matrix _ | .part => path == 4
  | .cell _ => path == 2

/-- Where an access goes. -/
inductive Where where
  | lineOf (key : Nat)
  | vaultAt (key : Nat)
  | cellAt (key : Nat)
  | ioAt (off : Nat)
  deriving DecidableEq, Repr

def Where.key : Where → Nat
  | .lineOf k => k
  | .vaultAt k => k
  | .cellAt k => k
  | .ioAt k => k

/-- A place, with what the memory needs to know of the region. -/
structure Place where
  at_ : Where
  va : Word
  c0 : Ctx0
  deriving DecidableEq, Repr

/-- Is the quadrant of a window offset in a running partition (R351)? -/
def State.quadRuns (s : State) (q : Nat) : Bool := (s.parts.get (0, 0) q).1 == 0

def pathFault (sub : BitVec 8) (va : Word) : Stop := .trap { code := .path, sub := sub, va := va }

/-! ### The registers of the IO path (R342) -/

/-- A register that an offset names. -/
inductive IoReg where
  | handler (lcore chan word : Nat)
  | log (a : LogArray) (entry word : Nat)
  | inject (a : LogArray)
  | node (cluster entry word : Nat)
  | routing (cluster : Nat)
  | tokenCtl (cluster : Nat)
  | health (pcore : Nat)
  | count (cluster n : Nat)
  | partition (quad : Nat)
  | peer (n word : Nat)
  deriving DecidableEq, Repr

/-- The register of an offset, and the cluster of its unit where it has one. -/
def ioReg (off : Nat) : Option (IoReg × Option Nat) :=
  let i := off % 0x1000000
  match off / 0x1000000 with
  | 0 =>
    let l := i / 0x1000
    let o := i % 0x1000
    if l < 512 ∧ o < 0x400 then some (.handler l (o / 16) (o / 8 % 2), some (l / 16)) else none
  | 1 =>
    let p := i / 0x1000
    let o := i % 0x1000
    if p < Config.pcores ∧ o < 0xC00 then some (.log (.core p (o / 0x200)) (o % 0x200 / 32) (o / 8 % 4), some (clusterOf p))
    else if p < Config.pcores ∧ o < 0xC30 then some (.inject (.core p ((o - 0xC00) / 8)), some (clusterOf p))
    else none
  | 2 =>
    let c := i / 0x10000
    let o := i % 0x10000
    if 32 ≤ c then none
    else if o < 0x8000 then some (.node c (o / 128) (o / 8 % 16), some c)
    else if o = 0x8000 then some (.routing c, some c)
    else if o = 0x9000 then some (.tokenCtl c, some c)
    else if 0xA000 ≤ o ∧ o < 0xA088 then some (.health (17 * c + (o - 0xA000) / 8), some c)
    else if 0xA100 ≤ o ∧ o ≤ 0xA130 then some (.count c ((o - 0xA100) / 8), some c)
    else none
  | 3 =>
    let u := i / 0x1000
    let o := i % 0x1000
    let c := if u < 8 then 8 * (u / 2) + 4 else 8 * ((u - 8) / 4) + 4
    if Config.memUnits ≤ u then none
    else if o < 0x200 then some (.log (.unit u) (o / 32) (o / 8 % 4), some c)
    else if o = 0x200 then some (.inject (.unit u), some c)
    else none
  | 4 =>
    if i < 32 then some (.partition (i / 8), none)
    else if 0x1000 ≤ i ∧ i < 0x1000 + 16 * 1024 then some (.peer ((i - 0x1000) / 16) (i / 8 % 2), none)
    else none
  | _ => none

/-- Can a store change something of the register: has it a field that is PRIV or W1C (R343)? -/
def IoReg.writable : IoReg → Bool
  | .log _ _ 0 | .inject _ | .count _ _ | .peer _ 1 => true
  | _ => false

/-- The quadrants of the partition of a cluster, in increasing order (R351). -/
def State.partQuads (s : State) (cluster : Nat) : List Nat :=
  let part (q : Nat) := (s.parts.get (0, 0) q).2
  (List.range 4).filter fun q => part q = part (quadOf cluster)

/-- Do two clusters belong to one partition? Nothing but the Kiln's control traffic passes between partitions (R29). -/
def State.samePart (s : State) (a b : Nat) : Bool := (s.partQuads a).contains (quadOf b)

/-- The register of an access on the IO path: PATH 3 where there is none, where its unit lies outside the partition, and
where a store finds no field to write (R343). -/
def State.ioAccess (s : State) (cluster off : Nat) (va : Word) (write : Bool) : Except Stop IoReg :=
  match ioReg off with
  | none => .error (pathFault 3 va)
  | some (r, unit) =>
    if write && !r.writable then .error (pathFault 3 va)
    else match unit with
      | none => .ok r
      | some c => if s.samePart cluster c then .ok r else .error (pathFault 3 va)


/-- Why an access on the IO path finds no register, if it does. -/
def State.ioStop (s : State) (who : Who) (a : Access) (path off : Nat) (va : Word) : Option Stop :=
  if path ≠ 7 then none
  else match s.ioAccess who.cluster off va a.write with
    | .error e => some e
    | .ok _ => none

/-- The checks of R173 and R187 up to the token stage, in their order: where the access goes, or why it stops. What lies in
another partition answers nothing, as what is dead (log entry 66). -/
def State.place (s : State) (who : Who) (a : Access) (va : Word) : Except Stop Place :=
  let path := (va.extractLsb' 50 4).toNat
  let off := (va.extractLsb' 0 50).toNat
  let c0 (t? : Option Token) : Ctx0 :=
    ⟨who.ctx, who.pasid, (t?.map (·.keyid)).getD 0, (t?.map (·.integ)).getD false, va⟩
  if va.extractLsb' 54 10 ≠ 0 then .error (pathFault 1 va)
  else if path = 5 ∨ 8 ≤ path then .error (pathFault 2 va)
  else if !a.accepted path then .error (pathFault 3 va)
  else if path = 3 ∧ 2 ^ 32 ≤ off then .error (pathFault 5 va)
  else if let some e := s.ioStop who a path off va then .error e
  else if path = 7 ∧ !who.sys then .error (.trap { code := .priv, va := va })
  else if off % a.align ≠ 0 then .error (.trap { code := .align, va := va })
  else if path = 7 then .ok { at_ := .ioAt off, va := va, c0 := c0 none }
  else if path = 3 then
    let t? := s.covering who.pasid true off
    match (s.physical (off / 2 ^ 23)).filter fun p => s.samePart who.cluster (clusterOf p) with
    | none => .error (.trap { code := .deadPeer, va := va })
    | some p =>
      match tokenFault t? path who.parties a.write va with
      | some e => .error e
      | none =>
        if (s.core p).stopped && p != who.pcore then .error (.hold (.silent p va))
        else .ok { at_ := .vaultAt (vaultKey p (off % 2 ^ 23)), va := va, c0 := c0 t? }
  else
    let xlate (sub : BitVec 8) (aux : Option Word) : Except Stop Place :=
      .error (.trap { code := .xlate, sub := sub, va := va, aux := aux })
    let missing : Except Stop Place :=
      match who.pageAns with
      | some (page, w, code) =>
        if page ≠ off / 4096 ∨ w ≠ a.need then .error (.page who.pasid (off / 4096) a.need)
        else if code = 0 then xlate 3 (some 0) else xlate 1 (code.setWidth 64)
      | none => .error (.page who.pasid (off / 4096) a.need)
    match s.transEntry who.pasid off with
    | none => missing
    | some e =>
      if !transGives e a.need then missing
      else
        let key := s.keyOf (e.tbase + (off - e.vbase))
        if inWindow key && !isVisible key then xlate 2 none
        else if inWindow key != (path != 6) then .error (pathFault 4 va)
        else if inWindow key && !(s.quadRuns (quadOf (routerOf key)) && s.samePart who.cluster (routerOf key)) then .error (.trap { code := .deadPeer, va := va })
        else
          let t? := s.covering who.pasid false off
          if path = 2 then
            match cellFault t? va with
            | some e => .error e
            | none => .ok { at_ := .cellAt key, va := va, c0 := c0 t? }
          else
            match tokenFault t? path who.parties a.write va with
            | some e => .error e
            | none => .ok { at_ := .lineOf key, va := va, c0 := c0 t? }

end Sys2Proof.Machine
end

