-- ==== Sys2Proof/Machine/Memory.lean ====
section
/-! DEFINITION. Reading and writing memory: the L0 buffer (R180, R192), vaults (R175, R192), device and host memory
(R188 to R191), for strands and for engines. -/

namespace Sys2Proof.Machine

/-- Adds to a performance counter of a strand (R392). -/
def Strand.bump (st : Strand) (n : Nat) (v : Nat) : Strand :=
  { st with perf := st.perf.insert n (st.perf.get 0 n + BitVec.ofNat 64 v) }

/-- Counts an event of kind `cls` (0 flits by class, 1 packets by kind, 2 faults) and number `x` in the event counters
that select it (R392). -/
def Strand.countEvent (st : Strand) (cls x : Nat) : Strand :=
  (List.range 4).foldl (fun st i =>
    if (st.evs.get 0 (0x234 + i)).toNat = 256 * cls + x then st.bump (0x230 + i) 1 else st) st

/-- Counts a packet of `n` flits in the event counters of a strand (R392). -/
def Strand.countSent (st : Strand) (cls kind n : Nat) : Strand :=
  ((List.range n).foldl (fun st _ => st.countEvent 0 cls) st).countEvent 1 kind

/-- Counts U and B flits injected for a scope's members in a cluster (R374). -/
def State.coneFlits (s : State) (cluster : Nat) (scope : ScopeId) (n : Nat) : State :=
  s.modCluster cluster fun c => { c with flits := c.flits.insert scope.toNat (c.flits.get 0 scope.toNat + n) }

/-- Counts U and B flits that a cluster injects (R392). -/
def State.injects (s : State) (cluster n : Nat) : State :=
  s.modCluster cluster fun c => { c with cluFlits := c.cluFlits + BitVec.ofNat 64 n }

/-- Both: what a scope's member sends. -/
def State.countFlits (s : State) (cluster : Nat) (scope : ScopeId) (n : Nat) : State :=
  (s.coneFlits cluster scope n).injects cluster n

/-- The reply of device memory or of a vault to a read (kind 16) or a write (R245). -/
def State.memReply (s : State) (key kind : Nat) : State :=
  if isHost key then s
  else s.injects (if isVault key then clusterOf ((key - Config.vaultBase) / Config.vaultSize) else routerOf key) (if kind = 16 then 2 else 1)

/-- A memory read or write leaves for a party's access beyond its own core, and is answered (R245, R374). -/
def State.memPacket (s : State) (who : Who) (key kind n : Nat) : State :=
  let s := (s.countFlits who.cluster who.scope n).memReply key kind
  if who.engine then s else s.modStrand (handleSk who.ctx) (·.countSent 2 kind n)

/-- The same of an access of a vault, which leaves only for another core's. -/
def State.vaultPacket (s : State) (who : Who) (key kind n : Nat) : State :=
  if (key - Config.vaultBase) / Config.vaultSize = who.pcore && !who.engine then s else s.memPacket who key kind n

/-- Counts a sector read or written for a scope in a cluster (R374). -/
def State.countSector (s : State) (cluster : Nat) (scope : ScopeId) : State :=
  s.modCluster cluster fun c => { c with sectors := c.sectors.insert scope.toNat (c.sectors.get 0 scope.toNat + 1) }

/-- The lowest place of the L0 array that holds no line. -/
def freeL0 (lines : Assoc L0Line) : Nat :=
  ((List.range (lines.length + 1)).find? fun n => !(lines.any fun l => l.2.place == n)).getD 0

/-- Puts a line into L0, at the place it has there, else at a free one. -/
def State.setLine (s : State) (pcore key : Nat) (l : L0Line) : State :=
  s.modCore pcore fun c =>
    let place := match c.lines.find key with
      | some old => old.place
      | none => freeL0 c.lines
    { c with lines := c.lines.insert key { l with place := place } }

def State.dropLine (s : State) (pcore key : Nat) : State := s.modCore pcore fun c => { c with lines := c.lines.erase key }

/-- The failing parity bits of some words of a line (R192), and the first failing word. -/
def L0Line.failing (l : L0Line) (ws : List Nat) : Option (Nat × BitVec 2) :=
  (ws.find? fun i => parityOf (blockWord l.diff i) != 0).map fun i =>
    (i, ws.foldl (fun m i => m ||| parityOf (blockWord l.diff i)) 0)

/-- The log entry of a parity failure in L0. -/
def State.logLine (s : State) (pcore : Nat) (l : L0Line) (w : Nat) (kind : BitVec 8) (synd : BitVec 2) (c : Ctx0) : State :=
  s.logEvent (.core pcore 1) (clusterOf pcore) kind (BitVec.ofNat 48 (64 * l.place + 8 * w)) (synd.setWidth 64 <<< 20)
    c.ctx c.pasid c.keyid

def allWords : List Nat := List.range 8

/-- A dirty line goes to its home memory: all 64 bytes and the descriptor; host memory takes the bytes only. It stays, clean.
The write-back reads the line: one with a failing word is discarded, and logged with CTX 0 (R192, R193; log entry 56). -/
def State.writeBack (s : State) (pcore key : Nat) (l : L0Line) : State :=
  if !l.dirty then s
  else
    let c : Ctx0 := { keyid := l.keyid, integ := l.integ, pasid := ((l.tags[0]?).map (·.1)).getD 0 }
    match l.failing allWords with
    | some (w, synd) => (s.logLine pcore l w 5 synd c).dropLine pcore key
    | none =>
      -- a memory write of the core's cluster for the scope that stored last (R374, R392)
      (((s.putSector c key l.data (some l.desc)).countFlits (clusterOf pcore) l.scope 2).memReply key 18
        |>.countSector (clusterOf pcore) l.scope).setLine pcore key { l with dirty := false }

/-- Evicts a line: written back when dirty (R180). -/
def State.evict (s : State) (pcore key : Nat) : State :=
  match (s.core pcore).lines.find key with
  | none => s
  | some l => (s.writeBack pcore key l).dropLine pcore key

/-- Makes room for one more line: with 1,024 lines held, the line of the lowest address is evicted (log entry 8). -/
def State.makeRoom (s : State) (pcore : Nat) : State :=
  match (s.core pcore).lines with
  | (k, _) :: _ => if 1024 ≤ (s.core pcore).lines.length then s.evict pcore k else s
  | [] => s

/-- Reads 64 bytes of device or host memory, with the descriptor (0 from the host: R180, R398). -/
def readHome (key : Nat) (c : Ctx0) : Act (Block × Desc) := do
  let s ← get
  if isHost key then pure (s.block key, 0)
  else
    let (s', r) := s.readSector key c
    set s'
    match r with
    | .ok b => pure (b, s'.desc key)
    | .error t => raise t

/-- The reply to a load or a remote store arrives; one that was truncated raises TRUNCATED, and the access is not performed
(R187, R250). -/
def Who.answered (who : Who) (va aux : Word) : Act Unit :=
  match who.cut with
  | some sub => raise { code := .truncated, sub := sub, va := va, aux := aux }
  | none => pure ()

/-- An access of a vault: that of the party's own core answers without a link. -/
def Who.vaultAnswered (who : Who) (key : Nat) (va : Word) : Act Unit :=
  if (key - Config.vaultBase) / Config.vaultSize = who.pcore then pure () else who.answered va (va &&& ~~~7#64)

/-- The reply of a vault to a write there, before anything is written (R141, R250). -/
def Place.answered (p : Place) (who : Who) : Act Unit :=
  match p.at_ with
  | .vaultAt key => who.vaultAnswered key p.va
  | _ => pure ()

/-- What the line keeps of the access that reaches it. -/
def L0Line.reached (l : L0Line) (key : Nat) (c : Ctx0) : L0Line :=
  let t := (c.pasid, (c.va.extractLsb' 0 50).toNat / 64 * 64)
  if isHost key || isDevice key then
    { l with keyid := c.keyid, integ := c.integ, tags := if l.tags.contains t then l.tags else l.tags ++ [t] }
  else l

/-- A line of L0 for an access that reads its words `ws`: filled when it is missing; a clean line with a parity failure is
fetched again, a dirty one is discarded (R192). The trap's aux on a line of host memory is its key, the model's own: DESIGN
CHOICE (R187; log entry 70). -/
def lineFor (who : Who) (key : Nat) (c : Ctx0) (ws : List Nat) : Act L0Line := do
  let s ← get
  let fill : Act L0Line := do
    who.answered c.va (BitVec.ofNat 64 key)
    let (b, d) ← readHome key c
    let l : L0Line := { data := b, desc := d, dirty := false }
    modify fun s => (((s.makeRoom who.pcore).memPacket who key 16 1).countSector who.cluster who.scope).setLine who.pcore key (l.reached key c)
      |>.modStrand (handleSk who.ctx) (·.bump 0x207 1)
    pure (l.reached key c)
  match (s.core who.pcore).lines.find key with
  | none => fill
  | some l =>
    match l.failing ws with
    | none =>
      modify fun s => s.setLine who.pcore key (l.reached key c)
      pure (l.reached key c)
    | some (w, synd) =>
      modify fun s => (s.logLine who.pcore l w (if l.dirty then 5 else 6) synd c).dropLine who.pcore key
      if l.dirty then raise { code := .vaultParity, va := c.va, aux := BitVec.ofNat 64 key } else fill

/-- The words of a block that `n` bytes from `off` on touch, and those of them that they do not wholly cover. -/
def touched (off n : Nat) : List Nat := allWords.filter fun i => off < 8 * i + 8 && 8 * i < off + n
def partly (off n : Nat) : List Nat := (touched off n).filter fun i => !(off ≤ 8 * i && 8 * i + 8 ≤ off + n)

/-- The keys of the 8-byte words that `n` bytes from `key` touch. -/
def wordsOf (key n : Nat) : List Nat :=
  (List.range ((key + n - 1) / 8 - key / 8 + 1)).map fun i => wordKey key + 8 * i

/-- Reads bytes of a vault; a failing word raises VAULT_PARITY and is logged in that vault's log. -/
def readVault (key n : Nat) (va : Word) (c : Ctx0) : Act (List Byte) := do
  let s ← get
  match (wordsOf key n).find? fun k => parityOf (s.err k) != 0 with
  | none => pure (s.bytes key n)
  | some k =>
    let p := (k - Config.vaultBase) / Config.vaultSize
    modify fun s => s.logEvent (.core p 0) (clusterOf p) 5 (BitVec.ofNat 48 ((k - Config.vaultBase) % Config.vaultSize))
      ((parityOf (s.err k)).setWidth 64 <<< 20) c.ctx c.pasid c.keyid
    raise { code := .vaultParity, va := va, aux := va + BitVec.ofNat 64 k - BitVec.ofNat 64 key }

/-- Writes bytes of a vault or of an instruction store: a write of a whole word clears its error (R192). -/
def State.writeRaw (s : State) (key : Nat) (bs : List Byte) : State :=
  let s := (wordsOf key bs.length).foldl (fun s k =>
    if s.err k ≠ 0 && key ≤ k && k + 8 ≤ key + bs.length then s.setErr k 0 else s) s
  s.setBytes key bs

/-- Reads `n` bytes at a place checked before, and the descriptor of their block. -/
def loadAt (who : Who) (p : Place) (n : Nat) : Act (List Byte × Desc) := do
  match p.at_ with
  | .lineOf key =>
    let bk := blockKey key
    if who.engine then
      let (b, d) ← readHome bk p.c0
      modify fun s => (s.memPacket who bk 16 1).countSector who.cluster who.scope
      pure ((leBytes 64 b).drop (key - bk) |>.take n, d)
    else
      let l ← lineFor who bk p.c0 (touched (key - bk) n)
      pure ((leBytes 64 l.data).drop (key - bk) |>.take n, l.desc)
  | .vaultAt key =>
    who.vaultAnswered key p.va
    modify fun s => s.vaultPacket who key 16 1
    let bs ← readVault key n p.va p.c0
    pure (bs, (← get).desc (blockKey key))
  | .cellAt key =>
    let (b, d) ← readHome (blockKey key) p.c0
    modify fun s => (s.memPacket who key 16 1).countSector who.cluster who.scope
    pure ((leBytes 64 b).drop (key - blockKey key) |>.take n, d)
  | .ioAt _ => pure ([], 0)

/-- Writes bytes at a place checked before. A whole block carries its new descriptor; a part keeps the block's. A store of part
of a failing L0 word counts as a read of it, one of part of a failing vault word does not (R192; log entry 23). -/
def storeAt (who : Who) (p : Place) (bs : List Byte) (d : Option Desc) : Act Unit := do
  match p.at_ with
  | .lineOf key =>
    let bk := blockKey key
    if who.engine then
      modify fun s => s.countSector who.cluster who.scope
      if bs.length = 64 then modify fun s => s.putSector p.c0 bk (BitVec.ofNat 512 (ofLe bs)) d
      else
        let (b, od) ← readHome bk p.c0
        modify fun s => s.putSector p.c0 bk (overlay b (key - bk) bs) (some od)
    else if bs.length = 64 then
      let s0 ← get
      let od := (s0.core who.pcore).lines.find bk
      let nd : Desc := match d, od with
        | some d, _ => d
        | none, some l => l.desc
        | none, none => s0.desc bk
      modify fun s =>
        let s := if od.isSome then s else s.makeRoom who.pcore
        let l : L0Line :=
          { data := BitVec.ofNat 512 (ofLe bs), desc := nd, dirty := true, tags := (od.map (·.tags)).getD [], scope := who.scope }
        s.setLine who.pcore bk (l.reached bk p.c0)
    else
      let l ← lineFor who bk p.c0 (partly (key - bk) bs.length)
      let zeros := bs.map fun _ => (0 : Byte)
      modify fun s => s.setLine who.pcore bk
        { l with data := overlay l.data (key - bk) bs, diff := overlay l.diff (key - bk) zeros, dirty := true, scope := who.scope }
  | .vaultAt key =>
    who.vaultAnswered key p.va
    modify fun s =>
      let s := if who.engine then s else s.vaultPacket who key 18 2
      let s := s.writeRaw key bs
      match d with
      | some d => if bs.length = 64 then s.setDesc key d else s
      | none => s
  | .cellAt key =>
    let bk := blockKey key
    let (b, od) ← readHome bk p.c0
    modify fun s => ((s.memPacket who key 18 2).countSector who.cluster who.scope).putSector p.c0 bk (overlay b (key - bk) bs) (some od)
  | .ioAt _ => pure ()

/-- Checks an access and gives its place. -/
def placeOf (who : Who) (a : Access) (va : Word) : Act Place := do
  match (← get).place who a va with
  | .ok p => pure p
  | .error e => throw e

/-- `mem[va, n]` of R9, read: the checks of R187, then the bytes. -/
def readMem (who : Who) (a : Access) (va : Word) (n : Nat) : Act (List Byte) := do
  let p ← placeOf who a va
  let (bs, _) ← loadAt who p n
  pure bs

/-- Reads an 8-byte aligned structure of `n` words, one sector at a time. -/
def readWords (who : Who) (a : Access) (va : Word) (n : Nat) : Act (List Word) :=
  (List.range n).mapM fun i => do
    let bs ← readMem who a (va + BitVec.ofNat 64 (8 * i)) 8
    pure (wordOf bs)

/-! ### Regions and L0 -/

/-- Does the range that a translation leads to hold the key? -/
def State.reaches (s : State) (key : Nat) (e : TransEntry) : Bool :=
  let t := s.keyOf e.tbase
  t ≤ key && key < t + 2 ^ e.logSize

/-- Does a 64-byte block of device or host memory lie in a region, by a translation that stands now? -/
def State.lineIn (s : State) (r : Region) (pasid : BitVec 20) (key : Nat) : Bool :=
  if r.vault then false
  else s.trans.any fun e => e.pasid == pasid && s.reaches key e && r.covers (e.vbase + (key - s.keyOf e.tbase))

/-- Has a line been reached under an address of the region? -/
def L0Line.under (l : L0Line) (r : Region) (pasid : BitVec 20) : Bool :=
  !r.vault && l.tags.any fun t => t.1 == pasid && r.covers t.2

/-- The lines of a region in one core's L0: lines are tagged by device or host address (R180), so a region's are those that
its translations lead to, and those reached through translations that are gone (R184). -/
def State.linesOf (s : State) (pcore : Nat) (r : Region) (pasid : BitVec 20) : List (Nat × L0Line) :=
  (s.core pcore).lines.filter fun kl => kl.2.under r pasid || s.lineIn r pasid kl.1

/-- Writes the dirty lines of a region in one core's L0 to home memory; they stay valid and clean (R205, R208). -/
def State.flushRegion (s : State) (pcore : Nat) (r : Region) (pasid : BitVec 20) : State :=
  (s.linesOf pcore r pasid).foldl (fun s kl => s.writeBack pcore kl.1 kl.2) s

/-- Invalidates one core's lines of a region (R180). -/
def State.invalidateRegion (s : State) (pcore : Nat) (r : Region) (pasid : BitVec 20) : State :=
  s.modCore pcore fun c => { c with lines := c.lines.filter fun kl => !(kl.2.under r pasid || s.lineIn r pasid kl.1) }

/-- Invalidates a region's lines in every core, writing dirty ones back first when asked. -/
def State.invalidateAll (s : State) (r : Region) (pasid : BitVec 20) (flush : Bool) : State :=
  (s.cores.map (·.1)).foldl (fun s p =>
    (if flush then s.flushRegion p r pasid else s).invalidateRegion p r pasid) s

/-! ### Accesses of hardware, the host and the Kiln -/

/-- The token of the region that a sector of device memory or a block of a vault lies in. For a sector the translation that
stands decides, else the last one that led there; a sector keeps its region when its translation is invalidated (R189). -/
def State.regionAt (s : State) (key : Nat) : Option Token :=
  if isVault key then
    let o := key - Config.vaultBase
    let l := s.logical (o / Config.vaultSize)
    s.tokens.find? fun t => t.reg.vault && t.reg.covers (l * Config.vaultSize + o % Config.vaultSize)
  else
    let of_ (e : TransEntry) : Option Token :=
      s.tokens.find? fun t => !t.reg.vault && t.pasid == e.pasid && t.reg.covers (e.vbase + (key - s.keyOf e.tbase))
    match (s.trans.filter (s.reaches key)).findSome? of_ with
    | some t => some t
    | none =>
      if s.trans.any (s.reaches key) then none else (s.oldTrans.filter (s.reaches key)).head?.bind of_

/-- An access that no strand makes: its reader for the log, and what the sector's region gives it (R189, R193). -/
def State.ctxAt (s : State) (ctx : BitVec 32) (pasid : BitVec 20) (key : Nat) : Ctx0 :=
  match s.regionAt key with
  | some t => { ctx := ctx, pasid := pasid, keyid := t.keyid, integ := t.integ }
  | none => { ctx := ctx, pasid := pasid }

/-- The 64-byte pieces of `n` bytes from a key: each with its key and its length. -/
def pieces (key : Nat) : Nat → Nat → List (Nat × Nat)
  | 0, _ => []
  | fuel + 1, n =>
    if n = 0 then []
    else
      let m := Nat.min n (64 - key % 64)
      (key, m) :: pieces (key + m) fuel (n - m)

/-- Hardware reads bytes: a sector of device memory through R190, a vault through its parity, host memory as it is. -/
def readRaw (ctx : BitVec 32) (pasid : BitVec 20) (key n : Nat) : Act (List Byte) := do
  let s ← get
  let bs ← (pieces key (n / 64 + 2) n).mapM fun km => do
    let bk := blockKey km.1
    let c := s.ctxAt ctx pasid bk
    if isVault km.1 then readVault km.1 km.2 0 c
    else
      let (b, _) ← readHome bk c
      pure ((leBytes 64 b).drop (km.1 - bk) |>.take km.2)
  pure bs.flatten

/-- Hardware writes bytes: a part of a sector of device memory after a read of it, which may fault (R191). -/
def writeRawAt (ctx : BitVec 32) (pasid : BitVec 20) (key : Nat) (bs : List Byte) : Act Unit := do
  let s ← get
  (pieces key (bs.length / 64 + 2) bs.length).forM fun km => do
    let bk := blockKey km.1
    let part := (bs.drop (km.1 - key)).take km.2
    let c := s.ctxAt ctx pasid bk
    if isVault km.1 then modify fun s => s.writeRaw km.1 part
    else if km.2 = 64 then modify fun s => s.putSector c bk (BitVec.ofNat 512 (ofLe part)) none
    else
      let (b, _) ← readHome bk c
      modify fun s => s.putSector c bk (overlay b (km.1 - bk) part) none

/-- The memory key of a virtual address of a tenant without any check of rights: hardware's own accesses. -/
def State.rawKey (s : State) (pasid : BitVec 20) (va : Word) : Option Nat :=
  let path := (va.extractLsb' 50 4).toNat
  let off := (va.extractLsb' 0 50).toNat
  if path = 3 then (s.physical (off / 2 ^ 23 % 512)).map fun p => vaultKey p (off % 2 ^ 23)
  else (s.transEntry pasid off).bind fun e =>
    let k := s.keyOf (e.tbase + (off - e.vbase))
    if inWindow k && !isVisible k then none else some k

/-- The key of an address, or the XLATE of one that has none. -/
def keyAt (pasid : BitVec 20) (va : Word) : Act Nat := do
  match (← get).rawKey pasid va with
  | some k => pure k
  | none => raise { code := .xlate, va := va }

/-- Hardware reads and writes bytes at addresses of a tenant. -/
def readVa (pasid : BitVec 20) (va : Word) (n : Nat) : Act (List Byte) := do
  let bs ← (pieces va.toNat (n / 64 + 2) n).mapM fun am => do
    readRaw 0 pasid (← keyAt pasid (BitVec.ofNat 64 am.1)) am.2
  pure bs.flatten

def writeVa (pasid : BitVec 20) (va : Word) (bs : List Byte) : Act Unit :=
  (pieces va.toNat (bs.length / 64 + 2) bs.length).forM fun am => do
    writeRawAt 0 pasid (← keyAt pasid (BitVec.ofNat 64 am.1)) ((bs.drop (am.1 - va.toNat)).take am.2)

/-- The bytes that hardware would read at an address of a tenant; none where it cannot. -/
def State.peekVa (s : State) (pasid : BitVec 20) (va : Word) (n : Nat) : Option (List Byte) :=
  match (readVa pasid va n).go s with
  | (.ok bs, _) => some bs
  | (.error _, _) => none

end Sys2Proof.Machine
end

