-- ==== Sys2Proof/Machine/Window.lean ====
section
/-! DEFINITION. The register state of a strand: window registers and D bits (R36 to R42), predicates, vector registers,
operand-extension registers (R48 to R50), window moves, spill and fill (R38, R39, R43 to R47). -/

namespace Sys2Proof.Machine

/-! ### Error state of protected words (R53, R143) -/

/-- Do at least two bits differ from what the check bits stand for? SECDED corrects one. -/
def twoBits {n : Nat} (x : BitVec n) : Bool := x &&& (x - 1) != 0

/-- A multi-bit error of a register entry, of a vector register, of a tile. -/
def RegEntry.ue (e : RegEntry) : Bool := e.lost || twoBits e.flip
def VReg.ue (r : VReg) : Bool := r.flip != 0 && (List.range 8).any fun i => twoBits (blockWord r.flip i)
def Tile.ue (t : Tile) : Bool := t.flip.any fun kv => twoBits kv.2

/-- A read of a protected word that differs from its check bits is logged with its reader, and counted (R53, R193). The
syndrome of the code is a free value (log entry 2). -/
def State.logSecded (s : State) (st : Strand) (array addr : Nat) (two : Bool) : State :=
  let (v, s) := s.freeWord
  s.logEvent (.core st.pcore array) st.cluster (if two then 8 else 7) (BitVec.ofNat 48 addr)
    ((v.extractLsb' 0 8).setWidth 64 <<< 24) st.handle (s.scope st.scope).pasid 0

/-- Reading a stack position: its error is logged, a single-bit one corrected and written back. -/
def State.scrubX (s : State) (sk pos : Nat) : State :=
  match s.strand sk with
  | none => s
  | some st =>
    let e := st.stack.get {} pos
    if !e.lost && e.flip == 0 then s
    else
      let s := s.logSecded st 3 (64 * (st.groups.find (pos / 8)).getD 0 + 8 * (pos % 8)) e.ue
      if e.ue then s else s.setStrand { st with stack := st.stack.put {} pos { e with flip := 0 } }

/-- Reading a vector register. -/
def State.scrubV (s : State) (sk v : Nat) : State :=
  (List.range 8).foldl (fun s i =>
    match s.strand sk with
    | none => s
    | some st =>
      let r := st.vregs.get {} v
      let f := blockWord r.flip i
      if f == 0 then s
      else
        let s := s.logSecded st 4 (1024 * slotOf sk + 64 * v + 8 * i) (twoBits f)
        if twoBits f then s
        else s.setStrand { st with vregs := st.vregs.put {} v { r with flip := r.flip ^^^ (f.setWidth 512 <<< (64 * i)) } }) s

/-- Reading a tile for a strand. -/
def State.scrubTile (s : State) (st : Strand) (t : Nat) : State :=
  ((s.core st.pcore).tiles.get {} t).flip.foldl (fun s kv =>
    let s := s.logSecded st 5 (1024 * t + 8 * kv.1) (twoBits kv.2)
    if twoBits kv.2 then s
    else s.modCore st.pcore fun c =>
      { c with tiles := c.tiles.insert t { c.tiles.get {} t with flip := (c.tiles.get {} t).flip.erase kv.1 } }) s

/-! ### Window registers -/

/-- The entry a name refers to; a name at or above s reads 0 with D = 0 (R37). -/
def Strand.x (st : Strand) (i : Nat) : RegEntry := if i < st.s then st.stack.get {} (st.w + i) else {}

def Strand.xv (st : Strand) (i : BitVec 5) : Word := (st.x i.toNat).val
def Strand.xd (st : Strand) (i : BitVec 5) : Bool := (st.x i.toNat).d

/-- Writes an allocated name; its error state is cleared (R53). -/
def Strand.setX (st : Strand) (i : Nat) (v : Word) (d : Bool) : Strand :=
  { st with stack := st.stack.put {} (st.w + i) { val := v, d := d } }

/-- REG_UE for the first source with a multi-bit error (R53). -/
def Strand.checkUe (st : Strand) (regs : List (BitVec 5)) : Except Trap Unit :=
  match regs.find? fun r => (st.x r.toNat).ue with
  | some r => .error { code := .regUe, aux := BitVec.ofNat 64 (st.w + r.toNat) }
  | none => .ok ()

/-- DEFERRED for the first source whose D bit is set (R41). -/
def Strand.checkD (st : Strand) (regs : List (BitVec 5)) : Except Trap Unit :=
  match regs.find? fun r => (st.x r.toNat).d with
  | some r => .error { code := .deferred, aux := r.setWidth 64 }
  | none => .ok ()

/-- REG_UE, then DEFERRED, for the sources in order. -/
def Strand.sources (st : Strand) (regs : List (BitVec 5)) : Except Trap Unit :=
  match st.checkUe regs with
  | .error t => .error t
  | .ok () => st.checkD regs

/-- A destination must lie below s (R37). -/
def Strand.checkDst (st : Strand) (i : Nat) : Except Trap Unit :=
  if i < st.s then .ok () else .error { code := .regUnallocated, aux := BitVec.ofNat 64 i }

/-- The write of a window register by an instruction. -/
def Strand.writeX (st : Strand) (i : BitVec 5) (v : Word) (d : Bool) : Except Trap Strand :=
  match st.checkDst i.toNat with
  | .error t => .error t
  | .ok () => .ok (st.setX i.toNat v d)

/-! ### Predicates, vector and operand-extension registers -/

/-- p0 reads 1 (R48). -/
def Strand.p (st : Strand) (i : BitVec 3) : Bool := if i = 0 then true else st.preds.getLsbD i.toNat

/-- A write to p0 is discarded. -/
def Strand.setP (st : Strand) (i : BitVec 3) (b : Bool) : Strand :=
  if i = 0 then st
  else { st with preds := (st.preds &&& ~~~(1#8 <<< i.toNat)) ||| (if b then 1#8 <<< i.toNat else 0#8) }

def Strand.v (st : Strand) (i : BitVec 4) : VReg := st.vregs.get {} i.toNat
def Strand.setV (st : Strand) (i : BitVec 4) (r : VReg) : Strand :=
  { st with vregs := st.vregs.put {} i.toNat r }

/-- The first instruction of major VEC or VMEM claims the vector set (R49). -/
def Strand.claimV (st : Strand) : Strand := if st.vset then st else { st with vset := true, vregs := [] }

def Strand.ox (st : Strand) (i : Nat) : Word :=
  match i with
  | 0 => st.ox0
  | 1 => st.ox1
  | 2 => st.ox2
  | _ => st.ox3

/-! ### The physical register store (R43, R44, R52) -/

/-- The groups of 8 positions that hold positions `lo` to `hi − 1`. -/
def groupsOf (lo hi : Nat) : List Nat :=
  if hi ≤ lo then [] else (List.range ((hi - 1) / 8 - lo / 8 + 1)).map fun i => lo / 8 + i

/-- Places of the store in use on a core. -/
def State.usedGroups (s : State) (pcore : Nat) : List Nat :=
  (s.strands.filter fun kv => pcoreOf kv.1 = pcore).flatMap fun kv => kv.2.groups.map (·.2)

/-- The lowest free place of the store of 512 groups (log entry 9). -/
def State.freePlace (s : State) (pcore : Nat) : Option Nat :=
  let used := s.usedGroups pcore
  (List.range 512).find? fun g => !used.contains g

/-- Free register entries of a core (R313). -/
def State.freeEntries (s : State) (pcore : Nat) : Nat := 4096 - 8 * (s.usedGroups pcore).length

/-- Is a strand blocked in the sense of R52: on a queue register, EWT, SCLOSE, BAR or SLEEP? -/
def Strand.blocked (st : Strand) : Bool :=
  match st.wait with
  | .queueIn _ | .queueOut _ | .word _ _ | .sleep _ | .closing => true
  | .point n => st.barWait == some n
  | _ => false

/-- Sets the power state of the banks of a core from who uses them (R52): ON when a runnable strand has a group there,
RETENTION while groups stay or went fewer than 1,024 cycles ago, OFF after that. Waking a bank is counted. -/
def State.bankStates (s : State) (pcore : Nat) : State :=
  let ss := (s.strands.filter fun kv => pcoreOf kv.1 = pcore).map (·.2)
  (List.range 8).foldl (fun s b =>
    let has (st : Strand) : Bool := st.groups.any fun g => g.2 / 64 = b
    let was := (s.core pcore).banks.get .off b
    let anyRun := ss.any fun st => has st && !st.blocked
    let any := ss.any has
    let idle := (s.core pcore).bankIdle.find b
    let now : BankState :=
      if anyRun then .on
      else if any then .retention
      else match idle with
        | some t => if s.cycle < t + 1024 then .retention else .off
        | none => if was = .off then .off else .retention
    let idle' : Option Nat := if any then none else if was = .off then none else some (idle.getD s.cycle)
    let s := if idle.isNone && idle'.isSome then s.after 1024 .bankPowerOff (.n2 pcore b) else s
    s.modCore pcore fun c =>
      { c with
        banks := c.banks.put .off b now
        bankIdle := match idle' with
          | some t => c.bankIdle.insert b t
          | none => c.bankIdle.erase b
        coreWakes := if now = .on ∧ was ≠ .on then c.coreWakes + 1 else c.coreWakes }) s

/-- The strand's spill area: the memory key that its address names (R45). -/
def State.spillKey (s : State) (st : Strand) : Nat :=
  let off := (st.spillbase.extractLsb' 0 32).toNat
  vaultKey ((s.physical (off / 2 ^ 23)).getD (17 * (off / 2 ^ 23 / 16) + off / 2 ^ 23 % 16)) (off % 2 ^ 23)

/-- One bit of a bitmap in memory. -/
def State.memBit (s : State) (base i : Nat) : Bool := (s.byte (base + i / 8)).getLsbD (i % 8)
def State.setMemBit (s : State) (base i : Nat) (b : Bool) : State :=
  let m : Byte := 1#8 <<< (i % 8)
  let old := s.byte (base + i / 8)
  s.setByte (base + i / 8) (if b then old ||| m else old &&& ~~~m)

/-- Writes a group to the spill area: values, D bits, error bits (R45, R53). The spill reads its registers. -/
def State.spillGroup (s : State) (st : Strand) (g : Nat) : State :=
  let base := s.spillKey st
  (List.range 8).foldl (fun s i =>
    let pos := 8 * g + i
    let e := st.stack.get {} pos
    let s := s.scrubX st.sk pos
    let s := s.writeRaw (base + 8 * pos) (leBytes 8 e.val)
    (s.setMemBit (base + 0x2000) pos e.d).setMemBit (base + 0x2080) pos e.ue) s

/-- Reads a group back from the spill area. -/
def State.fillGroup (s : State) (st : Strand) (g : Nat) : Strand :=
  let base := s.spillKey st
  (List.range 8).foldl (fun st i =>
    let pos := 8 * g + i
    let e : RegEntry :=
      { val := s.word (base + 8 * pos), d := s.memBit (base + 0x2000) pos, lost := s.memBit (base + 0x2080) pos }
    { st with stack := st.stack.put {} pos e }) st

/-- The word that holds a link record (R47). -/
def LinkRec.word (r : LinkRec) : Word :=
  0#35 ++ BitVec.ofBool r.trap ++ BitVec.ofNat 6 r.s ++ BitVec.ofNat 6 r.n ++ r.pc

/-- A link record read back; bit 0 of a pc is 0 (R83). -/
def LinkRec.ofWord (w : Word) : LinkRec :=
  { trap := w.getLsbD 28, s := (w.extractLsb' 22 6).toNat, n := (w.extractLsb' 16 6).toNat, pc := evenPc (w.extractLsb' 0 16) }

/-- Writes the 8 oldest resident link records to the spill area (R46). -/
def State.spillLinks (s : State) (st : Strand) : State :=
  let base := s.spillKey st + 0x2100
  let old := (st.links.drop (st.links.length - 8)).reverse
  let s := (List.range old.length).foldl (fun s i =>
    s.writeRaw (base + 8 * (st.linkSpilled + i)) (leBytes 8 ((old[i]?.getD ⟨false, 0, 0, 0⟩).word))) s
  s.setStrand { st with links := st.links.take (st.links.length - 8), linkSpilled := st.linkSpilled + old.length }

/-- Reads the 8 most recent spilled link records back. -/
def State.fillLinks (s : State) (st : Strand) : State :=
  let base := s.spillKey st + 0x2100
  let n := Nat.min 8 st.linkSpilled
  let recs := (List.range n).map fun i => LinkRec.ofWord (s.word (base + 8 * (st.linkSpilled - 1 - i)))
  s.setStrand { st with links := st.links ++ recs, linkSpilled := st.linkSpilled - n }

/-! ### Window moves (R38, R39) -/

/-- A move of the window, ready to be made: the new base and size, and the link stack after it. -/
structure Move where
  w : Nat
  s : Nat
  push : Option LinkRec := none
  pop : Bool := false
  deriving DecidableEq, Repr

/-- The checks of R39 that any move makes: positions below 1,024, at most 256 link records. -/
def Strand.checkMove (st : Strand) (m : Move) : Except Trap Unit :=
  if 1024 < m.w + m.s then .error { code := .stackLimit, aux := some 0 }
  else if m.push.isSome ∧ 256 ≤ st.links.length + st.linkSpilled then .error { code := .stackLimit, aux := some 1 }
  else .ok ()

/-- Is a spill or fill of a strand's registers or link records in progress? -/
def State.transferring (s : State) (sk : Nat) : Bool :=
  s.agenda.any fun p => (p.ev == .groupSpill || p.ev == .groupFill || p.ev == .linkRecordSpill) && (match p.arg with
    | .n3 a _ _ => a == sk
    | _ => false)

/-- Is a group of a strand on its way to the spill area? -/
def State.spilling (s : State) (sk g : Nat) : Bool :=
  s.agenda.any fun p => p.ev == .groupSpill && (match p.arg with
    | .n3 a b _ => a == sk && b == g
    | _ => false)

/-- What a move must wait for, one transfer at a time: a spill of link records, a spill that makes room, or a fill. A
newly allocated group takes a free place of the store. `busy`: a group that it needs is on its way out, for another strand. -/
inductive Room where
  | ready (st : Strand)
  | busy
  | spillLink
  | fillLink
  | spill (sk group : Nat)
  | fill (group : Nat)
  deriving DecidableEq, Repr

/-- The strand that R44 takes a group from: runnable or blocked, of lowest priority, then of the highest slot. -/
def State.victim (s : State) (pcore : Nat) : Option (Nat × Nat) :=
  let below (st : Strand) : Option Nat := ((st.groups.map (·.1)).find? fun g => 8 * g + 8 ≤ st.w)
  let cands := (s.strands.filter fun kv => pcoreOf kv.1 = pcore && (below kv.2).isSome).map (·.2)
  (cands.foldl (fun (best : Option Strand) st =>
    match best with
    | none => some st
    | some b => if st.prio < b.prio || (st.prio == b.prio && b.sk < st.sk) then some st else some b) none).bind
    fun st => (below st).map fun g => (st.sk, g)

def State.roomGroups (s : State) (st : Strand) : List Nat → Room
  | [] => .ready st
  | g :: rest =>
    if (st.groups.find g).isSome then if s.spilling st.sk g then .busy else s.roomGroups st rest
    else if 32 ≤ st.groups.length then
      match st.groups with
      | (low, _) :: _ => .spill st.sk low
      | [] => .ready st
    else match (s.setStrand st).freePlace st.pcore with
      | none =>
        match s.victim st.pcore with
        | some (sk, v) => .spill sk v
        | none => .ready st
      | some place =>
        if st.spilled.contains g then .fill g
        else s.roomGroups { st with groups := st.groups.insert g place } rest

/-- What must happen before the move can be made. -/
def State.roomFor (s : State) (st : Strand) (m : Move) : Room :=
  if m.push.isSome ∧ 16 ≤ st.links.length then .spillLink
  else if m.pop ∧ st.links.length = 1 ∧ st.linkSpilled ≠ 0 then .fillLink
  else s.roomGroups st (groupsOf m.w (m.w + m.s))

/-- Frees every position from `top` on: contents, places of the store and spilled copies. A reply on its way to one finds no
register (R202; log entry 68). -/
def Strand.trim (st : Strand) (top : Nat) : Strand :=
  { st with
    pend := st.pend.map fun p => { p with dst := p.dst.filter (· < top) }
    stack := st.stack.filter fun kv => kv.1 < top
    groups := st.groups.filter fun kv => 8 * kv.1 < top
    spilled := st.spilled.filter fun g => 8 * g < top }

/-- Makes the move: positions that leave every window are freed, positions the window grows into are zero. -/
def Strand.move (st : Strand) (m : Move) : Strand :=
  let oldTop := st.w + st.s
  let newTop := m.w + m.s
  let st := { st with stack := st.stack.filter fun kv => kv.1 < Nat.min oldTop newTop }
  let st := if newTop < oldTop then st.trim newTop else st
  let links := if m.pop then st.links.drop 1 else st.links
  { st with w := m.w, s := m.s, links := match m.push with
      | some r => r :: links
      | none => links }

/-- A move that needs a transfer sends its event and holds the strand; the instruction is executed again after it. -/
def State.startRoom (s : State) (st : Strand) (r : Room) : State :=
  let s := s.setStrand { st with wait := if r = .busy then .transfer else .spill }
  match r with
  | .ready _ | .busy => s
  | .spillLink => s.after 10 .linkRecordSpill (.n3 st.sk 0 st.sk)
  | .fillLink => s.after 10 .linkRecordSpill (.n3 st.sk 1 st.sk)
  | .spill sk g => s.after 10 .groupSpill (.n3 sk g st.sk)
  | .fill g => s.after 10 .groupFill (.n3 st.sk g st.sk)

end Sys2Proof.Machine
end

