-- ==== Sys2Proof/Machine/Scopes.lean ====
section
/-! DEFINITION. The scope tree: control blocks, weights, cancellation, closing (R293 to R307), the determinism modes
(R382, R383, R386 to R388), and what the Kiln writes to the host (R309, R356, R390). -/

namespace Sys2Proof.Machine

/-! ### The tree -/

def homeCluster (id : ScopeId) : Nat := (id.extractLsb' 19 5).toNat

/-- The logical core of a strand handle's physical core. -/
def State.handleCore (s : State) (h : Handle) : Nat := s.logical (handleSk h / 16)

/-- The scope unit that is a scope's home (R293). -/
def homeNode (id : ScopeId) : Nat := unitNode (homeCluster id) 7

/-- The scopes from one upwards, itself first. -/
def State.chain (s : State) : Nat → ScopeId → List ScopeId
  | 0, _ => []
  | n + 1, id =>
    match s.scb id with
    | some b => if id = 0 then [] else id :: s.chain n b.parent
    | none => []

def State.ancestors (s : State) (id : ScopeId) : List ScopeId := s.chain (s.scopes.length + 1) id

/-- Is `id` the scope `top` or below it? -/
def State.under (s : State) (top id : ScopeId) : Bool := (s.ancestors id).contains top

def State.descendants (s : State) (top : ScopeId) : List ScopeId :=
  (s.scopes.map fun kv => kv.2.id).filter fun id => s.under top id

/-- The launch a scope belongs to: that of the nearest launch scope above it (R312). -/
def State.launchOf (s : State) (id : ScopeId) : Option Launch :=
  (s.ancestors id).findSome? fun a => s.launches.find a.toNat

def Launch.has (l : Launch) (lcore : Nat) : Bool := l.first ≤ lcore && lcore < l.first + l.count

/-- A free identifier homed in a cluster: the lowest unused serial from 1 on, then serial 0 where that is not identifier 0
(R293; log entry 3). -/
def State.freeScope (s : State) (cluster : Nat) : Option ScopeId :=
  let mk (n : Nat) : ScopeId := BitVec.ofNat 5 cluster ++ BitVec.ofNat 19 n
  let serials := ((List.range (Nat.min (s.scopes.length + 1) (2 ^ 19 - 1))).map fun i => i + 1) ++
    (if cluster = 0 then [] else [0])
  (serials.find? fun n => (s.scb (mk n)).isNone).map mk

def State.dmode (s : State) (id : ScopeId) : BitVec 2 := (s.scope id).dmode
def State.isQuanta (s : State) (id : ScopeId) : Bool := s.dmode id == 3
def State.isSys (s : State) (id : ScopeId) : Bool := (s.scope id).sys

/-- The top scope of a quantum domain: the highest QUANTA scope with no other above it in QUANTA mode (R382). -/
def State.domainOf (s : State) (id : ScopeId) : ScopeId :=
  ((s.ancestors id).takeWhile fun a => s.isQuanta a).getLastD id

/-! ### Members of a strand (R296, R300) -/

/-- The scope that takes what the strand creates: its innermost open scope, or its own. -/
def Strand.memberScope (st : Strand) : ScopeId :=
  match st.opens with
  | r :: _ => r.scope
  | [] => st.scope

/-- The weight it splits for them: its stock, or its own weight. -/
def Strand.memberWeight (st : Strand) : Nat :=
  match st.opens with
  | r :: _ => r.stock
  | [] => st.weight

def Strand.setMemberWeight (st : Strand) (w : Nat) : Strand :=
  match st.opens with
  | r :: rest => { st with opens := { r with stock := w } :: rest }
  | [] => { st with weight := w }

/-- split(w) of R299, when no refill is needed: what the new member takes, and the creator with the rest. -/
def Strand.split (st : Strand) : Option (Nat × Strand) :=
  let w := st.memberWeight
  if w ≤ 1 then none else some (w / 2, st.setMemberWeight (w - w / 2))

/-- Is the strand on its way to another core, with its weight (R301, R326)? -/
def Strand.isMigrating (st : Strand) : Bool :=
  match st.wait with
  | .migrating _ _ => true
  | _ => false

/-- The weight of a scope that members on a physical core hold: the mirror of R301, as a view of the state. A member that
migrates counts at its origin until the destination has it, and where the origin is gone at the destination; one that is
stolen counts at the thief's core from then on (R371). -/
def State.mirror (s : State) (scope : ScopeId) (pcore : Nat) : Nat :=
  let arrived (st : Strand) : Bool := st.isMigrating && s.agenda.any fun p => match p.arg with
    | .answer _ h _ .done => p.ev == .acknowledgement && h == st.handle
    | _ => false
  let ofStrand (st : Strand) : Nat :=
    (if st.scope = scope ∧ !arrived st then st.weight else 0)
      + ((st.opens.filter fun r => r.scope = scope).map (·.stock)).foldl (· + ·) 0
  let ofCtx (c : Ctx) : Nat := if c.scope = scope then c.weight.toNat else 0
  let c := s.core pcore
  ((s.strands.filter fun kv => pcoreOf kv.1 = pcore).map fun kv => ofStrand kv.2).foldl (· + ·) 0
    + ((c.arrival ++ c.overflow ++ c.deque).map ofCtx).foldl (· + ·) 0
    + (s.agenda.map fun p => match p.ev, p.arg with
        | .migration, .ctx _ (some l) c => if (s.named c.origin).isNone && s.physical l == some pcore then ofCtx c else 0
        | .stealReply, .stolen thief _ _ (some c) => if s.physical thief == some pcore then ofCtx c else 0
        | _, _ => 0).foldl (· + ·) 0

/-! ### What the Kiln writes to the host -/

/-- KTIME (R357): nanoseconds; three cycles take two. -/
def State.ktime (s : State) : Nat := s.kiln.ktime0 + 2 * s.cycle / 3

/-- A fault event to the host (R309, R390). -/
def State.report (s : State) (code : Nat) (fdom : ScopeId) (detail : List Word) : State :=
  s.modKiln fun k => { k with reports := k.reports ++ [(code, fdom, detail)] }

/-- A completion record (R356): the bytes from +0x08 first, then the word at +0x00. -/
def State.complete (s : State) (compl tag deadline : Word) (code : BitVec 15) (close : BitVec 3) (count : Nat)
    (result : Word) : State :=
  let k := s.keyOf compl.toNat
  let late : BitVec 1 := BitVec.ofBool (deadline.toNat < s.ktime)
  let put (s : State) (k : Nat) (bs : List Byte) : State := ((writeRawAt 0 0 k bs).go s).2
  put (put s (k + 8) (leBytes 8 tag ++ leBytes 8 result ++ leBytes 8 (BitVec.ofNat 64 s.ktime)))
    k (leBytes 8 (1#1 ++ code ++ late ++ close ++ BitVec.ofNat 44 count : Word))

/-- Sends a signal to a hart (R362): all to hart 0 (log entry 6). -/
def State.signal (s : State) (bit : Nat) : State :=
  s.modHart 0 fun h => { h with pending := h.pending ||| (1#9 <<< bit) }

/-! ### Requests and quanta -/

/-- A member's request to a shared site: sent at once, or held to the end of its quantum (R383), whose order puts it behind
the member's earlier ones. `phase` is that of R409; `waits` are the accesses that must have been performed first. -/
def State.request (s : State) (scope : ScopeId) (lcore serial phase lane : Nat) (ev : Instr) (arg : Payload)
    (waits : List Nat := []) : State :=
  if s.isQuanta scope then
    let d := (s.domainOf scope).toNat
    let dom := s.domains.get {} d
    let h : Held := { phase := phase, lcore := lcore, serial := serial, order := dom.count, lane := lane, ev := ev, waits := waits }
    { s with domains := s.domains.insert d { dom with held := dom.held ++ [(h, arg)], count := dom.count + 1 } }
  else s.push { due := s.cycle, lane := lane, route := lane, waits := waits, ev := ev, arg := arg }

/-- Flits of a packet that carries `n` bytes of data after its 24 bytes of header (R244). -/
def flitsFor (n : Nat) : Nat := Nat.min 64 ((n + 24 + 63) / 64)

/-- Class, kind and number of flits of the packet that an event stands for (R245, R353); none for what no packet carries. -/
def packetOf (ev : Instr) (arg : Payload) : Option (Nat × Nat × Nat) :=
  match ev with
  | .message => some (1, 0, 1)
  | .replyArrival => some (1, 1, 1)
  | .refusal => some (1, 2, match arg with
      | .refused _ (.cmd _) => 2
      | _ => 1)
  | .queueWord => match arg with
      | .fifo _ _ _ _ _ => none
      | _ => some (1, 3, 1)
  | .syncCellOperation => some (1, 4, 1)
  | .syncCellReply => some (1, 5, 1)
  | .migration => some (1, 6, 3)
  | .spawnPlacement => some (1, 7, 3)
  | .codeStore => some (1, 8, match arg with
      | .code _ _ bs => flitsFor bs.length
      | _ => 1)
  | .handlerTableWrite => some (1, 9, 1)
  | .start => some (1, 10, 1)
  | .engineCommand => some (1, 11, 2)
  | .stealRequest => some (1, 12, 1)
  | .stealReply => some (1, 13, match arg with
      | .stolen _ _ _ none => 1
      | _ => 3)
  | .tokenQuery => some (1, 14, 1)
  | .tokenQueryReply => some (1, 15, 1)
  | .memoryRead => some (2, 16, 1)
  | .readReply => some (2, 17, 2)
  | .memoryWrite => some (2, 18, 2)
  | .writeAcknowledgement => some (2, 19, 1)
  | .engineData => some (2, 20, 2)
  | .collectiveData => some (2, 21, 2)
  | .tokenGrant | .tokenGrantArrival => some (0, 32, 1)
  | .tokenRequest => some (0, 33, 1)
  | .weightReturn => some (0, 34, 1)
  | .refillRequest => some (0, 35, 1)
  | .refillReply => some (0, 36, 1)
  | .cancelPacket => some (0, 37, 1)
  | .heartbeat => some (0, 38, 1)
  | .barrierArrival => some (0, 39, 1)
  | .barrierRelease => some (0, 40, 1)
  | .predecessorDecrement => some (0, 41, 1)
  | .creditRequest => some (0, 42, 1)
  | .creditGrant => some (0, 43, 1)
  | .acknowledgement => some (0, 44, 1)
  | .successDeclaration => some (0, 45, 1)
  | .closeStatus => some (0, 46, 1)
  | .kilnControl => some (0, 47, 1)
  | .digest => some (0, 48, 1)
  | .healthEvent => some (0, 49, 1)
  | _ => none

/-- Counts a packet that a strand sends: its flits in the cone counters, its class and kind in the strand's event
counters (R374, R392). -/
def State.countPacket (s : State) (sk : Nat) (ev : Instr) (arg : Payload) : State :=
  match s.strand sk, packetOf ev arg with
  | some st, some (cls, kind, n) =>
    let s := if cls = 0 then s else s.countFlits st.cluster st.scope n
    s.setStrand (st.countSent cls kind n)
  | _, _ => s

/-- A strand's request. It changes the strand's counters only: a caller that also changes the strand does so on the
state. -/
def State.requestOf (s : State) (st : Strand) (phase lane : Nat) (ev : Instr) (arg : Payload) (waits : List Nat := []) : State :=
  (s.request st.scope (s.logical st.pcore) st.serial phase lane ev arg (if s.isQuanta st.scope then [] else waits)).countPacket st.sk ev arg

/-- A strand's request for a member it creates: one that goes to a QUANTA scope is held by its domain, from an opener
outside too (R382, R404). -/
def State.requestFor (s : State) (st : Strand) (scope : ScopeId) (phase lane : Nat) (ev : Instr) (arg : Payload)
    (waits : List Nat := []) : State :=
  (s.request scope (s.logical st.pcore) st.serial phase lane ev arg (if s.isQuanta st.scope then [] else waits)).countPacket st.sk ev arg

/-- The accesses of a strand that have no reply yet: sync-cell operations, token transfers, and the first reads of engine
commands (R203). -/
def Strand.accesses (st : Strand) : List Nat := st.pend.map (·.number) ++ st.moves ++ st.cmds

/-- Is a tenant paired with a peer device (R369)? -/
def State.isPaired (s : State) (dev : Nat) (tenant : BitVec 12) : Bool := s.kiln.paired.contains (dev, tenant)

/-- Is what a peer device sends to a member of a scope held to the end of a quantum (R383)? Then it is requested with the
core of the device, which comes after cores, engines and the Kiln. -/
def State.holdsPeers (s : State) (scope : ScopeId) (core : Nat) : Bool :=
  let d := s.domains.get {} (s.domainOf scope).toNat
  512 ≤ core && s.isQuanta scope && d.started && !d.ending

def State.peerRequest (s : State) (scope : ScopeId) (core : Nat) (ev : Instr) : State := s.request scope (514 + core) 0 6 0 ev s.arg

/-- The cluster that a node stands in: that of a core or of a unit. -/
def nodeHome (n : Nat) : Option Nat := if n < 512 then some (n / 16) else if n < 1024 then some ((n - 512) / 16) else none

/-- Counts the U or B flits of an answer where it is injected (R392). -/
def State.countAnswer (s : State) (lane : Nat) (ev : Instr) (arg : Payload) : State :=
  match nodeHome (routeSrc lane), packetOf ev arg with
  | some c, some (cls, _, n) => if cls = 0 then s else s.injects c n
  | _, _ => s

/-- What a home delivers to a member: at once, or in phase 8 of the quantum end (R409). -/
def State.deliver (s : State) (scope : ScopeId) (lane : Nat) (ev : Instr) (arg : Payload) : State :=
  (s.request scope 512 0 8 lane ev arg).countAnswer lane ev arg

/-! ### Cancellation (R302, R307) -/

/-- The physical cores where members of a scope are: strands, waiting contexts, queued messages. -/
def State.coresWith (s : State) (scope : ScopeId) : List Nat :=
  let ofCore (kv : Nat × Core) : Bool :=
    (kv.2.arrival ++ kv.2.overflow ++ kv.2.deque).any fun c => c.scope = scope
  let ofBox (kv : Nat × LCore) : Bool := kv.2.handlers.any fun h => h.2.box.any fun m => m.scope = scope
  (((s.strands.filter fun kv => kv.2.scope = scope).map fun kv => pcoreOf kv.1)
    ++ ((s.cores.filter ofCore).map (·.1))
    ++ ((s.lcores.filter ofBox).filterMap fun kv => s.physical kv.1)).eraseDups

/-- The first core of each cluster that a cancel goes to: those whose scope unit mirrors weight, and the home's own. -/
def State.cancelPlaces (s : State) (scope : ScopeId) : List Nat :=
  ((homeCluster scope :: (s.coresWith scope).map clusterOf).eraseDups).map (17 * ·)

/-- The lane of a cancel: from the scope's home to the scope unit of a core's cluster. -/
def cancelLane (scope : ScopeId) (pcore : Nat) : Nat := laneOf 0 (homeNode scope) (unitNode (clusterOf pcore) 7)

/-- Sets CANCELLED in a scope and every open scope below it, and sends the cancel to the clusters of their members. -/
def State.cancelScope (s : State) (id : ScopeId) : State :=
  (s.descendants id).foldl (fun s d =>
    if (s.scope d).cancelled then s
    else
      let s := s.modScb d fun b => { b with cancelled := true }
      (s.cancelPlaces d).foldl (fun s p => s.request d 512 0 8 (cancelLane d p) .cancelPacket (.scopeAt d p)) s) s

/-- FAULTED and CANCELLED, with the report of the condition (R309, R387, R388). -/
def State.faultScope (s : State) (id : ScopeId) (code : Nat) (detail : List Word) : State :=
  let s := s.modScb id fun b => { b with faulted := true }
  (s.cancelScope id).report code (s.scope id).fdom detail

/-- SWIN at the home: the first sets WON, CANCELLED and RESULT (R307). -/
def State.winScope (s : State) (id : ScopeId) (w : Word) : State :=
  if (s.scope id).won then s
  else (s.modScb id fun b => { b with won := true, result := w }).cancelScope id

/-- Has the flag of a scope reached a core (R302)? -/
def State.flagAt (s : State) (scope : ScopeId) (pcore : Nat) : Bool := (s.core pcore).cancels.contains scope

/-! ### Closing (R297 to R299, R395) -/

/-- The close status by the flags of the block (R298). -/
def Scb.closeStatus (b : Scb) : BitVec 3 :=
  if b.damaged then 3 else if b.faulted then 4 else if b.won then 1 else if b.cancelled then 2 else 0

/-- A payload when a scope has closed: a grant that parks with it parks with its parent. -/
def payloadParkWith (id parent : ScopeId) : Payload → Payload
  | .grant g => .grant (if g.receiver = scopeParty id then { g with receiver := scopeParty parent } else g)
  | a => a

/-- Tokens parked with a scope, and those on their way to it, pass to its parent (R395). -/
def State.passTokens (s : State) (id parent : ScopeId) : State :=
  { s with
    tokens := s.tokens.map fun t => if t.owner = scopeParty id then { t with owner := scopeParty parent } else t
    agenda := s.agenda.map fun p => { p with arg := payloadParkWith id parent p.arg }
    domains := s.domains.map fun kv => (kv.1, { kv.2 with held := kv.2.held.map fun h => (h.1, payloadParkWith id parent h.2) }) }

/-- Has a scope a flit or memory minimum, for which a cone unit keeps an entry of its own (R375)? -/
def Scb.ownCone (b : Scb) : Bool := b.fltmin != 0 || b.memmin != 0

/-- The scopes that have the entries 0 to 254 of a cluster's cone unit: the admitted launches there with a minimum, then other
scopes with a minimum and traffic there, by number (R375; log entry 34). -/
def State.coneOwners (s : State) (cluster : Nat) : List Nat :=
  let c := s.cluster cluster
  let own (n : Nat) : Bool := match s.scb (BitVec.ofNat 24 n) with
    | some b => b.ownCone
    | none => false
  let launched := (s.launches.filter fun kv => own kv.1 && (List.range 16).any fun i => kv.2.has (16 * cluster + i)).map (·.1)
  (launched ++ ((c.flits ++ c.sectors).map (·.1)).eraseDups.filter fun n => own n && !launched.contains n).take 255

/-- Has a scope an entry of its own in a cluster, or would get one with its next packet? -/
def State.ownsCone (s : State) (cluster n : Nat) : Bool :=
  let o := s.coneOwners cluster
  o.contains n || (o.length < 255 && (s.scope (BitVec.ofNat 24 n)).ownCone && (s.scb (BitVec.ofNat 24 n)).isSome)

/-- What the cores, clusters and sites keep by scope id is gone with the scope: the id may name another one later. -/
def State.forgetScope (s : State) (id : ScopeId) : State :=
  let n := id.toNat
  -- what it counted in the shared entry stays there until the period ends
  let drop (own : Bool) (l : Assoc Nat) : Assoc Nat := if own || l.get 0 n = 0 then l.erase n
    else (l.erase n).insert (2 ^ 24) (l.get 0 (2 ^ 24) + l.get 0 n)
  let core (c : Core) : Core :=
    { c with cancels := c.cancels.filter (· != id), serials := c.serials.erase n, issued := c.issued.erase n }
  let cluster (kv : Nat × Cluster) : Nat × Cluster :=
    let own := s.ownsCone kv.1 n
    (kv.1, { kv.2 with flits := drop own kv.2.flits, sectors := drop own kv.2.sectors })
  { s with
    scopes := s.scopes.erase n
    cores := s.cores.map fun kv => (kv.1, core kv.2)
    clusters := s.clusters.map cluster
    gangs := s.gangs.filter fun kv => kv.2.scope != id
    ltimes := s.ltimes.filter fun e => e.1 != id
    stuck := s.stuck.filter fun e => e.1 != id }

/-- Units of 8 of a cone counter, a part counting as a whole. -/
def coneUnits (n : Nat) : Nat := (n + 7) / 8

/-- Has the scope's flit or memory cone reached its maximum in a cluster (R314)? A scope without an entry of its own counts
with the others that share entry 255, whose maxima are the lowest of theirs (R375). -/
def State.coneFull (s : State) (cluster : Nat) (scope : ScopeId) : Bool :=
  let b := s.scope scope
  let c := s.cluster cluster
  let owners := s.coneOwners cluster
  let counts (n : Nat) : Bool := if s.ownsCone cluster scope.toNat then n == scope.toNat else !owners.contains n
  let sum (l : Assoc Nat) : Nat := ((l.filter fun kv => counts kv.1).map (·.2)).foldl (· + ·) 0
  let with_ := ((c.flits ++ c.sectors).filter fun kv => counts kv.1).filterMap fun kv => s.scb (BitVec.ofNat 24 kv.1)
  let least (f : Scb → BitVec 16) : Nat := with_.foldl (fun n x => Nat.min n (f x).toNat) (f b).toNat
  least (·.fltmax) ≤ coneUnits (sum c.flits) || least (·.memmax) ≤ coneUnits (sum c.sectors)

/-- A launch's cores hold it no more (R34). -/
def State.launchLeaves (s : State) (l : Launch) : State :=
  (List.range 32).foldl (fun (s : State) c =>
    if (List.range 16).any fun i => l.has (16 * c + i) then s.workLeaves c else s) s

/-- The scope closes: its status goes to the opener, or a launch scope's to its completion record; its weight in the
parent returns; its identifier is free. -/
def State.closeScope (s : State) (b : Scb) : State :=
  let s := s.passTokens b.id b.parent
  let s := s.forgetScope b.id
  let s := match s.launches.find b.id.toNat with
    | some l =>
      let s := s.complete l.compl l.tag l.deadline 0 b.closeStatus l.released b.result
      (({ s with launches := s.launches.erase b.id.toNat }).launchLeaves l).signal 2
    | none =>
      s.deliver b.parent (laneOf 0 (homeNode b.id) (s.handleCore b.opener)) .closeStatus
        (.close b.id b.num b.openerSk b.opener b.closeStatus b.result)
  s.send (laneOf 0 (homeNode b.id) (homeNode b.parent)) .weightReturn (.weight b.parent b.pweight false false)

/-- Weight comes back to the home; a DRAINING scope with none outstanding closes (R299), one in QUANTA mode
at the end of its quantum (R409). `live`: a strand has ended. -/
def State.homeReturn (s : State) (id : ScopeId) (w : Nat) (lost live : Bool) : State :=
  match s.scb id with
  | none => s
  | some b =>
    let n : BitVec 32 := if live then b.live - 1 else b.live
    let b := { b with outw := b.outw - w, damaged := b.damaged || lost, live := n }
    let s := s.setScb b
    if b.outw = 0 ∧ b.state = .draining ∧ !s.isQuanta id then s.closeScope b else s

/-- A member's weight on its way to the home, on the lane that SWIN takes too (R337). -/
def State.returnWeight (s : State) (scope : ScopeId) (lcore serial w : Nat) (lost live : Bool) : State :=
  s.request scope lcore serial 2 (laneOf 0 lcore (homeNode scope)) .weightReturn (.weight scope w lost live)

/-! ### Recorded order (R386 to R388) -/

def logWord0 (kind : Nat) (cause : BitVec 3) (site : Word) : Word :=
  BitVec.ofNat 6 kind ++ cause ++ site.extractLsb' 0 55 &&& 0xFFBFFFFFFFFFFFFF

/-- The kinds whose choices share a site: a cell and the completion word in it are one place; else the places of two kinds
differ, even where their numbers agree (log entry 10). -/
def siteKind (kind : Nat) : Nat := if kind = 8 then 4 else kind

/-- The position of the next choice at a site (R387). -/
def State.ltime (s : State) (scope : ScopeId) (kind : Nat) (site : Word) : Nat :=
  ((s.ltimes.find? fun e => e.1 = scope && e.2.1 = siteKind kind && e.2.2.1 = site).map (·.2.2.2)).getD 0

/-- The home reads the log of a REPLAY scope: its bad sectors are met as any read meets them (R190). -/
def State.readLog (s : State) (scope : ScopeId) : State :=
  let b := s.scope scope
  let bad := (s.errs.map fun kv => blockKey kv.1) ++ s.badTags
  if b.dmode ≠ 2 ∨ bad.isEmpty then s
  else
    (List.range (b.loglen.toNat / 4 + 1)).foldl (fun s i =>
      let va := b.logbase + BitVec.ofNat 64 (64 * i)
      if ((s.rawKey b.pasid va).map fun k => bad.contains (blockKey k)) = some true then ((readVa b.pasid va 1).go s).2 else s) s

/-- A choice is logged or replayed: the next one at the site, and LOGPOS (R370); in REPLAY its entry has been read. -/
def State.bumpLtime (s0 : State) (scope : ScopeId) (kind : Nat) (site : Word) : State :=
  let s := s0.readLog scope
  let n := s.ltime scope kind site
  let rest := s.ltimes.filter fun e => !(e.1 = scope && e.2.1 = siteKind kind && e.2.2.1 = site)
  ({ s with ltimes := (scope, siteKind kind, site, n + 1) :: rest }).modScb scope fun b => { b with logpos := b.logpos + 1 }

/-- The scope's log cannot say what comes next: it diverges, once the home has met what is wrong with its sectors (R190,
R388). -/
def State.diverges (s : State) (scope : ScopeId) : State := (s.readLog scope).send 0 .replayDiverged (.scopeAt scope 0)

/-- The log is full: the scope is faulted, and the Kiln reports it, once. -/
def State.logFull (s : State) (scope : ScopeId) : State :=
  if (s.scope scope).faulted then s else s.faultScope scope 5 []

/-- Writes one order-log entry; the one that brings LOGPOS to LOGLEN faults the scope (R387), and so does an entry that cannot
be written (log entry 58). -/
def State.logChoice (s : State) (scope : ScopeId) (kind : Nat) (cause : BitVec 3) (site : Word) (choice : BitVec 32) :
    State :=
  let b := s.scope scope
  if b.loglen ≤ b.logpos then s.logFull scope
  else
    let w1 : Word := BitVec.ofNat 32 (s.ltime scope kind site) ++ choice
    match (writeVa b.pasid (b.logbase + BitVec.ofNat 64 (16 * b.logpos.toNat)) (leBytes 8 (logWord0 kind cause site) ++ leBytes 8 w1)).go s with
    | (.error _, s) => s.logFull scope
    | (.ok (), s) =>
      let s := s.bumpLtime scope kind site
      if b.loglen ≤ b.logpos + 1 then s.logFull scope else s

/-- The logged entry at a position of a site, in a REPLAY scope: its cause and choice. Two words that are no entry, a reserved
bit or a reserved cause among them, are as if they were not there (R7; log entry 58). -/
def State.logged (s : State) (scope : ScopeId) (kind : Nat) (site : Word) (n : Nat) : Option (BitVec 3 × BitVec 32) :=
  let b := s.scope scope
  (List.range b.loglen.toNat).findSome? fun i =>
    match s.peekVa b.pasid (b.logbase + BitVec.ofNat 64 (16 * i)) 16 with
    | none => none
    | some bs =>
      let w0 := wordOf (bs.take 8)
      let w1 := wordOf (bs.drop 8)
      if (w0.extractLsb' 58 6).toNat = kind ∧ w0.extractLsb' 0 54 = site.extractLsb' 0 54 ∧ (w1.extractLsb' 32 32).toNat = n
        ∧ !w0.getLsbD 54 ∧ (w0.extractLsb' 55 3).toNat ≤ (if kind = 1 then 4 else 0)
      then some (w0.extractLsb' 55 3, w1.extractLsb' 0 32) else none

/-- The party of a choice: logical core and instructions retired (R387). -/
def partyChoice (lcore : Nat) (retired : Word) : BitVec 32 := BitVec.ofNat 9 lcore ++ retired.extractLsb' 0 23

/-- May a logged party still come? Yes while a member of the scope lives that may be it, move to its core or make it, or a
message, a context or a command of the scope is under way; a request that is under way is it only with the logged core and
count (log entry 10). -/
def State.partyMayCome (s : State) (scope : ScopeId) (choice : BitVec 32) : Bool :=
  let ctx (c : Ctx) : Bool := c.scope == scope
  s.strands.any (fun kv => kv.2.scope = scope || kv.2.opens.any fun r => r.scope = scope) ||
    s.cores.any (fun kv => (kv.2.arrival ++ kv.2.overflow ++ kv.2.deque).any ctx) ||
    s.lcores.any (fun kv => kv.2.handlers.any fun h => h.2.box.any fun m => m.scope = scope) ||
    s.kiln.saves.any (fun kv => ctx kv.2.ctx) ||
    s.clusters.any (fun kv => kv.2.nodes.any fun n => n.2.state != .free && n.2.mscope = scope) ||
    s.engines.any (fun kv => kv.2.inbox.any fun c => c.scope = scope && partyChoice c.lcore c.retired = choice) ||
    s.agenda.any (fun p => match p.arg with
      | .ctx _ _ c => ctx c
      | .msg m => m.scope = scope
      | .cmd c => c.scope = scope
      | .syncReq r => r.scope = scope && partyChoice r.lcore r.retired = choice
      | .tokReq _ r => r.scope = scope && partyChoice r.lcore r.retired = choice
      | .grant g => g.scope = scope && partyChoice g.lcore g.retired = choice
      | _ => false)

/-- In REPLAY, does the log name a choice as the next at a site? -/
def State.isDue (s : State) (scope : ScopeId) (kind : Nat) (site : Word) (choice : BitVec 32) : Bool :=
  (s.logged scope kind site (s.ltime scope kind site)).map (·.2) == some choice

/-- A request of a REPLAY scope waits at a site for its turn; after 2^24 cycles the scope diverges (R388). -/
def State.waitsTurn (s : State) (scope : ScopeId) (kind : Nat) (site : Word) (choice : BitVec 32) (again : State → State) :
    State :=
  match s.stuck.find? fun e => e.1 = scope && e.2.1 = kind && e.2.2.1 = site && e.2.2.2.1 = choice.toNat with
  | some e => if e.2.2.2.2 + 2 ^ 24 ≤ s.cycle then s.diverges scope else again s
  | none => again { s with stuck := (scope, kind, site, choice.toNat, s.cycle) :: s.stuck }

/-- The turn of a request has come. -/
def State.turnCame (s : State) (scope : ScopeId) (kind : Nat) (site : Word) (choice : BitVec 32) : State :=
  { s with stuck := s.stuck.filter fun e => !(e.1 = scope && e.2.1 = kind && e.2.2.1 = site && e.2.2.2.1 = choice.toNat) }

/-- Serves a request at a site in the order of its scope's mode: RECORD logs it, REPLAY makes it wait for its turn. -/
def State.ordered (s : State) (scope : ScopeId) (kind : Nat) (cause : BitVec 3) (site : Word) (choice : BitVec 32)
    (again go : State → State) : State :=
  if s.dmode scope = 1 then go (s.logChoice scope kind cause site choice)
  else if s.dmode scope = 2 then
    match s.logged scope kind site (s.ltime scope kind site) with
    | none => s.diverges scope
    | some (_, c) =>
      if c = choice then go ((s.bumpLtime scope kind site).turnCame scope kind site choice)
      else if !s.partyMayCome scope c then s.diverges scope
      else s.waitsTurn scope kind site choice again
  else go s

/-- A value that timing decides (QPOLL, QSTAT, TWAIT, ECHK, a Wheel's choice): logged in RECORD, taken from the log in
REPLAY (R386, R388). -/
def State.polled (s : State) (scope : ScopeId) (kind : Nat) (site : Word) (v : BitVec 32) : State × BitVec 32 :=
  if s.dmode scope = 1 then (s.logChoice scope kind 0 site v, v)
  else if s.dmode scope = 2 then
    match s.logged scope kind site (s.ltime scope kind site) with
    | some (_, c) => (s.bumpLtime scope kind site, c)
    | none => (s.diverges scope, v)
  else (s, v)

end Sys2Proof.Machine
end

