-- ==== Sys2Proof/Machine/Tokens.lean ====
section
/-! DEFINITION. Tokens at their homes (R206 to R213, R344 to R346, R403): grants on their way, requests that wait for the
home, and what becomes of the tokens of a strand that ends. -/

namespace Sys2Proof.Machine

def State.pasidOf (s : State) (id : ScopeId) : BitVec 20 := (s.scope id).pasid

/-- Who a strand is to the memories. -/
def State.who (s : State) (st : Strand) : Who :=
  { pcore := st.pcore
    pasid := s.pasidOf st.scope
    parties := st.parties
    sys := s.isSys st.scope
    ctx := st.handle
    scope := st.scope
    cluster := st.cluster
    pageAns := st.pageAns
    cut := st.cut }

/-! ### Homes (R344) -/

/-- The root scope of the tenant with a PASID (R411). -/
def State.rootOf (s : State) (pasid : BitVec 20) : Option ScopeId :=
  (s.kiln.tenants.find? fun t => (s.scope t.2).pasid = pasid).map (·.2)

/-- The region that a sherd was first split from: its token's chain of parents. -/
def State.topRegion (s : State) (pasid : BitVec 20) : Nat → Region → Region
  | 0, r => r
  | n + 1, r =>
    match s.token r pasid with
    | some t => if t.parent = 0 then r else
        match decodeRegion t.parent with
        | some p => s.topRegion pasid n p
        | none => r
    | none => r

/-- The cluster where a token is homed. -/
def State.tokenHome (s : State) (r0 : Region) (pasid : BitVec 20) : Nat :=
  let r := s.topRegion pasid 24 r0
  if r.vault then r.base / 2 ^ 23 / 16
  else
    let quads := s.partQuads (((s.rootOf pasid).map homeCluster).getD 0)
    let h := (pasid.toNat + r.base / 2 ^ r.k) % (8 * quads.length)
    8 * (quads[h / 8]?.getD 0) + h % 8

/-- The token home of a region, as a node. -/
def State.tokenNode (s : State) (r : Region) (pasid : BitVec 20) : Nat := unitNode (s.tokenHome r pasid) 8

/-! ### Parties -/

/-- Is the handle that of a channel (R403)? -/
def isChannelHandle (h : Handle) : Bool := handlePos h == 31

def channelCore (h : Handle) : Nat := 16 * handleCluster h + handleSlot h
def channelNo (h : Handle) : Nat := (h.extractLsb' 0 6).toNat

/-- The party that a receiver operand names (R209). -/
def receiverParty (x : Word) : Party :=
  let h : Handle := x.extractLsb' 0 32
  let dev : BitVec 16 := x.extractLsb' 32 16
  if dev ≠ 0 then { kind := .peer, id := h, dev := dev }
  else if isChannelHandle h then { kind := .channel, id := h }
  else strandParty h

/-- The physical core a party is on. -/
def State.partyCore (s : State) (p : Party) : Option Nat :=
  match p.kind with
  | .strand => some (handleSk p.id / 16)
  | .channel => s.physical (channelCore p.id)
  | _ => none

/-- Is a strand, under its old handle, saved, or a migrated context on its way or in a queue (R218, R319)? -/
def State.travels (s : State) (h : Handle) : Bool :=
  let ctx (c : Ctx) : Bool := c.kind == 1 && c.origin == h
  let payload (a : Payload) : Bool := match a with
    | .ctx _ _ c => ctx c
    | _ => false
  h != 0 && (s.kiln.saves.any (fun kv => ctx kv.2.ctx)
    || s.cores.any (fun kv => (kv.2.arrival ++ kv.2.overflow).any ctx)
    || s.agenda.any (fun p => payload p.arg) || s.domains.any fun kv => kv.2.held.any fun x => payload x.2)

/-- Does a party that a grant is on its way to still take it? -/
def State.partyLives (s : State) (p : Party) : Bool :=
  match p.kind with
  | .strand => (s.named p.id).isSome || s.travels p.id
  | .channel => ((s.lcore (channelCore p.id)).handlers.get {} (channelNo p.id)).depth != 0
  | _ => true

/-- A party as a node. -/
def State.partyNode (s : State) (p : Party) : Nat :=
  match p.kind with
  | .strand => s.logical (handleSk p.id / 16)
  | .channel => channelCore p.id
  | .engine => engineNode (p.id.toNat - 0x80000000)
  | .peer => peerNode p.dev.toNat
  | _ => kilnNode

/-- The region's lines in a party's core: written back before a grant leaves it (R208). -/
def State.releaseLines (s : State) (p : Party) (r : Region) (pasid : BitVec 20) : State :=
  match s.partyCore p with
  | some c => s.flushRegion c r pasid
  | none => s

/-- ... and invalidated when one arrives (R180). What another holder of the core has stored there is written back first: no
store of a party that keeps its rights is lost (R216). -/
def State.acquireLines (s : State) (p : Party) (r : Region) (pasid : BitVec 20) : State :=
  match s.partyCore p with
  | some c => (s.flushRegion c r pasid).invalidateRegion c r pasid
  | none => s

/-! ### Grants (R208) -/

def State.dropOutst (s : State) (n : Nat) : State := { s with outst := s.outst.filter (· != n) }

/-- The lender to whom a token returns when its last borrower gives it back: the nearest live one up the chain, else the
owner (R212). The borrowers above are those that stay. -/
def State.lenders (s : State) : List Party → List Party
  | [] => []
  | p :: rest => if s.partyLives p then p :: rest else s.lenders rest

/-- A grant reaches its home, which records the new state and sends it on (R208). -/
def State.recordGrant (s : State) (g : Grant) : State :=
  match decodeRegion g.region with
  | none => s.dropOutst g.number
  | some r =>
    match s.token r g.pasid with
    | none => s.dropOutst g.number
    | some t =>
      let home := s.tokenNode r g.pasid
      let set (s : State) (t : Token) : State := s.modToken r g.pasid fun _ => t
      let forward (s : State) (next : Party) : State :=
        s.deliver g.scope (laneOf 0 home (s.partyNode next)) .tokenGrantArrival (.grant { g with receiver := next })
      let t := { t with leaving := t.leaving.erase g.giver, coming := t.coming.erase g.giver }
      if t.state = .reclaiming then s.after 1 .tokenGrant (.grant g)
      else if t.state = .poisoned then (set s { t with giving := false, sharing := 0 }).dropOutst g.number
      else
        match g.kind with
        | .lend =>
          forward (set s { t with state := .lent, borrowers := t.borrowers ++ [g.receiver],
                                  coming := g.receiver :: t.coming }) g.receiver
        | .ret =>
          let up := (s.lenders (t.borrowers.dropLast.reverse)).reverse
          -- the borrower that outlived the owner or an earlier borrower has given it back, or has ended
          match t.orphan.filter fun o => !up.contains o.2 with
          | some (f, _) =>
            let t : Token := { t with state := .poisoned, borrowers := [], orphan := none, owner := { kind := .fdom, id := f.setWidth 32 } }
            (set s t).dropOutst g.number
          | none =>
            match up.getLast? with
            | some l => forward (set s { t with borrowers := up, coming := l :: t.coming }) l
            | none =>
              let t := { t with state := .held, borrowers := [] }
              if t.owner.kind = .scope ∨ t.owner.kind = .fdom then (set s t).dropOutst g.number
              else forward (set s { t with coming := t.owner :: t.coming }) t.owner
        | .give => forward (set s { t with owner := g.receiver, giving := false, coming := g.receiver :: t.coming }) g.receiver
        | .park => (set s { t with owner := g.receiver, giving := false }).dropOutst g.number
        | .share =>
          forward (set s { t with state := .shared, shares := t.shares ++ [g.receiver], sharing := t.sharing - 1,
                                  coming := g.receiver :: t.coming }) g.receiver
        | .shareRet =>
          let sh := t.shares.erase g.giver
          (set s { t with shares := sh, state := if sh.isEmpty then .held else t.state }).dropOutst g.number

/-- A grant reaches its receiver; a receiver that has ended sends it back (R212). -/
def State.grantArrives (s : State) (g : Grant) : State :=
  match decodeRegion g.region with
  | none => s.dropOutst g.number
  | some r =>
    let home := s.tokenNode r g.pasid
    if s.partyLives g.receiver then
      let s := s.acquireLines g.receiver r g.pasid
      (s.modToken r g.pasid fun t => { t with coming := t.coming.erase g.receiver }).dropOutst g.number
    else
      let back (g' : Grant) := s.request g.scope 512 0 2 (laneOf 0 (s.partyNode g.receiver) home) .tokenGrant (.grant g')
      match g.kind with
      | .lend | .ret =>
        match s.token r g.pasid with
        | some t =>
          if t.borrowers.getLast? = some g.receiver then back { g with kind := .ret, giver := g.receiver }
          else (s.modToken r g.pasid fun t => { t with coming := t.coming.erase g.receiver }).dropOutst g.number
        | none => s.dropOutst g.number
      | .share => back { g with kind := .shareRet, giver := g.receiver }
      | _ =>
        if s.partyLives g.giver then back { g with kind := .give, giver := g.receiver, receiver := g.giver }
        else
          let sc := if (s.scb g.scope).isSome then g.scope else (s.rootOf g.pasid).getD 0
          back { g with kind := .park, giver := g.receiver, receiver := scopeParty sc }

/-- Sends a grant from its giver to the home, its dirty lines written back; the giver's transfer is outstanding until the
grant is performed. `waits`: the giver's accesses that come first. -/
def State.sendGrant (s : State) (kind : GrantKind) (r : Region) (region : Word) (pasid : BitVec 20) (giver receiver : Party)
    (scope : ScopeId) (lcore serial : Nat) (retired : Word) (waits : List Nat := []) : State :=
  let (n, s) := s.number
  let s := s.releaseLines giver r pasid
  let s := { s with outst := n :: s.outst }
  s.request scope lcore serial 2 (laneOf 0 (s.partyNode giver) (s.tokenNode r pasid)) .tokenGrant
    (.grant { kind := kind, number := n, lcore := lcore, region := region, pasid := pasid, giver := giver,
              receiver := receiver, scope := scope, retired := retired }) (if s.isQuanta scope then [] else waits)

/-! ### The tokens of a strand that ends (R213) -/

/-- The lowest region that a strand owns (R399: a TGIVE that has issued ends its ownership). -/
def State.lowestOwned (s : State) (h : Handle) : Option Word :=
  (s.tokens.filter fun t => t.owner = strandParty h && !t.giving).foldl
    (fun best t => match best with
      | none => some t.region
      | some w => if t.region < w then some t.region else some w) none

/-- Returns what a strand has borrowed and its read-shares. -/
def State.returnTokens (s : State) (st : Strand) : State :=
  let p := strandParty st.handle
  let l := s.logical st.pcore
  s.tokens.foldl (fun s t =>
    let reg := t.reg
    let s :=
      if t.state = .lent ∧ t.borrowers.getLast? = some p ∧ t.settled p then
        (s.modToken reg t.pasid fun t => { t with leaving := p :: t.leaving }).sendGrant .ret reg t.region t.pasid p p
          st.scope l st.serial st.retired
      else s
    (List.range (t.netShares p)).foldl (fun s _ =>
      (s.modToken reg t.pasid fun t => { t with leaving := p :: t.leaving }).sendGrant .shareRet reg t.region t.pasid p p
        st.scope l st.serial st.retired) s) s

/-- The party that a channel is. -/
def channelParty (lcore : Nat) (chan : BitVec 6) : Party := { kind := .channel, id := channelHandle lcore chan }

/-- The regions that a channel has borrowed. -/
def State.channelBorrows (s : State) (lcore : Nat) (chan : BitVec 6) : List (Word × BitVec 20) :=
  (s.tokens.filter fun t => t.state == .lent && t.borrowers.getLast? == some (channelParty lcore chan)).map fun t => (t.region, t.pasid)

/-- Returns what a channel has borrowed of the regions named, once its entry is gone (R403). -/
def State.returnChannel (s : State) (lcore : Nat) (chan : BitVec 6) (scope : ScopeId) (l : List (Word × BitVec 20)) : State :=
  let p := channelParty lcore chan
  s.tokens.foldl (fun s t =>
    if t.state = .lent ∧ t.borrowers.getLast? = some p ∧ t.settled p ∧ l.contains (t.region, t.pasid) then
      (s.modToken t.reg t.pasid fun t => { t with leaving := p :: t.leaving }).sendGrant .ret t.reg t.region t.pasid p p
        scope lcore 0 0
    else s) s

/-- Parks every token a strand owns with a scope, in its state (R213, R304, R319). -/
def State.parkTokens (s : State) (st : Strand) : State :=
  let p := strandParty st.handle
  s.tokens.foldl (fun s t =>
    if t.owner = p ∧ !t.giving then
      (s.releaseLines p t.reg t.pasid).modToken t.reg t.pasid fun t =>
        { t with owner := scopeParty st.scope, coming := t.coming.erase p }
    else s) s

/-! ### Requests that wait for the home (R209 to R211) -/

/-- The query word of R211. -/
def queryWord (t? : Option Token) (ps : List Party) : Word :=
  match t? with
  | none => 15
  | some t =>
    let st : BitVec 4 := match t.state with
      | .free => 0
      | .held => 1
      | .lent => 2
      | .shared => 3
      | .split => 4
      | .sealed_ => 5
      | .poisoned => 6
      | .reclaiming => 7
    let borrow := match t.borrowers.getLast? with
      | some p => ps.contains p
      | none => false
    BitVec.ofNat 16 t.shares.length ++ t.splitlog ++ BitVec.ofNat 3 t.borrowers.length ++ BitVec.ofNat 6 t.reg.k
      ++ 0#3 ++ BitVec.ofBool t.integ ++ t.keyid ++ 0#12 ++ BitVec.ofBool borrow
      ++ BitVec.ofBool (ps.any fun p => t.shares.contains p) ++ BitVec.ofBool (ps.contains t.owner)
      ++ BitVec.ofBool (t.owner.kind == .scope) ++ st

/-- The word that the directory holds: path 0 for translated regions (R345). -/
def Region.dirWord (r : Region) : Word := regionWord (if r.vault then 3 else 0) r.base r.k

/-- Sherd `i` of a region split in 2^j parts. -/
def Region.sherd (r : Region) (j i : Nat) : Region := { r with base := r.base + i * 2 ^ (r.k - j), k := r.k - j }

def tokenAbsent (sub : BitVec 8) (w : Word) : Trap := { code := .tokenAbsent, sub := sub, aux := w }

/-- A token instruction meets a token in a state it does not accept (R210). -/
def badState (t : Token) (w : Word) : Trap :=
  if t.state = .poisoned then { code := .poisoned, aux := w } else tokenAbsent 3 w

/-- What the home does with a request: the state after it, and its answer. TJOIN asks of the issuer only that it owns every
sherd, which makes it the owner. TSEAL leaves no core an older line than the memory holds (R217). -/
def State.serveToken (s : State) (q : TokReq) (r : Region) (t : Token) : State × Except Trap Word :=
  let me := strandParty q.handle
  let w := q.region
  let set (f : Token → Token) : State := s.modToken r q.pasid f
  let owned : Option Trap :=
    if t.state = .poisoned then some { code := .poisoned, aux := w }
    else if t.owner ≠ me ∨ t.giving then some (tokenAbsent 2 w) else none
  match q.op.toNat with
  | 3 =>
    match owned with
    | some e => (s, .error e)
    | none =>
      if t.state ≠ .held ∨ t.sharing ≠ 0 then (s, .error (badState t w))
      else
        let j := q.arg.toNat
        if j < 1 ∨ 6 < j ∨ r.k < 12 + j then (s, .error (tokenAbsent 4 w))
        else
          let s := set fun t => { t with state := .split, splitlog := BitVec.ofNat 3 j }
          let mk (i : Nat) : Token :=
            { t with region := (r.sherd j i).dirWord, state := .held, splitlog := 0, parent := t.region, leaving := [],
                     coming := [], shares := [], borrowers := [] }
          ({ s with tokens := s.tokens ++ (List.range (2 ^ j)).map mk },
            .ok (regionWord (q.region.extractLsb' 50 4).toNat r.base (r.k - j)))
  | 5 =>
      if t.state ≠ .split then (s, .error (owned.getD (badState t w)))
      else
        let j := t.splitlog.toNat
        let parts := (List.range (2 ^ j)).map fun i => r.sherd j i
        let good (p : Region) : Bool :=
          match s.token p q.pasid with
          | some u => u.owner == me && u.state == .held && !u.giving && u.sharing == 0 && u.settled me
          | none => false
        if !parts.all good then (s, .error (tokenAbsent 5 w))
        else
          let s := parts.foldl (fun s p => s.dropToken p q.pasid) s
          (s.modToken r q.pasid fun t => { t with state := .held, splitlog := 0, owner := me }, .ok 0)
  | 8 =>
    match owned with
    | some e => (s, .error e)
    | none =>
      if t.state ≠ .held ∨ t.sharing ≠ 0 then (s, .error (badState t w))
      else ((set fun t => { t with state := .sealed_ }).invalidateAll r q.pasid true, .ok 0)
  | 9 =>
    match owned with
    | some e => (s, .error e)
    | none =>
      if t.state ≠ .sealed_ then (s, .error (badState t w))
      else ((set fun t => { t with state := .held }).invalidateAll r q.pasid false, .ok 0)
  | 10 =>
    if t.state ≠ .poisoned then (s, .error (tokenAbsent 3 w))
    else ((set fun t => { t with state := .held, owner := me, lost := false }).acquireLines me r q.pasid, .ok 0)
  | _ =>
    let parked : Bool := t.owner.kind == .scope && ((s.ancestors q.scope).any fun a => t.owner = scopeParty a)
    if t.state = .poisoned then (s, .error { code := .poisoned, aux := w })
    else if t.state = .free then
      ((set fun t => { t with state := .held, owner := me }).acquireLines me r q.pasid, .ok 1)
    else if parked then ((set fun t => { t with owner := me }).acquireLines me r q.pasid, .ok 1)
    else (s, .ok 0)

/-- A token request reaches its home. -/
def State.tokenRequested (s : State) (n : Nat) (q : TokReq) : State :=
  match decodeRegion q.region with
  | none => s
  | some r =>
    let answer (s : State) (a : Answer) : State :=
      s.deliver q.scope (laneOf 0 (s.tokenNode r q.pasid) q.lcore) .acknowledgement (.answer q.sk q.handle n a)
    match s.token r q.pasid with
    | none => answer s (.trap (tokenAbsent 1 q.region))
    | some t =>
      if t.state = .reclaiming then s.after 1 .tokenRequest (.tokReq n q)
      else
        match s.serveToken q r t with
        | (s', .ok v) => answer s' (.value v)
        | (s', .error e) => answer s' (.trap e)

/-- Has a strand a right to a region (TWAIT)? -/
def State.hasRight (s : State) (st : Strand) (region : Word) : Bool :=
  match decodeRegion region with
  | none => false
  | some r =>
    match s.token r (s.pasidOf st.scope) with
    | none => false
    | some t => t.state == .sealed_ || t.holdsFull st.parties || t.holdsShare st.parties

end Sys2Proof.Machine
end

