-- ==== Sys2Proof/Machine/Queues.lean ====
section
/-! DEFINITION. Queue registers: bindings, credits, neighbour and pair FIFOs, and how they break (R236 to R242). -/

namespace Sys2Proof.Machine

/-- Kinds of binding (R270). -/
def Binding.isRead (b : Binding) : Bool := b.kind == 1 || b.kind == 3 || b.kind == 5

def Strand.q (st : Strand) (i : Nat) : Option Binding := st.queues.find i
def Strand.setQ (st : Strand) (i : Nat) (b : Binding) : Strand := { st with queues := st.queues.insert i b }
def Strand.dropQ (st : Strand) (i : Nat) : Strand := { st with queues := st.queues.erase i }

/-- The strand and register with the network-receive binding of a channel (R238). -/
def State.receiver (s : State) (lcore : Nat) (chan : BitVec 6) : Option (Strand × Nat × Binding) :=
  match s.physical lcore with
  | none => none
  | some p =>
    s.strands.findSome? fun kv =>
      if pcoreOf kv.1 = p then
        (kv.2.queues.find? fun qb => qb.2.kind = 1 && qb.2.chan = chan).map fun qb => (kv.2, qb.1, qb.2)
      else none

/-- The saved strand, by its number, whose kept receive binding has a channel (R242). -/
def State.savedReceiver (s : State) (lcore : Nat) (chan : BitVec 6) : Option (Nat × Saved × Nat × Binding) :=
  s.kiln.saves.findSome? fun kv =>
    if kv.2.lcore = lcore then
      (kv.2.st.queues.find? fun qb => qb.2.kind = 1 && qb.2.chan = chan).map fun qb => (kv.1, kv.2, qb.1, qb.2)
    else none

/-- Has a channel a receive binding, of a strand or of a saved one? -/
def State.received (s : State) (lcore : Nat) (chan : BitVec 6) : Bool :=
  (s.receiver lcore chan).isSome || (s.savedReceiver lcore chan).isSome

/-- Changes a binding of a saved strand. -/
def State.setSavedQ (s : State) (n : Nat) (sv : Saved) (q : Nat) (b : Binding) : State :=
  let st : Strand := { sv.st with queues := sv.st.queues.insert q b }
  s.modKiln fun k => { k with saves := k.saves.insert n { sv with st := st } }

/-- The strand with the send binding of a number, and the saved strand that keeps it (R242). -/
def State.sender (s : State) (n : Nat) : Option (Strand × Nat × Binding) :=
  s.strands.findSome? fun kv =>
    (kv.2.queues.find? fun qb => qb.2.kind = 0 && qb.2.num = n).map fun qb => (kv.2, qb.1, qb.2)

def State.savedSender (s : State) (n : Nat) : Option (Nat × Saved × Nat × Binding) :=
  s.kiln.saves.findSome? fun kv =>
    (kv.2.st.queues.find? fun qb => qb.2.kind = 0 && qb.2.num = n).map fun qb => (kv.1, kv.2, qb.1, qb.2)

/-- The core of a strand on a peer device, from its handle there. -/
def peerCore (dev : Nat) (h : Handle) : Nat := 512 * dev + 16 * handleCluster h + handlePos h % 16

/-- The core that a send binding names. -/
def State.bindCore (s : State) (b : Binding) : Nat :=
  if b.pdev = 0 then s.handleCore b.partner else peerCore b.pdev.toNat b.partner

/-- The core of the sender of words and credit requests: one on a peer device has the device above bit 40 of its number. -/
def State.senderCore (s : State) (h : Handle) (n : Nat) : Nat :=
  if n < 2 ^ 40 then s.handleCore h else peerCore (n / 2 ^ 40) h

/-- The neighbour on a side: its logical core (R241). -/
def neighbour (lcore : Nat) (right : Bool) : Nat :=
  lcore / 16 * 16 + (if right then lcore % 16 + 1 else lcore % 16 + 15) % 16

/-- The FIFO of a core from its left or its right. -/
def LCore.fifo (l : LCore) (right : Bool) : List (Nat × Word) := if right then l.fifoR else l.fifoL
def LCore.setFifo (l : LCore) (right : Bool) (f : List (Nat × Word)) : LCore :=
  if right then { l with fifoR := f } else { l with fifoL := f }

/-- The pair FIFO of a number (R270). -/
def State.pair (s : State) (n : Nat) : Option Pair := s.pairs.find? fun p => p.num = n
def State.setPair (s : State) (p : Pair) : State := { s with pairs := p :: s.pairs.filter fun x => x.num != p.num }

/-- Words that a QUANTA scope's strands have written to a FIFO and that its quantum end will place (R383): to a pair, by its
number, or to a neighbour's side. -/
def State.heldWords (s : State) (pair : Bool) (n : Nat) (right : Bool) : Nat :=
  (s.domains.flatMap fun kv => kv.2.held.filter fun h => match h.2 with
    | .fifo p l r _ _ => p = pair && l = n && r = right
    | _ => false).length

/-- Is a peer device reachable (R369)? -/
def State.peerUp (s : State) (dev : BitVec 16) : Bool := dev.toNat ≤ 1024 && (s.peers.get (0, 0, 0) (dev.toNat - 1)).1 == 1

/-- Does a handle name a slot that carries another generation now (R55, R240)? -/
def State.staleHandle (s : State) (h : Handle) : Bool :=
  handleGen h == 0 || (s.core (handleSk h / 16)).gens.get 0 (handleSlot h) != handleGen h

/-- Does the binding find its partner gone (R237, R240, R241)? True with the second part for a dead core. -/
def State.brokenBy (s : State) (st : Strand) (b : Binding) : Bool × Bool :=
  let l := s.logical st.pcore
  if b.broken then (true, b.dead)
  else if b.kind = 0 then
    let p := handleSk b.partner / 16
    let dead := b.pdev = 0 && ((s.core p).dead || !s.samePart st.cluster (clusterOf p))
    (dead || (b.pdev = 0 && s.staleHandle b.partner), dead)
  else if b.kind = 2 ∨ b.kind = 3 then
    let r := s.isRetired (neighbour l b.side)
    (r, r)
  else if b.kind = 4 ∨ b.kind = 5 then
    match s.pair b.num with
    | some p => (p.broken, false)
    | none => (true, false)
  else (false, false)

/-- The words of a read binding, with the cycle from which each can be read. -/
def State.entries (s : State) (st : Strand) (b : Binding) : List (Nat × Word) :=
  if b.kind = 1 then b.words.map fun w => (0, w)
  else if b.kind = 3 then (s.lcore (s.logical st.pcore)).fifo b.side
  else if b.kind = 5 then ((s.pair b.num).map (·.words)).getD []
  else []

/-- The oldest word that can be read now. -/
def State.readable (s : State) (st : Strand) (b : Binding) : Option Word :=
  match s.entries st b with
  | (c, w) :: _ => if c ≤ s.cycle then some w else none
  | [] => none

/-- Words written and not yet taken over: unsent words of a send side, which a broken one has discarded (R240), the FIFO of
the others. -/
def State.written (s : State) (st : Strand) (b : Binding) : Nat :=
  let l := s.logical st.pcore
  if b.kind = 0 then if (s.brokenBy st b).1 then 0 else b.words.length
  else if b.kind = 2 then
    ((s.lcore (neighbour l b.side)).fifo (!b.side)).length + s.heldWords false (neighbour l b.side) (!b.side)
  else if b.kind = 4 then ((s.pair b.num).map (·.words.length)).getD 0 + s.heldWords true b.num false
  else 0

def State.writable (s : State) (st : Strand) (b : Binding) : Bool := s.written st b < 8

/-- Places a word in a neighbour or pair FIFO, the pair by its number; it can be read 2 cycles or 1 cycle later (R236). -/
def State.placeWord (s : State) (pair : Bool) (n : Nat) (right : Bool) (w : Word) : State :=
  if pair then
    match s.pair n with
    | some p => if p.broken then s else s.setPair { p with words := p.words ++ [(s.cycle + 1, w)] }
    | none => s
  else s.modLCore n fun l => l.setFifo right (l.fifo right ++ [(s.cycle + 2, w)])

/-- A send side injects its words while it has credits, and asks for more (R239); a broken one discards its words
(R240). -/
def State.pump (s : State) (sk q : Nat) : State :=
  match s.strand sk with
  | none => s
  | some st =>
    match st.q q with
    | none => s
    | some b =>
      if b.kind ≠ 0 ∨ b.broken then s
      else if (s.brokenBy st b).1 then
        s.setStrand (st.setQ q { b with broken := true, dead := (s.brokenBy st b).2, words := [] })
      else
        let n := Nat.min b.credits b.words.length
        let dst := s.bindCore b
        let here := s.logical st.pcore
        let rest := b.words.drop n
        let ask := !rest.isEmpty && !b.asked
        let s := s.setStrand (st.setQ q { b with words := rest, credits := b.credits - n, asked := b.asked || ask })
        let s := (b.words.take n).foldl (fun s w =>
          s.requestOf st 2 (laneOf 1 here (coreNode dst)) .queueWord (.queueWord dst b.chan st.handle b.num w)) s
        if ask then
          s.requestOf st 2 (laneOf 0 here (coreNode dst)) .creditRequest (.creditRequest dst b.chan st.handle b.num rest.length)
        else s

/-- Entries of a receive side neither filled nor reserved. -/
def Binding.free (b : Binding) : Nat := 16 - b.words.length - (b.reserved.map (·.2.2)).foldl (· + ·) 0

/-- Reserves entries for a sender, by the number of its binding, or gives reserved ones back. -/
def reserve (l : List (Handle × Nat × Nat)) (h : Handle) (n k : Nat) : List (Handle × Nat × Nat) :=
  match l with
  | [] => [(h, n, k)]
  | (h', n', m) :: rest => if n' = n then (h, n, m + k) :: rest else (h', n', m) :: reserve rest h n k

def unreserve (l : List (Handle × Nat × Nat)) (n k : Nat) : List (Handle × Nat × Nat) :=
  (l.map fun e => if e.2.1 = n then (e.1, n, e.2.2 - k) else e).filter fun e => e.2.2 != 0

/-- A grant to the sender of a request, or the refusal NOCHAN. -/
def State.answerCredit (s : State) (fromCore : Nat) (h : Handle) (n k : Nat) (nochan : Bool) : State :=
  let sc := ((s.sender n).map (·.1.scope)).getD 0
  s.deliver sc (laneOf 0 fromCore (coreNode (s.senderCore h n))) .creditGrant (.creditGrant h n k nochan)

/-- A receive side that grants one entry to its oldest waiting request: what it then holds, and the sender. -/
def Binding.grantOne (b : Binding) : Option (Binding × Handle × Nat) :=
  match b.requests with
  | [] => none
  | (h, n, _) :: rest =>
    if b.free = 0 then none else some ({ b with requests := rest, reserved := reserve b.reserved h n 1 }, h, n)

/-- Grants one entry to the oldest waiting request of a receive side that has a free one (R239). -/
def State.grantWaiting (s : State) (sk q : Nat) : State :=
  match s.strand sk with
  | none => s
  | some st =>
    match (st.q q).bind Binding.grantOne with
    | none => s
    | some (b, h, n) => (s.setStrand (st.setQ q b)).answerCredit (s.logical st.pcore) h n 1 false

/-- The same at the kept receive side of a saved strand. -/
def State.grantSaved (s : State) (m q : Nat) : State :=
  match s.kiln.saves.find m with
  | none => s
  | some sv =>
    match (sv.st.q q).bind Binding.grantOne with
    | none => s
    | some (b, h, n) => (s.setSavedQ m sv q b).answerCredit sv.lcore h n 1 false

/-- A receive side without what it holds for a send binding: `k` entries and its request. -/
def Binding.forget (b : Binding) (n k : Nat) : Binding :=
  { b with reserved := unreserve b.reserved n k, requests := b.requests.filter fun e => e.2.1 != n }

/-- Does a receive side hold an entry or a request of a send binding? -/
def Binding.knows (b : Binding) (n : Nat) : Bool :=
  b.kind == 1 && (b.reserved.any (fun e => e.2.1 = n) || b.requests.any fun e => e.2.1 = n)

/-- Unused credits of a send binding go back to its receiver, with a request that waits there: to a strand or to the record of a saved one, which
grants them to others (R239, R271). R353 lists no packet that carries them: they are free at once (log entry 69). -/
def State.returnCredits (s : State) (n k : Nat) : State :=
  match s.strands.findSome? fun kv => (kv.2.queues.find? fun qb => qb.2.knows n).map fun qb => (kv.2, qb.1, qb.2) with
  | some (rt, rq, rb) => (List.range k).foldl (fun s _ => s.grantWaiting rt.sk rq) (s.setStrand (rt.setQ rq (rb.forget n k)))
  | none =>
    match s.kiln.saves.findSome? fun kv =>
        (kv.2.st.queues.find? fun qb => qb.2.knows n).map fun qb => (kv.1, kv.2, qb.1, qb.2) with
    | some (m, sv, rq, rb) => (List.range k).foldl (fun s _ => s.grantSaved m rq) (s.setSavedQ m sv rq (rb.forget n k))
    | none => s

/-- One side of a pair goes: the pair breaks, and is gone with its second side (R240). -/
def State.leavePair (s : State) (b : Binding) : State :=
  match s.pair b.num with
  | none => s
  | some p =>
    let p := if b.kind = 4 then { p with outB := false, broken := true } else { p with inB := false, broken := true }
    if p.outB || p.inB then s.setPair p else { s with pairs := s.pairs.filter fun x => x.num != p.num }

/-- Releases one binding (R240, R242, R271). -/
def State.unbind (s : State) (sk q : Nat) : State :=
  match s.strand sk with
  | none => s
  | some st =>
    match st.q q with
    | none => s
    | some b =>
      let s := s.setStrand (st.dropQ q)
      if b.kind = 0 then s.returnCredits b.num b.credits
      else if b.kind = 1 then
        b.requests.foldl (fun s e => s.answerCredit (s.logical st.pcore) e.1 e.2.1 0 true) s
      else if b.kind = 4 ∨ b.kind = 5 then s.leavePair b
      else s

/-- Breaks the send sides that name a core that is gone, with DEAD_PEER (R240). -/
def State.breakTo (s : State) (pcore : Nat) : State :=
  { s with strands := s.strands.map fun kv =>
      (kv.1, { kv.2 with queues := kv.2.queues.map fun qb =>
        if qb.2.kind = 0 ∧ qb.2.pdev = 0 ∧ handleSk qb.2.partner / 16 = pcore then
          (qb.1, { qb.2 with broken := true, dead := true, words := [] })
        else qb }) }

/-- The pairs of a strand that ends break, those it never bound too (R270). -/
def State.breakPairs (s : State) (h : Handle) : State :=
  { s with pairs := s.pairs.map fun p => if p.outH = h ∨ p.inH = h then { p with broken := true } else p }

end Sys2Proof.Machine
end

