-- ==== Sys2Proof/Machine/Life.lean ====
section
/-! DEFINITION. How strands are born, wait to be born, and end (R36, R254 to R259, R300, R304, R312, R313, R329); mailboxes
(R252 to R255); the barrier of a gang (R331, R406). -/

namespace Sys2Proof.Machine

/-! ### Messages and replies (R252, R277) -/

/-- The node that answers to a message go to. -/
def State.senderNode (s : State) (m : Msg) : Nat := coreNode (if m.fromCore < 512 then s.handleCore m.sender else m.fromCore)

/-- The device's core that an answer leaves for, if it is one of a peer. -/
def peerOf (core : Nat) : Option Nat := if core < 512 then none else some core

/-- Sends a reply to a SENDR. -/
def State.sendReply (s : State) (scope : ScopeId) (fromCore : Nat) (r : ReplyMsg) : State :=
  (s.deliver scope (laneOf 1 fromCore (coreNode (r.peer.getD (s.handleCore r.dest)))) .replyArrival (.reply r)).coneFlits
    (fromCore / 16) scope 1

/-- A reply that holds only a status. -/
def statusReply (sender : Handle) (sk n : Nat) (st : BitVec 8) : ReplyMsg :=
  { number := n, sk := sk, dest := sender, status := st, words := [] }

/-- The SENDR that an activation has not answered gets a status without words: NOREPLY, or DEAD (R255, R279). -/
def State.answerOwed (s : State) (st : Strand) (lcore : Nat) (status : BitVec 8) : State :=
  match st.act with
  | some { from_ := f, reply := some (h, sk, n), .. } =>
    s.sendReply st.scope lcore { statusReply h sk n status with peer := peerOf f }
  | _ => s

/-- Refuses a message: with its words and weight it goes back to its sender (R252). -/
def State.refuse (s : State) (m : Msg) (cause : BitVec 8) : State :=
  s.deliver m.scope (laneOf 1 m.lcore (s.senderNode m)) .refusal (.refused cause (.msg m))

/-- A message that is discarded returns its weight; a SENDR sender gets NOREPLY (R255, R306). -/
def State.discardMsg (s : State) (m : Msg) : State :=
  let s := s.returnWeight m.scope m.lcore 0 m.weight.toNat false false
  if m.wantReply then s.sendReply m.scope m.lcore { statusReply m.sender m.sk m.number 5 with peer := peerOf m.fromCore } else s

/-- An acknowledgement for core `c` of a peer device has this number and `c` in the place of a strand's key. -/
def peerSk : Nat := 2 ^ 20

/-- A message that is accepted is acknowledged to a SEND (R276). -/
def State.acceptMsg (s : State) (m : Msg) : State :=
  if m.wantReply then s
  else s.deliver m.scope (laneOf 0 m.lcore (s.senderNode m)) .acknowledgement
    (.answer (if m.fromCore < 512 then m.sk else peerSk + m.fromCore) m.sender m.number .done)

def State.handler (s : State) (lcore chan : Nat) : Handler := (s.lcore lcore).handlers.get {} chan
def State.setHandler (s : State) (lcore chan : Nat) (h : Handler) : State :=
  s.modLCore lcore fun l => { l with handlers := l.handlers.insert chan h }

/-! ### Birth -/

/-- A free slot of a core, the lowest (log entry 9). -/
def State.freeSlot (s : State) (pcore : Nat) : Option Nat :=
  (List.range 16).find? fun k => (s.strand (16 * pcore + k)).isNone

/-- The next generation of a slot (R55). -/
def nextGen (g : BitVec 18) : BitVec 18 := if g = 0x3FFFF then 1 else g + 1

/-- The image whose `.text` holds an address for a tenant, the last loaded first. -/
def State.imageAt (s : State) (tenant : BitVec 12) (pc : Nat) : Nat :=
  ((s.images.reverse.find? fun kv =>
    kv.2.tenant = tenant && kv.2.textbase ≤ pc && pc < kv.2.textbase + kv.2.size).map (·.1)).getD 0

/-- Puts a strand into a slot with a new generation, its spill area, whose token its scope holds (R175), its eight registers and its admission serial
(R36, R45, R54, R55, R313, R383). -/
def State.born (s : State) (sk : Nat) (st : Strand) : State :=
  let p := pcoreOf sk
  let gen := nextGen ((s.core p).gens.get 0 (slotOf sk))
  let ser := (s.core p).serials.get 0 st.scope.toNat + 1
  let base : Word := BitVec.ofNat 64 (3 * 2 ^ 50 + s.logical p * 2 ^ 23 + Config.spillStart + Config.spillSize * slotOf sk)
  let place := (s.freePlace p).getD 0
  let s := s.modCore p fun c =>
    { c with gens := c.gens.insert (slotOf sk) gen, serials := c.serials.insert st.scope.toNat ser }
  let st := { st with sk := sk, gen := gen, spillbase := base, groups := [(0, place)], serial := ser,
                      inQuantum := !s.isQuanta st.scope }
  let off := (base.extractLsb' 0 32).toNat
  let s := { s with tokens := s.tokens.filter fun t => !(t.reg.vault && t.reg.base / 2 ^ 14 == off / 2 ^ 14) }
  let s := (s.setStrand st).bankStates p
  if (s.scope st.scope).cancelled && !s.flagAt st.scope p then s.request st.scope 512 0 8 (cancelLane st.scope p) .cancelPacket (.scopeAt st.scope p)
  else s

/-- The registers x0, x1, ... of a new strand. -/
def birthStack (xs : List Word) (ds : BitVec 8) : Assoc RegEntry :=
  (List.range 8).foldl (fun l i =>
    Assoc.put {} l i { val := xs[i]?.getD 0, d := ds.getLsbD i }) []

/-- The strand that a context describes (R256, R36). Its registers have the D bits of the context, a spawned child's its
parent's (R325; log entry 67). -/
def ctxStrand (c : Ctx) : Strand :=
  { sk := 0, gen := 0, scope := c.scope, image := c.image, gang := c.gang, rank := c.rank, nrank := c.nrank
    pc := if c.pcEnd then 0x10000 else (evenPc c.pc).setWidth 17, stack := birthStack c.x c.dbits, preds := c.preds &&& 0xFE, retired := c.retired
    quantum := c.quantum, qpos := c.qpos, frm := c.frm, fflags := c.fflags, vfmt := c.vfmt, mfmt := c.mfmt
    rkey0 := c.rkey0, rkey1 := c.rkey1, weight := c.weight.toNat, prio := c.prio, node := c.node, cancelSeen := c.seen }

/-- Starts an activation for a message (R255). -/
def State.activate (s : State) (lcore sk : Nat) (h : Handler) (m : Msg) : State :=
  let tenant := h.tenant
  let s := s.setHandler lcore m.chan.toNat { h with active := some sk }
  let s := s.modScb m.scope fun b => { b with live := b.live + 1 }
  s.born sk
    { sk := sk, gen := 0, scope := m.scope, image := s.imageAt tenant h.pc.toNat, pc := (evenPc h.pc).setWidth 17
      stack := birthStack m.words 0, weight := m.weight.toNat, prio := h.prio, sender := m.sender, chan := m.chan
      act := some { lcore := lcore, chan := m.chan, from_ := m.fromCore
                    reply := if m.wantReply then some (m.sender, m.sk, m.number) else none } }

/-- Does a mailbox change now for a message of a scope: at any time, or for one of a QUANTA scope at the end of a quantum of
its domain (R404)? -/
def State.boxMoves (s : State) (dom : Option ScopeId) (scope : ScopeId) : Bool :=
  match dom with
  | some top => s.under top scope
  | none => !s.isQuanta scope

/-- Starts queued messages of a channel: cancelled ones are discarded, the first other starts when a slot is admissible
(R254, R255). `dom`: the domain whose quantum ends. -/
def State.startFrom (s : State) (lcore pcore chan : Nat) (dom : Option ScopeId) : List Msg → State
  | [] => s
  | m :: rest =>
    let h := s.handler lcore chan
    if !s.boxMoves dom m.scope then s
    else if (s.scope m.scope).cancelled then
      (((s.setHandler lcore chan { h with box := rest }).discardMsg m).workLeaves (lcore / 16)).startFrom lcore pcore chan dom rest
    else
      match s.freeSlot pcore with
      | some k => if s.freeEntries pcore < 64 ∨ (s.scope m.scope).saved then s
                  else s.activate lcore (16 * pcore + k) { h with box := rest } m
      | none => s

/-- A channel without an activation starts the head of its mailbox. -/
def State.startNext (s : State) (lcore chan : Nat) (dom : Option ScopeId := none) : State :=
  let h := s.handler lcore chan
  match s.physical lcore with
  | none => s
  | some p => if h.mask ∨ h.active.isSome ∨ (s.core p).stopped then s else s.startFrom lcore p chan dom h.box

/-- The outcome of a message at its core (R252): none when it is started, queued or discarded, else the cause. -/
def State.refusalCause (s : State) (m : Msg) : Option (BitVec 8) :=
  match (s.physical m.lcore).filter fun _ =>
      if 512 ≤ m.fromCore then s.isPaired (m.fromCore / 512) m.tenant else s.samePart (m.fromCore / 16) (m.lcore / 16) with
  | none => some 3
  | some p =>
    let h := s.handler m.lcore m.chan.toNat
    let admissible := (s.freeSlot p).isSome && 64 ≤ s.freeEntries p && !(s.scope m.scope).saved
    if h.depth = 0 ∨ h.tenant ≠ m.tenant ∨ s.received m.lcore m.chan then some 2
    else if s.flagAt m.scope p then none
    else if !h.mask && h.box.isEmpty && h.active.isNone && admissible then none
    else if h.box.length < h.depth.toNat then none
    else some 1

/-- A message is taken: it starts an activation, is queued, or is discarded because the cancel of its scope has reached
the core (R306). -/
def State.takeMsg (s : State) (m : Msg) : State :=
  match s.physical m.lcore with
  | none => s
  | some p =>
    let h := s.handler m.lcore m.chan.toNat
    let s := s.acceptMsg m
    if s.flagAt m.scope p then s.discardMsg m
    else if !h.mask && h.box.isEmpty && h.active.isNone && 64 ≤ s.freeEntries p && !(s.scope m.scope).saved then
      match s.freeSlot p with
      | some k => s.activate m.lcore (16 * p + k) h m
      | none => s.setHandler m.lcore m.chan.toNat { h with box := h.box ++ [m] }
    else s.setHandler m.lcore m.chan.toNat { h with box := h.box ++ [m] }

/-! ### Placement and arrival (R257, R312) -/

/-- The logical cores of a scope's launch in a cluster that the Wheel may use. -/
def State.wheelCores (s : State) (scope : ScopeId) (cluster : Nat) : List Nat :=
  ((List.range 16).map (16 * cluster + ·)).filter fun l =>
    (match s.launchOf scope with
     | some la => la.has l
     | none => true) && !s.isRetired l && (s.physical l).isSome

/-- Strands in slots and in the arrival queue of a logical core. -/
def State.load (s : State) (l : Nat) : Nat :=
  match s.physical l with
  | some p => (s.strands.filter fun kv => pcoreOf kv.1 = p).length + (s.core p).arrival.length
  | none => 0

/-- The Wheel's choice: the least loaded core, the lowest among equals. -/
def State.wheelChoice (s : State) (ls : List Nat) : Option Nat :=
  ls.foldl (fun best l => match best with
    | none => some l
    | some b => if s.load l < s.load b then some l else some b) none

/-- The cluster whose Wheel places a strand that names no core: the given one, or that of the launch's lowest core. -/
def State.wheelCluster (s : State) (scope : ScopeId) (cluster : Nat) : Nat :=
  match s.launchOf scope with
  | none => cluster
  | some la => if ((List.range 16).map (16 * cluster + ·)).any la.has then cluster else la.first / 16

/-- The bytes of a context (R256). -/
def ctxBytes (c : Ctx) : List Byte :=
  ((List.range 8).flatMap fun i => leBytes 8 (c.x[i]?.getD 0)) ++ [c.dbits, c.preds &&& 0xFE] ++ leBytes 2 c.pc
    ++ [c.kind, c.prio.setWidth 8, c.frm.setWidth 8, c.fflags.setWidth 8] ++ leBytes 4 c.weight
    ++ leBytes 4 (c.scope.setWidth 32) ++ leBytes 4 c.origin ++ leBytes 2 c.vfmt ++ leBytes 2 c.mfmt
    ++ leBytes 8 c.rkey0 ++ leBytes 8 c.rkey1 ++ leBytes 8 c.retired ++ leBytes 4 c.quantum ++ leBytes 2 c.qpos
    ++ List.replicate 10 0

/-- Sets a core's overflow area, and its bytes in the vault (R235, R257). -/
def State.setOverflow (s : State) (p : Nat) (l : List Ctx) : State :=
  let s := s.modCore p fun c => { c with overflow := l }
  (List.range l.length).foldl (fun s i =>
    match l[i]? with
    | some c => s.writeRaw (vaultKey p (0x7F8000 + 128 * i)) (ctxBytes c)
    | none => s) s

def scopeCount (l : List Ctx) (scope : ScopeId) : Nat := (l.filter fun c => c.scope = scope).length

/-- A context reaches the arrival queue of a core; false when its overflow area is full (R257). -/
def State.arrive (s : State) (p : Nat) (c : Ctx) : State × Bool :=
  let co := s.core p
  let depth := (s.scope c.scope).arrdepth.toNat
  if depth ≤ scopeCount co.arrival c.scope ∨ 64 ≤ co.arrival.length ∨ !co.overflow.isEmpty then
    if 256 ≤ co.overflow.length then (s, false) else (s.setOverflow p (co.overflow ++ [c]), true)
  else ((s.modCore p fun co => { co with arrival := co.arrival ++ [c] }).send 0 .admission (.n1 p), true)

/-- Is the context one that this moment may let in or move: of no QUANTA scope, of the domain whose quantum
ends (R402), or of one that has not begun (R393)? -/
def State.ofMoment (s : State) (dom : Option Nat) (c : Ctx) : Bool :=
  if s.isQuanta c.scope then
    let d := (s.domainOf c.scope).toNat
    dom = some d || (dom = none && !(s.domains.get {} d).started)
  else dom = none

/-- Moves the oldest overflow context whose scope is below its depth into the queue; a parity error of its words stops
the core (R257, R378). -/
def State.refillArrival (s : State) (p : Nat) (dom : Option Nat) : State :=
  let co := s.core p
  let fits (i : Nat) : Bool :=
    match co.overflow[i]? with
    | some c => s.ofMoment dom c && scopeCount co.arrival c.scope < (s.scope c.scope).arrdepth.toNat
    | none => false
  if 64 ≤ co.arrival.length then s
  else
    match (List.range co.overflow.length).find? fits with
    | none => s
    | some i =>
      match co.overflow[i]?, (wordsOf (vaultKey p (0x7F8000 + 128 * i)) 128).find? fun k => parityOf (s.err k) != 0 with
      | some _, some k =>
        (s.logEvent (.core p 0) (clusterOf p) 5 (BitVec.ofNat 48 ((k - Config.vaultBase) % Config.vaultSize))
          ((parityOf (s.err k)).setWidth 64 <<< 20) 0 0 0).modCore p fun c => { c with stopped := true }
      | some c, none =>
        let s := s.setOverflow p (co.overflow.eraseIdx i)
        (s.modCore p fun co => { co with arrival := co.arrival ++ [c] }).send 0 .admission (.n1 p)
      | none, _ => s

/-! ### Nodes (R288, R348) -/

/-- Entry of a node id: its key in the cluster's table. -/
def nodeCluster (id : Nat) : Nat := id / 256
def State.node (s : State) (id : Nat) : Node := (s.cluster (nodeCluster id)).nodes.get {} (id % 256)
def State.setNode (s : State) (id : Nat) (n : Node) : State :=
  s.modCluster (nodeCluster id) fun c => { c with nodes := c.nodes.insert (id % 256) n }

/-- A decrement that meets no node is ignored and counted (R288, R289). -/
def State.countIgnored (s : State) (cluster : Nat) : State := s.modCluster cluster fun c => { c with ignored := c.ignored + 1 }

/-- A node has ended: its decrements go to its successors, and its entry is free (R224, R288). -/
def State.nodeEnds (s : State) (id : Nat) : State :=
  let n := s.node id
  let decr (s : State) (succ : BitVec 16) : State :=
    if succ = 0xFFFF then s
    else if !s.samePart (nodeCluster id) (nodeCluster succ.toNat) then s.countIgnored (nodeCluster id)
    else s.request n.mscope 513 id 4 (laneOf 0 (unitNode (nodeCluster id) 9) (unitNode (nodeCluster succ.toNat) 9)) .predecessorDecrement
      (.decrement succ.toNat none 1)
  ((decr (decr s n.succ0) n.succ1).setNode id { n with state := .free }).workLeaves (nodeCluster id)

/-! ### Ending -/

/-- The barrier node that serves a gang: that of the cluster of its launch scope's home, rank 0's (R19, R293). -/
def barrierNode (scope : ScopeId) : Nat := unitNode (homeCluster scope) 10

/-- Members of a gang leave its barrier; the barrier completes among those that remain (R329, R331). -/
def State.releaseBarrier (s : State) (g : Nat) (ga : Gang) : State :=
  let s := { s with gangs := s.gangs.insert g { ga with gen := ga.gen + 1, arrived := ga.ahead, ahead := [] } }
  ga.members.foldl (fun s m =>
    match s.named m.2 with
    | some st => s.deliver st.scope (laneOf 0 (barrierNode ga.scope) (s.logical st.pcore)) .barrierRelease (.strand st.sk m.2 ga.gen)
    | none => s) s

def State.barrierCheck (s : State) (g : Nat) : State :=
  match s.gangs.find g with
  | none => s
  | some ga =>
    if !ga.members.isEmpty && !ga.arrived.isEmpty && ga.members.all fun m => ga.arrived.contains m.1 then
      s.releaseBarrier g ga
    else s

/-- A command in the inbox of an engine. -/
def State.cmd (s : State) (e n : Nat) : Option EngCmd := (s.engine e).inbox.find? fun c => c.number = n

/-- Has every rank joined the step of a COLL (R287)? A strand outside a gang forms a gang of one. -/
def State.collReady (s : State) (c : EngCmd) : Bool :=
  c.nrank == 1 || (match s.gangs.find c.gang.toNat with
    | some ga => (ga.steps.filter fun x => x.1 == c.step).length == ga.nrank
    | none => false)

def State.leaveGang (s : State) (g rank : Nat) : State :=
  match s.gangs.find g with
  | none => s
  | some ga =>
    let ga := { ga with members := ga.members.filter fun m => m.1 != rank, arrived := ga.arrived.filter (· != rank),
                        ahead := ga.ahead.filter (· != rank) }
    let s := { s with gangs := s.gangs.insert g ga }
    -- collective steps that the rank has not joined end with DEAD_PEER at the ranks that have (R287)
    let orphans := ga.steps.filter fun x => !(ga.steps.any fun y => y.1 = x.1 && y.2.1 = rank)
    let s := orphans.foldl (fun s x =>
      s.request x.2.2.scope 513 x.2.2.eng 3 0 .engineCommandEnd (.n3 x.2.2.eng x.2.2.number 8)) s
    s.barrierCheck g

/-- Frees the tiles of a strand; its operations stop (R51, R169). -/
def State.freeTiles (s : State) (sk : Nat) : State :=
  s.modCore (pcoreOf sk) fun c =>
    { c with
      tiles := c.tiles.map fun kv => if kv.2.holder = some sk then (kv.1, { kv.2 with holder := none }) else kv
      ops := c.ops.filter fun o => o.sk != sk }

/-- END from its token settlement on (R329 steps 2 to 7); `dying`: the default action of R304, which parks owned tokens. -/
def State.endStrand (s : State) (st : Strand) : State :=
  let l := s.logical st.pcore
  let s := s.returnTokens st
  let s := if st.dying then s.parkTokens st else s
  let s := s.answerOwed st l 5
  let s := (st.queues.map (·.1)).foldl (fun s q => s.unbind st.sk q) s
  let s := s.breakPairs st.handle
  let s := s.freeTiles st.sk
  let s := if st.nrank = 1 then s else s.leaveGang st.gang.toNat st.rank.toNat
  let s := s.returnWeight st.scope l st.serial st.weight false true
  let s := match st.node with
    | some id => s.nodeEnds id
    | none => s
  let s := ((s.dropStrand st.sk).bankStates st.pcore).workLeaves st.cluster
  let s := match st.act with
    | some a =>
      let h := s.handler a.lcore a.chan.toNat
      let s := s.setHandler a.lcore a.chan.toNat { h with active := none, back := [] }
      let s := s.returnChannel a.lcore a.chan st.scope h.back
      s.startNext a.lcore a.chan.toNat
    | none => s
  s.send 0 .admission (.n1 st.pcore)

/-- A member that has not started is discarded: its weight and its place among the live strands return (R304). -/
def State.discardCtx (s : State) (l : Nat) (c : Ctx) (lost : Bool) : State :=
  let s := s.returnWeight c.scope l 0 c.weight.toNat lost true
  let s := if c.nrank = 1 then s else s.leaveGang c.gang.toNat c.rank.toNat
  match c.node with
  | some id => s.nodeEnds id
  | none => s

/-! ### The default action (R304, R309) -/

/-- The opener's stock of an open scope returns, once; the scope is then DRAINING (R297). -/
def State.returnStock (s : State) (st : Strand) (lost : Bool) : State :=
  match st.opens with
  | [] => s
  | r :: rest =>
    if r.returned then s
    else
      let s := s.setStrand { st with opens := { r with returned := true, stock := 0 } :: rest }
      let s := s.modScb r.scope fun b => { b with state := .draining }
      s.request r.scope (s.logical st.pcore) st.serial 2 (laneOf 0 (s.logical st.pcore) (homeNode r.scope))
        .weightReturn (.weight r.scope r.stock lost false)

/-- The open scopes of a strand, innermost first, whose close completed while it was saved are off its stack (R334). -/
def State.popKept (s : State) (st : Strand) : State × Strand :=
  let done (r : OpenRec) : Bool := r.returned && s.kept.any fun x => x.1 == r.num
  let gone := st.opens.takeWhile done
  let st := { st with opens := st.opens.dropWhile done }
  (({ s with kept := s.kept.filter fun x => !gone.any fun r => r.num == x.1 }).setStrand st, st)

/-- A strand that ends by the default action goes on: it waits for its accesses, closes its open scopes innermost first,
and ends. -/
def State.dieOn (s : State) (sk : Nat) : State :=
  match s.strand sk with
  | none => s
  | some st =>
    if !st.pend.isEmpty then s.setStrand { st with wait := .drain }
    else if s.transferring sk then s.setStrand { st with wait := .transfer }
    else
      let (s, st) := s.popKept st
      match st.opens with
      | _ :: _ => (s.setStrand { st with wait := .closing }).returnStock { st with wait := .closing } false
      | [] => s.endStrand st

def State.die (s : State) (sk : Nat) : State :=
  (s.modStrand sk fun st => { st with dying := true, answer := none, raised := none, late := [] }).dieOn sk

/-! ### Observing a cancellation (R303) -/

/-- The site under which the observation of a cancellation is logged (R387; log entry 10). -/
def State.cancelSite (s : State) (st : Strand) : Word := BitVec.ofNat 64 (64 * s.logical st.pcore)

/-- Would a cancellation point of the strand observe now? In REPLAY the log names the point (R388). -/
def State.observes (s : State) (st : Strand) : Bool :=
  !st.cancelSeen && !st.saggar &&
    (if s.dmode st.scope = 2 then
      (List.range (s.scope st.scope).loglen.toNat).any fun n =>
        (s.logged st.scope 7 (s.cancelSite st) n).map (·.2) == some (st.retired.setWidth 32)
     else s.flagAt st.scope st.pcore)

/-! ### Admission (R313) -/

/-- Does a context meet the conditions of R313 but that of CORELIM? -/
def State.admissible (s : State) (p : Nat) (c : Ctx) : Bool :=
  (s.freeSlot p).isSome && Nat.max 64 (s.scope c.scope).declreg.toNat ≤ s.freeEntries p && !(s.scope c.scope).saved
    && (match c.restore.bind s.kiln.saves.find with
        | some sv => sv.tiles.all fun t => ((s.core p).tiles.get {} t.1).holder.isNone
        | none => true)

def State.coreRoom (s : State) (p : Nat) (c : Ctx) : Bool :=
  let lim := (s.scope c.scope).corelim.toNat
  (s.strands.filter fun kv => pcoreOf kv.1 = p && kv.2.scope = c.scope).length < (if lim = 0 then 16 else lim)

/-- Picks the context to let in: the oldest of the queue that only CORELIM does not stop; from an empty queue, the
bottom (the last) of the deque (R258, R313). -/
def State.pickFrom (s : State) (p : Nat) (dom : Option Nat) : List Ctx → Nat → Option (Ctx × Nat)
  | [], _ => none
  | c :: rest, i =>
    if !s.ofMoment dom c then s.pickFrom p dom rest (i + 1)
    else if !s.admissible p c then none
    else if s.coreRoom p c then some (c, i) else s.pickFrom p dom rest (i + 1)

/-- The places of the store for groups of a strand, and its links in the spill area beyond the newest 16 (R43, R46). -/
def State.settleStore (s : State) (st : Strand) : State :=
  let all := groupsOf 0 (st.w + st.s)
  let window := groupsOf st.w (st.w + st.s)
  let low := all.filter fun g => !window.contains g
  let s := low.foldl (fun s g => s.spillGroup st g) s
  let s := s.setStrand { st with
    groups := [], spilled := low, linkSpilled := st.links.length - 16, links := st.links.take 16
    stack := st.stack.filter fun kv => !low.contains (kv.1 / 8) }
  let s := window.foldl (fun s g =>
    match s.freePlace st.pcore with
    | some place => s.modStrand st.sk fun x => { x with groups := x.groups.insert g place }
    | none => s) s
  let old := (st.links.drop 16).reverse
  (List.range old.length).foldl (fun s i =>
    s.writeRaw (s.spillKey st + 0x2100 + 8 * i) (leBytes 8 ((old[i]?.getD ⟨false, 0, 0, 0⟩).word))) s

/-- The lines of every region that a strand owns, borrows or shares are invalidated in its core (R218). -/
def State.acquireHeld (s : State) (h : Handle) : State :=
  let p := strandParty h
  s.tokens.foldl (fun (s : State) (t : Token) =>
    if t.owner = p ∨ t.borrowers.contains p ∨ t.shares.contains p then s.acquireLines p t.reg t.pasid else s) s

/-- The kept send bindings of a restored strand use the credits granted meanwhile (R242). -/
def State.resumeQueues (s : State) (st : Strand) : State :=
  st.queues.foldl (fun s qb =>
    if qb.2.kind = 0 then s.pump st.sk qb.1 else s) s

/-- A saved strand takes its new slot: its record's state, its tiles and operations, the tokens it had parked, and its new
handle wherever its old one stood for it (R51, R168, R318, R319). -/
def State.install (s : State) (sk : Nat) (born : Strand) (sv : Saved) : State :=
  let old := sv.st.handle
  let st : Strand := { sv.st with
    sk := sk, gen := born.gen, spillbase := born.spillbase, serial := born.serial, inQuantum := born.inQuantum
    preempt := none, wait := .none, answer := none, backoff := 0, barWait := none, remoteCount := 0, pauseTo := 0, moves := []
    pageAns := none, atsAns := none, cut := none }
  let s := s.settleStore st
  let p := pcoreOf sk
  let ops := (List.range sv.ops.length).filterMap fun i => sv.ops[i]?.map fun (o : TileOp) => { o with sk := sk, number := s.fresh + i }
  let s := { s with fresh := s.fresh + ops.length }
  let s := s.modCore p fun c => { c with
    tiles := sv.tiles.foldl (fun ts t => ts.insert t.1 { t.2 with holder := some sk }) c.tiles, ops := c.ops ++ ops }
  let s := ops.foldl (fun s o => s.after 1 .matrixStep (.n2 p o.number)) s
  let s := match st.act with
    | some a =>
      let h := s.handler a.lcore a.chan.toNat
      s.setHandler a.lcore a.chan.toNat { h with active := some sk }
    | none => s
  let opener (b : Scb) : Scb := if b.opener = old ∧ old ≠ 0 then { b with opener := st.handle, openerSk := sk } else b
  let own (t : Token) : Token :=
    if sv.parked.contains (t.region, t.pasid) ∧ t.owner = scopeParty st.scope then { t with owner := strandParty st.handle } else t
  let pair (x : Pair) : Pair :=
    { x with outH := if x.outH = old then st.handle else x.outH, inH := if x.inH = old then st.handle else x.inH }
  let bind (b : Binding) : Binding := if (b.kind = 4 ∨ b.kind = 5) ∧ b.partner = old then { b with partner := st.handle } else b
  let strand (x : Strand) : Strand := { x with queues := x.queues.map fun qb => (qb.1, bind qb.2) }
  let scopes := s.scopes.map fun kv => (kv.1, opener kv.2)
  let strands := s.strands.map fun kv => (kv.1, strand kv.2)
  let s := ({ s with scopes := scopes, tokens := s.tokens.map own, pairs := s.pairs.map pair, strands := strands }).acquireHeld st.handle
  (if st.dying then s.dieOn sk else s.resumeQueues st).bankStates p

/-- Tokens follow their strand to its new handle, those whose grant is on its way too (R218). -/
def State.moveTokens (s : State) (oldH newH : Handle) : State :=
  let old := strandParty oldH
  let new := strandParty newH
  let sub (p : Party) : Party := if p = old then new else p
  let move (t : Token) : Token :=
    { t with owner := sub t.owner, borrowers := t.borrowers.map sub, shares := t.shares.map sub,
             coming := t.coming.map sub, leaving := t.leaving.map sub, orphan := t.orphan.map fun o => (o.1, sub o.2) }
  let arg (a : Payload) : Payload := match a with
    | .grant g => .grant { g with giver := sub g.giver, receiver := sub g.receiver }
    | a => a
  let event (p : Pending) : Pending := { p with arg := arg p.arg }
  let domain (d : Domain) : Domain := { d with held := d.held.map fun x => (x.1, arg x.2) }
  let domains := s.domains.map fun kv => (kv.1, domain kv.2)
  ({ s with tokens := s.tokens.map move, agenda := s.agenda.map event, domains := domains }).acquireHeld newH

/-- A migrated strand of a cancelled scope takes the action of R304 as its first step, whether the flag has reached its core
or not. -/
def State.cancelArrived (s : State) (sk : Nat) : State :=
  match s.strand sk with
  | none => s
  | some st =>
    if (s.observes st || (s.dmode st.scope ≠ 2 && (s.scope st.scope).cancelled && !st.cancelSeen && !st.saggar)) && !st.dying then
      let s := if s.dmode st.scope = 1 then s.logChoice st.scope 7 0 (s.cancelSite st) (st.retired.setWidth 32) else s
      s.modStrand sk fun st => { st with late := st.late ++ [{ code := .cancel, aux := some (st.scope.setWidth 64) }] }
    else s

/-- Starts the strand of a context in a slot. A gang's barrier and a node learn its new handle. -/
def State.startCtx (s : State) (sk : Nat) (c : Ctx) : State :=
  let s := s.born sk (ctxStrand c)
  match s.strand sk with
  | none => s
  | some st =>
    let rename (ga : Gang) : Gang :=
      { ga with members := ga.members.map fun m => if m.1 = st.rank.toNat then (m.1, st.handle) else m }
    let s := if st.nrank = 1 then s
      else { s with gangs := s.gangs.map fun kv => if kv.1 = st.gang.toNat then (kv.1, rename kv.2) else kv }
    let s := if c.kind = 1 ∧ c.origin ≠ 0 then s.moveTokens c.origin st.handle else s
    let s := match c.restore with
      | some n =>
        match s.kiln.saves.find n with
        | some sv => (s.install sk st sv).modKiln fun k => { k with saves := k.saves.erase n }
        | none => s
      | none => s
    if c.kind = 1 then s.cancelArrived sk else s

/-- A context has left the queue: 20 cycles later the next of the overflow area moves (R257); at a quantum's end the move is
a step of that end (R402), but for the contexts that are no part of it. -/
def State.refillLater (s : State) (p : Nat) (dom : Option Nat) : State :=
  if dom.isSome && !(s.core p).overflow.any (s.ofMoment none) then s else s.after 20 .overflowRefill (.n1 p)

/-- Admits contexts while one can be (R313); a context of a cancelled scope is discarded, a migrating one admitted. -/
def State.letIn (s : State) (p : Nat) (dom : Option Nat) : Nat → State
  | 0 => s
  | n + 1 =>
    let co := s.core p
    let gone (c : Ctx) : Bool := c.kind != 1 && (s.flagAt c.scope p || (s.scope c.scope).cancelled)
    match co.arrival.find? fun c => s.ofMoment dom c && gone c with
    | some c =>
      let s := s.modCore p fun co => { co with arrival := co.arrival.erase c }
      let s := ((s.discardCtx (s.logical p) c false).workLeaves (clusterOf p)).refillLater p dom
      s.letIn p dom n
    | none =>
      match co.deque.find? fun c => s.ofMoment dom c && gone c with
      | some c =>
        let s := s.modCore p fun co => { co with deque := co.deque.erase c }
        ((s.discardCtx (s.logical p) c false).workLeaves (clusterOf p)).letIn p dom n
      | none =>
        if co.stopped then s
        else match s.freeSlot p with
          | none => s
          | some k =>
            match s.pickFrom p dom co.arrival 0 with
            | some (c, i) =>
              let s := s.modCore p fun co => { co with arrival := co.arrival.eraseIdx i }
              let s := (s.startCtx (16 * p + k) c).refillLater p dom
              s.letIn p dom n
            | none =>
              if !co.arrival.isEmpty then s
              else match s.pickFrom p dom co.deque.reverse 0 with
                | some (c, i) =>
                  let s := s.modCore p fun co => { co with deque := co.deque.eraseIdx (co.deque.length - 1 - i) }
                  (s.startCtx (16 * p + k) c).letIn p dom n
                | none => s

end Sys2Proof.Machine
end

