-- ==== Sys2Proof/Machine/Registers.lean ====
section
/-! DEFINITION. The device registers of the IO path (R342, R343): handler tables, error logs and injection registers (R193,
R194), node tables, routing words, health monitors (R391), partition and peer tables (R351, R369). -/

namespace Sys2Proof.Machine

/-! ### Error injection (R194) -/

/-- Flips bits of memory and with them the difference to the check words. `bits` count from `key`. -/
def State.flipBits (s : State) (key : Nat) (bits : List Nat) : State :=
  bits.foldl (fun s b =>
    let k := key + b / 8
    let w := wordKey k
    let s := s.setByte k (s.byte k ^^^ (1#8 <<< (b % 8)))
    s.setErr w (s.err w ^^^ (1#64 <<< (8 * (k - w) + b % 8)))) s

/-- The bits that an injection names within a unit of `n` bits: whole bytes of a sector, bits of a word. -/
def injectBits (mode pos n : Nat) (sector : Bool) : List Nat :=
  ((List.range (if mode = 0 then 1 else if sector then 40 else 2)).map fun i =>
    (if mode != 0 && sector then 8 * pos else pos) + i).filter (· < n)

/-- Is a sector in an integrity region (R189), or was a line of L0 filled from one? -/
def State.integAt (s : State) (key : Nat) : Bool :=
  ((s.regionAt key).map (·.integ)).getD false
    || s.cores.any fun kc => match kc.2.lines.find key with
      | some l => l.integ
      | none => false

/-- Flips bits of the entry at a place of a core's register store. -/
def State.flipReg (s : State) (pcore entry : Nat) (m : Word) : State :=
  { s with strands := s.strands.map fun (kv : Nat × Strand) =>
      match kv.2.groups.find? fun g => pcoreOf kv.1 = pcore && g.2 = entry / 8 with
      | some g =>
        let pos := 8 * g.1 + entry % 8
        let e := kv.2.stack.get {} pos
        (kv.1, { kv.2 with stack := kv.2.stack.put {} pos { e with flip := e.flip ^^^ m } })
      | none => kv }

/-- Flips bits of a word of a core's vector file; an ADDR beyond it wraps (R194; log entry 12). -/
def State.flipVec (s : State) (pcore word : Nat) (m : Word) : State :=
  s.modStrand (16 * pcore + word / 128 % 16) fun st =>
    let v := word / 8 % 16
    let r := st.vregs.get {} v
    if st.vset then { st with vregs := st.vregs.put {} v { r with flip := r.flip ^^^ (m.setWidth 512 <<< (64 * (word % 8))) } }
    else st

/-- Flips bits of a word of a core's accumulator tiles; an ADDR beyond them wraps (R194; log entry 12). -/
def State.flipTile (s : State) (pcore word : Nat) (m : Word) : State :=
  s.modCore pcore fun c =>
    let t := word / 128 % 8
    let x := c.tiles.get {} t
    { c with tiles := c.tiles.insert t { x with flip := x.flip.put 0 (word % 128) (x.flip.get 0 (word % 128) ^^^ m) } }

/-- Performs an injection in an array: a unit's sectors, or vault, L0, instruction store, registers, vectors, tiles of a
core in this order. The flipped bits of a SECDED array are met by its next read (log entry 12). -/
def State.inject (s : State) (a : LogArray) (v : Word) : State :=
  let mode := (v.extractLsb' 60 3).toNat
  let pos := (v.extractLsb' 48 12).toNat
  let addr := (v.extractLsb' 0 48).toNat
  if !v.msb ∨ 3 ≤ mode then s
  else
    match a with
    | .unit u =>
      let k := blockKey addr
      if k < Config.windowSize && unitOf k = u then
        if mode = 2 then
          if s.integAt k then
            { s with badTags := if s.badTags.contains k then s.badTags.filter (· != k) else k :: s.badTags }
          else s
        else s.flipBits k (injectBits mode pos 512 true)
      else s
    | .core p ar =>
      let bits := injectBits mode pos 64 false
      let m : Word := bits.foldl (fun m b => m ^^^ (1#64 <<< b)) 0
      if mode = 2 then s
      else match ar with
        | 0 => if addr < Config.vaultSize then s.flipBits (wordKey (vaultKey p addr)) bits else s
        | 1 =>
          match (s.core p).lines.find? fun l => l.2.place = addr / 64 with
          | some (k, l) =>
            let m : Block := bits.foldl (fun m b => m ^^^ (1#512 <<< (64 * (addr % 64 / 8) + b))) 0
            s.setLine p k { l with data := l.data ^^^ m, diff := l.diff ^^^ m }
          | none => s
        | 2 => if addr < Config.istoreSize then s.flipBits (wordKey (istoreKey p addr)) bits else s
        | 3 => s.flipReg p (addr / 8) m
        | 4 => s.flipVec p (addr / 8) m
        | _ => s.flipTile p (addr / 8) m

/-! ### Tables as words -/

/-- Handler-table entry (R349). -/
def Handler.word0 (h : Handler) : Word :=
  h.pc ++ h.prio ++ h.depth ++ BitVec.ofBool h.mask ++ BitVec.ofNat 5 h.box.length ++ BitVec.ofBool h.active.isSome
    ++ h.tenant ++ 0#20

def nodeStateCode : NodeState → BitVec 3
  | .free => 0
  | .waiting => 1
  | .running => 2
  | .sending => 3

/-- Word `i` of a node-table entry (R347). -/
def Node.word (n : Node) (i : Nat) : Word :=
  match i with
  | 0 => n.gen ++ nodeStateCode n.state ++ n.op ++ n.fscope ++ BitVec.ofNat 8 n.pred ++ 0#7 ++ n.mscope
  | 1 => n.succ1 ++ n.succ0 ++ n.creator
  | 2 => BitVec.ofNat 64 (n.weight % 2 ^ 32)
  | _ => if i < 8 then 0 else n.blk[i - 8]?.getD 0

/-- A health-monitor word (R391). -/
def State.healthWord (s : State) (p : Nat) : Word :=
  let c := s.core p
  BitVec.ofBool c.dead ++ BitVec.ofBool (s.isRetired (16 * clusterOf p + posOf p) && posOf p < 16) ++ c.missed ++ 0#5
    ++ BitVec.ofNat 5 (s.lpos p) ++ 0#18 ++ c.sent

def LogEntry.word (e : LogEntry) (i : Nat) : Word :=
  match i with
  | 0 => e.w0
  | 1 => e.w1
  | 2 => e.w2
  | _ => e.w3

/-! ### The map (R342) -/

def Cluster.count (c : Cluster) (n : Nat) : Word :=
  match n with
  | 0 => c.corr
  | 1 => c.uncorr
  | 2 => c.retry
  | 3 => c.discard
  | 4 => c.ignored
  | 5 => c.dropped
  | _ => c.sentcl

def Cluster.setCount (c : Cluster) (n : Nat) (v : Word) : Cluster :=
  match n with
  | 0 => { c with corr := v }
  | 1 => { c with uncorr := v }
  | 2 => { c with retry := v }
  | 3 => { c with discard := v }
  | 4 => { c with ignored := v }
  | 5 => { c with dropped := v }
  | _ => { c with sentcl := v }

/-- The injection register of an array as last written, ARM reading 0. -/
def State.injectReg (s : State) (a : LogArray) : Word :=
  match a with
  | .unit u => s.unitInject.get 0 u
  | .core p ar => (s.core p).inject.get 0 ar

def State.setInjectReg (s : State) (a : LogArray) (v : Word) : State :=
  match a with
  | .unit u => { s with unitInject := s.unitInject.put 0 u v }
  | .core p ar => s.modCore p fun c => { c with inject := c.inject.put 0 ar v }

def State.readReg (s : State) (r : IoReg) : Word :=
  match r with
  | .handler l c w => if w = 0 then (s.handler l c).word0 else (s.handler l c).scratch
  | .log a e w => (s.logs a e).word w
  | .inject a => s.injectReg a
  | .node c e w => ((s.cluster c).nodes.get {} e).word w
  | .routing c => 0#56 ++ (s.cluster c).intermask ++ (s.cluster c).linken
  | .tokenCtl c => (s.cluster c).tokenCtl
  | .health p => s.healthWord p
  | .count c n => (s.cluster c).count n
  | .partition q => 0#56 ++ (s.parts.get (0, 0) q).1 ++ 0#4 ++ (s.parts.get (0, 0) q).2
  | .peer n w =>
    let e := s.peers.get (0, 0, 0) n
    if w = 0 then 0#48 ++ e.1 ++ 0#2 ++ e.2.1 else e.2.2

/-- An arming write (R194): the register keeps what was written, ARM reads 0. A reserved MODE is ignored. -/
def State.writeInject (s : State) (a : LogArray) (v : Word) : State :=
  if 3 ≤ (v.extractLsb' 60 3).toNat then s
  else (s.inject a v).setInjectReg a (v &&& 0x7FFFFFFFFFFFFFFF)

/-- W1C bits of a log entry (R193). -/
def State.clearLog (s : State) (a : LogArray) (e : Nat) (v : Word) : State :=
  let x := s.logs a e
  s.setLog a e { x with w0 := x.w0 &&& ~~~(v &&& 0xC000000000000000) }

/-- A store; none where no field is PRIV or W1C (R343). -/
def State.writeReg (s : State) (r : IoReg) (v : Word) : Option State :=
  match r with
  | .log a e 0 => some (s.clearLog a e v)
  | .inject a => some (s.writeInject a v)
  | .count c n => some (s.modCluster c fun cl => cl.setCount n v)
  | .peer n 1 =>
    let e := s.peers.get (0, 0, 0) n
    some { s with peers := s.peers.put (0, 0, 0) n (e.1, e.2.1, v) }
  | _ => none

/-! ### Events -/

/-- REGISTER_WRITE (R343): the Kiln's write of a register; only PRIV and W1C fields take it. -/
def execRegisterWrite (s : State) : Out :=
  match s.arg with
  | .word off v =>
    match ioReg off with
    | some (r, _) => .next ((s.writeReg r v).getD s)
    | none => .next s
  | _ => .next s

/-- ERROR_INJECTION (R194): a write to an injection register, named by its IO offset. -/
def execErrorInjection (s : State) : Out :=
  match s.arg with
  | .word off v =>
    match ioReg off with
    | some (.inject a, _) => .next (s.writeInject a v)
    | _ => .next s
  | _ => .next s

/-- LOG_ENTRY_CLEAR (R193). -/
def execLogEntryClear (s : State) : Out :=
  match s.arg with
  | .word off v =>
    match ioReg off with
    | some (.log a e 0, _) => .next (s.clearLog a e v)
    | _ => .next s
  | _ => .next s

end Sys2Proof.Machine
end

