-- ==== Sys2Proof/Machine/Ops.lean ====
section
/-! DEFINITION. The shared operations behind every instruction: retirement (R10, R131, R392), idempotent regions (R185,
R186), taking a trap and its default action (R308, R309), cancellation points (R303), and the runners that give an
instruction its guard, its faults and its waits. -/

namespace Sys2Proof.Machine

open Host (Outcome)

/-! ### Fault codes (R310) -/

def faultCode : FaultName → BitVec 8
  | .illegal => 0x01
  | .priv => 0x02
  | .align => 0x03
  | .path => 0x04
  | .xlate => 0x05
  | .tokenAbsent => 0x06
  | .tokenReadonly => 0x07
  | .poisoned => 0x08
  | .sealedWrite => 0x09
  | .deferred => 0x0A
  | .stackLimit => 0x0B
  | .accHeld => 0x0C
  | .matrix => 0x0D
  | .queueUnbound => 0x0E
  | .scopeState => 0x0F
  | .cancel => 0x10
  | .tokensHeld => 0x11
  | .brk => 0x12
  | .dataUe => 0x13
  | .integrity => 0x14
  | .vaultParity => 0x15
  | .truncated => 0x16
  | .deadPeer => 0x17
  | .format => 0x18
  | .determinism => 0x19
  | .spawnLimit => 0x1A
  | .migrateDenied => 0x1B
  | .fetch => 0x1C
  | .regUe => 0x1D
  | .regUnallocated => 0x1E

/-! ### Operations and transfers under way -/

/-- The tiles of a group (R156). -/
def groupTiles (h : BitVec 2) (f : BitVec 3) : List Nat :=
  (List.range (match h.toNat with
    | 0 => 1
    | 3 => 4
    | _ => 2)).map (f.toNat + ·)

def TileOp.tiles (o : TileOp) : List Nat := groupTiles o.shape o.first
def TileOp.meets (o : TileOp) (ts : List Nat) : Bool := o.tiles.any ts.contains

/-- The operations before one of a core's operations, on tiles of its own. -/
def Core.earlier (c : Core) (o : TileOp) : List TileOp :=
  (c.ops.takeWhile fun x => x.number != o.number).filter (·.meets o.tiles)

/-- Has a strand an operation that will go on by itself: one that runs, and does not stand behind a suspended one? -/
def Core.moving (c : Core) (sk : Nat) : Bool :=
  c.ops.any fun o => o.sk == sk && o.state == .running && (c.earlier o).all fun x => x.state == .running

/-! ### Sync-cell operations that leave the core (R202, R203) -/

/-- Does an operation only read? -/
def cellReads (op : BitVec 4) : Bool := op == 0 || op == 12 || op == 13

/-- EWTs of a QUANTA scope that wait at the home of a cell, when their domain's quantum ends: those that find DONE have their
answer, which the next quantum takes (R397). -/
def State.answerWords (s : State) (here : Nat → Bool) : State :=
  let one (st : Strand) : Strand :=
    match st.wait with
    | .word key true =>
      if here key && s.isQuanta st.scope && (s.domains.get {} (s.domainOf st.scope).toNat).ending && (s.word key).msb then
        { st with wait := .none, answer := some (.value (s.word key)) }
      else st
    | _ => st
  { s with strands := s.strands.map fun kv => (kv.1, one kv.2) }

/-- A sync-cell operation leaves the core (R202): it is outstanding until it is performed, and pends until its reply. One
qualified `.rel` or `.ar` waits for the strand's earlier accesses (R203). -/
def State.sendCell (s : State) (sk : Nat) (op : BitVec 4) (ord : BitVec 2) (va : Word) (key : Nat) (val : Word)
    (dst : Option Nat) : State :=
  match s.strand sk with
  | none => s
  | some st =>
    let n := s.fresh
    let r : SyncReq :=
      { number := n, sk := sk, handle := st.handle, lcore := s.logical st.pcore, pasid := (s.scope st.scope).pasid, va := va, key := key
        op := op, ord := ord, val := val, cmp := st.ox0, dst := dst, scope := st.scope, retired := st.retired }
    let pd : PendSync :=
      { number := n, dst := dst, key := key, acq := ord.getLsbD 0, reads := op != 1, writes := !cellReads op }
    let s := { s with fresh := n + 1, outst := n :: s.outst }
    (s.setStrand { st with pend := st.pend ++ [pd] }).requestOf st 2 (laneOf 1 r.lcore (memoryNode key))
      .syncCellOperation (.syncReq r) (if ord.getLsbD 1 then st.accesses else [])

/-! ### Idempotent regions (R185) -/

/-- Performs one held store, in memory or in a device register. -/
def State.performStore (s : State) (st : Strand) (h : HeldStore) : State :=
  if Config.ioBase ≤ h.key then
    match s.ioAccess st.cluster (h.key - Config.ioBase) h.va true with
    | .ok r => (s.writeReg r (wordOf h.bytes)).getD s
    | .error _ => s
  else
  let who := s.who st
  let vault := isVault h.key
  let t? := s.covering who.pasid vault (h.va.extractLsb' 0 50).toNat
  let c0 : Ctx0 := ⟨who.ctx, who.pasid, (t?.map (·.keyid)).getD 0, (t?.map (·.integ)).getD false, h.va⟩
  let p : Place := { at_ := if vault then .vaultAt h.key else .lineOf h.key, va := h.va, c0 := c0 }
  ((storeAt who p h.bytes h.desc).go s).2

/-- Performs held stores in program order (R185, R233). One on SYNC becomes an SST.rlx (R197), and those after it wait until
it is performed. -/
def State.commitFrom (s : State) (st : Strand) : List HeldStore → State
  | [] => s
  | h :: rest =>
    if h.key < Config.ioBase ∧ h.va.extractLsb' 50 4 = 2 then
      let n := s.fresh
      let s := s.sendCell st.sk 1 0 h.va h.key (wordOf h.bytes) none
      if rest.isEmpty then s else s.modStrand st.sk fun st => { st with commit := some (n, rest) }
    else (s.performStore st h).commitFrom st rest

/-- Commits the region a strand is inside, if any. -/
def State.commitIdem (s : State) (st : Strand) : State :=
  match st.idem with
  | none => s
  | some r => (s.modStrand st.sk fun st => { st with idem := none }).commitFrom st r.stores

/-- A store to a sync cell has been performed: the commit that waits for it goes on. -/
def State.commitGoes (s : State) (sk n : Nat) : State :=
  match s.strand sk with
  | none => s
  | some st => match st.commit with
    | some (m, rest) => if m = n then (s.setStrand { st with commit := none }).commitFrom { st with commit := none } rest else s
    | none => s

/-- A strand at the START of a region of its image goes inside. -/
def State.enterIdem (s : State) (st : Strand) : Strand :=
  match s.images.find st.image with
  | none => st
  | some im =>
    match im.regions.find? fun r => r.1.setWidth 17 = st.pc with
    | some (a, b) => if st.idem.isSome then st else { st with idem := some { start := a, stop := b } }
    | none => st

/-- Sets a strand; a pc outside the region it is inside commits it. -/
def State.leaveIdem (s : State) (st : Strand) : State :=
  match st.idem with
  | none => s.setStrand st
  | some r =>
    if r.start.setWidth 17 ≤ st.pc ∧ st.pc < r.stop.setWidth 17 then s.setStrand st
    else (s.setStrand st).commitIdem st

/-! ### Retirement -/

/-- The counts of one retired instruction: sw.retired, its class counter, the instruction count of R316; QPOS counts in
QUANTA scopes (R382). A PRI response has been met by now, but in a region, which its abort runs again (R186). -/
def Strand.counted (st : Strand) (cls : Nat) (quanta : Bool) : Strand :=
  { st with
    retired := st.retired + 1
    perf := st.perf.insert cls (st.perf.get 0 cls + 1)
    qpos := if quanta then st.qpos + 1 else st.qpos
    preempt := if st.trapDepth = 0 then st.preempt.map (· + 1) else st.preempt
    answer := none
    pageAns := if st.idem.isSome then st.pageAns else none
    atsAns := none
    cut := none
    backoff := 0 }

/-- The strand retires an instruction and goes on at `pc`. -/
def State.retire (s : State) (st : Strand) (pc : BitVec 17) (cls : Nat) : State :=
  s.leaveIdem { st.counted cls (s.isQuanta st.scope) with pc := pc }

/-! ### Traps (R308, R309) -/

/-- The handler a trap needs: its pc, when its valid bit is set. -/
def State.handlerPc (s : State) (st : Strand) (t : Trap) : Option (BitVec 16) :=
  let b := s.scope st.scope
  if t.code = .cancel then (if b.cancv then some b.cancpc else none)
  else if b.trapv then some b.trappc else none

/-- The window move of a trap entry (R38). -/
def Strand.trapMove (st : Strand) (trappc : Word) : Move :=
  { w := st.w + st.s, s := 8, push := some { trap := true, s := st.s, n := st.s, pc := trappc.setWidth 16 } }

/-- Writes the trap status words and enters the handler. -/
def Strand.enterTrap (st : Strand) (t : Trap) (trappc : Word) (handler : BitVec 16) : Strand :=
  { (st.move (st.trapMove trappc)).countEvent 2 (faultCode t.code).toNat with
    trapcode := t.sub ++ faultCode t.code
    trappc := trappc
    trapva := t.va
    trapaux := t.aux.getD 0
    trapDepth := st.trapDepth + 1
    cancelSeen := st.cancelSeen || t.code = .cancel
    pc := (evenPc handler).setWidth 17
    wait := .none
    answer := none
    pageAns := none
    atsAns := none
    cut := none
    raised := none
    backoff := 0 }

/-- The strand ends because its trap has no handler: FAULTED and CANCELLED, and the report (R309). -/
def State.unhandled (s : State) (st : Strand) (t : Trap) (trappc : Word) : State :=
  let words : List Word :=
    [st.handle.setWidth 64, (t.sub ++ faultCode t.code).setWidth 64, trappc, t.va, t.aux.getD 0]
  (s.faultScope st.scope 7 words).die st.sk

/-- What sw.trapaux holds: what the fault's rule states, else a free value (log entry 2). -/
def State.auxOf (s : State) (t : Trap) : Word × State :=
  match t.aux with
  | some v => (v, s)
  | none => s.freeWord

/-- TAKING A TRAP, the one operation of R308: it commits an idempotent region, waits for the strand's accesses and for a
spill of its registers in progress (R58), moves the window, writes the trap status words, and goes to the handler of sw.scope; without a handler the strand ends (R309), and
a cancellation without one takes the default action (R304). -/
def State.takeTrap (s : State) (sk : Nat) (t : Trap) (trappc : Word) : State :=
  let s := match s.strand sk with
    | some st => s.commitIdem st
    | none => s
  match s.strand sk with
  | none => s
  | some st =>
    if !st.pend.isEmpty then s.setStrand { st with wait := .drain, raised := some (t, trappc) }
    else if s.transferring sk then s.setStrand { st with wait := .transfer, raised := some (t, trappc) }
    else
      let (aux, s) := s.auxOf t
      let t : Trap := { t with aux := some aux }
      match s.handlerPc st t with
      | none => if t.code = .cancel then s.die sk else s.unhandled st t trappc
      | some h =>
        match st.checkMove (st.trapMove trappc) with
        | .error _ => s.unhandled st t trappc
        | .ok () =>
          match s.roomFor st (st.trapMove trappc) with
          | .ready st' => (s.setStrand (st'.enterTrap t trappc h)).bankStates st.pcore
          | r => s.startRoom { st with raised := some (t, trappc) } r

/-! ### Stops -/

/-- The page requests that wait their turn are sent, in order, while the host's allocation lasts (R182). -/
def sendPages (alloc : Nat) : List PageReq → Nat → List PageReq
  | [], _ => []
  | p :: rest, n =>
    if p.stage = .pri ∧ !p.sent ∧ n < alloc then { p with sent := true } :: sendPages alloc rest (n + 1)
    else p :: sendPages alloc rest n

def State.sendPages (s : State) : State :=
  if s.pagesOn then
    { s with pages := Machine.sendPages (Nat.min s.pageAlloc 4096) s.pages (s.pages.filter (·.sent)).length }
  else s

/-- Asks for a page (R181, R182): of the host's IOMMU where the device has no translation, with a page request where its
translation lacks the permission or the IOMMU has been `asked`. Requests for one page, PASID and permission are combined; page requests beyond the host's
allocation, or while they are stopped, wait their turn. -/
def State.askPage (s : State) (pasid : BitVec 20) (page : Nat) (need : BitVec 2) (asked : Bool := false) : State :=
  if s.pages.any fun p => p.pasid = pasid && p.page = page && p.need = need && p.stage != .quiet then s
  else
    let stage : PageStage := if asked || (s.transEntry pasid (4096 * page)).isSome then .pri else .ats
    let q : PageReq := { pasid := pasid, page := page, need := need, stage := stage, sent := false }
    { s with pages := s.pages ++ [q] }.sendPages

/-- Asks the host's IOMMU alone (R181). -/
def State.askAts (s : State) (pasid : BitVec 20) (page : Nat) : State :=
  let q : PageReq := { pasid := pasid, page := page, need := 0, stage := .quiet, sent := false }
  if s.pages.contains q then s else { s with pages := s.pages ++ [q] }

/-- An instruction stops: it takes its trap, or waits. A page request inside an idempotent region, after the answer
of the IOMMU where the device holds no translation, aborts the region: its
stores are discarded and the strand begins again at START (R186). -/
def State.stopAt (s : State) (sk : Nat) (e : Stop) : State :=
  match s.strand sk with
  | none => s
  | some st =>
    match e with
    | .trap t => s.takeTrap sk t (st.pc.setWidth 64)
    | .hold (.ats pasid page) => (s.askAts pasid page).setStrand { st with wait := .ats pasid page }
    | .hold w => (s.setStrand { st with wait := w }).bankStates st.pcore
    | .reclaim r => s.setStrand { st with wait := .reclaim r }
    | .page pasid page need =>
      let asked := st.atsAns = some page
      if st.idem.isSome && (s.transEntry pasid (4096 * page)).isNone && !asked then
        (s.askAts pasid page).setStrand { st with wait := .ats pasid page }
      else
        let pc := match st.idem with
          | some r => r.start.setWidth 17
          | none => st.pc
        (s.askPage pasid page need asked).setStrand
          { st.bump 0x20B 1 with wait := .page pasid page need, pc := pc, idem := none, answer := none, atsAns := none }

/-! ### Cancellation points (R303) -/

/-- A cancellation point: it stops the instruction when it observes; RECORD logs the point. -/
def cancelPoint (st : Strand) : Act Unit := do
  let s ← get
  if s.observes st then
    if s.dmode st.scope = 1 then
      modify fun s => s.logChoice st.scope 7 0 (s.cancelSite st) (st.retired.setWidth 32)
    raise { code := .cancel, aux := st.scope.setWidth 64 }
  else pure ()

/-! ### Actions of the current strand -/

def liftT {α : Type} (e : Except Trap α) : Act α :=
  match e with
  | .ok a => pure a
  | .error t => raise t

/-- Waits; the instruction is executed again when the wait is over. -/
def holdFor {α : Type} (w : Wait) : Act α := throw (.hold w)

/-- The current strand; an instruction is executed only with one (`runAct`). -/
def me : Act Strand := do
  let s ← get
  match s.strand s.cur with
  | some st => pure st
  | none => holdFor .none

def setMe (st : Strand) : Act Unit := modify fun s => s.setStrand st

/-- Writes a window register of the current strand. -/
def putX (i : BitVec 5) (v : Word) (d : Bool := false) : Act Unit := do
  let st ← me
  let st' ← liftT (st.writeX i v d)
  setMe st'

/-- Every access already issued must have its reply (R218). -/
def drained (st : Strand) : Act Unit := if st.pend.isEmpty then pure () else holdFor .drain

/-- Moves the window, waiting for the transfers it needs (R38, R39, R43, R44, R46). -/
def moveWindow (st : Strand) (m : Move) : Act Unit := do
  liftT (st.checkMove m)
  let s ← get
  match s.roomFor st m with
  | .ready st' => modify fun s => (s.setStrand (st'.move m)).bankStates st.pcore
  | .busy => holdFor .transfer
  | r =>
    modify fun s => s.startRoom st r
    holdFor .spill

/-- A new number, and the hold for its answer. -/
def newNumber : Act Nat := do
  let s ← get
  set { s with fresh := s.fresh + 1 }
  pure s.fresh

/-- A weight that can be split: one of 1 is refilled first, at the scope's home (R299). -/
def weightReady : Act Unit := do
  let st ← me
  match st.split with
  | some _ => pure ()
  | none =>
    let sc := st.memberScope
    modify fun s =>
      (s.request sc (s.logical st.pcore) st.serial 2 (laneOf 0 (s.logical st.pcore) (homeNode sc)) .refillRequest
        (.strand st.sk st.handle sc.toNat)).countPacket st.sk .refillRequest .none
    holdFor .refill

/-- split(w) of R299 for a new member. What can still fault comes between `weightReady` and the split, so that an
instruction that traps has given no weight away (R10). -/
def splitWeight : Act Nat := do
  weightReady
  let st ← me
  match st.split with
  | some (give, st') =>
    setMe st'
    pure give
  | none => holdFor .refill

/-! ### Runners -/

/-- Where a retired instruction leaves the strand. -/
inductive Next where
  | seq
  | goto (pc : BitVec 17)
  /-- the strand has ended, or goes on by itself -/
  | gone
  deriving DecidableEq, Repr

def State.finish (s : State) (sk : Nat) (n : Next) (len cls : Nat) : State :=
  match s.strand sk with
  | none => s
  | some st =>
    match n with
    | .seq => s.retire st (st.pc + BitVec.ofNat 17 len) cls
    | .goto pc => s.retire st pc cls
    | .gone => s

/-- An instruction that only changes its own strand: under its guard, a new strand or a trap; under a false guard
nothing but its retirement (R11). `cls` is its performance counter (R392). -/
def runPure (cls len : Nat) (g : BitVec 3) (f : Strand → Except Trap Strand) (s : State) : Out :=
  match s.strand s.cur with
  | none => .refused .noStrand
  | some st0 =>
    let st := s.enterIdem st0
    if st.p g then
      match f st with
      | .ok st' => .next (s.retire st' (st.pc + BitVec.ofNat 17 len) cls)
      | .error t => .next (s.takeTrap s.cur t (st.pc.setWidth 64))
    else .next (s.retire st (st.pc + BitVec.ofNat 17 len) cls)

/-- An instruction that may act beyond its strand. `commit`: it commits an open idempotent region first (R185), and waits for the stores of the commit. -/
def runAct (cls len : Nat) (g : BitVec 3) (commit : Bool) (body : Strand → Act Next) (s : State) : Out :=
  match s.strand s.cur with
  | none => .refused .noStrand
  | some st0 =>
    if st0.p g then
      let s := if commit then s.commitIdem st0 else s.setStrand (s.enterIdem st0)
      let st := if commit then (s.strand s.cur).getD st0 else s.enterIdem st0
      if st.commit.isSome then .next (s.setStrand { st with wait := .drain })
      else
      match (body st).go s with
      | (.ok n, s') => .next (s'.finish s.cur n len cls)
      | (.error e, s') => .next (s'.stopAt s.cur e)
    else .next (s.retire (s.enterIdem st0) (st0.pc + BitVec.ofNat 17 len) cls)

/-- Performance counters by class of major (R392). -/
def clsScalar : Nat := 0x200
def clsVec : Nat := 0x201
def clsMat : Nat := 0x202
def clsMem : Nat := 0x203
def clsComm : Nat := 0x204
def clsCtl : Nat := 0x205

/-! ### Waits (R237, R290, R314) -/

/-- Does a payload, on its way, belong to an engine command that has not performed its first read? -/
def readsYet (n : Nat) : Payload → Bool
  | .cmd c => c.number == n
  | .refused _ (.cmd c) => c.number == n
  | _ => false

/-- Has an engine command of a strand, by its number, still to perform its first read (R203)? -/
def State.unread (s : State) (n : Nat) : Bool :=
  (s.agenda.any fun p => readsYet n p.arg) || (s.domains.any fun d => d.2.held.any fun h => readsYet n h.2)
    || s.engines.any fun e => e.2.inbox.any fun c => c.number == n && !c.began && c.code.isNone

/-- Does a payload carry a queue word or a reply of a strand (R282)? -/
def sentBy (h : Handle) : Payload → Bool
  | .queueWord _ _ x _ _ => x == h
  | .fifo _ _ _ x _ => x == h
  | .reply r => r.sender == h
  | _ => false

/-- Queue words and replies of a strand that have not arrived: they count as stores (R282). -/
def State.sending (s : State) (st : Strand) : Bool :=
  (st.queues.any fun qb => qb.2.kind == 0 && !qb.2.words.isEmpty) || (s.agenda.any fun p => sentBy st.handle p.arg)
    || s.domains.any fun d => d.2.held.any fun h => sentBy st.handle h.2

/-- Accesses of the strand that a fence of a kind waits for. Loads and stores of the other paths are performed when they
retire; sync-cell operations, queue words, token transfers and the first reads of engine commands may be outstanding. For
the parties of its own core (`core`) an operation need only be performed; for others its home has answered (R204). -/
def State.fenceWaits (s : State) (st : Strand) (kind : BitVec 2) (core : Bool := false) : Bool :=
  let waits (p : PendSync) : Bool := !core || s.outst.contains p.number
  if kind = 0 then st.pend.any fun p => p.reads && waits p
  else if kind = 1 then (st.pend.any fun p => p.writes && waits p) || s.sending st
  else st.pend.any waits || st.moves.any s.outst.contains || st.cmds.any s.unread || s.sending st

/-- Is what a strand waits for here? The waits that an event ends are never ready by themselves. -/
def State.ready (s : State) (st : Strand) : Bool :=
  match st.wait with
  | .none => true
  | .queueIn q =>
    match st.q q with
    | none => true
    | some b => (s.readable st b).isSome || ((s.entries st b).isEmpty && (s.brokenBy st b).1)
  | .queueOut q =>
    match st.q q with
    | none => true
    | some b => s.writable st b || (s.brokenBy st b).1
  | .word key _ => !s.isQuanta st.scope && (s.word key).msb
  | .fence kind core => !s.fenceWaits st kind core
  | .token region _ =>
    s.hasRight st region || (match decodeRegion region with
      | none => true
      | some r => match s.token r (s.pasidOf st.scope) with
        | none => true
        | some t => t.state == .poisoned)
  | .reclaim region =>
    match decodeRegion region with
    | none => true
    | some r =>
      match s.token r (s.pasidOf st.scope) with
      | some t => t.state != .reclaiming
      | none => true
  | .silent p _ _ => !(s.core p).stopped
  | .transfer => !s.transferring st.sk
  | _ => false

/-- After the last reply: a raised trap is taken, a dying strand goes on, any other executes its instruction again
(R218, R410). -/
def State.afterDrain (s : State) (sk : Nat) : State :=
  match s.strand sk with
  | none => s
  | some st =>
    if !st.pend.isEmpty ∨ st.wait ≠ .drain then s
    else if st.dying then s.dieOn sk
    else if !st.late.isEmpty then s.setStrand { st with wait := .none, raised := none }
    else
      match st.raised with
      | some (t, pc) => (s.setStrand { st with wait := .none, raised := none }).takeTrap sk t pc
      | none => s.setStrand { st with wait := .none }

/-- After a spill or fill: a raised trap is entered, any other strand executes its instruction again. -/
def State.afterSpill (s : State) (sk : Nat) : State :=
  match s.strand sk with
  | none => s
  | some st =>
    if st.wait ≠ .spill then s
    else
      match st.raised with
      | some (t, pc) => (s.setStrand { st with wait := .none, raised := none }).takeTrap sk t pc
      | none => s.setStrand { st with wait := .none }

/-- A transfer of a strand's registers for another strand is over: what waited for it goes on (R58). -/
def State.afterTransfer (s : State) (sk : Nat) : State :=
  match s.strand sk with
  | none => s
  | some st =>
    if st.wait ≠ .transfer ∨ s.transferring sk then s
    else
      let s := s.setStrand { st with wait := .none, raised := none }
      if st.dying then s.dieOn sk
      else match st.raised with
        | some (t, pc) => s.takeTrap sk t pc
        | none => s

end Sys2Proof.Machine
end

