-- ==== Sys2Proof/Machine/Operands.lean ====
section
/-! DEFINITION. Operand forms: how an instruction reads its registers, immediates, targets and addresses (R40, R41, R85,
R88, R113, R172). -/

namespace Sys2Proof.Machine

/-- A sign-extended immediate or displacement (R88). -/
def sx {n : Nat} (i : BitVec n) : Word := i.signExtend 64
/-- A zero-extended one. -/
def zx {n : Nat} (i : BitVec n) : Word := i.setWidth 64

/-- base + unit × sext(disp, 11), modulo 2^64 (R88, R197). -/
def dispVa (base : Word) (unit : Nat) (disp : BitVec 11) : Word := base + BitVec.ofNat 64 unit * sx disp

/-- FETCH with the target's 17 low bits (R85). -/
def fetchFault (t : BitVec 17) : Trap := { code := .fetch, aux := t.setWidth 64 }

/-- PC + 2 × sext(off), or FETCH when it lies outside 0x0000–0xFFFE (R85, R126). -/
def target {n : Nat} (pc : BitVec 17) (off : BitVec n) : Except Trap (BitVec 17) :=
  let t : Int := Int.ofNat pc.toNat + 2 * off.toInt
  if t < 0 ∨ 0xFFFE < t then .error (fetchFault (BitVec.ofInt 17 t)) else .ok (BitVec.ofInt 17 t)

/-- A target held in a register: even, at most 0xFFFE (R128). -/
def regTarget (t : Word) : Except Trap (BitVec 17) :=
  if t.getLsbD 0 ∨ 0xFFFE < t.toNat then .error (fetchFault (t.setWidth 17)) else .ok (t.setWidth 17)

/-- ILLEGAL under a rule outside the decoder: subcode 0, the instruction's own word in sw.trapaux (R95). -/
def illegal (i : Instr) : Trap := { code := .illegal, aux := (instrWord i).setWidth 64 }

/-- `n` registers from `b` on. -/
def regsFrom (b : BitVec 5) (n : Nat) : List (BitVec 5) := (List.range n).map fun k => b + BitVec.ofNat 5 k

/-! ### Instructions of the propagating majors (R40): registers read, REG_UE, result, D bit -/

/-- x[d] := op(x[a], x[b]), D the OR of the sources'. -/
def binaryOp (op : Word → Word → Word) (d a b : BitVec 5) (st : Strand) : Except Trap Strand :=
  match st.checkUe [a, b] with
  | .error t => .error t
  | .ok () => st.writeX d (op (st.xv a) (st.xv b)) (st.xd a || st.xd b)

/-- x[d] := op(x[a]), D that of x[a]. -/
def unaryOp (op : Word → Word) (d a : BitVec 5) (st : Strand) : Except Trap Strand :=
  match st.checkUe [a] with
  | .error t => .error t
  | .ok () => st.writeX d (op (st.xv a)) (st.xd a)

/-- A predicate from two registers that must not be deferred (R41, R122). -/
def compareOp (rel : Word → Word → Bool) (p : BitVec 3) (a b : BitVec 5) (st : Strand) : Except Trap Strand :=
  match st.sources [a, b] with
  | .error t => .error t
  | .ok () => .ok (st.setP p (rel (st.xv a) (st.xv b)))

/-- A predicate from one register and an immediate (R125). -/
def compareImm (rel : Word → Bool) (p : BitVec 3) (a : BitVec 5) (st : Strand) : Except Trap Strand :=
  match st.sources [a] with
  | .error t => .error t
  | .ok () => .ok (st.setP p (rel (st.xv a)))

/-- A result with flags, from the registers `srcs` (R133). -/
def floatOp (srcs : List (BitVec 5)) (op : Strand → Word × BitVec 6) (d : BitVec 5) (st : Strand) : Except Trap Strand :=
  match st.checkUe srcs with
  | .error t => .error t
  | .ok () =>
    let (v, f) := op st
    match st.writeX d v (srcs.any st.xd) with
    | .error t => .error t
    | .ok st' => .ok (st'.orFlags f)

/-! ### Jumps -/

/-- An instruction that only chooses where the strand goes on. -/
def runJump (cls : Nat) (f : Strand → Except Trap (BitVec 17)) (s : State) : Out :=
  match s.strand s.cur with
  | none => .refused .noStrand
  | some st0 =>
    let st := s.enterIdem st0
    match f st with
    | .ok pc => .next (s.retire st pc cls)
    | .error t => .next (s.takeTrap s.cur t (st.pc.setWidth 64))

end Sys2Proof.Machine
end

