-- ==== Sys2Proof/Machine/LoadStore.lean ====
section
/-! DEFINITION. Majors LD, ST, LDS and CHK (R195 to R200), the sync-cell operations (R201 to R203, R410) with their events,
fences and FLUSHR (R204, R205). -/

namespace Sys2Proof.Machine

/-! ### Remote accesses (R376) -/

/-- Counts an access to a remote home: 0 to 511 the vault of a logical core, 512 and up the cluster of a controller or of
a sync cell. -/
def Strand.remote (st : Strand) (home : Nat) : Strand :=
  let h : BitVec 10 := BitVec.ofNat 10 home
  if st.remoteHome = h ∧ st.remoteCount ≠ 0 then
    { st with remoteCount := if st.remoteCount = 0xFFF then 0xFFF else st.remoteCount + 1 }
  else { st with remoteHome := h, remoteCount := 1 }

/-- The remote home of a place, if it has one. -/
def State.remoteOf (s : State) (st : Strand) (p : Place) : Option Nat :=
  match p.at_ with
  | .vaultAt key =>
    let l := s.logical ((key - Config.vaultBase) / Config.vaultSize)
    if l = s.logical st.pcore then none else some l
  | .lineOf key =>
    if isHost key ∨ ((s.core st.pcore).lines.find (blockKey key)).isSome ∨ routerOf key = st.cluster then none
    else some (512 + routerOf key)
  | .cellAt key => if routerOf key = st.cluster then none else some (512 + routerOf key)
  | .ioAt _ => none

/-- Counts the access in a scope whose MIGTHR is nonzero. -/
def noteRemote (st : Strand) (p : Place) : Act Unit := do
  let s ← get
  match s.remoteOf st p with
  | some h => if (s.scope st.scope).migthr = 0 then pure () else modify fun s => s.modStrand st.sk (·.remote h)
  | none => pure ()

/-! ### Sync-cell operations -/

/-- The value an operation leaves in the cell (R201); operation 12 is ECHK and 13 an EWT, which read (R290). -/
def cellNew (op : BitVec 4) (old val cmp : Word) : Word :=
  match op.toNat with
  | 0 => old
  | 1 => val
  | 2 => old + val
  | 3 => val
  | 4 => if old = cmp then val else old
  | 5 => old &&& val
  | 6 => old ||| val
  | 7 => old ^^^ val
  | 8 => if old.slt val then val else old
  | 9 => if val.slt old then val else old
  | 10 => if old < val then val else old
  | 11 => if val < old then val else old
  | _ => old

/-- A sync-cell operation, after its checks. In a QUANTA scope a `.rel` one leaves once the first reads of earlier engine
commands are performed. -/
def issueCell (op : BitVec 4) (ord : BitVec 2) (va : Word) (val : Word) (dst : Option (BitVec 5)) : Act Unit := do
  let st ← me
  let p ← placeOf ((← get).who st) (.cell !(cellReads op)) va
  noteRemote st p
  let st ← me
  if ord.getLsbD 1 && (← get).isQuanta st.scope && st.cmds.any (← get).unread then holdFor (.fence 2)
  modify fun s => s.sendCell st.sk op ord va p.at_.key val (dst.map fun d => st.w + d.toNat)

/-- SLD: sources, destination, then the access. -/
def sldBody (d a : BitVec 5) (o : BitVec 2) (st : Strand) : Act Next := do
  liftT (st.sources [a])
  liftT (st.checkDst d.toNat)
  issueCell 0 o (st.xv a) 0 (some d)
  pure .seq

def sstBody (a b : BitVec 5) (o : BitVec 2) (st : Strand) : Act Next := do
  liftT (st.sources [a, b])
  issueCell 1 o (st.xv a) (st.xv b) none
  pure .seq

def rmwBody (op : BitVec 4) (d a b : BitVec 5) (o : BitVec 2) (st : Strand) : Act Next := do
  liftT (st.sources [a, b])
  liftT (st.checkDst d.toNat)
  issueCell op o (st.xv a) (st.xv b) (some d)
  pure .seq

def execSld (d a : BitVec 5) (g : BitVec 3) (o : BitVec 2) (s : State) : Out := runAct clsMem 4 g true (sldBody d a o) s
def execSst (a b : BitVec 5) (g : BitVec 3) (o : BitVec 2) (s : State) : Out := runAct clsMem 4 g true (sstBody a b o) s
def execAadd (d a b : BitVec 5) (g : BitVec 3) (o : BitVec 2) (s : State) : Out := runAct clsMem 4 g true (rmwBody 2 d a b o) s
def execAswap (d a b : BitVec 5) (g : BitVec 3) (o : BitVec 2) (s : State) : Out := runAct clsMem 4 g true (rmwBody 3 d a b o) s
def execAcas (d a b : BitVec 5) (g : BitVec 3) (o : BitVec 2) (s : State) : Out := runAct clsMem 4 g true (rmwBody 4 d a b o) s
def execAand (d a b : BitVec 5) (g : BitVec 3) (o : BitVec 2) (s : State) : Out := runAct clsMem 4 g true (rmwBody 5 d a b o) s
def execAor (d a b : BitVec 5) (g : BitVec 3) (o : BitVec 2) (s : State) : Out := runAct clsMem 4 g true (rmwBody 6 d a b o) s
def execAxor (d a b : BitVec 5) (g : BitVec 3) (o : BitVec 2) (s : State) : Out := runAct clsMem 4 g true (rmwBody 7 d a b o) s
def execAmax (d a b : BitVec 5) (g : BitVec 3) (o : BitVec 2) (s : State) : Out := runAct clsMem 4 g true (rmwBody 8 d a b o) s
def execAmin (d a b : BitVec 5) (g : BitVec 3) (o : BitVec 2) (s : State) : Out := runAct clsMem 4 g true (rmwBody 9 d a b o) s
def execAmaxu (d a b : BitVec 5) (g : BitVec 3) (o : BitVec 2) (s : State) : Out := runAct clsMem 4 g true (rmwBody 10 d a b o) s
def execAminu (d a b : BitVec 5) (g : BitVec 3) (o : BitVec 2) (s : State) : Out := runAct clsMem 4 g true (rmwBody 11 d a b o) s

/-! ### The operation at its home, and its reply -/

/-- A fault reported after its instruction retired: sw.trapcode[15] is 1 (R410). -/
def lateTrap (t : Trap) (va : Word) : Trap := { t with sub := 0x80 ||| t.sub, va := va }

/-- The command whose completion word is a cell, while its engine has it. -/
def State.observedCmd (s : State) (r : SyncReq) : Option EngCmd :=
  s.engines.findSome? fun e => e.2.inbox.find? fun c => c.pasid == r.pasid && c.blk[3]?.getD 0 == r.va

/-- Is the operation an observation of an engine's progress: ECHK, or the load of a completion word, of a command that its
engine has or of one that has ended (R386)? -/
def State.observation (s : State) (r : SyncReq) : Bool :=
  r.op == 12 || (r.op == 0 && ((s.observedCmd r).isSome || s.doneWords.contains r.key))

/-- In REPLAY, must the observation wait for DONE, as the entry says that follows its own place at the cell (R388)? -/
def State.awaitsDone (s : State) (r : SyncReq) : Bool :=
  s.dmode r.scope == 2 && (r.op == 12 || r.op == 0) && !(s.word r.key).msb &&
    (match s.logged r.scope 8 r.va (s.ltime r.scope 8 r.va + 1) with
     | some (_, c) => c.msb
     | none => false)

/-- What an observation reads: RECORD logs it, and in REPLAY the log says whether DONE is seen; a word without DONE is 0
(R283, R386 to R388). -/
def State.observed (s : State) (r : SyncReq) (word : Word) : State × Word :=
  let logged := if s.dmode r.scope = 2 then s.logged r.scope 8 r.va (s.ltime r.scope 8 r.va) else none
  if !s.observation r && logged.isNone then (s, word)
  else if s.dmode r.scope = 1 then
    let n : Nat := match s.observedCmd r with
      | some c => c.unitsDone
      | none => (word.extractLsb' 0 48).toNat / 64
    (s.logChoice r.scope 8 0 r.va (BitVec.ofBool word.msb ++ BitVec.ofNat 31 n), word)
  else if s.dmode r.scope = 2 then
    match logged with
    | some (_, c) => (s.bumpLtime r.scope 8 r.va, if c.msb then word else 0)
    | none => (s.diverges r.scope, word)
  else (s, word)

def cellReplyLane (r : SyncReq) : Nat := laneOf 1 (memoryNode r.key) r.lcore

/-- The request of an EWT at the word's home: DONE or a fault answers it, and the next quantum takes the answer; else it waits
there (R397). -/
def State.ewtAtHome (s : State) (r : SyncReq) (w : Word) (f : Option Trap) : State :=
  match s.waiter r.sk r.handle with
  | none => s
  | some st =>
    if st.wait ≠ .word r.key false then s
    else match f with
      | some t => s.setStrand { st with wait := .none, answer := some (.trap t) }
      | none =>
        if w.msb then s.setStrand { st with wait := .none, answer := some (.value w) } else s.setStrand { st with wait := .word r.key }

/-- One indivisible step at the cell's home (R201, R219); a data fault leaves the cell unchanged (R410). -/
def State.performCell (s : State) (r : SyncReq) : State :=
  let bk := blockKey r.key
  let t? := s.covering r.pasid false (r.va.extractLsb' 0 50).toNat
  let c0 : Ctx0 := ⟨r.handle, r.pasid, (t?.map (·.keyid)).getD 0, (t?.map (·.integ)).getD false, r.va⟩
  let reply : SyncAns :=
    { number := r.number, sk := r.sk, handle := r.handle, dst := r.dst, val := 0, fault := none, va := r.va, key := r.key }
  let answer (s : State) (v : Word) (f : Option Trap) : State :=
    if r.op = 13 then s.ewtAtHome r 0 (f.map fun t => { t with sub := t.sub &&& 0x7F })
    else s.deliver r.scope (cellReplyLane r) .syncCellReply (.syncAns { reply with val := v, fault := f })
  let s := { s with outst := s.outst.filter (· != r.number) }
  if !s.quadRuns (quadOf (routerOf r.key)) then answer s 0 (some (lateTrap { code := .deadPeer } r.va))
  else
    match (readHome bk c0).go s with
    | (.error (.trap t), s) => answer s 0 (some (lateTrap t r.va))
    | (.error _, s) => answer s 0 none
    | (.ok (b, d), s) =>
      let old := blockWord b ((r.key - bk) / 8)
      let new := cellNew r.op old r.val r.cmp
      let s := s.countSector (clusterOf (pcoreOf r.sk)) r.scope
      if r.op = 13 then s.ewtAtHome r old none
      else
      let s := if cellReads r.op then s
        else (({ s with doneWords := s.doneWords.filter (· != r.key) }).putSector c0 bk (overlay b (r.key - bk) (leBytes 8 new)) (some d)).answerWords (· == r.key)
      let (s, v) := s.observed r old
      s.deliver r.scope (cellReplyLane r) .syncCellReply (.syncAns { reply with val := v, old := old, new := new })

/-- SYNC_CELL_OPERATION: the operations on one cell are served one at a time, logged or forced in the recorded modes; an
`.ar` one takes its place in the total order too (R202, R222). -/
def execSyncCellOperation (s : State) : Out :=
  match s.arg with
  | .syncReq r =>
    let again (s : State) : State := s.after 1 .syncCellOperation (.syncReq r)
    let c := partyChoice r.lcore r.retired
    let total (s : State) : State :=
      if r.ord = 3 then s.ordered r.scope 5 0 0 c again (·.performCell r) else s.performCell r
    if s.awaitsDone r then .next (s.waitsTurn r.scope 8 r.va c again)
    -- in REPLAY an `.ar` one takes its place at the cell when its place in the total order has come
    else if r.ord = 3 ∧ s.dmode r.scope = 2 ∧ !s.isDue r.scope 5 0 c then .next (s.ordered r.scope 5 0 0 c again id)
    else .next (s.ordered r.scope 4 0 r.va c again total)
  | _ => .next s

/-- The reply's value goes to its stack position, in the spill area where that has been spilled in the meantime (R45). -/
def State.putReply (s : State) (st : Strand) (pos : Nat) (v : Word) : State :=
  if st.spilled.contains (pos / 8) then
    let base := s.spillKey st
    (((s.setStrand st).writeRaw (base + 8 * pos) (leBytes 8 v)).setMemBit (base + 0x2000) pos false).setMemBit (base + 0x2080) pos false
  else s.setStrand { st with stack := st.stack.put {} pos { val := v } }

/-- SYNC_CELL_REPLY: x[d] is written where the operation's window had it; a fault waits for the strand's next boundary. -/
def execSyncCellReply (s : State) : Out :=
  match s.arg with
  | .syncAns a =>
    match s.waiter a.sk a.handle with
    | none => .next s
    | some st =>
      match st.pend.find? fun p => p.number = a.number with
      | none => .next s
      | some p =>
        let st := { st with pend := st.pend.filter fun p => p.number != a.number }
        let s := match a.fault, p.dst with
          | some t, _ => s.setStrand { st with late := st.late ++ [t] }
          | none, some pos => s.putReply st pos a.val
          | none, none => s.setStrand st
        .next ((s.commitGoes a.sk a.number).afterDrain a.sk)
  | _ => .next s

/-- LATE_FAULT_TRAP (R410): the strand takes the oldest late fault, its other replies first (R218). -/
def execLateFaultTrap (s : State) : Out :=
  match s.arg with
  | .strand sk h _ =>
    match s.waiter sk h with
    | none => .next s
    | some st =>
      match st.late with
      | [] => .next s
      | t :: rest =>
        if !st.pend.isEmpty then .next (s.setStrand { st with wait := .drain })
        else .next ((s.setStrand { st with late := rest }).takeTrap sk t (st.pc.setWidth 64))
  | _ => .next s

/-! ### Loads -/

/-- The extension of a loaded value. -/
def extend (size : Nat) (signed : Bool) (bs : List Byte) : Word :=
  if size = 1 then (if signed then sx (BitVec.ofNat 8 (ofLe bs)) else zx (BitVec.ofNat 8 (ofLe bs)))
  else if size = 2 then (if signed then sx (BitVec.ofNat 16 (ofLe bs)) else zx (BitVec.ofNat 16 (ofLe bs)))
  else if size = 4 then (if signed then sx (BitVec.ofNat 32 (ofLe bs)) else zx (BitVec.ofNat 32 (ofLe bs)))
  else wordOf bs

/-- The stores of a commit are performed. -/
def committed (sk : Nat) : Act Unit := do
  match (← get).strand sk with
  | some st => if st.commit.isSome then holdFor .drain
  | none => pure ()

/-- An access on IO comes after every earlier access, and every access after an earlier one on IO (R198, R232): a load that
would overtake a held store so commits the region first (log entry 29). -/
def ioOrder (st : Strand) (io : Bool) : Act Unit := do
  match st.idem with
  | none => pure ()
  | some r =>
    if r.stores.any fun h => io || Config.ioBase ≤ h.key then
      modify fun s => s.commitIdem st
      committed st.sk
      drained (← me)

/-- What a strand's own held stores lay over bytes read from `key` (R185). -/
def Strand.heldOver (st : Strand) (key : Nat) (bs : List Byte) : List Byte :=
  match st.idem with
  | none => bs
  | some r =>
    (List.range bs.length).map fun i =>
      r.stores.foldl (fun b h =>
        if h.key ≤ key + i ∧ key + i < h.key + h.bytes.length then h.bytes[key + i - h.key]?.getD b else b) (bs[i]?.getD 0)

/-- ... and over the descriptor of a block. -/
def Strand.heldDesc (st : Strand) (key : Nat) (d : Desc) : Desc :=
  match st.idem with
  | none => d
  | some r => r.stores.foldl (fun d h => if h.key = blockKey key then h.desc.getD d else d) d

/-- Reads the bytes of a load on any path but SYNC, with the descriptor of their block. -/
def loadBytes (a : Access) (va : Word) (n : Nat) : Act (List Byte × Desc) := do
  let st ← me
  let p ← placeOf ((← get).who st) a va
  match p.at_ with
  | .ioAt off =>
    drained st
    ioOrder st true
    match (← get).ioAccess st.cluster off va false with
    | .error e => throw e
    | .ok r => pure (leBytes 8 ((← get).readReg r), 0)
  | at_ =>
    ioOrder st false
    noteRemote st p
    let (bs, d) ← loadAt ((← get).who st) p n
    let st ← me
    pure (st.heldOver at_.key bs, st.heldDesc at_.key d)

def pathOf (va : Word) : Nat := (va.extractLsb' 50 4).toNat

/-- The key of a sync cell that the strand's own region has stored to, with the value it holds. -/
def Strand.heldCell (st : Strand) (va : Word) : Option Word :=
  match st.idem with
  | none => none
  | some r => (r.stores.reverse.find? fun h => h.va = va ∧ pathOf h.va = 2).map fun h => wordOf h.bytes

/-- LD: base, destination, then the access (R196, R197); on SYNC an LD.D is an SLD.rlx. -/
def loadBody (size : Nat) (signed : Bool) (d b : BitVec 5) (disp : BitVec 11) (st : Strand) : Act Next := do
  liftT (st.sources [b])
  liftT (st.checkDst d.toNat)
  let va := dispVa (st.xv b) size disp
  if pathOf va = 2 ∧ size = 8 ∧ va.extractLsb' 54 10 = 0 then
    ioOrder st false
    match (← me).heldCell va with
    | some v =>
      -- it reads its own region's store, with the checks of any access (R173, R187)
      let p ← placeOf ((← get).who st) (.cell false) va
      noteRemote st p
      putX d v
    | none => issueCell 0 0 va 0 (some d)
    pure .seq
  else
    let (bs, _) ← loadBytes (.load size) va size
    putX d (extend size signed bs)
    pure .seq

def execLdB (d b : BitVec 5) (i : BitVec 11) (s : State) : Out := runAct clsMem 4 0 false (loadBody 1 true d b i) s
def execLdBu (d b : BitVec 5) (i : BitVec 11) (s : State) : Out := runAct clsMem 4 0 false (loadBody 1 false d b i) s
def execLdH (d b : BitVec 5) (i : BitVec 11) (s : State) : Out := runAct clsMem 4 0 false (loadBody 2 true d b i) s
def execLdHu (d b : BitVec 5) (i : BitVec 11) (s : State) : Out := runAct clsMem 4 0 false (loadBody 2 false d b i) s
def execLdW (d b : BitVec 5) (i : BitVec 11) (s : State) : Out := runAct clsMem 4 0 false (loadBody 4 true d b i) s
def execLdWu (d b : BitVec 5) (i : BitVec 11) (s : State) : Out := runAct clsMem 4 0 false (loadBody 4 false d b i) s
def execLdD (d b : BitVec 5) (i : BitVec 11) (s : State) : Out := runAct clsMem 4 0 false (loadBody 8 false d b i) s
def execLdDCompact (d b : BitVec 5) (o : BitVec 2) (s : State) : Out :=
  runAct clsMem 2 0 false (loadBody 8 false d b (o.setWidth 11)) s

/-! ### Stores -/

/-- Holds a store back in an idempotent region (R185): the 65th commits the region first. -/
def holdStore (st : Strand) (h : HeldStore) : Act Unit :=
  modify fun s => s.modStrand st.sk fun st =>
    match st.idem with
    | some r => { st with idem := some { r with stores := r.stores ++ [h] } }
    | none => st

/-- Is the next store one to hold back? A 65th commits the region and comes after its stores. -/
def holds (st : Strand) : Act Bool := do
  match st.idem with
  | none => pure false
  | some r =>
    if (r.stores.filter fun h => !h.more).length < 64 then pure true
    else
      modify fun s => s.commitIdem st
      committed st.sk
      pure false

/-- Fills the line that a store of a part of it needs (R191, R197). -/
def prefill (who : Who) (p : Place) (n : Nat) : Act Unit := do
  match p.at_ with
  | .lineOf key =>
    let _ ← lineFor who (blockKey key) p.c0 (partly (key - blockKey key) n)
  | _ => pure ()

/-- Writes the bytes of a store on any path but SYNC. -/
def storeBytes (a : Access) (va : Word) (bs : List Byte) (d : Option Desc) : Act Unit := do
  let st ← me
  let who := (← get).who st
  let p ← placeOf who a va
  match p.at_ with
  | .ioAt off =>
    drained st
    match (← get).ioAccess st.cluster off va true with
    | .error e => throw e
    | .ok r =>
      match (← get).writeReg r (wordOf bs) with
      | some s =>
        if ← holds st then holdStore st { va := va, key := Config.ioBase + off, bytes := bs, desc := none }
        else modify fun s => (s.writeReg r (wordOf bs)).getD s
      | none => throw (pathFault 3 va)
  | at_ =>
    noteRemote st p
    if ← holds st then
      -- the fill that a part of a line needs, and its faults, come with the instruction
      if bs.length < 64 then prefill who p bs.length
      holdStore st { va := va, key := at_.key, bytes := bs, desc := d }
    else storeAt who p bs d

/-- ST: base, then the data register, then the access (R196, R197); on SYNC an ST.D is an SST.rlx. -/
def storeBody (size : Nat) (x b : BitVec 5) (disp : BitVec 11) (st : Strand) : Act Next := do
  liftT (st.sources [b, x])
  let va := dispVa (st.xv b) size disp
  if pathOf va = 2 ∧ size = 8 ∧ va.extractLsb' 54 10 = 0 then
    let p ← placeOf ((← get).who st) (.cell true) va
    if ← holds st then holdStore st { va := va, key := p.at_.key, bytes := leBytes 8 (st.xv x), desc := none }
    else issueCell 1 0 va (st.xv x) none
    pure .seq
  else
    storeBytes (.store size) va (leBytes size (st.xv x)) none
    pure .seq

def execStB (v b : BitVec 5) (i : BitVec 11) (s : State) : Out := runAct clsMem 4 0 false (storeBody 1 v b i) s
def execStH (v b : BitVec 5) (i : BitVec 11) (s : State) : Out := runAct clsMem 4 0 false (storeBody 2 v b i) s
def execStW (v b : BitVec 5) (i : BitVec 11) (s : State) : Out := runAct clsMem 4 0 false (storeBody 4 v b i) s
def execStD (v b : BitVec 5) (i : BitVec 11) (s : State) : Out := runAct clsMem 4 0 false (storeBody 8 v b i) s
def execStDCompact (v b : BitVec 5) (o : BitVec 2) (s : State) : Out :=
  runAct clsMem 2 0 false (storeBody 8 v b (o.setWidth 11)) s

/-! ### LDS and CHK -/

/-- The access of an LDS: its value, or none where it is deferred. SYNC and IO do not accept it (R173); where the device
holds no translation it asks the host's IOMMU, and sends no page request (R199). -/
def tryLoad (st : Strand) (size : Nat) (va : Word) : Act (Option (List Byte)) := do
  if pathOf va = 2 ∨ pathOf va = 7 then pure none
  else
    let s ← get
    match (loadBytes (.load size) va size).go s with
    | (.ok (bs, _), s') =>
      set s'
      pure (some bs)
    | (.error (.trap _), s') =>
      -- only what the memory detects and logs stays of a deferred access
      set { s with unitLogs := s'.unitLogs, clusters := s'.clusters, mem := s'.mem, errs := s'.errs, cores := s'.cores }
      pure none
    | (.error (.page pasid page _), _) =>
      if (s.transEntry pasid (4096 * page)).isSome || st.atsAns = some page then pure none else holdFor (.ats pasid page)
    | (.error (.hold (.silent p va _)), _) => holdFor (.silent p va true)
    | (.error e, _) => throw e

def ldsBody (size : Nat) (signed : Bool) (d b : BitVec 5) (disp : BitVec 11) (st : Strand) : Act Next := do
  liftT (st.sources [b])
  liftT (st.checkDst d.toNat)
  match st.answer with
  | some (.trap _) => putX d 0 true
  | _ =>
    match ← tryLoad st size (dispVa (st.xv b) size disp) with
    | some bs => putX d (extend size signed bs)
    | none => putX d 0 true
  pure .seq

def execLdsB (d b : BitVec 5) (i : BitVec 11) (s : State) : Out := runAct clsMem 4 0 false (ldsBody 1 true d b i) s
def execLdsBu (d b : BitVec 5) (i : BitVec 11) (s : State) : Out := runAct clsMem 4 0 false (ldsBody 1 false d b i) s
def execLdsH (d b : BitVec 5) (i : BitVec 11) (s : State) : Out := runAct clsMem 4 0 false (ldsBody 2 true d b i) s
def execLdsHu (d b : BitVec 5) (i : BitVec 11) (s : State) : Out := runAct clsMem 4 0 false (ldsBody 2 false d b i) s
def execLdsW (d b : BitVec 5) (i : BitVec 11) (s : State) : Out := runAct clsMem 4 0 false (ldsBody 4 true d b i) s
def execLdsWu (d b : BitVec 5) (i : BitVec 11) (s : State) : Out := runAct clsMem 4 0 false (ldsBody 4 false d b i) s
def execLdsD (d b : BitVec 5) (i : BitVec 11) (s : State) : Out := runAct clsMem 4 0 false (ldsBody 8 false d b i) s

/-- Where a CHK goes on (R200); FETCH for its target comes before every other fault (R85, R196). -/
def chkTo (a : BitVec 5) (o : BitVec 19) (st : Strand) : Except Trap (BitVec 17) :=
  match if st.xd a then target st.pc o else .ok (st.pc + 4) with
  | .error t => .error t
  | .ok pc => (st.checkUe [a]).map fun _ => pc

def execChk (a : BitVec 5) (o : BitVec 19) (s : State) : Out := runJump clsMem (chkTo a o) s

/-! ### FENCE and FLUSHR -/

/-- FENCE (R204): the accesses that its kind names have been performed, and their replies are here. FENCE.all takes its
place in the total order of R222, which RECORD and REPLAY log and force. -/
def fenceBody (kind : BitVec 2) (core : Bool) (st : Strand) : Act Next := do
  let s ← get
  if s.fenceWaits st kind core then holdFor (.fence kind core)
  else if kind = 2 then
    let c := partyChoice (s.logical st.pcore) st.retired
    if s.dmode st.scope = 1 then
      modify fun s => s.logChoice st.scope 5 0 0 c
      pure .seq
    else if s.dmode st.scope = 2 then
      match s.logged st.scope 5 0 (s.ltime st.scope 5 0) with
      | some (_, w) =>
        if w = c then
          modify fun s => s.bumpLtime st.scope 5 0
          pure .seq
        else if s.partyMayCome st.scope w then holdFor (.fence kind core)
        else
          modify fun s => s.diverges st.scope
          pure .seq
      | none =>
        modify fun s => s.diverges st.scope
        pure .seq
    else pure .seq
  else pure .seq

def execFence (g sc : BitVec 3) (k : BitVec 2) (s : State) : Out := runAct clsMem 4 g true (fenceBody k (sc == 0)) s

/-- The region of a token instruction, or PATH 3 (R206). -/
def regionOf (w : Word) : Act Region :=
  match decodeRegion w with
  | some r => pure r
  | none => raise { code := .path, sub := 3, va := w }

/-- FLUSHR (R205): the holder of the full token writes its dirty lines back; they stay, clean. A dirty line with a parity
failure is discarded and raises VAULT_PARITY (R192). -/
def flushrBody (a : BitVec 5) (st : Strand) : Act Next := do
  liftT (st.sources [a])
  let w := st.xv a
  let r ← regionOf w
  let s ← get
  match s.token r (s.pasidOf st.scope) with
  | none => raise (tokenAbsent 2 w)
  | some t =>
    if t.state = .reclaiming then throw (.reclaim w)
    else if !t.holdsFull st.parties then raise (tokenAbsent 2 w)
    else
      let pasid := s.pasidOf st.scope
      match (s.linesOf st.pcore r pasid).findSome? fun kl => if kl.2.dirty then (kl.2.failing allWords).map fun f => (kl, f) else none with
      | some ((key, l), i, synd) =>
        let off := ((l.tags.find? fun t => t.1 == pasid && r.covers t.2).map (·.2)).getD 0
        let va : Word := BitVec.ofNat 64 (r.path * 2 ^ 50 + off)
        let c : Ctx0 := { ctx := st.handle, pasid := pasid, keyid := l.keyid, va := va }
        set ((s.logLine st.pcore l i 5 synd c).dropLine st.pcore key)
        raise { code := .vaultParity, va := va, aux := BitVec.ofNat 64 key }
      | none =>
        set (s.flushRegion st.pcore r pasid)
        pure .seq

def execFlushr (a : BitVec 5) (g : BitVec 3) (s : State) : Out := runAct clsMem 4 g true (flushrBody a) s

end Sys2Proof.Machine
end

