-- ==== Sys2Proof/Machine/TokenOps.lean ====
section
/-! DEFINITION. Major TOKEN (R206 to R212, R403) and the events of tokens. -/

namespace Sys2Proof.Machine

/-! ### What a token instruction checks at issue (R206, R207, R210) -/

/-- The token of a region word, for an instruction that acts at issue: none of the tenant, RECLAIMING and POISONED stop
it. -/
def tokenOf (st : Strand) (w : Word) : Act (Region × Token) := do
  let r ← regionOf w
  let s ← get
  match s.token r (s.pasidOf st.scope) with
  | none => raise (tokenAbsent 1 w)
  | some t =>
    if t.state = .reclaiming then throw (.reclaim w)
    else if t.state = .poisoned then raise { code := .poisoned, aux := w }
    else pure (r, t)

/-- The issuer owns the token and has not given it up. -/
def Token.ownedBy (t : Token) (p : Party) : Bool := t.owner == p && !t.giving && t.settled p

/-- The issuer is the last borrower. -/
def Token.borrowedBy (t : Token) (p : Party) : Bool := t.state == .lent && t.borrowers.getLast? == some p && t.settled p

/-- The receiver operand of R209; a peer that is not up is DEAD_PEER (R369). `channelOk`: a lend may go to a channel. -/
def State.receiverOf (s : State) (st : Strand) (w x : Word) (channelOk : Bool) : Except Trap Party :=
  let bad : Except Trap Party := .error (tokenAbsent 6 w)
  let p := receiverParty x
  if x.extractLsb' 48 16 ≠ 0 then bad
  else
    match p.kind with
    | .peer =>
      if handleGen p.id = 0 then bad
      else if 1024 < p.dev.toNat ∨ (s.peers.get (0, 0, 0) (p.dev.toNat - 1)).1 ≠ 1 then .error { code := .deadPeer }
      else .ok p
    | .channel =>
      let h := s.handler (channelCore p.id) (channelNo p.id)
      if channelOk ∧ h.depth ≠ 0 ∧ h.tenant = (s.scope st.scope).tenant ∧ (h.scratch = 0 ∨ h.scratch = w)
          ∧ p.id.extractLsb' 6 12 = 0 then .ok p
      else bad
    | _ =>
      if handleGen p.id = 0 ∨ p.id = st.handle then bad
      else
        match s.named p.id with
        | some o => if (s.scope o.scope).pasid = s.pasidOf st.scope then .ok p else bad
        | none => .ok p

/-- A transfer leaves (R208): the giver has lost its rights; `f` marks that in the directory. -/
def transfer (st : Strand) (kind : GrantKind) (r : Region) (w : Word) (giver receiver : Party) (f : Token → Token) : Act Unit :=
  modify fun s =>
    let pasid := s.pasidOf st.scope
    let n := s.fresh
    let s := (s.modToken r pasid f).sendGrant kind r w pasid giver receiver st.scope (s.logical st.pcore) st.serial st.retired
      (st.pend.map (·.number))
    (s.modStrand st.sk fun st => { st with moves := n :: st.moves.filter s.outst.contains }).countPacket st.sk .tokenGrant .none

def leave (p : Party) (t : Token) : Token := { t with leaving := p :: t.leaving }

/-! ### Transfers -/

/-- What a lend needs of its giver (R209, R210): the owner in HELD or the last borrower, and room in the chain. -/
def lendable (st : Strand) (w : Word) : Act Region := do
  let (r, t) ← tokenOf st w
  let me := strandParty st.handle
  if !(t.ownedBy me || t.borrowedBy me) then raise (tokenAbsent 2 w)
  else if !(t.borrowedBy me || (t.state == .held && t.sharing == 0)) then raise (tokenAbsent 3 w)
  else if 4 ≤ t.borrowers.length then raise (tokenAbsent 4 w)
  else pure r

/-- TLEND; a channel's SCRATCH receives the region word (R403). -/
def tlendBody (a b : BitVec 5) (st : Strand) : Act Next := do
  liftT (st.sources [a, b])
  let w := st.xv a
  let me := strandParty st.handle
  let r ← lendable st w
  let p ← liftT ((← get).receiverOf st w (st.xv b) true)
  if p.kind = .channel then
    modify fun s =>
      let h := s.handler (channelCore p.id) (channelNo p.id)
      s.setHandler (channelCore p.id) (channelNo p.id) { h with scratch := w }
  transfer st .lend r w me p (leave me)
  pure .seq

/-- TRET by the last borrower, or the channel of the activation, or a share holder. -/
def tretBody (a : BitVec 5) (st : Strand) : Act Next := do
  liftT (st.sources [a])
  let w := st.xv a
  let (r, t) ← tokenOf st w
  match st.parties.find? t.borrowedBy with
  | some p =>
    transfer st .ret r w p p (leave p)
    pure .seq
  | none =>
    match st.parties.find? fun p => t.netShares p != 0 with
    | some p =>
      transfer st .shareRet r w p p (leave p)
      pure .seq
    | none => raise (tokenAbsent 2 w)

/-- TGIVE by the owner in HELD or SEALED; to x[b] = 0 parks it with the issuer's scope. -/
def tgiveBody (a b : BitVec 5) (st : Strand) : Act Next := do
  liftT (st.sources [a, b])
  let w := st.xv a
  let (r, t) ← tokenOf st w
  let me := strandParty st.handle
  if !t.ownedBy me then raise (tokenAbsent 2 w)
  else if !((t.state == .held && t.sharing == 0) || t.state == .sealed_) then raise (tokenAbsent 3 w)
  else if st.xv b = 0 then
    transfer st .park r w me (scopeParty st.scope) fun t => { t with giving := true }
    pure .seq
  else
    let p ← liftT ((← get).receiverOf st w (st.xv b) false)
    transfer st .give r w me p fun t => { t with giving := true }
    pure .seq

/-- TSHARE by the owner in HELD or SHARED. -/
def tshareBody (a b : BitVec 5) (st : Strand) : Act Next := do
  liftT (st.sources [a, b])
  let w := st.xv a
  let (r, t) ← tokenOf st w
  let me := strandParty st.handle
  if !t.ownedBy me then raise (tokenAbsent 2 w)
  else if !(t.state == .held || t.state == .shared) then raise (tokenAbsent 3 w)
  else if 65535 ≤ t.shares.length + t.sharing then raise (tokenAbsent 4 w)
  else
    let p ← liftT ((← get).receiverOf st w (st.xv b) false)
    transfer st .share r w me p fun t => { t with sharing := t.sharing + 1 }
    pure .seq

def execTlend (a b : BitVec 5) (g : BitVec 3) (s : State) : Out := runAct clsMem 4 g true (tlendBody a b) s
def execTret (a : BitVec 5) (g : BitVec 3) (s : State) : Out := runAct clsMem 4 g true (tretBody a) s
def execTgive (a b : BitVec 5) (g : BitVec 3) (s : State) : Out := runAct clsMem 4 g true (tgiveBody a b) s
def execTshare (a b : BitVec 5) (g : BitVec 3) (s : State) : Out := runAct clsMem 4 g true (tshareBody a b) s

/-! ### Requests that wait for the home -/

/-- Sends a request to the home of a region and waits for its answer. The strand's sync-cell operations come first, so that
the words of a region it claims hold what it has stored (R198). -/
def askHome (ev : Instr) (op : BitVec 6) (r : Region) (w arg : Word) (st : Strand) : Act Word := do
  match st.answer with
  | some (.value v) => pure v
  | some (.trap t) => raise t
  | _ =>
    let s ← get
    let pasid := s.pasidOf st.scope
    match s.token r pasid with
    | some t => if t.state = .reclaiming then throw (.reclaim w)
    | none => pure ()
    let n ← newNumber
    let q : TokReq :=
      { op := op, region := w, arg := arg, handle := st.handle, sk := st.sk, lcore := s.logical st.pcore, pasid := pasid
        scope := st.scope, dst := none, retired := st.retired }
    modify fun s => s.requestOf st 2 (laneOf (if ev == .tokenQuery then 1 else 0) (s.logical st.pcore) (s.tokenNode r pasid)) ev (.tokReq n q) (st.pend.map (·.number))
    holdFor (.reply n)

/-- A request without a result: TJOIN, TSEAL, TUNSEAL, TCLR. TSEAL writes the owner's dirty lines back first. -/
def tokenBody (op : BitVec 6) (a : BitVec 5) (st : Strand) : Act Next := do
  let s ← get
  if op = 10 ∧ !s.isSys st.scope then raise { code := .priv }
  else
    liftT (st.sources [a])
    let w := st.xv a
    let r ← regionOf w
    if op = 8 then modify fun s => s.flushRegion st.pcore r (s.pasidOf st.scope)
    let _ ← askHome .tokenRequest op r w 0 st
    pure .seq

/-- One with a result: TSPLIT, TCLAIM. -/
def tokenValueBody (op : BitVec 6) (d a : BitVec 5) (b : Option (BitVec 5)) (st : Strand) : Act Next := do
  liftT (st.sources (a :: b.toList))
  liftT (st.checkDst d.toNat)
  let w := st.xv a
  let r ← regionOf w
  let v ← askHome .tokenRequest op r w ((b.map st.xv).getD 0) st
  putX d v
  pure .seq

def execTsplit (d a b : BitVec 5) (g : BitVec 3) (s : State) : Out :=
  runAct clsMem 4 g true (tokenValueBody 3 d a (some b)) s
def execTjoin (a : BitVec 5) (g : BitVec 3) (s : State) : Out := runAct clsMem 4 g true (tokenBody 5 a) s
def execTseal (a : BitVec 5) (g : BitVec 3) (s : State) : Out := runAct clsMem 4 g true (tokenBody 8 a) s
def execTunseal (a : BitVec 5) (g : BitVec 3) (s : State) : Out := runAct clsMem 4 g true (tokenBody 9 a) s
def execTclr (a : BitVec 5) (g : BitVec 3) (s : State) : Out := runAct clsMem 4 g true (tokenBody 10 a) s
def execTclaim (d a : BitVec 5) (g : BitVec 3) (s : State) : Out := runAct clsMem 4 g true (tokenValueBody 11 d a none) s

/-- TQRY (R211). -/
def tqryBody (d a : BitVec 5) (st : Strand) : Act Next := do
  liftT (st.sources [a])
  liftT (st.checkDst d.toNat)
  let w := st.xv a
  let r ← regionOf w
  let v ← askHome .tokenQuery 6 r w 0 st
  putX d v
  pure .seq

def execTqry (d a : BitVec 5) (g : BitVec 3) (s : State) : Out := runAct clsMem 4 g true (tqryBody d a) s

/-! ### TWAIT -/

/-- The end of a TWAIT; the outcome of one with a timeout is logged (R386). -/
def twaitEnd (st : Strand) (w : Word) (timed : Bool) (d : BitVec 5) (v : Word) : Act Next := do
  if timed then
    modify fun s => if s.dmode st.scope = 1 then s.logChoice st.scope 9 0 w (v.setWidth 32)
                    else if s.dmode st.scope = 2 then s.bumpLtime st.scope 9 w else s
  putX d v
  pure .seq

/-- TWAIT: 1 with a right to the region, 0 when the timeout ends first; REPLAY takes the outcome from its log. -/
def twaitBody (d a b : BitVec 5) (st : Strand) : Act Next := do
  liftT (st.sources [a, b])
  let s ← get
  let time := (st.xv b).toNat
  if time ≠ 0 ∧ s.isQuanta st.scope then raise { code := .determinism }
  else
    liftT (st.checkDst d.toNat)
    let w := st.xv a
    let _ ← tokenOf st w
    let replays : Bool := time != 0 && s.dmode st.scope == 2
    let logged : Option (BitVec 32) := if replays then (s.logged st.scope 9 w (s.ltime st.scope 9 w)).map (·.2) else none
    if replays && logged.isNone then modify fun s => s.diverges st.scope
    if logged = some 0 then twaitEnd st w true d 0
    else if s.hasRight st w then twaitEnd st w (time != 0) d 1
    else if st.answer = some .timeout then twaitEnd st w (time != 0) d 0
    else
      let n ← newNumber
      if time ≠ 0 ∧ logged.isNone then modify fun s => s.after time .twaitTimeout (.strand st.sk st.handle n)
      holdFor (.token w n)

def execTwait (d a b : BitVec 5) (g : BitVec 3) (s : State) : Out := runAct clsMem 4 g true (twaitBody d a b) s

/-- TWAIT_TIMEOUT ends the wait that started it. -/
def execTwaitTimeout (s : State) : Out :=
  match s.arg with
  | .strand sk h n =>
    match s.waiter sk h with
    | none => .next s
    | some st =>
      match st.wait with
      | .token _ m => if m = n then .next (s.setStrand { st with wait := .none, answer := some .timeout }) else .next s
      | _ => .next s
  | _ => .next s

/-! ### At the home -/

/-- Is the region's token RECLAIMING, so that requests and grants wait (R207)? -/
def State.reclaims (s : State) (w : Word) (pasid : BitVec 20) : Bool :=
  match (decodeRegion w).bind (s.token · pasid) with
  | some t => t.state == .reclaiming
  | none => false

/-- TOKEN_REQUEST: requests for one region are served one at a time in order of arrival (R212). -/
def execTokenRequest (s : State) : Out :=
  match s.arg with
  | .tokReq n q =>
    if s.reclaims q.region q.pasid then .next (s.after 1 .tokenRequest (.tokReq n q))
    else .next (s.ordered q.scope 3 0 q.region (partyChoice q.lcore q.retired) (·.after 1 .tokenRequest (.tokReq n q))
      (·.tokenRequested n q))
  | _ => .next s

/-- TOKEN_QUERY: the state as the home holds it now (R211). -/
def execTokenQuery (s : State) : Out :=
  match s.arg with
  | .tokReq n q =>
    match decodeRegion q.region with
    | none => .next s
    | some r =>
      let ps := ((s.waiter q.sk q.handle).map (·.parties)).getD [strandParty q.handle]
      let v := queryWord (s.token r q.pasid) ps
      .next (s.deliver q.scope (laneOf 1 (s.tokenNode r q.pasid) q.lcore) .tokenQueryReply
        (.answer q.sk q.handle n (.value v)))
  | _ => .next s

/-- TOKEN_QUERY_REPLY reaches the issuer. -/
def execTokenQueryReply (s : State) : Out :=
  match s.arg with
  | .answer sk h n a => .next (s.reply sk h n a)
  | _ => .next s

/-- TOKEN_GRANT passes through its home (R208, R212). -/
def execTokenGrant (s : State) : Out :=
  match s.arg with
  | .grant g =>
    if s.reclaims g.region g.pasid then .next (s.after 1 .tokenGrant (.grant g))
    else .next (s.ordered g.scope 3 0 g.region (partyChoice g.lcore g.retired) (·.after 1 .tokenGrant (.grant g)) (·.recordGrant g))
  | _ => .next s

/-- TOKEN_GRANT_ARRIVAL (R208, R212). -/
def execTokenGrantArrival (s : State) : Out :=
  match s.arg with
  | .grant g => .next (s.grantArrives g)
  | _ => .next s

end Sys2Proof.Machine
end

