-- ==== Sys2Proof/Machine/QueueOps.lean ====
section
/-! DEFINITION. Major QUEUE (R267 to R274) and the events of queue registers: queue words and credits (R239, R240). -/

namespace Sys2Proof.Machine

/-- QUEUE_UNBOUND with its subcode and sw.trapaux (R237, R269). -/
def unbound (sub : BitVec 8) (aux : Word) : Trap := { code := .queueUnbound, sub := sub, aux := aux }

/-- A broken binding: DEAD_PEER where its partner is dead, else subcode 2 (R240). -/
def brokenTrap (dead : Bool) (q : BitVec 3) : Trap :=
  if dead then { code := .deadPeer } else unbound 2 (q.setWidth 64)

/-- The binding of a register, or QUEUE_UNBOUND 1. -/
def bindingOf (st : Strand) (q : BitVec 3) : Act Binding :=
  match st.q q.toNat with
  | some b => pure b
  | none => raise (unbound 1 (q.setWidth 64))

/-! ### QBIND, QUNB -/

/-- The binding that an endpoint word and a partner word describe, or the malformed one of the two (R269, R270). -/
def endpointOf (a b : Word) : Except Word Binding :=
  let kind : BitVec 3 := a.extractLsb' 0 3
  let side := a.getLsbD 3
  let chan : BitVec 6 := a.extractLsb' 4 6
  let handle : Handle := b.extractLsb' 0 32
  let dev : BitVec 16 := b.extractLsb' 32 16
  let named := kind = 0 ∨ kind = 4 ∨ kind = 5
  if a.extractLsb' 10 54 ≠ 0 ∨ 5 < kind ∨ (1 < kind ∧ chan ≠ 0) ∨ (side ∧ kind ≠ 2 ∧ kind ≠ 3) then .error a
  else if named ∧ (b.extractLsb' 48 16 ≠ 0 ∨ 16 < handlePos handle) then .error b
  else if (kind = 4 ∨ kind = 5) ∧ dev ≠ 0 then .error b
  else if named then .ok { kind := kind, side := side, chan := chan, partner := handle, pdev := dev }
  else .ok { kind := kind, side := side, chan := chan }

/-- Has an endpoint another consumer or binder already (R238, R241, R269)? A saved strand keeps its own (R242). -/
def State.endpointTaken (s : State) (st : Strand) (b : Binding) : Bool :=
  let l := s.logical st.pcore
  let same (qs : Assoc Binding) : Bool := qs.any fun q => q.2.kind == b.kind && q.2.side == b.side
  if b.kind = 1 then (s.handler l b.chan.toNat).depth != 0 || s.received l b.chan
  else if b.kind = 2 ∨ b.kind = 3 then
    (s.strands.any fun kv => pcoreOf kv.1 == st.pcore && kv.1 != st.sk && same kv.2.queues)
      || s.kiln.saves.any fun kv => kv.2.lcore == l && same kv.2.st.queues
  else false

/-- Does a pair between two strands wait for the side that a binding is? -/
def Pair.awaits (p : Pair) (o i : Handle) (out : Bool) : Bool :=
  p.outH == o && p.inH == i && !p.broken && !(if out then p.outB else p.inB)

/-- A send binding takes a number. A pair binding makes a pair FIFO, or joins the one that its partner's binding has made
and that waits for it: the number is the pair's. -/
def State.numbered (s : State) (st : Strand) (b : Binding) : State × Binding :=
  let n := s.fresh + 1
  let fresh : State := { s with fresh := n }
  if b.kind = 0 then (fresh, { b with num := n })
  else if b.kind = 4 ∨ b.kind = 5 then
    let out := b.kind == 4
    let (o, i) := if out then (st.handle, b.partner) else (b.partner, st.handle)
    match s.pairs.find? fun p => p.awaits o i out with
    | some p => (s.setPair (if out then { p with outB := true } else { p with inB := true }), { b with num := p.num })
    | none => (fresh.setPair { num := n, outH := o, inH := i, outB := out, inB := !out }, { b with num := n })
  else (s, b)

def qbindBody (q : BitVec 3) (a b : BitVec 5) (st : Strand) : Act Next := do
  let kind : BitVec 3 := (st.xv a).extractLsb' 0 3
  liftT (st.sources (if kind = 0 ∨ kind = 4 ∨ kind = 5 then [a, b] else [a]))
  modify fun s => s.unbind st.sk q.toNat
  let s ← get
  match endpointOf (st.xv a) (st.xv b) with
  | .error w => raise (unbound 5 w)
  | .ok e =>
    let pair := e.kind = 4 ∨ e.kind = 5
    if pair ∧ (e.partner = st.handle ∨ handleSk e.partner / 16 ≠ st.pcore ∨ (s.named e.partner).isNone) then
      raise (unbound 5 (st.xv b))
    else if s.endpointTaken st e then raise (unbound 4 (q.setWidth 64))
    else if e.kind = 0 ∧ e.pdev = 0 ∧ s.isRetired (s.handleCore e.partner) then
      raise { code := .deadPeer }
    else if e.kind = 0 ∧ e.pdev ≠ 0 ∧ !s.peerUp e.pdev then raise { code := .deadPeer }
    else
      modify fun s =>
        let (s, e) := s.numbered st e
        s.modStrand st.sk fun st => st.setQ q.toNat e
      pure .seq

/-- QUNB (R271). -/
def qunbBody (q : BitVec 3) (st : Strand) : Act Next := do
  let _ ← bindingOf st q
  modify fun s => s.unbind st.sk q.toNat
  pure .seq

def execQbind (q : BitVec 3) (a b : BitVec 5) (g : BitVec 3) (s : State) : Out := runAct clsComm 4 g true (qbindBody q a b) s
def execQunb (q g : BitVec 3) (s : State) : Out := runAct clsComm 4 g true (qunbBody q) s

/-! ### QRD, QWR -/

/-- Frees the oldest entry of a read binding; a freed network entry serves a waiting credit request (R239). -/
def State.takeWord (s : State) (st : Strand) (q : Nat) (b : Binding) : State :=
  if b.kind = 1 then (s.modStrand st.sk fun st => st.setQ q { b with words := b.words.drop 1 }).grantWaiting st.sk q
  else if b.kind = 3 then s.modLCore (s.logical st.pcore) fun l => l.setFifo b.side ((l.fifo b.side).drop 1)
  else
    match s.pair b.num with
    | some p => s.setPair { p with words := p.words.drop 1 }
    | none => s

/-- QRD (R272): a register found empty makes it a cancellation point; an entry whose presence bit is not yet set does
not (R237). -/
def qrdBody (d : BitVec 5) (q : BitVec 3) (st : Strand) : Act Next := do
  let b ← bindingOf st q
  if !b.isRead then raise (unbound 3 (q.setWidth 64))
  else
    let s ← get
    match s.readable st b with
    | some w =>
      putX d w
      modify fun s => s.takeWord st q.toNat b
      pure .seq
    | none =>
      if (s.entries st b).isEmpty then
        let (broken, dead) := s.brokenBy st b
        if broken then raise (brokenTrap dead q)
        else
          cancelPoint st
          holdFor (.queueIn q.toNat)
      else holdFor (.queueIn q.toNat)

/-- Appends a word to a write binding; a QUANTA scope's words for another strand wait for the quantum's end (R383). -/
def State.writeWord (s : State) (st : Strand) (q : Nat) (b : Binding) (w : Word) : State :=
  let l := s.logical st.pcore
  if b.kind = 0 then (s.modStrand st.sk fun st => st.setQ q { b with words := b.words ++ [w] }).pump st.sk q
  else
    let pair := b.kind == 4
    let dst := if pair then b.num else neighbour l b.side
    let right := !pair && !b.side
    if s.isQuanta st.scope then s.requestOf st 2 0 .queueWord (.fifo pair dst right st.handle w)
    else s.placeWord pair dst right w

/-- QWR (R272). -/
def qwrBody (a : BitVec 5) (q : BitVec 3) (st : Strand) : Act Next := do
  liftT (st.sources [a])
  let b ← bindingOf st q
  if b.isRead then raise (unbound 3 (q.setWidth 64))
  else
    let s ← get
    let (broken, dead) := s.brokenBy st b
    if broken then raise (brokenTrap dead q)
    else if !s.writable st b then holdFor (.queueOut q.toNat)
    else
      modify fun s => s.writeWord st q.toNat b (st.xv a)
      pure .seq

def execQrd (d : BitVec 5) (q g : BitVec 3) (s : State) : Out := runAct clsComm 4 g true (qrdBody d q) s
def execQrdCompact (q : BitVec 3) (d : BitVec 5) (s : State) : Out := runAct clsComm 2 0 true (qrdBody d q) s
def execQwr (a : BitVec 5) (q g : BitVec 3) (s : State) : Out := runAct clsComm 4 g true (qwrBody a q) s
def execQwrCompact (q : BitVec 3) (a : BitVec 5) (s : State) : Out := runAct clsComm 2 0 true (qwrBody a q) s

/-! ### QPOLL, QSTAT -/

/-- The site under which what QPOLL and QSTAT return is logged: the core, and the register (R387; log entry 10). -/
def State.pollSite (s : State) (st : Strand) (q : BitVec 3) : Word :=
  BitVec.ofNat 64 (64 * s.logical st.pcore + q.toNat)

/-- QPOLL (R273). -/
def qpollBody (p q : BitVec 3) (st : Strand) : Act Next := do
  let b ← bindingOf st q
  let s ← get
  let (broken, dead) := s.brokenBy st b
  if !b.isRead && broken then raise (brokenTrap dead q)
  else
    let v := if b.isRead then (s.readable st b).isSome else s.writable st b
    let (s', v') := s.polled st.scope 9 (s.pollSite st q) (BitVec.ofNat 32 v.toNat)
    set s'
    let st ← me
    setMe (st.setP p (v' != 0))
    pure .seq

/-- The status word of R274; an unbound register reads 0. -/
def State.queueStatus (s : State) (st : Strand) (q : Nat) : Word :=
  match st.q q with
  | none => 0
  | some b =>
    let credits := if b.kind = 0 then b.credits else if b.kind = 1 then b.requests.length else 0
    let count := if b.isRead then (s.entries st b).length else s.written st b
    0#24 ++ BitVec.ofNat 8 credits ++ 0#8 ++ BitVec.ofNat 8 count ++ 0#2 ++ b.chan ++ BitVec.ofBool (s.brokenBy st b).1
      ++ b.kind ++ BitVec.ofBool b.side ++ 0#2 ++ 1#1

/-- QSTAT. What RECORD logs is the low half of the word (R387). -/
def qstatBody (d : BitVec 5) (q : BitVec 3) (st : Strand) : Act Next := do
  liftT (st.checkDst d.toNat)
  let s ← get
  let v := s.queueStatus st q.toNat
  let (s', lo) := s.polled st.scope 9 (s.pollSite st q) (v.setWidth 32)
  set s'
  putX d (v.extractLsb' 32 32 ++ lo)
  pure .seq

def execQpoll (p q g : BitVec 3) (s : State) : Out := runAct clsComm 4 g true (qpollBody p q) s
def execQstat (d : BitVec 5) (q g : BitVec 3) (s : State) : Out := runAct clsComm 4 g true (qstatBody d q) s

/-! ### Events -/

/-- Changes the send binding of a number, of a strand or of a saved one. -/
def State.modSender (s : State) (n : Nat) (f : Binding → Binding) : State :=
  match s.sender n with
  | some (st, q, b) => s.setStrand (st.setQ q (f b))
  | none =>
    match s.savedSender n with
    | some (m, sv, q, b) => s.setSavedQ m sv q (f b)
    | none => s

/-- Breaks a send binding, its words discarded (R240). -/
def State.breakSend (s : State) (n : Nat) : State :=
  s.modSender n fun b => { b with broken := true, words := [], asked := false }

/-- QUEUE_WORD: a word takes an entry reserved for its sender; one that finds none is discarded, and at a channel without
a receive binding its sender is told NOCHAN (R238 to R240). -/
def State.wordArrives (s : State) (lcore : Nat) (chan : BitVec 6) (h : Handle) (n : Nat) (w : Word) : State :=
  let take (b : Binding) : Binding := { b with reserved := unreserve b.reserved n 1, words := b.words ++ [w] }
  match s.receiver lcore chan with
  | none =>
    match s.savedReceiver lcore chan with
    | none => s.answerCredit lcore h n 0 true
    | some (m, sv, q, b) => if b.reserved.any fun e => e.2.1 = n then s.setSavedQ m sv q (take b) else s
  | some (st, q, b) => if b.reserved.any fun e => e.2.1 = n then s.setStrand (st.setQ q (take b)) else s

/-- What a send binding has for a peer device leaves by the bridge where its tenant has a pair; else it is refused with cause
DEAD, and the binding breaks (R240, R369). -/
def State.crosses (s : State) (lcore n : Nat) (ev : Instr) : State :=
  let scope : ScopeId := match s.sender n, s.savedSender n with
    | some (st, _, _), _ => st.scope
    | none, some (_, sv, _, _) => sv.st.scope
    | none, none => 0
  if s.isPaired (lcore / 512) (s.scope scope).tenant then s.leaves ev
  else s.modSender n fun b => { b with broken := true, dead := true, words := [], asked := false }

/-- The scope of a receive side, in a quantum of which a word of a peer device waits. -/
def State.wordHeld (s : State) (lcore : Nat) (chan : BitVec 6) (h : Handle) (n : Nat) : Option ScopeId :=
  (s.receiver lcore chan).bind fun r =>
    if 2 ^ 40 ≤ n && s.holdsPeers r.1.scope (s.senderCore h n) then some r.1.scope else none

def execQueueWord (s : State) : Out :=
  match s.arg with
  | .queueWord l c h n w =>
    .next (if 512 ≤ l then s.crosses l n .queueWord
      else match s.wordHeld l c h n with
        | some scope => s.peerRequest scope (s.senderCore h n) .queueWord
        | none => s.wordArrives l c h n w)
  | .fifo pair l right _ w => .next (s.placeWord pair l right w)
  | _ => .next s

/-- CREDIT_REQUEST (R239): min(requested, free) entries are granted; with none free the request waits, and a 17th is
answered with a grant of 0. -/
def State.creditAsked (s : State) (lcore : Nat) (chan : BitVec 6) (h : Handle) (n k : Nat) : State :=
  match s.receiver lcore chan with
  | none =>
    match s.savedReceiver lcore chan with
    | none => s.answerCredit lcore h n 0 true
    | some (m, sv, q, b) =>
      let g := Nat.min (Nat.min k 8) b.free
      if g ≠ 0 then (s.setSavedQ m sv q { b with reserved := reserve b.reserved h n g }).answerCredit lcore h n g false
      else if 16 ≤ b.requests.length then s.answerCredit lcore h n 0 false
      else s.setSavedQ m sv q { b with requests := b.requests ++ [(h, n, k)] }
  | some (st, q, b) =>
    let g := Nat.min (Nat.min k 8) b.free
    if g ≠ 0 then
      (s.setStrand (st.setQ q { b with reserved := reserve b.reserved h n g })).answerCredit lcore h n g false
    else if 16 ≤ b.requests.length then s.answerCredit lcore h n 0 false
    else s.setStrand (st.setQ q { b with requests := b.requests ++ [(h, n, k)] })

def execCreditRequest (s : State) : Out :=
  match s.arg with
  | .creditRequest l c h n k => .next (if 512 ≤ l then s.crosses l n .creditRequest else s.creditAsked l c h n k)
  | _ => .next s

/-- CREDIT_GRANT: credits let the binding inject; a grant of 0 asks again after 64 cycles; NOCHAN breaks it (R239,
R240). A grant that finds its binding released goes back. -/
def State.creditGranted (s : State) (h : Handle) (n k : Nat) (nochan : Bool) : State :=
  if nochan then s.breakSend n
  else if k = 0 then s.after Config.retryWait .creditRequestRetry (.creditGrant h n 0 false)
  else
    let s' := s.modSender n fun b => { b with credits := b.credits + k, asked := false }
    match s.sender n with
    | some (st, q, _) => s'.pump st.sk q
    | none => if (s.savedSender n).isSome then s' else s.returnCredits n k

def execCreditGrant (s : State) : Out :=
  match s.arg with
  | .creditGrant h n k nochan => .next (if 2 ^ 40 ≤ n then s.leaves .creditGrant else s.creditGranted h n k nochan)
  | _ => .next s

/-- CREDIT_REQUEST_RETRY: the request is made again for the words that wait now. -/
def execCreditRequestRetry (s : State) : Out :=
  match s.arg with
  | .creditGrant _ n _ _ =>
    let s' := s.modSender n fun b => { b with asked := false }
    match s.sender n with
    | some (st, q, _) => .next (s'.pump st.sk q)
    | none => .next s'
  | _ => .next s

end Sys2Proof.Machine
end

