-- ==== Sys2Proof/Machine/Messages.lean ====
section
/-! DEFINITION. Major MSG (R275 to R281), the end of a strand (R329), and the events of messages: arrival, reply, refusal,
resend (R252 to R255, R276, R277). -/

namespace Sys2Proof.Machine

/-! ### Weight that comes back (R252) -/

/-- Adds weight to what a strand holds of a scope: its stock of an open scope, or its own weight. -/
def Strand.addWeight (st : Strand) (scope : ScopeId) (w : Nat) : Option Strand :=
  if st.opens.any fun r => r.scope = scope && !r.returned then
    some { st with opens := st.opens.map fun r => if r.scope = scope then { r with stock := r.stock + w } else r }
  else if st.scope = scope then some { st with weight := st.weight + w }
  else none

/-- Gives weight of a scope back to the strand it came from; where that has gone, to the scope's home. -/
def State.giveBack (s : State) (sk : Nat) (h : Handle) (scope : ScopeId) (lcore w : Nat) : State :=
  match (s.waiter sk h).bind (·.addWeight scope w) with
  | some st => s.setStrand st
  | none => s.returnWeight scope lcore 0 w false false

/-- A core of a gated cluster wakes (R34). -/
def State.wakeCore (s : State) (p : Nat) : State :=
  ((s.modCore p fun c => { c with gated := false }).modCluster (clusterOf p) fun c => { c with gated := false }).workLeaves (clusterOf p)

/-- What is addressed to a gated core wakes it before its delivery (R34). -/
def State.wakeFirst (s : State) (lcore : Nat) : State :=
  match s.physical lcore with
  | some p => if (s.core p).gated then s.wakeCore p else s
  | none => s

/-! ### SEND, SENDR -/

/-- The destination word of R275: core and channel, or a peer device. -/
structure MsgDest where
  dev : BitVec 16
  lcore : Nat
  chan : BitVec 6
  deriving DecidableEq, Repr

def msgDest (w : Word) : Option MsgDest :=
  if w.extractLsb' 48 16 ≠ 0 ∨ w.extractLsb' 17 15 ≠ 0 ∨ w.extractLsb' 6 2 ≠ 0 then none
  else some { dev := w.extractLsb' 32 16, lcore := (w.extractLsb' 8 9).toNat, chan := w.extractLsb' 0 6 }

/-- Sends a message with a share of the strand's weight; the answer to a QUANTA scope's message comes at the quantum's
end. -/
def sendMessage (dst : MsgDest) (words : List Word) (wantReply : Bool) : Act Nat := do
  let w ← splitWeight
  let n ← newNumber
  let st ← me
  let s ← get
  let here := s.logical st.pcore
  let m : Msg :=
    { number := n, lcore := 512 * dst.dev.toNat + dst.lcore, chan := dst.chan, words := words, sender := st.handle, sk := st.sk
      scope := st.memberScope, weight := BitVec.ofNat 32 w, wantReply := wantReply, tenant := (s.scope st.scope).tenant
      fromCore := here, retired := st.retired }
  modify fun s => s.requestFor st m.scope 6 (laneOf 1 here (coreNode m.lcore)) .message (.msg m)
  pure n

/-- The registers and checks that both sends share: REG_UE and DEFERRED of the sources, the destination word, and a peer
that is not up. -/
def sendTo (a b : BitVec 5) (n : BitVec 3) (d : Option (BitVec 5)) (st : Strand) : Act (MsgDest × List Word) := do
  let regs := regsFrom b n.toNat
  liftT (st.sources (a :: regs))
  match d with
  | some d => if st.s ≤ d.toNat + 4 then raise { code := .regUnallocated, aux := BitVec.ofNat 64 (d.toNat + 4) }
  | none => pure ()
  match msgDest (st.xv a) with
  | none => raise (unbound 5 (st.xv a))
  | some dst =>
    let s ← get
    if dst.dev ≠ 0 ∧ !s.peerUp dst.dev then raise { code := .deadPeer }
    else pure (dst, regs.map st.xv)

/-- SEND (R276): a cancellation point at issue; it retires when the message is accepted. -/
def sendBody (a b : BitVec 5) (n : BitVec 3) (st : Strand) : Act Next := do
  match st.answer with
  | some .done => pure .seq
  | some (.refused cause) => raise (if cause = 3 then { code := .deadPeer } else unbound 2 (st.xv a))
  | some (.trap t) => raise t
  | _ =>
    cancelPoint st
    let (dst, ws) ← sendTo a b n none st
    let k ← sendMessage dst ws false
    holdFor (.reply k)

/-- The result registers of a SENDR (R277). -/
def sendrWords (status : BitVec 8) (ws : List Word) : List Word :=
  BitVec.ofNat 64 (256 * ws.length + status.toNat) :: (List.range 4).map fun i => ws[i]?.getD 0

/-- SENDR (R277): a cancellation point at issue and while it waits. -/
def sendrBody (d a b : BitVec 5) (n : BitVec 3) (st : Strand) : Act Next := do
  match st.answer with
  | some (.words status ws) =>
    let vs := sendrWords status ws
    (List.range 5).forM fun i => putX (d + BitVec.ofNat 5 i) (vs[i]?.getD 0)
    pure .seq
  | _ =>
    cancelPoint st
    let (dst, ws) ← sendTo a b n (some d) st
    let k ← sendMessage dst ws true
    holdFor (.point k)

def execSend (a b : BitVec 5) (g n : BitVec 3) (s : State) : Out := runAct clsComm 4 g true (sendBody a b n) s
def execSendr (d a b : BitVec 5) (g n : BitVec 3) (s : State) : Out := runAct clsComm 4 g true (sendrBody d a b n) s

/-! ### REPLY, HRET -/

/-- REPLY (R278): once, in an activation that a SENDR started. -/
def replyBody (b : BitVec 5) (n : BitVec 3) (st : Strand) : Act Next := do
  let regs := regsFrom b n.toNat
  liftT (st.sources regs)
  match st.act with
  | some { lcore := l, chan := c, from_ := f, reply := some (h, sk, k) } =>
    let r : ReplyMsg :=
      { sender := st.handle, number := k, sk := sk, dest := h, peer := peerOf f, status := 0, words := regs.map st.xv }
    modify fun s =>
      (s.modStrand st.sk fun st => { st with act := some { lcore := l, chan := c, from_ := f, reply := none } }).requestOf st 6
        (laneOf 1 (s.logical st.pcore) (coreNode (r.peer.getD (s.handleCore h)))) .replyArrival (.reply r)
    pure .seq
  | _ => raise { code := .queueUnbound, sub := 6 }

/-- The end of a strand (R329): an open scope and an owned token stop it; it waits for its accesses, and for a
spill of its registers in progress (R58). -/
def endBody (st : Strand) : Act Next := do
  match st.opens with
  | r :: _ => raise { code := .scopeState, sub := 8, aux := r.scope.setWidth 64 }
  | [] =>
    let s ← get
    match s.lowestOwned st.handle with
    | some w => raise { code := .tokensHeld, aux := w }
    | none =>
      drained st
      if (← get).transferring st.sk then holdFor .transfer
      modify fun s => s.endStrand st
      pure .gone

/-- HRET outside an activation is ILLEGAL (R279). -/
def hretBody (i : Instr) (st : Strand) : Act Next :=
  if st.act.isNone then raise (illegal i) else endBody st

def execReply (b : BitVec 5) (g n : BitVec 3) (s : State) : Out := runAct clsComm 4 g true (replyBody b n) s
def execHret (g : BitVec 3) (s : State) : Out := runAct clsComm 4 g true (hretBody (.hret g)) s
def execHretCompact (s : State) : Out := runAct clsComm 2 0 true (hretBody .hretCompact) s

/-! ### HMASK, HUNM, HSET -/

/-- Sets the mask of the channels that a register names and that have an entry of the strand's tenant (R280). -/
def State.maskChannels (s : State) (st : Strand) (w : Word) (m : Bool) : State :=
  let l := s.logical st.pcore
  (List.range 64).foldl (fun s c =>
    let h := s.handler l c
    if w.getLsbD c && h.depth != 0 && h.tenant == (s.scope st.scope).tenant then
      let s := s.setHandler l c { h with mask := m }
      if m then s else s.startNext l c
    else s) s

def maskBody (m : Bool) (a : BitVec 5) (st : Strand) : Act Next := do
  liftT (st.sources [a])
  modify fun s => s.maskChannels st (st.xv a) m
  pure .seq

def execHmask (a : BitVec 5) (g : BitVec 3) (s : State) : Out := runAct clsComm 4 g true (maskBody true a) s
def execHunm (a : BitVec 5) (g : BitVec 3) (s : State) : Out := runAct clsComm 4 g true (maskBody false a) s

/-- Is a byte of an instruction store in the range of a tenant on a core, end excluded (R231)? -/
def State.inRange (s : State) (lcore : Nat) (tenant : BitVec 12) (pc : Nat) : Bool :=
  (s.lcore lcore).ranges.any fun r => r.1 = tenant && r.2.1 ≤ pc && pc < r.2.2

/-- Is the entry word of HSET well formed (R281)? -/
def State.hsetWord (s : State) (st : Strand) (w : Word) : Bool :=
  let pc : BitVec 16 := w.extractLsb' 32 16
  let depth := (w.extractLsb' 16 5).toNat
  w.extractLsb' 48 16 == 0 && w.extractLsb' 21 11 == 0 && w.extractLsb' 12 4 == 0 && w.extractLsb' 6 2 == 0 && depth ≤ 16
    && (depth == 0 || (!pc.getLsbD 0 && s.inRange (s.logical st.pcore) (s.scope st.scope).tenant pc.toNat))

/-- What a channel has borrowed under an entry that goes returns, once no activation of it runs (R403). -/
def State.endLends (s : State) (lcore : Nat) (chan : BitVec 6) (scope : ScopeId) : State :=
  let h := s.handler lcore chan.toNat
  let l := s.channelBorrows lcore chan
  if h.active.isNone then s.returnChannel lcore chan scope l
  else s.setHandler lcore chan.toNat { h with back := h.back ++ l }

/-- Removes a handler entry: its messages are refused with NOCHAN, and what its channel borrowed returns when no
activation of it runs (R281, R403). -/
def State.removeHandler (s : State) (lcore : Nat) (chan : BitVec 6) (scope : ScopeId) (cause : BitVec 8) : State :=
  let s := s.endLends lcore chan scope
  let h := s.handler lcore chan.toNat
  let s := s.setHandler lcore chan.toNat { active := h.active, back := h.back }
  h.box.foldl (fun s m => s.refuse m cause) s

/-- HSET (R281). -/
def hsetBody (a b : BitVec 5) (st : Strand) : Act Next := do
  liftT (st.sources [a, b])
  let w := st.xv a
  let scratch := st.xv b
  let chan : BitVec 6 := w.extractLsb' 0 6
  let depth : BitVec 5 := w.extractLsb' 16 5
  let s ← get
  let l := s.logical st.pcore
  let h := s.handler l chan.toNat
  let tenant := (s.scope st.scope).tenant
  if !s.hsetWord st w then raise (unbound 5 w)
  else if scratch ≠ 0 ∧ (decodeRegion scratch).isNone then raise (unbound 5 scratch)
  else if s.received l chan ∨ (h.depth ≠ 0 ∧ h.tenant ≠ tenant) then raise (unbound 4 w)
  else if scratch ≠ 0 ∧ ((decodeRegion scratch).bind (s.token · (s.pasidOf st.scope))).isNone then raise (tokenAbsent 1 scratch)
  else
    modify fun s =>
      if depth = 0 then s.removeHandler l chan st.scope 2
      else
        s.setHandler l chan.toNat
          { h with pc := w.extractLsb' 32 16, prio := w.extractLsb' 8 4, depth := depth, tenant := tenant, scratch := scratch }
    pure .seq

def execHset (a b : BitVec 5) (g : BitVec 3) (s : State) : Out := runAct clsComm 4 g true (hsetBody a b) s

/-! ### Events -/

/-- The site of a mailbox in the order log (R387). -/
def mailSite (m : Msg) : Word := BitVec.ofNat 64 (64 * m.lcore + m.chan.toNat)

/-- A message is taken, or refused with a cause. -/
def State.settleMsg (s : State) (m : Msg) (cause : Option (BitVec 8)) : State :=
  match cause with
  | none => s.takeMsg m
  | some c => s.refuse m c

/-- A message at its mailbox (R252, R254): RECORD logs the order and the outcome, REPLAY forces both; an accepted message
waits there while the mailbox is full. -/
def State.messageAt (s : State) (m : Msg) : State :=
  let again (s : State) : State := s.after 1 .message (.msg m)
  let choice := partyChoice m.fromCore m.retired
  if s.dmode m.scope = 2 then
    match s.logged m.scope 1 (mailSite m) (s.ltime m.scope 1 (mailSite m)) with
    | some (0, _) =>
      if s.refusalCause m = some 1 then s.waitsTurn m.scope 1 (mailSite m) choice again
      else s.ordered m.scope 1 0 (mailSite m) choice again fun s => s.settleMsg m (s.refusalCause m)
    | some (c, _) => s.ordered m.scope 1 c (mailSite m) choice again fun s => s.settleMsg m (some (c.setWidth 8))
    | none => s.diverges m.scope
  else
    let cause := s.refusalCause m
    s.ordered m.scope 1 ((cause.getD 0).setWidth 3) (mailSite m) choice again fun s => s.settleMsg m cause

/-- A peer device has answered message `n`. -/
def State.peerAnswered (s : State) (n : Nat) : State :=
  let asks (a : Payload) : Bool := match a with
    | .msg m => m.number == n && m.fromCore < 512
    | _ => false
  { s with peerOut := s.peerOut.filter fun x => !asks x.2 }

/-- MESSAGE: to a peer device it leaves by the bridge, where its tenant has a pair (R369); from one it may wait for the end of
a quantum. -/
def execMessage (s : State) : Out :=
  match s.arg with
  | .msg m =>
    .next (if 512 ≤ m.lcore then
        if s.isPaired (m.lcore / 512) (s.scope m.scope).tenant then s.leaves .message else s.refuse m 3
      else if s.holdsPeers m.scope m.fromCore then s.peerRequest m.scope m.fromCore .message
      else (s.wakeFirst m.lcore).messageAt m)
  | _ => .next s

/-- REPLY_ARRIVAL (R277): a reply that finds its sender gone, or cancelled, is discarded. -/
def execReplyArrival (s : State) : Out :=
  match s.arg with
  | .reply r =>
    .next (if r.peer.isSome then s.leaves .replyArrival
      else (s.peerAnswered r.number).reply r.sk r.dest r.number (.words r.status r.words))
  | _ => .next s

/-- The delay before a resend: 32 cycles, doubled by each further refusal, up to 1,024 (R253). -/
def resendDelay (tries : Nat) : Nat := Nat.min (32 * 2 ^ Nat.min tries 5) 1024

/-- A refused message comes back with its weight (R252, R253). -/
def State.msgRefused (s : State) (cause : BitVec 8) (m : Msg) : State :=
  let s := (s.peerAnswered m.number).giveBack m.sk m.sender m.scope m.fromCore m.weight.toNat
  if m.wantReply then s.reply m.sk m.sender m.number (.words cause [])
  else
    match s.waiter m.sk m.sender with
    | none => s
    | some st =>
      if st.wait ≠ .reply m.number then s
      else if cause = 1 ∨ cause = 4 then
        (s.setStrand { st with wait := .point m.number, backoff := st.backoff + 1 }).after (resendDelay st.backoff) .sendResend
          (.refused 0 (.msg m))
      else s.reply m.sk m.sender m.number (.refused cause)

/-- A refused engine command keeps its weight and is sent again; a node's waits in the node table (R260). -/
def State.cmdRefused (s : State) (c : EngCmd) : State :=
  s.after (resendDelay c.tries) .sendResend (.refused 0 (.cmd { c with tries := c.tries + 1 }))

/-- REFUSAL. -/
def execRefusal (s : State) : Out :=
  match s.arg with
  | .refused cause (.msg m) => .next (if 512 ≤ m.fromCore then s.leaves .refusal else s.msgRefused cause m)
  | .refused _ (.cmd c) => .next (s.cmdRefused c)
  | .answer sk h n a => .next (s.reply sk h n a)
  | _ => .next s

/-- SEND_RESEND: the message takes weight again and leaves, unless its strand has gone on; with a weight of 1 the strand
executes its SEND again, which refills it. -/
def execSendResend (s : State) : Out :=
  match s.arg with
  | .refused _ (.cmd c) => 
    .next ((s.request c.scope c.lcore 0 2 (laneOf 1 c.lcore (engineNode c.eng)) .engineCommand (.cmd c)).countFlits (c.lcore / 16) c.scope 2)
  | .refused _ (.msg m) =>
    match s.waiter m.sk m.sender with
    | none => .next s
    | some st =>
      if st.wait ≠ .point m.number then .next s
      else
        match st.split with
        | none => .next (s.setStrand { st with wait := .none, answer := none })
        | some (w, st') =>
          let m := { m with weight := BitVec.ofNat 32 w }
          .next ((s.setStrand { st' with wait := .reply m.number }).requestFor st m.scope 6 (laneOf 1 (s.logical st.pcore) (coreNode m.lcore))
            .message (.msg m))
  | _ => .next s

end Sys2Proof.Machine
end

