-- ==== Sys2Proof/Machine/Placement.lean ====
section
/-! DEFINITION. Contexts on their way to a core: placement by a Wheel, migration, admission, overflow (R256, R257, R312, R313,
R325, R402). -/

namespace Sys2Proof.Machine

/-! ### The placement word (R325) -/

/-- Where a placement word sends a strand. -/
inductive Placement where
  | deque
  | named (lcore : Nat)
  | wheel
  deriving DecidableEq, Repr

/-- Is a logical core one of a scope's launch? A scope under no launch may use every core. -/
def State.ofLaunch (s : State) (scope : ScopeId) (l : Nat) : Bool :=
  match s.launchOf scope with
  | some la => la.has l
  | none => true

/-- Decodes a placement word for a scope; none where it is malformed. -/
def State.placementOf (s : State) (scope : ScopeId) (w : Word) : Option Placement :=
  let core := (w.extractLsb' 0 9).toNat
  let deque := w.getLsbD 10
  let named := w.getLsbD 9
  if w.extractLsb' 11 53 ≠ 0 ∨ (deque ∧ named) then none
  else if named then (if s.ofLaunch scope core then some (.named core) else none)
  else if core ≠ 0 then none
  else if deque then some .deque
  else some .wheel

/-! ### LIVE (R300, R312) -/

/-- Takes one more live strand into account at a scope's home; none at SPAWNLIM. -/
def State.reserveLive (s : State) (scope : ScopeId) : Option State :=
  let b := s.scope scope
  if b.spawnlim ≠ 0 ∧ b.spawnlim.toNat ≤ b.live.toNat then none
  else some (s.modScb scope fun b => { b with live := b.live + 1 })

/-! ### Placement -/

/-- The request that places a context: by the Wheel of a cluster, or on a named core. -/
def State.sendPlacement (s : State) (lcore serial cluster : Nat) (named : Option Nat) (c : Ctx) : State :=
  s.request c.scope lcore serial 7 (laneOf 1 lcore (unitNode cluster 12)) .spawnPlacement (.ctx cluster named c)

/-- Puts a context on a core, or sends it back to the Wheel for 64 cycles; one that names a retired core is discarded as
lost (R257, R312). A core that has stopped does not answer until it is declared dead (R378). -/
def State.placeOn (s : State) (l cluster : Nat) (named : Option Nat) (c : Ctx) : State :=
  let back (s : State) : State := s.after Config.retryWait .wheelReplace (.ctx cluster named c)
  match s.physical l with
  | none => if named.isSome && s.isRetired l then s.discardCtx l c true else back s
  | some p =>
    if (s.core p).stopped && !(s.core p).dead then
      s.push { due := s.cycle, ev := .spawnPlacement, arg := .sentTo l cluster named c }
    else match s.arrive p c with
    | (s, true) => s
    | (s, false) => back s

/-- The site of a Wheel's choices in the order log (log entry 10). -/
def wheelSite (cluster : Nat) : Word := BitVec.ofNat 64 (1024 * cluster)

/-- SPAWN_PLACEMENT: the named core, or the Wheel's choice, which RECORD logs and REPLAY forces. -/
def State.placement (s : State) (cluster : Nat) (named : Option Nat) (c : Ctx) : State :=
  match named with
  | some l => s.placeOn l cluster named c
  | none =>
    let cl := s.wheelCluster c.scope cluster
    match s.wheelChoice (s.wheelCores c.scope cl) with
    | none => s.after Config.retryWait .wheelReplace (.ctx cluster named c)
    | some l =>
      let (s, v) := s.polled c.scope 10 (wheelSite cl) (BitVec.ofNat 32 l)
      s.placeOn v.toNat cluster named c

/-- The core a placement goes to, for the wake of a gated one. -/
def State.placementCore (s : State) (cluster : Nat) (named : Option Nat) (c : Ctx) : Nat :=
  match named with
  | some l => l
  | none => (s.wheelChoice (s.wheelCores c.scope (s.wheelCluster c.scope cluster))).getD 0

def execSpawnPlacement (s : State) : Out :=
  match s.arg with
  | .ctx cluster named c =>
    .next ((s.wakeFirst (s.placementCore cluster named c)).placement cluster named c)
  | .sentTo l cluster named c => .next ((s.wakeFirst l).placeOn l cluster named c)
  | _ => .next s

/-- WHEEL_REPLACE: the placement is made again. -/
def execWheelReplace (s : State) : Out :=
  match s.arg with
  | .ctx cluster named c => .next (s.sendPlacement 512 0 cluster named c)
  | _ => .next s

/-! ### Migration (R218, R257, R326) -/

/-- The context of a strand that leaves its core, or of a strand saved and restored. -/
def Strand.context (st : Strand) (kind : BitVec 8) (pc : BitVec 17) : Ctx :=
  { x := (List.range 8).map fun i => (st.x i).val
    dbits := BitVec.ofNat 8 (((List.range 8).map fun i => if (st.x i).d then 2 ^ i else 0).foldl (· + ·) 0)
    preds := st.preds, pc := pc.setWidth 16, kind := kind, prio := st.prio, frm := st.frm, fflags := st.fflags
    weight := BitVec.ofNat 32 st.weight, scope := st.scope, origin := st.handle, vfmt := st.vfmt, mfmt := st.mfmt
    rkey0 := st.rkey0, rkey1 := st.rkey1, retired := st.retired, quantum := st.quantum, qpos := st.qpos
    rank := st.rank, nrank := st.nrank, gang := st.gang, image := st.image, node := st.node
    seen := st.cancelSeen, pcEnd := pc.getLsbD 16 }

/-- Writes back the dirty lines of every region that a strand owns or borrows (R218). -/
def State.flushOwned (s : State) (st : Strand) : State :=
  let p := strandParty st.handle
  s.tokens.foldl (fun (s : State) (t : Token) =>
    if t.owner = p ∨ t.borrowers.contains p then s.flushRegion st.pcore t.reg t.pasid else s) s

/-- An activation that leaves its core gives up its channel (log entry 14): the next message of the channel starts, and a
SENDR not yet answered gets NOREPLY. -/
def State.leaveChannel (s : State) (st : Strand) : State :=
  match st.act with
  | none => s
  | some a =>
    let s := s.answerOwed st a.lcore 5
    let e : Handler := s.handler a.lcore a.chan.toNat
    let s := s.setHandler a.lcore a.chan.toNat { e with active := none, back := [] }
    let s := s.returnChannel a.lcore a.chan st.scope e.back
    s.startNext a.lcore a.chan.toNat

/-- The origin slot of a migrated strand is freed: its context, its weight and its tokens live on elsewhere. -/
def State.departed (s : State) (sk : Nat) : State :=
  match s.strand sk with
  | none => s
  | some st =>
    ((((s.leaveChannel st).dropStrand sk).bankStates st.pcore).workLeaves st.cluster).send 0 .admission (.n1 st.pcore)

/-- The answer to a migration reaches its origin: an acknowledgement frees the slot, a refusal lets the strand go on. -/
def State.migrationAnswer (s : State) (sk : Nat) (h : Handle) (n : Nat) (a : Answer) : State :=
  match s.waiter sk h with
  | none => s
  | some st =>
    match st.wait with
    | .migrating k auto =>
      if k ≠ n then s
      else
        match a with
        | .done => s.departed sk
        | _ => s.setStrand { st with wait := .none, answer := if auto then none else some a }
    | _ => s

/-! ### Members that die with a core -/

/-- The arrival of a rank is withdrawn. -/
def State.withdraw (s : State) (st : Strand) : State :=
  match s.gangs.find st.gang.toNat with
  | none => s
  | some ga =>
    let r := st.rank.toNat
    let ga : Gang := { ga with arrived := ga.arrived.filter (· != r), ahead := ga.ahead.filter (· != r) }
    { s with gangs := s.gangs.insert st.gang.toNat ga }

/-- A member's core is declared dead: it leaves the gang, and each live rank has to hear of it; those that wait in a BAR
hear at once (R331). -/
def State.memberDied (s : State) (g rank lcore : Nat) : State :=
  match s.gangs.find g with
  | none => s
  | some ga =>
    let others := (ga.members.filter fun m => m.1 != rank)
    let ga : Gang := { ga with dead := ga.dead ++ [(lcore, others.map (·.1))] }
    let s := { s with gangs := s.gangs.insert g ga }
    let s := others.foldl (fun s m =>
      match s.named m.2 with
      | none => s
      | some st =>
        match st.barWait with
        | some n =>
          if st.wait = .point n then
            ((s.withdraw st).setStrand { st with wait := .none, answer := none, barWait := none }).bankStates st.pcore
          else s
        | none => s) s
    s.leaveGang g rank

/-- A context in a queue of a dead core is lost with its weight. -/
def State.ctxDies (s : State) (l : Nat) (c : Ctx) : State :=
  let s := if c.nrank = 1 then s else s.memberDied c.gang.toNat c.rank.toNat l
  s.discardCtx l c true

/-- The answer of a destination core: in a QUANTA scope it acts at once, before the admissions of the same end (R402). A
context that is refused when its origin has died is lost (R301). -/
def State.answerMigration (s : State) (c : Ctx) (n : Nat) (lcore : Nat) (a : Answer) : State :=
  let sk := handleSk c.origin
  if a ≠ .done ∧ (s.named c.origin).isNone then s.ctxDies lcore c
  else if s.isQuanta c.scope then s.migrationAnswer sk c.origin n a
  else s.send (laneOf 0 lcore (s.handleCore c.origin)) .acknowledgement (.answer sk c.origin n a)

/-- MIGRATION: a context arrives at its core, is acknowledged, or refused FULL or DEAD (R257). `n` numbers the
migration. -/
def State.migrationArrives (s : State) (n l : Nat) (c : Ctx) : State :=
  match s.physical l with
  | none => s.answerMigration c n l (.refused 3)
  | some p =>
    match s.arrive p c with
    | (s, true) => s.answerMigration c n l .done
    | (s, false) => s.answerMigration c n l (.refused 1)

def execMigration (s : State) : Out :=
  match s.arg with
  | .ctx n (some l) c => .next ((s.wakeFirst l).migrationArrives n l c)
  | _ => .next s

/-- ACKNOWLEDGEMENT: it retires a SEND or another waiting instruction, or frees a migration's origin slot. -/
def execAcknowledgement (s : State) : Out :=
  match s.arg with
  | .answer sk h n a =>
    let s := if peerSk ≤ sk then s.leaves .acknowledgement else s.peerAnswered n
    match s.waiter sk h with
    | none => .next s
    | some st =>
      match st.wait with
      | .migrating _ _ => .next (s.migrationAnswer sk h n a)
      | _ => .next (s.reply sk h n a)
  | _ => .next s

/-! ### Admission (R313) and the overflow area (R257) -/

/-- Messages that wait for a slot come first, then contexts. -/
def State.admitCore (s : State) (p : Nat) : State :=
  let l := s.logical p
  let s := if s.lpos p = 31 then s
    else ((s.lcore l).handlers.map (·.1)).foldl (fun s c => s.startNext l c) s
  s.letIn p none 32

/-- ADMISSION. -/
def execAdmission (s : State) : Out :=
  match s.arg with
  | .n1 p => .next (s.admitCore p)
  | _ => .next s

/-- OVERFLOW_REFILL. -/
def execOverflowRefill (s : State) : Out :=
  match s.arg with
  | .n1 p => .next (s.refillArrival p none)
  | _ => .next s

end Sys2Proof.Machine
end

