-- ==== Sys2Proof/Machine/Blocks.lean ====
section
/-! DEFINITION. Blocks under their descriptors (R59 to R66): lanes, their values, and writing values into them. -/

namespace Sys2Proof.Machine

def descCode (d : Desc) : Nat := (d.extractLsb' 0 8).toNat
def descScale (d : Desc) : BitVec 8 := d.extractLsb' 8 8

/-- The width of an element in bits; a code that is no format counts as bytes. -/
def laneBits (d : Desc) : Nat :=
  match descCode d with
  | 0x01 | 0x0A => 32
  | 0x02 | 0x03 | 0x09 => 16
  | 0x08 => 4
  | 0x0B => 64
  | _ => 8

/-- Elements per block (R60). -/
def lanes (d : Desc) : Nat := 512 / laneBits d

/-- The number format of a descriptor; none for RAW and for codes that are no format. -/
def fmtOf (d : Desc) : Option Fmt :=
  match descCode d with
  | 0x01 => some fmtFp32
  | 0x02 => some fmtBf16
  | 0x03 => some fmtFp16
  | 0x04 => some fmtE4m3
  | 0x05 => some fmtE5m2
  | 0x06 => some (.int true 8)
  | 0x07 => some (.int false 8)
  | 0x08 =>
    some (match (d.extractLsb' 14 2).toNat with
      | 0 => .uniform4
      | 1 => fmtE2m1
      | 2 => .power4
      | _ => .hybrid4)
  | 0x09 => some (.int true 16)
  | 0x0A => some (.int true 32)
  | 0x0B => some fmtFp64
  | _ => none

/-- The power of two of a scale byte (R65). -/
def scaleOf (d : Desc) : Int := if descCode d = 8 then (d.extractLsb' 8 6).toInt else (descScale d).toInt

/-- A value times 2^s. -/
def Num.scale (v : Num) (s : Int) : Num :=
  match v with
  | .fin n m e => .fin n m (e + s)
  | v => v

/-- The bits of lane `i`. -/
def laneOf' (b : Block) (d : Desc) (i : Nat) : Nat := (b >>> (laneBits d * i)).toNat % 2 ^ laneBits d

/-- value(v, i) under a descriptor (R61, R65). -/
def laneValue (b : Block) (d : Desc) (i : Nat) : Num :=
  match fmtOf d with
  | some f => (unpack f (laneOf' b d i)).scale (scaleOf d)
  | none => .nan

/-- round(v, desc): the lane's bits and the flags (R69 to R73). -/
def laneRound (d : Desc) (m : Mode) (v : Num) : Nat × BitVec 6 :=
  match fmtOf d with
  | some f => pack f m (v.scale (-scaleOf d))
  | none => (0, 0)

/-- A block from the bits of its lanes, `w` bits each. -/
def blockOf (w : Nat) (ls : List Nat) : Block :=
  BitVec.ofNat 512 (ls.foldr (fun x acc => x % 2 ^ w + acc * 2 ^ w) 0)

/-- Rounds values into the lanes of a block: the block and the flags of all. -/
def roundBlock (d : Desc) (m : Mode) (vs : List Num) : Block × BitVec 6 :=
  let rs := vs.map (laneRound d m)
  (blockOf (laneBits d) (rs.map (·.1)), rs.foldl (fun f r => f ||| r.2) 0)

/-- The values of all lanes. -/
def blockValues (b : Block) (d : Desc) : List Num := (List.range (lanes d)).map (laneValue b d)

/-- May a vector instruction compute with the descriptor (R62)? The matrix unit does not take INT16 and INT32. -/
def vectorFormat (d : Desc) : Bool := descCode d != 0 && descCode d < 0x0B
def matrixFormat (d : Desc) : Bool := vectorFormat d && descCode d != 0x09 && descCode d != 0x0A

def formatFault (d : Desc) : Trap := { code := .format, aux := d.setWidth 64 }

/-- The first descriptor that a use does not accept. -/
def checkFormats (ok : Desc → Bool) (ds : List Desc) : Except Trap Unit :=
  match ds.find? fun d => !ok d with
  | some d => .error (formatFault d)
  | none => .ok ()

/-- The first descriptor whose lane count differs from the reference's. -/
def checkLanes (ref : Desc) (ds : List Desc) : Except Trap Unit :=
  match ds.find? fun d => lanes d != lanes ref with
  | some d => .error (formatFault d)
  | none => .ok ()

end Sys2Proof.Machine
end

