-- ==== Sys2Proof/Machine/Vector.lean ====
section
/-! DEFINITION. Majors VEC (R144 to R152), VMEM (R153 to R155) and MIX (R170). -/

namespace Sys2Proof.Machine

/-! ### Sources -/

/-- REG_UE for the first vector register with a multi-bit error (R142, R143). -/
def Strand.checkVue (st : Strand) (vs : List (BitVec 4)) : Except Trap Unit :=
  match vs.find? fun v => (st.v v).ue with
  | some v => .error { code := .regUe, aux := BitVec.ofNat 64 (0x100 + v.toNat) }
  | none => .ok ()

/-- The sources of a vector instruction: window registers, vector registers, then D bits (R142). -/
def Strand.vsources (st : Strand) (xs : List (BitVec 5)) (vs : List (BitVec 4)) : Except Trap Unit :=
  match st.checkUe xs with
  | .error t => .error t
  | .ok () =>
    match st.checkVue vs with
    | .error t => .error t
    | .ok () => st.checkD xs

def Strand.putV (st : Strand) (d : BitVec 4) (b : Block) (desc : Desc) : Strand := st.setV d { data := b, desc := desc }

/-- An instruction of major VEC: it claims the vector set when its guard is true (R49, R142). -/
def runVec (g : BitVec 3) (f : Strand → Except Trap Strand) (s : State) : Out := runPure clsVec 4 g (fun st => f st.claimV) s

/-! ### Arithmetic by lanes (R144) -/

/-- A lane's result before its rounding, from A, B and C, with the flags of forming it. -/
abbrev LaneOp := Mode → Num → Num → Num → Num × BitVec 6

def lanewise (op : LaneOp) (d : BitVec 4) (srcs : List (BitVec 4)) (a b : BitVec 4) (st : Strand) : Except Trap Strand :=
  let m := modeOf st.frm
  match st.vsources [] srcs with
  | .error t => .error t
  | .ok () =>
    let ds := srcs.map fun v => (st.v v).desc
    match checkFormats vectorFormat (ds ++ [st.vfmt]) with
    | .error t => .error t
    | .ok () =>
      match checkLanes st.vfmt ds with
      | .error t => .error t
      | .ok () =>
        let val (v : BitVec 4) (i : Nat) : Num := laneValue (st.v v).data (st.v v).desc i
        let rs := (List.range (lanes st.vfmt)).map fun i => op m (val a i) (val b i) (val d i)
        let (blk, fl) := roundBlock st.vfmt m (rs.map (·.1))
        .ok ((st.putV d blk st.vfmt).orFlags (rs.foldl (fun f r => f ||| r.2) fl))

def laneAdd : LaneOp := fun m a b _ => Num.add m a b
def laneSub : LaneOp := fun m a b _ => Num.add m a b.neg
def laneMul : LaneOp := fun _ a b _ => a.mul b
def laneFma : LaneOp := fun m a b c => Num.fma m a b c
def laneMin : LaneOp := fun _ a b _ => (Num.pick false a b, 0)
def laneMax : LaneOp := fun _ a b _ => (Num.pick true a b, 0)
/-- The absolute value. -/
def laneAbs : LaneOp := fun _ a _ _ => (if a.sign then a.neg else a, 0)
def laneNeg : LaneOp := fun _ a _ _ => (a.neg, 0)

def execVadd (d a b : BitVec 4) (g : BitVec 3) (s : State) : Out := runVec g (lanewise laneAdd d [a, b] a b) s
def execVsub (d a b : BitVec 4) (g : BitVec 3) (s : State) : Out := runVec g (lanewise laneSub d [a, b] a b) s
def execVmul (d a b : BitVec 4) (g : BitVec 3) (s : State) : Out := runVec g (lanewise laneMul d [a, b] a b) s
def execVfma (d a b : BitVec 4) (g : BitVec 3) (s : State) : Out := runVec g (lanewise laneFma d [a, b, d] a b) s
def execVmin (d a b : BitVec 4) (g : BitVec 3) (s : State) : Out := runVec g (lanewise laneMin d [a, b] a b) s
def execVmax (d a b : BitVec 4) (g : BitVec 3) (s : State) : Out := runVec g (lanewise laneMax d [a, b] a b) s
def execVabs (d a : BitVec 4) (g : BitVec 3) (s : State) : Out := runVec g (lanewise laneAbs d [a] a a) s
def execVneg (d a : BitVec 4) (g : BitVec 3) (s : State) : Out := runVec g (lanewise laneNeg d [a] a a) s

/-! ### VCVT, VSCL, shifts -/

/-- VCVT (R145). A conversion to narrower lanes keeps the other lanes of v[d], and so reads it (R143). -/
def vcvt (d a : BitVec 4) (part : BitVec 3) (st : Strand) : Except Trap Strand :=
  let m := modeOf st.frm
  let v := st.v a
  match st.vsources [] (if lanes v.desc < lanes st.vfmt then [a, d] else [a]) with
  | .error t => .error t
  | .ok () =>
    match checkFormats vectorFormat [v.desc, st.vfmt] with
    | .error t => .error t
    | .ok () =>
      let ns := lanes v.desc
      let nd := lanes st.vfmt
      let p := part.toNat
      let keep (i : Nat) : Nat := laneOf' (st.v d).data st.vfmt i
      if Nat.max (nd / ns) (ns / nd) ≤ p then .error (formatFault st.vfmt)
      else
        let src (i : Nat) : Option Num :=
          if ns ≤ nd then (if p * ns ≤ i ∧ i < p * ns + ns then some (laneValue v.data v.desc (i - p * ns)) else none)
          else some (laneValue v.data v.desc (p * nd + i))
        let rs := (List.range nd).map fun i => match src i with
          | some x => laneRound st.vfmt m x
          | none => (keep i, 0)
        .ok ((st.putV d (blockOf (laneBits st.vfmt) (rs.map (·.1))) st.vfmt).orFlags (rs.foldl (fun f r => f ||| r.2) 0))

def execVcvt (d a : BitVec 4) (p g : BitVec 3) (s : State) : Out := runVec g (vcvt d a p) s

/-- The descriptor with its scale raised by k; none when the scale leaves its range (R146). -/
def raiseScale (d : Desc) (k : Int) : Option Desc :=
  let s := scaleOf d + k
  if descCode d = 8 then
    if s < -32 ∨ 31 < s then none else some (d.extractLsb' 14 2 ++ BitVec.ofInt 6 s ++ d.extractLsb' 0 8)
  else if s < -128 ∨ 127 < s then none else some (BitVec.ofInt 8 s ++ d.extractLsb' 0 8)

def vscl (d a : BitVec 4) (k : BitVec 5) (st : Strand) : Except Trap Strand :=
  let v := st.v a
  match st.vsources [] [a] with
  | .error t => .error t
  | .ok () =>
    match checkFormats vectorFormat [v.desc] with
    | .error t => .error t
    | .ok () =>
      match raiseScale v.desc k.toInt with
      | none => .error (formatFault v.desc)
      | some nd => .ok (st.putV d v.data nd)

def execVscl (d a : BitVec 4) (k : BitVec 5) (g : BitVec 3) (s : State) : Out := runVec g (vscl d a k) s

/-- INT8, UINT8, INT16, INT32 (R147). -/
def shiftFormat (d : Desc) : Bool := descCode d == 6 || descCode d == 7 || descCode d == 9 || descCode d == 0xA

/-- One lane of `w` bits shifted. -/
def shiftLane (left signed : Bool) (w k x : Nat) : Nat :=
  if left then x * 2 ^ k % 2 ^ w
  else
    let fill := if signed && 2 ^ (w - 1) ≤ x then (2 ^ w - 1) - (2 ^ w - 1) / 2 ^ k else 0
    x / 2 ^ k + fill

def vshift (left : Bool) (d a : BitVec 4) (k : BitVec 5) (st : Strand) : Except Trap Strand :=
  let v := st.v a
  match st.vsources [] [a] with
  | .error t => .error t
  | .ok () =>
    match checkFormats shiftFormat [v.desc] with
    | .error t => .error t
    | .ok () =>
      let w := laneBits v.desc
      let ls := (List.range (lanes v.desc)).map fun i =>
        shiftLane left (descCode v.desc != 7) w k.toNat (laneOf' v.data v.desc i)
      .ok (st.putV d (blockOf w ls) v.desc)

def execVshl (d a : BitVec 4) (k : BitVec 5) (g : BitVec 3) (s : State) : Out := runVec g (vshift true d a k) s
def execVshr (d a : BitVec 4) (k : BitVec 5) (g : BitVec 3) (s : State) : Out := runVec g (vshift false d a k) s

/-! ### Reductions (R77, R148) -/

/-- One level of the tree: sums of neighbours, rounded to A34, and their flags. -/
def sumPairs : List Num → List Num × BitVec 6
  | a :: b :: rest =>
    let (x, f1) := Num.add .rne a b
    let (r, f2) := toA34 x
    let (xs, f3) := sumPairs rest
    (a34Num r :: xs, f1 ||| f2 ||| f3)
  | l => (l, 0)

/-- The tree down to two values. -/
def sumTree : Nat → List Num → List Num × BitVec 6
  | 0, l => (l, 0)
  | n + 1, l =>
    if l.length ≤ 2 then (l, 0)
    else
      let (l', f) := sumPairs l
      let (r, f') := sumTree n l'
      (r, f ||| f')

/-- The sum at the root, before its rounding. -/
def reduceSum (m : Mode) (vs : List Num) : Num × BitVec 6 :=
  match sumTree 7 vs with
  | (a :: b :: _, f) =>
    let (x, f') := Num.add m a b
    (x, f ||| f')
  | (_, f) => (.nan, f)

/-- The largest or smallest lane. -/
def reducePick (max : Bool) (vs : List Num) : Num :=
  match vs with
  | [] => .nan
  | v :: rest => rest.foldl (Num.pick max) v

def vreduce (f : Mode → List Num → Num × BitVec 6) (d a : BitVec 4) (st : Strand) : Except Trap Strand :=
  let m := modeOf st.frm
  let v := st.v a
  match st.vsources [] [a] with
  | .error t => .error t
  | .ok () =>
    match checkFormats vectorFormat [v.desc, st.vfmt] with
    | .error t => .error t
    | .ok () =>
      let (x, f1) := f m (blockValues v.data v.desc)
      let (bits, f2) := laneRound st.vfmt m x
      .ok ((st.putV d (BitVec.ofNat 512 bits) st.vfmt).orFlags (f1 ||| f2))

def execVreds (d a : BitVec 4) (g : BitVec 3) (s : State) : Out := runVec g (vreduce reduceSum d a) s
def execVredm (d a : BitVec 4) (m : BitVec 1) (g : BitVec 3) (s : State) : Out :=
  runVec g (vreduce (fun _ vs => (reducePick (m == 1) vs, 0)) d a) s

/-! ### Compares (R149) -/

/-- Which relation holds in a lane, and whether a NaN is invalid. -/
structure LaneRel where
  rel : Num → Num → Bool
  signals : Bool

def relEq : LaneRel := ⟨Num.eqv, false⟩
def relLt : LaneRel := ⟨Num.lt, true⟩
def relLe : LaneRel := ⟨fun a b => a.lt b || a.eqv b, true⟩

/-- The result of each lane, and the flags. -/
def vcompare (r : LaneRel) (a b : BitVec 4) (st : Strand) : Except Trap (List Bool × BitVec 6) :=
  let va := st.v a
  let vb := st.v b
  match st.vsources [] [a, b] with
  | .error t => .error t
  | .ok () =>
    match checkFormats vectorFormat [va.desc, vb.desc] with
    | .error t => .error t
    | .ok () =>
      match checkLanes va.desc [vb.desc] with
      | .error t => .error t
      | .ok () =>
        let ps := (blockValues va.data va.desc).zip (blockValues vb.data vb.desc)
        let nan := ps.any fun p => p.1.isNan || p.2.isNan
        .ok (ps.map (fun p => !p.1.isNan && !p.2.isNan && r.rel p.1 p.2), flagIf (r.signals && nan) fInvalid)

def vcmpMask (r : LaneRel) (d a b : BitVec 4) (st : Strand) : Except Trap Strand :=
  match vcompare r a b st with
  | .error t => .error t
  | .ok (ls, f) =>
    let w := laneBits (st.v a).desc
    .ok ((st.putV d (blockOf w (ls.map fun x => if x then 2 ^ w - 1 else 0)) 0).orFlags f)

def vcmpPred (r : LaneRel) (all : BitVec 1) (p : BitVec 3) (a b : BitVec 4) (st : Strand) : Except Trap Strand :=
  match vcompare r a b st with
  | .error t => .error t
  | .ok (ls, f) => .ok ((st.setP p (if all = 1 then ls.all id else ls.any id)).orFlags f)

def execVcmpeq (d a b : BitVec 4) (g : BitVec 3) (s : State) : Out := runVec g (vcmpMask relEq d a b) s
def execVcmplt (d a b : BitVec 4) (g : BitVec 3) (s : State) : Out := runVec g (vcmpMask relLt d a b) s
def execVcmple (d a b : BitVec 4) (g : BitVec 3) (s : State) : Out := runVec g (vcmpMask relLe d a b) s
def execVcmpeqPred (l : BitVec 1) (p : BitVec 3) (a b : BitVec 4) (g : BitVec 3) (s : State) : Out :=
  runVec g (vcmpPred relEq l p a b) s
def execVcmpltPred (l : BitVec 1) (p : BitVec 3) (a b : BitVec 4) (g : BitVec 3) (s : State) : Out :=
  runVec g (vcmpPred relLt l p a b) s
def execVcmplePred (l : BitVec 1) (p : BitVec 3) (a b : BitVec 4) (g : BitVec 3) (s : State) : Out :=
  runVec g (vcmpPred relLe l p a b) s

/-! ### Bit and lane moves (R150) -/

/-- v[d] := op of vector sources; its descriptor is that of v[a]. -/
def vbits (op : Strand → Block) (srcs : List (BitVec 4)) (d a : BitVec 4) (st : Strand) : Except Trap Strand :=
  match st.vsources [] srcs with
  | .error t => .error t
  | .ok () => .ok (st.putV d (op st) (st.v a).desc)

/-- The bytes of `a` chosen by those of `b`. -/
def permBlock (a b : Block) : Block :=
  blockOf 8 ((List.range 64).map fun i =>
    let x := blockByte b i
    if x.msb then 0 else (blockByte a (x.toNat % 64)).toNat)

def execVand (d a b : BitVec 4) (g : BitVec 3) (s : State) : Out :=
  runVec g (vbits (fun st => (st.v a).data &&& (st.v b).data) [a, b] d a) s
def execVor (d a b : BitVec 4) (g : BitVec 3) (s : State) : Out :=
  runVec g (vbits (fun st => (st.v a).data ||| (st.v b).data) [a, b] d a) s
def execVxor (d a b : BitVec 4) (g : BitVec 3) (s : State) : Out :=
  runVec g (vbits (fun st => (st.v a).data ^^^ (st.v b).data) [a, b] d a) s
def execVperm (d a b : BitVec 4) (g : BitVec 3) (s : State) : Out :=
  runVec g (vbits (fun st => permBlock (st.v a).data (st.v b).data) [a, b] d a) s
def execVsel (d a b : BitVec 4) (g : BitVec 3) (s : State) : Out :=
  runVec g (vbits (fun st =>
    ((st.v d).data &&& (st.v a).data) ||| (~~~(st.v d).data &&& (st.v b).data)) [a, b, d] d a) s
def execVmov (d a : BitVec 4) (g : BitVec 3) (s : State) : Out :=
  runVec g (vbits (fun st => (st.v a).data) [a] d a) s

/-- VFMT: a copy under sw.vfmt. -/
def vfmtOp (d a : BitVec 4) (st : Strand) : Except Trap Strand :=
  match st.vsources [] [a] with
  | .error t => .error t
  | .ok () =>
    match checkFormats (fun f => descCode f < 0xC) [st.vfmt] with
    | .error t => .error t
    | .ok () => .ok (st.putV d (st.v a).data st.vfmt)

/-- VDESC: a new descriptor for v[d], whose lanes it keeps. -/
def vdescOp (d : BitVec 4) (a : BitVec 5) (st : Strand) : Except Trap Strand :=
  match st.vsources [a] [d] with
  | .error t => .error t
  | .ok () =>
    let f : Desc := (st.xv a).setWidth 16
    match checkFormats (fun f => descCode f < 0xC) [f] with
    | .error t => .error t
    | .ok () => .ok (st.putV d (st.v d).data f)

/-- VEXT: a doubleword of v[a], or its descriptor. -/
def vextOp (d : BitVec 5) (a : BitVec 4) (i : BitVec 5) (st : Strand) : Except Trap Strand :=
  match st.vsources [] [a] with
  | .error t => .error t
  | .ok () =>
    let v := st.v a
    st.writeX d (if i.toNat = 8 then zx v.desc else blockWord v.data i.toNat) false

/-- VINS: a doubleword of v[d], whose other lanes it keeps. -/
def vinsOp (d : BitVec 4) (a i : BitVec 5) (st : Strand) : Except Trap Strand :=
  match st.vsources [a] [d] with
  | .error t => .error t
  | .ok () =>
    let v := st.v d
    .ok (st.putV d (overlay v.data (8 * i.toNat) (leBytes 8 (st.xv a))) v.desc)

def execVfmt (d a : BitVec 4) (g : BitVec 3) (s : State) : Out := runVec g (vfmtOp d a) s
def execVdesc (d : BitVec 4) (a : BitVec 5) (g : BitVec 3) (s : State) : Out := runVec g (vdescOp d a) s
def execVext (d : BitVec 5) (a : BitVec 4) (i : BitVec 5) (g : BitVec 3) (s : State) : Out := runVec g (vextOp d a i) s
def execVins (d : BitVec 4) (a i : BitVec 5) (g : BitVec 3) (s : State) : Out := runVec g (vinsOp d a i) s

/-! ### Fills (R151) -/

/-- Lane `i` from x[a]: its bits and flags. -/
def vfill (lane : Strand → Word → Nat → Nat × BitVec 6) (d : BitVec 4) (a : BitVec 5) (st : Strand) : Except Trap Strand :=
  match st.vsources [a] [] with
  | .error t => .error t
  | .ok () =>
    match checkFormats vectorFormat [st.vfmt] with
    | .error t => .error t
    | .ok () =>
      let rs := (List.range (lanes st.vfmt)).map (lane st (st.xv a))
      .ok ((st.putV d (blockOf (laneBits st.vfmt) (rs.map (·.1))) st.vfmt).orFlags (rs.foldl (fun f r => f ||| r.2) 0))

def intNum (x : Int) : Num := .fin (x < 0) x.natAbs 0

def laneBc (st : Strand) (x : Word) (_ : Nat) : Nat × BitVec 6 := (x.toNat % 2 ^ laneBits st.vfmt, 0)
def laneIota (st : Strand) (x : Word) (i : Nat) : Nat × BitVec 6 :=
  laneRound st.vfmt (modeOf st.frm) (intNum (x.toInt + Int.ofNat i))
def laneRnd (st : Strand) (x : Word) (i : Nat) : Nat × BitVec 6 :=
  let z := genK st.rkey0 st.rkey1 (x + BitVec.ofNat 64 i)
  if descCode st.vfmt ≤ 5 then laneRound st.vfmt (modeOf st.frm) (uniformOf z) else (z.toNat % 2 ^ laneBits st.vfmt, 0)

def execVbc (d : BitVec 4) (a : BitVec 5) (g : BitVec 3) (s : State) : Out := runVec g (vfill laneBc d a) s
def execViota (d : BitVec 4) (a : BitVec 5) (g : BitVec 3) (s : State) : Out := runVec g (vfill laneIota d a) s
def execVrnd (d : BitVec 4) (a : BitVec 5) (g : BitVec 3) (s : State) : Out := runVec g (vfill laneRnd d a) s

/-! ### VDGST (R152) -/

/-- The digest with a block and its descriptor folded in. -/
def digestBlock (dg : Word) (b : Block) (d : Desc) : Word :=
  digestStep ((List.range 8).foldl (fun dg i => digestStep dg (blockWord b i)) dg) (zx d)

def vdgst (a : BitVec 4) (st : Strand) : Except Trap Strand :=
  match st.vsources [] [a] with
  | .error t => .error t
  | .ok () => .ok { st with digest := digestBlock st.digest (st.v a).data (st.v a).desc }

def execVdgst (a : BitVec 4) (g : BitVec 3) (s : State) : Out := runVec g (vdgst a) s

/-! ### VMEM -/

def setVreg (d : BitVec 4) (f : VReg → VReg) : Act Unit := do
  let st ← me
  setMe (st.claimV.setV d (f (st.claimV.v d)))

/-- VLD (R153): the block's descriptor comes on the BLK path only. -/
def vldBody (d : BitVec 4) (b : BitVec 5) (disp : BitVec 11) (st : Strand) : Act Next := do
  liftT (st.vsources [b] [])
  let va := dispVa (st.xv b) 64 disp
  let (bs, ds) ← loadBytes (.vec false) va 64
  setVreg d fun v => { data := BitVec.ofNat 512 (ofLe bs), desc := if pathOf va = 4 then ds else v.desc }
  pure .seq

/-- What VST stores: the register, or its lanes converted to sw.vfmt. -/
def vstData (c : BitVec 1) (x : BitVec 4) (st : Strand) : Except Trap (Block × Desc × BitVec 6) :=
  let v := st.v x
  if c = 0 then .ok (v.data, v.desc, 0)
  else
    match checkFormats vectorFormat [v.desc, st.vfmt] with
    | .error t => .error t
    | .ok () =>
      match checkLanes st.vfmt [v.desc] with
      | .error t => .error t
      | .ok () =>
        let (b, f) := roundBlock st.vfmt (modeOf st.frm) (blockValues v.data v.desc)
        .ok (b, st.vfmt, f)

def vstBody (c : BitVec 1) (x : BitVec 4) (b : BitVec 5) (disp : BitVec 11) (st0 : Strand) : Act Next := do
  let st := st0.claimV
  liftT (st.vsources [b] [x])
  let (blk, ds, fl) ← liftT (vstData c x st)
  storeBytes (.vec true) (dispVa (st.xv b) 64 disp) (leBytes 64 blk) (some ds)
  let now ← me
  setMe (now.claimV.orFlags fl)
  pure .seq

/-- The size and the addresses of the units of a strided access (R154). -/
def unitSize (ox0 : Word) : Nat := 2 ^ (ox0.extractLsb' 48 2).toNat
def unitVa (ox0 va : Word) (j : Nat) : Word := va + BitVec.ofNat 64 j * (ox0.extractLsb' 0 48).signExtend 64

def vldsBody (d : BitVec 4) (b : BitVec 5) (disp : BitVec 11) (st : Strand) : Act Next := do
  liftT (st.vsources [b] [])
  let va := dispVa (st.xv b) 64 disp
  let n := unitSize st.ox0
  let units ← (List.range (64 / n)).mapM fun j => do
    let (bs, _) ← loadBytes (.engine false n) (unitVa st.ox0 va j) n
    pure bs
  setVreg d fun v => { data := BitVec.ofNat 512 (ofLe units.flatten), desc := v.desc }
  pure .seq

/-- VSTS: every unit is checked before any is written. Units that cover a whole block carry the descriptor. -/
def vstsBody (x : BitVec 4) (b : BitVec 5) (disp : BitVec 11) (st0 : Strand) : Act Next := do
  let st := st0.claimV
  liftT (st.vsources [b] [x])
  let va := dispVa (st.xv b) 64 disp
  let n := unitSize st.ox0
  let v := st.v x
  let who := (← get).who st
  let bytes := leBytes 64 v.data
  let whole := unitVa st.ox0 0 1 = BitVec.ofNat 64 n ∧ va.extractLsb' 0 6 = 0
  let places ← (List.range (64 / n)).mapM fun j => do
    let p ← placeOf who (.engine true n) (unitVa st.ox0 va j)
    noteRemote st p
    if whole then pure () else prefill who p n
    pure (j, p)
  let held ← holds st
  if held then pure () else places.forM fun x => x.2.answered who
  if whole then
    match places with
    | (_, p) :: _ =>
      if held then holdStore st { va := p.va, key := p.at_.key, bytes := bytes, desc := some v.desc }
      else storeAt who p bytes (some v.desc)
    | [] => pure ()
  else
    places.forM fun (j, p) =>
      let bs := (bytes.drop (j * n)).take n
      if held then holdStore st { va := p.va, key := p.at_.key, bytes := bs, desc := none, more := j != 0 }
      else storeAt who p bs none
  let now ← me
  setMe now.claimV
  pure .seq

def execVld (d : BitVec 4) (b : BitVec 5) (i : BitVec 11) (s : State) : Out := runAct clsVec 4 0 false (vldBody d b i) s
def execVst (c : BitVec 1) (v : BitVec 4) (b : BitVec 5) (i : BitVec 11) (s : State) : Out :=
  runAct clsVec 4 0 false (vstBody c v b i) s
def execVlds (d : BitVec 4) (b : BitVec 5) (i : BitVec 11) (s : State) : Out := runAct clsVec 4 0 false (vldsBody d b i) s
def execVsts (v : BitVec 4) (b : BitVec 5) (i : BitVec 11) (s : State) : Out := runAct clsVec 4 0 false (vstsBody v b i) s

/-! ### MIX (R170) -/

def rndk (d a : BitVec 5) (st : Strand) : Except Trap Strand := unaryOp (genK st.rkey0 st.rkey1) d a st

def dgst (a : BitVec 5) (st : Strand) : Except Trap Strand :=
  match st.sources [a] with
  | .error t => .error t
  | .ok () => .ok { st with digest := digestStep st.digest (st.xv a) }

def execRndk (d a : BitVec 5) (g : BitVec 3) (s : State) : Out := runPure clsVec 4 g (rndk d a) s
def execDgst (a : BitVec 5) (g : BitVec 3) (s : State) : Out := runPure clsVec 4 g (dgst a) s

end Sys2Proof.Machine
end

