-- ==== Sys2Proof/Machine/Engines.lean ====
section
/-! DEFINITION. Engines (R260, R283 to R287): the issue of a command, its inbox, its sectors, its end, and the collective
steps of a gang. -/

namespace Sys2Proof

/-! ### Operand blocks (R285 to R287) -/

/-- Word `i` of its block. -/
def EngCmd.w (c : EngCmd) (i : Nat) : Word := c.blk[i]?.getD 0
/-- Region words that the command carries, one each. -/
def EngCmd.regions (c : EngCmd) : List Word := ([c.w 4, c.w 5].filter (· != 0)).eraseDups
/-- Size of a sector or unit, and how many there are. -/
def EngCmd.unit (c : EngCmd) : Nat := if c.op = 1 ∨ c.op = 2 then 2 ^ ((c.w 6).extractLsb' 32 4).toNat else 64
def EngCmd.total (c : EngCmd) : Nat := if c.op = 1 ∨ c.op = 2 then (c.w 7).toNat else (c.w 2).toNat / 64
def EngCmd.coll (c : EngCmd) : BitVec 4 := (c.w 6).extractLsb' 0 4
def EngCmd.root (c : EngCmd) : Nat := ((c.w 6).extractLsb' 8 9).toNat
/-- The cluster of its engine. -/
def EngCmd.cluster (c : EngCmd) : Nat := c.eng / 4

/-- Is the block free of reserved bits and of values outside its tables (R283, R285 to R287)? -/
def EngCmd.wellFormed (c : EngCmd) : Bool :=
  let e := c.w 6
  -- the paths of R285: a source on OWN, RO, VAULT, BLK or HOST, a destination on all of these but RO
  let src (w : Word) : Bool := let p := (w.extractLsb' 50 14).toNat; p < 2 || p == 3 || p == 4 || p == 6
  let dst (w : Word) : Bool := src w && w.extractLsb' 50 14 != 1
  let paths : Bool := if c.op = 1 then src (c.w 0) && src (c.w 1) && dst (c.w 2)
    else if c.op = 2 then dst (c.w 0) && src (c.w 1) && src (c.w 2) else src (c.w 0) && dst (c.w 1)
  paths && if c.op = 0 then
    (c.w 0).toNat % 64 == 0 && (c.w 1).toNat % 64 == 0 && (c.w 2).toNat % 64 == 0 && (c.w 2).toNat ≤ 2 ^ 47
      && e.extractLsb' 7 9 == 0 && e.extractLsb' 34 30 == 0 && c.w 7 == 0
  else if c.op = 3 then
    (c.w 0).toNat % 64 == 0 && (c.w 1).toNat % 64 == 0 && (c.w 2).toNat % 64 == 0 && c.coll.toNat ≤ 8
      && !e.getLsbD 7 && e.extractLsb' 17 15 == 0 && e.extractLsb' 48 16 == 0
  else
    let u := (e.extractLsb' 32 4).toNat
    3 ≤ u && u ≤ 6 && (c.w 0).toNat % c.unit == 0 && (c.w 1).toNat % 4 == 0 && (c.w 2).toNat % 64 == 0
      && !e.getLsbD 5 && e.extractLsb' 7 25 == 0 && e.extractLsb' 36 28 == 0 && (c.w 7).toNat < 2 ^ 32

/-- The completion word (R284). -/
def EngCmd.completion (c : EngCmd) : Word := 1#1 ++ c.code.getD 0 ++ BitVec.ofNat 48 (c.unit * c.unitsDone)

namespace Machine

/-- The command as a party to which tokens are lent (R283). -/
def cmdParty (c : EngCmd) : Party := engineParty c.eng c.number

/-- The engine that a block names (R261, R285, R286); a collective goes to that of the issuer's cluster. -/
def engineOf (op : BitVec 3) (blk : List Word) (cluster : Nat) : Nat :=
  let e := blk[6]?.getD 0
  let c := if op = 3 ∨ e.getLsbD 6 then cluster else (e.extractLsb' 0 5).toNat
  4 * c + (if op = 0 then (e.extractLsb' 5 1).toNat else if op = 3 then 3 else 2)

/-- Completion codes (R284). -/
def codeOf (t : Trap) : BitVec 15 :=
  match t.code with
  | .path => if t.sub = 4 then 4 else if t.sub = 6 then 5 else 10
  | .align => 10
  | .xlate => 4
  | .deadPeer => 8
  | .poisoned | .sealedWrite | .tokenAbsent | .tokenReadonly => 5
  | .dataUe => 2
  | .integrity => 3
  | .vaultParity => 6
  | .truncated => 7
  | .format => 9
  | _ => 10

/-! ### Issue (R283) -/

/-- Reads a 64-byte operand block with the strand's own rights. -/
def readBlock (va : Word) : Act (List Word) := do
  let (bs, _) ← loadBytes (.vec false) va 64
  pure ((List.range 8).map fun i => wordOf ((bs.drop (8 * i)).take 8))

/-- A completion word is checked as a sync cell; the strand's own operations on it come first. -/
def cellPlace (write : Bool) (va : Word) : Act Place := do
  let st ← me
  let p ← placeOf ((← get).who st) (.cell write) va
  if st.pend.any fun x => x.key = p.at_.key then holdFor .drain
  else pure p

/-- Writes a completion word 0 at its cell's home. -/
def clearWord (va : Word) : Act Unit := do
  let p ← cellPlace true va
  noteRemote (← me) p
  storeAt ((← get).who (← me)) p (leBytes 8 (0 : Word)) none

/-- The command of a block, as its issuer sends it. -/
def State.command (s : State) (st : Strand) (op fscope : BitVec 3) (blk : List Word) : EngCmd :=
  { number := 0, eng := engineOf op blk st.cluster, op := op, fscope := fscope, blk := blk, issuer := st.handle, sk := st.sk
    lcore := s.logical st.pcore, rank := st.rank, nrank := st.nrank, gang := st.gang, scope := st.memberScope, weight := 0
    shielded := st.saggar, pasid := s.pasidOf st.scope, node := none, unitsDone := 0, inQuantum := 0, code := none
    paused := false, retired := st.retired, step := st.collStep
    bell := if fscope = 4 then s.bellSeq else 0 }

/-- Lends the command's regions to its engine (R283). -/
def lendTokens (st : Strand) (c : EngCmd) : Act Unit :=
  c.regions.forM fun w => do
    let r ← regionOf w
    transfer st .lend r w (strandParty st.handle) (cmdParty c) (leave (strandParty st.handle))

/-- What happens before a command leaves: the completion word 0, then the lends. -/
def issueEffects (st : Strand) (c : EngCmd) : Act Unit := do
  clearWord (c.w 3)
  lendTokens st c

/-- An engine of another partition is as one that is dead (R29; log entry 66). -/
def reachable (st : Strand) (c : EngCmd) : Act Unit := do
  if !(← get).samePart st.cluster c.cluster then raise { code := .deadPeer }

/-- CPY, GATH, SCAT, COLL: the block, its completion word and its lends are checked; then the command leaves, and the
strand waits until an inbox takes it. In a QUANTA scope the completion word and the lends come at the quantum's end. -/
def commandBody (op fscope : BitVec 3) (a : BitVec 5) (st : Strand) : Act Next := do
  match st.answer with
  | some .done => pure .seq
  | some (.trap t) => raise t
  | _ =>
    liftT (st.sources [a])
    let blk ← readBlock (st.xv a)
    let c := (← get).command st op fscope blk
    reachable st c
    let _ ← cellPlace true (c.w 3)
    c.regions.forM fun w => do
      let _ ← lendable st w
    weightReady
    let n ← newNumber
    let c := { c with number := n }
    let quanta := (← get).isQuanta c.scope
    if !quanta then issueEffects st c
    let w ← splitWeight
    let c := { c with weight := BitVec.ofNat 32 w }
    modify fun s =>
      let s := s.modStrand st.sk fun st =>
        { st with cmds := n :: st.cmds.filter s.unread, collStep := if op = 3 then st.collStep + 1 else st.collStep }
      s.requestFor st c.scope 2 (laneOf 1 c.lcore (engineNode c.eng)) .engineCommand (.cmd { c with issued := !quanta })
    holdFor (.reply n)

def execCpy (sc : BitVec 3) (a : BitVec 5) (g : BitVec 3) (s : State) : Out := runAct clsComm 4 g true (commandBody 0 sc a) s
def execGath (sc : BitVec 3) (a : BitVec 5) (g : BitVec 3) (s : State) : Out := runAct clsComm 4 g true (commandBody 1 sc a) s
def execScat (sc : BitVec 3) (a : BitVec 5) (g : BitVec 3) (s : State) : Out := runAct clsComm 4 g true (commandBody 2 sc a) s
def execColl (sc : BitVec 3) (a : BitVec 5) (g : BitVec 3) (s : State) : Out := runAct clsComm 4 g true (commandBody 3 sc a) s

/-! ### Inboxes (R260) -/

def State.modCmd (s : State) (e n : Nat) (f : EngCmd → EngCmd) : State :=
  s.modEngine e fun x => { x with inbox := x.inbox.map fun c => if c.number = n then f c else c }

/-- Can the command take a sector, but for its tokens on their way and the sector in flight? -/
def State.active (s : State) (c : EngCmd) : Bool :=
  c.code.isNone && !c.paused && !(s.isQuanta c.scope && 8 ≤ c.inQuantum) && (c.op != 3 || s.collReady c)

/-- Have the lends of the command reached its engine (R223)? A token that is gone or POISONED is not waited for. -/
def State.tokensHere (s : State) (c : EngCmd) : Bool :=
  c.regions.all fun w => match (decodeRegion w).bind (s.token · c.pasid) with
    | none => true
    | some t => t.state == .poisoned || (t.borrowers.contains (cmdParty c) && t.settled (cmdParty c))

/-- Are the host's writes before the doorbell performed, for a command at scope `.sys` (R223)? -/
def State.hostHere (s : State) (c : EngCmd) : Bool :=
  c.began || !s.agenda.any fun p => p.ev == .memoryWrite && (match p.arg with
    | .memReq r => (match r.by_ with
      | .host _ => r.seq < c.bell
      | _ => false)
    | _ => false)

/-- The four commands that an engine works on, in order of arrival. -/
def State.working (s : State) (e : Nat) : List EngCmd :=
  if (s.engine e).stopped then [] else ((s.engine e).inbox.filter s.active).take 4

/-- Wakes an engine that has work. -/
def State.kick (s : State) (e : Nat) : State :=
  if (s.working e).isEmpty || s.agenda.any fun p => p.ev == .engineSector && p.arg == .n1 e then s
  else s.after 1 .engineSector (.n1 e)

/-- A command has its code: it makes its release and ends; in a QUANTA scope at the quantum's end (R384). -/
def State.endCmd (s : State) (c : EngCmd) (code : BitVec 15) : State :=
  match s.cmd c.eng c.number with
  | none => s
  | some x =>
    if x.code.isSome then s
    else
      (s.modCmd c.eng c.number fun c => { c with code := some code, inFlight := false }).request c.scope 513 c.eng 3 0
        .engineCommandEnd (.n2 c.eng c.number)

/-- The commands of a step of a gang. -/
def State.stepCmds (s : State) (c : EngCmd) : List EngCmd :=
  if c.nrank = 1 then [c]
  else match s.gangs.find c.gang.toNat with
    | some ga => ((ga.steps.filter fun x => x.1 == c.step).filterMap fun x => s.cmd x.2.2.eng x.2.2.number)
    | none => []

/-- A command ends with a code; a step of a collective ends with it at every rank, those that join later too (log entry
15). -/
def State.endAll (s : State) (c : EngCmd) (code : BitVec 15) : State :=
  if c.op = 3 ∧ c.nrank ≠ 1 then
    let s := (s.stepCmds c).foldl (fun s x => s.endCmd x code) (s.endCmd c code)
    match s.gangs.find c.gang.toNat with
    | some ga => { s with gangs := s.gangs.insert c.gang.toNat { ga with ended := (c.step, code) :: ga.ended } }
    | none => s
  else s.endCmd c code

/-- A COLL joins its step. When every rank has joined, the step begins, or ends with BAD_COMMAND where the ranks disagree;
a malformed block ends it with BAD_COMMAND at once, and a rank that is gone with DEAD_PEER (R287). -/
def State.joinStep (s : State) (c : EngCmd) (early : Option (BitVec 15)) : State :=
  if c.nrank = 1 then
    if early.isSome then s.endCmd c (early.getD 10) else if c.coll = 8 ∧ c.root ≠ 0 then s.endCmd c 10 else if c.total = 0 then s.endCmd c 0 else s.kick c.eng
  else
    match s.gangs.find c.gang.toNat with
    | none => s.endCmd c 8
    | some ga =>
      let ga : Gang := { ga with steps := ga.steps ++ [(c.step, c.rank.toNat, c)] }
      let s := { s with gangs := s.gangs.insert c.gang.toNat ga }
      let here := ga.steps.filter fun x => x.1 == c.step
      let gone := (List.range ga.nrank).any fun r => !(here.any fun x => x.2.1 == r) && !(ga.members.any fun m => m.1 == r)
      let agree := here.all fun x =>
        x.2.2.coll == c.coll && x.2.2.w 2 == c.w 2 && (x.2.2.root == c.root)
          && (c.coll != 8 || c.root < ga.nrank)
      if let some x := ga.ended.find? (·.1 == c.step) then s.endCmd c x.2
      else if let some k := early then s.endAll c k
      else if gone then s.endAll c 8
      else if here.length < ga.nrank then s
      else if !agree then s.endAll c 10
      else if c.total = 0 then s.endAll c 0
      else here.foldl (fun s x => s.kick x.2.2.eng) s

/-- A command enters its inbox; a full one refuses it. The block is checked on acceptance; a command that carries a code
already (a node whose lend has failed) ends with it. -/
def State.enterInbox (s : State) (c : EngCmd) : State :=
  if 16 ≤ (s.engine c.eng).inbox.length then
    s.deliver c.scope (laneOf 1 (engineNode c.eng) c.lcore) .refusal (.refused 1 (.cmd c))
  else
    let s := s.modCluster c.cluster fun cl => { cl with gated := false }
    let early : Option (BitVec 15) := if c.code.isSome then c.code else if c.wellFormed then none else some 10
    let c := { c with inQuantum := if s.isQuanta c.scope then 8 else 0, dig := c.w 7, code := none }
    let c := { c with seat := (s.engine c.eng).entered + 1 }
    let s := s.modEngine c.eng fun e => { e with inbox := e.inbox ++ [c], entered := e.entered + 1 }
    let s := if c.node.isSome then s
      else s.deliver c.scope (laneOf 0 (engineNode c.eng) c.lcore) .acknowledgement (.answer c.sk c.issuer c.number .done)
    if c.op = 3 then s.joinStep c early
    else match early with
      | some k => s.endCmd c k
      | none => if c.total = 0 then s.endCmd c 0 else s.kick c.eng

/-- ENGINE_COMMAND: in a QUANTA scope the command issues here (R409 phase 2); its strand takes the fault of an issue that
fails. -/
def State.commandArrives (s : State) (c : EngCmd) : State :=
  if c.issued then s.enterInbox c
  else
    match s.waiter c.sk c.issuer with
    | none => s.enterInbox { c with issued := true }
    | some st =>
      match (issueEffects st c).go { s with cur := c.sk } with
      | (.ok (), s) => s.enterInbox { c with issued := true }
      | (.error (.trap t), s) =>
        -- what the command took from its strand comes back: its weight and its collective step (R10)
        let s := if c.op = 3 then s.modStrand c.sk fun st => { st with collStep := st.collStep - 1 } else s
        (s.giveBack c.sk c.issuer c.scope c.lcore c.weight.toNat).deliver c.scope (laneOf 0 (engineNode c.eng) c.lcore) .acknowledgement
          (.answer c.sk c.issuer c.number (.trap t))
      | (.error _, _) => s.after 1 .engineCommand (.cmd c)

def execEngineCommand (s : State) : Out :=
  match s.arg with
  | .cmd c => .next (s.commandArrives c)
  | _ => .next s

/-! ### Sectors -/

/-- Who an engine is to the memories: the party its tokens were lent to; under a read-share, also its issuer (R285). -/
def State.engineWho (s : State) (c : EngCmd) (va : Word) : Who :=
  let t? := s.covering c.pasid (pathOf va == 3) (va.extractLsb' 0 50).toNat
  let shared : Bool := match t? with
    | some t => t.state == .shared
    | none => false
  { pcore := 17 * c.cluster, pasid := c.pasid
    parties := (cmdParty c) :: (if shared then [strandParty c.issuer] else [])
    sys := false, ctx := BitVec.ofNat 32 (0x80000000 + c.eng), scope := c.scope, cluster := c.cluster
    pageAns := c.pageAns, engine := true }

/-- Reads `n` bytes for a command. -/
def engineRead (c : EngCmd) (va : Word) (n : Nat) : Act (List Byte × Desc) := do
  let who := (← get).engineWho c va
  let p ← placeOf who (.engine false n) va
  loadAt who p n

/-- Writes bytes for a command. -/
def engineWrite (c : EngCmd) (va : Word) (bs : List Byte) (d : Option Desc) : Act Unit := do
  let who := (← get).engineWho c va
  let p ← placeOf who (.engine true bs.length) va
  storeAt who p bs d

/-- The block that a CPY with CVT writes (R153, R285). -/
def convertBlock (c : EngCmd) (b : Block) (d : Desc) : Except Trap (Block × Desc) :=
  let cvt : Desc := (c.w 6).extractLsb' 16 16
  if cvt = 0 then .ok (b, d)
  else
    match checkFormats vectorFormat [d, cvt], checkLanes cvt [d] with
    | .error t, _ => .error t
    | _, .error t => .error t
    | .ok (), .ok () => .ok ((roundBlock cvt (modeOf ((c.w 6).extractLsb' 32 2)) (blockValues b d)).1, cvt)

def blockOfBytes (bs : List Byte) : Block := BitVec.ofNat 512 (ofLe bs)

/-- Reads the next sector or unit of a command: its bytes, its descriptor, and where it goes. -/
def fetchUnit (c : EngCmd) : Act (Block × Desc × Word) := do
  let n := c.unit
  let off := BitVec.ofNat 64 (n * c.unitsDone)
  if c.op = 0 then
    let (bs, d) ← engineRead c (c.w 0 + off) 64
    let (b, d) ← liftT (convertBlock c (blockOfBytes bs) d)
    pure (b, d, c.w 1 + off)
  else if c.op = 3 ∧ c.coll = 8 ∧ c.nrank ≠ 1 ∧ c.rank.toNat ≠ c.root then
    -- a BCAST copies the SRC of its root alone (R287)
    pure (0, 0, c.w 1 + off)
  else if c.op = 3 then
    let (bs, d) ← engineRead c (c.w 0 + off) 64
    pure (blockOfBytes bs, d, c.w 1 + off)
  else
    let (ib, _) ← engineRead c (c.w 1 + BitVec.ofNat 64 (4 * c.unitsDone)) 4
    let at_ := c.w 0 + BitVec.ofNat 64 (n * ofLe ib)
    let dense := c.w 2 + off
    let (src, dst) := if c.op = 1 then (at_, dense) else (dense, at_)
    let (bs, d) ← engineRead c src n
    pure (blockOfBytes bs, d, dst)

/-- A sector that cannot go on: its fault ends the command; a page request pauses it (R183); a token in RECLAIMING makes it
try again. -/
def State.stopCmd (s : State) (c : EngCmd) (e : Stop) : State :=
  match e with
  | .trap t => s.endAll c (codeOf t)
  | .page pasid page write => (s.askPage pasid page write).modCmd c.eng c.number fun c => { c with paused := true, inFlight := false }
  | _ => s.modCmd c.eng c.number fun c => { c with inFlight := false }

/-- Has the scope's flit or memory cone reached its maximum in the engine's cluster (R314)? -/
def State.sectorHeld (s : State) (c : EngCmd) : Bool :=
  s.coneFull c.cluster c.scope

/-- The command whose turn it is: the first in order of arrival after the one served last, which may have ended. -/
def State.turnOf (s : State) (e : Nat) : Option EngCmd :=
  let l := s.working e
  let ready (c : EngCmd) : Bool := !c.inFlight && s.tokensHere c && s.hostHere c && !s.sectorHeld c
  let later (c : EngCmd) : Bool := (s.engine e).turn < c.seat
  ((l.filter later) ++ (l.filter fun c => !later c)).find? ready

/-- The unit that data for an address go to; memory whose translation is missing has none yet, and the node is the Kiln's. -/
def State.dataNode (s : State) (pasid : BitVec 20) (va : Word) : Nat :=
  let off := (va.extractLsb' 0 50).toNat
  if va.extractLsb' 50 4 = 3 then unitNode (off / 2 ^ 23 / 16) 14
  else match s.rawKey pasid va with
    | some k => memoryNode k
    | none => kilnNode

/-- The collective engine that combines a step: rank 0's (log entry 15). -/
def State.stepRoot (s : State) (c : EngCmd) : Nat :=
  engineNode (((s.stepCmds c).find? fun x => x.rank = 0).map (·.eng) |>.getD c.eng)

/-- One sector leaves for its destination (R260, R285, R286); an unshielded command of a cancelled scope stops (R291), in a
QUANTA scope in the quantum after the cancellation (R394). -/
def State.moveSector (s : State) (c : EngCmd) : State :=
  if !c.shielded && (if s.isQuanta c.scope then c.stopping else (s.scope c.scope).cancelled) then s.endAll c 1
  else
    match (fetchUnit c).go s with
    | (.error e, s) => s.stopCmd c e
    | (.ok (b, d, dst), s) =>
      let s := (s.modCmd c.eng c.number fun c => { c with inFlight := true, began := true }).countFlits c.cluster c.scope 2
      let r : MemReq :=
        { number := c.number, off := dst.toNat, data := b, byteMask := BitVec.ofNat 64 (2 ^ c.unit - 1), desc := some d
          by_ := .engine c.eng }
      if c.op = 3 then s.bulk (engineNode c.eng) (s.stepRoot c) .collectiveData (.memReq r)
      else s.bulk (engineNode c.eng) (s.dataNode c.pasid dst) .engineData (.memReq r)

/-- ENGINE_SECTOR. -/
def execEngineSector (s : State) : Out :=
  match s.arg with
  | .n1 e =>
    match s.turnOf e with
    | none => .next (s.kick e)
    | some c => .next (((s.modEngine e fun x => { x with turn := c.seat }).moveSector c).kick e)
  | _ => .next s

/-- A sector is done: the command has its code after the last. -/
def State.unitDone (s : State) (c : EngCmd) : State :=
  let s := s.modCmd c.eng c.number fun c =>
    { c with unitsDone := c.unitsDone + 1, inQuantum := c.inQuantum + 1, inFlight := false, pageAns := none }
  if c.total ≤ c.unitsDone + 1 then s.endCmd c 0 else s.kick c.eng

/-- ENGINE_DATA: a sector is written at its destination (R285, R286). -/
def execEngineData (s : State) : Out :=
  match s.arg with
  | .memReq r =>
    match r.by_ with
    | .engine e =>
      match s.cmd e r.number with
      | none => .next s
      | some c =>
        if !c.inFlight ∨ c.code.isSome then .next s
        else
          let bs := (leBytes 64 r.data).take c.unit
          match (engineWrite c (BitVec.ofNat 64 r.off) bs (if c.unit = 64 then r.desc else none)).go s with
          | (.ok (), s) => .next (s.unitDone c)
          | (.error e, s) => .next ((s.stopCmd c e).kick c.eng)
    | _ => .next s
  | _ => .next s

/-! ### Collectives (R78, R287) -/

/-- One level of the tree of R78: a node with both inputs combines them, with one it passes it on. -/
def treeLevel (f : Num → Num → Num) : List (Option Num) → List (Option Num)
  | some a :: some b :: rest => some (f a b) :: treeLevel f rest
  | some a :: none :: rest => some a :: treeLevel f rest
  | none :: b :: rest => b :: treeLevel f rest
  | l => l

/-- The tree over a power of two of leaves; its root combines by `root`. -/
def rankTree (f root : Num → Num → Num) : Nat → List (Option Num) → Num
  | 0, _ => .nan
  | _ + 1, [some a] => a
  | _ + 1, [some a, some b] => root a b
  | _ + 1, [some a, none] => a
  | n + 1, l => rankTree f root n (treeLevel f l)

/-- The least power of two that is not below n. -/
def powerFor (n : Nat) : Nat := if n ≤ 1 then 1 else 2 ^ ((n - 1).log2 + 1)

/-- Reduces one element over the ranks, by SUM, MIN or MAX, before the rounding to the result format. -/
def reduceRanks (op : BitVec 4) (m : Mode) (vs : List Num) : Num :=
  let leaves := vs.map some ++ List.replicate (powerFor vs.length - vs.length) none
  if op = 0 then
    rankTree (fun a b => a34Num (toA34 (Num.add .rne a b).1).1) (fun a b => (Num.add m a b).1) 12 leaves
  else rankTree (Num.pick (op == 2)) (Num.pick (op == 2)) 12 leaves

/-- Combines words of `w` bits. -/
def foldLanes (w : Nat) (f : Nat → Nat → Nat) (bs : List Block) : Block :=
  blockOf w ((List.range (512 / w)).map fun i => (bs.map fun (b : Block) => (b >>> (w * i)).toNat % 2 ^ w).foldl f 0)

/-- The result block of one sector from the contributions in rank order; none for a FORMAT condition. -/
def collResult (c : EngCmd) (parts : List (Block × Desc)) : Option (Block × Desc) :=
  let op := c.coll
  let blocks := parts.map (·.1)
  let d := ((parts.map (·.2)).head?).getD 0
  let rd : Desc := (c.w 6).extractLsb' 32 16
  let res := if rd = 0 then d else rd
  let m := modeOf ((c.w 6).extractLsb' 4 2)
  match op.toNat with
  | 0 | 1 | 2 =>
    if (parts.all fun p => p.2 == d) && vectorFormat d && vectorFormat res && lanes d == lanes res then
      let vs := (List.range (lanes d)).map fun i => reduceRanks op m (blocks.map fun b => laneValue b d i)
      some ((roundBlock res m vs).1, res)
    else none
  | 3 => some (foldLanes 32 (· + ·) blocks, res)
  | 4 => some (foldLanes 64 (· + ·) blocks, res)
  | 5 => some (blocks.foldl (· &&& ·) (BitVec.allOnes 512), res)
  | 6 => some (blocks.foldl (· ||| ·) 0, res)
  | 7 => some (blocks.foldl (· ^^^ ·) 0, res)
  | _ =>
    match parts[c.root]? with
    | some (b, bd) => some (b, if rd = 0 then bd else rd)
    | none => none

/-- The digest with the words of a block folded in, in order (R82). -/
def foldDigest (d : Word) (b : Block) : Word := (List.range 8).foldl (fun d i => digestStep d (blockWord b i)) d

/-- Takes the contributions of a step away, and lets the commands read again that have to. -/
def State.dropParts (s : State) (c : EngCmd) : State :=
  match s.gangs.find c.gang.toNat with
  | some ga => { s with gangs := s.gangs.insert c.gang.toNat { ga with parts := ga.parts.filter fun p => p.1 != c.step } }
  | none => s

/-- Every contribution to a sector is here: the result is written at every rank. RDESC and the rounding mode, in which the ranks'
blocks may differ, are those of the command that came last: DESIGN CHOICE (R287; log entry 70). -/
def State.combine (s : State) (c : EngCmd) (cmds : List EngCmd) (parts : List (Block × Desc)) : State :=
  match collResult c parts with
  | none => s.endAll c 9
  | some (b, d) =>
    let dst (x : EngCmd) : Word := x.w 1 + BitVec.ofNat 64 (64 * x.unitsDone)
    -- every destination is checked before any is written
    let check (x : EngCmd) : Option Stop :=
      match s.place (s.engineWho x (dst x)) (.engine true 64) (dst x) with
      | .ok _ => none
      | .error e => some e
    match cmds.find? fun x => (check x).isSome with
    | some x =>
      let s := cmds.foldl (fun s y => s.modCmd y.eng y.number fun y => { y with inFlight := false }) s
      let s := s.dropParts c
      (cmds.map (·.eng)).foldl (fun s e => s.kick e) (s.stopCmd x ((check x).getD (.reclaim 0)))
    | none =>
      let s := cmds.foldl (fun s x =>
        match (engineWrite x (dst x) (leBytes 64 b) (some d)).go s with
        | (.ok (), s) =>
          -- the result leaves the root's engine as collective data
          ((s.injects (nodeHome (s.stepRoot c) |>.getD 0) 2).modCmd x.eng x.number fun x => { x with dig := foldDigest x.dig b }).unitDone x
        | (.error e, s) => s.stopCmd x e) s
      s.dropParts c

/-- COLLECTIVE_DATA: one rank's contribution to the step's current sector. -/
def State.contribute (s : State) (c : EngCmd) (b : Block) (d : Desc) : State :=
  if c.nrank = 1 then s.combine c [c] [(b, d)]
  else
    match s.gangs.find c.gang.toNat with
    | none => s.endCmd c 8
    | some ga =>
      let ga : Gang := { ga with parts := ga.parts ++ [(c.step, c.rank.toNat, b, d)] }
      let s := { s with gangs := s.gangs.insert c.gang.toNat ga }
      let mine := ga.parts.filter fun p => p.1 == c.step
      if mine.length < ga.nrank then s
      else
        let part (r : Nat) : Block × Desc := ((mine.find? fun p => p.2.1 == r).map (·.2.2)).getD (0, 0)
        s.combine c (s.stepCmds c) ((List.range ga.nrank).map part)

def execCollectiveData (s : State) : Out :=
  match s.arg with
  | .memReq r =>
    match r.by_ with
    | .engine e =>
      match s.cmd e r.number with
      | none => .next s
      | some c => if !c.inFlight ∨ c.code.isSome then .next s else .next (s.contribute c r.data (r.desc.getD 0))
    | _ => .next s
  | _ => .next s

/-- DIGEST (R389): the root collects the digests of a step; when all are here it compares them with rank 0's and reports
the lowest rank whose digest differs. -/
def State.digestAt (s : State) (g step rank : Nat) (d : Word) : State :=
  match s.gangs.find g with
  | none => s
  | some ga =>
    let all := ga.digests ++ [(step, rank, d)]
    let mine := all.filter fun x => x.1 == step
    if mine.length < ga.nrank then { s with gangs := s.gangs.insert g { ga with digests := all } }
    else
      let s := { s with gangs := s.gangs.insert g { ga with digests := all.filter fun x => x.1 != step } }
      match mine.find? fun x => x.2.1 = 0 with
      | none => s
      | some (_, _, d0) =>
        match (List.range ga.nrank).find? fun r => mine.any fun x => x.2.1 == r && x.2.2 != d0 with
        | some r => s.report 1 (s.scope ga.scope).fdom [BitVec.ofNat 64 step, BitVec.ofNat 64 r]
        | none => s

def execDigest (s : State) : Out :=
  match s.arg with
  | .digest g step rank d => .next (s.digestAt g step rank d)
  | _ => .next s

/-! ### The end of a command (R224, R284) -/

/-- Is a lend to the command still on its way to the home or to the engine? -/
def State.lendsComing (s : State) (c : EngCmd) : Bool :=
  let lends (a : Payload) : Bool := match a with
    | .grant g => g.kind == .lend && g.receiver == cmdParty c
    | _ => false
  (s.tokens.any fun t => t.coming.contains (cmdParty c)) || (s.agenda.any fun p => lends p.arg)
    || s.domains.any fun d => d.2.held.any fun h => lends h.2

/-- Returns the tokens of a command to their lenders: the numbers of the transfers. -/
def State.returnLent (s : State) (c : EngCmd) : State × List Nat :=
  s.tokens.foldl (fun (acc : State × List Nat) t =>
    let (s, ns) := acc
    if t.state = .lent ∧ t.borrowers.getLast? = some (cmdParty c) ∧ t.pasid = c.pasid then
      let n := s.fresh
      ((s.modToken t.reg t.pasid fun t => { t with leaving := (cmdParty c) :: t.leaving }).sendGrant .ret t.reg t.region t.pasid (cmdParty c)
        (cmdParty c) c.scope c.lcore 0 c.retired, n :: ns)
    else (s, ns)) (s, [])

/-- Writes a cell of the issuer's tenant for an engine, as by SST.rel; none where it cannot be written. -/
def State.writeCell (s : State) (c : EngCmd) (va v : Word) : Except Stop State :=
  let who := s.engineWho c va
  let body : Act Unit := do
    let p ← placeOf who (.cell true) va
    storeAt who p (leBytes 8 v) none
  match body.go s with
  | (.ok (), s) => .ok s
  | (.error e, _) => .error e

def State.countDropped (s : State) (cluster : Nat) : State := s.modCluster cluster fun c => { c with dropped := c.dropped + 1 }

/-- After the completion word: the weight, the decrements of a node, and the command's place in its inbox and its step. The
weight is LOST with an engine that could not write the word (R291). -/
def State.leaveInbox (s : State) (c : EngCmd) (lost : Bool) : State :=
  let s := s.modEngine c.eng fun e => { e with inbox := e.inbox.filter fun x => x.number != c.number }
  let s := s.workLeaves c.cluster
  let s := match s.gangs.find c.gang.toNat with
    | some ga =>
      if c.op = 3 ∧ c.nrank ≠ 1 then
        let ga : Gang := { ga with steps := ga.steps.filter fun x => !(x.1 == c.step && x.2.1 == c.rank.toNat) }
        { s with gangs := s.gangs.insert c.gang.toNat ga }
      else s
    | none => s
  let s := if c.op = 3 ∧ c.code = some 0 ∧ (c.w 6).getLsbD 6 ∧ c.nrank ≠ 1 then
      s.deliver c.scope (laneOf 0 (engineNode c.eng) (s.stepRoot c)) .digest (.digest c.gang.toNat c.step c.rank.toNat c.dig)
    else s
  let s := s.returnWeight c.scope c.lcore 0 c.weight.toNat lost false
  let s := match c.node with
    | some id => s.nodeEnds id
    | none => s
  s.kick c.eng

/-- The engine's write of a cell is served at the cell's home in its turn (R202, R386). -/
def State.cellTurn (s : State) (c : EngCmd) (va : Word) (go : State → State) : State :=
  s.ordered c.scope 4 0 va (partyChoice c.lcore c.retired) (·.after 1 .engineCommandEnd (.n2 c.eng c.number)) go

/-- A completion word stands in its cell: EWTs that wait at its home find it (R397), and later loads of it are observations
(R386). -/
def State.wordWritten (s : State) (c : EngCmd) : State :=
  match s.rawKey c.pasid (c.w 3) with
  | some k => ({ s with doneWords := if s.doneWords.contains k then s.doneWords else k :: s.doneWords }).answerWords (· == k)
  | none => s

/-- The second half of the end: the digest, then the completion word; one that cannot be written is counted (R224). -/
def State.completeCmd (s : State) (c : EngCmd) : State :=
  let s := if c.op = 3 ∧ c.code = some 0 ∧ (c.w 6).getLsbD 6 then
      match s.writeCell c (c.w 3 + 8) c.dig with
      | .ok s => s
      | .error _ => s.countDropped c.cluster
    else s
  match s.writeCell c (c.w 3) c.completion with
  | .ok _ => s.cellTurn c (c.w 3) fun s =>
      match s.writeCell c (c.w 3) c.completion with
      | .ok s => (s.wordWritten c).leaveInbox c false
      | .error _ => (s.countDropped c.cluster).leaveInbox c false
  | .error (.reclaim _) => s.after 1 .engineCommandEnd (.n2 c.eng c.number)
  | .error (.page pasid page write) =>
    (s.askPage pasid page write).modCmd c.eng c.number fun c => { c with paused := true }
  | .error _ => (s.countDropped c.cluster).leaveInbox c false

/-- The engine of a command dies: DEAD_PEER is written where the word can still be reached (R291). -/
def State.engineDies (s : State) (c : EngCmd) (reach : Nat → Bool) : State :=
  let c := { c with code := some 8 }
  match s.place (s.engineWho c (c.w 3)) (.cell true) (c.w 3) with
  | .error _ => s.leaveInbox c true
  | .ok p =>
    if !reach p.at_.key then s.leaveInbox c true
    else match s.writeCell c (c.w 3) c.completion with
      | .ok s => (s.wordWritten c).leaveInbox c false
      | .error _ => s.leaveInbox c true

/-- ENGINE_COMMAND_END: its tokens return first, then the completion word is written. -/
def State.commandEnds (s : State) (e n : Nat) (code : Option (BitVec 15)) : State :=
  match s.cmd e n with
  | none => s
  | some c =>
    match c.code, code with
    | none, some k => s.endCmd c k
    | none, none => s
    -- a rank that leaves has no say in a command that has its code
    | some _, some _ => s
    | some _, none =>
      if c.returned then s.completeCmd c
      else if s.lendsComing c || s.tokens.any (fun t => t.state == .reclaiming && t.borrowers.getLast? == some (cmdParty c) && t.pasid == c.pasid) then s.after 1 .engineCommandEnd (.n2 e n)
      else
        let (s, ns) := s.returnLent c
        let s := s.modCmd e n fun c => { c with returned := true }
        -- the word comes after the returns (R224): behind them among what the quantum's end serves in phase 3 (R409)
        s.request c.scope 513 e 3 0 .engineCommandEnd (.n2 e n) (if s.isQuanta c.scope then [] else ns)

def execEngineCommandEnd (s : State) : Out :=
  match s.arg with
  | .n2 e n => .next (s.commandEnds e n none)
  | .n3 e n k => .next (s.commandEnds e n (some (BitVec.ofNat 15 k)))
  | _ => .next s

/-! ### EWT, ECHK (R290) -/

/-- EWT asks for the word at its home, in a QUANTA scope: the end of the quantum serves the request (R383, R397). -/
def askWord (st : Strand) (va : Word) (key : Nat) : Act Unit := do
  let n ← newNumber
  modify fun s =>
    let r : SyncReq :=
      { number := n, sk := st.sk, handle := st.handle, lcore := s.logical st.pcore, pasid := s.pasidOf st.scope, va := va, key := key
        op := 13, ord := 1, val := 0, cmp := 0, dst := none, scope := st.scope, retired := st.retired }
    s.requestOf st 2 (laneOf 1 r.lcore (memoryNode key)) .syncCellOperation (.syncReq r)
  holdFor (.word key false)

/-- EWT: a cancellation point at issue and while it waits for DONE. In a QUANTA scope it is answered at the end of a quantum,
and retires in the next (R397). -/
def ewtBody (d a : BitVec 5) (st : Strand) : Act Next := do
  match st.answer with
  | some (.value w) =>
    putX d w
    pure .seq
  | some (.trap t) => raise t
  | _ =>
    cancelPoint st
    liftT (st.sources [a])
    let va := st.xv a
    if (← get).isQuanta st.scope then
      let p ← placeOf ((← get).who st) (.cell false) va
      noteRemote st p
      askWord st va p.at_.key
      pure .seq
    else
      let p ← cellPlace false va
      let (bs, _) ← loadAt ((← get).who st) p 8
      let w := wordOf bs
      if w.msb then
        noteRemote st p
        putX d w
        pure .seq
      else holdFor (.word p.at_.key)

/-- ECHK reads the word as SLD.acq does (operation 12: an observation of an engine's progress). -/
def echkBody (d a : BitVec 5) (st : Strand) : Act Next := do
  liftT (st.sources [a])
  let _ ← placeOf ((← get).who st) (.cell false) (st.xv a)
  liftT (st.checkDst d.toNat)
  issueCell 12 1 (st.xv a) 0 (some d)
  pure .seq

def execEwt (d a : BitVec 5) (g : BitVec 3) (s : State) : Out := runAct clsComm 4 g true (ewtBody d a) s
def execEchk (d a : BitVec 5) (g : BitVec 3) (s : State) : Out := runAct clsComm 4 g true (echkBody d a) s

end Machine

end Sys2Proof
end

