-- ==== Sys2Proof/Machine/Nodes.lean ====
section
/-! DEFINITION. The dependence graph: NODE, EDEC, and the events of the node tables (R288, R289, R347, R348, R396). -/

namespace Sys2Proof.Machine

/-! ### The node word (R288) -/

def succOk (x : BitVec 16) : Bool := x == 0xFFFF || x.extractLsb' 13 3 == 0

/-- Is the node word well formed? -/
def nodeWordOk (w : Word) : Bool :=
  w.extractLsb' 48 16 == 0 && !w.getLsbD 7 && !w.getLsbD 3 && w.extractLsb' 0 3 < 6#3 && w.extractLsb' 4 3 < 5#3
    && succOk (w.extractLsb' 32 16) && succOk (w.extractLsb' 16 16)

/-- The lowest free entry of a cluster's table (log entry 9). -/
def State.freeNode (s : State) (cluster : Nat) : Option Nat :=
  (List.range 256).find? fun e => (s.node (256 * cluster + e)).state = .free

/-- The next generation of an entry: it skips 0 (R348). -/
def nextNodeGen (g : BitVec 16) : BitVec 16 := if g = 0xFFFF then 1 else g + 1

/-- The handle of a node: generation and id. -/
def nodeHandle (gen : BitVec 16) (id : Nat) : Word := 0#32 ++ gen ++ BitVec.ofNat 16 id

/-! ### Firing (R225, R288, R312) -/

/-- May the creator of a node lend a region to its command now? A creator that has ended may not. -/
def State.mayLend (s : State) (h : Handle) (pasid : BitVec 20) (w : Word) : Bool :=
  let me := strandParty h
  (s.named h).isSome &&
    (match (decodeRegion w).bind (s.token · pasid) with
     | some t => (t.borrowedBy me || (t.ownedBy me && t.state == .held && t.sharing == 0)) && t.borrowers.length < 4
     | none => false)

/-- Does a lend of the command wait, as its creator's TLEND would, for a migration (R225, R226)? -/
def State.lendWaits (s : State) (c : EngCmd) : Bool :=
  (s.named c.issuer).isSome && c.regions.any fun w => match (decodeRegion w).bind (s.token · c.pasid) with
    | some t => t.state == .reclaiming &&
        (({ t with state := t.prior } : Token).borrowedBy (strandParty c.issuer) || t.ownedBy (strandParty c.issuer))
    | none => false

/-- Lends a region to a node's command, after the accesses of its creator that are in flight. -/
def State.lendNode (s : State) (c : EngCmd) (w : Word) : State :=
  match decodeRegion w with
  | none => s
  | some r =>
    let me := strandParty c.issuer
    let waits := match s.named c.issuer with
      | some st => st.pend.map (·.number)
      | none => []
    (s.modToken r c.pasid (leave me)).sendGrant .lend r w c.pasid me (cmdParty c) c.scope c.lcore 0 c.retired waits

/-- A node's command leaves for its engine, its tokens lent as by its creator's TLEND, whose stores held in an idempotent
region come first; a lend that fails gives it code TOKEN. -/
def State.fireCommand (s : State) (id : Nat) (c : EngCmd) : State :=
  if s.lendWaits c then
    let nd := s.node id
    if s.isQuanta nd.mscope then s else s.after 1 .nodeReservationRetry (.n2 id nd.gen.toNat)
  else
  let s := match s.named c.issuer with
    | some st => if c.regions.isEmpty then s else s.commitIdem st
    | none => s
  let open_ : Bool := !c.regions.isEmpty && ((s.named c.issuer).map fun st => st.commit.isSome).getD false
  if open_ then
    if s.isQuanta (s.node id).mscope then s else s.after 1 .nodeReservationRetry (.n2 id (s.node id).gen.toNat)
  else
  let s := s.setNode id { s.node id with weight := 0 }
  let n := s.fresh
  let s := { s with fresh := s.fresh + 1 }
  let c := { c with number := n, node := some id, issued := true }
  let ok := c.regions.all fun w => s.mayLend c.issuer c.pasid w
  let s := if ok then c.regions.foldl (fun s w => s.lendNode c w) s else s
  (s.injects (nodeCluster id) 2).send (laneOf 1 (unitNode (nodeCluster id) 9) (engineNode c.eng)) .engineCommand (.cmd { c with code := if ok then none else some 5 })

/-- The context of a strand node. -/
def Node.context (nd : Node) (s : State) (id : Nat) : Ctx :=
  { x := (List.range 6).map (fun i => nd.blk[2 + i]?.getD 0) ++ [nodeHandle nd.gen id, 0]
    dbits := 0, preds := 0, pc := (nd.blk[0]?.getD 0).setWidth 16, kind := 2, prio := (s.scope nd.mscope).prio
    frm := 0, fflags := 0, weight := BitVec.ofNat 32 nd.weight, scope := nd.mscope, origin := nd.creator
    vfmt := 0x0001, mfmt := 0x0002, rkey0 := 0, rkey1 := 0, retired := 0, quantum := 0, qpos := 0
    image := s.imageAt (s.scope nd.mscope).tenant ((nd.blk[0]?.getD 0).setWidth 16).toNat, node := some id }

/-- A strand node takes its place among the live strands and goes to its core, or asks again later. -/
def State.fireStrand (s : State) (id : Nat) : State :=
  let nd := s.node id
  match s.reserveLive nd.mscope with
  | none => if s.isQuanta nd.mscope then s else s.after Config.retryWait .nodeReservationRetry (.n2 id nd.gen.toNat)
  | some s =>
    let named : Option Nat := match s.placementOf nd.mscope (nd.blk[1]?.getD 0) with
      | some (.named l) => some l
      | _ => none
    ((s.setNode id { nd with weight := 0 }).injects (nodeCluster id) 3).send (laneOf 1 (unitNode (nodeCluster id) 9) (unitNode (nodeCluster id) 12)) .spawnPlacement (.ctx (nodeCluster id) named (nd.context s id))

/-- A node's count is 0: it fires (R348). -/
def State.fireNode (s : State) (id : Nat) : State :=
  let nd := s.node id
  if nd.op = 4 then
    let s := s.returnWeight nd.mscope (16 * nodeCluster id) 0 nd.weight false false
    (s.setNode id { nd with state := .sending, weight := 0 }).nodeEnds id
  else
    let s := s.setNode id { nd with state := .running }
    match nd.issue with
    | some c => if nd.op = 5 then s.fireStrand id else s.fireCommand id c
    | none => s.fireStrand id

/-- Is a strand node's context still waiting for its reservation, or a command for its lends? -/
def Node.unplaced (nd : Node) : Bool := nd.state == .running && nd.weight != 0

/-- What fired and could not leave asks again. -/
def State.refire (s : State) (id : Nat) : State :=
  let nd := s.node id
  match nd.issue with
  | some c => if nd.op = 5 then s.fireStrand id else s.fireCommand id c
  | none => s.fireStrand id

/-! ### NODE -/

/-- The checks that NODE makes of a command's regions: well formed, and exactly a token of the tenant. -/
def checkRegions (c : EngCmd) : Act Unit :=
  c.regions.forM fun w => do
    let r ← regionOf w
    match (← get).token r c.pasid with
    | some _ => pure ()
    | none => raise (tokenAbsent 1 w)

/-- The malformed word of a strand block, if any (R288). -/
def State.strandBlockFault (s : State) (scope : ScopeId) (blk : List Word) : Option Word :=
  let pc := blk[0]?.getD 0
  let place := blk[1]?.getD 0
  if pc.extractLsb' 16 48 ≠ 0 ∨ pc.getLsbD 0 then some pc
  else
    match s.placementOf scope place with
    | some .deque | none => some place
    | some _ => none

/-- What the table does first for a node that it has room for: the completion word is 0. -/
def nodeWord (w : Word) (c : EngCmd) : Act Unit := do
  if w.extractLsb' 0 3 < 4#3 ∧ ((← get).freeNode (pcoreOf c.sk / 17)).isSome then clearWord (c.w 3)

/-- Makes the node: its entry, and its firing when it has no predecessor. The value for x[d] is all ones when the table is
full, and the weight then comes back. -/
def createNode (w : Word) (c : EngCmd) : Act Word := do
  let s ← get
  match s.freeNode (pcoreOf c.sk / 17) with
  | none =>
    set (s.giveBack c.sk c.issuer c.scope c.lcore c.weight.toNat)
    pure (BitVec.allOnes 64)
  | some e =>
    let id := 256 * (pcoreOf c.sk / 17) + e
    let op : BitVec 3 := w.extractLsb' 0 3
    let gen := nextNodeGen (s.node id).gen
    let pred := (w.extractLsb' 8 8).toNat
    let nd : Node :=
      { gen := gen, state := .waiting, op := op, fscope := w.extractLsb' 4 3, pred := pred, mscope := c.scope
        succ1 := w.extractLsb' 32 16, succ0 := w.extractLsb' 16 16, creator := c.issuer
        weight := c.weight.toNat, blk := c.blk, issue := if op < 4#3 then some c else none }
    set (s.setNode id nd)
    if pred = 0 && !s.isQuanta c.scope then modify fun s => s.fireNode id
    pure (nodeHandle gen id)

/-- The end of a NODE: the handle is in x[d], and a COLL node that was made takes the rank's next collective step. -/
def nodeMade (d : BitVec 5) (v : Word) (op : BitVec 3) : Act Next := do
  modify fun s => if op = 3 ∧ v ≠ BitVec.allOnes 64 then s.modStrand s.cur fun st => { st with collStep := st.collStep + 1 } else s
  putX d v
  pure .seq

/-- NODE (R288, R396): in a QUANTA scope the table serves it at the quantum's end. -/
def nodeBody (d a b : BitVec 5) (st : Strand) : Act Next := do
  match st.answer with
  | some (.value v) => nodeMade d v ((st.xv b).extractLsb' 0 3)
  | some (.trap t) => raise t
  | _ =>
    let w := st.xv b
    let op : BitVec 3 := w.extractLsb' 0 3
    liftT (st.sources (if op = 4 then [b] else [a, b]))
    if !nodeWordOk w then raise (unbound 5 w)
    else
      let blk ← if op = 4 then pure ([] : List Word) else readBlock (st.xv a)
      let c := (← get).command st op (w.extractLsb' 4 3) blk
      if op < 4#3 then
        reachable st c
        let _ ← cellPlace true (c.w 3)
        checkRegions c
      let s ← get
      match if op = 5 then s.strandBlockFault st.memberScope blk else none with
      | some w => raise (unbound 5 w)
      | none =>
        liftT (st.checkDst d.toNat)
        weightReady
        let quanta := (← get).isQuanta c.scope
        if !quanta then nodeWord w c
        let k ← splitWeight
        let c := { c with weight := BitVec.ofNat 32 k }
        if quanta then
          let n ← newNumber
          modify fun s => s.request c.scope (s.logical st.pcore) st.serial 1 0 .quantumEnd (.node n w c)
          holdFor (.reply n)
        else
          nodeMade d (← createNode w c) op

def execNode (d a b : BitVec 5) (g : BitVec 3) (s : State) : Out := runAct clsComm 4 g true (nodeBody d a b) s

/-- A held NODE is served at the quantum's end. -/
def State.serveNode (s : State) (n : Nat) (w : Word) (c : EngCmd) : State :=
  match s.waiter c.sk c.issuer with
  | none => s.returnWeight c.scope c.lcore 0 c.weight.toNat false false
  | some st =>
    if st.wait ≠ .reply n then s
    else
      let answer (s : State) (a : Answer) : State :=
        s.deliver c.scope (laneOf 0 (unitNode c.cluster 9) c.lcore) .acknowledgement (.answer c.sk c.issuer n a)
      match (do nodeWord w c; createNode w c).go { s with cur := c.sk } with
      | (.ok v, s) => answer s (.value v)
      | (.error (.trap t), s) => answer (s.giveBack c.sk c.issuer c.scope c.lcore c.weight.toNat) (.trap t)
      | (.error _, s) =>
        (s.giveBack c.sk c.issuer c.scope c.lcore c.weight.toNat).modStrand c.sk fun st => { st with wait := .none, answer := none }

/-! ### EDEC -/

/-- EDEC (R289): a release; it does not block. Bits of x[a] outside the handle's fields name no live node, nor does a node of
another partition (R29; log entry 66). -/
def edecBody (a : BitVec 5) (st : Strand) : Act Next := do
  liftT (st.sources [a])
  let w := st.xv a
  let id := (w.extractLsb' 0 13).toNat
  let gen : BitVec 16 := if w.extractLsb' 32 32 = 0 ∧ w.extractLsb' 13 3 = 0 then w.extractLsb' 16 16 else 0
  modify fun s =>
    let waits := st.accesses.filter fun n => s.outst.contains n || s.unread n
    let lane := laneOf 0 (s.logical st.pcore) (unitNode (nodeCluster id) 9)
    let arg : Payload := .decrement id (some gen) 1
    if !s.samePart st.cluster (nodeCluster id) then s.countIgnored st.cluster
    else if s.isQuanta st.scope then s.requestOf st 4 lane .predecessorDecrement arg
    else
      (s.push { due := s.cycle, lane := lane, route := lane, waits := waits, ev := .predecessorDecrement, arg := arg }).countPacket
        st.sk .predecessorDecrement arg
  pure .seq

def execEdec (a : BitVec 5) (g : BitVec 3) (s : State) : Out := runAct clsComm 4 g true (edecBody a) s

/-! ### Events -/

/-- A decrement reaches a node: at 0 the node fires, in a QUANTA scope at the quantum's end; one that names no live node,
another generation, or a count of 0 is ignored and counted (R288, R289, R348). -/
def State.decrement (s : State) (id : Nat) (gen : Option (BitVec 16)) (n : Nat) : State :=
  let nd := s.node id
  let other : Bool := match gen with
    | some g => g != nd.gen
    | none => false
  if nd.state ≠ .waiting ∨ other ∨ nd.pred < n then
    s.countIgnored (nodeCluster id)
  else
    let s := s.setNode id { nd with pred := nd.pred - n }
    if nd.pred = n && !s.isQuanta nd.mscope then s.fireNode id else s

/-- PREDECESSOR_DECREMENT. -/
def execPredecessorDecrement (s : State) : Out :=
  match s.arg with
  | .decrement id gen n => .next (s.decrement id gen n)
  | _ => .next s

/-- NODE_RESERVATION_RETRY: the node table asks again, for the LIVE reservation of a strand or the lends of a command. -/
def execNodeReservationRetry (s : State) : Out :=
  match s.arg with
  | .n2 id gen =>
    let nd := s.node id
    if nd.unplaced ∧ nd.gen.toNat = gen then .next (s.refire id) else .next s
  | _ => .next s

/-- Every waiting node of a domain whose count is 0 fires, and the refused reservations are asked for again (R288,
R396). -/
def State.fireNodes (s : State) (top : ScopeId) : State :=
  let ids := s.clusters.flatMap fun kv => kv.2.nodes.map fun nv => 256 * kv.1 + nv.1
  ids.foldl (fun s id =>
    let nd := s.node id
    if !s.under top nd.mscope then s
    else if nd.state = .waiting ∧ nd.pred = 0 then s.fireNode id
    else if nd.unplaced then s.refire id
    else s) s

end Sys2Proof.Machine
end

