-- ==== Sys2Proof/Machine/Schedule.lean ====
section
/-! DEFINITION. Which moves the module can make next (R236, R314, R328, R382, R410): fetch, the interlocks of a strand, the
choice of a core's strand, the events that are due. Log entry 1. -/

namespace Sys2Proof.Machine

/-! ### Fetch (R84, R85, R192) -/

inductive Fetched where
  | instr (i : Instr) (len : Nat)
  | reject (sub : BitVec 8) (w : Word32)
  | pastEnd
  /-- the failing word of the store, by its memory key -/
  | parity (key : Nat)
  deriving DecidableEq, Repr

/-- What stands at a pc. A parity failure of a word that the instruction lies in is met before anything is made of its bits:
before FETCH of a 32-bit one at 0xFFFE, and before ILLEGAL (log entry 52). -/
def State.fetch (s : State) (pcore : Nat) (pc : BitVec 17) : Fetched :=
  if 0xFFFE < pc.toNat then .pastEnd
  else
    let k := istoreKey pcore pc.toNat
    let h := halfOf (s.byte k) (s.byte (k + 1))
    let n := if isLong h && pc.toNat != 0xFFFE then 4 else 2
    match (wordsOf k n).find? fun w => parityOf (s.err w) != 0 with
    | some w => .parity w
    | none =>
      match decode (s.bytes k n) with
      | .instr i len => .instr i len
      | .reject sub w => .reject sub w
      | .short => .pastEnd

/-! ### Interlocks (R202, R203) -/

/-- The window register that an instruction writes; a SENDR and a SPAWN name theirs in `regNames`. -/
def regDst : Instr → Option (BitVec 5)
  | .add d _ _ _ | .sub d _ _ _ | .mul d _ _ _ | .mulh d _ _ _ | .mulhu d _ _ _ | .div d _ _ _ | .divu d _ _ _
  | .rem d _ _ _ | .remu d _ _ _ | .and d _ _ _ | .or d _ _ _ | .xor d _ _ _ | .andn d _ _ _ | .shl d _ _ _
  | .shr d _ _ _ | .sar d _ _ _ | .ror d _ _ _ | .min d _ _ _ | .max d _ _ _ | .minu d _ _ _ | .maxu d _ _ _
  | .addw d _ _ _ => some d
  | .clz d _ _ | .ctz d _ _ | .popc d _ _ | .bswap d _ _ | .sext d _ _ _ | .zext d _ _ _ | .mov d _ _ => some d
  | .movCompact d _ | .addCompact d _ | .subCompact d _ | .andCompact d _ | .orCompact d _ | .xorCompact d _
  | .shlCompact d _ | .shrCompact d _ => some d
  | .addi d _ _ | .andi d _ _ | .ori d _ _ | .xori d _ _ | .shli d _ _ | .shri d _ _ | .sari d _ _ | .rori d _ _ => some d
  | .addiCompact d _ | .lim d _ | .limCompact d _ | .lis d _ _ | .mfs d _ | .xfp d _ _ => some d
  | .fadd d _ _ _ _ | .fsub d _ _ _ _ | .fmul d _ _ _ _ | .ffma d _ _ _ _ | .fdiv d _ _ _ _ | .fmin d _ _ _ _
  | .fmax d _ _ _ _ => some d
  | .fsqrt d _ _ _ | .fabs d _ _ _ | .fneg d _ _ _ | .fcvti d _ _ _ _ | .fcvtf d _ _ _ _ | .fcvtw d _ _ _
  | .fcvtb d _ _ _ _ | .fclass d _ _ _ => some d
  | .ldB d _ _ | .ldBu d _ _ | .ldH d _ _ | .ldHu d _ _ | .ldW d _ _ | .ldWu d _ _ | .ldD d _ _ | .ldDCompact d _ _
  | .ldsB d _ _ | .ldsBu d _ _ | .ldsH d _ _ | .ldsHu d _ _ | .ldsW d _ _ | .ldsWu d _ _ | .ldsD d _ _ => some d
  | .sld d _ _ _ | .aadd d _ _ _ _ | .aswap d _ _ _ _ | .acas d _ _ _ _ | .aand d _ _ _ _ | .aor d _ _ _ _
  | .axor d _ _ _ _ | .amax d _ _ _ _ | .amin d _ _ _ _ | .amaxu d _ _ _ _ | .aminu d _ _ _ _ => some d
  | .tsplit d _ _ _ | .twait d _ _ _ | .tqry d _ _ | .tclaim d _ _ => some d
  | .vext d _ _ _ | .msnap _ _ _ d _ | .mstat _ _ d _ | .rndk d _ _ => some d
  | .qrd d _ _ | .qrdCompact _ d | .qstat d _ _ => some d
  | .sendr d _ _ _ _ | .node d _ _ _ | .spawn d _ _ _ | .ewt d _ _ | .echk d _ _ | .steal d _ _ | .sres d _ _ _
  | .sopen d _ _ _ => some d
  | _ => none

/-- The window registers that an instruction reads. -/
def regReads : Instr → List (BitVec 5)
  | .add _ a b _ | .sub _ a b _ | .mul _ a b _ | .mulh _ a b _ | .mulhu _ a b _ | .div _ a b _ | .divu _ a b _
  | .rem _ a b _ | .remu _ a b _ | .and _ a b _ | .or _ a b _ | .xor _ a b _ | .andn _ a b _ | .shl _ a b _
  | .shr _ a b _ | .sar _ a b _ | .ror _ a b _ | .min _ a b _ | .max _ a b _ | .minu _ a b _ | .maxu _ a b _
  | .addw _ a b _ => [a, b]
  | .clz _ a _ | .ctz _ a _ | .popc _ a _ | .bswap _ a _ | .sext _ a _ _ | .zext _ a _ _ | .mov _ a _ => [a]
  | .movCompact _ a => [a]
  | .addCompact d a | .subCompact d a | .andCompact d a | .orCompact d a | .xorCompact d a | .shlCompact d a
  | .shrCompact d a => [d, a]
  | .addi _ a _ | .andi _ a _ | .ori _ a _ | .xori _ a _ | .shli _ a _ | .shri _ a _ | .sari _ a _ | .rori _ a _ => [a]
  | .addiCompact d _ | .lis d _ _ => [d]
  | .ceq _ a b _ | .cne _ a b _ | .clt _ a b _ | .cle _ a b _ | .cltu _ a b _ | .cleu _ a b _ => [a, b]
  | .pfx _ a _ => [a]
  | .fceq _ a b _ _ | .fclt _ a b _ _ | .fcle _ a b _ _ | .fcun _ a b _ _ => [a, b]
  | .ceqi _ a _ | .cnei _ a _ | .clti _ a _ | .cltui _ a _ => [a]
  | .callr _ a | .jmpr a | .mts a _ | .chk a _ => [a]
  | .fadd _ a b _ _ | .fsub _ a b _ _ | .fmul _ a b _ _ | .fdiv _ a b _ _ | .fmin _ a b _ _ | .fmax _ a b _ _ => [a, b]
  | .ffma d a b _ _ => [a, b, d]
  | .fsqrt _ a _ _ | .fabs _ a _ _ | .fneg _ a _ _ | .fcvti _ a _ _ _ | .fcvtf _ a _ _ _ | .fcvtw _ a _ _
  | .fcvtb _ a _ _ _ | .fclass _ a _ _ => [a]
  | .ldB _ b _ | .ldBu _ b _ | .ldH _ b _ | .ldHu _ b _ | .ldW _ b _ | .ldWu _ b _ | .ldD _ b _ | .ldDCompact _ b _
  | .ldsB _ b _ | .ldsBu _ b _ | .ldsH _ b _ | .ldsHu _ b _ | .ldsW _ b _ | .ldsWu _ b _ | .ldsD _ b _ => [b]
  | .stB d b _ | .stH d b _ | .stW d b _ | .stD d b _ | .stDCompact d b _ => [d, b]
  | .sld _ a _ _ => [a]
  | .sst a b _ _ | .aadd _ a b _ _ | .aswap _ a b _ _ | .aand _ a b _ _ | .aor _ a b _ _ | .axor _ a b _ _
  | .amax _ a b _ _ | .amin _ a b _ _ | .amaxu _ a b _ _ | .aminu _ a b _ _ => [a, b]
  | .acas d a b _ _ => [d, a, b]
  | .flushr a _ | .tret a _ | .tjoin a _ | .tseal a _ | .tunseal a _ | .tclr a _ | .tqry _ a _ | .tclaim _ a _ => [a]
  | .tlend a b _ | .tgive a b _ | .tshare a b _ | .tsplit _ a b _ | .twait _ a b _ => [a, b]
  | .vbc _ a _ | .viota _ a _ | .vrnd _ a _ | .vdesc _ a _ | .vins _ a _ _ => [a]
  | .vld _ b _ | .vst _ _ b _ | .vlds _ b _ | .vsts _ b _ => [b]
  | .mma _ _ a b _ => [a, b]
  | .msnap _ _ a _ _ | .mld _ _ a _ | .mst _ _ a _ _ => [a]
  | .rndk _ a _ | .dgst a _ => [a]
  | .qbind _ a b _ => [a, b]
  | .qwr a _ _ | .qwrCompact _ a => [a]
  | .send a b _ n | .sendr _ a b _ n => a :: regsFrom b n.toNat
  | .reply b _ n => regsFrom b n.toNat
  | .hmask a _ | .hunm a _ | .cpy _ a _ | .gath _ a _ | .scat _ a _ | .coll _ a _ | .edec a _ | .gang a _
  | .bar a _ | .barCompact a | .sclose a _ | .scanc a _ | .swin a _ | .pause a _ | .pauseCompact a | .trap a _
  | .sleep a _ => [a]
  | .migr a _ => a :: regsFrom 0 8
  | .hset a b _ => [a, b]
  | .node _ a b _ => [a, b]
  | .spawn _ a b _ => a :: b :: regsFrom 0 8
  | .ewt _ a _ | .echk _ a _ | .steal _ a _ | .sres _ a _ _ => [a]
  | .sopen _ a k _ => [a, k]
  | _ => []

/-- The vector registers that an instruction reads; a VCVT to narrower lanes keeps lanes of v[d] (R145). -/
def vecReads (st : Strand) : Instr → List (BitVec 4)
  | .vadd _ a b _ | .vsub _ a b _ | .vmul _ a b _ | .vmin _ a b _ | .vmax _ a b _ | .vand _ a b _ | .vor _ a b _
  | .vxor _ a b _ | .vperm _ a b _ | .vcmpeq _ a b _ | .vcmplt _ a b _ | .vcmple _ a b _ => [a, b]
  | .vfma d a b _ | .vsel d a b _ => [a, b, d]
  | .vcmpeqPred _ _ a b _ | .vcmpltPred _ _ a b _ | .vcmplePred _ _ a b _ => [a, b]
  | .vabs _ a _ | .vneg _ a _ | .vscl _ a _ _ | .vshl _ a _ _ | .vshr _ a _ _ | .vreds _ a _ | .vredm _ a _ _
  | .vmov _ a _ | .vfmt _ a _ | .vext _ a _ _ | .vdgst a _ => [a]
  | .vcvt d a _ _ => if lanes (st.v a).desc < lanes st.vfmt then [a, d] else [a]
  | .vdesc d _ _ | .vins d _ _ _ => [d]
  | .vst _ v _ _ | .vsts v _ _ => [v]
  | _ => []

/-- The tiles that an instruction reads. -/
def tileReads : Instr → List Nat
  | .mst h f _ _ _ | .msnap h f _ _ _ => groupTiles h f
  | _ => []

/-- The window registers an instruction names, as sources or destination. -/
def regNames (i : Instr) : List (BitVec 5) :=
  (match i with
    | .sendr d _ _ _ _ => regsFrom d 5
    | _ => (regDst i).toList) ++ regReads i

/-- The guard of an instruction: format A has a guard field, the other formats have none (R11, R87). -/
def guardOf (i : Instr) : BitVec 3 :=
  let w := encodeWord i
  let guarded : List Nat := [0x00, 0x05, 0x0B, 0x0C, 0x0D, 0x0E, 0x10, 0x11, 0x12, 0x13, 0x14, 0x15, 0x17, 0x18, 0x19]
  if (encodeHalf i).isNone && guarded.contains (fMajor w).toNat then fG w else 0

/-- What issuing an instruction reads: each source register and tile, whose error of a single bit is corrected and logged,
and whose multi-bit error is logged (R53, R143). An instruction with a false guard reads none (R11). -/
def State.readSources (s : State) (st : Strand) (i : Instr) : State :=
  if !st.p (guardOf i) then s
  else
    let s := (regReads i).foldl (fun s r => if r.toNat < st.s then s.scrubX st.sk (st.w + r.toNat) else s) s
    let s := (vecReads st i).foldl (fun s v => s.scrubV st.sk v.toNat) s
    (tileReads i).foldl (fun s t => if ((s.core st.pcore).tiles.get {} t).holder = some st.sk then s.scrubTile st t else s) s

/-- Instructions that access memory, which an `.acq` or `.ar` operation in flight holds back (R203). -/
def isMemory : Instr → Bool
  | .ldB _ _ _ | .ldBu _ _ _ | .ldH _ _ _ | .ldHu _ _ _ | .ldW _ _ _ | .ldWu _ _ _ | .ldD _ _ _ | .ldDCompact _ _ _
  | .stB _ _ _ | .stH _ _ _ | .stW _ _ _ | .stD _ _ _ | .stDCompact _ _ _
  | .ldsB _ _ _ | .ldsBu _ _ _ | .ldsH _ _ _ | .ldsHu _ _ _ | .ldsW _ _ _ | .ldsWu _ _ _ | .ldsD _ _ _
  | .sld _ _ _ _ | .sst _ _ _ _ | .aadd _ _ _ _ _ | .aswap _ _ _ _ _ | .acas _ _ _ _ _ | .aand _ _ _ _ _
  | .aor _ _ _ _ _ | .axor _ _ _ _ _ | .amax _ _ _ _ _ | .amin _ _ _ _ _ | .amaxu _ _ _ _ _ | .aminu _ _ _ _ _
  | .fence _ _ _ | .flushr _ _ | .tlend _ _ _ | .tret _ _ | .tgive _ _ _ | .tsplit _ _ _ _ | .tshare _ _ _ | .tjoin _ _
  | .tqry _ _ _ | .twait _ _ _ _ | .tseal _ _ | .tunseal _ _ | .tclr _ _ | .tclaim _ _ _
  | .vld _ _ _ | .vst _ _ _ _ | .vlds _ _ _ | .vsts _ _ _
  | .mma _ _ _ _ _ | .mld _ _ _ _ | .mst _ _ _ _ _ | .msnap _ _ _ _ _
  | .cpy _ _ _ | .gath _ _ _ | .scat _ _ _ | .coll _ _ _ | .node _ _ _ _ | .echk _ _ _ | .ewt _ _ _
  | .gang _ _ | .sopen _ _ _ _ => true
  | _ => false

/-- Does a register the instruction names still wait for the reply of a sync-cell operation, or an `.acq` one hold the
instruction back, or are stores of a commit still to be performed (R185)? -/
def Strand.interlocked (st : Strand) (i : Instr) : Bool :=
  if st.commit.isSome then true
  else if st.pend.isEmpty then false
  else
    let pos := (regNames i).map fun r => st.w + r.toNat
    st.pend.any fun p =>
      (p.acq && isMemory i) || (match p.dst with
        | some x => pos.contains x
        | none => false)

/-! ### The choice of a core (R314, R328) -/

/-- Retired instructions of one quantum (R382). -/
def State.quantumLen (s : State) (scope : ScopeId) : Nat := (s.scope scope).qlenm1.toNat + 1

/-- Is a strand of a QUANTA scope at the boundary of its quantum because it has retired its instructions? -/
def State.quantumSpent (s : State) (st : Strand) : Bool :=
  s.isQuanta st.scope && (!st.inQuantum || s.quantumLen st.scope ≤ st.qpos.toNat)

/-- Effective priority: 16 behind the issue minimum, else the scope's or the activation's. -/
def State.effPrio (s : State) (st : Strand) : Nat :=
  let b := s.scope st.scope
  let n := (s.core st.pcore).issued.get 0 st.scope.toNat
  if n * 8192 < b.issmin.toNat * (s.cycle % Config.budgetPeriod) then 16
  else if st.act.isSome then st.prio.toNat else b.prio.toNat

/-- Has the scope's flit or memory cone reached its maximum here, so that the instruction waits? -/
def State.coneHeld (s : State) (st : Strand) (i : Instr) : Bool :=
  let comm : Bool := match i with
    | .qwr _ _ _ | .qwrCompact _ _ | .send _ _ _ _ | .sendr _ _ _ _ _ | .reply _ _ _ | .sld _ _ _ _ | .sst _ _ _ _
    | .aadd _ _ _ _ _ | .aswap _ _ _ _ _ | .acas _ _ _ _ _ | .aand _ _ _ _ _ | .aor _ _ _ _ _ | .axor _ _ _ _ _
    | .amax _ _ _ _ _ | .amin _ _ _ _ _ | .amaxu _ _ _ _ _ | .aminu _ _ _ _ _ | .spawn _ _ _ _ | .migr _ _
    | .cpy _ _ _ | .gath _ _ _ | .scat _ _ _ | .coll _ _ _ | .steal _ _ _ | .tqry _ _ _ => true
    -- an activation that owes a reply ends with NOREPLY
    | .endStrand _ | .endCompact | .hret _ | .hretCompact => match st.act with
      | some a => a.reply.isSome
      | none => false
    -- the status of a closed scope goes to memory
    | .sclose a _ => st.xv a != 0 && (st.answer.isSome || (match st.opens with
      | r :: _ => s.kept.any fun x => x.1 == r.num
      | [] => false))
    | _ => false
  -- the requests of tokens and a fence's wait are C packets or none
  let other : Bool := match i with
    | .fence _ _ _ | .tlend _ _ _ | .tret _ _ | .tgive _ _ _ | .tsplit _ _ _ _ | .tshare _ _ _ | .tjoin _ _ | .twait _ _ _ _
    | .tseal _ _ | .tunseal _ _ | .tclr _ _ | .tclaim _ _ _ => true
    -- without a block it sends no more than C packets
    | .sopen _ a _ _ => st.xv a == 0
    | _ => false
  (comm || (isMemory i && !other)) && s.coneFull st.cluster st.scope

/-- Has the strand's count of remote accesses reached MIGTHR (R376)? In QUANTA mode this is asked at the quantum's end. -/
def State.remoteDue (s : State) (st : Strand) : Bool :=
  let m := (s.scope st.scope).migthr
  m != 0 && m ≤ st.remoteCount && !s.isQuanta st.scope

/-- Can a strand issue now, apart from the choice of its core? One that is due to migrate waits while its cones are full: its
context is a U packet (R314). -/
def State.runnable (s : State) (st : Strand) : Bool :=
  let co := s.core st.pcore
  let b := s.scope st.scope
  s.ready st && !(s.isQuanta st.scope && (s.domains.get {} (s.domainOf st.scope).toNat).ending) && !st.dying
    && !co.stopped && !co.dead && (!b.saved || st.preempt.isSome) && !s.quantumSpent st
    && co.issued.get 0 st.scope.toNat < b.issmax.toNat && !(s.remoteDue st && st.answer.isNone && s.coneFull st.cluster st.scope)
    && (match s.fetch st.pcore st.pc with
        | .instr i _ => (!st.late.isEmpty && st.pend.isEmpty) || (!st.interlocked i && !s.coneHeld st i)
        | _ => st.pend.isEmpty)

/-- The strand a core issues from: the highest effective priority; round-robin from the slot after the last. A strand in a
PAUSE only goes when no other can (R341). -/
def State.chosen (s : State) (pcore : Nat) : Option Strand :=
  let rs := (s.strands.filter fun kv => pcoreOf kv.1 = pcore && s.runnable kv.2).map (·.2)
  -- a strand that has yielded stands back while one that it let go first is runnable at its priority
  let rs := rs.filter fun st =>
    !(rs.any fun r => st.yieldTo.contains r.sk && r.sk != st.sk && s.effPrio r == s.effPrio st)
  let rs := if rs.any fun st => st.pauseTo == 0 then rs.filter fun st => st.pauseTo == 0 else rs
  let turn (st : Strand) : Nat := (slotOf st.sk + 15 - (s.core pcore).rr) % 16
  rs.foldl (fun best st => match best with
    | none => some st
    | some b =>
      if s.effPrio b < s.effPrio st || (s.effPrio b == s.effPrio st && turn st < turn b) then some st else some b) none

/-! ### The moves -/

/-- The core that a packet is addressed to. -/
def Pending.dest (p : Pending) : Option Nat :=
  match p.ev, p.arg with
  | .message, .msg m => some m.lcore
  | .queueWord, .queueWord l _ _ _ _ => some l
  | .creditRequest, .creditRequest l _ _ _ _ => some l
  | .stealRequest, .steal _ _ _ victim => some victim
  | .stealReply, .stolen thief _ _ (some _) => some thief
  | .migration, .ctx _ (some l) _ => some l
  | .spawnPlacement, .sentTo l _ _ _ => some l
  | .start, .ctx l _ _ | .codeStore, .code l _ _ | .handlerTableWrite, .handler l _ _ => some l
  | _, _ => none

/-- A core that has stopped and is not yet declared dead answers no packet (R378). -/
def State.unanswered (s : State) (p : Pending) : Bool :=
  match p.dest.bind s.physical with
  | some k => (s.core k).stopped && !(s.core k).dead
  | none => false

/-- The place that takes a request one by one with others, and the rank of its sender among those that arrive in one cycle:
cores by logical number, then the nodes' commands by cluster, then peer devices (R202, R212, R239, R254, R259, R260, R307). -/
def Pending.arrival (s : State) (p : Pending) : Option (Nat × Nat) :=
  -- a region's home, whatever path its word names
  let region (w : Word) (pasid : BitVec 20) : Nat :=
    8 * ((((decodeRegion w).map Region.dirWord).getD w).toNat + 2 ^ 64 * pasid.toNat) + 1
  let party (x : Party) (lcore : Nat) : Nat := match x.kind with
    | .engine => 512 + (x.id.toNat - 0x80000000)
    | .peer => 1024 + x.dev.toNat
    | _ => lcore
  match p.ev, p.arg with
  | .syncCellOperation, .syncReq r => some (8 * r.key, r.lcore)
  | .engineCommandEnd, .n2 e n => (s.cmd e n).bind fun c =>
      if c.returned then (s.rawKey c.pasid (c.blk[3]?.getD 0)).map fun k => (8 * k, 512 + e) else none
  | .tokenRequest, .tokReq _ r | .tokenQuery, .tokReq _ r => some (region r.region r.pasid, r.lcore)
  | .tokenGrant, .grant g => some (region g.region g.pasid, party g.giver g.lcore)
  | .queueWord, .queueWord l c h n _ => some (8 * (64 * l + c.toNat) + 2, s.senderCore h n)
  | .creditRequest, .creditRequest l c h n _ => some (8 * (64 * l + c.toNat) + 3, s.senderCore h n)
  | .message, .msg m => some (8 * m.lcore + 4, m.fromCore)
  | .engineCommand, .cmd c => some (8 * c.eng + 5, (c.node.map fun n => 512 + nodeCluster n).getD c.lcore)
  | .stealRequest, .steal thief _ _ victim => some (8 * victim + 6, thief)
  | .successDeclaration, .win scope _ party _ => some (8 * scope.toNat + 7, party)
  | _, _ => none

/-- A cell's next operation waits until the reply of one that has written it has left its links: a truncated reply undoes the
operation, which no other may have seen (R219, R410; log entry 62). -/
def State.cellFree (s : State) (p : Pending) : Bool :=
  match p.ev, p.arg with
  | .syncCellOperation, .syncReq r =>
    !s.agenda.any fun q => match q.arg with
      | .syncAns a => a.key == r.key && a.old != a.new
      | _ => false
  | _, _ => true

/-- Has its place taken none of higher rank in this cycle? -/
def State.inOrder (s : State) (p : Pending) : Bool :=
  match p.arrival s with
  | some (h, r) => s.served.all fun x => x.1 != h || x.2 ≤ r
  | none => true

/-- The event is taken in this cycle. -/
def State.takes (s : State) (p : Pending) : State :=
  match p.arrival s with
  | some x => { s with served := s.served ++ [x] }
  | none => s

/-- An invalidation is applied after the completions for its range that arrive in the same cycle (R350). -/
def State.afterCompletions (s : State) (p : Pending) : Bool :=
  match p.ev, p.arg with
  | .atsInvalidation, .invalidate pasid v n =>
    !(s.agenda.any fun q => q.ev == .atsCompletion && q.due ≤ s.cycle && (match q.arg with
      | .trans e => e.pasid == pasid && e.vbase < v + 2 ^ n && v < e.vbase + 2 ^ e.logSize
      | _ => false))
  | _, _ => true

/-- Is the event at place `i` of the agenda due, first of its lane, free of the operations it waits for, and in
order among the arrivals of its cycle? -/
def State.enabled (s : State) (i : Nat) : Bool :=
  match s.agenda[i]? with
  | none => false
  | some p =>
    p.due ≤ s.cycle && p.parcel == 0 && !s.unanswered p && (p.waits.all fun n => !s.outst.contains n && !s.unread n)
      && (p.lane == 0 || !((s.agenda.take i).any fun q => q.lane == p.lane)) && s.inOrder p
      && s.afterCompletions p && s.cellFree p

/-- Does the next instruction of a strand wait for a reply? -/
def State.awaitsReply (s : State) (st : Strand) : Bool :=
  !st.pend.isEmpty && (match s.fetch st.pcore st.pc with
    | .instr i _ => st.interlocked i
    | _ => true)

/-- Is a strand at the boundary of its quantum (R382)? One that waits for a reply held to the end is. -/
def State.atBoundary (s : State) (st : Strand) : Bool :=
  s.quantumSpent st || (match st.wait with
    | .none => s.awaitsReply st
    | .spill | .tile => false
    | _ => !s.ready st)

/-- Has a domain's quantum ended: every live strand at the boundary, every engine command stepped (R382)? -/
def State.quantumDue (s : State) (d : Nat) (dom : Domain) : Bool :=
  let top : ScopeId := BitVec.ofNat 24 d
  dom.started && !dom.ending
    && (s.strands.all fun kv => !s.under top kv.2.scope || s.atBoundary kv.2)
    && (s.engines.all fun e => e.2.inbox.all fun c =>
          !s.under top c.scope || !c.issued || c.inQuantum == 8 || c.code.isSome || c.paused
            || (c.op == 3 && !s.collReady c))
    && !(s.agenda.any fun p => p.ev == .quantumEnd && p.arg == .n2 d 0)

inductive Move1 where
  | event (i : Nat)
  | issue (sk : Nat)
  | quantum (d : Nat)
  | hart (h : Nat)
  deriving DecidableEq, Repr

/-- Every move of the cores and the network possible now. -/
def State.moves (s : State) : List Move1 :=
  ((List.range s.agenda.length).filter s.enabled).map .event
    ++ ((s.strands.map fun kv => pcoreOf kv.1).eraseDups.filterMap fun p => (s.chosen p).map fun st => .issue st.sk)
    ++ (s.domains.filter fun kv => s.quantumDue kv.1 kv.2).map fun kv => .quantum kv.1

/-- Cycles pass: strands that wait count them, and cores with no strand to issue (R392). -/
def State.tick (s : State) (n : Nat) : State :=
  if n = 0 then s
  else
    let wait (st : Strand) : Strand :=
      match st.wait with
      | .none | .spill | .refill => if st.pend.isEmpty then st else st.bump 0x208 n
      | .drain | .silent _ _ _ | .page _ _ _ | .ats _ _ => st.bump 0x208 n
      | _ => st.bump 0x209 n
    let idle (p : Nat) : Bool := (s.chosen p).isNone
    { s with
      cycle := s.cycle + n
      served := []
      strands := s.strands.map fun kv => (kv.1, wait kv.2)
      cores := s.cores.map fun kv => if idle kv.1 then (kv.1, { kv.2 with coreIdle := kv.2.coreIdle + BitVec.ofNat 64 n }) else kv }

/-- Events that happen in the very cycle that the manual gives them (R373, R377, R381), before anything else. -/
def isClock : Instr → Bool
  | .heartbeatSend | .heartbeat | .heartbeatWindowEnd | .budgetPeriodStart | .supplyAdjust => true
  | _ => false

/-- The clocked event that is due now. -/
def State.clockDue (s : State) : Option Nat :=
  (List.range s.agenda.length).find? fun i => s.enabled i && (match s.agenda[i]? with
    | some p => isClock p.ev
    | none => false)

/-- The cycles that may pass before the next clocked event, at most `n`. -/
def State.untilClock (s : State) (n : Nat) : Nat :=
  (s.agenda.filter fun p => isClock p.ev && s.cycle < p.due).foldl (fun m p => Nat.min m (p.due - s.cycle)) n

/-- Cycles to the next event that only time holds back: at least one. -/
def State.untilDue (s : State) : Nat :=
  if s.agenda.any fun p => p.due ≤ s.cycle && !s.inOrder p then 1
  else match ((s.agenda.map (·.due)).filter fun d => s.cycle < d).min? with
  | some d => d - s.cycle
  | none => 1

end Sys2Proof.Machine
end

