-- ==== Sys2Proof/Machine/Strands.lean ====
section
/-! DEFINITION. Major STRAND (R325 to R331): SPAWN, MIGR, STEAL, YIELD, END, GANG and BAR, with the events of steals,
barriers, automatic migration, weight and cancellation (R258, R259, R299, R302, R331, R376). -/

namespace Sys2Proof.Machine

def scopeState (sub : BitVec 8) (aux : Word) : Trap := { code := .scopeState, sub := sub, aux := aux }
def migrateDenied (aux : Word) : Trap := { code := .migrateDenied, aux := aux }

/-- Every access and transfer of the strand must have been performed; in a QUANTA scope its transfers are held anyway. -/
def performed (st : Strand) : Act Unit := do
  drained st
  let s ← get
  if s.fenceWaits st 2 && !s.isQuanta st.scope then holdFor (.fence 2) else pure ()

/-! ### SPAWN (R325) -/

/-- The child's context. -/
def State.spawnCtx (s : State) (st : Strand) (pc : BitVec 16) (w : Nat) : Ctx :=
  let top := st.memberScope
  { x := (List.range 8).map fun i => (st.x i).val
    dbits := BitVec.ofNat 8 (((List.range 8).map fun i => if (st.x i).d then 2 ^ i else 0).foldl (· + ·) 0)
    preds := st.preds &&& 0xFE, pc := pc, kind := 0, prio := (s.scope top).prio, frm := st.frm, fflags := 0
    weight := BitVec.ofNat 32 w, scope := top, origin := st.handle, vfmt := st.vfmt, mfmt := st.mfmt
    rkey0 := st.rkey0, rkey1 := st.rkey1, retired := 0, quantum := 0, qpos := 0, image := st.image }

/-- Is the scope at its limit of live strands? -/
def State.atSpawnLimit (s : State) (scope : ScopeId) : Bool :=
  let b := s.scope scope
  b.spawnlim != 0 && b.spawnlim.toNat ≤ b.live.toNat

def spawnLimit (s : State) (scope : ScopeId) : Trap :=
  { code := .spawnLimit, aux := ((s.scope scope).spawnlim).setWidth 64 }

/-- The child leaves: to the issuer's deque when that is asked for and has room, else to the Wheel or the named core. The
value for x[d]. -/
def sendChild (st : Strand) (p : Placement) (c : Ctx) : Act Word := do
  let s ← get
  let here := s.logical st.pcore
  if p = .deque ∧ (s.core st.pcore).deque.length < 32 then
    set ((s.modCore st.pcore fun co => { co with deque := co.deque ++ [c] }).send 0 .admission (.n1 st.pcore))
    pure 0
  else
    let named : Option Nat := match p with
      | .named l => some l
      | _ => none
    let arg : Payload := .ctx st.cluster named c
    let lane := laneOf 1 here (unitNode st.cluster 12)
    let waits := st.accesses.filter fun n => s.outst.contains n || s.unread n
    if s.isQuanta c.scope then
      -- the accesses of an issuer of the domain are served before; those of one outside it must have been performed
      set ((s.request c.scope here st.serial 7 lane .spawnPlacement arg (if s.isQuanta st.scope then [] else waits)).countPacket
        st.sk .spawnPlacement arg)
    else
      set ((s.push { due := s.cycle, lane := lane, route := lane, waits := waits, ev := .spawnPlacement, arg := arg }).countPacket
        st.sk .spawnPlacement arg)
    pure 1

/-- A reserved place among the live strands is given back. -/
def State.unreserve (s : State) (scope : ScopeId) : State := s.modScb scope fun b => { b with live := b.live - 1 }

/-- The child of a SPAWN whose place among the live strands is reserved. What the issuer has still to wait for gives the place
back, unless the home has answered for it: the answer stands until the SPAWN retires. -/
def spawnChild (d : BitVec 5) (pc : BitVec 17) (p : Placement) (st : Strand) : Act Next := do
  let top := st.memberScope
  let giveUp : Act Unit := if st.answer.isNone then modify fun s => s.unreserve top else pure ()
  -- a child kept on the issuer's own core may start at once: what comes before it is performed first
  let s ← get
  if p = .deque && !s.isQuanta st.scope && s.fenceWaits st 2 then
    giveUp
    holdFor (.fence 2)
  else
    match st.split with
    | none =>
      giveUp
      let _ ← splitWeight
      pure .seq
    | some (w, st') =>
      setMe st'
      let v ← sendChild st p (s.spawnCtx st (pc.setWidth 16) w)
      putX d v
      pure .seq

/-- SPAWN: a cancellation point at issue; in a QUANTA scope with a limit it waits for its reservation (R401), and one that
traps after it gives the place back (R10). -/
def spawnBody (d a b : BitVec 5) (st : Strand) : Act Next := do
  let top := st.memberScope
  match st.answer with
  | some (.trap t) => raise t
  | some .done =>
    if st.s ≤ d.toNat then
      modify fun s => s.unreserve top
      raise { code := .regUnallocated, aux := d.setWidth 64 }
    else spawnChild d ((st.xv a).setWidth 17) (((← get).placementOf st.scope (st.xv b)).getD .wheel) st
  | _ =>
    let pc ← liftT (regTarget (st.xv a))
    cancelPoint st
    liftT (st.checkUe (a :: b :: regsFrom 0 8))
    liftT (st.checkD [a, b])
    let s ← get
    match s.placementOf st.scope (st.xv b) with
    | none => raise (scopeState 6 (st.xv b))
    | some p =>
      if s.isQuanta top && (s.scope top).spawnlim != 0 then
        let n ← newNumber
        modify fun s => s.request top (s.logical st.pcore) st.serial 2 0 .quantumEnd
          (.scopeOp st.sk st.handle n top 0 st.retired)
        holdFor (.reply n)
      else if s.atSpawnLimit top then raise (spawnLimit s top)
      else
        liftT (st.checkDst d.toNat)
        modify fun s => s.modScb top fun b => { b with live := b.live + 1 }
        spawnChild d pc p st

def execSpawn (d a b : BitVec 5) (g : BitVec 3) (s : State) : Out := runAct clsCtl 4 g true (spawnBody d a b) s

/-! ### MIGR (R326) and automatic migration (R376) -/

/-- Does the strand hold an accumulator tile? -/
def State.holdsTiles (s : State) (st : Strand) : Bool := (s.core st.pcore).tiles.any fun t => t.2.holder == some st.sk

/-- Why a strand may not migrate to a core (R324); of several causes the lowest: DESIGN CHOICE (R326; log entry 70). -/
def State.migrationBar (s : State) (st : Strand) (l : Nat) : Option Nat :=
  if s.holdsTiles st then some 1
  else if !st.queues.isEmpty then some 2
  else if st.saggar then some 4
  else if 8 < st.s then some 5
  else if !st.links.isEmpty ∨ st.linkSpilled ≠ 0 ∨ !st.opens.isEmpty then some 6
  else if !s.ofLaunch st.scope l then some 7
  else none

/-- The context leaves (R218): dirty lines of its regions written back; the slot issues nothing until the answer. In a
QUANTA scope the context has taken part in this quantum (R382). -/
def State.sendContext (s : State) (st : Strand) (pc : BitVec 17) (counted auto : Bool) (l : Nat) : State :=
  let quanta := s.isQuanta st.scope
  let c := st.context 1 pc
  let c := if counted then { c with retired := c.retired + 1 } else c
  let c := if quanta then { c with quantum := c.quantum + 1, qpos := 0 } else c
  let n := s.fresh
  let s := { s with fresh := s.fresh + 1 }
  let s := s.flushOwned st
  let s := s.requestOf st 7 (laneOf 1 (s.logical st.pcore) l) .migration (.ctx n (some l) c)
  s.modStrand st.sk fun st => { st with wait := .migrating n auto }

/-- The core that a target word names. -/
def migrTarget (w : Word) : Option Nat :=
  if w.extractLsb' 9 55 = 0 then some (w.extractLsb' 0 9).toNat
  else if w.extractLsb' 50 14 = 3 then some (w.extractLsb' 23 9).toNat
  else none

def migrBody (a : BitVec 5) (st : Strand) : Act Next := do
  match st.answer with
  | some (.refused cause) => raise (if cause = 3 then { code := .deadPeer } else migrateDenied 3)
  | some (.trap t) => raise t
  | _ =>
    liftT (st.sources [a])
    match migrTarget (st.xv a) with
    | none => raise (scopeState 6 (st.xv a))
    | some l =>
      let s ← get
      if l = s.logical st.pcore then pure .seq
      else
        liftT (st.checkUe (regsFrom 0 8))
        match s.migrationBar st l with
        | some n => raise (migrateDenied (BitVec.ofNat 64 n))
        | none =>
          if s.isRetired l then raise { code := .deadPeer }
          else
            performed st
            modify fun s => s.sendContext st (st.pc + 4) true false l
            pure .gone

def execMigr (a : BitVec 5) (g : BitVec 3) (s : State) : Out := runAct clsCtl 4 g true (migrBody a) s

/-- Where an automatic migration goes: the vault's core, or the choice of the Wheel of the home's cluster. -/
def State.autoTarget (s : State) (st : Strand) : State × Option Nat :=
  let h := st.remoteHome.toNat
  if h < 512 then (s, some h)
  else
    let cl := h - 512
    match s.wheelChoice (s.wheelCores st.scope cl) with
    | none => (s, none)
    | some l =>
      let (s, v) := s.polled st.scope 10 (wheelSite cl) (BitVec.ofNat 32 l)
      (s, some v.toNat)

/-- The strand's count has reached MIGTHR at an instruction boundary: it migrates where MIGR would be allowed, else its
count is 0 again. It has no access in flight (R218), and waits while its cones are full (R314). -/
def State.autoMigrate (s : State) (sk : Nat) : State :=
  match s.strand sk with
  | none => s
  | some st =>
    let zero (s : State) : State := s.modStrand sk fun st => { st with remoteCount := 0 }
    if s.coneFull st.cluster st.scope then s
    else if !st.pend.isEmpty then s.setStrand { st with wait := .drain }
    else if s.fenceWaits st 2 && !s.isQuanta st.scope then s.setStrand { st with wait := .fence 2 }
    else
      -- its context reads x0 to x7 (R53)
      let s := (List.range (Nat.min 8 st.s)).foldl (fun s i => s.scrubX sk (st.w + i)) s
      let st := (s.strand sk).getD st
      match s.autoTarget st with
      | (s, none) => zero s
      | (s, some l) =>
        -- a context cannot carry a register that cannot be read (R53; log entry 51)
        if l = s.logical st.pcore ∨ (s.migrationBar st l).isSome ∨ s.isRetired l ∨ !(st.checkUe (regsFrom 0 8)).isOk then zero s
        else
          let s := s.commitIdem st
          let st := (s.strand sk).getD st
          if st.pend.isEmpty then (zero s).sendContext { st with remoteCount := 0 } st.pc false true l
          else s.setStrand { st with wait := .drain }

/-- AUTO_MIGRATION. -/
def execAutoMigration (s : State) : Out :=
  match s.arg with
  | .strand sk h _ => if (s.waiter sk h).isSome then .next (s.autoMigrate sk) else .next s
  | _ => .next s

/-! ### STEAL (R258, R259, R327) -/

def stealBody (d a : BitVec 5) (st : Strand) : Act Next := do
  match st.answer with
  | some (.value v) =>
    putX d v
    pure .seq
  | some (.refused _) => raise { code := .deadPeer }
  | _ =>
    liftT (st.sources [a])
    let w := st.xv a
    let l := (w.extractLsb' 0 9).toNat
    let s ← get
    let here := s.logical st.pcore
    if w.extractLsb' 9 55 ≠ 0 then raise (scopeState 6 w)
    else if s.isRetired l || !s.samePart st.cluster (l / 16) then raise { code := .deadPeer }
    else
      liftT (st.checkDst d.toNat)
      if l = here then
        putX d 0
        pure .seq
      else
        let n ← newNumber
        modify fun s => s.requestOf st 2 (laneOf 1 here l) .stealRequest (.steal here st.handle n l)
        holdFor (.reply n)

def execSteal (d a : BitVec 5) (g : BitVec 3) (s : State) : Out := runAct clsCtl 4 g true (stealBody d a) s

/-- The site of a victim's deque in the order log (R387). -/
def stealSite (victim : Nat) : Word := BitVec.ofNat 64 (64 * victim)

/-- Does the log of a REPLAY scope name the thief as a winner at this site, next or later? -/
def State.winnerLogged (s : State) (scope : ScopeId) (site : Word) (choice : BitVec 32) : Option Nat :=
  let n := s.ltime scope 2 site
  (List.range (s.scope scope).loglen.toNat).find? fun i => (s.logged scope 2 site (n + i)).map (·.2) == some choice

/-- Has the victim served another steal in this cycle (R259)? -/
def State.stolen (s : State) (victim : Nat) : Bool := 1 < (s.served.filter fun x => x.1 = 8 * victim + 6).length

/-- Does the owner take this last strand of its deque in this cycle (R259)? -/
def State.ownerTakes (s : State) (p : Nat) (c : Ctx) : Bool :=
  let co := s.core p
  co.deque.length == 1 && co.arrival.isEmpty && !co.stopped && (s.freeSlot p).isSome && (s.pickFrom p none [c] 0).isSome
    && s.agenda.any fun q => q.ev == .admission && q.arg == .n1 p && q.due ≤ s.cycle

/-- The victim serves a steal: the first strand of the thief's tenant from the top of its deque. A victim that is dead, and not
yet served by its spare, is refused with cause DEAD (R407). -/
def State.stealAt (s : State) (thief : Nat) (st : Strand) (n victim : Nat) : State :=
  let scope := st.scope
  let site := stealSite victim
  let choice := partyChoice thief st.retired
  let answer (s : State) (c : Option Ctx) : State :=
    s.deliver scope (laneOf 1 victim thief) .stealReply (.stolen thief st.handle n c)
  let again (s : State) : State := s.after 1 .stealRequest (.steal thief st.handle n victim)
  let found : Option (Nat × Ctx) := (s.physical victim).bind fun p =>
    ((s.core p).deque.find? fun c => (s.scope c.scope).tenant == (s.scope scope).tenant).map fun c => (p, c)
  let take (s : State) (p : Nat) (c : Ctx) : State :=
    answer ((s.modCore p fun co => { co with deque := co.deque.erase c }).workLeaves (clusterOf p)) (some c)
  if (s.physical victim).isNone then
    s.deliver scope (laneOf 1 victim thief) .refusal (.answer (handleSk st.handle) st.handle n (.refused 3))
  else if s.dmode scope = 2 then
    match s.winnerLogged scope site choice, found with
    | none, _ => answer s none
    | some (_ + 1), _ => s.waitsTurn scope 2 site choice again
    | some 0, none => s.waitsTurn scope 2 site choice again
    | some 0, some (p, c) =>
      if s.stolen victim || s.ownerTakes p c then again s
      else take ((s.bumpLtime scope 2 site).turnCame scope 2 site choice) p c
  else
    match found with
    | none => answer s none
    | some (p, c) =>
      if !s.isQuanta scope && (s.stolen victim || s.ownerTakes p c) then answer s none
      else
      let s := if s.dmode scope = 1 then s.logChoice scope 2 0 site choice else s
      take s p c

/-- STEAL_REQUEST. -/
def execStealRequest (s : State) : Out :=
  match s.arg with
  | .steal thief h n victim =>
    match s.named h with
    | none => .next s
    | some st => .next ((s.wakeFirst victim).stealAt thief st n victim)
  | _ => .next s

/-- STEAL_REPLY: the context goes to the arrival queue of the thief's core; x[d] says whether it came. -/
def execStealReply (s : State) : Out :=
  match s.arg with
  | .stolen thief h n c =>
    let s := match c with
      | some c => s.placeOn thief (thief / 16) (some thief) c
      | none => s
    .next (s.reply (handleSk h) h n (.value (if c.isSome then 1 else 0)))
  | _ => .next s

/-! ### YIELD (R328) -/

/-- The strand stands back until the other runnable strands of its effective priority have issued once. -/
def yieldBody (st : Strand) : Act Next := do
  let s ← get
  let others := (s.strands.filter fun kv =>
    pcoreOf kv.1 == st.pcore && kv.1 != st.sk && s.runnable kv.2 && s.effPrio kv.2 == s.effPrio st).map (·.1)
  setMe { st with yieldTo := others }
  pure .seq

def execYield (g : BitVec 3) (s : State) : Out := runAct clsCtl 4 g true yieldBody s
def execYieldCompact (s : State) : Out := runAct clsCtl 2 0 true yieldBody s

/-! ### END (R329) -/

def execEndStrand (g : BitVec 3) (s : State) : Out := runAct clsCtl 4 g true endBody s
def execEndCompact (s : State) : Out := runAct clsCtl 2 0 true endBody s

/-! ### GANG (R330) -/

/-- The launch that a block describes, or its malformed word. -/
def State.gangLoad (s : State) (st : Strand) (blk : List Word) (w : Nat) : Except Word LoadReq :=
  let cores := blk[1]?.getD 0
  let ctl := blk[2]?.getD 0
  let first := (cores.extractLsb' 0 9).toNat
  let n := (cores.extractLsb' 9 10).toNat
  if cores.extractLsb' 19 45 ≠ 0 ∨ n = 0 ∨ 512 < n ∨ 512 < first + n then .error cores
  else if ctl.extractLsb' 8 56 ≠ 0 then .error ctl
  else .ok
    { image := blk[0]?.getD 0, first := first, count := n, entry := (ctl.extractLsb' 0 8).toNat, args := blk.drop 4
      compl := blk[3]?.getD 0, scope := st.memberScope, member := true, weight := BitVec.ofNat 32 w
      pasid := s.pasidOf st.scope, tenant := (s.scope st.scope).tenant, sk := st.sk, issuer := st.handle }

/-- GANG: the loader accepts every launch (log entry 16). -/
def gangBody (a : BitVec 5) (st : Strand) : Act Next := do
  liftT (st.sources [a])
  let blk ← readBlock (st.xv a)
  match (← get).gangLoad st blk 0 with
  | .error w => raise (scopeState 6 w)
  | .ok r =>
    let _ ← cellPlace true r.compl
    weightReady
    if !(← get).isQuanta r.scope then clearWord r.compl
    let w ← splitWeight
    modify fun s => s.requestFor st r.scope 2 0 .imageLoad (.load { r with weight := BitVec.ofNat 32 w })
    pure .seq

def execGang (a : BitVec 5) (g : BitVec 3) (s : State) : Out := runAct clsCtl 4 g true (gangBody a) s

/-! ### BAR (R331, R406) -/

/-- The death of a member that a rank has still to report; it is then reported. -/
def State.deathFor (s : State) (st : Strand) : Option (Nat × State) :=
  match s.gangs.find st.gang.toNat with
  | none => none
  | some ga =>
    let r := st.rank.toNat
    (ga.dead.find? fun d => d.2.contains r).map fun d =>
      let upd (x : Nat × List Nat) : Nat × List Nat := if x.1 = d.1 then (x.1, x.2.filter (· != r)) else x
      let ga : Gang := { ga with dead := ga.dead.map upd }
      (d.1, { s with gangs := s.gangs.insert st.gang.toNat ga })

/-- The generation of a rank's BAR. -/
def Gang.genOf (ga : Gang) (r : BitVec 16) : Nat := ga.gens.get 0 r.toNat

/-- A rank's BAR has retired: its next one is of the next generation. -/
def State.barDone (s : State) (st : Strand) : State :=
  match s.gangs.find st.gang.toNat with
  | none => s
  | some ga =>
    let ga : Gang := { ga with gens := ga.gens.insert st.rank.toNat (ga.genOf st.rank + 1) }
    { s with gangs := s.gangs.insert st.gang.toNat ga }

def barBody (a : BitVec 5) (st : Strand) : Act Next := do
  match st.answer with
  | some .done =>
    modify fun s => (s.barDone st).modStrand st.sk fun st => { st with barWait := none }
    pure .seq
  | some (.trap t) =>
    modify fun s => s.modStrand st.sk fun st => { st with barWait := none }
    raise t
  | _ =>
    if (← get).observes st then modify fun s => (s.withdraw st).modStrand st.sk fun st => { st with barWait := none }
    cancelPoint st
    liftT (st.sources [a])
    let s ← get
    let time := (st.xv a).toNat
    if time ≠ 0 ∧ s.isQuanta st.scope then raise { code := .determinism }
    else if st.nrank = 1 then pure .seq
    else
      match s.deathFor st with
      | some (l, s) =>
        set (s.withdraw st)
        raise { code := .deadPeer, aux := BitVec.ofNat 64 l }
      | none =>
        performed st
        let n ← newNumber
        modify fun s =>
          let s := s.modStrand st.sk fun st => { st with barWait := some n }
          let s := s.requestOf st 2 (laneOf 0 (s.logical st.pcore) (barrierNode st.scope)) .barrierArrival
            (.strand st.sk st.handle n)
          if time = 0 then s else s.after time .barTimeout (.strand st.sk st.handle n)
        holdFor (.point n)

def execBar (a : BitVec 5) (g : BitVec 3) (s : State) : Out := runAct clsCtl 4 g true (barBody a) s
def execBarCompact (a : BitVec 5) (s : State) : Out := runAct clsCtl 2 0 true (barBody a) s

/-- BARRIER_ARRIVAL: a rank is counted in its generation; the last one releases the barrier. A BAR executed again after a
fault, whose generation has completed in the meantime, is released at once (R406). -/
def State.barrierArrives (s : State) (st : Strand) : State :=
  let g := st.gang.toNat
  match s.gangs.find g with
  | none => s
  | some ga =>
    let r := st.rank.toNat
    let add (l : List Nat) : List Nat := if l.contains r then l else l ++ [r]
    let gen := ga.genOf st.rank
    if gen < ga.gen then
      s.deliver st.scope (laneOf 0 (barrierNode ga.scope) (s.logical st.pcore)) .barrierRelease (.strand st.sk st.handle gen)
    else
      let ga : Gang := if gen = ga.gen then { ga with arrived := add ga.arrived } else { ga with ahead := add ga.ahead }
      ({ s with gangs := s.gangs.insert g ga }).barrierCheck g

def execBarrierArrival (s : State) : Out :=
  match s.arg with
  | .strand sk h n =>
    match s.waiter sk h with
    | none => .next s
    | some st => if st.barWait = some n then .next (s.barrierArrives st) else .next s
  | _ => .next s

/-- BARRIER_RELEASE: the waiting BAR of that generation retires. -/
def execBarrierRelease (s : State) : Out :=
  match s.arg with
  | .strand sk h gen =>
    match s.waiter sk h with
    | none => .next s
    | some st =>
      match st.barWait with
      | some n =>
        if (s.gangs.find st.gang.toNat).map (·.genOf st.rank) = some gen then .next ((s.reply sk h n .done).bankStates st.pcore) else .next s
      | none => .next s
  | _ => .next s

/-- BAR_TIMEOUT: the arrival is withdrawn; sw.trapaux counts the other members that had not arrived. -/
def State.barTimesOut (s : State) (st : Strand) (n : Nat) : State :=
  match s.gangs.find st.gang.toNat with
  | none => s
  | some ga =>
    let gen := ga.genOf st.rank
    let came := if gen ≤ ga.gen then ga.arrived else ga.ahead
    let missing := if gen < ga.gen then 0 else (ga.members.filter fun m => m.1 != st.rank.toNat && !came.contains m.1).length
    (s.withdraw st).reply st.sk st.handle n (.trap { code := .deadPeer, sub := 1, aux := BitVec.ofNat 64 missing }) |>.bankStates st.pcore

def execBarTimeout (s : State) : Out :=
  match s.arg with
  | .strand sk h n =>
    match s.waiter sk h with
    | none => .next s
    | some st =>
      if st.barWait = some n ∧ st.wait = .point n then .next (s.barTimesOut st n) else .next s
  | _ => .next s

/-! ### Members that are lost -/

/-- The stocks of a dead opener return LOST, innermost first; its scopes drain (R297). -/
def State.drainOpens (s : State) (st : Strand) : State :=
  st.opens.foldl (fun s r =>
    if r.returned then s
    else (s.modScb r.scope fun b => { b with state := .draining }).returnWeight r.scope (s.logical st.pcore) st.serial r.stock true false) s

/-! ### Weight (R299) -/

/-- WEIGHT_RETURN. -/
def execWeightReturn (s : State) : Out :=
  match s.arg with
  | .weight scope w lost live => .next (s.homeReturn scope w lost live)
  | _ => .next s

/-- REFILL_REQUEST: the home issues 2^16 units more. -/
def State.refillAt (s : State) (scope : ScopeId) (sk : Nat) (h : Handle) : State :=
  let s := s.modScb scope fun b => { b with outw := b.outw + Config.refillWeight, issued := b.issued + Config.refillWeight }
  s.deliver scope (laneOf 0 (homeNode scope) (s.handleCore h)) .refillReply (.strand sk h scope.toNat)

def execRefillRequest (s : State) : Out :=
  match s.arg with
  | .strand sk h n => .next (s.refillAt (BitVec.ofNat 24 n) sk h)
  | _ => .next s

/-- REFILL_REPLY: the waiting creator goes on; where it has gone, the weight returns. -/
def execRefillReply (s : State) : Out :=
  match s.arg with
  | .strand sk h n =>
    let scope : ScopeId := BitVec.ofNat 24 n
    match (s.waiter sk h).bind (·.addWeight scope Config.refillWeight) with
    | some st => .next (s.setStrand (if st.wait = .refill then { st with wait := .none } else st))
    | none => .next (s.returnWeight scope (s.handleCore h) 0 Config.refillWeight false false)
  | _ => .next s

/-! ### Cancellation (R302, R303) -/

/-- Does the strand's wait observe cancellation? -/
def Strand.waitObserves (st : Strand) : Bool :=
  match st.wait with
  | .point _ | .queueIn _ | .word _ _ => true
  | _ => false

/-- The flag reaches the scope unit of a cluster, and with it the cores there: the waits that observe it end, and members
that have not started are discarded. -/
def State.flagArrives (s : State) (scope : ScopeId) (cluster : Nat) : State :=
  let cores := (List.range 17).map (17 * cluster + ·)
  let s := cores.foldl (fun (s : State) p =>
    s.modCore p fun c => if c.cancels.contains scope then c else { c with cancels := scope :: c.cancels }) s
  let s := s.strands.foldl (fun (s : State) kv =>
    let st := kv.2
    if st.cluster = cluster ∧ st.scope = scope ∧ !st.dying ∧ st.waitObserves ∧ s.observes st then
      (s.setStrand { st with wait := .none, answer := none }).bankStates st.pcore
    else s) s
  cores.foldl (fun (s : State) p =>
    let c := s.core p
    if c.arrival.isEmpty && c.overflow.isEmpty && c.deque.isEmpty then s else s.send 0 .admission (.n1 p)) s

/-- CANCEL_PACKET. -/
def execCancelPacket (s : State) : Out :=
  match s.arg with
  | .scopeAt scope p => if (s.scope scope).cancelled then .next (s.flagArrives scope (clusterOf p)) else .next s
  | _ => .next s

/-- SUCCESS_DECLARATION (R307, R386). -/
def execSuccessDeclaration (s : State) : Out :=
  match s.arg with
  | .win scope w party retired =>
    .next (s.ordered scope 6 0 0 (partyChoice party retired) (·.after 1 .successDeclaration (.win scope w party retired))
      (·.winScope scope w))
  | _ => .next s

/-- CLOSE_STATUS reaches the opener: an SCLOSE takes it, a dying strand goes on; one that is saved gets it later; the status
of a dead opener goes to no strand (R297, R304, R334). -/
def State.closeArrives (s : State) (num sk : Nat) (h : Handle) (status : BitVec 3) (res : Word) : State :=
  let has (st : Strand) : Bool := st.opens.any fun r => r.num == num
  let keep (s : State) : State :=
    if (s.kiln.saves.any fun kv => has kv.2.st) || (s.strands.any fun kv => has kv.2) then { s with kept := s.kept ++ [(num, status, res)] }
    else s
  match s.waiter sk h with
  | none => keep s
  | some st =>
    if st.wait = .closing ∧ (st.opens.head?.map (·.num)) = some num then
      if st.dying then (s.setStrand { st with opens := st.opens.drop 1, wait := .none }).dieOn sk
      else (s.setStrand { st with wait := .none, answer := some (.close status res) }).bankStates st.pcore
    else keep s

def execCloseStatus (s : State) : Out :=
  match s.arg with
  | .close _ num sk h status res => .next (s.closeArrives num sk h status res)
  | _ => .next s

end Sys2Proof.Machine
end

