-- ==== Sys2Proof/Machine/ScopeOps.lean ====
section
/-! DEFINITION. Major SCOPE (R333 to R340): SOPEN, SCLOSE, SCANC, SWIN, SHLD, SUNSH, CPT, SRES, and a scope's requests that a
quantum's end serves (R401, R409). -/

namespace Sys2Proof.Machine

/-! ### The operand block of SOPEN (R295, R333) -/

def sopenMask (blk : List Word) (i : Nat) : Bool := (blk[0]?.getD 0).getLsbD i

/-- The first malformed word of a block: one with a reserved bit set, among MASK, the last word and the words that MASK
selects, or with a value outside its table (R324, R333). Which comes first of several is the model's: DESIGN CHOICE (log
entry 70). -/
def sopenBad (blk : List Word) : Option Word :=
  let w (i : Nat) : Word := blk[i]?.getD 0
  let m := sopenMask blk
  let bad1 : Bool := (m 1 || m 3 || m 4 || m 5 || m 6 || m 7 || m 8) && ((w 1).getLsbD 49 || (w 1).getLsbD 9)
    || m 3 && ((w 1).extractLsb' 52 12).toNat < 15
    || m 4 && (((w 1).extractLsb' 42 7).toNat == 0 || 64 < ((w 1).extractLsb' 42 7).toNat)
    || m 8 && 256 < ((w 1).extractLsb' 0 9).toNat
  if (w 0).extractLsb' 18 46 ≠ 0 then some (w 0)
  else if w 7 ≠ 0 then some (w 7)
  else if bad1 then some (w 1)
  else if m 10 && 8192 < ((w 3).extractLsb' 48 16).toNat then some (w 3)
  else if m 12 && (w 4).extractLsb' 0 32 != 0 then some (w 4)
  else if (m 14 || m 15) && (w 5).extractLsb' 0 6 != 0 then some (w 5)
  else if (m 0 || m 2 || m 16 || m 17) && (w 6).extractLsb' 9 55 != 0 then some (w 6)
  else if m 16 && 2#2 ≤ (w 6).extractLsb' 6 2 then some (w 6)
  else none

/-- The child with the fields that the block overrides. -/
def Scb.overridden (b : Scb) (blk : List Word) : Scb :=
  let w (i : Nat) : Word := blk[i]?.getD 0
  let m := sopenMask blk
  { b with
    prio := if m 0 then (w 6).extractLsb' 0 4 else b.prio
    tier := if m 1 then (w 1).extractLsb' 50 2 else b.tier
    dmode := if m 2 then (w 6).extractLsb' 4 2 else b.dmode
    qlenm1 := if m 3 then (w 1).extractLsb' 52 12 else b.qlenm1
    arrdepth := if m 4 then (w 1).extractLsb' 42 7 else b.arrdepth
    corelim := if m 5 then (w 1).extractLsb' 38 4 else b.corelim
    spawnlim := if m 6 then (w 1).extractLsb' 22 16 else b.spawnlim
    migthr := if m 7 then (w 1).extractLsb' 10 12 else b.migthr
    declreg := if m 8 then (if (w 1).extractLsb' 0 9 < 64#9 then 64 else (w 1).extractLsb' 0 9) else b.declreg
    deadline := if m 9 then w 2 else b.deadline
    issmin := if m 10 then (w 3).extractLsb' 48 16 else b.issmin
    issmax := if m 10 then (w 3).extractLsb' 32 16 else b.issmax
    fltmin := if m 11 then (w 3).extractLsb' 16 16 else b.fltmin
    fltmax := if m 11 then (w 3).extractLsb' 0 16 else b.fltmax
    memmin := if m 12 then (w 4).extractLsb' 48 16 else b.memmin
    memmax := if m 12 then (w 4).extractLsb' 32 16 else b.memmax
    fdom := if m 13 then b.id else b.fdom
    trappc := if m 14 then (w 5).extractLsb' 24 16 else b.trappc
    trapv := if m 14 then (w 5).getLsbD 7 else b.trapv
    cancpc := if m 15 then (w 5).extractLsb' 8 16 else b.cancpc
    cancv := if m 15 then (w 5).getLsbD 6 else b.cancv
    shield := if m 16 then (w 6).extractLsb' 6 2 else b.shield
    sys := if m 17 then (w 6).getLsbD 8 else b.sys }

/-- Does a child stay within its parent's limits? `sysOk`: its opener may set SYS. -/
def Scb.within (b p : Scb) (blk : List Word) (sysOk : Bool) : Bool :=
  (!sopenMask blk 17 || sysOk) && b.prio ≤ p.prio && p.tier ≤ b.tier && (b.dmode == p.dmode || p.dmode == 0)
    && b.issmin ≤ p.issmin && b.fltmin ≤ p.fltmin && b.memmin ≤ p.memmin && b.issmax ≤ p.issmax && b.fltmax ≤ p.fltmax
    && b.memmax ≤ p.memmax

/-- A new scope below a parent, before any override: what it does not copy has its reset value (R295, R297). -/
def Scb.child (p : Scb) (id : ScopeId) (opener : Handle) (openerSk : Nat) : Scb :=
  { p with
    parent := p.id, id := id, state := .isOpen, saved := false, faulted := false, damaged := false, won := false, result := 0
    outw := Config.scopeWeight, issued := Config.scopeWeight, pweight := 0, live := 0, opener := opener, openerSk := openerSk
    opw := 0, ops := 0, opk := 0, logpos := 0, capped := none }

/-- The child that a block describes, or the subcode of SCOPE_STATE. An empty block overrides nothing. -/
def openedScb (p : Scb) (id : ScopeId) (opener : Handle) (sk : Nat) (blk : List Word) (sysOk : Bool) : Except (BitVec 8) Scb :=
  let b := p.child id opener sk
  if blk.isEmpty then .ok b
  else if (sopenBad blk).isSome then .error 6
  else
    let b := b.overridden blk
    if b.within p blk sysOk then .ok b else .error 4

/-! ### SOPEN (R333) -/

/-- The scope begins: its block, and a quantum domain where it is the highest QUANTA scope (R382). -/
def State.beginScope (s : State) (b : Scb) : State :=
  let s := s.setScb b
  if b.dmode = 3 ∧ !s.isQuanta b.parent then { s with domains := s.domains.insert b.id.toNat {} } else s

/-- The strand's side of an opened scope: PWEIGHT, the window, the record, x[d]. -/
def State.openOn (s : State) (st : Strand) (b : Scb) (pw k : Nat) : State :=
  let n := s.fresh
  let b := { b with pweight := pw, num := n, opw := BitVec.ofNat 10 st.w, ops := BitVec.ofNat 6 st.s, opk := BitVec.ofNat 6 k }
  let r : OpenRec := { scope := b.id, num := n, w := st.w, s := st.s, k := k, stock := Config.scopeWeight }
  let s := ({ s with fresh := n + 1 }).beginScope b
  match s.roomFor st { w := st.w, s := st.s + k } with
  | .ready st' =>
    let st' := st'.move { w := st.w, s := st.s + k }
    (s.setStrand { st' with opens := r :: st'.opens }).bankStates st.pcore
  | _ => s

/-- The identifier: the lowest free one of the opener's cluster; in a QUANTA scope the home gives it at the quantum's end
(R401). -/
def newScopeId (st : Strand) : Act ScopeId := do
  let s ← get
  match st.answer with
  | some (.trap t) => raise t
  | some (.value v) => pure (v.setWidth 24)
  | _ =>
    if s.isQuanta st.memberScope then
      let n ← newNumber
      modify fun s => s.request st.memberScope (s.logical st.pcore) st.serial 2 0 .quantumEnd
        (.scopeOp st.sk st.handle n st.memberScope 1 st.retired)
      holdFor (.reply n)
    else
      match s.freeScope st.cluster with
      | none => raise { code := .spawnLimit, aux := some 0 }
      | some id => pure id

/-- Waits for what the move of the window needs, and changes nothing else. -/
def roomReady (st : Strand) (m : Move) : Act Unit := do
  liftT (st.checkMove m)
  let s ← get
  match s.roomFor st m with
  | .ready _ => pure ()
  | r =>
    modify fun s => s.startRoom st r
    holdFor .spill

/-- An SOPEN that stops after its home has given it an identifier gives that back (R10). -/
def State.unserve (s : State) (st : Strand) : State :=
  match st.answer with
  | some (.value v) => s.forgetScope (v.setWidth 24)
  | _ => s

/-- SOPEN, before it is known whether it stops. -/
def sopenTry (d a k : BitVec 5) (st : Strand) : Act Next := do
  liftT (st.sources [a])
  let n := k.toNat
  if 32 < st.s + n then raise { code := .regUnallocated, aux := BitVec.ofNat 64 (st.s + n) }
  else if st.s + n ≤ d.toNat then raise { code := .regUnallocated, aux := d.setWidth 64 }
  else if 16 ≤ st.opens.length then raise (scopeState 3 (st.memberScope.setWidth 64))
  else
    roomReady st { w := st.w, s := st.s + n }
    let blk ← if st.xv a = 0 then pure ([] : List Word) else readBlock (st.xv a)
    let s ← get
    let p := s.scope st.memberScope
    match openedScb p 0 st.handle st.sk blk (s.isSys st.scope) with
    | .error 6 => raise (scopeState 6 ((sopenBad blk).getD 0))
    | .error sub => raise (scopeState sub (p.id.setWidth 64))
    | .ok _ =>
      let id ← newScopeId st
      let pw ← splitWeight
      let s ← get
      let st ← me
      match openedScb (s.scope st.memberScope) id st.handle st.sk blk (s.isSys st.scope) with
      | .error sub => raise (scopeState sub (p.id.setWidth 64))
      | .ok b =>
        set (s.openOn st b pw n)
        putX d (id.setWidth 64)
        pure .seq

def sopenBody (d a k : BitVec 5) (st : Strand) : Act Next := do
  let s ← get
  match (sopenTry d a k st).go s with
  | (.ok n, s) =>
    set s
    pure n
  | (.error e, s) =>
    set (match e with
      | .trap _ | .page _ _ _ => s.unserve st
      | _ => s)
    throw e

def execSopen (d a k : BitVec 5) (g : BitVec 3) (s : State) : Out := runAct clsCtl 4 g true (sopenBody d a k) s

/-! ### SCLOSE (R297, R334) -/

/-- One write of the result pair, as by SST.rel; one that would fault is counted instead. -/
def writeResult (va v : Word) : Act Unit := do
  let st ← me
  let s ← get
  match s.place (s.who st) (.cell true) va with
  | .ok _ => issueCell 1 2 va v none
  | .error _ => modify fun s => s.countDropped st.cluster

/-- In a QUANTA scope the pair's `.rel` writes leave once the first reads of earlier engine commands are performed (R203). -/
def pairReady (pair : Word) (st : Strand) : Act Unit := do
  let s ← get
  if pair ≠ 0 && s.isQuanta st.scope && st.cmds.any s.unread then holdFor (.fence 2)

/-- The close has come: the window and the record go back, the pair is written, and cancellation is observed after the
SCLOSE has retired. -/
def closed (a : BitVec 5) (status : BitVec 3) (res : Word) (st : Strand) (r : OpenRec) : Act Next := do
  let pair := st.xv a
  setMe { (st.move { w := st.w, s := r.s }) with opens := st.opens.drop 1 }
  modify fun s => s.bankStates st.pcore
  if pair ≠ 0 then
    writeResult (pair + 8) res
    writeResult pair (1#1 ++ (status.setWidth 15) ++ 0#48)
  let st ← me
  let s := (← get).retire st (st.pc + 4) clsCtl
  match s.strand st.sk with
  | none => pure .gone
  | some st =>
    if s.observes st then
      let s := if s.dmode st.scope = 1 then s.logChoice st.scope 7 0 (s.cancelSite st) (st.retired.setWidth 32) else s
      set (s.takeTrap st.sk { code := .cancel, aux := st.scope.setWidth 64 } (st.pc.setWidth 64))
    else set s
    pure .gone

def scloseBody (a : BitVec 5) (st : Strand) : Act Next := do
  liftT (st.sources [a])
  match st.opens with
  | [] => raise { code := .scopeState, sub := 2 }
  | r :: _ =>
    match st.answer with
    | some (.close status res) =>
      pairReady (st.xv a) st
      closed a status res st r
    | _ =>
      if st.w ≠ r.w ∨ st.s ≠ r.s + r.k then raise (scopeState 1 (r.scope.setWidth 64))
      else
        let pair := st.xv a
        -- an SCLOSE that is executed again after a restore has been checked: the write is counted if it would fault now
        if pair ≠ 0 ∧ !r.returned then
          let s ← get
          let _ ← placeOf (s.who st) (.cell true) pair
          let _ ← placeOf (s.who st) (.cell true) (pair + 8)
        let s ← get
        match s.kept.find? fun x => x.1 = r.num with
        | some (num, status, res) =>
          pairReady pair st
          set { s with kept := s.kept.filter fun x => x.1 != num }
          closed a status res st r
        | none =>
          set (s.returnStock st false)
          holdFor .closing

def execSclose (a : BitVec 5) (g : BitVec 3) (s : State) : Out := runAct clsCtl 4 g true (scloseBody a) s

/-! ### SCANC, SRES (R336, R340) -/

/-- The scope that a word names for a strand; the tenant root needs privilege. -/
def State.nameScope (s : State) (st : Strand) (w : Word) : Except Trap ScopeId :=
  let id : ScopeId := if w = 0 then st.scope else w.setWidth 24
  if w.extractLsb' 24 40 ≠ 0 then .error (scopeState 6 w)
  else if !((s.ancestors st.scope).contains id) && !(st.opens.any fun r => r.scope == id) then
    .error (scopeState 7 (id.setWidth 64))
  else if (s.scope id).parent = 0 ∧ !s.isSys st.scope then .error { code := .priv }
  else .ok id

/-- The state of a scope as SRES.f reads it: dw0[15:0] of its block (R294). -/
def Scb.flags (b : Scb) : Word :=
  let state : BitVec 2 := match b.state with
    | .unused => 0
    | .isOpen => 1
    | .draining => 2
  0#48 ++ state ++ BitVec.ofBool b.saved ++ b.shield ++ BitVec.ofBool b.sys ++ BitVec.ofBool b.faulted ++ BitVec.ofBool b.damaged
    ++ BitVec.ofBool b.won ++ BitVec.ofBool b.cancelled ++ b.dmode ++ b.prio

/-- What a home does for a request of a strand: 0 the LIVE reservation of SPAWN, 1 an identifier for SOPEN, 2 SCANC, 3 and
4 SRES. -/
def State.serveScope (s : State) (sk : Nat) (scope : ScopeId) (op : Nat) : State × Answer :=
  match op with
  | 0 =>
    match s.reserveLive scope with
    | some s => (s, .done)
    | none => (s, .trap (spawnLimit s scope))
  | 1 =>
    match s.freeScope (pcoreOf sk / 17) with
    | some id => (s.setScb ((s.scope scope).child id (handleOf sk 0) sk), .value (id.setWidth 64))
    | none => (s, .trap { code := .spawnLimit, aux := some 0 })
  | 2 => (s.cancelScope scope, .done)
  | 3 => (s, .value (s.scope scope).flags)
  | _ => (s, .value (s.scope scope).result)

/-- Asks a home: at once, or at the end of the quantum of the strand's domain or of the scope's (R340, R383). -/
def askScope (scope : ScopeId) (op : Nat) (st : Strand) : Act Answer := do
  match st.answer with
  | some a => pure a
  | none =>
    let s ← get
    if s.isQuanta scope || s.isQuanta st.scope then
      let n ← newNumber
      -- a read comes after what the quantum decides
      let l := s.logical st.pcore + (if 3 ≤ op then 512 else 0)
      modify fun s => s.request (if s.isQuanta scope then scope else st.scope) l st.serial 2 0 .quantumEnd
        (.scopeOp st.sk st.handle n scope op st.retired)
      holdFor (.reply n)
    else
      let (s, a) := s.serveScope st.sk scope op
      set s
      pure a

def scancBody (a : BitVec 5) (st : Strand) : Act Next := do
  liftT (st.sources [a])
  let id ← liftT ((← get).nameScope st (st.xv a))
  let _ ← askScope id 2 st
  pure .seq

def execScanc (a : BitVec 5) (g : BitVec 3) (s : State) : Out := runAct clsCtl 4 g true (scancBody a) s

def sresBody (d a : BitVec 5) (op : Nat) (st : Strand) : Act Next := do
  liftT (st.sources [a])
  let id ← liftT ((← get).nameScope st (st.xv a))
  liftT (st.checkDst d.toNat)
  match ← askScope id op st with
  | .value v =>
    putX d v
    pure .seq
  | _ => pure .seq

/-- SRES.f and SRES.r. -/
def execSres (d a : BitVec 5) (r : BitVec 1) (g : BitVec 3) (s : State) : Out :=
  runAct clsCtl 4 g true (sresBody d a (if r = 1 then 4 else 3)) s

/-! ### SWIN (R307, R337) -/

/-- SWIN: the strand's earlier accesses come first, and its packet keeps its place before its weight return. -/
def swinBody (a : BitVec 5) (st : Strand) : Act Next := do
  liftT (st.sources [a])
  modify fun s =>
    let here := s.logical st.pcore
    let lane := laneOf 0 here (homeNode st.scope)
    let arg : Payload := .win st.scope (st.xv a) here st.retired
    if s.isQuanta st.scope then s.requestOf st 2 lane .successDeclaration arg
    else
      let waits := st.accesses.filter fun n => s.outst.contains n || s.unread n
      (s.push { due := s.cycle, lane := lane, route := lane, waits := waits, ev := .successDeclaration, arg := arg }).countPacket st.sk
        .successDeclaration arg
  pure .seq

def execSwin (a : BitVec 5) (g : BitVec 3) (s : State) : Out := runAct clsCtl 4 g true (swinBody a) s

/-! ### SHLD, SUNSH, CPT (R305, R338, R339) -/

def shldBody (st : Strand) : Act Next := do
  if st.saggar ∨ ((← get).scope st.scope).shield = 1 then raise (scopeState 5 (st.scope.setWidth 64))
  else
    setMe { st with saggar := true }
    pure .seq

/-- SUNSH observes what is pending; an observing SUNSH has not left the saggar. -/
def sunshBody (st : Strand) : Act Next := do
  cancelPoint { st with saggar := false }
  if !st.saggar then raise (scopeState 5 (st.scope.setWidth 64))
  else
    setMe { st with saggar := false }
    pure .seq

def cptBody (st : Strand) : Act Next := do
  cancelPoint st
  pure .seq

def execShld (g : BitVec 3) (s : State) : Out := runAct clsCtl 4 g true shldBody s
def execSunsh (g : BitVec 3) (s : State) : Out := runAct clsCtl 4 g true sunshBody s
def execCpt (g : BitVec 3) (s : State) : Out := runAct clsCtl 4 g true cptBody s
def execCptCompact (s : State) : Out := runAct clsCtl 2 0 true cptBody s

end Sys2Proof.Machine
end

