-- ==== Sys2Proof/Machine/Loader.lean ====
section
/-! DEFINITION. The Kiln's loader (R104 to R112, R229 to R231, R330, R400): an image is checked, placed, and its ranks are
started; the remote stores of a load. -/

namespace Sys2Proof.Machine

/-! ### The image as bytes (R105 to R112) -/

/-- The little-endian number in `n` bytes of an image. -/
def imgNum (b : List Byte) (off n : Nat) : Nat := ofLe ((b.drop off).take n)
def imgZero (b : List Byte) (off n : Nat) : Bool := imgNum b off n == 0

/-- A section entry (R106). -/
structure Section where
  kind : Nat
  align : Nat
  ndesc : Nat
  va : Nat
  size : Nat
  fileOff : Nat
  fileSize : Nat
  descOff : Nat
  deriving DecidableEq, Repr

def imgSection (b : List Byte) (i : Nat) : Section :=
  let o := imgNum b 0x18 8 + 40 * i
  { kind := imgNum b o 1, align := imgNum b (o + 1) 1, ndesc := imgNum b (o + 4) 4, va := imgNum b (o + 8) 8
    size := imgNum b (o + 16) 8, fileOff := imgNum b (o + 24) 4, fileSize := imgNum b (o + 28) 4
    descOff := imgNum b (o + 32) 8 }

def imgSections (b : List Byte) : List Section := (List.range (imgNum b 0x0A 2)).map (imgSection b)
def imgKind (b : List Byte) (kind : Nat) : Option Section := (imgSections b).find? fun s => s.kind == kind

/-- A descriptor run (R107): first block, count, descriptor. -/
def Section.run (b : List Byte) (s : Section) (i : Nat) : Nat × Nat × Desc :=
  let o := s.descOff + 16 * i
  (imgNum b o 8, imgNum b (o + 8) 4, BitVec.ofNat 16 (imgNum b (o + 12) 2))

/-- The log of the size of the one region of a section (R104), or of its vault region (R400). -/
def coverLog (n : Nat) : Nat := ((List.range 64).find? fun k => 12 ≤ k && n ≤ 2 ^ k).getD 64

/-- Is each entry of a table, from 1 on, in order after the one before it? -/
def inOrder (n : Nat) (f : Nat → Nat → Bool) : Bool := (List.range (n - 1)).all fun i => f i (i + 1)

/-- R106, R107 and R112 on one section. The manual does not say that TEXTBASE must meet the ALIGN of `.text`: it need not
here (log entry 63). -/
def Section.wellFormed (b : List Byte) (s : Section) (i imgSize : Nat) : Bool :=
  let o := imgNum b 0x18 8 + 40 * i
  let base := s.va % 2 ^ 50
  let run := s.run b
  s.kind ≤ 4 && 1 ≤ s.align && s.align ≤ 12 && (s.kind != 3 || s.align == 3) && (s.ndesc == 0 || 6 ≤ s.align)
    && imgZero b (o + 2) 2 && s.fileOff % 8 == 0 && s.fileSize ≤ s.size && s.fileOff + s.fileSize ≤ imgSize
    && (if s.ndesc == 0 then s.descOff == 0 else s.descOff % 8 == 0 && s.descOff + 16 * s.ndesc ≤ imgSize)
    && (s.ndesc == 0 || s.kind == 1 || s.kind == 2 || s.kind == 4)
    && ((List.range s.ndesc).all fun j =>
          1 ≤ (run j).2.1 && imgZero b (s.descOff + 16 * j + 14) 2 && 64 * ((run j).1 + (run j).2.1) ≤ s.size)
    && inOrder s.ndesc (fun x y => (run x).1 + (run x).2.1 ≤ (run y).1)
    && (match s.kind with
        | 0 => s.va == 0 && imgNum b 0x08 2 + s.size ≤ 2 ^ 16
        | 4 => s.va + s.size ≤ Config.spillStart && s.va % 2 ^ s.align == 0
        | k =>
          let path := if k = 1 then 1 else if k = 2 then 0 else 2
          s.va / 2 ^ 50 == path && coverLog s.size ≤ 32 && base % 2 ^ coverLog s.size == 0)

/-- Is a table of `count` entries of `size` bytes where the header says, inside the image? -/
def tableOk (b : List Byte) (field count size imgSize : Nat) : Bool :=
  let o := imgNum b field 8
  if count = 0 then o == 0 else o % 8 == 0 && o + size * count ≤ imgSize

/-- The digest of an image, its DIGEST field taken as 0 (R105). -/
def imgDigest (b : List Byte) : Word :=
  (List.range (b.length / 8)).foldl (fun d i => digestStep d (if i = 9 then 0 else wordOf ((b.drop (8 * i)).take 8))) 0

/-- An entry's NAME: ASCII characters, then zeros to its end (R108). -/
def nameOk (b : List Byte) (o : Nat) : Bool :=
  let name := (b.drop (o + 8)).take 24
  name.all (fun c => !c.msb) && (name.dropWhile (· != 0)).all (· == 0)

/-- R112: does the loader accept the image? `sys`: the scope carries SYS. -/
def imageOk (b : List Byte) (sys : Bool) : Bool :=
  let size := imgNum b 0x40 8
  let flags := imgNum b 0x06 2
  let base := imgNum b 0x08 2
  let nsect := imgNum b 0x0A 2
  let nentry := imgNum b 0x0C 2
  let nhandler := imgNum b 0x0E 2
  let npp := imgNum b 0x10 4
  let nidem := imgNum b 0x14 4
  let sects := imgSections b
  let textSize := ((imgKind b 0).map (·.size)).getD 0
  let pcOk (pc : Nat) : Bool := pc % 2 == 0 && base ≤ pc && pc < base + textSize
  let entry (i : Nat) := imgNum b 0x20 8 + 32 * i
  let handler (i : Nat) := imgNum b 0x28 8 + 16 * i
  let pp (i : Nat) := imgNum b 0x30 8 + 16 * i
  let idem (i : Nat) := imgNum b 0x38 8 + 8 * i
  imgNum b 0 4 == 0x31495648 && imgNum b 4 2 == 1 && flags ≤ 1 && base % 2 == 0
    && 1 ≤ nsect && nsect ≤ 5 && 1 ≤ nentry && nentry ≤ 256 && nhandler ≤ 64
    && b.length == size && size % 8 == 0
    && tableOk b 0x18 nsect 40 size && tableOk b 0x20 nentry 32 size && tableOk b 0x28 nhandler 16 size
    && tableOk b 0x30 npp 16 size && tableOk b 0x38 nidem 8 size
    && BitVec.ofNat 64 (imgNum b 0x48 8) == imgDigest b
    && ((List.range nsect).all fun i => (imgSection b i).wellFormed b i size)
    && decide ((sects.map (·.kind)).eraseDups.length = nsect)
    && ((List.range nentry).all fun i => pcOk (imgNum b (entry i) 2) && imgZero b (entry i + 2) 6 && nameOk b (entry i))
    && ((List.range nhandler).all fun i =>
          let o := handler i
          let scratch : Word := BitVec.ofNat 64 (imgNum b (o + 8) 8)
          imgNum b o 1 ≤ 63 && imgNum b (o + 1) 1 ≤ 15 && 1 ≤ imgNum b (o + 2) 1 && imgNum b (o + 2) 1 ≤ 16
            && imgZero b (o + 3) 1 && pcOk (imgNum b (o + 4) 2) && imgZero b (o + 6) 2
            && (scratch == 0 || (decodeRegion scratch).isSome))
    && decide (((List.range nhandler).map fun i => imgNum b (handler i) 1).eraseDups.length = nhandler)
    && ((List.range npp).all fun i =>
          pcOk (imgNum b (pp i) 2) && imgNum b (pp i + 2) 1 % 2 == 0 && imgZero b (pp i + 11) 5)
    && inOrder npp (fun i j => imgNum b (pp i) 2 < imgNum b (pp j) 2)
    && ((List.range nidem).all fun i =>
          let lo := imgNum b (idem i) 2
          let hi := imgNum b (idem i + 2) 2
          pcOk lo && hi % 2 == 0 && lo < hi && hi ≤ base + textSize && imgZero b (idem i + 4) 4)
    && inOrder nidem (fun i j => imgNum b (idem i + 2) 2 ≤ imgNum b (idem j) 2)
    && (flags == 0 || sys)

/-! ### Reading the image -/

/-- Reads `n` words of an image, each of a good sector; a missing translation or a bad sector ends the load. -/
def State.imageWords (s : State) (pasid : BitVec 20) (va : Word) : Nat → State × Except (BitVec 15) (List Byte)
  | 0 => (s, .ok [])
  | n + 1 =>
    match s.rawKey pasid va with
    | none => (s, .error 4)
    | some k =>
      let (s, r) := if isHost k then (s, .ok (s.block (blockKey k)))
        else s.readSector (blockKey k) (s.ctxAt 0 pasid (blockKey k))
      match r with
      | .error _ => (s, .error 10)
      | .ok b =>
        match s.imageWords pasid (va + 8) n with
        | (s, .ok rest) => (s, .ok (leBytes 8 (blockWord b (k % 64 / 8)) ++ rest))
        | (s, .error e) => (s, .error e)

/-- How many bytes of a SEALED region of the tenant stand from an address on. -/
def State.sealedAt (s : State) (pasid : BitVec 20) (va : Word) : Nat :=
  let off := (va.extractLsb' 0 50).toNat
  match s.covering pasid false off with
  | some t => if t.state = .sealed_ then t.reg.base + 2 ^ t.reg.k - off else 0
  | none => 0

/-- The whole image of a load: it must lie in a SEALED region, in device or host memory. -/
def State.readImage (s : State) (r : LoadReq) : State × Except (BitVec 15) (List Byte) :=
  let path := (r.image.extractLsb' 50 4).toNat
  let room := s.sealedAt r.pasid r.image
  if r.image.extractLsb' 54 10 ≠ 0 ∨ r.image.toNat % 8 ≠ 0 ∨ !(path = 0 ∨ path = 1 ∨ path = 4 ∨ path = 6) then (s, .error 10)
  else if room < 0x50 then (s, .error 5)
  else
    match s.imageWords r.pasid r.image 10 with
    | (s, .error e) => (s, .error e)
    | (s, .ok h) =>
      let size := imgNum h 0x40 8
      if imgNum h 0 4 ≠ 0x31495648 ∨ imgNum h 4 2 ≠ 1 ∨ size < 0x50 ∨ size % 8 ≠ 0 then (s, .error 10)
      else if room < size then (s, .error 5)
      else s.imageWords r.pasid r.image (size / 8)

/-! ### What the load meets -/

def loadCores (r : LoadReq) : List Nat := (List.range r.count).map (r.first + ·)

/-- The part of a tenant's ranges on a core that a new range overlaps. -/
def rangeMeets (a b lo hi : Nat) : Bool := a < hi && lo < b

/-- R231: does a live strand of another tenant run from the range on a core? -/
def State.rangeInUse (s : State) (l : Nat) (tenant : BitVec 12) (lo hi : Nat) : Bool :=
  match s.physical l with
  | none => false
  | some p =>
    s.strands.any fun kv =>
      pcoreOf kv.1 = p &&
        (let t := (s.scope kv.2.scope).tenant
         t != tenant && (s.lcore l).ranges.any fun r => r.1 = t && rangeMeets r.2.1 r.2.2 lo hi)

/-- The region of a section in device memory (R104). -/
def Section.region (s : Section) : Region := { path := s.va / 2 ^ 50, base := s.va % 2 ^ 50, k := coverLog s.size }

/-- The vault region of a core (R400). -/
def Section.vaultRegion (s : Section) (l : Nat) : Region := { path := 3, base := l * 2 ^ 23, k := coverLog (s.va + s.size) }

/-- Tokens whose region meets a region: of the tenant in device memory, of any tenant in a vault. -/
def State.tokensMeeting (s : State) (pasid : BitVec 20) (r : Region) : List Token :=
  s.tokens.filter fun t => t.reg.vault == r.vault && (r.vault || t.pasid == pasid) && t.reg.meets r

/-- What stands where a region is to be made: nothing; the same region, SEALED, to be used again; or a conflict. -/
inductive Standing where
  | nothing
  | same
  | conflict
  deriving DecidableEq, Repr

def State.standing (s : State) (pasid : BitVec 20) (r : Region) (reusable : Bool) : Standing :=
  match s.tokensMeeting pasid r with
  | [] => .nothing
  | [t] => if reusable && t.isFor r pasid && t.state == .sealed_ then .same else .conflict
  | _ => .conflict

/-- Do all pages of a section translate into visible device memory, readable and writable? -/
def State.pagesOk (s : State) (pasid : BitVec 20) (base n : Nat) : Bool :=
  (List.range ((n + 4095) / 4096)).all fun i =>
    match s.transEntry pasid (base + 4096 * i) with
    | none => false
    | some e =>
      let key := s.keyOf (e.tbase + (base + 4096 * i - e.vbase))
      e.r && e.w && inWindow key && isVisible key

/-- The code that a load ends with before anything is written, or 0. The manual does not say which code wins where a
translation fails and a region is in the way: XLATE does here; nor which pages the translations must cover: those of SIZE
do here; a SEALED `.rodata` used again needs none (log entry 64). -/
def State.loadCode (s : State) (r : LoadReq) (b : List Byte) : BitVec 15 :=
  let sects := imgSections b
  let base := imgNum b 0x08 2
  let textSize := ((imgKind b 0).map (·.size)).getD 0
  let dev := sects.filter fun x => 1 ≤ x.kind && x.kind ≤ 3
  let fresh := dev.filter fun x => s.standing r.pasid x.region (x.kind == 1) == .nothing
  let apart := (List.range dev.length).all fun i => (List.range i).all fun j =>
    match dev[i]?, dev[j]? with
    | some x, some y => !x.region.meets y.region
    | _, _ => true
  if !imageOk b (s.isSys r.scope) ∨ imgNum b 0x0C 2 ≤ r.entry then 10
  else if (loadCores r).any fun l => s.rangeInUse l r.tenant base (base + textSize) then 10
  else if fresh.any fun x => !s.pagesOk r.pasid (x.va % 2 ^ 50) (Nat.max 1 x.size) then 4
  else if !apart ∨ (dev.any fun x => s.standing r.pasid x.region (x.kind == 1) == .conflict) = true then 10
  else
    match imgKind b 4 with
    | some v => if (loadCores r).any fun l => s.standing r.pasid (v.vaultRegion l) true == .conflict then 10 else 0
    | none => 0

/-! ### What the load writes -/

/-- The contents of a section: its bytes in the file, then zeros. -/
def Section.contents (b : List Byte) (x : Section) : List Byte :=
  (b.drop x.fileOff).take x.fileSize ++ List.replicate (x.size - x.fileSize) 0

def Section.descOf (b : List Byte) (x : Section) (i : Nat) : Desc :=
  (((List.range x.ndesc).map (x.run b)).find? fun r => r.1 ≤ i && i < r.1 + r.2.1).elim 0 fun r => r.2.2

/-- The descriptors of a vault section: of every block of the vault that it writes whole; a block written in part keeps its
own (R63, R107). -/
def State.writeDescs (s : State) (b : List Byte) (x : Section) (key : Nat → Option Nat) : State :=
  let lead := (64 - x.va % 64) % 64
  (List.range ((x.size - lead) / 64)).foldl (fun s i =>
    match key (lead + 64 * i) with
    | some k => s.setDesc k (x.descOf b ((lead + 64 * i) / 64))
    | none => s) s

/-- Writes a section at the memory key that a function gives for each offset in it (R63). -/
def State.writeSection (s : State) (c : Ctx0) (b : List Byte) (x : Section) (key : Nat → Option Nat) : State :=
  let bytes := x.contents b
  let s := (List.range ((x.size + 63) / 64)).foldl (fun s i =>
    match key (64 * i) with
    | some k =>
      let blk := (bytes.drop (64 * i)).take 64
      if isVault k then s.writeRaw k blk else s.putSector c k (BitVec.ofNat 512 (ofLe blk)) (some (x.descOf b i))
    | none => s) s
  if x.kind = 4 then s.writeDescs b x key else s

/-- The owner of a FREE token: the handle of no strand (log entry 3). -/
def nobody : Party := strandParty 0

/-- A new token of a load. -/
def loadToken (r : LoadReq) (keyid : BitVec 12) (reg : Region) (st : TokState) : Token :=
  { region := reg.dirWord, pasid := r.pasid, keyid := keyid, state := st, owner := scopeParty r.scope }

/-- The device sections: region, contents, token (R104). -/
def State.loadSections (s : State) (r : LoadReq) (b : List Byte) : State :=
  ((imgSections b).filter fun x => 1 ≤ x.kind && x.kind ≤ 3).foldl (fun s x =>
    if s.standing r.pasid x.region (x.kind == 1) = .same then s
    else
      let base := x.va % 2 ^ 50
      let key (o : Nat) : Option Nat := (s.transEntry r.pasid (base + o)).map fun e => s.keyOf (e.tbase + (base + o - e.vbase))
      let st : TokState := if x.kind = 1 then .sealed_ else if x.kind = 2 then .held else .free
      let t := loadToken r (s.scope r.scope).keyid x.region st
      let s := s.writeSection { pasid := t.pasid, keyid := t.keyid } b x key
      { s with tokens := s.tokens ++ [if st = .free then { t with owner := nobody } else t] }) s

/-- The vault section of one core (R400). -/
def State.loadVault (s : State) (r : LoadReq) (b : List Byte) (x : Section) (l : Nat) : State :=
  if s.standing r.pasid (x.vaultRegion l) true = .same then s
  else
    let s := s.writeSection {} b x fun o => (s.physical l).map fun p => vaultKey p (x.va + o)
    { s with tokens := s.tokens ++ [loadToken r (s.scope r.scope).keyid (x.vaultRegion l) .sealed_] }

/-- The part of a range that lies outside another. -/
def cutRange (lo hi : Nat) (r : BitVec 12 × Nat × Nat) : List (BitVec 12 × Nat × Nat) :=
  ([(r.1, r.2.1, Nat.min r.2.2 lo), (r.1, Nat.max r.2.1 hi, r.2.2)]).filter fun x => x.2.1 < x.2.2

/-- The ranges of a core with a tenant's new range; the handler entries of other tenants that it overwrites go (R231). -/
def State.takeRange (s : State) (l : Nat) (tenant : BitVec 12) (scope : ScopeId) (lo hi : Nat) : State :=
  let old := (s.lcore l).ranges
  let hit (t : BitVec 12) (pc : Nat) : Bool := old.any fun r => r.1 = t && t != tenant && Nat.max r.2.1 lo ≤ pc && pc < Nat.min r.2.2 hi
  let s := ((s.lcore l).handlers.map (·.1)).foldl (fun s c =>
    let h := s.handler l c
    if h.depth ≠ 0 ∧ hit h.tenant h.pc.toNat then s.removeHandler l (BitVec.ofNat 6 c) scope 2 else s) s
  let ranges := old.flatMap fun r => if r.1 = tenant then [r] else cutRange lo hi r
  s.modLCore l fun c => { c with ranges := ranges ++ [(tenant, lo, hi)] }

/-- The lane of the packets of loads: code, handlers and starts keep their order to every core (R229, R230). -/
def loadLane : Nat := laneOf 1 kilnNode kilnNode

/-- A packet of a launch from the Kiln to a node: held to phase 7 in a QUANTA scope that has begun. -/
def State.sendLoad (s : State) (scope : ScopeId) (dst : Nat) (ev : Instr) (arg : Payload) : State :=
  let route := laneOf 1 kilnNode dst
  if s.isQuanta scope && (s.domains.get {} (s.domainOf scope).toNat).started then s.request scope 512 0 7 route ev arg
  else s.push { due := s.cycle, lane := loadLane, route := route, ev := ev, arg := arg }

/-- Code in the pieces that packets of 4 flits hold (R245): the offset of each, and its bytes. -/
def codePieces : Nat → List Byte → Nat → List (Nat × List Byte)
  | 0, _, _ => []
  | n + 1, bs, o => if bs.isEmpty then [] else (o, bs.take Config.codePiece) :: codePieces n (bs.drop Config.codePiece) (o + Config.codePiece)

def imgHandler (b : List Byte) (tenant : BitVec 12) (i : Nat) : Nat × HandlerEntry :=
  let o := imgNum b 0x28 8 + 16 * i
  (imgNum b o 1,
    { pc := BitVec.ofNat 16 (imgNum b (o + 4) 2), prio := BitVec.ofNat 4 (imgNum b (o + 1) 1)
      depth := BitVec.ofNat 5 (imgNum b (o + 2) 1), mask := false, tenant := tenant
      scratch := BitVec.ofNat 64 (imgNum b (o + 8) 8) })

/-- The side tables of an image, kept for its strands (R110, R111). -/
def imageOf (b : List Byte) (tenant : BitVec 12) : Image :=
  let n (o k : Nat) := imgNum b o k
  let pp (i : Nat) := n 0x30 8 + 16 * i
  let idem (i : Nat) := n 0x38 8 + 8 * i
  { textbase := n 0x08 2, size := ((imgKind b 0).map (·.size)).getD 0, tenant := tenant
    points := (List.range (n 0x10 4)).map fun i =>
      (BitVec.ofNat 16 (n (pp i) 2), BitVec.ofNat 8 (n (pp i + 2) 1), BitVec.ofNat 8 (n (pp i + 3) 1),
        BitVec.ofNat 32 (n (pp i + 4) 4), BitVec.ofNat 16 (n (pp i + 8) 2), BitVec.ofNat 8 (n (pp i + 10) 1))
    regions := (List.range (n 0x14 4)).map fun i =>
      (BitVec.ofNat 16 (n (idem i) 2), BitVec.ofNat 16 (n (idem i + 2) 2)) }

/-- The context of rank `i` (R330). -/
def rankCtx (s : State) (r : LoadReq) (b : List Byte) (image gang i : Nat) : Ctx :=
  { x := r.args.take 4 ++ [0, 0, 0, 0], dbits := 0, preds := 0
    pc := BitVec.ofNat 16 (imgNum b (imgNum b 0x20 8 + 32 * r.entry) 2), kind := 0, prio := (s.scope r.scope).prio, frm := 0
    fflags := 0, weight := BitVec.ofNat 32 Config.refillWeight, scope := r.scope, origin := 0, vfmt := 0x0001
    mfmt := 0x0002, rkey0 := 0, rkey1 := 0, retired := 0, quantum := 0, qpos := 0, rank := BitVec.ofNat 16 i
    nrank := BitVec.ofNat 16 r.count, gang := BitVec.ofNat 24 gang, image := image }

/-- The lowest number from 1 on that a table does not hold. -/
def freeKey {β : Type} (t : Assoc β) : Nat :=
  ((List.range (t.length + 1)).find? fun i => (t.find (i + 1)).isNone).elim 1 (· + 1)

/-- The first half of a good load: sections, code and handlers, to every core; behind them, its release. -/
def State.performLoad (s : State) (r : LoadReq) (b : List Byte) : State :=
  let s := s.loadSections r b
  let s := match imgKind b 4 with
    | some x => (loadCores r).foldl (fun (s : State) l => s.loadVault r b x l) s
    | none => s
  let text := ((imgKind b 0).map (·.contents b)).getD []
  let base := imgNum b 0x08 2
  let image := freeKey s.images
  let s := { s with images := s.images.insert image (imageOf b r.tenant) }
  let gang := if r.count = 1 then 0 else freeKey s.gangs
  let ga : Gang := { nrank := r.count, members := (List.range r.count).map fun i => (i, 0), scope := r.scope }
  let s := if r.count = 1 then s else { s with gangs := s.gangs.insert gang ga }
  let s := (loadCores r).foldl (fun s l =>
    let s := s.takeRange l r.tenant r.scope base (base + text.length)
    let s := (codePieces (text.length + 1) text base).foldl (fun s x => s.sendLoad r.scope l .codeStore (.code l x.1 x.2)) s
    (List.range (imgNum b 0x0E 2)).foldl (fun s j =>
      let (c, e) := imgHandler b r.tenant j
      s.sendLoad r.scope l .handlerTableWrite (.handler l c e)) s) s
  s.sendLoad r.scope kilnNode .imageLoad (.released r image gang (rankCtx s r b image gang 0))

/-- The second half: every rank that no dispatch record has placed gets its weight and leaves for its core; behind the last,
the load ends. -/
def State.releaseRanks (s : State) (r : LoadReq) (start : Ctx) : State :=
  let ranks := (List.range r.count).filter fun i => !r.skip.contains ((r.first + i) / 16)
  let units := ranks.length * Config.refillWeight
  let s := s.modScb r.scope fun x =>
    { x with outw := x.outw + units, issued := x.issued + units, live := x.live + BitVec.ofNat 32 ranks.length }
  (ranks.foldl (fun s i =>
    let l := r.first + i
    s.sendLoad r.scope l .start (.ctx l none { start with rank := BitVec.ofNat 16 i })) s).sendLoad r.scope kilnNode .imageLoad
    (.started r)

/-! ### How a load ends -/

/-- The Kiln writes a completion word for a strand on a core; one that cannot be written is left (R224 for the check). -/
def State.kilnCell (s : State) (pcore : Nat) (pasid : BitVec 20) (scope : ScopeId) (va v : Word) : State :=
  let who : Who := { pcore := pcore, cluster := clusterOf pcore, pasid := pasid, parties := [], sys := false, ctx := 0, scope := scope, engine := true }
  let body : Act Unit := do
    let p ← placeOf who (.cell true) va
    storeAt who p (leBytes 8 v) none
  match body.go s with
  | (.ok (), s) => s
  | (.error _, _) => s

/-- A launch of the host ends its release: its scope drains (R297, R311). A domain begins in the next cycle (R393). -/
def State.launchReleased (s : State) (r : LoadReq) : State :=
  let s := match s.launches.find r.scope.toNat with
    | some l => { s with launches := s.launches.insert r.scope.toNat { l with released := r.count } }
    | none => s
  let s := s.modScb r.scope fun b => { b with state := .draining }
  let s := s.homeReturn r.scope Config.scopeWeight false false
  let d := r.scope.toNat
  match s.domains.find d with
  | some dom => if dom.started then s else s.after 1 .quantumEnd (.n2 d 9)
  | none => s

/-- A launch of the host that starts nothing: its scope is removed and its record says why. -/
def State.launchFails (s : State) (scope : ScopeId) (code : BitVec 15) : State :=
  let b := s.scope scope
  let s := match s.launches.find scope.toNat with
    | some l => (s.complete l.compl l.tag l.deadline code 0 0 0).launchLeaves l
    | none => s
  let n := scope.toNat
  -- what a load had parked with it passes to its parent (R395)
  let s := (s.passTokens scope b.parent).forgetScope scope
  let s := { s with launches := s.launches.erase n, domains := s.domains.erase n }
  (s.signal 2).send (laneOf 0 (homeNode b.id) (homeNode b.parent)) .weightReturn (.weight b.parent b.pweight false false)

/-- The end of a load with a code. -/
def State.loadEnds (s : State) (r : LoadReq) (code : BitVec 15) : State :=
  if r.member then
    let v : Word := 1#1 ++ code ++ BitVec.ofNat 48 (if code = 0 then r.count else 0)
    (s.kilnCell (handleSk r.issuer / 16) r.pasid r.scope r.compl v).returnWeight r.scope (s.handleCore r.issuer) 0 r.weight.toNat false false
  else if code = 0 then s.launchReleased r
  else s.launchFails r.scope code

/-- Do all cores of a load lie in the tenant's partition, that of its root's home (R29, R411)? -/
def State.inPartition (s : State) (r : LoadReq) : Bool :=
  (loadCores r).all fun l => s.samePart (((s.rootOf r.pasid).map homeCluster).getD 0) (l / 16)

/-- A load begins: nothing is written but by a load that starts every rank. -/
def State.loadNow (s : State) (r : LoadReq) : State :=
  if (s.scope r.scope).cancelled then s.loadEnds r 1
  else if !s.inPartition r then s.loadEnds r 10
  else if (loadCores r).any s.isRetired then s.loadEnds r 8
  else
    match s.readImage r with
    | (s, .error e) => s.loadEnds r e
    | (s, .ok b) =>
      let code := s.loadCode r b
      if code = 0 then s.performLoad r b else s.loadEnds r code

/-- Is an event the start message of a rank of a scope's launch? -/
def Pending.starts (p : Pending) (scope : ScopeId) : Bool :=
  p.ev == .start && (match p.arg with
    | .ctx _ none c => c.scope == scope
    | _ => false)

/-- IMAGE_LOAD: a load begins; or, once its code and handlers have arrived everywhere, starts its ranks. -/
def execImageLoad (s : State) : Out :=
  match s.arg with
  | .load r =>
    -- in a QUANTA scope a GANG's completion word becomes 0 here, before its load begins (R283, R409)
    .next ((if r.member && s.isQuanta r.scope then s.kilnCell (handleSk r.issuer / 16) r.pasid r.scope r.compl 0 else s).loadNow r)
  | .released r _ _ start => .next (if (s.scope r.scope).cancelled then s.loadEnds r 1 else s.releaseRanks r start)
  | .started r => .next (if s.agenda.any (·.starts r.scope) then s.after 1 .imageLoad (.started r) else s.loadEnds r 0)
  | _ => .next s

/-! ### The packets of a load -/

/-- CODE_STORE: bytes of a core's instruction store, and of the copy the Kiln keeps for its spare (R379). A core that is dead,
and not yet served by its spare, refuses it with DEAD, and it is sent again (R407; log entry 24). -/
def State.storeCode (s : State) (l off : Nat) (bytes : List (BitVec 8)) : State :=
  let copy := (List.range bytes.length).foldl (fun (m : Assoc (BitVec 8)) i => Assoc.put 0 m (off + i) (bytes[i]?.getD 0))
    (s.lcore l).copy
  match s.physical l with
  | some p => (s.modLCore l fun c => { c with copy := copy }).writeRaw (istoreKey p off) bytes
  | none => if s.isRetired l then s else s.after Config.retryWait .codeStore (.code l off bytes)

def execCodeStore (s : State) : Out :=
  match s.arg with
  | .code l off bytes => .next (s.storeCode l off bytes)
  | _ => .next s

/-- HANDLER_TABLE_WRITE: an entry of another tenant goes first, and what the channel has borrowed under one of its own tenant
returns (R403); a channel that has a receive binding keeps that consumer (R238; log entry 65). -/
def State.writeHandler (s : State) (l chan : Nat) (e : HandlerEntry) : State :=
  let h := s.handler l chan
  let s := if h.depth ≠ 0 ∧ h.tenant ≠ e.tenant then s.removeHandler l (BitVec.ofNat 6 chan) 0 2
    else if h.depth ≠ 0 ∧ !s.received l (BitVec.ofNat 6 chan) then s.endLends l (BitVec.ofNat 6 chan) 0
    else s
  let h := s.handler l chan
  if s.received l (BitVec.ofNat 6 chan) then s
  else s.setHandler l chan
    { h with pc := e.pc, prio := e.prio, depth := e.depth, mask := e.mask, tenant := e.tenant, scratch := e.scratch }

def execHandlerTableWrite (s : State) : Out :=
  match s.arg with
  | .handler l chan e =>
    .next (if (s.physical l).isSome then s.writeHandler l chan e
      else if s.isRetired l then s
      else s.after Config.retryWait .handlerTableWrite s.arg)
  | _ => .next s

/-- Is code or a handler entry for a core still on its way? -/
def State.loading (s : State) (l : Nat) : Bool :=
  s.agenda.any fun p => match p.arg with
    | .code k _ _ | .handler k _ _ => k == l
    | _ => false

/-- START: the rank goes to its core's arrival queue, behind what the same launch sent there (R230). While a start message
of its launch is on a link, and might be truncated, no rank of it starts (R250). -/
def execStart (s : State) : Out :=
  match s.arg with
  | .ctx l none c =>
    if s.loading l || s.agenda.any fun p => p.starts c.scope && p.parcel != 0 then .next (s.after 1 .start s.arg)
    else .next ((s.wakeFirst l).placeOn l (l / 16) (some l) c)
  | _ => .next s

end Sys2Proof.Machine
end

