-- ==== Sys2Proof/Machine/Matrix.lean ====
section
/-! DEFINITION. Major MAT (R156 to R169) and the steps of matrix operations. -/

namespace Sys2Proof.Machine

/-! ### Groups of tiles (R156) -/

def shapeRows (h : BitVec 2) : Nat := if h.getLsbD 1 then 32 else 16
def shapeCols (h : BitVec 2) : Nat := if h.getLsbD 0 then 32 else 16

/-- The tile and the place within it of element (m, n). -/
def tileOf (h : BitVec 2) (f : BitVec 3) (m n : Nat) : Nat × Nat :=
  let t := match h.toNat with
    | 0 => 0
    | 1 => n / 16
    | 2 => m / 16
    | _ => 2 * (m / 16) + n / 16
  (f.toNat + t, 16 * (m % 16) + n % 16)

def Core.tile (c : Core) (t : Nat) : Tile := c.tiles.get {} t
def Core.elem (c : Core) (h : BitVec 2) (f : BitVec 3) (m n : Nat) : A34 :=
  let (t, i) := tileOf h f m n
  (c.tile t).elems.get 0 i
def Core.setElem (c : Core) (h : BitVec 2) (f : BitVec 3) (m n : Nat) (v : A34) : Core :=
  let (t, i) := tileOf h f m n
  { c with tiles := c.tiles.insert t { c.tile t with elems := (c.tile t).elems.put 0 i v } }

def Core.modTiles (c : Core) (ts : List Nat) (f : Tile → Tile) : Core :=
  ts.foldl (fun c t => { c with tiles := c.tiles.insert t (f (c.tile t)) }) c

/-- Every element of a group, in row order. -/
def groupPlaces (h : BitVec 2) : List (Nat × Nat) :=
  (List.range (shapeRows h)).flatMap fun m => (List.range (shapeCols h)).map fun n => (m, n)

/-- The operations on some of the tiles, in issue order. -/
def Core.opsOn (c : Core) (ts : List Nat) : List TileOp := c.ops.filter (·.meets ts)

/-! ### Checks -/

/-- ACC_HELD for the first tile that the strand may not name: one held by another, or, unless the instruction claims, a
FREE one (R51). -/
def Core.checkTiles (c : Core) (sk : Nat) (claims : Bool) (ts : List Nat) : Except Trap Unit :=
  match ts.find? fun t => match (c.tile t).holder with
    | none => !claims
    | some h => h != sk with
  | some t => .error { code := .accHeld, aux := BitVec.ofNat 64 t }
  | none => .ok ()

/-- REG_UE of a tile that the instruction reads (R143). -/
def Core.checkTileUe (c : Core) (sk : Nat) (ts : List Nat) : Except Trap Unit :=
  match ts.find? fun t => (c.tile t).ue && (c.tile t).holder == some sk with
  | some t => .error { code := .regUe, aux := BitVec.ofNat 64 (0x200 + t) }
  | none => .ok ()

/-- MATRIX for a suspended operation (R167). -/
def TileOp.matrixTrap (o : TileOp) : Trap :=
  { code := .matrix, sub := o.cause, va := o.va
    aux := BitVec.ofNat 32 o.steps ++ BitVec.ofNat 16 o.total ++ 0#11 ++ o.shape ++ o.first }

/-- Waits until every operation on the tiles has ended; a suspended one raises MATRIX (R159). -/
def waitTiles (st : Strand) (ts : List Nat) : Act Unit := do
  let ops := ((← get).core st.pcore).opsOn ts
  match ops.find? fun o => o.state = .suspended with
  | some o => raise o.matrixTrap
  | none => if ops.isEmpty then pure () else holdFor .tile

/-- The base of matrix data: the BLK path, then a multiple of 64, and so its stride (R157). -/
def basePath (va : Word) : Except Trap Unit :=
  let bad (sub : BitVec 8) : Except Trap Unit := .error { code := .path, sub := sub, va := va }
  if va.extractLsb' 54 10 ≠ 0 then bad 1
  else if pathOf va = 5 ∨ 8 ≤ pathOf va then bad 2
  else if pathOf va ≠ 4 then bad 3
  else .ok ()

def baseAlign (va : Word) (stride : BitVec 32) : Except Trap Unit :=
  if va.extractLsb' 0 6 ≠ 0 ∨ stride.extractLsb' 0 6 ≠ 0 then .error { code := .align, va := va } else .ok ()

/-- The address of a block of a row. -/
def rowVa (base : Word) (stride : BitVec 32) (row blk : Nat) : Word :=
  base + BitVec.ofNat 64 row * stride.signExtend 64 + BitVec.ofNat 64 (64 * blk)

/-- Wakes the strand that waits for a tile. -/
def State.wakeTile (s : State) (sk : Nat) : State :=
  s.modStrand sk fun st => if st.wait = .tile then { st with wait := .none } else st

/-! ### MZERO, MLD (R160) -/

def Tile.fresh (sk : Nat) (_ : Tile) : Tile := { holder := some sk }

def mzeroBody (h : BitVec 2) (f : BitVec 3) (st : Strand) : Act Next := do
  let ts := groupTiles h f
  liftT (((← get).core st.pcore).checkTiles st.sk true ts)
  waitTiles st ts
  modify fun s => s.modCore st.pcore fun c => c.modTiles ts (Tile.fresh st.sk)
  pure .seq

/-- Reads one block of a row of an operand. -/
def rowBlock (who : Who) (st : Strand) (va : Word) : Act (Block × Desc) := do
  let p ← placeOf who (.matrix false) va
  noteRemote st p
  let (bs, d) ← loadAt who p 64
  pure (BitVec.ofNat 512 (ofLe bs), d)

/-- The values of the first `n` elements of a row; `e` is the lane count that its blocks must have. -/
def rowValues (who : Who) (st : Strand) (base : Word) (stride : BitVec 32) (row n e : Nat) : Act (List Num) := do
  let blks ← (List.range ((n + e - 1) / e)).mapM fun b => do
    let (blk, d) ← rowBlock who st (rowVa base stride row b)
    if !matrixFormat d ∨ lanes d ≠ e then raise (formatFault d)
    else pure (blockValues blk d)
  pure (blks.flatten.take n)

def mldBody (h : BitVec 2) (f : BitVec 3) (a : BitVec 5) (st : Strand) : Act Next := do
  let ts := groupTiles h f
  liftT (st.sources [a])
  liftT (((← get).core st.pcore).checkTiles st.sk true ts)
  let base := st.xv a
  let stride := st.ox2.setWidth 32
  liftT (basePath base)
  liftT (baseAlign base stride)
  let who := (← get).who st
  let (_, d0) ← rowBlock who st base
  if !matrixFormat d0 then raise (formatFault d0)
  else
    let rows ← (List.range (shapeRows h)).mapM fun m => rowValues who st base stride m (shapeCols h) (lanes d0)
    waitTiles st ts
    modify fun s => s.modCore st.pcore fun c =>
      (groupPlaces h).foldl (fun c mn =>
        c.setElem h f mn.1 mn.2 (toA34 (((rows[mn.1]?.getD [])[mn.2]?).getD .nan)).1) (c.modTiles ts (Tile.fresh st.sk))
    pure .seq

def execMzero (h : BitVec 2) (f g : BitVec 3) (s : State) : Out := runAct clsMat 4 g true (mzeroBody h f) s
def execMld (h : BitVec 2) (f : BitVec 3) (a : BitVec 5) (g : BitVec 3) (s : State) : Out :=
  runAct clsMat 4 g true (mldBody h f a) s

/-! ### MMA (R161, R162) -/

/-- Depth of a step by lane width (R75). -/
def depthOf (e : Nat) : Nat :=
  if e = 16 then 1 else if e = 32 then 4 else if e = 64 then 8 else 16

/-- The number of steps from K and the lane counts of the two operands: the wider format sets the depth. -/
def stepCount (k la lb : Nat) : Nat := (k + depthOf (Nat.min la lb) - 1) / depthOf (Nat.min la lb)

/-- A sum of exact values: a NaN among them propagates, opposite infinities are invalid (R72). -/
def exactSum (xs : List Num) : Num × BitVec 6 :=
  if xs.any Num.isNan then (.nan, 0)
  else xs.foldl (fun acc x => let (v, f) := Num.add .rne acc.1 x; (v, acc.2 ||| f)) (.fin true 0 0, 0)

/-- One element of a step: C + the products of the step, rounded once. -/
def stepElem (c : A34) (as bs : List Num) : A34 × BitVec 6 :=
  let ps := (as.zip bs).map fun p => p.1.mul p.2
  let (v, f1) := exactSum (a34Num c :: ps.map (·.1))
  let (r, f2) := toA34 v
  (r, ps.foldl (fun f p => f ||| p.2) (f1 ||| f2))

/-- The values that a step takes from an operand of `rows` rows: elements k0 to k1 − 1 of each. -/
def stepRows (who : Who) (st : Strand) (base : Word) (stride : BitVec 32) (rows e k0 k1 : Nat) : Act (List (List Num)) :=
  (List.range rows).mapM fun m => do
    let (blk, d) ← rowBlock who st (rowVa base stride m (k0 / e))
    if !matrixFormat d ∨ lanes d ≠ e then raise { formatFault d with va := rowVa base stride m (k0 / e) }
    else pure ((List.range (k1 - k0)).map fun i => laneValue blk d (k0 % e + i))

/-- The lane count of an operand, from its first block. A fault carries the block's address (R167). -/
def operandLanes (who : Who) (st : Strand) (base : Word) : Act Nat := do
  let (_, d) ← rowBlock who st base
  if matrixFormat d then pure (lanes d) else raise { formatFault d with va := base }

/-- The tiles after one step of an operation, its flags, and the operation with its lane counts. -/
def stepOp (who : Who) (st : Strand) (o : TileOp) : Act (TileOp × List A34) := do
  modify fun s => o.tiles.foldl (fun s t => s.scrubTile st t) s
  let c := (← get).core st.pcore
  match o.tiles.find? fun t => (c.tile t).ue with
  | some _ => raise { code := .regUe }
  | none =>
    let la ← if o.la = 0 then operandLanes who st o.aBase else pure o.la
    let lb ← if o.lb = 0 then operandLanes who st o.bBase else pure o.lb
    let d := depthOf (Nat.min la lb)
    let k0 := o.steps * d
    let k1 := Nat.min (k0 + d) o.k
    let as ← stepRows who st o.aBase (o.ox.extractLsb' 0 32) (shapeRows o.shape) la k0 k1
    let bs ← stepRows who st o.bBase (o.ox.extractLsb' 32 32) (shapeCols o.shape) lb k0 k1
    let c := (← get).core st.pcore
    let rs := (groupPlaces o.shape).map fun mn =>
      stepElem (c.elem o.shape o.first mn.1 mn.2) (as[mn.1]?.getD []) (bs[mn.2]?.getD [])
    pure ({ o with la := la, lb := lb, total := stepCount o.k la lb, steps := o.steps + 1, flags := rs.foldl (fun f r => f ||| r.2) o.flags },
      rs.map (·.1))

def Core.setGroup (c : Core) (o : TileOp) (es : List A34) : Core :=
  ((groupPlaces o.shape).zip es).foldl (fun c x => c.setElem o.shape o.first x.1.1 x.1.2 x.2) c

def Core.setOp (c : Core) (o : TileOp) : Core :=
  { c with ops := c.ops.map fun x => if x.number = o.number then o else x }

/-- An operation ends: its place is free, its tiles keep its counts, the strand its flags (R74, R158, R392). -/
def State.endOp (s : State) (pcore : Nat) (o : TileOp) : State :=
  let s := s.modCore pcore fun c =>
    { (c.modTiles o.tiles fun t => { t with steps := BitVec.ofNat 32 o.steps, total := BitVec.ofNat 16 o.total }) with
      ops := c.ops.filter fun x => x.number != o.number }
  (s.modStrand o.sk fun st => (st.orFlags o.flags).bump 0x206 o.steps).wakeTile o.sk

/-- Pipes an operation takes (R158). -/
def TileOp.pipes (o : TileOp) : Nat := o.tiles.length

/-- Can an operation use pipes: it runs, and its tiles are free of earlier operations? -/
def Core.unblocked (c : Core) (o : TileOp) : Bool := o.state == .running && !o.paused && (c.earlier o).isEmpty

/-- The operations that have the pipes: those under way keep theirs, then the others in issue order as far as the four
pipes go (log entry 47). -/
def Core.granted (c : Core) : List Nat :=
  let ops := c.ops.filter c.unblocked
  ((ops.filter (·.la != 0) ++ ops.filter (·.la == 0)).foldl (fun acc o =>
    if acc.2 + o.pipes ≤ 4 then (acc.1 ++ [o.number], acc.2 + o.pipes) else acc) (([] : List Nat), 0)).1

/-- May the operation take a step now? -/
def Core.mayStep (c : Core) (o : TileOp) : Bool := c.unblocked o && c.granted.contains o.number

/-- MATRIX_STEP: the operation takes its next K step, ends, is paused for a page, or is suspended by a fault (R161, R162,
R167). -/
def execMatrixStep (s : State) : Out :=
  match s.arg with
  | .n2 p n =>
    match (s.core p).ops.find? fun o => o.number = n with
    | none => .next s
    | some o =>
      match s.strand o.sk with
      | none => .next s
      | some st =>
        let again (s : State) : State := s.after 1 .matrixStep (.n2 p n)
        if o.state = .suspended ∨ o.paused then .next s
        else if !(s.core p).mayStep o then .next (again s)
        else if o.k = 0 then .next (s.endOp p o)
        else
          match (stepOp { s.who st with pageAns := o.pageAns } st o).go s with
          | (.ok (o', es), s') =>
            let o' := { o' with pageAns := none }
            let s' := s'.modCore p fun c => (c.setGroup o' es).setOp o'
            .next (if o'.total ≤ o'.steps then s'.endOp p o' else again s')
          | (.error (.page pasid page w), s') =>
            .next ((s'.askPage pasid page w).modCore p fun c => c.setOp { o with paused := true, pageAns := none })
          | (.error (.trap t), s') =>
            .next ((s'.modCore p fun c =>
              c.setOp { o with state := .suspended, cause := faultCode t.code, va := if t.code = .regUe then 0 else t.va, pageAns := none }).wakeTile o.sk)
          | (.error _, _) => .next (again s)
  | _ => .next s

/-- The S of a new operation as the formats of its first blocks stand at issue; the first step sets it for good (log
entry 13). -/
def State.peekSteps (s : State) (st : Strand) (k : Nat) (a b : Word) : Nat :=
  match (do
      let who := (← get).who st
      let la ← operandLanes who st a
      let lb ← operandLanes who st b
      pure (stepCount k la lb) : Act Nat).go s with
  | (.ok n, _) => n
  | _ => 0

def mmaBody (h : BitVec 2) (f : BitVec 3) (a b : BitVec 5) (st : Strand) : Act Next := do
  let ts := groupTiles h f
  liftT (st.sources [a, b])
  let c := (← get).core st.pcore
  liftT (c.checkTiles st.sk false ts)
  liftT (basePath (st.xv a))
  liftT (basePath (st.xv b))
  liftT (baseAlign (st.xv a) (st.ox0.extractLsb' 0 32))
  liftT (baseAlign (st.xv b) (st.ox0.extractLsb' 32 32))
  match ts.find? fun t => 2 ≤ (c.opsOn [t]).length with
  | some t =>
    match (c.opsOn [t]).find? fun o => o.state = .suspended with
    | some o => raise o.matrixTrap
    | none => holdFor .tile
  | none =>
    let k := (st.ox1.extractLsb' 0 16).toNat
    let n ← newNumber
    let s ← get
    let o : TileOp :=
      { sk := st.sk, aBase := st.xv a, bBase := st.xv b, ox := st.ox0, k := k, steps := 0
        total := if k = 0 then 0 else s.peekSteps st k (st.xv a) (st.xv b), shape := h, first := f, number := n }
    if k = 0 ∧ (c.opsOn ts).isEmpty then
      modify fun s => s.modCore st.pcore fun c => c.modTiles ts fun t => { t with steps := 0, total := 0 }
    else
      modify fun s => (s.modCore st.pcore fun c => { c with ops := c.ops ++ [o] }).after 1 .matrixStep (.n2 st.pcore n)
    pure .seq

def execMma (h : BitVec 2) (f : BitVec 3) (a b : BitVec 5) (g : BitVec 3) (s : State) : Out :=
  runAct clsMat 4 g true (mmaBody h f a b) s

/-! ### MST, MSNAP (R163, R164) -/

/-- One block of a row of results: its address, its bytes, and the descriptor when the row fills it. -/
structure OutBlock where
  va : Word
  bytes : List Byte
  desc : Option Desc

/-- The blocks of one row of N values under sw.mfmt, and the flags of rounding them. -/
def outRow (st : Strand) (base : Word) (stride : BitVec 32) (row : Nat) (vs : List Num) : List OutBlock × BitVec 6 :=
  let e := lanes st.mfmt
  let w := laneBits st.mfmt
  let rs := vs.map (laneRound st.mfmt (modeOf st.frm))
  let blk (b : Nat) : OutBlock :=
    let xs := ((rs.drop (b * e)).take e).map (·.1)
    { va := rowVa base stride row b, bytes := (leBytes 64 (blockOf w xs)).take (xs.length * w / 8)
      desc := if xs.length = e then some st.mfmt else none }
  ((List.range ((vs.length + e - 1) / e)).map blk, rs.foldl (fun f r => f ||| r.2) 0)

/-- The group's elements as they stand, in rows. -/
def Core.rows (c : Core) (h : BitVec 2) (f : BitVec 3) : List (List Num) :=
  (List.range (shapeRows h)).map fun m => (List.range (shapeCols h)).map fun n => a34Num (c.elem h f m n)

/-- Checks, and where they need it fills, every block of the rows (R163). -/
def outPlaces (st : Strand) (bs : List OutBlock) : Act (List (Place × OutBlock)) := do
  let who := (← get).who st
  bs.mapM fun b => do
    let p ← placeOf who (if b.bytes.length < 64 then .part else .matrix true) b.va
    noteRemote st p
    if b.bytes.length < 64 then prefill who p b.bytes.length
    pure (p, b)

/-- The common checks of MST and MSNAP up to the memory access: what will be written where, and its flags. -/
def outBlocks (h : BitVec 2) (f : BitVec 3) (a : BitVec 5) (st : Strand) : Act (List (Place × OutBlock) × BitVec 6) := do
  let ts := groupTiles h f
  let c := (← get).core st.pcore
  liftT (st.checkUe [a])
  liftT (c.checkTileUe st.sk ts)
  liftT (st.checkD [a])
  liftT (c.checkTiles st.sk false ts)
  liftT (checkFormats matrixFormat [st.mfmt])
  let base := st.xv a
  let stride := st.ox2.setWidth 32
  liftT (basePath base)
  liftT (baseAlign base stride)
  let rs := (c.rows h f).mapIdx fun m vs => outRow st base stride m vs
  let ps ← outPlaces st (rs.flatMap (·.1))
  pure (ps, rs.foldl (fun f r => f ||| r.2) 0)

/-- Writes the blocks, and the flags at retirement. -/
def writeOut (st : Strand) (ps : List (Place × OutBlock)) (fl : BitVec 6) : Act Unit := do
  let who := (← get).who st
  ps.forM fun (p, b) => storeAt who p b.bytes b.desc
  let now ← me
  setMe (now.orFlags fl)

def mstBody (h : BitVec 2) (f : BitVec 3) (a : BitVec 5) (e : BitVec 1) (st : Strand) : Act Next := do
  let ts := groupTiles h f
  let (ps, fl) ← outBlocks h f a st
  waitTiles st ts
  writeOut st ps fl
  if e = 1 then
    modify fun s => (s.modCore st.pcore fun c => c.modTiles ts fun t => { t with holder := none }).send 0 .admission (.n1 st.pcore)
  pure .seq

/-- In the modes of R386, MSNAP and MSTAT wait for the end of the operation on tile `f`, without trapping. -/
def waitModes (st : Strand) (f : BitVec 3) : Act Unit := do
  let s ← get
  if s.dmode st.scope = 0 then pure ()
  else
    match (s.core st.pcore).opsOn [f.toNat] with
    | o :: _ => if o.state = .running then holdFor .tile else pure ()
    | [] => pure ()

/-- Steps and total that tile `f` shows: those of its first operation, else of its last one. -/
def Core.progress (c : Core) (f : BitVec 3) : Nat × Nat :=
  match c.opsOn [f.toNat] with
  | o :: _ => (o.steps, o.total)
  | [] => ((c.tile f.toNat).steps.toNat, (c.tile f.toNat).total.toNat)

/-- MSNAP writes as MST does, and its conversions set sw.fflags as those of MST (R164; log entry 49). -/
def msnapBody (h : BitVec 2) (f : BitVec 3) (a b : BitVec 5) (st : Strand) : Act Next := do
  let (ps, fl) ← outBlocks h f a st
  waitModes st f
  liftT (st.checkDst b.toNat)
  writeOut st ps fl
  putX b (BitVec.ofNat 64 (((← get).core st.pcore).progress f).1)
  pure .seq

def execMst (h : BitVec 2) (f : BitVec 3) (a : BitVec 5) (e : BitVec 1) (g : BitVec 3) (s : State) : Out :=
  runAct clsMat 4 g true (mstBody h f a e) s
def execMsnap (h : BitVec 2) (f : BitVec 3) (a b : BitVec 5) (g : BitVec 3) (s : State) : Out :=
  runAct clsMat 4 g true (msnapBody h f a b) s

/-! ### MWAIT, MSTAT, MCANC, MRES (R165, R166) -/

def mwaitBody (h : BitVec 2) (f : BitVec 3) (st : Strand) : Act Next := do
  let ts := groupTiles h f
  liftT (((← get).core st.pcore).checkTiles st.sk false ts)
  waitTiles st ts
  pure .seq

def execMwait (h : BitVec 2) (f g : BitVec 3) (s : State) : Out := runAct clsMat 4 g true (mwaitBody h f) s
def execMwaitCompact (h : BitVec 2) (f : BitVec 3) (s : State) : Out := runAct clsMat 2 0 true (mwaitBody h f) s

/-- The status word. -/
def Core.statWord (c : Core) (f : BitVec 3) : Word :=
  let (n, t) := c.progress f
  let (cause, state) : BitVec 8 × BitVec 3 := match c.opsOn [f.toNat] with
    | [] => (0, 0)
    | [o] => (o.cause, if o.state = .running then 1 else 3)
    | o :: _ => (o.cause, if o.state = .running then 2 else 4)
  BitVec.ofNat 32 n ++ BitVec.ofNat 16 t ++ cause ++ 0#5 ++ state

/-- MSTAT names its first tile; a shape in d[23:22] is accepted, and every tile of that group must be held (R165; log entry
48). -/
def mstatBody (h : BitVec 2) (f : BitVec 3) (b : BitVec 5) (st : Strand) : Act Next := do
  liftT (((← get).core st.pcore).checkTiles st.sk false (groupTiles h f))
  waitModes st f
  putX b (((← get).core st.pcore).statWord f)
  pure .seq

def execMstat (h : BitVec 2) (f : BitVec 3) (b : BitVec 5) (g : BitVec 3) (s : State) : Out :=
  runAct clsMat 4 g true (mstatBody h f b) s

/-- MCANC discards every operation on the group; the tiles show the steps of the first. -/
def mcancBody (h : BitVec 2) (f : BitVec 3) (st : Strand) : Act Next := do
  let ts := groupTiles h f
  liftT (((← get).core st.pcore).checkTiles st.sk false ts)
  modify fun s => ((s.core st.pcore).opsOn ts).reverse.foldl (fun s o => s.endOp st.pcore o) s
  pure .seq

/-- MRES resumes the suspended operation on tile `f`. -/
def mresBody (h : BitVec 2) (f : BitVec 3) (st : Strand) : Act Next := do
  let c := (← get).core st.pcore
  liftT (c.checkTiles st.sk false (groupTiles h f))
  match (c.opsOn [f.toNat]).find? fun o => o.state = .suspended with
  | some o =>
    modify fun s => (s.modCore st.pcore fun c => c.setOp { o with state := .running, cause := 0, va := 0 }).after 1
      .matrixStep (.n2 st.pcore o.number)
    pure .seq
  | none => pure .seq

def execMcanc (h : BitVec 2) (f g : BitVec 3) (s : State) : Out := runAct clsMat 4 g true (mcancBody h f) s
def execMres (h : BitVec 2) (f g : BitVec 3) (s : State) : Out := runAct clsMat 4 g true (mresBody h f) s

end Sys2Proof.Machine
end

