-- ==== Sys2Proof/Machine/Storage.lean ====
section
/-! DEFINITION. Events of the memories: spills and fills (R43 to R46, R378), register banks (R52), L0 evictions (R180),
translations and page requests (R181 to R184), the memory controllers (R188 to R191) and the host's window (R176). -/

namespace Sys2Proof.Machine

/-! ### Spill and fill -/

/-- A core stops: it issues nothing and sends no heartbeat (R378). -/
def State.stopCore (s : State) (p : Nat) : State := s.modCore p fun c => { c with stopped := true }

/-- CORE_STOP. -/
def execCoreStop (s : State) : Out :=
  match s.arg with
  | .n1 p => .next (s.stopCore p)
  | _ => .next s

/-- Hardware's own read of a vault meets a failing word: it is logged with CTX 0, and the core stops (R378). -/
def State.vaultStop (s : State) (pcore key n : Nat) : Option State :=
  ((wordsOf key n).find? fun k => parityOf (s.err k) != 0).map fun k =>
    let p := (k - Config.vaultBase) / Config.vaultSize
    (s.logEvent (.core p 0) (clusterOf p) 5 (BitVec.ofNat 48 ((k - Config.vaultBase) % Config.vaultSize))
      ((parityOf (s.err k)).setWidth 64 <<< 20) 0 0 0).stopCore pcore

/-- A fill reads a group's values, D bits and error bits (R45). -/
def State.groupStop (s : State) (st : Strand) (g : Nat) : Option State :=
  let base := s.spillKey st
  ((s.vaultStop st.pcore (base + 64 * g) 64).or (s.vaultStop st.pcore (base + 0x2000 + g) 1)).or
    (s.vaultStop st.pcore (base + 0x2080 + g) 1)

/-- A transfer names an entry of a bank in RETENTION: the bank wakes (R52). -/
def State.wakeBank (s : State) (pcore bank : Nat) : State :=
  s.modCore pcore fun c =>
    if c.banks.get .off bank = .retention then { c with banks := c.banks.put .off bank .on, coreWakes := c.coreWakes + 1 } else c

/-- A group of a strand goes to its spill area, and its place in the store is free: one that its strand waits to have
spilled, or one below the window of another's (R43, R44). -/
def State.spillOut (s : State) (sk g waiter : Nat) : State :=
  match s.strand sk with
  | none => s
  | some st =>
    match st.groups.find g with
    | none => s
    | some place =>
    if !(if sk = waiter then st.wait == .spill else 8 * g + 8 ≤ st.w) then s
    else
      let s := (s.wakeBank st.pcore (place / 64)).spillGroup st g
      (s.modStrand sk fun st =>
        { st.bump 0x20A 1 with
          groups := st.groups.erase g, spilled := g :: st.spilled
          stack := st.stack.filter fun kv => kv.1 / 8 != g }).bankStates st.pcore

/-- GROUP_SPILL: group `g` of one strand, for the strand that waits. -/
def execGroupSpill (s : State) : Out :=
  match s.arg with
  | .n3 sk g waiter =>
    let s := (s.spillOut sk g waiter).afterSpill waiter
    .next (if sk = waiter then s else s.afterTransfer sk)
  | _ => .next s

/-- A spilled group comes back to a free place, if there is one. -/
def State.fillIn (s : State) (sk g : Nat) : State :=
  match s.strand sk with
  | none => s
  | some st =>
    match s.freePlace st.pcore with
    | none => s
    | some place =>
      if !st.spilled.contains g then s
      else
        match s.groupStop st g with
        | some s => s
        | none =>
          let st' := s.fillGroup st g
          (s.setStrand { st'.bump 0x20A 1 with groups := st'.groups.insert g place, spilled := st'.spilled.erase g }).bankStates
            st.pcore

/-- GROUP_FILL. -/
def execGroupFill (s : State) : Out :=
  match s.arg with
  | .n3 sk g waiter => .next ((s.fillIn sk g).afterSpill waiter)
  | _ => .next s

/-- LINK_RECORD_SPILL: eight link records go to the spill area, or come back from it. -/
def State.linkTransfer (s : State) (sk mode : Nat) : State :=
  match s.strand sk with
  | none => s
  | some st =>
    if mode = 0 then s.spillLinks st
    else
      let n := Nat.min 8 st.linkSpilled
      match s.vaultStop st.pcore (s.spillKey st + 0x2100 + 8 * (st.linkSpilled - n)) (8 * n) with
      | some s => s
      | none => s.fillLinks st

def execLinkRecordSpill (s : State) : Out :=
  match s.arg with
  | .n3 sk mode waiter => .next ((s.linkTransfer sk mode).afterSpill waiter)
  | _ => .next s

/-! ### Banks and L0 -/

/-- BANK_POWER_OFF: a bank with no group for 1,024 cycles goes OFF and loses its content (R52). -/
def State.bankOff (s : State) (p b : Nat) : State :=
  match (s.core p).bankIdle.find b with
  | none => s
  | some t =>
    if s.cycle < t + 1024 then s
    else s.modCore p fun c => { c with banks := c.banks.put .off b .off, bankIdle := c.bankIdle.erase b }

def execBankPowerOff (s : State) : Out :=
  match s.arg with
  | .n2 p b => .next (s.bankOff p b)
  | _ => .next s

/-- L0_EVICTION: any line, at any time (R180). -/
def execL0Eviction (s : State) : Out :=
  match s.arg with
  | .n2 p key => .next (s.evict p key)
  | _ => .next s

/-! ### Translations (R181 to R184) -/

/-- Does the device hold a translation of a page with the permissions? -/
def State.permits (s : State) (q : PageReq) : Bool :=
  match s.transEntry q.pasid (4096 * q.page) with
  | some e => transGives e q.need
  | none => false

/-- The waits of one page request end with the response; an access whose page is now translated starts afresh. -/
def State.answerPage (s : State) (q : PageReq) (code : BitVec 4) : State :=
  let ans := if code = 0 ∧ s.permits q then none else some (q.page, q.need, code)
  let wake (kv : Nat × Strand) : Nat × Strand :=
    if kv.2.wait = .page q.pasid q.page q.need then
      (kv.1, { kv.2 with wait := .none, pageAns := ans })
    else kv
  let s := { s with strands := s.strands.map wake }
  -- matrix operations and engine commands that are paused go on, and ask again for a page that is not theirs
  let s := s.cores.foldl (fun (s : State) kc =>
    kc.2.ops.foldl (fun (s : State) o =>
      let mine : Bool := match s.strand o.sk with
        | some st => s.pasidOf st.scope == q.pasid
        | none => false
      if o.paused && mine then
        (s.modCore kc.1 fun c =>
          { c with ops := c.ops.map fun x =>
              if x.number = o.number then { x with paused := false, pageAns := ans } else x }).send 0
          .matrixStep (.n2 kc.1 o.number)
      else s) s) s
  s.engines.foldl (fun (s : State) ke =>
    ke.2.inbox.foldl (fun (s : State) c =>
      if c.paused ∧ c.pasid = q.pasid then
        let s := s.modCmd ke.1 c.number fun c => { c with paused := false, pageAns := ans }
        if c.returned then s.send 0 .engineCommandEnd (.n2 ke.1 c.number) else s.kick ke.1
      else s) s) s

/-- Requests leave the list; their waits end with a code. -/
def State.endPages (s : State) (hit : PageReq → Bool) (code : BitVec 4) : State :=
  let done := s.pages.filter hit
  let left : State := { s with pages := s.pages.filter fun q => !hit q }
  (done.foldl (fun (s : State) q => s.answerPage q code) left).sendPages

/-- The IOMMU has answered an access that sends no page request: it is executed again. -/
def State.answerQuiet (s : State) (q : PageReq) : State :=
  { s with
    pages := s.pages.filter (· != q)
    strands := s.strands.map fun kv =>
      if kv.2.wait = .ats q.pasid q.page then (kv.1, { kv.2 with wait := .none, atsAns := some q.page }) else kv }

/-- The answer of the host's IOMMU for the pages that `here` names: the waits end for a page that is now translated with its
permission; another becomes a page request, or after a response of Success ends with XLATE 3. -/
def State.iommuAnswer (s : State) (here : PageReq → Bool) : State :=
  let s := (s.pages.filter fun q => here q && q.stage == .quiet).foldl State.answerQuiet s
  let s := s.endPages (fun q => here q && q.stage != .quiet && q.stage != .pri && (s.permits q || q.stage == .again)) 0
  let asked (q : PageReq) : PageReq := if here q && q.stage == .ats then { q with stage := .pri } else q
  { s with pages := s.pages.map asked }.sendPages

/-- Entries leave the translation store. -/
def State.transGone (s : State) (gone : List TransEntry) : State :=
  { s with trans := s.trans.filter fun e => !gone.contains e, oldTrans := gone ++ s.oldTrans.filter fun e => !gone.contains e }

/-- ATS_COMPLETION: the host's answer is kept; of two entries for one range the newer stands. One without a translation
carries the page. -/
def execAtsCompletion (s : State) : Out :=
  match s.arg with
  | .trans e =>
    let same (x : TransEntry) : Bool := x.pasid == e.pasid && x.vbase == e.vbase && x.logSize == e.logSize
    let s := s.transGone (s.trans.filter same)
    let s := { s with trans := e :: s.trans }
    .next (s.iommuAnswer fun q => transCovers e q.pasid (4096 * q.page))
  | .page pasid page _ => .next (s.iommuAnswer fun q => q.pasid == pasid && q.page == page)
  | _ => .next s

/-- PRI_RESPONSE (R182). Invalid Request ends the waits for its page. After Success the device translates again: from its own
store where that holds the page, else at the IOMMU. Response Failure (code 15) ends the waits for every page, and stops page
requests until the Kiln enables them again. -/
def State.pageResponse (s : State) (pasid : BitVec 20) (page : Nat) (code : BitVec 4) : State :=
  let mine (q : PageReq) : Bool := q.sent && q.pasid == pasid && q.page == page
  let again (q : PageReq) : PageReq := if mine q then { q with stage := .again, sent := false } else q
  if code = 15 then { s with pagesOn := false }.endPages (fun (q : PageReq) => q.stage != PageStage.quiet) 15
  else if code ≠ 0 then s.endPages mine code
  else if (s.transEntry pasid (4096 * page)).isSome then s.endPages mine 0
  else { s with pages := s.pages.map again }.sendPages

/-- The Kiln enables page requests again, and the host allocates page requests to the device: events of their own (log
entry 57). -/
def execPriResponse (s : State) : Out :=
  match s.arg with
  | .page pasid page code => .next (s.pageResponse pasid page code)
  | .flag on => .next { s with pagesOn := on }.sendPages
  | .n1 n => .next { s with pageAlloc := n }.sendPages
  | _ => .next s

/-- Does a store that a strand holds back in an idempotent region go to a translated range of a tenant? -/
def State.heldIn (s : State) (pasid : BitVec 20) (base size : Nat) : Bool :=
  s.strands.any fun kv =>
    (s.scope kv.2.scope).pasid == pasid && (match kv.2.idem with
      | some r => r.stores.any fun h =>
        let off := (h.va.extractLsb' 0 50).toNat
        h.va.extractLsb' 50 4 != 3 && h.key < Config.ioBase && base ≤ off && off < base + size
      | none => false)

/-- Has the invalidation of every page of a region completed? -/
def Token.allGone (t : Token) : Bool :=
  (List.range (2 ^ t.reg.k / 4096)).all fun i =>
    t.gone.any fun g => g.1 ≤ t.reg.base + 4096 * i && t.reg.base + 4096 * i < g.1 + g.2

/-- An invalidation has completed: a migration goes on when those of its whole region have (R226). -/
def State.invalidated (s : State) (pasid : BitVec 20) (base size : Nat) : State :=
  { s with
    invalidations := s.invalidations + 1
    tokens := s.tokens.map fun t =>
      if t.migration = 2 ∧ t.pasid = pasid ∧ t.reg.base < base + size ∧ base < t.reg.base + 2 ^ t.reg.k then
        let t := { t with gone := (base, size) :: t.gone }
        if t.allGone then { t with migration := 3 } else t
      else t }

/-- ATS_INVALIDATION: the matching entries go; lines of host memory in the range are written back and invalidated. The
completion comes once the accesses in flight are performed, and the stores held back that used the range. -/
def State.invalidate (s : State) (pasid : BitVec 20) (vbase logSize : Nat) : State :=
  let hit (e : TransEntry) : Bool :=
    e.pasid == pasid && e.vbase < vbase + 2 ^ logSize && vbase < e.vbase + 2 ^ e.logSize
  let gone := s.trans.filter hit
  let lineGone (key : Nat) : Bool := isHost key && gone.any fun e =>
    let t := s.keyOf e.tbase
    t ≤ key && key < t + 2 ^ e.logSize
  let s := (s.cores.flatMap fun kc => (kc.2.lines.filter fun l => lineGone l.1).map fun l => (kc.1, l.1)).foldl
    (fun s x => s.evict x.1 x.2) s
  s.transGone gone

def execAtsInvalidation (s : State) : Out :=
  match s.arg with
  | .invalidate pasid vbase logSize =>
    let s := s.invalidate pasid vbase logSize
    .next (s.push { due := s.cycle, waits := s.outst, ev := .atsInvalidation, arg := .n3 pasid.toNat vbase logSize })
  | .n3 pasid vbase logSize =>
    let p := BitVec.ofNat 20 pasid
    if s.heldIn p vbase (2 ^ logSize) then .next (s.after 1 .atsInvalidation s.arg) else .next (s.invalidated p vbase (2 ^ logSize))
  | _ => .next s

/-! ### Memory controllers (R188 to R191) -/

/-- Who reads, for the log: an engine by its number, hardware and the host as 0. -/
def memCtx (s : State) (key : Nat) (by_ : MemParty) : Ctx0 :=
  let ctx : BitVec 32 := match by_ with
    | .engine e => BitVec.ofNat 32 (0x80000000 + e)
    | _ => 0
  s.ctxAt ctx 0 key

/-- Where the answer to a memory request goes; the host's, by the I/O die. -/
def partyOf : MemParty → Nat
  | .engine e => engineNode e
  | .core p => unitNode (clusterOf p) 14
  | .host _ => kilnNode

/-- MEMORY_READ: a sector is read at its controller, and the answer leaves. -/
def execMemoryRead (s : State) : Out :=
  match s.arg with
  | .memReq r =>
    let key := blockKey r.off
    match s.readSector key (memCtx s key r.by_) with
    | (s, .ok b) =>
      .next (s.bulk (memoryNode key) (partyOf r.by_) .readReply
        (.memAns { number := r.number, off := key, data := b, desc := s.desc key, fault := none, by_ := r.by_ }))
    | (s, .error t) =>
      .next (s.bulk (memoryNode key) (partyOf r.by_) .readReply (.memAns { number := r.number, off := key, data := 0, desc := 0, fault := some t, by_ := r.by_ }))
  | _ => .next s

/-- A truncated reply to an access of a strand, numbered by the strand: its current instruction meets it (R250; log entry
19). -/
def State.replyCut (s : State) (sk : Nat) (t : Trap) : State := s.modStrand sk fun st => { st with cut := some t.sub }

/-- READ_REPLY: data for a core fill a line of its L0 that it does not hold; an engine's and the host's go to them. -/
def execReadReply (s : State) : Out :=
  match s.arg with
  | .memAns a =>
    match a.by_, a.fault with
    | .core p, none =>
      if ((s.core p).lines.find a.off).isSome then .next s
      else .next ((s.makeRoom p).setLine p a.off { data := a.data, desc := a.desc, dirty := false })
    | .core _, some t => .next (s.replyCut a.number t)
    | _, _ => .next s
  | _ => .next s

/-- The bytes of a sector where the mask is set are replaced. -/
def maskBlock (old new : Block) (mask : BitVec 64) : Block :=
  BitVec.ofNat 512 (ofLe ((List.range 64).map fun i => if mask.getLsbD i then blockByte new i else blockByte old i))

/-- A write of a sector: of all its bytes without reading it; of a part after a read, whose fault stops it (R191). -/
def State.writeSector (s : State) (r : MemReq) : State × Option Trap :=
  let key := blockKey r.off
  let c := memCtx s key r.by_
  if r.byteMask = BitVec.allOnes 64 then (s.putSector c key r.data r.desc, none)
  else
    match s.readSector key c with
    | (s, .ok b) => (s.putSector c key (maskBlock b r.data r.byteMask) none, none)
    | (s, .error t) => (s, some t)

/-- MEMORY_WRITE. -/
def execMemoryWrite (s : State) : Out :=
  match s.arg with
  | .memReq r =>
    let (s, f) := s.writeSector r
    .next (s.bulk (memoryNode (blockKey r.off)) (partyOf r.by_) .writeAcknowledgement
      (.memAns { number := r.number, off := blockKey r.off, data := 0, desc := 0, fault := f, by_ := r.by_ }))
  | _ => .next s

/-- WRITE_ACKNOWLEDGEMENT: the writer learns that its write is performed. -/
def execWriteAcknowledgement (s : State) : Out :=
  match s.arg with
  | .memAns a =>
    match a.by_ with
    | .host _ => .next s
    | .core _ => match a.fault with
      | some t => .next (s.replyCut a.number t)
      | none => .next (s.dropOutst a.number)
    | .engine _ => .next (s.dropOutst a.number)
  | _ => .next s

/-- The ports that lead to the host (R179). -/
inductive HostPort where
  | cxl
  | pcie
  deriving DecidableEq, Repr

/-- The port that an access of host memory takes (R179). -/
def State.hostPort (s : State) (t : Nat) : HostPort :=
  if s.cxlRanges.any fun r => r.1 ≤ t && t < r.1 + r.2 then .cxl else .pcie

/-- HOST_BAR2_ACCESS: the host sets the window or a CXL range (R176, R179), or it reads or writes 8 bytes of the window; a gated module wakes first, and one without power
answers nothing (R34, R176, R367). An offset that no visible sector has is answered by nothing in the manual. -/
def execHostBar2Access (s : State) : Out :=
  match s.arg with
  -- configuration: the base of BAR2, whose low bits are hard-wired to 0, and a range that the host attaches to CXL
  | .word 0 base => .next { s with devwin := base &&& ~~~(BitVec.ofNat 64 (Config.windowSize - 1)) }
  | .n2 base size => .next { s with cxlRanges := (base, size) :: s.cxlRanges }
  | .bar2 off write tag =>
    if s.powerOff then .next s
    else if !isVisible off then .fault .noSuchAddress
    else
      let s := if s.kiln.gated then s.send 0 .wakeSequence .none else s
      match write with
      | none =>
        .next (s.bulk kilnNode (memoryNode off) .memoryRead (.memReq { number := tag, off := off, data := 0, byteMask := 0, desc := none, by_ := .host tag }))
      | some v =>
        let o := off / 8 * 8
        let sh := 8 * (o % 64)
        let r : MemReq :=
          { number := tag, off := off, data := (v.setWidth 512 : Block) <<< sh, byteMask := 0xFF#64 <<< (o % 64), desc := none
            by_ := .host tag, seq := s.hostSeq }
        .next (({ s with hostSeq := s.hostSeq + 1 }).bulk kilnNode (memoryNode off) .memoryWrite (.memReq r))
  | _ => .next s

end Sys2Proof.Machine
end

