-- ==== Sys2Proof/Machine/Saves.lean ====
section
/-! DEFINITION. Pre-emption and context switch (R168, R316 to R320): save records, their place in the save area, and the
return of a saved strand. -/

namespace Sys2Proof.Machine

/-! ### The record (R317) -/

def zeros (n : Nat) : List Byte := List.replicate n 0

/-- The window registers that a mask names, below s. -/
def Saved.names (sv : Saved) : List Nat := (List.range sv.st.s).filter fun i => sv.xmask.getLsbD i
/-- The positions of a record, in its order. -/
def Saved.positions (sv : Saved) : List Nat := List.range sv.st.w ++ sv.names.map (sv.st.w + ·)
def maskList (n : Nat) (m : Nat) : List Nat := (List.range n).filter fun i => m / 2 ^ i % 2 == 1

/-- The mask that names the registers or tiles of a list. -/
def maskOf (l : List Nat) : BitVec 8 := BitVec.ofNat 8 ((l.map fun i => 2 ^ i).foldl (· + ·) 0)

/-- A bitmap of 128 bytes over 1,024 positions (R45). -/
def bitmap (f : Nat → Bool) : List Byte :=
  (List.range 128).map fun j =>
    BitVec.ofNat 8 (((List.range 8).map fun i => if f (8 * j + i) then 2 ^ i else 0).foldl (· + ·) 0)

/-- The 32 bytes of an operation record (R168); `second`: the image is not that of the operation's first tile. -/
def opBytes (o? : Option TileOp) (tile : Nat) : List Byte :=
  match o? with
  | none => zeros 32
  | some o =>
    if o.first.toNat ≠ tile then zeros 28 ++ [2] ++ zeros 3
    else
      leBytes 8 o.aBase ++ leBytes 8 o.bBase ++ leBytes 8 o.ox ++ leBytes 2 (BitVec.ofNat 16 o.k)
        ++ leBytes 2 (BitVec.ofNat 16 o.steps) ++ [if o.state = .suspended then 3 else 1] ++ [0#3 ++ o.shape ++ o.first]
        ++ [o.cause] ++ [o.flags.setWidth 8]

/-- The image of a tile (R168). -/
def tileBytes (t : Tile) (tile : Nat) (ops : List TileOp) : List Byte :=
  let e (i : Nat) : A34 := t.elems.get 0 i
  let ops := ops.filter fun o => o.tiles.contains tile
  ((List.range 256).flatMap fun i => leBytes 4 ((e i).extractLsb' 33 1 ++ (e i).extractLsb' 0 31))
    ++ ((List.range 64).map fun j =>
          BitVec.ofNat 8 (((List.range 4).map fun i => ((e (4 * j + i)).extractLsb' 31 2).toNat * 4 ^ i).foldl (· + ·) 0))
    ++ opBytes ops[0]? tile ++ opBytes ops[1]? tile

/-- A kept queue register: its endpoint word, its partner word, 16 entries. -/
def bindingBytes (b? : Option Binding) : List Byte :=
  match b? with
  | none => zeros 144
  | some b =>
    let w : Word := b.chan.setWidth 64 <<< 4 ||| (BitVec.ofBool b.side).setWidth 64 <<< 3 ||| b.kind.setWidth 64
    leBytes 8 w ++ leBytes 8 (b.pdev ++ b.partner) ++ (List.range 16).flatMap fun i => leBytes 8 (b.words[i]?.getD 0)

/-- The counters of a record, in its order. -/
def perfNumbers : List Nat := (List.range 12).map (0x200 + ·) ++ (List.range 4).map (0x230 + ·)

/-- The open-scope record of 8 bytes. -/
def OpenRec.word (r : OpenRec) : Word :=
  BitVec.ofNat 18 0 ++ BitVec.ofNat 6 r.k ++ BitVec.ofNat 6 r.s ++ BitVec.ofNat 10 r.w ++ r.scope

def Saved.bytes (sv : Saved) : List Byte :=
  let st := sv.st
  let links := st.links.reverse
  let h2 (n : Nat) : List Byte := leBytes 2 (BitVec.ofNat 16 n)
  let member : BitVec 32 := BitVec.ofBool st.saggar ++ BitVec.ofBool st.cancelSeen ++ 0#6 ++ st.scope
  let e (i : Nat) : RegEntry := st.stack.get {} i
  let kept (f : RegEntry → Bool) (i : Nat) : Bool := sv.positions.contains i && f (e i)
  let vs := maskList 16 sv.vmask.toNat
  h2 st.pc.toNat ++ h2 st.w ++ [BitVec.ofNat 8 st.s] ++ [if sv.full then 1 else 0] ++ h2 links.length ++ [st.preds &&& 0xFE]
    ++ [sv.qmask] ++ leBytes 2 sv.vmask ++ [sv.amask] ++ zeros 3 ++ leBytes 4 sv.xmask ++ leBytes 4 member
    ++ leBytes 2 st.vfmt ++ leBytes 2 st.mfmt ++ [st.frm.setWidth 8] ++ [st.fflags.setWidth 8] ++ h2 st.opens.length
    ++ leBytes 8 st.rkey0 ++ leBytes 8 st.rkey1 ++ leBytes 8 st.digest
    ++ leBytes 8 st.ox0 ++ leBytes 8 st.ox1 ++ leBytes 8 st.ox2 ++ leBytes 8 st.ox3
    ++ leBytes 8 st.retired ++ leBytes 8 (st.quantum ++ 0#16 ++ st.qpos)
    ++ leBytes 8 (st.trapcode.setWidth 64 : Word) ++ leBytes 8 st.trappc ++ leBytes 8 st.trapva ++ leBytes 8 st.trapaux
    ++ leBytes 8 (BitVec.ofNat 64 st.weight)
    ++ (perfNumbers.flatMap fun n => leBytes 8 (st.perf.get 0 n))
    ++ (sv.positions.flatMap fun i => leBytes 8 (e i).val) ++ bitmap (kept (·.d)) ++ bitmap (kept (·.ue))
    ++ (links.flatMap fun r => leBytes 8 r.word) ++ (st.opens.reverse.flatMap fun r => leBytes 8 r.word)
    ++ (vs.flatMap fun i => leBytes 64 (st.vregs.get {} i).data) ++ (vs.flatMap fun i => leBytes 2 (st.vregs.get {} i).desc)
    ++ (sv.tiles.flatMap fun t => tileBytes t.2 t.1 sv.ops)
    ++ ((maskList 8 sv.qmask.toNat).flatMap fun q => bindingBytes (st.queues.find q))

/-- A matrix operation as its record in the image of its first tile gives it (R168); none where the record is empty. Its
faulting address, its S and its place among the operations are kept beside the image (log entry 33). `base` is the first
image. -/
def Saved.readOp (sv : Saved) (b : List Byte) (base : Nat) (o : TileOp) : Option TileOp :=
  let j := (sv.tiles.takeWhile fun t => t.1 != o.first.toNat).length
  let i := ((sv.ops.filter fun x => x.tiles.contains o.first.toNat).takeWhile fun x => x.number != o.number).length
  let r := base + 1152 * j + 0x440 + 32 * i
  let w (x : Nat) : Word := BitVec.ofNat 64 (imgNum b (r + x) 8)
  let state := imgNum b (r + 0x1C) 1
  if state ≠ 1 ∧ state ≠ 3 then none
  else some { o with
    aBase := w 0, bBase := w 8, ox := w 0x10, k := imgNum b (r + 0x18) 2, steps := imgNum b (r + 0x1A) 2
    state := if state = 3 then .suspended else .running, shape := BitVec.ofNat 2 (imgNum b (r + 0x1D) 1 / 8)
    first := BitVec.ofNat 3 (imgNum b (r + 0x1D) 1), cause := BitVec.ofNat 8 (imgNum b (r + 0x1E) 1)
    flags := BitVec.ofNat 6 (imgNum b (r + 0x1F) 1), paused := false, pageAns := none, la := 0, lb := 0 }

/-- An open-scope record as its word in the record gives it; its stock is kept beside the image (log entry 33). -/
def OpenRec.read (r : OpenRec) (w : Word) : OpenRec :=
  { r with scope := w.extractLsb' 0 24, w := (w.extractLsb' 24 10).toNat, s := (w.extractLsb' 34 6).toNat
           k := (w.extractLsb' 40 6).toNat }

/-- What a restore reads back from a record. Positions the save did not name hold free values, their D bits too; their
error state is clear (R58; log entries 2 and 50). The record has no place for an error of a vector register or a tile, which
is sound afterwards (R143; log entry 33). -/
def Saved.read (sv : Saved) (b : List Byte) (fresh : Nat) : Saved × Nat :=
  let w (o : Nat) : Word := BitVec.ofNat 64 (imgNum b o 8)
  let st := sv.st
  let ps := sv.positions
  let nl := imgNum b 6 2
  let nv := maskList 16 sv.vmask.toNat
  let oBits := 0x110 + 8 * ps.length
  let oLinks := oBits + 256
  let oVec := oLinks + 8 * nl + 8 * imgNum b 0x1E 2
  let oDesc := oVec + 64 * nv.length
  let oTile := oDesc + 2 * nv.length
  let bit (base i : Nat) : Bool := imgNum b (base + i / 8) 1 / 2 ^ (i % 8) % 2 == 1
  let lost := (List.range st.s).filter fun i => !sv.xmask.getLsbD i
  let stack := (List.range ps.length).foldl (fun (m : Assoc RegEntry) j =>
    let i := ps[j]?.getD 0
    m.put {} i { val := w (0x110 + 8 * j), d := bit oBits i, lost := bit (oBits + 128) i }) []
  let stack := (List.range lost.length).foldl (fun (m : Assoc RegEntry) j =>
    m.put {} (st.w + lost[j]?.getD 0)
      { val := Config.freeWord (fresh + 2 * j), d := (Config.freeWord (fresh + 2 * j + 1)).getLsbD 0 }) stack
  let fresh := fresh + 2 * lost.length
  let preds := (BitVec.ofNat 8 (imgNum b 8 1) &&& sv.pmask) ||| ((Config.freeWord fresh).setWidth 8 &&& ~~~sv.pmask &&& 0xFE)
  let fresh := fresh + 1
  let lostV := if st.vset then (List.range 16).filter fun i => !nv.contains i else []
  let vregs := (List.range nv.length).foldl (fun (m : Assoc VReg) j =>
    m.put {} (nv[j]?.getD 0)
      { data := BitVec.ofNat 512 (imgNum b (oVec + 64 * j) 64), desc := BitVec.ofNat 16 (imgNum b (oDesc + 2 * j) 2) }) []
  let free (k : Nat) : VReg :=
    { data := BitVec.ofNat 512 (ofLe ((List.range 8).flatMap fun i => leBytes 8 (Config.freeWord (fresh + 9 * k + i))))
      desc := (Config.freeWord (fresh + 9 * k + 8)).setWidth 16 }
  let vregs := (List.range lostV.length).foldl (fun (m : Assoc VReg) k => m.put {} (lostV[k]?.getD 0) (free k)) vregs
  let fresh := fresh + 9 * lostV.length
  let tile (j : Nat) : Assoc A34 := (List.range 256).foldl (fun (m : Assoc A34) i =>
    let lo : BitVec 32 := BitVec.ofNat 32 (imgNum b (oTile + 1152 * j + 4 * i) 4)
    let hi : BitVec 2 := BitVec.ofNat 2 (imgNum b (oTile + 1152 * j + 0x400 + i / 4) 1 / 4 ^ (i % 4))
    m.put 0 i (lo.extractLsb' 31 1 ++ hi ++ lo.extractLsb' 0 31)) []
  let tiles := (List.range sv.tiles.length).filterMap fun j => sv.tiles[j]?.map fun t => (t.1, { t.2 with elems := tile j, flip := [] })
  let member : BitVec 32 := BitVec.ofNat 32 (imgNum b 0x14 4)
  let st := { st with
    pc := (st.pc &&& 0x10000) ||| (evenPc (BitVec.ofNat 16 (imgNum b 0 2))).setWidth 17, preds := preds, stack := stack, vregs := vregs, saggar := member.getLsbD 31
    cancelSeen := member.getLsbD 30, vfmt := BitVec.ofNat 16 (imgNum b 0x18 2), mfmt := BitVec.ofNat 16 (imgNum b 0x1A 2)
    frm := BitVec.ofNat 2 (imgNum b 0x1C 1), fflags := BitVec.ofNat 6 (imgNum b 0x1D 1), rkey0 := w 0x20, rkey1 := w 0x28
    digest := w 0x30, ox0 := w 0x38, ox1 := w 0x40, ox2 := w 0x48, ox3 := w 0x50, retired := w 0x58
    quantum := BitVec.ofNat 32 (imgNum b 0x64 4), qpos := BitVec.ofNat 16 (imgNum b 0x60 2)
    trapcode := BitVec.ofNat 16 (imgNum b 0x68 2), trappc := w 0x70, trapva := w 0x78, trapaux := w 0x80
    perf := (List.range 16).foldl (fun (m : Assoc Word) j => m.insert (perfNumbers[j]?.getD 0) (w (0x90 + 8 * j))) st.perf
    weight := (w 0x88).toNat
    opens := ((List.range st.opens.length).filterMap fun j =>
      (st.opens.reverse[j]?).map fun r => r.read (w (oLinks + 8 * nl + 8 * j))).reverse
    links := ((List.range nl).map fun j => LinkRec.ofWord (w (oLinks + 8 * j))).reverse }
  ({ sv with st := st, tiles := tiles, ops := sv.ops.filterMap (sv.readOp b oTile) }, fresh)

/-! ### The save area -/

/-- The bytes of the save area of a scope: to the end of the region it begins in. -/
def State.areaSize (s : State) (b : Scb) : Nat :=
  let off := (b.savearea.extractLsb' 0 50).toNat
  match s.covering b.pasid false off with
  | some t => t.reg.base + 2 ^ t.reg.k - off
  | none => 2 ^ 50 - off

/-- Writes the records of a scope into its area, one after another in slot order; each keeps the place it got. -/
def State.layRecords (s : State) (top : ScopeId) : State :=
  let b := s.scope top
  let mine := s.kiln.saves.filter fun kv => kv.2.top = top
  let sorted := (mine.map (·.2.pos)).mergeSort.filterMap fun p => mine.find? fun kv => kv.2.pos = p
  (sorted.foldl (fun (acc : State × Nat) kv =>
    let s := acc.1
    let o := acc.2
    let bs := kv.2.bytes
    let put (s : State) (off : Option Nat) : State :=
      s.modKiln fun k => { k with saves := k.saves.insert kv.1 { kv.2 with off := off } }
    let write : Act Unit :=
      if o + bs.length ≤ s.areaSize b then writeVa b.pasid (b.savearea + BitVec.ofNat 64 o) bs else raise { code := .xlate }
    match write.go s with
    | (.ok (), s) => (put s (some o), o + bs.length)
    | (.error _, s) =>
      -- the area is too small, or cannot be written (log entry 58): the save of the scope stops, and it is not resumed
      let s := put s none
      let s := if s.kiln.noResume.contains top then s
        else (s.modScb top fun b => { b with faulted := true }).report 0 b.fdom [top.setWidth 64]
      ((s.modKiln fun k => { k with noResume := top :: k.noResume.filter (· != top) }), o)) (s, 0)).1

/-! ### Saving a strand (R316) -/

/-- Every position and link record of a strand is in its slot: the spilled ones are read back; none where a word of the
area is bad, which stops the core. -/
def State.wholeStrand (s : State) (st : Strand) : Except State Strand :=
  match (st.spilled.findSome? fun g => s.groupStop st g).or
      (if st.linkSpilled = 0 then none else s.vaultStop st.pcore (s.spillKey st + 0x2100) (8 * st.linkSpilled)) with
  | some s => .error s
  | none =>
    let st' := st.spilled.foldl (fun st g => s.fillGroup st g) st
    let links := (List.range st.linkSpilled).map fun i =>
      LinkRec.ofWord (s.word (s.spillKey st + 0x2100 + 8 * (st.linkSpilled - 1 - i)))
    .ok { st' with links := st.links ++ links, linkSpilled := 0, spilled := [] }

/-- The tokens a strand owns are parked with its scope; which ones, for its return (R319). -/
def State.parkFor (s : State) (st : Strand) : List (Word × BitVec 20) × State :=
  let p := strandParty st.handle
  ((s.tokens.filter fun t => t.owner = p).map fun t => (t.region, t.pasid), s.parkTokens st)

/-- What a point of the side table names (R110). -/
structure SaveMasks where
  full : Bool := true
  pmask : BitVec 8 := 0xFF
  qmask : BitVec 8 := 0xFF
  xmask : BitVec 32 := 0xFFFFFFFF
  vmask : BitVec 16 := 0xFFFF
  amask : BitVec 8 := 0xFF
  deriving DecidableEq, Repr

def State.pointOf (s : State) (st : Strand) : Option SaveMasks :=
  match s.images.find st.image with
  | none => none
  | some im =>
    (im.points.find? fun e => e.1.setWidth 17 == st.pc).map fun e => ⟨false, e.2.1, e.2.2.1, e.2.2.2.1, e.2.2.2.2.1, e.2.2.2.2.2⟩

/-- The save reads the registers it names: their banks wake (R52, R58), and errors of a single bit are corrected (R53). -/
def State.readForSave (s : State) (st : Strand) (m : SaveMasks) : State :=
  let s := (s.setStrand { st with wait := .none }).bankStates st.pcore
  let s := (List.range st.w ++ ((List.range st.s).filter fun i => m.xmask.getLsbD i).map (st.w + ·)).foldl
    (fun s pos => s.scrubX st.sk pos) s
  let s := ((List.range 16).filter fun v => m.vmask.getLsbD v).foldl (fun s v => s.scrubV st.sk v) s
  ((s.core st.pcore).tiles.filter fun t => t.2.holder = some st.sk && m.amask.getLsbD t.1).foldl
    (fun s t => s.scrubTile st t.1) s

/-- The strand leaves its slot as a save record. It has no access in flight and is in no idempotent region. -/
def State.saveStrand (s : State) (top : ScopeId) (st0 : Strand) (m : SaveMasks) : State :=
  let s := s.readForSave st0 m
  match s.wholeStrand ((s.strand st0.sk).getD st0) with
  | .error s => s
  | .ok st =>
    let s := s.setStrand st
    let co := s.core st.pcore
    let tiles := co.tiles.filter fun t => t.2.holder = some st.sk && m.amask.getLsbD t.1
    let ops := co.ops.filter fun o => o.sk = st.sk && o.tiles.all fun t => m.amask.getLsbD t
    let s := ((st.queues.map (·.1)).filter fun q => !m.qmask.getLsbD q).foldl (fun s q => s.unbind st.sk q) s
    let st := (s.strand st.sk).getD st
    let (parked, s) := s.parkFor st
    let s := s.flushOwned st
    let s := if st.nrank = 1 then s else s.withdraw st
    let s := ((s.freeTiles st.sk).dropStrand st.sk).workLeaves st.cluster
    let named : BitVec 32 := BitVec.ofNat 32 (2 ^ st.s - 1)
    let n := freeKey s.kiln.saves
    let c := st.context 1 st.pc
    let sv : Saved :=
      { top := top, full := m.full, pmask := m.pmask, qmask := maskOf (st.queues.map (·.1)), vmask := if st.vset then m.vmask else 0
        amask := maskOf (tiles.map (·.1)), xmask := m.xmask &&& named, st := st, tiles := tiles, ops := ops, parked := parked
        lcore := s.logical st.pcore, ctx := { c with restore := some n }, pos := st.sk }
    let s := s.modKiln fun k => { k with saves := k.saves.insert n sv }
    ((s.bankStates st.pcore).layRecords top).send 0 .admission (.n1 st.pcore)

/-- The scope of the switch that a strand of a scope is saved for: the highest SAVED scope above it. -/
def State.switchOf (s : State) (scope : ScopeId) : ScopeId :=
  ((s.ancestors scope).filter fun a => (s.scope a).saved).getLastD scope

/-- PREEMPTION_SAVE: a listed save at a point of the side table, a full one at the limit; what has issued ends first. -/
def State.preemptSave (s : State) (sk : Nat) : State :=
  match s.strand sk with
  | none => s
  | some st =>
    let s := s.commitIdem st
    let st := (s.strand sk).getD st
    if !st.pend.isEmpty then s.setStrand { st with wait := .drain }
    else if st.moves.any s.outst.contains then s.setStrand { st with wait := .fence 2 }
    else if s.transferring sk then s.setStrand { st with wait := .transfer }
    else s.saveStrand (s.switchOf st.scope) st ((s.pointOf st).getD {})

def execPreemptionSave (s : State) : Out :=
  match s.arg with
  | .strand sk h _ => if (s.waiter sk h).isSome then .next (s.preemptSave sk) else .next s
  | _ => .next s

/-! ### A request (R316, R320) -/

/-- Is the instruction's wait for an answer one that is executed again after a save (R276, R277, R327), or that for a reading
which changes nothing? -/
def sendsAgain : Instr → Bool
  | .send _ _ _ _ | .sendr _ _ _ _ _ | .steal _ _ _ | .tqry _ _ _ | .sres _ _ _ _ | .scanc _ _ => true
  | _ => false

/-- The command of a strand that its inbox has refused, and that waits at the core to be sent again (R253, R283). -/
def State.backedOff (s : State) (st : Strand) : Option EngCmd :=
  s.agenda.findSome? fun p => match p.arg with
    | .refused _ (.cmd c) => if p.ev == .sendResend && st.wait == .reply c.number && c.node.isNone then some c else none
    | _ => none

/-- Such a command is withdrawn when its strand is saved, since it is issued again after the restore (R267, R283): its weight
and its collective step come back, and its tokens return (log entry 33). -/
def State.withdrawCmd (s : State) (st : Strand) : State :=
  match s.backedOff st with
  | none => s
  | some c =>
    let s := { s with agenda := s.agenda.filter fun p => !(p.ev == Instr.sendResend && (match p.arg with
      | .refused _ (.cmd x) => x.number == c.number
      | _ => false)) }
    let s := s.modStrand st.sk fun st =>
      { st with cmds := st.cmds.filter (· != c.number), collStep := if c.op = 3 then st.collStep - 1 else st.collStep }
    ((s.giveBack st.sk st.handle c.scope c.lcore c.weight.toNat).returnLent c).1

/-- Is the strand blocked so that a request saves it at once? One in a trap handler waits for its ERET. -/
def State.savesNow (s : State) (st : Strand) : Bool :=
  let blocked : Bool := match st.wait with
    | .queueIn _ | .queueOut _ | .word _ | .point _ | .sleep _ | .token _ _ | .page _ _ _ | .ats _ _ | .closing | .reclaim _ | .silent _ _ _
    | .fence _ _ | .refill
    | .tile | .transfer => !s.ready st
    | .reply _ => (s.backedOff st).isSome || (match s.fetch st.pcore st.pc with
      | .instr i _ => sendsAgain i
      | _ => false)
    | _ => false
  blocked && (st.trapDepth == 0 || st.dying) && st.answer.isNone && st.raised.isNone && st.late.isEmpty && st.pend.isEmpty
    && !(st.moves.any s.outst.contains) && !s.transferring st.sk

/-- A context in a queue is saved as it stands. -/
def State.saveCtx (s : State) (top : ScopeId) (p i : Nat) (c : Ctx) : State :=
  let n := freeKey s.kiln.saves
  let c' := { c with kind := 1, origin := if c.kind = 1 then c.origin else 0, restore := some n }
  let sv : Saved :=
    { top := top, xmask := 0xFF, qmask := 0, vmask := 0, amask := 0, st := ctxStrand c, lcore := s.logical p, ctx := c'
      pos := 16384 + 512 * p + i }
  match c.restore.bind s.kiln.saves.find with
  | some old =>
    -- a restored strand that has not been admitted keeps its record
    s.modKiln fun k => { k with saves := k.saves.insert (c.restore.getD 0) { old with top := top } }
  | none => (s.modKiln fun k => { k with saves := k.saves.insert n sv }).layRecords top

/-- The contexts of a scope leave a core's queues for the save area. -/
def State.saveQueues (s : State) (top : ScopeId) (p : Nat) : State :=
  let co := s.core p
  let mine (c : Ctx) : Bool := s.under top c.scope
  let all := (co.arrival ++ co.overflow ++ co.deque).filter mine
  if all.isEmpty then s
  else
    let keep (l : List Ctx) : List Ctx := l.filter fun c => !mine c
    let s := s.modCore p fun c => { c with arrival := keep c.arrival, overflow := keep c.overflow, deque := keep c.deque }
    let s := (co.arrival.filter mine).foldl (fun s _ => s.refillLater p none) (s.workLeaves (clusterOf p))
    (List.range all.length).foldl (fun s i => match all[i]? with
      | some c => s.saveCtx top p i c
      | none => s) s

/-- PREEMPTION_REQUEST reaches every strand of a scope and of those below it. -/
def State.preempt (s : State) (top : ScopeId) : State :=
  let mine := s.strands.filter fun kv => s.under top kv.2.scope
  let s := mine.foldl (fun (s : State) kv =>
    match s.strand kv.1 with
    | none => s
    | some st =>
      if s.savesNow st then
        let s := (s.withdrawCmd st).commitIdem st
        match s.strand kv.1 with
        | some st => if st.pend.isEmpty then s.saveStrand top st {} else s.setStrand { st with wait := .drain, preempt := some 0 }
        | none => s
      else if st.preempt.isNone then s.setStrand { st with preempt := some 0 }
      else s) s
  (s.cores.map (·.1)).foldl (fun s p => s.saveQueues top p) s

def execPreemptionRequest (s : State) : Out :=
  match s.arg with
  | .scopeAt scope _ => .next (s.preempt scope)
  | _ => .next s

/-- Is no strand or context of a scope left, in a slot, in a queue or on its way? -/
def State.allSaved (s : State) (top : ScopeId) : Bool :=
  let ctx (c : Ctx) : Bool := s.under top c.scope
  let payload (a : Payload) : Bool := match a with
    | .ctx _ _ c | .sentTo _ _ _ c => ctx c
    | .stolen _ _ _ (some c) => ctx c
    | .load r => s.under top r.scope
    | _ => false
  !(s.strands.any fun kv => s.under top kv.2.scope) && !(s.cores.any fun kv => (kv.2.arrival ++ kv.2.overflow ++ kv.2.deque).any ctx)
    && !(s.agenda.any fun p => payload p.arg) && !(s.domains.any fun kv => kv.2.held.any fun x => payload x.2)

/-! ### Restore (R318) -/

/-- The kept bindings of a record are released, as its strand would release them (R240). -/
def State.releaseSaved (s : State) (n : Nat) (sv : Saved) : State :=
  let s := s.modKiln fun k => { k with saves := k.saves.insert n { sv with qmask := 0, st := { sv.st with queues := [] } } }
  sv.st.queues.foldl (fun s qb =>
    let b := qb.2
    if b.kind = 0 then s.returnCredits b.num b.credits
    else if b.kind = 1 then b.requests.foldl (fun s e => s.answerCredit sv.lcore e.1 e.2.1 0 true) s
    else if b.kind = 4 ∨ b.kind = 5 then s.leavePair b
    else s) s

/-- PREEMPTION_RESTORE: a record that cannot be read, or whose reserved bytes are not 0 (R7), is lost with its strand (log
entry 58); any other becomes a migration context. It goes to its original core where it kept a queue binding (R242), and where
that core still serves the launch; else the Wheel chooses, and what it kept is released (log entry 33). -/
def State.restore (s : State) (n : Nat) : State :=
  match s.kiln.saves.find n with
  | none => s
  | some sv =>
    let b := s.scope sv.top
    let read : Act (List Byte) := match sv.off with
      | none => raise { code := .xlate }
      | some o => do
        let bs ← readVa b.pasid (b.savearea + BitVec.ofNat 64 o) sv.bytes.length
        if imgNum bs 0xD 3 = 0 then pure bs else raise { code := .xlate }
    match read.go s with
    | (.error _, s) => ((s.modKiln fun k => { k with saves := k.saves.erase n }).drainOpens sv.st).ctxDies sv.lcore sv.ctx
    | (.ok bs, s) =>
      let (sv, fresh) := sv.read bs s.fresh
      let s := ({ s with fresh := fresh }).modKiln fun k => { k with saves := k.saves.insert n sv }
      let keeps : Bool := !sv.st.queues.isEmpty && !s.isRetired sv.lcore
      let named : Option Nat :=
        if keeps || ((s.physical sv.lcore).isSome && s.ofLaunch sv.st.scope sv.lcore) then some sv.lcore else none
      let s := if named.isNone then s.releaseSaved n sv else s
      s.sendPlacement 512 0 (sv.lcore / 16) named sv.ctx

def execPreemptionRestore (s : State) : Out :=
  match s.arg with
  | .n1 n => .next (s.restore n)
  | _ => .next s

end Sys2Proof.Machine
end

