-- ==== Sys2Proof/Machine/HostCmds.lean ====
section
/-! DEFINITION. The host's commands (R226, R311, R319, R346, R351, R355, R405, R411, R412), each with the completion record of
R356. Their arguments are the words of ARGS in the order R355 lists them (log entry 17). -/

namespace Sys2Proof.Machine

/-! ### Shared -/

def hostArg (c : HostCmd) (i : Nat) : Word := c.args[i]?.getD 0

/-- The command is done, with a code. -/
def State.answerHost (s : State) (c : HostCmd) (code : BitVec 15) : State := s.complete c.compl c.tag c.deadline code 0 0 0

def badCommand : BitVec 15 := 10

/-- The root scope of a tenant. -/
def State.root (s : State) (tenant : BitVec 12) : Option Scb :=
  ((s.kiln.tenants.find? fun t => t.1 = tenant).map (·.2)).bind s.scb

/-- A scope that the tenant of a command owns. -/
def State.ownScope (s : State) (c : HostCmd) (w : Word) : Option Scb :=
  if w.extractLsb' 24 40 ≠ 0 then none
  else (s.scb (w.setWidth 24)).bind fun b => if b.tenant = c.tenant then some b else none

/-- Runs a host command that its tenant's root must stand for. -/
def runHost (f : HostCmd → Scb → Nat → State → State) (s : State) : Out :=
  match s.arg with
  | .host c phase =>
    match s.root c.tenant with
    | some r => .next (f c r phase s)
    | none => .next (s.answerHost c badCommand)
  | _ => .next s

/-! ### LAUNCH (R311, R330, R355) -/

/-- The eight words of a block at an address of a tenant, none for address 0, or the code of a read that fails. -/
def State.wordsAt (s : State) (pasid : BitVec 20) (va : Word) : State × Except (BitVec 15) (List Word) :=
  if va = 0 then (s, .ok [])
  else match (readVa pasid va 64).go s with
    | (.ok bs, s) => (s, .ok ((List.range 8).map fun i => wordOf ((bs.drop (8 * i)).take 8)))
    | (.error (.trap t), s) => (s, .error (codeOf t))
    | (.error _, s) => (s, .error 4)

/-- The load and the scope block that a LAUNCH describes, or its completion code. The scope copies the root's fields,
takes TIER and DEADLINE of the entry, then the overrides of its block (R295, R405). -/
def State.launchOfCmd (s : State) (c : HostCmd) (r : Scb) : State × Except (BitVec 15) (LoadReq × Scb) :=
  let cores := hostArg c 1
  let ctl := hostArg c 2
  let first := (cores.extractLsb' 0 9).toNat
  let n := (cores.extractLsb' 9 10).toNat
  let va := hostArg c 8
  if cores.extractLsb' 19 45 ≠ 0 ∨ ctl.extractLsb' 8 56 ≠ 0 ∨ n = 0 ∨ 512 < n ∨ 512 < first + n ∨ va.toNat % 64 ≠ 0 then (s, .error 10)
  else
    match s.wordsAt r.pasid va, s.freeScope (first / 16) with
    | (s, .error e), _ => (s, .error e)
    | (s, _), none => (s, .error 10)
    | (s, .ok blk), some id =>
      let b := { r.child id 0 0 with tier := c.tier.setWidth 2, deadline := c.deadline, pweight := Config.refillWeight }
      if !blk.isEmpty && (sopenBad blk).isSome then (s, .error 10)
      else
        let b := if blk.isEmpty then b else b.overridden blk
        let m := if blk.isEmpty then List.replicate 8 0 else blk
        if !b.within r m (c.tenant == 0) then (s, .error 10)
        else
          let q : LoadReq :=
            { image := hostArg c 0, first := first, count := n, entry := (ctl.extractLsb' 0 8).toNat
              args := (List.range 4).map fun i => hostArg c (4 + i), compl := 0, scope := id, member := false, weight := 0
              pasid := r.pasid, tenant := c.tenant, sk := 0, issuer := 0
              skip := c.skip }
          (s, .ok (q, b))

/-- The sums of R311: the minimums of admitted launches on a core or a cluster, with those of a new one. -/
def State.coneSum (s : State) (f : Scb → BitVec 16) (here : Launch → Bool) : Nat :=
  (s.launches.filter fun kv => here kv.2).foldl (fun n kv => n + (f (s.scope (BitVec.ofNat 24 kv.1))).toNat) 0

/-- May the launch be admitted: the sums of R311, and at most 255 launches with a flit or memory minimum on a cluster
(R375)? -/
def State.admits (s : State) (q : LoadReq) (b : Scb) : Bool :=
  let clusters := ((loadCores q).map (· / 16)).eraseDups
  let inCluster (cl : Nat) (l : Launch) : Bool := ((List.range 16).map (16 * cl + ·)).any l.has
  !s.noAdmit
    && ((loadCores q).all fun l => s.coneSum (·.issmin) (·.has l) + b.issmin.toNat ≤ 7168)
    && clusters.all fun cl =>
        s.coneSum (·.fltmin) (inCluster cl) + b.fltmin.toNat ≤ 7168 && s.coneSum (·.memmin) (inCluster cl) + b.memmin.toNat ≤ 7168
          && (!b.ownCone || s.coneSum (fun x => if x.ownCone then 1 else 0) (inCluster cl) < 255)

/-- The launch scope begins, a member of the root, and the loader gets the image. -/
def State.beginLaunch (s : State) (c : HostCmd) (r : Scb) (q : LoadReq) (b : Scb) : State :=
  let s := s.modScb r.id fun r => { r with outw := r.outw + Config.refillWeight, issued := r.issued + Config.refillWeight }
  let s := s.beginScope b
  let s := { s with
    domains := s.domains.map fun kv => if kv.1 = b.id.toNat then (kv.1, { kv.2 with started := false }) else kv
    launches := s.launches.insert b.id.toNat
      { first := q.first, count := q.count, compl := c.compl, tag := c.tag, deadline := c.deadline, tenant := c.tenant } }
  let s := ((loadCores q).map (· / 16)).eraseDups.foldl (fun (s : State) cl =>
    let s := (((List.range 17).map (17 * cl + ·)).filter fun p => (s.core p).gated).foldl
      (fun s p => s.modCore p fun x => { x with gated := false }) s
    if (s.cluster cl).gated then s.modCluster cl fun x => { x with gated := false } else s) s
  s.send 0 .imageLoad (.load q)

/-- LAUNCH: it waits while its cone minimums cannot be admitted (R266, R311). -/
def State.launch (c : HostCmd) (r : Scb) (phase : Nat) (s : State) : State :=
  match s.launchOfCmd c r with
  | (s, .error e) => s.answerHost c e
  | (s, .ok (q, b)) => if s.admits q b then s.beginLaunch c r q b else s.after Config.retryWait .launch (.host c phase)

def execLaunch (s : State) : Out := runHost State.launch s

/-! ### CANCEL, SWITCH_OUT, SWITCH_IN, NOP -/

/-- CANCEL: a scope of the tenant. -/
def State.hostCancel (c : HostCmd) (_r : Scb) (_phase : Nat) (s : State) : State :=
  match s.ownScope c (hostArg c 0) with
  | some b => (s.cancelScope b.id).answerHost c 0
  | none => s.answerHost c badCommand

def execCancel (s : State) : Out := runHost State.hostCancel s

def State.setSaved (s : State) (top : ScopeId) (v : Bool) : State :=
  (s.descendants top).foldl (fun s d => s.modScb d fun b => { b with saved := v }) s

/-- SWITCH_OUT: SAVED, then the pre-emption; done when every strand of the scope has its record (R319). -/
def State.switchOut (c : HostCmd) (_r : Scb) (phase : Nat) (s : State) : State :=
  match s.ownScope c (hostArg c 0) with
  | none => s.answerHost c badCommand
  | some b =>
    let again (s : State) : State := s.after Config.retryWait .switchOut (.host c 1)
    if phase = 0 then
      if b.saved then s.answerHost c badCommand
      else again ((s.setSaved b.id true).send 0 .preemptionRequest (.scopeAt b.id 0))
    else if s.kiln.noResume.contains b.id then s.answerHost c badCommand
    else if s.allSaved b.id then (s.layRecords b.id).answerHost c 0
    else again ((s.setSaved b.id true).preempt b.id)

def execSwitchOut (s : State) : Out := runHost State.switchOut s

/-- SWITCH_IN: SAVED is cleared and every record restored (R318, R319). -/
def State.switchIn (c : HostCmd) (_r : Scb) (_phase : Nat) (s : State) : State :=
  match s.ownScope c (hostArg c 0) with
  | none => s.answerHost c badCommand
  | some b =>
    let busy := s.agenda.any fun p => match p.ev, p.arg with
      | .switchOut, .host d _ => d.args.head? = some (hostArg c 0)
      | _, _ => false
    if !b.saved ∨ busy ∨ s.switchOf b.id ≠ b.id ∨ s.kiln.noResume.contains b.id then s.answerHost c badCommand
    else
      let s := s.setSaved b.id false
      let s := (s.kiln.saves.filter fun kv => kv.2.top = b.id).foldl (fun (s : State) kv =>
        s.send 0 .preemptionRestore (.n1 kv.1)) s
      let s := (s.cores.map (·.1)).foldl (fun s p => s.send 0 .admission (.n1 p)) s
      s.answerHost c 0

def execSwitchIn (s : State) : Out := runHost State.switchIn s

/-- NOP. -/
def State.hostNop (c : HostCmd) (_r : Scb) (_phase : Nat) (s : State) : State := s.answerHost c 0

def execNopCommand (s : State) : Out := runHost State.hostNop s

/-! ### Regions (R226, R346) -/

/-- The entries that a token directory can hold (R345). -/
def directorySize : Nat := 2 ^ 24

/-- REGION_CREATE: region word, KEYID, INTEG, scope or 0. The tag area of an integrity region is where the manual does not
say: a free value; what the region holds already gets its tags there (log entry 61). The parts of a vault that hardware uses
are no region (R175). -/
def State.regionCreate (c : HostCmd) (r : Scb) (_phase : Nat) (s : State) : State :=
  let scope := hostArg c 3
  match decodeRegion (hostArg c 0) with
  | none => s.answerHost c badCommand
  | some reg =>
    if reg.system ∨ (hostArg c 1).extractLsb' 12 52 ≠ 0 ∨ 1#64 < hostArg c 2 ∨ (scope ≠ 0 ∧ (s.ownScope c scope).isNone)
        ∨ !(s.tokensMeeting r.pasid reg).isEmpty then s.answerHost c badCommand
    else if directorySize ≤ s.tokens.length then s.answerHost c 5
    else
      let integ : Bool := hostArg c 2 == 1
      let (tag, s) := if integ then s.freeWord else (0, s)
      let t : Token :=
        { region := reg.dirWord, pasid := r.pasid, keyid := (hostArg c 1).setWidth 12, integ := integ
          state := if scope = 0 then .free else .held
          owner := if scope = 0 then nobody else scopeParty (scope.setWidth 24), tagbase := tag }
      let s : State := { s with tokens := s.tokens ++ [t] }
      ({ s with badTags := s.badTags.filter fun k => !(integ && s.lineIn reg r.pasid k) }).answerHost c 0

def execRegionCreate (s : State) : Out := runHost State.regionCreate s

/-- REGION_DESTROY: a FREE token, or a HELD one parked with a scope. -/
def State.regionDestroy (c : HostCmd) (r : Scb) (_phase : Nat) (s : State) : State :=
  match (decodeRegion (hostArg c 0)).bind fun reg => (s.token reg r.pasid).map fun t => (reg, t) with
  | none => s.answerHost c badCommand
  | some (reg, t) =>
    if t.state = .free ∨ (t.state = .held ∧ t.owner.kind = .scope) then
      ((s.invalidateAll reg r.pasid true).dropToken reg r.pasid).answerHost c 0
    else s.answerHost c badCommand

def execRegionDestroy (s : State) : Out := runHost State.regionDestroy s

/-- How the copy of a migration ends: all sectors are copied, one cannot be read, or its page is not there. -/
inductive Copied where
  | all
  | fault (code : BitVec 15)
  | page (sector : Nat)
  deriving DecidableEq, Repr

/-- Copies a region's sectors to a new backing, with descriptors and integrity tags, from sector `i` on; a sector that cannot
be read stops the copy with its code, and one whose page is missing pauses it (R183). -/
def State.copyBacking (s : State) (t : Token) (pasid : BitVec 20) (base new : Nat) : Nat → Nat → State × Copied
  | 0, _ => (s, .all)
  | n + 1, i =>
    match (s.transEntry pasid (base + 64 * i)).filter (transGives · 1) with
    | none => (s, .page i)
    | some e =>
      let key := s.keyOf (e.tbase + (base + 64 * i - e.vbase))
      let c : Ctx0 := { pasid := pasid, keyid := t.keyid, integ := t.integ }
      match if isHost key then (s, .ok (s.block key)) else s.readSector key c with
      | (s, .error e) => (s, .fault (codeOf e))
      | (s, .ok b) => (s.putSector c (new + 64 * i) b (some (s.desc key))).copyBacking t pasid base new n (i + 1)

/-- Does no page of a region translate to its old backing any more? -/
def State.moved (s : State) (pasid : BitVec 20) (base new size : Nat) : Bool :=
  (List.range (size / 4096)).all fun i =>
    match s.transEntry pasid (base + 4096 * i) with
    | none => true
    | some e => s.keyOf (e.tbase + (base + 4096 * i - e.vbase)) == new + 4096 * i

/-- Changes the tokens of a region and of the sherds in it. -/
def State.modInside (s : State) (r : Region) (pasid : BitVec 20) (f : Token → Token) : State :=
  { s with tokens := s.tokens.map fun t =>
      if t.pasid == pasid && !t.reg.vault && r.base ≤ t.reg.base && t.reg.base + 2 ^ t.reg.k ≤ r.base + 2 ^ r.k then f t else t }

/-- Does a strand hold back a store to a region of translated memory, in an idempotent region? -/
def Strand.holdsIn (st : Strand) (r : Region) : Bool :=
  match st.idem with
  | some x => x.stores.any fun h => h.va.extractLsb' 50 4 != 3 && r.covers (h.va.extractLsb' 0 50).toNat
  | none => false

/-- Step 1 of R226: every token of the region and its sherds to RECLAIMING; each strand that holds stores to it back in an
idempotent region commits them (log entry 60), and every core's lines are written back and invalidated. -/
def State.reclaim (s : State) (r : Region) (pasid : BitVec 20) : State :=
  let s := s.strands.foldl (fun (s : State) kv =>
    if (s.scope kv.2.scope).pasid = pasid ∧ kv.2.holdsIn r then s.commitIdem kv.2 else s) s
  (s.invalidateAll r pasid true).modInside r pasid fun t =>
    if t.state = .reclaiming then t else { t with state := .reclaiming, prior := t.state, migration := 1 }

/-- Step 4: what step 1 found; every party that has a right receives it again as an acquire. -/
def State.restoreRegion (s : State) (r : Region) (pasid : BitVec 20) : State :=
  (s.invalidateAll r pasid true).modInside r pasid fun t =>
    if t.migration = 0 then t else { t with state := t.prior, prior := .free, migration := 0 }

/-- Is a sync-cell operation to a region on its way, or a commit of the tenant not over? -/
def State.cellsIn (s : State) (r : Region) (pasid : BitVec 20) : Bool :=
  let mine (a : Payload) : Bool := match a with
    | .syncReq q => q.pasid == pasid && r.covers (q.va.extractLsb' 0 50).toNat
    | _ => false
  (s.strands.any fun kv => kv.2.commit.isSome && s.pasidOf kv.2.scope == pasid)
    || (s.agenda.any fun p => mine p.arg) || s.domains.any fun d => d.2.held.any fun h => mine h.2

/-- MIGRATE: the steps of R226. The new backing is a window offset. The copy waits for the accesses that have issued; it
pauses at a sector whose page is missing, and goes on from there when the page request has ended (R183). Phase 3 + 2 i copies
from sector i on, and 4 + 2 i does so after the page request. -/
def State.hostMigrate (c : HostCmd) (r : Scb) (phase : Nat) (s : State) : State :=
  let new := (hostArg c 1).toNat
  match (decodeRegion (hostArg c 0)).bind fun reg => (s.token reg r.pasid).map fun t => (reg, t) with
  | none => s.answerHost c badCommand
  | some (reg, t) =>
    let size := 2 ^ reg.k
    let again (s : State) (n : Nat) : State := s.after 1 .migrate (.host c n)
    if phase = 0 then
      if reg.vault ∨ t.state = .reclaiming ∨ new % size ≠ 0 ∨ !isVisible new ∨ !isVisible (new + size - 1) then
        s.answerHost c badCommand
      else again (s.reclaim reg r.pasid) 1
    else if phase = 1 then
      if s.cellsIn reg r.pasid then again s 1 else again (s.invalidateAll reg r.pasid true) 3
    else if 3 ≤ phase then
      let i := (phase - 3) / 2
      let asked := phase % 2 = 0
      let page := (reg.base + 64 * i) / 4096
      if asked ∧ (s.pages.any fun q => q.pasid = r.pasid && q.page = page && q.need = 1 && q.stage != .quiet) then again s phase
      else match s.copyBacking t r.pasid reg.base new (size / 64 - i) i with
      | (s, .fault code) => (s.restoreRegion reg r.pasid).answerHost c code
      | (s, .page j) =>
        if asked ∧ j = i then (s.restoreRegion reg r.pasid).answerHost c 4
        else again (s.askPage r.pasid ((reg.base + 64 * j) / 4096) 1) (4 + 2 * j)
      | (s, .all) => again (s.modInside reg r.pasid fun t => if t.migration = 0 then t else { t with migration := 2, gone := [] }) 2
    else if t.migration = 3 ∧ s.moved r.pasid reg.base new size then (s.restoreRegion reg r.pasid).answerHost c 0
    else s.after Config.retryWait .migrate (.host c 2)

def execMigrate (s : State) : Out := runHost State.hostMigrate s

/-! ### POWER_CAP, PARTITION -/

/-- POWER_CAP: 1,000 to 2,300 W (R32). -/
def State.setCap (c : HostCmd) (_r : Scb) (_phase : Nat) (s : State) : State :=
  let w := (hostArg c 0).toNat
  if w < 1000 ∨ 2300 < w then s.answerHost c badCommand else ({ s with powerCap := w }).answerHost c 0

def execPowerCap (s : State) : Out := runHost State.setCap s

/-- The routing words of a partition table: the bridge, the global links inside the partition, the quadrants inside it. -/
def State.routeTable (s : State) : State :=
  (List.range Config.clusters).foldl (fun s c =>
    let q := quadOf c
    let same (x : Nat) : Bool := (s.partQuads c).contains x
    let linken := ([1, 2, 3].filter fun k => same ((q + k) % 4)).foldl (fun v k => v + 2 ^ k) 1
    let inter := ((List.range 4).filter fun x => x ≠ q && same x).foldl (fun v x => v + 2 ^ x) 0
    s.modCluster c fun x => { x with linken := BitVec.ofNat 4 linken, intermask := BitVec.ofNat 4 inter }) s

/-- Does a quadrant hold a live scope, other than the tenants' roots? -/
def State.quadLive (s : State) (q : Nat) : Bool :=
  s.scopes.any fun kv =>
    kv.2.parent ≠ 0 && (quadOf (homeCluster kv.2.id) == q || (match s.launchOf kv.2.id with
      | some l => (List.range 128).any fun i => l.has (128 * q + i)
      | none => false))

/-- PARTITION: four PART values (R351). -/
def State.setParts (c : HostCmd) (_r : Scb) (_phase : Nat) (s : State) : State :=
  let part (q : Nat) : Word := hostArg c q
  let changes (q : Nat) : Bool := (s.parts.get (0, 0) q).2 != (part q).setWidth 2
  if (List.range 4).any fun q => 3#64 < part q || (changes q && s.quadLive q) then s.answerHost c badCommand
  else
    let s := (List.range 4).foldl (fun (s : State) q =>
      { s with parts := s.parts.put (0, 0) q ((s.parts.get (0, 0) q).1, (part q).setWidth 2) }) s
    s.routeTable.answerHost c 0

def execPartition (s : State) : Out := runHost State.setParts s

/-! ### TENANT_CREATE (R411) -/

/-- The root of a tenant with the values of R411, before its root block. -/
def rootScb (id : ScopeId) (tenant : BitVec 12) (pasid : BitVec 20) (keyid : BitVec 12) : Scb :=
  { id := id, fdom := id, tenant := tenant, pasid := pasid, keyid := keyid, outw := Config.scopeWeight
    issued := Config.scopeWeight }

def State.makeRoot (s : State) (b : Scb) : State :=
  (s.setScb b).modKiln fun k => { k with tenants := k.tenants ++ [(b.tenant, b.id)] }

/-- The Kiln installs a tenant's key material: a key id that no other tenant has, and its keys, all free values. Where the
free id is 0 or taken, the lowest one that is not. -/
def State.newKey (s : State) : BitVec 12 × State :=
  let (v, s) := s.freeWord
  let used (k : BitVec 12) : Bool := k == 0 || s.kiln.keys.contains k
  let k := if used (v.setWidth 12) then (((List.range 4096).map (BitVec.ofNat 12)).find? fun k => !used k).getD 0 else v.setWidth 12
  let w (i : Nat) : Word := Config.freeWord (s.fresh + i)
  let pair : KeyPair :=
    { xts := BitVec.ofNat 512 (ofLe ((List.range 8).flatMap fun i => leBytes 8 (w i)))
      integ := BitVec.ofNat 256 (ofLe ((List.range 4).flatMap fun i => leBytes 8 (w (8 + i)))) }
  (k, ({ s with fresh := s.fresh + 12 }).modKiln fun x => { x with keys := x.keys ++ [k], keyTable := x.keyTable.insert k.toNat pair })

/-- TENANT_CREATE, whatever the root of the commanding tenant: tenant, PASID, key material, home cluster, SAVEAREA, LOGBASE,
LOGLEN, root block. A PASID is one tenant's own (R28). -/
def State.tenantCreate (c : HostCmd) (_r : Scb) (_phase : Nat) (s : State) : State :=
  let tenant : BitVec 12 := (hostArg c 0).setWidth 12
  let cl := (hostArg c 3).toNat
  let va := hostArg c 7
  let pasid : BitVec 20 := (hostArg c 1).setWidth 20
  if (hostArg c 0).extractLsb' 12 52 ≠ 0 ∨ (hostArg c 1).extractLsb' 20 44 ≠ 0 ∨ 31 < cl ∨ !s.quadRuns (quadOf cl)
      ∨ (s.root tenant).isSome ∨ (s.rootOf pasid).isSome ∨ va.toNat % 64 ≠ 0 then s.answerHost c badCommand
  else
    match s.wordsAt pasid va, s.freeScope cl with
    | (s, .error e), _ => s.answerHost c e
    | (s, _), none => s.answerHost c badCommand
    | (s, .ok blk), some id =>
      let m := sopenMask blk
      if !blk.isEmpty && ((sopenBad blk).isSome || m 2 || m 13 || m 17) then s.answerHost c badCommand
      else
        let (key, s) := s.newKey
        let b := rootScb id tenant pasid key
        let b := { b with
          savearea := hostArg c 4, logbase := hostArg c 5, loglen := (hostArg c 6).setWidth 32 }
        let b := if blk.isEmpty then b else b.overridden blk
        (s.makeRoot b).answerHost c 0

def execTenantCreate (s : State) : Out := runHost State.tenantCreate s

/-! ### Queues (R263, R412) -/

/-- Are ring address and size as R263 gives them? -/
def ringOk (ring : Word) (size : Nat) : Bool := ring.toNat % 128 == 0 && size % 128 == 0 && 256 ≤ size && size ≤ 2 ^ 24

/-- The Kiln writes a new QCB; the queue's latched tail is 0. -/
def State.makeQueue (s : State) (q : Nat) (ring : Word) (size : Nat) (tenant : BitVec 12) (tiermin : BitVec 2) : State :=
  let a : QcbCopy :=
    { ringva := ring, ringsize := BitVec.ofNat 32 size, tenant := tenant.setWidth 16, state := 1, tiermin := tiermin.setWidth 8 }
  s.modKiln fun k => { k with
    queues := k.queues.insert q { gen := 0, a := a, headSince := s.cycle }, tails := k.tails.insert q 0 }

/-- QUEUE_CREATE. -/
def State.queueCreate (c : HostCmd) (_r : Scb) (_phase : Nat) (s : State) : State :=
  let q := (hostArg c 0).toNat
  let size := (hostArg c 2).toNat
  let tenant := hostArg c 3
  let rest := (List.range 7).any fun i => hostArg c (5 + i) ≠ 0
  if 4096 ≤ q ∨ 2 ^ 32 ≤ size ∨ 4096 ≤ tenant.toNat ∨ 4 ≤ (hostArg c 4).toNat ∨ rest ∨ (s.kiln.queues.find q).isSome
      ∨ (s.root (tenant.setWidth 12)).isNone ∨ !ringOk (hostArg c 1) size then s.answerHost c badCommand
  else (s.makeQueue q (hostArg c 1) size (tenant.setWidth 12) ((hostArg c 4).setWidth 2)).answerHost c 0

def execQueueCreate (s : State) : Out := runHost State.queueCreate s

/-- The copy of a QCB that GEN selects (R264); an odd GEN stands for the even one before it. -/
def Qcb.valid (q : Qcb) : QcbCopy := if q.gen.extractLsb' 1 1 = 0 then q.a else q.b

/-- The first half of an update under R264: GEN becomes odd, and the copy that it does not select is written. -/
def Qcb.begin_ (q : Qcb) (f : QcbCopy → QcbCopy) : Qcb :=
  if q.gen.extractLsb' 1 1 = 0 then { q with gen := q.gen + 1, b := f q.a } else { q with gen := q.gen + 1, a := f q.b }

/-- The second half: GEN selects the copy just written. -/
def Qcb.finish (q : Qcb) : Qcb := { q with gen := q.gen + 1 }

/-- An update under R264: at once, or with the one in progress, in the copy that it is writing. -/
def Qcb.update (q : Qcb) (f : QcbCopy → QcbCopy) : Qcb :=
  if q.gen.getLsbD 0 then
    if q.gen.extractLsb' 1 1 = 0 then { q with b := f q.b } else { q with a := f q.a }
  else (q.begin_ f).finish

/-- What a restarted Kiln does with an odd GEN (R264). -/
def Qcb.repair (q : Qcb) : Qcb :=
  if q.gen.getLsbD 0 then
    if q.gen.extractLsb' 1 1 = 0 then { q with gen := q.gen + 1, b := q.a } else { q with gen := q.gen + 1, a := q.b }
  else q

/-- QUEUE_DESTROY: the queue is disabled, and its number free once no entry of it is being dispatched. The entry of this
very command in queue 0 is out of PEND by then. -/
def State.queueDestroy (c : HostCmd) (_r : Scb) (phase : Nat) (s : State) : State :=
  let q := (hostArg c 0).toNat
  match s.kiln.queues.find q with
  | none => s.answerHost c badCommand
  | some x =>
    let s := if phase = 0 ∨ x.valid.state ≠ 0 then
        s.modKiln fun k => { k with queues := k.queues.insert q (x.update fun y => { y with state := 0 }) }
      else s
    if x.valid.pend ≠ 0xFFFFFFFF ∨ x.gen.getLsbD 0 then s.after Config.retryWait .queueDestroy (.host c 1)
    else (s.modKiln fun k => { k with queues := k.queues.erase q, tails := k.tails.erase q }).answerHost c 0

def execQueueDestroy (s : State) : Out := runHost State.queueDestroy s

end Sys2Proof.Machine
end

