-- ==== Sys2Proof/Machine/Kiln.lean ====
section
/-! DEFINITION. The Kiln: its four instructions (R358 to R363), the host command queues with their doorbells (R262 to R266,
R360, R412), dispatch under the watchdog (R364), its timer and the harts' exceptions (R354). -/

namespace Sys2Proof.Machine

/-! ### Harts -/

/-- x0 of a hart reads 0. -/
def Hart.reg (x : Hart) (i : BitVec 5) : Word := if i = 0 then 0 else x.regs.get 0 i.toNat
def Hart.setReg (x : Hart) (i : BitVec 5) (v : Word) : Hart := if i = 0 then x else { x with regs := x.regs.put 0 i.toNat v }

/-- A hart meets an exception: its cause, its value, the address of its instruction; it goes on at its trap vector. -/
def State.hartTrap (s : State) (h : Nat) (cause val : Word) : State :=
  s.modHart h fun x =>
    { x with mcause := cause, mtval := val, mepc := x.pc, pc := x.mtvec &&& ~~~3#64, mpie := x.mie, mie := false, waiting := false
             asked := none }

/-- A store to the SRAM ends the reservations that it touches (log entry 36). -/
def State.breakReservations (s : State) (addr n : Nat) : State :=
  let clear (x : Hart) : Hart := match x.reservation with
    | some (a, k) => if a < addr + n ∧ addr < a + k then { x with reservation := none } else x
    | none => x
  s.modKiln fun k => { k with harts := k.harts.map fun kv => (kv.1, clear kv.2) }

def causeMalformed : Word := 24
def causeUnknownOp : Word := 25
def causeStraddle : Word := 26
def causeEmpty : Word := 27

/-- An instruction of the current hart: a new state and the value of x[rd], or an exception, with its cause and value. -/
def runHart (d : BitVec 5) (f : Hart → State → State × Except (Word × Word) Word) (s : State) : Out :=
  if 4 ≤ s.curHart then .refused .noHart
  else
    match f (s.hart s.curHart) s with
    | (s, .ok v) =>
      .next (s.modHart s.curHart fun x =>
        { x.setReg d v with pc := x.pc + 4, minstret := x.minstret + 1, since := s.cycle, asked := none })
    | (s, .error (cause, val)) => .next (s.hartTrap s.curHart cause val)

/-- The status word of a queue, as the host reads it at BAR0 (R360): from the copy that GEN selects. -/
def State.hostQueueStatus (s : State) (q : Nat) : Word :=
  match s.kiln.queues.find q with
  | some x => x.valid.head ++ x.valid.errcode ++ 0#8 ++ x.valid.state
  | none => 3

/-! ### Entries of a queue (R262, R359) -/

/-- The address of the entry at a queue's head. -/
def QcbCopy.entryVa (c : QcbCopy) : Word := c.ringva + c.head.setWidth 64

/-- The page of the entry at a queue's head, where no translation for the tenant of the queue lets the Kiln read it (R9,
R181, R359; log entry 36). -/
def State.ringPage (s : State) (c : QcbCopy) : Option (BitVec 20 × Nat) :=
  match s.root (c.tenant.setWidth 12) with
  | none => none
  | some r =>
    let off := (c.entryVa.extractLsb' 0 50).toNat
    if c.entryVa.extractLsb' 50 4 = 3 then none
    else match (s.transEntry r.pasid off).filter (transGives · 1) with
      | some _ => none
      | none => some (r.pasid, off / 4096)

/-- Reads the entry at a queue's head as the tenant of the queue would: through the path, the translation and the memory
that its address selects (R9); none where that fails. -/
def State.readRing (s : State) (c : QcbCopy) : State × Option (List Byte) :=
  match s.root (c.tenant.setWidth 12), s.ringPage c with
  | some r, none =>
    match (readVa r.pasid c.entryVa 128).go s with
    | (.ok b, s) => (s, some b)
    | (.error _, s) => (s, none)
  | _, _ => (s, none)

/-- The bytes of the entry at a queue's head. -/
def State.entryBytes (s : State) (c : QcbCopy) : Option (List Byte) := (s.readRing c).2

/-- Asks for the page of the entry at a queue's head. -/
def State.askRing (s : State) (c : QcbCopy) : State :=
  match s.ringPage c with
  | some (pasid, page) => s.askPage pasid page 1
  | none => s

def hostEntry (q : Nat) (b : List Byte) : HostCmd :=
  { queue := q, deadline := BitVec.ofNat 64 (imgNum b 0 8), opcode := BitVec.ofNat 16 (imgNum b 8 2)
    tier := BitVec.ofNat 8 (imgNum b 10 1), tenant := BitVec.ofNat 12 (imgNum b 12 2), tag := BitVec.ofNat 64 (imgNum b 16 8)
    compl := BitVec.ofNat 64 (imgNum b 24 8), args := (List.range 12).map fun i => BitVec.ofNat 64 (imgNum b (32 + 8 * i) 8) }

/-- Does an entry keep R262 for its queue? -/
def entryOk (c : QcbCopy) (b : List Byte) : Bool :=
  imgNum b 10 1 < 4 && imgNum b 11 1 == 0 && imgNum b 12 2 < 4096 && imgNum b 14 2 == 0 && imgNum b 12 2 == c.tenant.toNat
    && c.tiermin.toNat ≤ imgNum b 10 1

/-- The event of an opcode, and whether only tenant 0 may give it (R355). -/
def hostOp (opcode : BitVec 16) : Option (Instr × Bool) :=
  match opcode.toNat with
  | 0x1 => some (.launch, false)
  | 0x2 => some (.cancel, false)
  | 0x3 => some (.switchOut, false)
  | 0x4 => some (.switchIn, false)
  | 0x5 => some (.regionCreate, false)
  | 0x6 => some (.regionDestroy, false)
  | 0x7 => some (.migrate, false)
  | 0x8 => some (.powerCap, true)
  | 0x9 => some (.partition, true)
  | 0xA => some (.nopCommand, false)
  | 0xB => some (.tenantCreate, true)
  | 0xC => some (.queueCreate, true)
  | 0xD => some (.queueDestroy, true)
  | _ => none

def State.setQcb (s : State) (q : Nat) (f : Qcb → Qcb) : State :=
  match s.kiln.queues.find q with
  | some x => s.modKiln fun k => { k with queues := k.queues.insert q (f x) }
  | none => s

/-- A queue stops on an error (R265, R359). -/
def State.stopQueue (s : State) (q : Nat) : State :=
  s.setQcb q fun x => x.update fun c => { c with state := 2, errcode := causeStraddle.setWidth 16 }

/-- What KRF finds at the head of a queue. -/
inductive AtHead where
  | empty
  | straddle
  /-- an entry whose page has no translation, or that cannot be read -/
  | missing (c : QcbCopy)
  | entry (c : QcbCopy) (b : List Byte)
  deriving DecidableEq, Repr

def State.headOf (s : State) (q : Nat) : AtHead :=
  match s.kiln.queues.find q with
  | none => .empty
  | some x =>
    let c := x.valid
    let tail := s.kiln.tails.get 0 q
    if x.gen.getLsbD 0 ∨ c.state ≠ 1 then .empty
    else if c.head.toNat % 128 ≠ 0 ∨ c.ringsize.toNat % 128 ≠ 0 ∨ tail.toNat % 128 ≠ 0 ∨ c.ringsize ≤ c.head then .straddle
    else if c.head = tail then .empty
    else match s.entryBytes c with
      | some b => .entry c b
      | none => .missing c

/-! ### KRF, KBFX, KSWT, KDSP -/

/-- KRF (R359). -/
def krf (t a d : BitVec 5) (x : Hart) (s : State) : State × Except (Word × Word) Word :=
  let q := x.reg a
  let addr := x.reg t
  if 4095#64 < q then (s, .error (causeMalformed, q))
  else if addr.toNat % 128 ≠ 0 then (s, .error (6, addr))
  else if Config.sramSize ≤ addr.toNat then (s, .error (7, addr))
  else
    match s.headOf q.toNat with
    | .empty => (s, .error (causeEmpty, q))
    | .straddle => (s.stopQueue q.toNat, .error (causeStraddle, q))
    | .missing c => ((s.readRing c).1, .error (5, c.entryVa))
    | .entry c b =>
      let s := ((s.readRing c).1.setBytes (Config.sramBase + addr.toNat) b).breakReservations addr.toNat 128
      let s := s.modHart s.curHart fun x => x.setReg d (c.head.setWidth 64)
      if !entryOk c b then (s, .error (causeMalformed, q))
      else if (hostOp (hostEntry q.toNat b).opcode).isNone then (s, .error (causeUnknownOp, q))
      else (s, .ok (c.head.setWidth 64))

/-- The page that a hart's KRF waits for: that of the entry, until its request has ended. -/
def State.krfPage (s : State) (x : Hart) (t a : BitVec 5) : Option (BitVec 20 × Nat) :=
  if 4095#64 < x.reg a ∨ (x.reg t).toNat % 128 ≠ 0 ∨ Config.sramSize ≤ (x.reg t).toNat then none
  else match s.headOf (x.reg a).toNat with
    | .missing c =>
      (s.ringPage c).filter fun p =>
        x.asked != some p || s.pages.any fun q => q.pasid == p.1 && q.page == p.2 && q.need == 1 && q.stage != .quiet
    | _ => none

/-- KRF: it waits for the page of its entry first, and is executed again. -/
def execKrf (t a d : BitVec 5) (s : State) : Out :=
  match s.krfPage (s.hart s.curHart) t a with
  | some p =>
    if 4 ≤ s.curHart then .refused .noHart
    else .next ((s.askPage p.1 p.2 1).modHart s.curHart fun x => { x with asked := some p, since := s.cycle })
  | none => runHart d (krf t a d) s

/-- KBFX (R361). -/
def kbfx (v f : Word) : Word :=
  let lo := (f.extractLsb' 0 6).toNat
  let w := (f.extractLsb' 8 6).toNat
  BitVec.ofNat 64 ((v >>> lo).toNat % 2 ^ (if w = 0 then 64 else w))

def execKbfx (t a d : BitVec 5) (s : State) : Out := runHart d (fun x s => (s, .ok (kbfx (x.reg a) (x.reg t)))) s

/-- KSWT (R362): it waits, and is executed again, until a signal of its mask is pending. -/
def execKswt (a d : BitVec 5) (s : State) : Out :=
  if 4 ≤ s.curHart then .refused .noHart
  else
    let x := s.hart s.curHart
    let mask := x.reg a
    let got := x.pending.setWidth 64 &&& mask
    if mask = 0 ∨ got ≠ 0 then
      .next (s.modHart s.curHart fun x =>
        { x.setReg d got with
          pc := x.pc + 4, minstret := x.minstret + 1, waiting := false, since := s.cycle
          pending := x.pending &&& ~~~(mask.setWidth 9) })
    else .next (s.modHart s.curHart fun x => { x with waiting := true })

/-- The ranks of a dispatch record, released by the Wheel of their cluster (R300, R363). -/
def State.wheelRanks (s : State) (w : Nat → Word) : State :=
  let scope : ScopeId := (w 1).setWidth 24
  let pc : BitVec 16 := (w 1).extractLsb' 32 16
  let first := ((w 2).extractLsb' 0 16).toNat
  let n := ((w 2).extractLsb' 16 16).toNat
  let rank0 := ((w 2).extractLsb' 32 32).toNat
  let b := s.scope scope
  let total := ((s.launches.find scope.toNat).map (·.count)).getD n
  let gang := ((s.gangs.find? fun kv => kv.2.scope = scope).map (·.1)).getD 0
  let units := n * Config.refillWeight
  let s := s.modScb scope fun b => { b with outw := b.outw + units, issued := b.issued + units, live := b.live + BitVec.ofNat 32 n }
  (List.range n).foldl (fun (s : State) i =>
    let c : Ctx :=
      { x := (List.range 4).map (fun j => w (3 + j)) ++ [0, 0, 0, 0], dbits := 0, preds := 0, pc := pc, kind := 0
        prio := b.prio, frm := 0, fflags := 0, weight := BitVec.ofNat 32 Config.refillWeight, scope := scope, origin := 0
        vfmt := 0x0001, mfmt := 0x0002, rkey0 := 0, rkey1 := 0, retired := 0, quantum := 0, qpos := 0
        rank := BitVec.ofNat 16 (rank0 + i), nrank := BitVec.ofNat 16 total, gang := BitVec.ofNat 24 gang
        image := s.imageAt b.tenant pc.toNat }
    s.sendLoad scope (first + i) .start (.ctx (first + i) none c)) s

/-- Are the queues of one of these cores full, so that the Wheel takes no rank for it? -/
def State.wheelFull (s : State) (cores : List Nat) : Bool :=
  cores.any fun l => match s.physical l with
    | some p => 256 ≤ (s.core p).overflow.length
    | none => false

/-- A Wheel's answer to a dispatch record: 2 outside a running partition, 1 when a core's queues are full, else 0, and the
log has the record's TAG and cluster. The answer is the signal WHEEL (log entry 6). -/
def State.wheelTakes (s : State) (cluster : Nat) (w : Nat → Word) : State × Word :=
  let first := ((w 2).extractLsb' 0 16).toNat
  let n := ((w 2).extractLsb' 16 16).toNat
  let full := s.wheelFull ((List.range n).map (first + ·))
  let s := s.signal 1
  if !s.quadRuns (quadOf cluster) then (s, 2)
  else if full then (s, 1)
  else ((s.modKiln fun k => { k with log := k.log ++ [(w 0, cluster)] }).wheelRanks w, 0)

/-- KDSP (R363). -/
def kdsp (t a _d : BitVec 5) (x : Hart) (s : State) : State × Except (Word × Word) Word :=
  let addr := x.reg a
  let cluster := x.reg t
  let w (i : Nat) : Word := s.word (Config.sramBase + addr.toNat + 8 * i)
  if addr.toNat % 64 ≠ 0 then (s, .error (4, addr))
  else if Config.sramSize ≤ addr.toNat then (s, .error (5, addr))
  else if 31#64 < cluster ∨ (w 0).extractLsb' 48 4 ≠ 0 ∨ (w 1).extractLsb' 24 8 ≠ 0 ∨ (w 1).extractLsb' 48 16 ≠ 0 ∨ w 7 ≠ 0 then
    (s, .error (causeMalformed, addr))
  else
    let (s, v) := s.wheelTakes cluster.toNat w
    (s, .ok v)

def execKdsp (t a d : BitVec 5) (s : State) : Out := runHart d (kdsp t a d) s

/-! ### Doorbells (R265, R412) -/

/-- Is the Kiln there to act: READY and not gated? -/
def State.kilnUp (s : State) : Bool := s.kiln.mode == 1 && !s.kiln.gated

/-- A doorbell that reaches the Kiln; in an empty queue its entry becomes head now (R266). R265 says that [63:32] must be zero:
DESIGN CHOICE, a write with one of them set is discarded and counted (log entry 70). -/
def State.ring (s : State) (q : Nat) (v : Word) : State :=
  let discard : State := s.modKiln fun k => { k with discards := k.discards + 1 }
  match s.kiln.queues.find q with
  | none => discard
  | some x =>
    let c := x.valid
    let tail : BitVec 32 := v.setWidth 32
    if v.extractLsb' 32 32 ≠ 0 ∨ c.state ≠ 1 then discard
    else if tail.toNat % 128 ≠ 0 ∨ c.ringsize ≤ tail then (s.stopQueue q).signal 3
    else
      let s := if c.head = s.kiln.tails.get 0 q then s.setQcb q fun x => { x with headSince := s.cycle } else s
      ((s.modKiln fun k => { k with tails := k.tails.insert q tail }).signal 0).send 0 .kilnDispatch .none

/-- Are the Kiln or cores of the module gated? -/
def State.partGated (s : State) : Bool :=
  s.kiln.gated || s.clusters.any (fun c => c.2.gated) || s.cores.any fun c => c.2.gated

/-- DOORBELL: the wake latch takes the write; it wakes a module with gated parts, and waits for READY. -/
def State.doorbell (s : State) (q : Nat) (v : Word) : State :=
  if s.kilnUp && !s.partGated then s.ring q v
  else
    let s := s.modKiln fun k => { k with
      latched := k.latched.insert q v
      latchOrder := if k.latchOrder.contains q then k.latchOrder else k.latchOrder ++ [q] }
    if s.partGated then s.send 0 .wakeSequence .none else s

def execDoorbell (s : State) : Out :=
  match s.arg with
  | .word q v => if q < 4096 then .next (({ s with bellSeq := s.hostSeq }).doorbell q v) else .next s
  | _ => .next s

/-- The latch replays one doorbell per pending queue, with its latest tail, in order. -/
def State.replayLatch (s : State) : State :=
  let order := s.kiln.latchOrder
  let tails := s.kiln.latched
  let s := s.modKiln fun k => { k with latched := [], latchOrder := [] }
  order.foldl (fun s q => s.ring q (tails.get 0 q)) s

/-- The Kiln creates queue 0, once it is READY. -/
def State.makeQueue0 (s : State) : State :=
  if s.kiln.mode ≠ 1 ∨ !s.kiln.q0create then s
  else
    let size := s.kiln.q0size.toNat
    let s := s.modKiln fun k => { k with q0create := false }
    if (s.kiln.queues.find 0).isSome ∨ (s.root 0).isNone ∨ 2 ^ 32 ≤ size ∨ !ringOk s.kiln.q0ring size then s
    else s.makeQueue 0 s.kiln.q0ring size 0 0

/-- QUEUE0_CREATE: the host's writes of BAR0 0x020, 0x028 and 0x030. -/
def execQueue0Create (s : State) : Out :=
  match s.arg with
  | .word 0x020 v => .next (s.modKiln fun k => { k with q0ring := v })
  | .word 0x028 v => .next (s.modKiln fun k => { k with q0size := v })
  | .word 0x030 v => .next (if v = 1 then (s.modKiln fun k => { k with q0create := true }).makeQueue0 else s)
  | _ => .next s

/-! ### Dispatch (R266, R364) -/

/-- A queue's head as the dispatcher sees it. -/
structure Head where
  q : Nat
  c : HostCmd
  since : Nat
  deriving DecidableEq, Repr

/-- May the entry be dispatched at once (R266)? -/
def State.dispatchable (s : State) (h : Head) : Bool :=
  if h.c.opcode = 1 then
    match s.root h.c.tenant with
    | none => true
    | some r =>
      match (s.launchOfCmd h.c r).2 with
      | .ok (q, b) => s.admits q b
      | .error _ => true
  else true

/-- The queues with an entry to dispatch. -/
def State.heads (s : State) : List Head :=
  s.kiln.queues.filterMap fun (kv : Nat × Qcb) =>
    if kv.2.valid.pend ≠ 0xFFFFFFFF#32 then none
    else match s.headOf kv.1 with
      | .entry _ b => some ⟨kv.1, hostEntry kv.1 b, kv.2.headSince⟩
      | _ => none

/-- Does a queue hold an entry that has not been dispatched, or one in PEND (R34)? -/
def State.undispatched (s : State) : Bool :=
  s.kiln.queues.any fun kv => kv.2.valid.pend != 0xFFFFFFFF#32 || (match s.headOf kv.1 with
    | .entry _ _ | .missing _ => true
    | _ => false)

def Head.sooner (a b : Head) : Bool :=
  if a.c.deadline ≠ b.c.deadline then a.c.deadline < b.c.deadline
  else if a.c.tier ≠ b.c.tier then a.c.tier < b.c.tier
  else a.q < b.q

def soonest (l : List Head) : Option Head :=
  l.foldl (fun best h => match best with
    | none => some h
    | some b => if h.sooner b then some h else some b) none

/-- The head that goes next: a tier-3 one that has waited 64 budget periods; the earliest of tiers 0 to 2; the earliest of
tier 3. -/
def State.nextHead (s : State) : Option Head :=
  let l := s.heads.filter s.dispatchable
  let slow := l.filter fun h => h.c.tier = 3
  match soonest (slow.filter fun h => h.since + 64 * Config.budgetPeriod ≤ s.cycle) with
  | some h => some h
  | none =>
    match soonest (l.filter fun h => h.c.tier ≠ 3) with
    | some h => some h
    | none => soonest slow

/-- The valid copy of a queue, with the entry named in PEND as its head, and the entry's TAG (R363). -/
def State.pendEntry (s : State) (q : Nat) : Option (QcbCopy × Word) :=
  match s.kiln.queues.find q with
  | none => none
  | some x =>
    let c := x.valid
    if c.pend = 0xFFFFFFFF then none
    else some ({ c with head := c.pend }, BitVec.ofNat 12 q ++ 0#4 ++ c.consumed.extractLsb' 0 48)

/-- Why an entry completes with BAD_COMMAND, or the event that performs it. -/
def entryEvent (c : QcbCopy) (q : Nat) (b : List Byte) : Option Instr :=
  if !entryOk c b then none
  else match hostOp (hostEntry q b).opcode with
    | none => none
    | some (ev, only0) => if only0 && c.tenant ≠ 0 then none else some ev

/-- The clusters of a launch entry. -/
def launchClusters (c : HostCmd) : List Nat :=
  let cores := hostArg c 1
  (((List.range (cores.extractLsb' 9 10).toNat).map fun i => ((cores.extractLsb' 0 9).toNat + i) / 16).eraseDups).filter (· < 32)

/-- The clusters of a launch whose TAG the dispatch log lacks. -/
def State.undelivered (s : State) (c : HostCmd) (tag : Word) : List Nat :=
  (launchClusters c).filter fun cl => !s.kiln.log.contains (tag, cl)

/-- Step 3 for a launch: the next cluster whose TAG the log lacks gets its dispatch record; one whose Wheel is full, or whose
partition is not RUN, gets it again later (log entry 36). When all have theirs, the launch goes on for the clusters that this
dispatch has served: each is placed once, whenever the watchdog fires, and none that a hart's KDSP has served. -/
def State.dispatchLaunch (s : State) (c : HostCmd) (tag : Word) (q : Nat) : State :=
  match s.undelivered c tag with
  | [] =>
    let mine := s.kiln.placing.filter fun x => x.1 == tag
    let s := s.modKiln fun k => { k with placing := k.placing.filter fun x => x.1 != tag }
    let skip := (launchClusters c).filter fun cl => !mine.contains (tag, cl)
    (if mine.isEmpty && !skip.isEmpty then s else s.send 0 .launch (.host { c with skip := skip } 0)).send 0 .kilnDispatch (.n2 q 4)
  | cl :: _ =>
    let cores := hostArg c 1
    let ranks := ((List.range (cores.extractLsb' 9 10).toNat).map fun i => (cores.extractLsb' 0 9).toNat + i).filter (· / 16 = cl)
    let s := s.signal 1
    if !s.quadRuns (quadOf cl) || s.wheelFull ranks then s.after Config.retryWait .kilnDispatch (.n2 q 3)
    else
      (s.modKiln fun k => { k with log := k.log ++ [(tag, cl)], placing := k.placing ++ [(tag, cl)] }).send 0 .kilnDispatch (.n2 q 3)

/-- Does something with the entry at the head of a copy; while it cannot be read, its page is asked for and part `n` comes
again. -/
def State.withEntry (s : State) (q n : Nat) (c : QcbCopy) (f : State → List Byte → State) : State :=
  match s.readRing c with
  | (s, some b) => f s b
  | (s, none) => (s.askRing c).after Config.retryWait .kilnDispatch (.n2 q n)

/-- One part of the dispatch of a queue's entry: 1 and 2 set PEND, 3 sends a launch to its clusters, 4 and 5 advance HEAD;
every other command is performed with 5. -/
def State.dispatchPart (s : State) (q n : Nat) : State :=
  let next (s : State) : State := s.send 0 .kilnDispatch (.n2 q (n + 1))
  match n with
  | 1 => next (s.setQcb q fun x => x.begin_ fun c => { c with pend := c.head })
  | 2 => next (s.setQcb q Qcb.finish)
  | 3 =>
    match s.pendEntry q with
    | none => s
    | some (c, tag) =>
      s.withEntry q 3 c fun s b => if entryEvent c q b = some .launch then s.dispatchLaunch (hostEntry q b) tag q else next s
  | 4 =>
    let step (c : QcbCopy) : QcbCopy :=
      let h := c.head.toNat + 128
      { c with head := BitVec.ofNat 32 (if c.ringsize.toNat ≤ h then h - c.ringsize.toNat else h), consumed := c.consumed + 1
               pend := 0xFFFFFFFF }
    next (s.setQcb q fun x => x.begin_ step)
  | _ =>
    -- the copy that GEN - 1 selects still names the entry
    match s.kiln.queues.find q with
    | none => s
    | some x =>
      s.withEntry q n { x.valid with head := x.valid.pend } fun s b =>
        let s := s.setQcb q fun x => { x.finish with headSince := s.cycle }
        let s := match entryEvent x.valid q b with
          | some .launch => s
          | some ev => s.send 0 ev (.host (hostEntry q b) 0)
          | none => s.answerHost (hostEntry q b) badCommand
        s.send 0 .kilnDispatch .none

/-- KILN_DISPATCH without a part: the next head, if one can go; a head that cannot is looked at again later. -/
def State.dispatch (s : State) : State :=
  if !s.kilnUp then s
  else
    let s := (s.kiln.queues.map (·.1)).foldl (fun (s : State) q =>
      match s.headOf q with
      | .straddle => (s.stopQueue q).signal 3
      | .missing c => s.askRing c
      | _ => s) s
    if s.agenda.any fun p => p.ev == .kilnDispatch && p.arg != .none then s
    else
      match s.nextHead with
      | some h => s.send 0 .kilnDispatch (.n2 h.q 1)
      | none => if s.kiln.queues.all fun kv => s.headOf kv.1 == .empty then s else s.after Config.retryWait .kilnDispatch .none

def execKilnDispatch (s : State) : Out :=
  match s.arg with
  | .n2 q n => .next (s.dispatchPart q n)
  | _ => .next s.dispatch

/-- A hart's watchdog: 1,000,000 cycles of the Kiln's clock, in the module's (R3, R354). -/
def watchdogCycles : Nat := 1500000

/-- Has the watchdog of a hart counted out? It counts from the last instruction that the hart retired, and not while the hart
waits for a signal (log entry 6). -/
def State.watchdogDue (s : State) (h : Nat) : Bool := !(s.hart h).waiting && (s.hart h).since + watchdogCycles ≤ s.cycle

/-- KILN_WATCHDOG: the hart restarts, GEN is repaired, and every entry in PEND is resolved (R264, R354, R364). -/
def State.watchdog (s : State) (h : Nat) : State :=
  let s := s.modHart h fun x => { mtvec := x.mtvec, pending := x.pending, since := s.cycle }
  let gone (p : Pending) : Bool := p.ev == .kilnDispatch && p.arg != .none
  let s := { s with agenda := s.agenda.filter fun p => !gone p }
  let s := s.modKiln fun k => { k with queues := k.queues.map fun kv => (kv.1, kv.2.repair) }
  let pend := s.kiln.queues.filter fun kv => kv.2.valid.pend ≠ 0xFFFFFFFF
  (pend.foldl (fun (s : State) kv => s.send 0 .kilnDispatch (.n2 kv.1 3)) s).send 0 .kilnDispatch .none

def execKilnWatchdog (s : State) : Out :=
  match s.arg with
  | .n1 h => if h < 4 ∧ s.watchdogDue h then .next (s.watchdog h) else .next s
  | _ => .next s

/-- KILN_TIMER: TIMER is pending, and a gated module wakes (R34, R362). -/
def execKilnTimer (s : State) : Out :=
  let s := s.signal 5
  .next (if s.kiln.gated then s.send 0 .wakeSequence .none else s)

end Sys2Proof.Machine
end

