-- ==== Sys2Proof/Machine/Links.lean ====
section
/-! DEFINITION. Packets and flits on the links (R243 to R251, R353): how a packet becomes flits, the choice of an output
port, retries and acknowledgements, reassembly, truncation and PARTITION_DOWN. A packet of the agenda can happen at once;
where it crosses a link, FLIT_SEND takes it there, and it happens when its tail has arrived (log entry 19). -/

namespace Sys2Proof.Machine

/-! ### Packets as flits (R243, R244) -/

/-- What a packet's header says, with the nodes it goes between. -/
structure Wire where
  cls : Nat
  kind : Nat
  flits : Nat
  src : Nat
  dst : Nat
  chan : BitVec 6 := 0
  from_ : Handle := 0
  scope : ScopeId := 0
  weight : BitVec 32 := 0
  desc : Desc := 0
  deriving DecidableEq, Repr

/-- What the payload of a packet adds to it: channel, sending strand, scope, weight, descriptor. -/
def Wire.with (w : Wire) (ev : Instr) : Payload → Wire
  | .msg m => { w with chan := m.chan, from_ := m.sender, scope := m.scope, weight := m.weight }
  | .reply r => { w with from_ := r.sender }
  | .refused _ (.msg m) => { w with scope := m.scope, weight := m.weight }
  | .refused _ (.cmd c) => { w with scope := c.scope, weight := c.weight }
  | .queueWord _ c h _ _ => { w with chan := c, from_ := h }
  | .syncReq r => { w with from_ := r.handle, scope := r.scope }
  | .ctx _ _ c => { w with from_ := c.origin, scope := c.scope, weight := c.weight }
  | .handler _ c _ => { w with chan := BitVec.ofNat 6 c }
  | .cmd c => { w with from_ := c.issuer, scope := c.scope, weight := c.weight }
  | .steal _ h _ _ => { w with from_ := h }
  | .stolen _ _ _ (some c) => { w with scope := c.scope, weight := c.weight }
  | .tokReq _ q => { w with from_ := q.handle, scope := q.scope }
  | .memReq r => { w with desc := r.desc.getD 0 }
  | .memAns a => { w with desc := a.desc }
  | .grant g => { w with from_ := if g.giver.kind = .strand then g.giver.id else 0, scope := g.scope }
  | .weight id n _ _ => { w with scope := id, weight := BitVec.ofNat 32 n }
  | .strand _ h n =>
    if ev = .barrierArrival ∨ ev = .barrierRelease then { w with from_ := h }
    else { w with from_ := h, scope := BitVec.ofNat 24 n }
  | .scopeAt id _ | .win id _ _ _ | .close id _ _ _ _ _ => { w with scope := id }
  | .creditRequest _ c h _ _ => { w with chan := c, from_ := h }
  | _ => w

/-- The packet that an event of the agenda is; none for what no packet carries (R353). -/
def Pending.wire (e : Pending) : Option Wire :=
  if e.route = 0 then none
  else
    (packetOf e.ev e.arg).map fun p =>
      ({ cls := p.1, kind := p.2.1, flits := p.2.2, src := routeSrc e.route, dst := routeDst e.route } : Wire).with e.ev e.arg

/-- DUNIT (R244): at a core its arrival queue, its instruction store and handler table, or its mailbox and queues. -/
def Wire.unit (w : Wire) : Nat :=
  if 512 ≤ w.dst ∧ w.dst < 1024 then (w.dst - 512) % 16
  else if w.dst = kilnNode then 15
  else if w.kind = 8 ∨ w.kind = 9 then 2
  else if w.kind = 6 ∨ w.kind = 10 ∨ w.kind = 12 ∨ w.kind = 13 then 1
  else 0

/-- DNODE: a logical core, or 16 times the cluster of a unit. -/
def Wire.node (w : Wire) : Nat :=
  if w.dst < 512 then w.dst else if w.dst < 1024 then (w.dst - 512) / 16 * 16 else if w.dst = kilnNode then 0 else (w.dst - 2048) % 512

/-- SRC: the sending strand, or 0x8000_0000 and the number of a unit: an engine's (R261), or a number of the model's own. -/
def Wire.srcWord (w : Wire) : BitVec 32 :=
  let u := (w.src - 512) % 16
  if (w.src < 512 ∨ 2048 ≤ w.src) ∧ w.from_ ≠ 0 then w.from_
  else if 512 ≤ w.src ∧ w.src < 1024 ∧ 3 ≤ u ∧ u ≤ 6 then BitVec.ofNat 32 (0x80000000 + 4 * ((w.src - 512) / 16) + u - 3)
  else BitVec.ofNat 32 (0x80001000 + w.src)

/-- The device of a node: 0 for this one. -/
def nodeDev (n : Nat) : Nat := (n - 2048) / 512

/-- The header's three doublewords, dw0 lowest (R244). -/
def Wire.header (w : Wire) : BitVec 192 :=
  (w.scope ++ 0#8 ++ w.weight) ++ (w.srcWord ++ BitVec.ofNat 16 (nodeDev w.src) ++ 0#16)
    ++ (BitVec.ofNat 16 (nodeDev w.dst) ++ BitVec.ofNat 9 w.node ++ BitVec.ofNat 5 w.unit ++ w.chan ++ BitVec.ofNat 6 (w.flits - 1)
      ++ BitVec.ofNat 6 w.kind ++ 0#16)

def hdrKind (h : BitVec 192) : Nat := (h.extractLsb' 16 6).toNat
def hdrUnit (h : BitVec 192) : Nat := (h.extractLsb' 34 5).toNat
def hdrNode (h : BitVec 192) : Nat := (h.extractLsb' 39 9).toNat
def hdrDev (h : BitVec 192) : Nat := (h.extractLsb' 48 16).toNat
def hdrSrc (h : BitVec 192) : Handle := h.extractLsb' 96 32
def hdrScope (h : BitVec 192) : ScopeId := h.extractLsb' 168 24
def hdrWeight (h : BitVec 192) : Nat := (h.extractLsb' 128 32).toNat

/-! ### The links of the module (R16, R19, R21) -/

/-- The routers are numbered as the clusters, 0 to 31; behind them come the I/O die and, past its peer links, the peers. -/
def ioDie : Nat := 32
def outside : Nat := 33

/-- The routers that nodes and headers name. -/
def nodeRouter (n : Nat) : Nat :=
  if n < 512 then n / 16 else if n < 1024 then (n - 512) / 16 else if n = kilnNode then ioDie else outside

def hdrRouter (h : BitVec 192) : Nat :=
  if hdrDev h ≠ 0 then outside else if hdrUnit h = 15 then ioDie else hdrNode h / 16

/-- Output port `j` of a router: 0 to 7 the links to the routers of its quadrant by their number in it, 8 the global link of
routers 1 to 3 and the bridge of router 0, 9 the local ports. Of the I/O die: 0 to 3 the bridges to the quadrants, then the
12 peer links. -/
def portAt (router j : Nat) : Nat := 16 * router + j

/-- Where a port leads; none where there is no link. -/
def portEnd (p : Nat) : Option Nat :=
  let r := p / 16
  let j := p % 16
  if r = ioDie then if j < 4 then some (8 * j) else some outside
  else if r = outside then if 4 ≤ j then some ioDie else none
  else if outside < r then none
  else if j < 8 then if j = r % 8 then none else some (8 * (r / 8) + j)
  else if j = 8 then
    if r % 8 = 0 then some ioDie
    else if r % 8 ≤ 3 then some (8 * ((r / 8 + r % 8) % 4) + (4 - r % 8))
    else none
  else if j = 9 then some r
  else none

/-- The port towards another quadrant: by the router that hosts its global link. -/
def globalPort (here quad : Nat) : Nat :=
  let k := (quad + 4 - quadOf here) % 4
  portAt here (if here % 8 = k then 8 else k)

/-- The minimal route's next port (R22): at most one local hop to a gateway, the global link, one local hop. -/
def State.minimalPort (s : State) (here dest dev : Nat) : Nat :=
  if here = ioDie then
    if dest = outside then
      let up := (s.peers.get (0, 0, 0) (dev - 1)).2.1
      portAt ioDie (4 + ((List.range 12).find? fun i => up.getLsbD i).getD 0)
    else portAt ioDie (quadOf dest)
  else if ioDie ≤ dest then portAt here (if here % 8 = 0 then 8 else 0)
  else if here = dest then portAt here 9
  else if quadOf here = quadOf dest then portAt here (dest % 8)
  else globalPort here (quadOf dest)

/-- The next port of a packet that has come by port `p` (R22): from a link of the quadrant, on its way to another, it takes
the global link of this router. -/
def State.onwardPort (s : State) (p dest dev : Nat) : Nat :=
  let here := (portEnd p).getD 0
  if p / 16 < ioDie ∧ p % 16 < 8 ∧ dest < ioDie ∧ quadOf here ≠ quadOf dest then portAt here 8
  else s.minimalPort here dest dev

/-- May a packet use a link? Between partitions only the Kiln's control traffic passes (R29, R351). -/
def State.linkOpen (s : State) (p kind : Nat) : Bool :=
  let r := p / 16
  kind == 47 || p % 16 != 8 || ioDie ≤ r || (s.cluster r).linken.getLsbD (r % 8)

/-- Does the way from a port to a destination use open links only? `n` bounds its length. -/
def State.wayOpen (s : State) (dest dev kind : Nat) : Nat → Nat → Bool
  | 0, _ => false
  | n + 1, p =>
    s.linkOpen p kind && (match portEnd p with
      | none => false
      | some r => r == dest || s.wayOpen dest dev kind n (s.onwardPort p dest dev))

/-- The ports that a packet may take at its source: the minimal one; a B packet without ORD between quadrants may go by one
intermediate quadrant of INTERMASK instead (R22, R251). -/
def State.firstPorts (s : State) (w : Wire) : List Nat :=
  let here := nodeRouter w.src
  let dest := nodeRouter w.dst
  let away := w.cls == 2 && here < ioDie && dest < ioDie && quadOf here != quadOf dest
  let by_ (q : Nat) : Bool := away && q != quadOf here && q != quadOf dest && (s.cluster here).intermask.getLsbD q
  let ports := s.minimalPort here dest (nodeDev w.dst) :: ((List.range 4).filter by_).map (globalPort here)
  ports.filter (s.wayOpen dest (nodeDev w.dst) w.kind 8)

/-- The cluster whose health monitor counts for a link: the receiving one's (R249). A link between the I/O die and a peer
device, which lies in no partition, has cluster 0: DESIGN CHOICE (R29; log entry 70). -/
def portCluster (p : Nat) : Nat :=
  match portEnd p with
  | some r => if r < ioDie then r else if p / 16 < ioDie then p / 16 else 0
  | none => 0

/-- The class of a listed kind (R353). -/
def kindClass (k : Nat) : Option Nat :=
  if k < 16 then some 1 else if k < 22 then some 2 else if 32 ≤ k ∧ k < 50 then some 0 else none

/-- One bit into the CRC register. -/
def crcStep (c : BitVec 16) (b : Bool) : BitVec 16 := if c.msb != b then (c <<< 1) ^^^ 0x1021 else c <<< 1

/-- The bits that a flit's CRC covers: the payload's bytes in order, then sideband [42:16], high bits first (log entry 19). -/
def flitBits (f : Flit) : List Bool :=
  (List.range 512).map (fun i => f.payload.getLsbD (8 * (i / 8) + 7 - i % 8))
    ++ (List.range 27).map fun i => f.side.getLsbD (42 - i)

def flitCrc (f : Flit) : BitVec 16 := (flitBits f).foldl crcStep 0xFFFF

/-! ### Sideband fields (R243) -/

def flitCls (f : Flit) : Nat := (f.side.extractLsb' 41 2).toNat
def flitHead (f : Flit) : Bool := f.side.getLsbD 40
def flitTail (f : Flit) : Bool := f.side.getLsbD 39
def flitAbort (f : Flit) : Bool := f.side.getLsbD 37
def flitSeq (f : Flit) : BitVec 5 := f.side.extractLsb' 32 5
def flitCrcOk (f : Flit) : Bool := f.side.extractLsb' 0 16 == flitCrc f

/-- Sets SEQ and CRC, as every transmission does. -/
def stampFlit (f : Flit) (seq : BitVec 5) : Flit :=
  let side : BitVec 43 := f.side.extractLsb' 37 6 ++ seq ++ f.side.extractLsb' 16 16 ++ 0#16
  let f := { f with side := side }
  { f with side := side ||| (flitCrc f).setWidth 43 }

/-- Sixty-four bits of data that a flit carries: where the manual does not lay a packet's data out, free values. -/
def State.freeBlock (s : State) : Block × State :=
  ((List.range 8).foldl (fun (b : Block) i => (b <<< 64) ||| (Config.freeWord (s.fresh + i)).setWidth 512) 0, { s with fresh := s.fresh + 8 })

/-- The sideband of a flit before its transmission (R243). U and C packets carry ORD (R251). -/
def sideOf (cls : Nat) (head tail abort : Bool) (desc : Desc) : BitVec 43 :=
  BitVec.ofNat 2 cls ++ BitVec.ofBool head ++ BitVec.ofBool tail ++ BitVec.ofBool (cls != 2) ++ BitVec.ofBool abort ++ 0#5
    ++ desc ++ 0#16

/-- The flits of a packet, in order. -/
def State.flitsOf (s : State) (w : Wire) (parcel : Nat) : List Flit × State :=
  (List.range w.flits).foldl (fun (acc : List Flit × State) i =>
    let (b, s) := acc.2.freeBlock
    let payload : Block := if i = 0 then (b <<< 192) ||| w.header.setWidth 512 else b
    let side := sideOf w.cls (i == 0) (i + 1 == w.flits) false (if w.cls = 2 ∧ i ≠ 0 then w.desc else 0#16)
    (acc.1 ++ [{ payload := payload, side := side, parcel := parcel }], s)) ([], s)

/-! ### Links -/

def State.link (s : State) (p : Nat) : Link := s.links.get {} p
def State.modLink (s : State) (p : Nat) (f : Link → Link) : State := { s with links := s.links.insert p (f (s.link p)) }
def Link.class_ (l : Link) (c : Nat) : LinkClass := l.cls.get {} c
def Link.setClass (l : Link) (c : Nat) (x : LinkClass) : Link := { l with cls := l.cls.insert c x }
def State.modClass (s : State) (p c : Nat) (f : LinkClass → LinkClass) : State :=
  s.modLink p fun l => l.setClass c (f (l.class_ c))

/-- The lane of one link: flits arrive in the order they were sent. -/
def linkLane (p : Nat) : Nat := laneOf 3 p 2

/-- A flit joins those that wait at an output port. -/
def State.queueFlit (s : State) (p c : Nat) (f : Flit) : State := s.modClass p c fun x => { x with queue := x.queue ++ [f] }

/-- A start message may go by flits only while no rank of its launch has started: its truncation starts none (R250). -/
def State.mayFlit (s : State) (e : Pending) : Bool :=
  match e.ev, e.arg with
  | .start, .ctx _ none c => (s.agenda.filter (·.starts c.scope)).length == c.nrank.toNat
  | _, _ => true

/-- The packet of an event of the agenda leaves by a port of its source that its route allows: the event waits for its tail. -/
def State.inject1 (s : State) (p i : Nat) : State :=
  match s.agenda[i]? with
  | none => s
  | some e =>
    match e.wire with
    | none => s
    | some w =>
      if e.parcel ≠ 0 ∨ !s.mayFlit e ∨ !(s.firstPorts w).contains p then s
      else
        let n := s.fresh + 1
        let (fs, s) := ({ s with fresh := n }).flitsOf w n
        let s := { s with agenda := s.agenda.set i { e with parcel := n } }
        fs.foldl (fun s f => s.queueFlit p w.cls f) s

/-! ### FLIT_SEND (R246, R247, R249) -/

/-- The next flit of a class: of the packet in progress, or the oldest, which starts one. -/
def LinkClass.next (c : LinkClass) : Option Flit :=
  if c.current = 0 then c.queue.head? else c.queue.find? fun f => f.parcel = c.current

/-- Has a class a flit ready, room in its retry buffer, and go from the port downstream (R246, R248, R249)? -/
def LinkClass.ready (c : LinkClass) : Bool := c.next.isSome && c.retryBuf.length < 32 && 8 < 24 - c.buffer

/-- The class that sends: the highest candidate. Once B has been a candidate at 3 flit times in a row without being sent, no
C or U packet starts until a B flit has been sent (R247). -/
def Link.choose (l : Link) : Option Nat :=
  [0, 1, 2].find? fun c => (l.class_ c).ready && !(c != 2 && l.bar && (l.class_ c).current == 0)

/-- A class without the flit it has sent. -/
def LinkClass.without (c : LinkClass) (f : Flit) : LinkClass :=
  { c with queue := c.queue.erase f, current := if flitTail f then 0 else f.parcel }

/-- The count of R247 after a flit time in which class `sent` was sent, or none. -/
def Link.waited (l : Link) (sent : Option Nat) : Link :=
  if sent = some 2 then { l with bWait := 0, bar := false }
  else
    let n := if (l.class_ 2).ready then l.bWait + 1 else 0
    { l with bWait := n, bar := l.bar || 3 ≤ n }

/-- One flit time of an output port. A flit that has come through the router leaves its input buffer. -/
def State.sendFlit (s : State) (p : Nat) : State :=
  let l := s.link p
  if l.stopped ∨ (portEnd p).isNone then s
  else
    let sent := l.choose
    let s := s.modLink p (·.waited sent)
    match sent.bind fun c => ((l.class_ c).next).map fun f => (c, f) with
    | none => s
    | some (c, f0) =>
      let x := (l.class_ c).without f0
      let f := stampFlit f0 x.seq
      let s := s.modClass p c fun _ => { x with retryBuf := x.retryBuf ++ [(x.seq, f, 1)], seq := x.seq + 1 }
      let s := match f0.via with
        | some q => s.modClass q c fun y => { y with buffer := y.buffer - 1 }
        | none => s
      s.push { due := s.cycle + 1, lane := linkLane p, ev := .flitArrival, arg := .flit p f }

/-- The unit behind an input port has taken flits of each class out of the input buffers. -/
def State.drain (s : State) (p n : Nat) : State :=
  [0, 1, 2].foldl (fun s c => s.modClass p c fun x => { x with buffer := x.buffer - n }) s

/-- FLIT_SEND: a flit time of port `p`. `i`: one more than the place in the agenda of a packet that comes to the port, or 0;
`n`: the flits that the unit behind the link has taken since. -/
def execFlitSend (s : State) : Out :=
  match s.arg with
  | .n3 p i n => .next (((if i = 0 then s else s.inject1 p (i - 1)).drain p n).sendFlit p)
  | _ => .next s

/-! ### Truncation (R250) -/

/-- The event whose packet has a number. -/
def State.parcelAt (s : State) (n : Nat) : Option Pending := s.agenda.find? fun e => n != 0 && e.parcel == n

def State.dropParcel (s : State) (n : Nat) : State := { s with agenda := s.agenda.filter fun e => !(n != 0 && e.parcel == n) }

/-- A packet happens after all, with a changed content. -/
def State.landAs (s : State) (n : Nat) (arg : Payload) : State :=
  { s with agenda := s.agenda.map fun e => if n != 0 && e.parcel == n then { e with parcel := 0, arg := arg } else e }

/-- A packet whose tail has arrived happens. -/
def State.land (s : State) (n : Nat) : State :=
  { s with agenda := s.agenda.map fun e => if n != 0 && e.parcel == n then { e with parcel := 0 } else e }

/-- The home takes a truncated packet's weight back and issues it again to what is sent again, in one step (R250, R299; log
entry 62). -/
def State.reissue (s : State) (scope : ScopeId) (w : Nat) : State := s.modScb scope fun b => { b with issued := b.issued + w }

/-- A load whose code or handler packet was truncated starts no rank: what follows it on its way goes, and the launch
completes with TRUNCATED. -/
def State.truncateLoad (s : State) (n : Nat) : State :=
  let rest := (s.agenda.dropWhile fun e => e.parcel != n)
  match rest.findSome? fun e => match e.ev, e.arg with
      | .imageLoad, .released r _ _ _ => some (e, r)
      | _, _ => none with
  | none => s.dropParcel n
  | some (e, r) =>
    let before := s.agenda.takeWhile fun e => e.parcel != n
    let after := (rest.dropWhile fun x => x != e).drop 1
    let keep := (rest.takeWhile fun x => x != e).filter fun x => !(x.ev == .codeStore || x.ev == .handlerTableWrite)
    ({ s with agenda := before ++ keep ++ after }).loadEnds r 7

/-- A launch whose start message was truncated starts no rank on any core: its start messages go, their weight is the home's
again, and it completes with TRUNCATED. -/
def State.truncateStart (s : State) (c : Ctx) : State :=
  let starts := s.agenda.filter (·.starts c.scope)
  let units := starts.length * Config.refillWeight
  let load := s.agenda.findSome? fun p => match p.ev, p.arg with
    | .imageLoad, .started r => if r.scope = c.scope then some r else none
    | _, _ => none
  let ends (p : Pending) : Bool := p.starts c.scope || (match p.ev, p.arg with
    | .imageLoad, .started r => r.scope == c.scope
    | _, _ => false)
  let s := { s with agenda := s.agenda.filter fun p => !ends p, gangs := s.gangs.erase c.gang.toNat }
  let s := s.modScb c.scope fun b => { b with outw := b.outw - units, live := b.live - BitVec.ofNat 32 starts.length }
  match load with
  | some r => s.loadEnds r 7
  | none => s.launchFails c.scope 7

/-- A context whose packet was truncated: its origin sends it again, at most 3 times. -/
def State.truncateCtx (s : State) (n : Nat) (e : Pending) : State :=
  let t : Trap := { code := .truncated }
  match e.ev, e.arg with
  | .migration, .ctx k (some l) c =>
    if c.tries < 3 then (s.reissue c.scope c.weight.toNat).landAs n (.ctx k (some l) { c with tries := c.tries + 1 })
    else (s.dropParcel n).answerMigration c k l (.trap t)
  | .spawnPlacement, .ctx cl named c =>
    let s := s.reissue c.scope c.weight.toNat
    if c.tries < 3 then s.landAs n (.ctx cl named { c with tries := c.tries + 1 })
    else (s.dropParcel n).send 0 .wheelReplace (.ctx cl named { c with tries := 0 })
  | .start, .ctx _ none c => s.truncateStart c
  | _, _ => s.land n

/-- A truncated queue word: its credit returns to its sender, whose binding is broken. -/
def State.truncateWord (s : State) (num : Nat) : State :=
  s.modSender num fun b => { b with credits := b.credits + 1, broken := true, words := [], asked := false }

/-- The TRUNCATED of a sync-cell operation, late (R410): sw.trapaux is the window offset of the cell's sector (R187). -/
def truncatedCell (sub : BitVec 8) (key : Nat) (va : Word) : Trap :=
  { code := .truncated, sub := 0x80 ||| sub, va := va, aux := some (BitVec.ofNat 64 (blockKey key)) }

/-- A reply that is truncated after the operation: the operation is not performed (R250), so a cell that holds what it
wrote has its old value again (log entry 62). -/
def State.undoCell (s : State) (a : SyncAns) : State :=
  if a.old = a.new ∨ blockWord (s.block (blockKey a.key)) (a.key % 64 / 8) ≠ a.new then s
  else s.putSector (s.ctxAt a.handle 0 (blockKey a.key)) (blockKey a.key)
    (overlay (s.block (blockKey a.key)) (a.key % 64) (leBytes 8 a.old)) (some (s.desc (blockKey a.key)))

/-- What the destination does with a truncated packet, by its kind. -/
def State.truncated (s : State) (n : Nat) (sub : BitVec 8) : State :=
  match s.parcelAt n with
  | none => s
  | some e =>
    let t : Trap := { code := .truncated, sub := sub }
    match e.arg with
    | .memAns a => s.landAs n (.memAns { a with fault := some t })
    | .syncAns a =>
      match a.fault with
      | some _ => s.landAs n (.syncAns { a with fault := some (truncatedCell sub a.key a.va) })
      | none => (s.undoCell a).landAs n (.syncAns { a with fault := some (truncatedCell sub a.key a.va) })
    | .answer sk h k a => s.landAs n (.answer sk h k (if e.ev == .tokenQueryReply then .trap t else a))
    | .syncReq r =>
      let s := (s.dropParcel n).dropOutst r.number
      if r.op = 13 then s.ewtAtHome r 0 (some { truncatedCell sub r.key r.va with sub := sub })
      else
      s.deliver r.scope (cellReplyLane r) .syncCellReply (.syncAns
        { number := r.number, sk := r.sk, handle := r.handle, dst := r.dst, val := 0, fault := some (truncatedCell sub r.key r.va)
          va := r.va, key := r.key })
    | .memReq r =>
      if e.ev == .memoryWrite || e.ev == .memoryRead then
        (s.dropParcel n).bulk (memoryNode r.off) (partyOf r.by_) (if e.ev == .memoryWrite then .writeAcknowledgement else .readReply)
          (.memAns { number := r.number, off := blockKey r.off, data := 0, desc := 0, fault := some t, by_ := r.by_ })
      else
        match r.by_ with
        | .engine x =>
          match s.cmd x r.number with
          | some c => (s.dropParcel n).endAll c 7
          | none => s.dropParcel n
        | _ => s.dropParcel n
    | .msg m => ((s.dropParcel n).returnWeight m.scope m.fromCore 0 m.weight.toNat false false).refuse { m with weight := 0 } 4
    | .queueWord _ _ _ q _ => (s.dropParcel n).truncateWord q
    | .ctx _ _ _ => s.truncateCtx n e
    | .code _ _ _ | .handler _ _ _ => s.truncateLoad n
    | .cmd c => ((s.dropParcel n).reissue c.scope c.weight.toNat).cmdRefused c
    | _ => s.land n

/-- Closes the reassembly context of a class and ends its packet: at its destination, or downstream with a flit with TAIL and
ABORT where flits of it have gone on. The flit names the cause, in a way of the model's own. The cluster counts it
(sw.clu_trunc, R392). -/
def State.truncate (s : State) (p c : Nat) (sub : BitVec 8) : State :=
  let x := (s.link p).class_ c
  if !x.active then s
  else
    let s := s.modClass p c fun x => { x with active := false, hdr := 0, got := 0, out := none }
    let s := s.modCluster (portCluster p) fun k => { k with cluTrunc := k.cluTrunc + 1 }
    match x.out with
    | none => s.truncated x.hdrParcel sub
    | some q =>
      let (b, s) := s.freeBlock
      s.queueFlit q c { payload := b, side := sideOf c false true true 0, parcel := x.hdrParcel, cause := sub }

/-- Subcodes of TRUNCATED: TIMEOUT and PAYLOAD; of a packet that a new head cuts off no rule states it (a free value). -/
def State.cutSub (s : State) : BitVec 8 × State :=
  let (v, s) := s.freeWord
  (v.setWidth 8, s)

/-- TRUNCATION_TIMEOUT: 4,096 cycles without a further flit. -/
def execTruncationTimeout (s : State) : Out :=
  match s.arg with
  | .n2 p c =>
    if (s.link p).cls.any fun x => x.1 == c && x.2.active && decide (x.2.since + Config.truncationTime ≤ s.cycle) then
      .next (s.truncate p c 0)
    else .next s
  | _ => .next s

/-- The packets that a core has in progress on links are truncated when it dies (R379). -/
def State.truncateFrom (s : State) (pcore : Nat) : State :=
  let mine (x : LinkClass) : Bool := x.active && hdrSrc x.hdr != 0 && !(hdrSrc x.hdr).msb && handleSk (hdrSrc x.hdr) / 16 == pcore
  (s.links.flatMap fun kl => (kl.2.cls.filter fun kc => mine kc.2).map fun kc => (kl.1, kc.1)).foldl (fun s x => s.truncate x.1 x.2 0) s

/-! ### PARTITION_DOWN (R249, R352) -/

/-- The cores of a partition, by its quadrants. -/
def coresOfQuads (qs : List Nat) : List Nat := qs.flatMap fun q => (List.range 136).map (136 * q + ·)

/-- The output ports of the routers of some quadrants. -/
def portsOfQuads (qs : List Nat) : List Nat :=
  (qs.flatMap fun q => (List.range 8).map (8 * q + ·)).flatMap fun r => ((List.range 10).map (portAt r)).filter fun p => (portEnd p).isSome

/-- Every core, engine and link of a cluster's partition stops; the Kiln is told, and restarts the partition. -/
def State.partitionDown (s : State) (cluster : Nat) : State :=
  let qs := s.partQuads cluster
  let s := (coresOfQuads qs).foldl (fun s p => s.stopCore p) s
  let engines := qs.flatMap fun q => (List.range 32).map (32 * q + ·)
  let s := engines.foldl (fun (s : State) e => s.modEngine e fun x => { x with stopped := true }) s
  let reach (k : Nat) : Bool := !qs.contains (quadOf (nodeRouter (memoryNode k)))
  let s := (engines.flatMap fun e => (s.engine e).inbox).foldl (fun (s : State) c => s.engineDies c reach) s
  let s := (portsOfQuads qs).foldl (fun (s : State) p => s.modLink p fun l => { l with stopped := true }) s
  (s.signal 3).send 0 .partitionRestart (.n2 cluster 1)

/-! ### FLIT_ARRIVAL (R248, R249, R353) -/

/-- The number of times a flit has been sent. -/
def LinkClass.sent (x : LinkClass) (seq : BitVec 5) : Nat := ((x.retryBuf.find? fun e => e.1 == seq).map (·.2.2)).getD 0

/-- A flit has failed its eighth transmission: a head flit brings the partition down, another ends its packet. -/
def State.uncorrectable (s : State) (p c : Nat) (f : Flit) : State :=
  let s := s.modClass p c fun x => { x with retryBuf := x.retryBuf.filter fun e => e.1 != flitSeq f, nextSeq := flitSeq f + 1 }
  if flitHead f then s.partitionDown (portCluster p) else s.truncate p c 1

def State.countDiscard (s : State) (p : Nat) : State :=
  s.modCluster (portCluster p) fun c => { c with discard := c.discard + 1 }

/-- A flit of the packet in progress at an input port: it goes on through the router, or at its destination waits for its
tail, which ends the packet there. -/
def State.takeFlit (s : State) (p c : Nat) (f : Flit) : State :=
  let s := s.modClass p c fun x => { x with got := x.got + 1, since := s.cycle }
  let x := (s.link p).class_ c
  let s := match x.out with
    | some q => s.queueFlit q c { f with via := some p }
    | none => s
  if flitTail f then
    let s := s.modClass p c fun x => { x with active := false, hdr := 0, got := 0, out := none }
    if x.out.isSome then s else if flitAbort f then s.truncated x.hdrParcel f.cause else s.land x.hdrParcel
  else s.push { due := s.cycle + Config.truncationTime, ev := .truncationTimeout, arg := .n2 p c }

/-- A head flit opens a reassembly context; one with a kind that its class does not carry is discarded, its weight returned. -/
def State.openFlit (s : State) (p c : Nat) (f : Flit) : State :=
  let hdr : BitVec 192 := f.payload.extractLsb' 0 192
  if kindClass (hdrKind hdr) ≠ some c then
    let s := (s.countDiscard p).dropParcel f.parcel
    if hdrWeight hdr = 0 then s else s.returnWeight (hdrScope hdr) 512 0 (hdrWeight hdr) false false
  else
    let s := if ((s.link p).class_ c).active then
        let (sub, s) := s.cutSub
        s.truncate p c sub
      else s
    let dest := hdrRouter hdr
    let out := if portEnd p = some dest then none else some (s.onwardPort p dest (hdrDev hdr))
    (s.modClass p c fun x => { x with active := true, hdr := hdr, hdrParcel := f.parcel, got := 0, out := out }).takeFlit p c f

/-- A good flit in its turn: it opens, continues or ends a packet; its arrival is acknowledged. -/
def State.acceptFlit (s : State) (p c : Nat) (f : Flit) : State :=
  let s := s.modClass p c fun x => { x with nextSeq := x.nextSeq + 1, buffer := Nat.min 24 (x.buffer + 1) }
  let s := s.send 0 .flitAcknowledge (.n3 p c (flitSeq f).toNat)
  if flitHead f then s.openFlit p c f
  else if ((s.link p).class_ c).active then s.takeFlit p c f
  else s.countDiscard p

/-- FLIT_ARRIVAL: a flit that fails its CRC is asked for again; one out of its turn is left for its retransmission. -/
def State.flitArrives (s : State) (p : Nat) (f : Flit) : State :=
  let c := flitCls f
  if (s.link p).stopped ∨ 2 < c then s
  else if !flitCrcOk f then
    if 8 ≤ ((s.link p).class_ c).sent (flitSeq f) then s.uncorrectable p c f
    else s.send 0 .negativeAcknowledge (.n3 p c (flitSeq f).toNat)
  else if flitSeq f ≠ ((s.link p).class_ c).nextSeq then s
  else s.acceptFlit p c f

def execFlitArrival (s : State) : Out :=
  match s.arg with
  | .flit p f => .next (s.flitArrives p f)
  | _ => .next s

/-- NEGATIVE_ACKNOWLEDGE: the flit and every later one of its class are sent again, in order; each is counted. -/
def State.resend (s : State) (p c seq : Nat) : State :=
  let x := (s.link p).class_ c
  let from_ := x.retryBuf.dropWhile fun e => e.1.toNat != seq
  match from_ with
  | [] => s
  | (_, f, n) :: _ =>
    if 8 ≤ n then s.uncorrectable p c f
    else
      let kept := x.retryBuf.take (x.retryBuf.length - from_.length)
      let s := s.modClass p c fun x => { x with retryBuf := kept ++ from_.map fun e => (e.1, e.2.1, e.2.2 + 1) }
      from_.foldl (fun (s : State) e =>
        (s.modCluster (portCluster p) fun k => { k with retry := k.retry + 1 }).push
          { due := s.cycle + 1, lane := linkLane p, ev := .flitArrival, arg := .flit p (stampFlit e.2.1 e.1) }) s

def execNegativeAcknowledge (s : State) : Out :=
  match s.arg with
  | .n3 p c seq => .next (s.resend p c seq)
  | _ => .next s

/-- FLIT_ACKNOWLEDGE: the flit's place in the retry buffer is free. -/
def execFlitAcknowledge (s : State) : Out :=
  match s.arg with
  | .n3 p c seq => .next (s.modClass p c fun x => { x with retryBuf := x.retryBuf.filter fun e => e.1.toNat != seq })
  | _ => .next s

end Sys2Proof.Machine
end

