-- ==== Sys2Proof/Machine/Health.lean ====
section
/-! DEFINITION. Health and power: core death and its remap (R18, R213, R301, R346, R379, R407), heartbeats (R377), budget
periods (R373), timing sentinels and the supply (R380, R381), the power cap and temperature (R32), gating (R34), health
counts (R391). -/

namespace Sys2Proof.Machine

/-! ### Tokens of the dead (R213, R346) -/

/-- The fault-domain scope of a token's owner; where none is open, and for a peer's token, the tenant's root (log entry
18). -/
def State.ownerFdom (s : State) (t : Token) : ScopeId :=
  let f : ScopeId := match t.owner.kind with
    | .strand => (s.scope (((s.named t.owner.id).map (·.scope)).getD 0)).fdom
    | .scope => (s.scope (t.owner.id.setWidth 24)).fdom
    | .fdom => t.owner.id.setWidth 24
    | _ => 0
  if (s.scb f).isSome then f else (s.rootOf t.pasid).getD 0

/-- A token when parties die: `f` is its fault-domain scope, `lost` says that dirty lines of it died. What is lost is
RECLAIMING first (`State.poisonTokens`). -/
def Token.settle (t : Token) (dead : Party → Bool) (f : ScopeId) (lost : Bool) : Token :=
  let fd : Party := { kind := .fdom, id := f.setWidth 32 }
  -- a TGIVE that has issued ends the ownership (R399)
  let ownerDead := dead t.owner && !t.giving
  let lastDead : Bool := match t.borrowers.getLast? with
    | some p => dead p
    | none => false
  let live := t.borrowers.filter fun p => !dead p
  let shares := t.shares.filter fun p => !dead p
  let poison (t : Token) : Token :=
    { t with state := .reclaiming, prior := .poisoned, owner := fd, borrowers := [], shares := [], coming := [], leaving := []
             giving := false, sharing := 0, orphan := none, lost := t.lost || lost }
  let stay (t : Token) : Token :=
    { t with shares := shares, coming := t.coming.filter fun p => !dead p, leaving := t.leaving.filter fun p => !dead p }
  match t.state with
  | .free => t
  | .reclaiming =>
    if ownerDead || lastDead then poison t else { stay t with borrowers := live }
  | .lent =>
    if lastDead then poison t
    else if ownerDead || live.length < t.borrowers.length then
      let heir := t.orphan.filter fun o => live.contains o.2
      { stay t with owner := if ownerDead then fd else t.owner, borrowers := live
                    orphan := heir.or (live.getLast?.map fun p => (f, p)) }
    else t
  | .shared =>
    if ownerDead then poison t
    else { stay t with state := if shares.isEmpty then .held else .shared }
  | .poisoned => if ownerDead then { t with owner := fd } else t
  | .held | .split | .sealed_ => if ownerDead then poison t else stay t

/-- Every token when parties die with the caches of some cores. -/
def State.settleTokens (s : State) (dead : Party → Bool) (pcores : List Nat) : State :=
  { s with tokens := s.tokens.map fun t =>
      t.settle dead (s.ownerFdom t) (pcores.any fun p => (s.linesOf p t.reg t.pasid).any fun l => l.2.dirty) }

/-- The second half of the settlement: RECLAIMING becomes POISONED, but where a migration still has to end (R346). -/
def State.poisonTokens (s : State) : State :=
  { s with tokens := s.tokens.map fun t =>
      if t.state = .reclaiming ∧ t.prior = .poisoned ∧ t.migration = 0 then { t with state := .poisoned, prior := .free } else t }

/-! ### Core death (R379) -/

/-- The parties of some cores: their strands, and the channels of the logical cores they serve. -/
def State.partiesOf (s : State) (pcores : List Nat) (p : Party) : Bool :=
  match p.kind with
  | .strand => pcores.contains (handleSk p.id / 16)
  | .channel => pcores.any fun c => s.physical (channelCore p.id) == some c
  | _ => false

/-- Does a strand live on as a context on its way to another core (R326)? Not where the refusal is coming back. -/
def State.away (s : State) (st : Strand) : Bool :=
  match st.wait with
  | .migrating n _ => !s.agenda.any fun p => match p.arg with
      | .answer _ h k a => h == st.handle && k == n && a != .done
      | _ => false
  | _ => false

/-- A strand dies with its core: its weight is LOST, the SENDR it owes a reply gets DEAD, its credits are free, its gang goes on without it. One
that is away is only gone from its slot (R301). -/
def State.strandDies (s : State) (st : Strand) : State :=
  if s.away st then s.departed st.sk
  else
  let l := s.logical st.pcore
  let s := (s.drainOpens st).returnWeight st.scope l st.serial st.weight true true
  let s := s.answerOwed st l 3
  let s := match st.act with
    | some a => s.setHandler a.lcore a.chan.toNat { s.handler a.lcore a.chan.toNat with active := none, back := [] }
    | none => s
  let s := s.breakPairs st.handle
  -- the credits of its send sides are free again at their receivers (R239)
  let s := (st.queues.filter fun qb => qb.2.kind = 0).foldl (fun s qb => s.returnCredits qb.2.num qb.2.credits) s
  let s := match st.node with
    | some id => s.nodeEnds id
    | none => s
  let s := if st.nrank = 1 then s else s.memberDied st.gang.toNat st.rank.toNat l
  (s.dropStrand st.sk).workLeaves st.cluster

/-- The messages queued on a logical core go back with cause DEAD; its neighbour FIFOs are gone. -/
def State.clearBoxes (s : State) (l : Nat) : State :=
  let s := ((s.lcore l).handlers.map (·.1)).foldl (fun (s : State) c =>
    let h := s.handler l c
    h.box.foldl (fun s m => s.refuse m 3) (s.setHandler l c { h with box := [] })) s
  s.modLCore l fun c => { c with fifoL := [], fifoR := [] }

/-- The packets that waited for an answer of a core are refused with DEAD when it is declared dead (R252, R379): messages
return to their senders, and accesses of its vault raise DEAD_PEER. -/
def State.refuseWaiting (s : State) (l p : Nat) : State :=
  let mine (q : Pending) : Bool := q.ev == .message && q.dest == some l && q.parcel == 0
  let msgs := s.agenda.filterMap fun q => match q.arg with
    | .msg m => if mine q then some m else none
    | _ => none
  let s := msgs.foldl (fun s m => s.refuse m 3) { s with agenda := s.agenda.filter fun q => !mine q }
  s.strands.foldl (fun (s : State) kv => match kv.2.wait with
    | .silent q va lds =>
      if q = p ∧ lds then s.setStrand { kv.2 with wait := .none, answer := some (.trap { code := .deadPeer, va := va }) }
      else if q = p then
        (s.setStrand { kv.2 with wait := .none }).takeTrap kv.1 { code := .deadPeer, va := va } (kv.2.pc.setWidth 64)
      else s
    | _ => s) s

/-- What a core holds besides its strands is gone. -/
def Core.wiped (c : Core) : Core :=
  { c with lines := [], tiles := [], ops := [], banks := [], bankIdle := [], arrival := [], overflow := [], deque := [] }

/-- The scopes that hold weight on a core. -/
def State.weighing (s : State) (p : Nat) : List ScopeId :=
  (s.scopes.map fun kv => kv.2.id).filter fun id => s.mirror id p != 0

/-- Everything that lives on a core dies. -/
def State.coreDies (s : State) (p : Nat) : State :=
  let l := s.logical p
  let served := s.lpos p ≠ 31
  let away := (s.strands.filter fun kv => pcoreOf kv.1 = p && s.away kv.2).map fun kv => kv.2.handle
  let dead (q : Party) : Bool := s.partiesOf [p] q && !(q.kind = .strand && away.contains q.id)
  let co := s.core p
  let strands := (s.strands.filter fun kv => pcoreOf kv.1 = p).map (·.2)
  -- the tokens are settled by the owners' scopes, which are known while the strands are there
  let tokens := (s.settleTokens dead [p]).tokens
  let s := if served then (s.clearBoxes l).refuseWaiting l p else s
  let s := strands.foldl (fun s st => s.strandDies st) s
  let s := (co.arrival ++ co.overflow ++ co.deque).foldl (fun s c => s.ctxDies l c) s
  ({ s with tokens := tokens }.modCore p Core.wiped).breakTo p

/-- A core is declared dead: its packets in progress are truncated, what lives on it dies, the Kiln reports it under each code given (R379, R390), and the remap follows. -/
def State.declareDead (s : State) (p : Nat) (codes : List Nat) : State :=
  if (s.core p).dead then s
  else
    let scopes := s.weighing p
    let s := (s.truncateFrom p).coreDies p
    let s := s.modCore p fun c => { c with dead := true, stopped := true, beat := false }
    let s := codes.foldl (fun (s : State) code =>
      scopes.foldl (fun s id => s.report code id [BitVec.ofNat 64 p]) s) s
    (s.signal 4).send 0 .spareRemap (.n1 p)

/-- Forgets the bytes, descriptors and check differences of a range of memory: they read 0. -/
def State.zeroRange (s : State) (lo hi : Nat) : State :=
  let out (k : Nat) : Bool := k < lo || hi ≤ k
  { s with
    mem := s.mem.filter fun c => out c.1
    descs := s.descs.filter fun kv => out kv.1
    errs := s.errs.filter fun kv => out kv.1
    badTags := s.badTags.filter out }

/-- SPARE_REMAP: the settlement of the tokens ends (log entry 24); the spare, its vault cleared and its instruction store written from the Kiln's copy, serves the logical id;
with no spare left the id is retired (R18, R379, R407). -/
def State.remap (s : State) (p : Nat) : State :=
  let c := clusterOf p
  let pos := s.lpos p
  if !(s.core p).dead ∨ pos = 31 ∨ s.isRetired (16 * c + pos) then s
  else
    let spare := 17 * c + 16
    if (s.core spare).dead ∨ (s.spares.find c).isSome then
      (s.modCore (17 * c + pos) fun x => { x with retired := true }).report 0 0 [BitVec.ofNat 64 c]
    else
      let s := s.zeroRange (vaultKey spare 0) (vaultKey spare 0 + Config.vaultSize)
      let s := (s.lcore (16 * c + pos)).copy.foldl (fun (s : State) kv => s.writeRaw (istoreKey spare kv.1) [kv.2]) s
      { s with spares := s.spares.insert c pos }

def execSpareRemap (s : State) : Out :=
  match s.arg with
  | .n1 p => .next (s.poisonTokens.remap p)
  | _ => .next s.poisonTokens

/-! ### Heartbeats (R377) -/

/-- The lane of the sends and of the ends of the windows: they happen in order of their cycles. -/
def beatLane : Nat := laneOf 3 0 1

/-- Schedules an event for a cycle. -/
def State.at_ (s : State) (cycle lane : Nat) (ev : Instr) (arg : Payload) : State :=
  s.push { due := cycle, lane := lane, ev := ev, arg := arg }

/-- The cores send in order of their position, those of one position in one cycle: core `k` of a window. -/
def beatCore (k : Nat) : Nat := 17 * (k % 32) + k / 32

/-- Is a core powered and not stopped? -/
def State.beats (s : State) (p : Nat) : Bool :=
  let c := s.core p
  !c.stopped && !c.dead && !c.gated && !s.powerOff

/-- HEARTBEAT_SEND of window `w`, core `k`, at cycle 4,096w + 8p; then the next core, or the end of the window. -/
def State.sendBeat (s : State) (w k : Nat) : State :=
  let p := beatCore k
  let s := if s.beats p then
      s.push { due := s.cycle + 1, route := laneOf 0 (s.logical p) (unitNode (clusterOf p) 11), ev := .heartbeat, arg := .n1 p }
    else s
  if k + 1 < Config.pcores then
    s.at_ (Config.heartbeatWindow * w + 8 * ((k + 1) / 32)) beatLane .heartbeatSend (.n2 w (k + 1))
  else s.at_ (Config.heartbeatWindow * (w + 1)) beatLane .heartbeatWindowEnd (.n1 w)

def execHeartbeatSend (s : State) : Out :=
  match s.arg with
  | .n2 w k => .next (s.sendBeat w k)
  | _ => .next s

/-- HEARTBEAT: one of a core that has been declared dead is ignored (R378). -/
def execHeartbeat (s : State) : Out :=
  match s.arg with
  | .n1 p => .next (if (s.core p).dead then s else s.modCore p fun c => { c with beat := true })
  | _ => .next s

/-- The monitor looks at one core: a third window in a row without a heartbeat declares it dead. A gated core does not
miss one (R34). -/
def State.judge (s : State) (p : Nat) : State :=
  let c := s.core p
  if c.dead then s
  else if c.beat then s.modCore p fun c => { c with beat := false, missed := 0 }
  else if c.gated then s
  else
    let s := s.modCore p fun c => { c with missed := c.missed + 1 }
    if c.missed + 1 = 3 then s.declareDead p [2] else s

def State.windowEnds (s : State) (w : Nat) : State :=
  ((List.range Config.pcores).foldl (fun s p => s.judge p) s).at_ (Config.heartbeatWindow * (w + 1)) beatLane .heartbeatSend (.n2 (w + 1) 0)

/-- HEARTBEAT_WINDOW_END. -/
def execHeartbeatWindowEnd (s : State) : Out :=
  match s.arg with
  | .n1 w => .next (s.windowEnds w)
  | _ => .next s

/-! ### Sentinels and the supply (R380, R381) -/

/-- SENTINEL_REPLAY: the event is counted; nothing that a program sees changes. -/
def execSentinelReplay (s : State) : Out :=
  match s.arg with
  | .n1 p =>
    let s := s.modCore p fun c => { c with sent := c.sent + 1 }
    .next (s.modCluster (clusterOf p) fun c => { c with sentcl := c.sentcl + 1 })
  | _ => .next s

/-- The cores of a quadrant. -/
def quadCores (q : Nat) : List Nat := (List.range 136).map (136 * q + ·)

/-- One quadrant at the end of a supply window, in which the Kiln reads and clears each SENT (log entry 24): a core with 1,024 events at 740 mV dies; noise raises the supply, quiet
lowers it. -/
def State.adjustQuad (s : State) (q : Nat) : State :=
  let cores := quadCores q
  let mv := s.supply.get 675 q
  let count (c : Core) : Core :=
    { c with noisy := if 64 ≤ c.sent.toNat then c.noisy + 1 else 0
             quiet := if c.sent.toNat < 4 then c.quiet + 1 else 0, sent := 0 }
  let heavy := cores.filter fun p => mv = 740 && 1024 ≤ (s.core p).sent.toNat
  let s := cores.foldl (fun s p => s.modCore p count) s
  let s := heavy.foldl (fun s p => s.declareDead p [2, 6]) s
  let up := cores.any fun p => 2 ≤ (s.core p).noisy
  let down := cores.all fun p => 16 ≤ (s.core p).quiet
  let mv' := if up then Nat.min 740 (mv + 5) else if down then Nat.max 675 (mv - 5) else mv
  { s with supply := s.supply.put 675 q mv' }

/-- SUPPLY_ADJUST of window `w`. -/
def execSupplyAdjust (s : State) : Out :=
  match s.arg with
  | .n1 w =>
    let s := (List.range 4).foldl (fun s q => s.adjustQuad q) s
    .next (s.at_ (Config.supplyWindow * (w + 2)) 0 .supplyAdjust (.n1 (w + 1)))
  | _ => .next s

/-! ### Gating (R34) -/

/-- Is a cluster idle: no strand, context, message, command or node, and no launch on its cores? -/
def State.clusterIdle (s : State) (c : Nat) : Bool :=
  let cores := (List.range 17).map (17 * c + ·)
  let ls := (List.range 16).map (16 * c + ·)
  (s.strands.all fun kv => clusterOf (pcoreOf kv.1) ≠ c)
    && (cores.all fun p => (s.core p).arrival.isEmpty && (s.core p).overflow.isEmpty && (s.core p).deque.isEmpty)
    && (ls.all fun l => (s.lcore l).handlers.all fun h => h.2.box.isEmpty)
    && ((List.range 4).all fun e => (s.engine (4 * c + e)).inbox.isEmpty)
    && ((s.cluster c).nodes.all fun n => n.2.state == .free)
    && s.launches.all fun kv => ls.all fun l => !kv.2.has l

/-- Writes back the dirty lines of a core and keeps them. -/
def State.cleanCore (s : State) (p : Nat) : State :=
  let s := (s.core p).lines.foldl (fun (s : State) l => s.writeBack p l.1 l.2) s
  s

/-- The Kiln gates itself when every cluster is gated and no queue holds an entry to dispatch (R34). -/
def State.mayGateKiln (s : State) : Bool :=
  ((List.range Config.clusters).all fun c => (s.cluster c).gated) && !s.undispatched && s.kilnUp

/-- Dirty lines are written back, the register banks go OFF, and the cores and engines of the cluster are gated. -/
def State.gateCluster (s : State) (c : Nat) : State :=
  let gate (s : State) (p : Nat) : State :=
    (s.cleanCore p).modCore p fun c => { c with gated := true, banks := [], bankIdle := [] }
  let s := ((List.range 17).map (17 * c + ·)).foldl gate s
  let s := s.modCluster c fun x => { x with gated := true }
  if s.mayGateKiln then s.send 0 .kilnGate .none else s

/-- CLUSTER_GATE: a cluster that has been idle for 2^20 cycles. -/
def execClusterGate (s : State) : Out :=
  match s.arg with
  | .n1 c =>
    if c < 32 ∧ s.clusterIdle c ∧ !(s.cluster c).gated ∧ s.idleAt.get 0 c + 2 ^ 20 ≤ s.cycle then .next (s.gateCluster c)
    else .next s
  | _ => .next s

/-- KILN_GATE. -/
def execKilnGate (s : State) : Out :=
  .next (if s.mayGateKiln then s.modKiln fun k => { k with gated := true } else s)

/-- WAKE_SEQUENCE: the harts go on, and the latch replays its doorbells, but not before READY. -/
def execWakeSequence (s : State) : Out :=
  let s := s.modKiln fun k => { k with gated := false }
  .next (if s.kilnUp then s.replayLatch else s)

/-- CORE_WAKE: a packet's core wakes before the delivery. -/
def execCoreWake (s : State) : Out :=
  match s.arg with
  | .n1 p => .next (s.wakeCore p)
  | _ => .next s

/-! ### Budget periods (R373) -/

/-- The cone maxima that the Kiln has set take effect. -/
def Scb.newCones (b : Scb) : Scb :=
  match b.capped with
  | some (i, f, m) => { b with issmax := i, fltmax := f, memmax := m, capped := none }
  | none => b

/-- A new period: cone counters are 0 and new cone fields hold; a cluster that has been idle for 2^20 cycles before the next
one is to be gated then. -/
def State.newPeriod (s : State) : State :=
  let core (c : Core) : Core := { c with issued := [] }
  let cluster (c : Cluster) : Cluster := { c with flits := [], sectors := [] }
  let s := { s with
    cores := s.cores.map fun kv => (kv.1, core kv.2)
    clusters := s.clusters.map fun kv => (kv.1, cluster kv.2)
    scopes := s.scopes.map fun kv => (kv.1, kv.2.newCones) }
  (List.range Config.clusters).foldl (fun (s : State) c =>
    let gate := s.idleAt.get 0 c + 2 ^ 20
    if !(s.cluster c).gated && s.clusterIdle c && gate < s.cycle + Config.budgetPeriod then
      s.after (gate - s.cycle) .clusterGate (.n1 c)
    else s) s

/-- BUDGET_PERIOD_START of period `p`, in its first cycle. -/
def execBudgetPeriodStart (s : State) : Out :=
  match s.arg with
  | .n1 p =>
    let s := s.newPeriod.at_ (Config.budgetPeriod * (p + 1)) 0 .budgetPeriodStart (.n1 (p + 1))
    .next (if s.mayGateKiln then s.send 0 .kilnGate .none else s)
  | _ => .next s

/-! ### Power (R32) -/

/-- A lower maximum, not below the minimum: how much lower is open (a free value). -/
def lowered (lo hi : BitVec 16) (v : Word) : BitVec 16 :=
  if hi ≤ lo then hi else lo + BitVec.ofNat 16 (v.toNat % (hi.toNat - lo.toNat))

/-- The cone maxima of a scope for the next period. -/
def Scb.maxima (b : Scb) : BitVec 16 × BitVec 16 × BitVec 16 := b.capped.getD (b.issmax, b.fltmax, b.memmax)

/-- Can a maximum of the scope be lowered? -/
def Scb.lowerable (b : Scb) : Bool :=
  b.parent != 0 && (b.issmin < b.maxima.1 || b.fltmin < b.maxima.2.1 || b.memmin < b.maxima.2.2)

/-- Lowers the maxima of one scope from the next period on. -/
def State.lowerScope (s : State) (id : ScopeId) : State :=
  let (v, s) := s.freeWord
  s.modScb id fun b =>
    let (i, f, m) := b.maxima
    { b with capped := some (lowered b.issmin i v, lowered b.fltmin f (v >>> 16), lowered b.memmin m (v >>> 32)) }

/-- Power is above the cap: the highest tier with a maximum above its minimum gives way; with none left no scope is
admitted, and the host learns it. -/
def State.overCap (s : State) : State :=
  let open_ := (s.scopes.map (·.2)).filter Scb.lowerable
  match ([3, 2, 1, 0] : List (BitVec 2)).find? fun t => open_.any fun b => b.tier == t with
  | some t => (open_.filter fun b => b.tier == t).foldl (fun s b => s.lowerScope b.id) s
  | none => ({ s with noAdmit := true }).report 0 0 [BitVec.ofNat 64 s.powerCap]

/-- MODULE_POWER_CROSSES_CAP: above the cap, or below it again. -/
def execModulePowerCrossesCap (s : State) : Out :=
  match s.arg with
  | .flag true => .next (s.overCap.signal 8)
  | .flag false => .next (({ s with noAdmit := false }).signal 8)
  | _ => .next s

/-- THERMAL_LIMIT: 105 °C is an exceeded cap. -/
def execThermalLimit (s : State) : Out := .next (s.overCap.signal 8)

/-- Is a key in the compute, vault or memory dies? -/
def isDieKey (k : Nat) : Bool := k < Config.hostBase || (Config.vaultBase ≤ k && k < Config.sramBase)

/-- Everything in the compute, vault and memory dies is lost: no strand, core, cluster, engine or link holds anything, and
nothing is in flight; with the memories go the logs and injections of their controllers, the translation store, the queues' control blocks, the dispatch log and the
saved strands. The I/O die keeps its own. -/
def State.darken (s : State) : State :=
  { s with
    mem := s.mem.filter fun c => !isDieKey c.1
    descs := s.descs.filter fun kv => !isDieKey kv.1
    errs := s.errs.filter fun kv => !isDieKey kv.1
    badTags := [], seals := [], strands := [], cores := [], lcores := [], clusters := [], engines := [], links := [], pairs := [], tokens := []
    scopes := [], launches := [], gangs := [], images := [], domains := [], kept := [], spares := [], ltimes := [], stuck := []
    trans := [], oldTrans := [], agenda := [], outst := [], unitLogs := [], unitInject := []
    kiln := { s.kiln with queues := [], tails := [], log := [], saves := [] } }

/-- THERMAL_SHUTDOWN: MODE 3, with the cause for the host to read (R32); its number 3 is the model's (log entry 54). -/
def execThermalShutdown (s : State) : Out :=
  .next (({ s.darken with powerOff := true }).modKiln fun k => { k with mode := 3, cause := 3 })

/-! ### Health counts (R391) -/

/-- HEALTH_EVENT: count `n` of a cluster's monitor goes up by one. -/
def execHealthEvent (s : State) : Out :=
  match s.arg with
  | .n2 c n =>
    if c < 32 ∧ n < 7 then .next (s.modCluster c fun x => x.setCount n (x.count n + 1)) else .next s
  | _ => .next s

/-- REFRESH_FAULT of a stack: it belongs to no granule, and is counted in the cluster of the first router of its pair (R21,
R391). -/
def execRefreshFault (s : State) : Out :=
  match s.arg with
  | .n1 u =>
    if u < 8 then .next (s.modCluster (8 * (u / 2) + 4 + 2 * (u % 2)) fun c => { c with uncorr := c.uncorr + 1 }) else .next s
  | _ => .next s

end Sys2Proof.Machine
end

