-- ==== Sys2Proof/Machine/Boot.lean ====
section
/-! DEFINITION. Start-up, recovery and reset (R18, R357, R365 to R367), attestation (R368), peer links (R369), and the restart
of a partition (R352). -/

namespace Sys2Proof.Machine

/-! ### Slots (R365) -/

/-- Bytes 0x000 to 0x0AF of a slot's header, which its signature covers. -/
def slotHeader (x : SlotImage) : List Byte :=
  leBytes 4 x.magic ++ leBytes 4 x.version ++ leBytes 4 x.svn ++ x.reserved.take 4 ++ leBytes 8 (BitVec.ofNat 64 x.length)
    ++ (leBytes 48 x.bodyHash).reverse ++ x.pubKey ++ (x.reserved.drop 4).take 7

/-- The size that a slot leaves for its body. -/
def bodyMax : Nat := 2 ^ 26 - 512

/-- Key, signature, reserved bytes and body of a slot. -/
def slotSigned (x : SlotImage) : Bool :=
  Config.sha384 x.pubKey == Config.keyHash && Config.ecdsaVerify x.pubKey (slotHeader x) x.signature
    && x.reserved.all (· == 0) && Config.sha384 x.body == x.bodyHash

def slotSized (x : SlotImage) : Bool := x.length ≤ bodyMax && x.body.length == x.length

/-- Is a slot valid against the anti-rollback counter? -/
def slotOk (fuses : BitVec 8) (x : SlotImage) : Bool := slotSized x && slotSigned x && fuses.toNat ≤ x.svn.toNat && x.svn.toNat < 64

def Kiln.slotIs (k : Kiln) (b : Bool) : Option SlotImage := if b then k.slotB else k.slotA

def Kiln.slotValid (k : Kiln) (b : Bool) : Bool :=
  match k.slotIs b with
  | some x => slotOk k.fuses x
  | none => false

/-- Of two valid slots the one with the higher SVN, then the higher VERSION, then A; true stands for B. -/
def Kiln.best (k : Kiln) : Option Bool :=
  match k.slotValid false, k.slotValid true with
  | false, false => none
  | true, false => some false
  | false, true => some true
  | true, true =>
    match k.slotA, k.slotB with
    | some a, some b => some (a.svn < b.svn || (a.svn == b.svn && a.version < b.version))
    | _, _ => none

/-! ### Start-up (R365 to R367) -/

/-- Ten seconds (R366). -/
def tenSeconds : Nat := 15000000000

/-- The firmware starts, and has 10 s to reach READY. -/
def State.startFirmware (s : State) : State :=
  let old (p : Pending) : Bool := p.ev == .firmwareBringup || p.ev == .firmwareTimeout
  let s := { s with agenda := s.agenda.filter fun p => !old p }
  let s := s.modKiln fun k => { k with harts := k.harts.map fun kv => (kv.1, { kv.2 with since := s.cycle }) }
  (s.send 0 .firmwareBringup .none).after tenSeconds .firmwareTimeout .none

/-- The module runs a slot. -/
def State.runSlot (s : State) (b : Bool) : State :=
  let svn : BitVec 8 := match s.kiln.slotIs b with
    | some x => x.svn.setWidth 8
    | none => 0
  (s.modKiln fun k => { k with mode := 0, slot := if b then 1 else 0, svn := svn }).startFirmware

/-- RECOVERY_ENTRY: compute, vault and memory power stay off. -/
def State.enterRecovery (s : State) (cause : BitVec 8) : State :=
  ({ s with powerOff := true }).modKiln fun k => { k with mode := 2, cause := cause }

/-- POWER_ON: the boot ROM runs the best valid slot, or the module enters recovery. -/
def State.powerOn (s : State) : State :=
  let s := s.modKiln fun k => { k with failures := 0 }
  match s.kiln.best with
  | some b => s.runSlot b
  | none => s.enterRecovery 1

def execPowerOn (s : State) : Out := .next s.powerOn

/-- The clocked events from the next boundaries on. -/
def State.startClocks (s : State) : State :=
  let next (n : Nat) : Nat := s.cycle / n + 1
  let w := next Config.heartbeatWindow
  let p := next Config.budgetPeriod
  let v := next Config.supplyWindow
  let s := s.at_ (Config.heartbeatWindow * w) beatLane .heartbeatSend (.n2 w 0)
  let s := s.at_ (Config.budgetPeriod * p) 0 .budgetPeriodStart (.n1 p)
  s.at_ (Config.supplyWindow * v) 0 .supplyAdjust (.n1 (v - 1))

/-- FIRMWARE_BRINGUP (R366, R411, R412): memories zero, stores clear, banks OFF; routing words of one partition; the heartbeats;
READY with tenant 0's root, queue 0 if the host asked for it, and the latched doorbells. -/
def State.bringUp (s : State) : State :=
  let old := s.agenda.filter fun p => p.ev != .firmwareTimeout
  let s := ({ s.darken with powerOff := false, agenda := old }).routeTable
  let s := match s.freeScope 0 with
    | some id => s.makeRoot (rootScb id 0 0 0)
    | none => s
  let s := s.startClocks.modKiln fun k => { k with mode := 1, failures := 0 }
  s.makeQueue0.replayLatch

def execFirmwareBringup (s : State) : Out := if s.kiln.mode = 0 then .next s.bringUp else .next s

/-- FIRMWARE_TIMEOUT: the firmware is restarted; after the third failure in a row the other slot is tried, and after both
have failed the module enters recovery. -/
def State.bootTimeout (s : State) : State :=
  let n := s.kiln.failures + 1
  let cur : Bool := s.kiln.slot == 1
  let s := s.modKiln fun k => { k with failures := n }
  if n = 3 then
    if s.kiln.slotValid !cur then s.runSlot !cur else s.enterRecovery 2
  else if 6 ≤ n then s.enterRecovery 2
  else s.runSlot cur

def execFirmwareTimeout (s : State) : Out := if s.kiln.mode = 0 then .next s.bootTimeout else .next s

/-- SVNCOMMIT: the counter rises to the running SVN. -/
def execSvncommit (s : State) : Out :=
  match s.arg with
  | .word _ v =>
    if v = s.kiln.svn.setWidth 64 then
      .next (s.modKiln fun k => { k with fuses := if k.fuses < k.svn then k.svn else k.fuses })
    else .next s
  | _ => .next s

/-- The answer to WRITE_SLOT: 3 SIZE, 1 BADSIG, 2 ROLLBACK, 0 OK. -/
def slotAnswer (fuses : BitVec 8) (x : SlotImage) : Word :=
  if !slotSized x then 3 else if !slotSigned x then 1 else if !slotOk fuses x then 2 else 0

/-- Where the upload buffer stands in BAR0, and its end (R367). -/
def uploadBase : Nat := 0x4000000
def uploadEnd : Nat := 0x8000000

/-- Bytes of the upload buffer. -/
def Kiln.uploaded (k : Kiln) (off n : Nat) : List Byte :=
  (List.range n).map fun i => ((k.buffer.get 0 ((off + i) / 8)) >>> (8 * ((off + i) % 8))).setWidth 8

/-- The image of `len` bytes in the upload buffer: header and body (R365). -/
def Kiln.uploadedSlot (k : Kiln) (len : Nat) : SlotImage :=
  let n (off w : Nat) : Nat := ofLe (k.uploaded off w)
  { magic := BitVec.ofNat 32 (n 0 4), version := BitVec.ofNat 32 (n 4 4), svn := BitVec.ofNat 32 (n 8 4), length := n 0x10 8
    bodyHash := BitVec.ofNat 384 (ofLe (k.uploaded 0x18 48).reverse), pubKey := k.uploaded 0x48 97, signature := k.uploaded 0xB0 96
    reserved := k.uploaded 0xC 4 ++ k.uploaded 0xA9 7 ++ k.uploaded 0x110 240, body := k.uploaded 512 (len - 512) }

/-- The mailbox's check is over: an image that fails leaves both slots as they are. -/
def State.checkSlot (s : State) : State :=
  let len := (s.kiln.mboxArg.extractLsb' 8 24).toNat
  let b := s.kiln.mboxArg.getLsbD 0
  let x := s.kiln.uploadedSlot len
  let r := if len < 512 then 3 else slotAnswer s.kiln.fuses x
  s.modKiln fun k => { k with
    mboxResp := r
    slotA := if r = 0 ∧ !b then some x else k.slotA
    slotB := if r = 0 ∧ b then some x else k.slotB }

/-- The host writes the upload buffer, the mailbox's argument or its command, in the recovery window: WRITE_SLOT answers busy
until its check is over; RESET resets the module. A command is the signal MAILBOX (R362, R367). -/
def State.mailbox (s : State) (off : Nat) (v : Word) : State :=
  if uploadBase ≤ off ∧ off < uploadEnd ∧ off % 8 = 0 then
    s.modKiln fun k => { k with buffer := k.buffer.put 0 ((off - uploadBase) / 8) v }
  else match off, v.toNat with
    | 0x808, _ => s.modKiln fun k => { k with mboxArg := v }
    | 0x800, 1 =>
      if s.kiln.mboxResp = 0xFF then s
      else ((s.modKiln fun k => { k with mboxCmd := v, mboxResp := 0xFF }).signal 6).send 0 .writeSlot .none
    | 0x800, 2 => ((s.modKiln fun k => { k with mboxCmd := v }).signal 6).send 0 .reset .none
    | _, _ => s

/-- WRITE_SLOT, in the recovery window, which a thermal shutdown leaves open too (R32). -/
def execWriteSlot (s : State) : Out :=
  if s.kiln.mode ≠ 2 ∧ s.kiln.mode ≠ 3 then .next s
  else match s.arg with
    | .word off v => .next (s.mailbox off v)
    | .none => .next (if s.kiln.mboxResp = 0xFF then s.checkSlot else s)
    | _ => .next s

/-- What the host reads of BAR0 in recovery (R367); the manual does not give what the boot log's entries hold. -/
def State.recoveryWord (s : State) (off : Nat) : Option Word :=
  let k := s.kiln
  match off with
  | 0x000 => some (0#48 ++ k.cause ++ k.slot ++ k.mode)
  | 0x008 => some (0#48 ++ k.fuses ++ k.svn)
  | 0x018 => some (BitVec.ofNat 64 s.ktime)
  | 0x800 => some k.mboxCmd
  | 0x808 => some k.mboxArg
  | 0x810 => some k.mboxResp
  | _ =>
    if 0x100 ≤ off ∧ off < 0x500 ∧ off % 8 = 0 then some (k.bootlog.get 0 ((off - 0x100) / 8))
    else if uploadBase ≤ off ∧ off < uploadEnd ∧ off % 8 = 0 then some (k.buffer.get 0 ((off - uploadBase) / 8))
    else none

/-! ### Resets (R18, R357, R367) -/

/-- Events that come from outside the module, but for the check of a slot, which does not: a reset does not undo them. -/
def fromOutside : Instr → Bool
  | .doorbell | .queue0Create | .hostBar2Access | .svncommit | .writeSlot | .reset | .coldReset | .spdmRequest | .kilnControl
  | .peerLinkUp | .peerLinkDown | .thermalLimit | .thermalShutdown | .modulePowerCrossesCap => true
  | _ => false

/-- Every reset value, but what does not hang on the module's power: host memory, flash and fuses, and the always-on part
with KTIME, the wake latch and the BAR0 registers of queue 0. The model's own fields go on. -/
def State.coldReset (s : State) : State :=
  let k := s.kiln
  let kiln : Kiln :=
    { slotA := k.slotA, slotB := k.slotB, fuses := k.fuses, ktime0 := s.ktime, latched := k.latched, latchOrder := k.latchOrder
      q0ring := k.q0ring, q0size := k.q0size, q0create := k.q0create }
  { State.reset with
    mem := s.mem.filter fun c => isHost c.1
    kiln := kiln
    agenda := State.reset.agenda ++ s.agenda.filter fun p => fromOutside p.ev && !(p.ev == .writeSlot && p.arg == .none)
    sched := s.sched, fresh := s.fresh }

def execColdReset (s : State) : Out := .next s.coldReset

/-- RESET: the mailbox of the recovery window resets the module. -/
def execReset (s : State) : Out := if s.kiln.mode = 2 ∨ s.kiln.mode = 3 then .next s.coldReset else .next s

/-! ### Attestation (R368) -/

/-- The body of the slot that runs. -/
def Kiln.runningBody (k : Kiln) : List Byte := ((k.slotIs (k.slot == 1)).map (·.body)).getD []

/-- The bytes of a measurement (log entry 6). -/
def State.measurement (s : State) (i : Nat) : Option (List Byte) :=
  let k := s.kiln
  let hash (b : List Byte) : List Byte := (leBytes 48 (Config.sha384 b)).reverse
  match i with
  | 1 => some (hash Config.bootRom)
  | 2 => some (hash k.runningBody)
  | 3 => some (((k.slotIs (k.slot == 1)).map fun x => leBytes 4 x.version ++ leBytes 4 x.svn).getD [])
  | 4 => some (leBytes 1 k.fuses ++ (leBytes 48 Config.keyHash).reverse)
  | 5 => some ((List.range 4).flatMap (fun q => leBytes 8 (s.readReg (.partition q))) ++ leBytes 8 (BitVec.ofNat 64 s.powerCap))
  | _ => none

/-- SPDM_REQUEST: the measurement, signed by the alias key. -/
def execSpdmRequest (s : State) : Out :=
  match s.arg with
  | .n1 i =>
    match s.measurement i with
    | some b =>
      let sig := Config.aliasSign (Config.sha384 s.kiln.runningBody) b
      .next (s.modKiln fun k => { k with measured := k.measured ++ [(i, b ++ sig)] })
    | none => .next s
  | _ => .next s

/-! ### Peers (R369) -/

/-- The Kiln makes or ends the pair of a tenant with a peer device (R369). -/
def State.pairTenant (s : State) (dev : Nat) (tenant : BitVec 12) (on : Bool) : State :=
  let rest (k : Kiln) := k.paired.filter (· != (dev, tenant))
  s.modKiln fun k => { k with paired := if on then (dev, tenant) :: rest k else rest k }

/-- KILN_CONTROL: a control packet of a peer's Kiln; with 1 it completes the authentication of that device; one that names a
tenant makes or ends its pair (log entry 41). A gated module wakes (R34). -/
def execKilnControl (s : State) : Out :=
  let s := if s.kiln.gated then s.send 0 .wakeSequence .none else s
  match s.arg with
  | .n2 dev 1 =>
    .next ((s.modKiln fun k => { k with peersAuth := if k.peersAuth.contains dev then k.peersAuth else dev :: k.peersAuth }).signal 7)
  | .n3 dev tenant on => .next ((s.pairTenant dev (BitVec.ofNat 12 tenant) (on == 1)).signal 7)
  | _ => .next (s.signal 7)

/-- PEER_LINK_UP: the links of a mask reach a device whose Kiln has authenticated itself. -/
def State.peerLinks (s : State) (dev links : Nat) : State :=
  let e := s.peers.get (0, 0, 0) (dev - 1)
  { s with peers := s.peers.put (0, 0, 0) (dev - 1) (1, e.2.1 ||| BitVec.ofNat 12 links, e.2.2) }

def execPeerLinkUp (s : State) : Out :=
  match s.arg with
  | .n2 dev links =>
    if 1 ≤ dev ∧ dev ≤ 1024 ∧ links % 4096 ≠ 0 ∧ s.kiln.peersAuth.contains dev then .next ((s.peerLinks dev links).signal 7)
    else .next s
  | _ => .next s

/-- Is an event a packet on its way to a peer device? -/
def Pending.toPeer (p : Pending) (dev : Nat) : Bool := p.route != 0 && nodeDev (routeDst p.route) == dev

/-- The peer device that an event is a packet of; 0 for this device. -/
def Pending.peerOf (p : Pending) : Nat :=
  if p.route != 0 && nodeDev (routeSrc p.route) != 0 then nodeDev (routeSrc p.route)
  else match p.arg with
    | .msg m => m.fromCore / 512
    | .queueWord _ _ _ n _ | .creditRequest _ _ _ n _ => n / 2 ^ 40
    | _ => 0

/-- Is an event a packet of a peer device? -/
def Pending.fromPeer (p : Pending) : Bool := p.peerOf != 0

/-- A peer packet starts the wake sequence of a gated Kiln (R34). -/
def State.peerWakes (s : State) (p : Pending) : State :=
  if s.kiln.gated && p.fromPeer then s.send 0 .wakeSequence .none else s

/-- The peer device that a packet which has left went to. -/
def payloadPeer : Payload → Option Nat
  | .msg m => if m.lcore < 512 then none else some (m.lcore / 512)
  | .queueWord l _ _ _ _ | .creditRequest l _ _ _ _ => if l < 512 then none else some (l / 512)
  | _ => none

/-- A device is out of reach: messages to it and its own packets on their way are truncated, bindings to it break, and the tokens of its parties are settled
as at core death. -/
def State.peerGone (s : State) (dev : Nat) : State :=
  let d : BitVec 16 := BitVec.ofNat 16 dev
  let lost := (s.agenda.filter (·.toPeer dev)).map (·.arg) ++ (s.peerOut.filter fun x => payloadPeer x.2 == some dev).map (·.2)
  let binding (b : Binding) : Binding :=
    if b.pdev = d then { b with broken := true, dead := true, words := [] } else b
  let strand (st : Strand) : Strand := { st with queues := st.queues.map fun qb => (qb.1, binding qb.2) }
  let s := { s with
    agenda := s.agenda.filter fun p => !p.toPeer dev && p.peerOf != dev
    peerOut := s.peerOut.filter fun x => payloadPeer x.2 != some dev
    strands := s.strands.map fun kv => (kv.1, strand kv.2) }
  let s := lost.foldl (fun (s : State) x => match x with
    | .msg m =>
      let s := s.returnWeight m.scope m.fromCore 0 m.weight.toNat false false
      if m.wantReply then s.reply m.sk m.sender m.number (.words 4 []) else s.reply m.sk m.sender m.number (.refused 3)
    | _ => s) s
  (s.settleTokens (fun p => p.kind == .peer && p.dev == d) []).send 0 .spareRemap .none

/-- PEER_LINK_DOWN: with its last link the device is down. -/
def State.peerLinkLost (s : State) (dev links : Nat) : State :=
  let e := s.peers.get (0, 0, 0) (dev - 1)
  let left := e.2.1 &&& ~~~(BitVec.ofNat 12 links)
  let s := { s with peers := s.peers.put (0, 0, 0) (dev - 1) (if left = 0 then 2 else e.1, left, e.2.2) }
  if left = 0 then s.peerGone dev else s

def execPeerLinkDown (s : State) : Out :=
  match s.arg with
  | .n2 dev links =>
    if 1 ≤ dev ∧ dev ≤ 1024 ∧ (s.peers.get (0, 0, 0) (dev - 1)).1 = 1 then .next ((s.peerLinkLost dev links).signal 7) else .next s
  | _ => .next s

/-! ### The restart of a partition (R352) -/

def State.setPartState (s : State) (qs : List Nat) (v : BitVec 2) : State :=
  qs.foldl (fun (s : State) q => { s with parts := s.parts.put (0, 0) q (v, (s.parts.get (0, 0) q).2) }) s

/-- The scopes of a partition but for the tenants' roots, which never close, those below first. -/
def State.scopesOf (s : State) (qs : List Nat) : List ScopeId :=
  let all := (s.scopes.map (·.2)).filter fun b => b.parent != 0 && qs.contains (quadOf (homeCluster b.id))
  let depth (b : Scb) : Nat := (s.ancestors b.id).length
  (List.range (s.scopes.length + 1)).reverse.flatMap fun n => (all.filter fun b => depth b == n).map (·.id)

/-- The tenants' roots at home in a partition. -/
def State.rootsOf (s : State) (qs : List Nat) : List ScopeId :=
  ((s.scopes.map (·.2)).filter fun b => b.parent = 0 && qs.contains (quadOf (homeCluster b.id))).map (·.id)

/-- Step 1: DOWN; the scopes close as DAMAGED; the failing router is reported to each scope of the partition, and where it
has none, to no fault domain. -/
def State.restart1 (s : State) (cluster : Nat) : State :=
  let qs := s.partQuads cluster
  let s := s.setPartState qs 1
  let told := s.rootsOf qs ++ (if (s.rootsOf qs ++ s.scopesOf qs).isEmpty then [0] else [])
  let s := told.foldl (fun (s : State) id => s.report 3 id [BitVec.ofNat 64 cluster]) s
  (s.scopesOf qs).foldl (fun (s : State) id =>
    match s.scb id with
    | some b =>
      let s := (s.closeScope { b with damaged := true }).report 3 id [BitVec.ofNat 64 cluster]
      { s with domains := s.domains.erase id.toNat }
    | none => s) s

/-- The scope that a packet or a context in flight belongs to. -/
def payloadScope : Payload → Option ScopeId
  | .msg m => some m.scope
  | .refused _ (.msg m) => some m.scope
  | .refused _ (.cmd c) => some c.scope
  | .syncReq r => some r.scope
  | .ctx _ _ c | .sentTo _ _ _ c => some c.scope
  | .load r => some r.scope
  | .released r _ _ _ | .started r => some r.scope
  | .cmd c => some c.scope
  | .stolen _ _ _ (some c) => some c.scope
  | .tokReq _ r => some r.scope
  | .grant g => some g.scope
  | .scopeOp _ _ _ scope _ _ => some scope
  | .node _ _ c => some c.scope
  | _ => none

/-- Borrowings of the engines of some quadrants return to their lenders. -/
def Token.leaveEngines (t : Token) (qs : List Nat) : Token :=
  match t.borrowers.getLast? with
  | some p =>
    if t.state = .lent ∧ p.kind = .engine ∧ qs.contains ((p.id.toNat - 0x80000000) / 32) then
      let rest := t.borrowers.dropLast
      { t with borrowers := rest, state := if rest.isEmpty then .held else .lent, coming := t.coming.erase p, leaving := t.leaving.erase p }
    else t
  | none => t

/-- Step 2: every party of the partition is dead. What its closed scopes had in flight goes with them. -/
def State.restart2 (s : State) (cluster : Nat) : State :=
  let qs := s.partQuads cluster
  let cores := coresOfQuads qs
  let tokens := s.tokens.map fun t => t.leaveEngines qs
  let s := ({ s with tokens := tokens }).settleTokens (s.partiesOf cores) cores |>.poisonTokens
  let here (p : Nat) : Bool := qs.contains (quadOf (clusterOf p))
  let alive (id : ScopeId) : Bool := id == 0 || (s.scb id).isSome
  let box (h : Handler) : Handler := { h with box := [], active := none }
  let lcore (kv : Nat × LCore) : Nat × LCore :=
    if qs.contains (quadOf (kv.1 / 16)) then
      (kv.1, { kv.2 with fifoL := [], fifoR := [], handlers := kv.2.handlers.map fun h => (h.1, box h.2) })
    else kv
  let cl (kv : Nat × Cluster) : Nat × Cluster := if qs.contains (quadOf kv.1) then (kv.1, { kv.2 with nodes := [] }) else kv
  let stays (p : Pending) : Bool := match payloadScope p.arg with
    | some id => alive id
    | none => true
  let saves := s.kiln.saves.filter fun kv => alive kv.2.st.scope
  let gone := (s.strands.filter fun kv => here (pcoreOf kv.1)).map fun kv => kv.2.handle
  let strands := s.strands.filter fun kv => !here (pcoreOf kv.1)
  let cores := s.cores.map fun kv => if here kv.1 then (kv.1, kv.2.wiped) else kv
  let pairs := s.pairs.filter fun p => !(gone.contains p.outH || gone.contains p.inH)
  { s with
    strands := strands
    cores := cores
    lcores := s.lcores.map lcore
    clusters := s.clusters.map cl
    pairs := pairs
    kept := s.kept.filter fun x => saves.any fun kv => kv.2.st.opens.any fun r => r.num == x.1
    kiln := { s.kiln with saves := saves }
    agenda := s.agenda.filter stays }

/-- Step 3: RESTARTING; cores, engines and routers are reset. A core that is dead or retired stays so, and handles of its
slots do not come again. -/
def State.restart3 (s : State) (cluster : Nat) : State :=
  let qs := s.partQuads cluster
  let here (p : Nat) : Bool := qs.contains (quadOf (clusterOf p))
  let core (c : Core) : Core :=
    { gens := c.gens, dead := c.dead, retired := c.retired, stopped := c.dead, logs := c.logs, inject := c.inject, sent := c.sent
      coreIssue := c.coreIssue, coreIdle := c.coreIdle, coreWakes := c.coreWakes }
  let s := s.setPartState qs 2
  { s with
    cores := s.cores.map fun kv => if here kv.1 then (kv.1, core kv.2) else kv
    engines := s.engines.filter fun kv => !qs.contains (quadOf (kv.1 / 4))
    links := s.links.filter fun kl => !(portsOfQuads qs).contains kl.1 }

/-- PARTITION_RESTART, step by step; after step 4 the partition runs, and no work resumes by itself. -/
def execPartitionRestart (s : State) : Out :=
  match s.arg with
  | .n2 c 1 => .next ((s.restart1 c).send 0 .partitionRestart (.n2 c 2))
  | .n2 c 2 => .next ((s.restart2 c).send 0 .partitionRestart (.n2 c 3))
  | .n2 c 3 => .next ((s.restart3 c).send 0 .partitionRestart (.n2 c 4))
  | .n2 c 4 => .next (s.setPartState (s.partQuads c) 0)
  | _ => .next s

end Sys2Proof.Machine
end

