-- ==== Sys2Proof/Machine/Control.lean ====
section
/-! DEFINITION. Branches, calls and window moves (R126 to R130), and access to the status words (R56, R57, R131, R132, R392). -/

namespace Sys2Proof.Machine

/-! ### BR (R126) -/

/-- Where a branch goes: its target when p[g] XOR n is 1, else the next instruction. -/
def branchTo {k : Nat} (g : BitVec 3) (n : BitVec 1) (o : BitVec k) (len : Nat) (st : Strand) : Except Trap (BitVec 17) :=
  if st.p g != (n == 1) then target st.pc o else .ok (st.pc + BitVec.ofNat 17 len)

def execBr (g : BitVec 3) (n : BitVec 1) (o : BitVec 20) (s : State) : Out := runJump clsScalar (branchTo g n o 4) s
def execBrCompact (g : BitVec 3) (n : BitVec 1) (o : BitVec 9) (s : State) : Out := runJump clsScalar (branchTo g n o 2) s

/-! ### Calls and returns (R127 to R129) -/

/-- The common part of CALL and CALLR, with the target in hand. -/
def callTo (n : BitVec 5) (t : BitVec 17) (st : Strand) : Act Next := do
  let ret : BitVec 17 := st.pc + 4
  if 0xFFFE < ret.toNat then raise (fetchFault ret)
  else if st.s < n.toNat then raise { code := .regUnallocated, aux := n.setWidth 64 }
  else
    moveWindow st
      { w := st.w + n.toNat, s := st.s - n.toNat, push := some ⟨false, st.s, n.toNat, ret.setWidth 16⟩ }
    pure (.goto t)

def callBody (n : BitVec 5) (o : BitVec 16) (st : Strand) : Act Next := do
  let t ← liftT (target st.pc o)
  callTo n t st

def callrBody (n a : BitVec 5) (st : Strand) : Act Next := do
  liftT (st.sources [a])
  let t ← liftT (regTarget (st.xv a))
  callTo n t st

def execCall (n : BitVec 5) (o : BitVec 16) (s : State) : Out := runAct clsScalar 4 0 true (callBody n o) s
def execCallr (n a : BitVec 5) (s : State) : Out := runAct clsScalar 4 0 true (callrBody n a) s

/-- JMPR reads its target first. -/
def jmprTo (a : BitVec 5) (st : Strand) : Except Trap (BitVec 17) :=
  match st.sources [a] with
  | .error t => .error t
  | .ok () => regTarget (st.xv a)

def execJmpr (a : BitVec 5) (s : State) : Out := runJump clsScalar (jmprTo a) s

/-- The move that pops a record: W − n and the size the record holds (R38). -/
def Strand.popMove (st : Strand) (r : LinkRec) : Move := { w := st.w - r.n, s := r.s, pop := true }

/-- RET pops a call record; a trap record is ILLEGAL, an empty stack STACK_LIMIT 2 (R39). -/
def retBody (i : Instr) (st : Strand) : Act Next := do
  match st.links with
  | [] => raise { code := .stackLimit, aux := some 2 }
  | r :: _ =>
    if r.trap then raise (illegal i)
    else
      moveWindow st (st.popMove r)
      pure (.goto (r.pc.setWidth 17))

def execRet (s : State) : Out := runAct clsScalar 4 0 true (retBody .ret) s
def execRetCompact (s : State) : Out := runAct clsScalar 2 0 true (retBody .retCompact) s

/-! ### ALLOC (R130) -/

/-- n = W[15] × 32 + n5. -/
def allocSize (n : BitVec 5) (h : BitVec 1) : Nat := 32 * h.toNat + n.toNat

def allocBody (n : BitVec 5) (h : BitVec 1) (st : Strand) : Act Next := do
  let k := allocSize n h
  if 32 < k then raise { code := .regUnallocated, aux := BitVec.ofNat 64 k }
  else
    moveWindow st { w := st.w, s := k }
    pure .seq

def execAlloc (n : BitVec 5) (h : BitVec 1) (s : State) : Out := runAct clsScalar 4 0 true (allocBody n h) s

/-! ### Status words (R56) -/

/-- How a word may be accessed: RO, RW, privileged, or RW within a trap handler. -/
inductive SwAccess where
  | ro
  | rw
  | priv
  | handler
  deriving DecidableEq, Repr

/-- The map of the status words (R56, R392); none: no such word. -/
def swAccess (n : Nat) : Option SwAccess :=
  if n ≤ 0x004 ∨ (0x010 ≤ n ∧ n ≤ 0x012) ∨ n = 0x050 ∨ n = 0x051 ∨ n = 0x060 ∨ n = 0x061
      ∨ (0x210 ≤ n ∧ n ≤ 0x212) ∨ (0x220 ≤ n ∧ n ≤ 0x223) then some .ro
  else if (0x020 ≤ n ∧ n ≤ 0x023) ∨ (0x030 ≤ n ∧ n ≤ 0x035) ∨ n = 0x070 ∨ (0x200 ≤ n ∧ n ≤ 0x20B)
      ∨ (0x230 ≤ n ∧ n ≤ 0x233) then some .rw
  else if n = 0x052 ∨ (0x234 ≤ n ∧ n ≤ 0x237) then some .priv
  else if 0x040 ≤ n ∧ n ≤ 0x043 then some .handler
  else none

/-- Words whose reading a QUANTA scope forbids: sw.cycle, and the counters marked T (R56, R385, R392). -/
def swTimed (n : Nat) : Bool :=
  n == 0x010 || (0x207 ≤ n && n ≤ 0x20B) || (0x210 ≤ n && n ≤ 0x212) || (0x220 ≤ n && n ≤ 0x223)
    || (0x230 ≤ n && n ≤ 0x233)

/-- The value of a word (R56, R131). -/
def State.readSw (s : State) (st : Strand) (n : Nat) : Word :=
  let co := s.core st.pcore
  let cl := s.cluster st.cluster
  match n with
  | 0x000 => zx st.handle
  | 0x001 => zx st.scope
  | 0x002 => zx st.rank
  | 0x003 => zx st.nrank
  | 0x004 => BitVec.ofNat 64 (s.logical st.pcore)
  | 0x010 => BitVec.ofNat 64 s.cycle
  | 0x011 => st.retired
  | 0x012 => zx st.quantum
  | 0x020 => st.ox0
  | 0x021 => st.ox1
  | 0x022 => st.ox2
  | 0x023 => st.ox3
  | 0x030 => zx st.frm
  | 0x031 => zx st.fflags
  | 0x032 => zx st.vfmt
  | 0x033 => zx st.mfmt
  | 0x034 => st.rkey0
  | 0x035 => st.rkey1
  | 0x040 => zx st.trapcode
  | 0x041 => st.trappc
  | 0x042 => st.trapva
  | 0x043 => st.trapaux
  | 0x050 => BitVec.ofNat 64 st.w
  | 0x051 => BitVec.ofNat 64 st.s
  | 0x052 => st.spillbase
  | 0x060 => zx st.sender
  | 0x061 => zx st.chan
  | 0x070 => st.digest
  | 0x210 => co.coreIssue
  | 0x211 => co.coreIdle
  | 0x212 => co.coreWakes
  | 0x220 => cl.cluFlits
  | 0x221 => cl.retry
  | 0x222 => cl.cluTrunc
  | 0x223 => cl.sentcl
  | _ => if 0x234 ≤ n then zx (st.evs.get 0 n) else st.perf.get 0 n

/-- MTS to sw.spillbase (R132): bits [13:0] are ignored; a place outside the strand's own vault, or an area that ends at
offset 0x80_0000 (log entry 44), raises PATH. -/
def State.spillTo (s : State) (st : Strand) (v : Word) : Except Trap Strand :=
  let base : Word := v &&& ~~~0x3FFF#64
  if v.extractLsb' 50 4 ≠ 3 ∨ (v.extractLsb' 23 9).toNat ≠ s.logical st.pcore
      ∨ 0x800000 ≤ (base.extractLsb' 0 23).toNat + 0x4000 then .error { code := .path, va := v }
  else .ok { st with spillbase := base }

/-- What MTS writes; reserved bits are ignored (R56, R132). -/
def State.writeSw (s : State) (st : Strand) (n : Nat) (v : Word) : Except Trap Strand :=
  match n with
  | 0x020 => .ok { st with ox0 := v }
  | 0x021 => .ok { st with ox1 := v }
  | 0x022 => .ok { st with ox2 := v }
  | 0x023 => .ok { st with ox3 := v }
  | 0x030 => .ok { st with frm := v.setWidth 2 }
  | 0x031 => .ok { st with fflags := v.setWidth 6 }
  | 0x032 => .ok { st with vfmt := v.setWidth 16 }
  | 0x033 => .ok { st with mfmt := v.setWidth 16 }
  | 0x034 => .ok { st with rkey0 := v }
  | 0x035 => .ok { st with rkey1 := v }
  | 0x040 => .ok { st with trapcode := v.setWidth 16 }
  | 0x041 => .ok { st with trappc := v }
  | 0x042 => .ok { st with trapva := v }
  | 0x043 => .ok { st with trapaux := v }
  | 0x052 => s.spillTo st v
  | 0x070 => .ok { st with digest := v }
  | _ => if 0x234 ≤ n then .ok { st with evs := st.evs.insert n (v.setWidth 10) }
         else .ok { st with perf := st.perf.insert n v }

/-- MFS: ILLEGAL, PRIV, DETERMINISM, REG_UNALLOCATED in that order (R114). -/
def mfsBody (s : State) (d : BitVec 5) (n : BitVec 12) (st : Strand) : Except Trap Strand :=
  match swAccess n.toNat with
  | none => .error (illegal (.mfs d n))
  | some a =>
    if a = .priv ∧ !s.isSys st.scope then .error { code := .priv }
    else if s.isQuanta st.scope && swTimed n.toNat then .error { code := .determinism, aux := zx n }
    else st.writeX d (s.readSw st n.toNat) false

def execMfs (d : BitVec 5) (n : BitVec 12) (s : State) : Out := runPure clsScalar 4 0 (mfsBody s d n) s

/-- What a write of a word waits for: sw.fflags, the operations of the strand that are under way, whose flags are part of
the value it replaces (R57; log entry 45); sw.spillbase, a spill or fill of the strand in progress (R132). -/
def State.swWait (s : State) (st : Strand) (n : Nat) : Option Wait :=
  if n = 0x031 ∧ (s.core st.pcore).moving st.sk then some .tile
  else if n = 0x052 ∧ s.transferring st.sk then some .transfer
  else none

/-- MTS: ILLEGAL, PRIV, then the source, then the word's own check (R114, R132). Its own retirement is counted after the
write, so that sw.ret_scalar holds one more than was written (R392; log entry 46). -/
def mtsBody (a : BitVec 5) (n : BitVec 12) (st : Strand) : Act Next := do
  let s ← get
  match swAccess n.toNat with
  | none => raise (illegal (.mts a n))
  | some acc =>
    if acc = .ro ∨ (acc = .priv ∧ !s.isSys st.scope) ∨ (acc = .handler ∧ st.trapDepth = 0) then raise { code := .priv }
    else
      liftT (st.sources [a])
      let st' ← liftT (s.writeSw st n.toNat (st.xv a))
      match s.swWait st n.toNat with
      | some w => holdFor w
      | none =>
        setMe st'
        pure .seq

def execMts (a : BitVec 5) (n : BitVec 12) (s : State) : Out := runAct clsScalar 4 0 true (mtsBody a n) s

end Sys2Proof.Machine
end

