-- ==== Sys2Proof/Machine/Float.lean ====
section
/-! DEFINITION. Major FLT and the floating compares of PRED (R124, R133 to R140). -/

namespace Sys2Proof.Machine

/-! ### Operands and results (R133) -/

/-- The format of a suffix: `.s` FP32, `.d` FP64. -/
def fltFmt (z : BitVec 1) : Fmt := if z = 0 then fmtFp32 else fmtFp64
/-- The operand a register holds: bits [31:0], or the whole register. -/
def fltBits (z : BitVec 1) (x : Word) : Nat := if z = 0 then (x.extractLsb' 0 32).toNat else x.toNat
def fltNum (z : BitVec 1) (x : Word) : Num := unpack (fltFmt z) (fltBits z x)

/-- Rounds a result with the flags raised so far. -/
def fltResult (f : Fmt) (frm : BitVec 2) (r : Num × BitVec 6) : Word × BitVec 6 :=
  let (p, fl) := pack f (modeOf frm) r.1
  (BitVec.ofNat 64 p, r.2 ||| fl)

/-! ### Arithmetic (R134) -/

def execFadd (d a b : BitVec 5) (g : BitVec 3) (z : BitVec 1) (s : State) : Out :=
  runPure clsScalar 4 g (floatOp [a, b] (fun st =>
    fltResult (fltFmt z) st.frm (Num.add (modeOf st.frm) (fltNum z (st.xv a)) (fltNum z (st.xv b)))) d) s
def execFsub (d a b : BitVec 5) (g : BitVec 3) (z : BitVec 1) (s : State) : Out :=
  runPure clsScalar 4 g (floatOp [a, b] (fun st =>
    fltResult (fltFmt z) st.frm (Num.add (modeOf st.frm) (fltNum z (st.xv a)) (fltNum z (st.xv b)).neg)) d) s
def execFmul (d a b : BitVec 5) (g : BitVec 3) (z : BitVec 1) (s : State) : Out :=
  runPure clsScalar 4 g (floatOp [a, b] (fun st =>
    fltResult (fltFmt z) st.frm (Num.mul (fltNum z (st.xv a)) (fltNum z (st.xv b)))) d) s
def execFfma (d a b : BitVec 5) (g : BitVec 3) (z : BitVec 1) (s : State) : Out :=
  runPure clsScalar 4 g (floatOp [a, b, d] (fun st =>
    fltResult (fltFmt z) st.frm
      (Num.fma (modeOf st.frm) (fltNum z (st.xv a)) (fltNum z (st.xv b)) (fltNum z (st.xv d)))) d) s
def execFdiv (d a b : BitVec 5) (g : BitVec 3) (z : BitVec 1) (s : State) : Out :=
  runPure clsScalar 4 g (floatOp [a, b] (fun st =>
    fltResult (fltFmt z) st.frm (Num.div (fltNum z (st.xv a)) (fltNum z (st.xv b)))) d) s
def execFsqrt (d a : BitVec 5) (g : BitVec 3) (z : BitVec 1) (s : State) : Out :=
  runPure clsScalar 4 g (floatOp [a] (fun st =>
    fltResult (fltFmt z) st.frm (Num.sqrt (fltNum z (st.xv a)))) d) s

/-! ### Selection and sign (R135) -/

/-- The operand selected, its bits unchanged; two NaNs give the canonical one. -/
def fltPick (z : BitVec 1) (max : Bool) (a b : Word) : Word :=
  let x := fltNum z a
  let y := fltNum z b
  if x.isNan && y.isNan then (fltResult (fltFmt z) 0 (.nan, 0)).1
  else if x.isNan then BitVec.ofNat 64 (fltBits z b)
  else if y.isNan then BitVec.ofNat 64 (fltBits z a)
  else
    let less := x.lt y || (x.isZero && y.isZero && x.sign && !y.sign)
    BitVec.ofNat 64 (fltBits z (if less = max then b else a))

def execFmin (d a b : BitVec 5) (g : BitVec 3) (z : BitVec 1) (s : State) : Out :=
  runPure clsScalar 4 g (floatOp [a, b] (fun st => (fltPick z false (st.xv a) (st.xv b), 0)) d) s
def execFmax (d a b : BitVec 5) (g : BitVec 3) (z : BitVec 1) (s : State) : Out :=
  runPure clsScalar 4 g (floatOp [a, b] (fun st => (fltPick z true (st.xv a) (st.xv b), 0)) d) s

def fltSign (z : BitVec 1) : Word := if z = 0 then 0x80000000 else 0x8000000000000000

def execFabs (d a : BitVec 5) (g : BitVec 3) (z : BitVec 1) (s : State) : Out :=
  runPure clsScalar 4 g (unaryOp (fun x => BitVec.ofNat 64 (fltBits z x) &&& ~~~fltSign z) d a) s
def execFneg (d a : BitVec 5) (g : BitVec 3) (z : BitVec 1) (s : State) : Out :=
  runPure clsScalar 4 g (unaryOp (fun x => BitVec.ofNat 64 (fltBits z x) ^^^ fltSign z) d a) s

/-! ### Conversions (R136 to R139) -/

/-- The integer kinds of R136: signed, and bits. -/
def intKind (k : BitVec 5) : Bool × Nat :=
  match k.toNat with
  | 0 => (true, 64)
  | 1 => (false, 64)
  | 2 => (true, 32)
  | _ => (false, 32)

/-- Float to integer: a signed 32-bit result is sign-extended, an unsigned one zero-extended. -/
def toInteger (z : BitVec 1) (k : BitVec 5) (frm : BitVec 2) (x : Word) : Word × BitVec 6 :=
  let (signed, bits) := intKind k
  let (p, f) := pack (.int signed bits) (modeOf frm) (fltNum z x)
  (if signed ∧ bits = 32 then (BitVec.ofNat 32 p).signExtend 64 else BitVec.ofNat 64 p, f)

def execFcvti (d a k : BitVec 5) (g : BitVec 3) (z : BitVec 1) (s : State) : Out :=
  runPure clsScalar 4 g (floatOp [a] (fun st => toInteger z k st.frm (st.xv a)) d) s

/-- Integer to float. -/
def fromInteger (z : BitVec 1) (k : BitVec 5) (frm : BitVec 2) (x : Word) : Word × BitVec 6 :=
  let (signed, bits) := intKind k
  fltResult (fltFmt z) frm (unpack (.int signed bits) (x.toNat % 2 ^ bits), 0)

def execFcvtf (d a k : BitVec 5) (g : BitVec 3) (z : BitVec 1) (s : State) : Out :=
  runPure clsScalar 4 g (floatOp [a] (fun st => fromInteger z k st.frm (st.xv a)) d) s

/-- FCVTW: the suffix names the result. -/
def execFcvtw (d a : BitVec 5) (g : BitVec 3) (z : BitVec 1) (s : State) : Out :=
  runPure clsScalar 4 g (floatOp [a] (fun st => fltResult (fltFmt z) st.frm (fltNum (~~~z) (st.xv a), 0)) d) s

/-- FCVTB between the wide side and a 16-bit format. -/
def halfConvert (z : BitVec 1) (c : BitVec 5) (frm : BitVec 2) (x : Word) : Word × BitVec 6 :=
  match c.toNat with
  | 0 => fltResult fmtBf16 frm (fltNum z x, 0)
  | 1 => fltResult fmtFp16 frm (fltNum z x, 0)
  | 2 => fltResult (fltFmt z) frm (unpack fmtBf16 (x.extractLsb' 0 16).toNat, 0)
  | _ => fltResult (fltFmt z) frm (unpack fmtFp16 (x.extractLsb' 0 16).toNat, 0)

def execFcvtb (d a c : BitVec 5) (g : BitVec 3) (z : BitVec 1) (s : State) : Out :=
  runPure clsScalar 4 g (floatOp [a] (fun st => halfConvert z c st.frm (st.xv a)) d) s

/-! ### FCLASS (R140) -/

/-- The number of a value's class; `fb`, `bias` are those of its format. -/
def classOf (fb bias : Nat) (v : Num) : Nat :=
  match v with
  | .nan => 8
  | .inf n => if n then 0 else 7
  | .fin n m e =>
    if m = 0 then (if n then 3 else 4)
    else if cmpMag m e (2 ^ fb) (lastPlace fb bias) = .lt then (if n then 2 else 5)
    else (if n then 1 else 6)

def fltClass (z : BitVec 1) (x : Word) : Word :=
  1#64 <<< (if z = 0 then classOf 23 127 (fltNum z x) else classOf 52 1023 (fltNum z x))

def execFclass (d a : BitVec 5) (g : BitVec 3) (z : BitVec 1) (s : State) : Out :=
  runPure clsScalar 4 g (unaryOp (fltClass z) d a) s

/-! ### Floating compares (R124) -/

/-- A predicate from two registers read as floating values, with its flags. -/
def floatCompare (z : BitVec 1) (rel : Num → Num → Bool) (quiet : Bool) (p : BitVec 3) (a b : BitVec 5) (st : Strand) :
    Except Trap Strand :=
  match st.sources [a, b] with
  | .error t => .error t
  | .ok () =>
    let x := fltNum z (st.xv a)
    let y := fltNum z (st.xv b)
    .ok ((st.setP p (rel x y)).orFlags (flagIf (!quiet && (x.isNan || y.isNan)) fInvalid))

def execFceq (p : BitVec 3) (a b : BitVec 5) (g : BitVec 3) (z : BitVec 1) (s : State) : Out :=
  runPure clsScalar 4 g (floatCompare z Num.eqv true p a b) s
def execFclt (p : BitVec 3) (a b : BitVec 5) (g : BitVec 3) (z : BitVec 1) (s : State) : Out :=
  runPure clsScalar 4 g (floatCompare z Num.lt false p a b) s
def execFcle (p : BitVec 3) (a b : BitVec 5) (g : BitVec 3) (z : BitVec 1) (s : State) : Out :=
  runPure clsScalar 4 g (floatCompare z (fun x y => x.lt y || x.eqv y) false p a b) s
def execFcun (p : BitVec 3) (a b : BitVec 5) (g : BitVec 3) (z : BitVec 1) (s : State) : Out :=
  runPure clsScalar 4 g (floatCompare z (fun x y => x.isNan || y.isNan) true p a b) s

end Sys2Proof.Machine
end

