-- ==== Sys2Proof/Machine/Quanta.lean ====
section
/-! DEFINITION. The end of a quantum (R382 to R384, R393, R396, R401 to R404, R409), and the divergence of a REPLAY scope
(R388). An end goes through the phases of R409; the step of a phase begins by serving what its domain holds for it. -/

namespace Sys2Proof.Machine

/-- The order of R383 and R409 among held requests: phase, logical core, admission serial, program order. -/
def Held.before (a b : Held) : Bool :=
  if a.phase ≠ b.phase then a.phase < b.phase
  else if a.lcore ≠ b.lcore then a.lcore < b.lcore
  else if a.serial ≠ b.serial then a.serial < b.serial
  else a.order < b.order

def insertHeld (x : Held × Payload) : List (Held × Payload) → List (Held × Payload)
  | [] => [x]
  | y :: rest => if x.1.before y.1 then x :: y :: rest else y :: insertHeld x rest

def sortHeld (l : List (Held × Payload)) : List (Held × Payload) := l.foldl (fun acc x => insertHeld x acc) []

/-- Is a held request taken when phase `k` is served: one of the phase, or of an earlier one that the end itself made?
Decrements that firings of this end make wait for the next, and so does what must come after accesses that are not
performed. -/
def State.dueIn (s : State) (h : Held) (k : Nat) : Bool :=
  (h.phase == k || (h.phase < k && h.phase != 4)) && h.waits.all fun n => !s.outst.contains n && !s.unread n

/-- The lane on which an end serves its requests one after another. -/
def endLane (d : Nat) : Nat := laneOf 3 d 0

/-- Sends the requests due in a phase to their sites, in order, and comes back behind them. -/
def State.serveHeld (s : State) (d k : Nat) (dom : Domain) : State :=
  let due := sortHeld (dom.held.filter fun h => s.dueIn h.1 k)
  let s := { s with domains := s.domains.insert d { dom with held := dom.held.filter fun h => !s.dueIn h.1 k } }
  (due.foldl (fun s h => s.push { due := s.cycle, lane := endLane d, route := h.1.lane, ev := h.1.ev, arg := h.2 }) s).send (endLane d) .quantumEnd (.n2 d k)

/-! ### What an end does between its phases -/

/-- Step 1 of R404: a channel of the domain without an activation starts the head of its mailbox. -/
def State.startHeads (s : State) (top : ScopeId) : State :=
  (s.lcores.flatMap fun kv => kv.2.handlers.map fun h => (kv.1, h.1)).foldl (fun s x => s.startNext x.1 x.2 (some top)) s

/-- A strand that waits as a context took part in the quantum (R382), and so did a rank that waits since quantum 0 began (R393). -/
def State.countWaiting (s : State) (top : ScopeId) : State :=
  let one (c : Ctx) : Ctx := if (c.kind ≠ 0 ∨ c.takes) ∧ s.under top c.scope then { c with quantum := c.quantum + 1, qpos := 0 } else c
  s.cores.foldl (fun (s : State) kv =>
    let s := if kv.2.overflow.any fun c => s.under top c.scope then s.setOverflow kv.1 (kv.2.overflow.map one) else s
    s.modCore kv.1 fun co => { co with arrival := co.arrival.map one, deque := co.deque.map one }) s

/-- Strands whose count of remote accesses has reached MIGTHR leave at the end of a quantum (R376). -/
def State.migrateDue (s : State) (top : ScopeId) : State :=
  s.strands.foldl (fun (s : State) kv =>
    let m := (s.scope kv.2.scope).migthr
    if s.under top kv.2.scope ∧ m ≠ 0 ∧ m ≤ kv.2.remoteCount ∧ kv.2.wait = .none ∧ !kv.2.dying then s.autoMigrate kv.1 else s) s

/-- Contexts of cancelled scopes leave the overflow area too, at an end (R304, R402). -/
def State.dropOverflow (s : State) (p d : Nat) : State :=
  let gone (c : Ctx) : Bool := s.ofMoment (some d) c && c.kind != 1 && (s.flagAt c.scope p || (s.scope c.scope).cancelled)
  let l := (s.core p).overflow
  let lost := l.filter gone
  if lost.isEmpty then s
  else lost.foldl (fun s c => (s.discardCtx (s.logical p) c false).workLeaves (clusterOf p)) (s.setOverflow p (l.filter fun c => !gone c))

/-- Steps 2 to 4 of R402 on every core: discards and admissions, then the moves out of the overflow area. -/
def State.admitDomain (s : State) (d : Nat) : State :=
  let all := s.cores.map (·.1)
  let s := all.foldl (fun s p => (s.dropOverflow p d).letIn p (some d) 128) s
  all.foldl (fun s p => (List.range 64).foldl (fun s _ => s.refillArrival p (some d)) s) s

/-- The scopes of the domain whose weight is back (R401). -/
def State.closing (s : State) (top : ScopeId) : List Scb :=
  (s.scopes.map (·.2)).filter fun b => s.under top b.id && b.outw == 0 && b.state == .draining

/-- They close: in phase 8, and again when what was given back in phases 7 and 8, or by a child that closed, has come home. -/
def State.closeDue (s : State) (top : ScopeId) : State := (s.closing top).foldl (fun s b => s.closeScope b) s

/-- What the machine does when a phase has nothing left to serve. -/
def State.phaseDone (s : State) (top : ScopeId) (k : Nat) : State :=
  match k with
  | 3 => s.answerWords fun _ => true
  | 4 => s.fireNodes top
  | 5 => s.startHeads top
  | 6 => (s.countWaiting top).migrateDue top
  | 7 => (s.admitDomain top.toNat).closeDue top
  | _ => s

/-- The next quantum begins in the next cycle: QPOS, sw.quantum and the commands' counts (R382, R384). -/
def State.nextQuantum (s : State) (d : Nat) (dom : Domain) : State :=
  let top : ScopeId := BitVec.ofNat 24 d
  if (s.scb top).isNone then { s with domains := s.domains.erase d }
  else
    let strand (st : Strand) : Strand :=
      if !s.under top st.scope then st
      else
        let st := if st.inQuantum then { st with qpos := 0, quantum := st.quantum + 1 } else st
        { st with inQuantum := true }
    let cmd (c : EngCmd) : EngCmd :=
      if s.under top c.scope then { c with inQuantum := 0, stopping := (s.scope c.scope).cancelled } else c
    let engine (e : Engine) : Engine := { e with inbox := e.inbox.map cmd }
    let strands := s.strands.map fun kv => (kv.1, strand kv.2)
    let engines := s.engines.map fun kv => (kv.1, engine kv.2)
    let s := { s with domains := s.domains.insert d { dom with ending := false }, strands := strands, engines := engines }
    s.engines.foldl (fun (s : State) kv => s.kick kv.1) s

/-- One step of an end: serve the phase, let what it set off happen, then go on. -/
def State.quantumPhase (s : State) (d k : Nat) (dom : Domain) : State :=
  let dom := { dom with ending := true }
  let s := { s with domains := s.domains.insert d dom }
  let busy := (List.range s.agenda.length).any fun i => s.enabled i && (match s.agenda[i]? with
    | some p => p.ev != .quantumEnd
    | none => false)
  if dom.held.any fun h => s.dueIn h.1 k then s.serveHeld d k dom
  else if busy then s.send 0 .quantumEnd (.n2 d k)
  else if 8 ≤ k ∧ !(s.closing (BitVec.ofNat 24 d)).isEmpty then (s.closeDue (BitVec.ofNat 24 d)).send 0 .quantumEnd (.n2 d k)
  else if 8 ≤ k then s.after 1 .quantumEnd (.n2 d 10)
  else (s.phaseDone (BitVec.ofNat 24 d) k).send 0 .quantumEnd (.n2 d (k + 1))

/-- Quantum 0 of a launch scope begins once every rank has arrived, and those that find a slot are admitted (R393). A rank that
waits in a queue takes part too. -/
def State.beginQuanta (s : State) (d : Nat) (dom : Domain) : State :=
  let top : ScopeId := BitVec.ofNat 24 d
  let coming := s.agenda.any fun p => match p.ev, p.arg with
    | .start, .ctx _ _ c => s.under top c.scope
    | .imageLoad, .released r _ _ _ => s.under top r.scope
    | .admission, .n1 p => (s.core p).arrival.any fun c => s.under top c.scope
    | _, _ => false
  if coming then s.after 1 .quantumEnd (.n2 d 9)
  else
    let strand (st : Strand) : Strand := if s.under top st.scope then { st with inQuantum := true } else st
    let strands := s.strands.map fun kv => (kv.1, strand kv.2)
    let ctx (c : Ctx) : Ctx := if s.under top c.scope then { c with takes := true } else c
    let core (c : Core) : Core := { c with arrival := c.arrival.map ctx, overflow := c.overflow.map ctx }
    let cores := s.cores.map fun kv => (kv.1, core kv.2)
    { s with domains := s.domains.insert d { dom with started := true }, strands := strands, cores := cores }

/-- QUANTUM_END: a phase of an end (0 to 8), the beginning of a domain (9) or of the next quantum (10); or, within phases 1
and 2, the turn of one request to a scope's home or to a node table. -/
def execQuantumEnd (s : State) : Out :=
  match s.arg with
  | .n2 d k =>
    match s.domains.find d with
    | none => .next s
    | some dom =>
      if k = 9 then .next (s.beginQuanta d dom)
      else if k = 10 then .next (s.nextQuantum d dom)
      else .next (s.quantumPhase d k dom)
  | .scopeOp sk h n scope op _ =>
    let (s, a) := s.serveScope sk scope op
    let by_ : ScopeId := match s.waiter sk h with
      | some st => if s.isQuanta scope then scope else st.scope
      | none => scope
    .next (s.deliver by_ (laneOf 0 (homeNode scope) (s.handleCore h)) .acknowledgement (.answer sk h n a))
  | .node n w c => .next (s.serveNode n w c)
  | _ => .next s

/-- REPLAY_DIVERGED (R388). -/
def execReplayDiverged (s : State) : Out :=
  match s.arg with
  | .scopeAt scope _ => .next (s.faultScope scope 4 [])
  | _ => .next s

end Sys2Proof.Machine
end

