-- ==== Sys2Proof/Machine/Scalar.lean ====
section
/-! DEFINITION. Majors ALU, ALUI, SHI, LIM, LIS and the integer part of PRED and PREDI (R115 to R125), with their compact
forms (R91, R117). -/

namespace Sys2Proof.Machine

/-! ### The values of R115 -/

def mulhWord (a b : Word) : Word := ((a.signExtend 128 * b.signExtend 128) >>> 64).setWidth 64
def mulhuWord (a b : Word) : Word := ((a.setWidth 128 * b.setWidth 128) >>> 64).setWidth 64
/-- Division by zero and of −2^63 by −1: R79. -/
def divWord (a b : Word) : Word := if b = 0 then BitVec.allOnes 64 else a.sdiv b
def divuWord (a b : Word) : Word := if b = 0 then BitVec.allOnes 64 else a / b
def remWord (a b : Word) : Word := if b = 0 then a else a.srem b
def remuWord (a b : Word) : Word := if b = 0 then a else a % b
def andnWord (a b : Word) : Word := a &&& ~~~b
/-- Shift amounts are B mod 64 (R116). -/
def amount (b : Word) : Nat := (b &&& 63).toNat
def shlWord (a b : Word) : Word := a <<< amount b
def shrWord (a b : Word) : Word := a >>> amount b
def sarWord (a b : Word) : Word := a.sshiftRight (amount b)
def rorWord (a b : Word) : Word := a.rotateRight (amount b)
def minWord (a b : Word) : Word := if a.slt b then a else b
def maxWord (a b : Word) : Word := if a.slt b then b else a
def minuWord (a b : Word) : Word := if a < b then a else b
def maxuWord (a b : Word) : Word := if a < b then b else a
def clzWord (a : Word) : Word := BitVec.ofNat 64 ((List.range 64).takeWhile fun i => !a.getLsbD (63 - i)).length
def ctzWord (a : Word) : Word := BitVec.ofNat 64 ((List.range 64).takeWhile fun i => !a.getLsbD i).length
def popcWord (a : Word) : Word := BitVec.ofNat 64 ((List.range 64).filter fun i => a.getLsbD i).length
def bswapWord (a : Word) : Word :=
  a.extractLsb' 0 8 ++ a.extractLsb' 8 8 ++ a.extractLsb' 16 8 ++ a.extractLsb' 24 8
    ++ a.extractLsb' 32 8 ++ a.extractLsb' 40 8 ++ a.extractLsb' 48 8 ++ a.extractLsb' 56 8
def widthOf (w : BitVec 5) : Nat := if w = 0 then 8 else if w = 1 then 16 else 32
def sextWord (w : BitVec 5) (a : Word) : Word := (a.setWidth (widthOf w)).signExtend 64
def zextWord (w : BitVec 5) (a : Word) : Word := (a.setWidth (widthOf w)).setWidth 64
def addwWord (a b : Word) : Word := ((a + b).setWidth 32).signExtend 64

/-! ### ALU -/

def execAdd (d a b : BitVec 5) (g : BitVec 3) (s : State) : Out := runPure clsScalar 4 g (binaryOp (· + ·) d a b) s
def execSub (d a b : BitVec 5) (g : BitVec 3) (s : State) : Out := runPure clsScalar 4 g (binaryOp (· - ·) d a b) s
def execMul (d a b : BitVec 5) (g : BitVec 3) (s : State) : Out := runPure clsScalar 4 g (binaryOp (· * ·) d a b) s
def execMulh (d a b : BitVec 5) (g : BitVec 3) (s : State) : Out := runPure clsScalar 4 g (binaryOp mulhWord d a b) s
def execMulhu (d a b : BitVec 5) (g : BitVec 3) (s : State) : Out := runPure clsScalar 4 g (binaryOp mulhuWord d a b) s
def execDiv (d a b : BitVec 5) (g : BitVec 3) (s : State) : Out := runPure clsScalar 4 g (binaryOp divWord d a b) s
def execDivu (d a b : BitVec 5) (g : BitVec 3) (s : State) : Out := runPure clsScalar 4 g (binaryOp divuWord d a b) s
def execRem (d a b : BitVec 5) (g : BitVec 3) (s : State) : Out := runPure clsScalar 4 g (binaryOp remWord d a b) s
def execRemu (d a b : BitVec 5) (g : BitVec 3) (s : State) : Out := runPure clsScalar 4 g (binaryOp remuWord d a b) s
def execAnd (d a b : BitVec 5) (g : BitVec 3) (s : State) : Out := runPure clsScalar 4 g (binaryOp (· &&& ·) d a b) s
def execOr (d a b : BitVec 5) (g : BitVec 3) (s : State) : Out := runPure clsScalar 4 g (binaryOp (· ||| ·) d a b) s
def execXor (d a b : BitVec 5) (g : BitVec 3) (s : State) : Out := runPure clsScalar 4 g (binaryOp (· ^^^ ·) d a b) s
def execAndn (d a b : BitVec 5) (g : BitVec 3) (s : State) : Out := runPure clsScalar 4 g (binaryOp andnWord d a b) s
def execShl (d a b : BitVec 5) (g : BitVec 3) (s : State) : Out := runPure clsScalar 4 g (binaryOp shlWord d a b) s
def execShr (d a b : BitVec 5) (g : BitVec 3) (s : State) : Out := runPure clsScalar 4 g (binaryOp shrWord d a b) s
def execSar (d a b : BitVec 5) (g : BitVec 3) (s : State) : Out := runPure clsScalar 4 g (binaryOp sarWord d a b) s
def execRor (d a b : BitVec 5) (g : BitVec 3) (s : State) : Out := runPure clsScalar 4 g (binaryOp rorWord d a b) s
def execMin (d a b : BitVec 5) (g : BitVec 3) (s : State) : Out := runPure clsScalar 4 g (binaryOp minWord d a b) s
def execMax (d a b : BitVec 5) (g : BitVec 3) (s : State) : Out := runPure clsScalar 4 g (binaryOp maxWord d a b) s
def execMinu (d a b : BitVec 5) (g : BitVec 3) (s : State) : Out := runPure clsScalar 4 g (binaryOp minuWord d a b) s
def execMaxu (d a b : BitVec 5) (g : BitVec 3) (s : State) : Out := runPure clsScalar 4 g (binaryOp maxuWord d a b) s
def execClz (d a : BitVec 5) (g : BitVec 3) (s : State) : Out := runPure clsScalar 4 g (unaryOp clzWord d a) s
def execCtz (d a : BitVec 5) (g : BitVec 3) (s : State) : Out := runPure clsScalar 4 g (unaryOp ctzWord d a) s
def execPopc (d a : BitVec 5) (g : BitVec 3) (s : State) : Out := runPure clsScalar 4 g (unaryOp popcWord d a) s
def execBswap (d a : BitVec 5) (g : BitVec 3) (s : State) : Out := runPure clsScalar 4 g (unaryOp bswapWord d a) s
def execSext (d a w : BitVec 5) (g : BitVec 3) (s : State) : Out := runPure clsScalar 4 g (unaryOp (sextWord w) d a) s
def execZext (d a w : BitVec 5) (g : BitVec 3) (s : State) : Out := runPure clsScalar 4 g (unaryOp (zextWord w) d a) s
def execAddw (d a b : BitVec 5) (g : BitVec 3) (s : State) : Out := runPure clsScalar 4 g (binaryOp addwWord d a b) s
/-- MOV copies the value and the D bit (R41). -/
def execMov (d a : BitVec 5) (g : BitVec 3) (s : State) : Out := runPure clsScalar 4 g (unaryOp id d a) s

/-! ### The compact forms of group 0 (R91, R117) -/

def execMovCompact (d a : BitVec 5) (s : State) : Out := runPure clsScalar 2 0 (unaryOp id d a) s
def execAddCompact (d a : BitVec 5) (s : State) : Out := runPure clsScalar 2 0 (binaryOp (· + ·) d d a) s
def execSubCompact (d a : BitVec 5) (s : State) : Out := runPure clsScalar 2 0 (binaryOp (· - ·) d d a) s
def execAndCompact (d a : BitVec 5) (s : State) : Out := runPure clsScalar 2 0 (binaryOp (· &&& ·) d d a) s
def execOrCompact (d a : BitVec 5) (s : State) : Out := runPure clsScalar 2 0 (binaryOp (· ||| ·) d d a) s
def execXorCompact (d a : BitVec 5) (s : State) : Out := runPure clsScalar 2 0 (binaryOp (· ^^^ ·) d d a) s
def execShlCompact (d a : BitVec 5) (s : State) : Out := runPure clsScalar 2 0 (binaryOp shlWord d d a) s
def execShrCompact (d a : BitVec 5) (s : State) : Out := runPure clsScalar 2 0 (binaryOp shrWord d d a) s

/-! ### ALUI and SHI (R118, R119) -/

def execAddi (d a : BitVec 5) (i : BitVec 12) (s : State) : Out := runPure clsScalar 4 0 (unaryOp (· + sx i) d a) s
def execAddiCompact (d : BitVec 5) (i : BitVec 8) (s : State) : Out := runPure clsScalar 2 0 (unaryOp (· + sx i) d d) s
def execAndi (d a : BitVec 5) (i : BitVec 12) (s : State) : Out := runPure clsScalar 4 0 (unaryOp (· &&& zx i) d a) s
def execOri (d a : BitVec 5) (i : BitVec 12) (s : State) : Out := runPure clsScalar 4 0 (unaryOp (· ||| zx i) d a) s
def execXori (d a : BitVec 5) (i : BitVec 12) (s : State) : Out := runPure clsScalar 4 0 (unaryOp (· ^^^ zx i) d a) s
def execShli (d a : BitVec 5) (k : BitVec 6) (s : State) : Out := runPure clsScalar 4 0 (unaryOp (· <<< k.toNat) d a) s
def execShri (d a : BitVec 5) (k : BitVec 6) (s : State) : Out := runPure clsScalar 4 0 (unaryOp (· >>> k.toNat) d a) s
def execSari (d a : BitVec 5) (k : BitVec 6) (s : State) : Out :=
  runPure clsScalar 4 0 (unaryOp (·.sshiftRight k.toNat) d a) s
def execRori (d a : BitVec 5) (k : BitVec 6) (s : State) : Out :=
  runPure clsScalar 4 0 (unaryOp (·.rotateRight k.toNat) d a) s

/-! ### Constants (R120, R121) -/

def execLim (d : BitVec 5) (i : BitVec 19) (s : State) : Out :=
  runPure clsScalar 4 0 (fun st => st.writeX d (sx i) false) s
def execLimCompact (d : BitVec 5) (i : BitVec 8) (s : State) : Out :=
  runPure clsScalar 2 0 (fun st => st.writeX d (sx i) false) s

/-- The word with its 16-bit slot replaced. -/
def insertSlot (slot : BitVec 2) (i : BitVec 16) (t : Word) : Word :=
  (t &&& ~~~(0xFFFF#64 <<< (16 * slot.toNat))) ||| (zx i <<< (16 * slot.toNat))

/-- LIS reads its destination, so its D bit stays. -/
def execLis (d : BitVec 5) (slot : BitVec 2) (i : BitVec 16) (s : State) : Out :=
  runPure clsScalar 4 0 (unaryOp (insertSlot slot i) d d) s

/-! ### Integer compares and predicate logic (R122, R123, R125) -/

def execCeq (p : BitVec 3) (a b : BitVec 5) (g : BitVec 3) (s : State) : Out :=
  runPure clsScalar 4 g (compareOp (· == ·) p a b) s
def execCne (p : BitVec 3) (a b : BitVec 5) (g : BitVec 3) (s : State) : Out :=
  runPure clsScalar 4 g (compareOp (· != ·) p a b) s
def execClt (p : BitVec 3) (a b : BitVec 5) (g : BitVec 3) (s : State) : Out :=
  runPure clsScalar 4 g (compareOp BitVec.slt p a b) s
def execCle (p : BitVec 3) (a b : BitVec 5) (g : BitVec 3) (s : State) : Out :=
  runPure clsScalar 4 g (compareOp BitVec.sle p a b) s
def execCltu (p : BitVec 3) (a b : BitVec 5) (g : BitVec 3) (s : State) : Out :=
  runPure clsScalar 4 g (compareOp BitVec.ult p a b) s
def execCleu (p : BitVec 3) (a b : BitVec 5) (g : BitVec 3) (s : State) : Out :=
  runPure clsScalar 4 g (compareOp BitVec.ule p a b) s
def execPand (p a b g : BitVec 3) (s : State) : Out :=
  runPure clsScalar 4 g (fun st => .ok (st.setP p (st.p a && st.p b))) s
def execPor (p a b g : BitVec 3) (s : State) : Out :=
  runPure clsScalar 4 g (fun st => .ok (st.setP p (st.p a || st.p b))) s
def execPxor (p a b g : BitVec 3) (s : State) : Out :=
  runPure clsScalar 4 g (fun st => .ok (st.setP p (st.p a != st.p b))) s
def execPnot (p a g : BitVec 3) (s : State) : Out :=
  runPure clsScalar 4 g (fun st => .ok (st.setP p (!st.p a))) s
def execPfx (p : BitVec 3) (a : BitVec 5) (g : BitVec 3) (s : State) : Out :=
  runPure clsScalar 4 g (compareImm (· != 0) p a) s
def execXfp (d : BitVec 5) (a g : BitVec 3) (s : State) : Out :=
  runPure clsScalar 4 g (fun st => st.writeX d (if st.p a then 1 else 0) false) s
def execCeqi (p : BitVec 3) (a : BitVec 5) (i : BitVec 12) (s : State) : Out :=
  runPure clsScalar 4 0 (compareImm (· == sx i) p a) s
def execCnei (p : BitVec 3) (a : BitVec 5) (i : BitVec 12) (s : State) : Out :=
  runPure clsScalar 4 0 (compareImm (· != sx i) p a) s
def execClti (p : BitVec 3) (a : BitVec 5) (i : BitVec 12) (s : State) : Out :=
  runPure clsScalar 4 0 (compareImm (·.slt (sx i)) p a) s
def execCltui (p : BitVec 3) (a : BitVec 5) (i : BitVec 12) (s : State) : Out :=
  runPure clsScalar 4 0 (compareImm (·.ult (zx i)) p a) s

end Sys2Proof.Machine
end

