-- ==== Sys2Proof/Machine/SysOps.lean ====
section
/-! DEFINITION. Major SYS (R341): NOP, PAUSE, TRAP, ERET, SLEEP, the events that end a PAUSE or a SLEEP, and what a fetch
finds that is no instruction (R85, R95, R114). -/

namespace Sys2Proof.Machine

def execNop (g : BitVec 3) (s : State) : Out := runPure clsCtl 4 g (fun st => .ok st) s
def execNopCompact (s : State) : Out := runPure clsCtl 2 0 (fun st => .ok st) s

/-! ### PAUSE -/

/-- PAUSE: a cancellation point; it then stands back for min(x[a], 65,535) cycles. -/
def pauseBody (a : BitVec 5) (st : Strand) : Act Next := do
  cancelPoint st
  liftT (st.sources [a])
  let n := Nat.min (st.xv a).toNat 65535
  if n = 0 then pure .seq
  else
    let s ← get
    let till := s.cycle + n + 1
    set ((s.setStrand { st with pauseTo := till }).after (n + 1) .pauseEnd (.strand st.sk st.handle till))
    pure .seq

def execPause (a : BitVec 5) (g : BitVec 3) (s : State) : Out := runAct clsCtl 4 g false (pauseBody a) s
def execPauseCompact (a : BitVec 5) (s : State) : Out := runAct clsCtl 2 0 false (pauseBody a) s

/-- PAUSE_END. -/
def execPauseEnd (s : State) : Out :=
  match s.arg with
  | .strand sk h till =>
    match s.waiter sk h with
    | none => .next s
    | some st => if st.pauseTo = till then .next (s.setStrand { st with pauseTo := 0 }) else .next s
  | _ => .next s

/-! ### TRAP, ERET -/

/-- TRAP raises BREAK with x[a] in sw.trapaux. -/
def trapBody (a : BitVec 5) (st : Strand) : Act Next := do
  liftT (st.sources [a])
  raise { code := .brk, aux := st.xv a }

def execTrap (a : BitVec 5) (g : BitVec 3) (s : State) : Out := runAct clsCtl 4 g true (trapBody a) s

/-- RETURNING FROM A TRAP: the trap record goes, the window goes back, and the strand resumes at sw.trappc. A waiting
pre-emption starts its count of instructions here (R320). -/
def eretBody (i : Instr) (st : Strand) : Act Next := do
  let pc ← liftT (regTarget st.trappc)
  match st.links with
  | [] => raise { code := .stackLimit, aux := some 2 }
  | r :: _ =>
    if !r.trap then raise (illegal i)
    else
      moveWindow st (st.popMove r)
      let st ← me
      setMe { st with trapDepth := st.trapDepth - 1
                      preempt := if st.trapDepth = 1 then st.preempt.map fun _ => 0 else st.preempt }
      pure (.goto pc)

def execEret (g : BitVec 3) (s : State) : Out := runAct clsCtl 4 g true (eretBody (.eret g)) s

/-! ### SLEEP -/

/-- SLEEP blocks for x[a][31:0] cycles. -/
def sleepBody (a : BitVec 5) (st : Strand) : Act Next := do
  match st.answer with
  | some .done => pure .seq
  | _ =>
    liftT (st.sources [a])
    let n := ((st.xv a).extractLsb' 0 32).toNat
    if n = 0 then pure .seq
    else if (← get).isQuanta st.scope then raise { code := .determinism }
    else
      let k ← newNumber
      modify fun s => s.after n .sleepEnd (.strand st.sk st.handle k)
      holdFor (.sleep k)

def execSleep (a : BitVec 5) (g : BitVec 3) (s : State) : Out := runAct clsCtl 4 g true (sleepBody a) s

/-- SLEEP_END: the strand is runnable, and its banks are ON (R52). -/
def execSleepEnd (s : State) : Out :=
  match s.arg with
  | .strand sk h k => .next ((s.reply sk h k .done).bankStates (pcoreOf sk))
  | _ => .next s

/-! ### What is no instruction -/

/-- NOT_AN_INSTRUCTION: ILLEGAL with the decoder's subcode, the word in sw.trapaux (R95). A guard is not looked at. -/
def execNotAnInstruction (s : State) : Out :=
  match s.arg, s.strand s.cur with
  | .reject sub w, some st =>
    .next (s.takeTrap st.sk { code := .illegal, sub := sub, aux := w.setWidth 64 } (st.pc.setWidth 64))
  | _, _ => .next s

/-- SEQUENTIAL_FLOW_PAST_END: FETCH at the address after 0xFFFE (R85). sw.trappc holds that address, 0x1_0000, and the link
record of the trap its 16 low bits (log entry 53). -/
def execSequentialFlowPastEnd (s : State) : Out :=
  match s.arg with
  | .strand sk h _ =>
    match s.waiter sk h with
    | none => .next s
    | some st => .next (s.takeTrap sk (fetchFault 0x10000) (st.pc.setWidth 64))
  | _ => .next s

end Sys2Proof.Machine
end

