-- ==== Sys2Proof/Machine/Dispatch.lean ====
section
/-! DEFINITION. What each instruction and event does: one arm per constructor, each a direct call of its meaning. -/

namespace Sys2Proof.Machine

def exec (i : Instr) (s : State) : Host.Outcome State Fault Refusal :=
  match i with
  | .add d a b g => Sys2Proof.Machine.execAdd d a b g s
  | .sub d a b g => Sys2Proof.Machine.execSub d a b g s
  | .mul d a b g => Sys2Proof.Machine.execMul d a b g s
  | .mulh d a b g => Sys2Proof.Machine.execMulh d a b g s
  | .mulhu d a b g => Sys2Proof.Machine.execMulhu d a b g s
  | .div d a b g => Sys2Proof.Machine.execDiv d a b g s
  | .divu d a b g => Sys2Proof.Machine.execDivu d a b g s
  | .rem d a b g => Sys2Proof.Machine.execRem d a b g s
  | .remu d a b g => Sys2Proof.Machine.execRemu d a b g s
  | .and d a b g => Sys2Proof.Machine.execAnd d a b g s
  | .or d a b g => Sys2Proof.Machine.execOr d a b g s
  | .xor d a b g => Sys2Proof.Machine.execXor d a b g s
  | .andn d a b g => Sys2Proof.Machine.execAndn d a b g s
  | .shl d a b g => Sys2Proof.Machine.execShl d a b g s
  | .shr d a b g => Sys2Proof.Machine.execShr d a b g s
  | .sar d a b g => Sys2Proof.Machine.execSar d a b g s
  | .ror d a b g => Sys2Proof.Machine.execRor d a b g s
  | .min d a b g => Sys2Proof.Machine.execMin d a b g s
  | .max d a b g => Sys2Proof.Machine.execMax d a b g s
  | .minu d a b g => Sys2Proof.Machine.execMinu d a b g s
  | .maxu d a b g => Sys2Proof.Machine.execMaxu d a b g s
  | .clz d a g => Sys2Proof.Machine.execClz d a g s
  | .ctz d a g => Sys2Proof.Machine.execCtz d a g s
  | .popc d a g => Sys2Proof.Machine.execPopc d a g s
  | .bswap d a g => Sys2Proof.Machine.execBswap d a g s
  | .sext d a w g => Sys2Proof.Machine.execSext d a w g s
  | .zext d a w g => Sys2Proof.Machine.execZext d a w g s
  | .addw d a b g => Sys2Proof.Machine.execAddw d a b g s
  | .mov d a g => Sys2Proof.Machine.execMov d a g s
  | .movCompact d a => Sys2Proof.Machine.execMovCompact d a s
  | .addCompact d a => Sys2Proof.Machine.execAddCompact d a s
  | .subCompact d a => Sys2Proof.Machine.execSubCompact d a s
  | .andCompact d a => Sys2Proof.Machine.execAndCompact d a s
  | .orCompact d a => Sys2Proof.Machine.execOrCompact d a s
  | .xorCompact d a => Sys2Proof.Machine.execXorCompact d a s
  | .shlCompact d a => Sys2Proof.Machine.execShlCompact d a s
  | .shrCompact d a => Sys2Proof.Machine.execShrCompact d a s
  | .addi d a n => Sys2Proof.Machine.execAddi d a n s
  | .addiCompact d n => Sys2Proof.Machine.execAddiCompact d n s
  | .andi d a n => Sys2Proof.Machine.execAndi d a n s
  | .ori d a n => Sys2Proof.Machine.execOri d a n s
  | .xori d a n => Sys2Proof.Machine.execXori d a n s
  | .shli d a k => Sys2Proof.Machine.execShli d a k s
  | .shri d a k => Sys2Proof.Machine.execShri d a k s
  | .sari d a k => Sys2Proof.Machine.execSari d a k s
  | .rori d a k => Sys2Proof.Machine.execRori d a k s
  | .lim d n => Sys2Proof.Machine.execLim d n s
  | .limCompact d n => Sys2Proof.Machine.execLimCompact d n s
  | .lis d v n => Sys2Proof.Machine.execLis d v n s
  | .ceq p a b g => Sys2Proof.Machine.execCeq p a b g s
  | .cne p a b g => Sys2Proof.Machine.execCne p a b g s
  | .clt p a b g => Sys2Proof.Machine.execClt p a b g s
  | .cle p a b g => Sys2Proof.Machine.execCle p a b g s
  | .cltu p a b g => Sys2Proof.Machine.execCltu p a b g s
  | .cleu p a b g => Sys2Proof.Machine.execCleu p a b g s
  | .pand p a b g => Sys2Proof.Machine.execPand p a b g s
  | .por p a b g => Sys2Proof.Machine.execPor p a b g s
  | .pxor p a b g => Sys2Proof.Machine.execPxor p a b g s
  | .pnot p a g => Sys2Proof.Machine.execPnot p a g s
  | .pfx p a g => Sys2Proof.Machine.execPfx p a g s
  | .xfp d a g => Sys2Proof.Machine.execXfp d a g s
  | .fceq p a b g z => Sys2Proof.Machine.execFceq p a b g z s
  | .fclt p a b g z => Sys2Proof.Machine.execFclt p a b g z s
  | .fcle p a b g z => Sys2Proof.Machine.execFcle p a b g z s
  | .fcun p a b g z => Sys2Proof.Machine.execFcun p a b g z s
  | .ceqi p a n => Sys2Proof.Machine.execCeqi p a n s
  | .cnei p a n => Sys2Proof.Machine.execCnei p a n s
  | .clti p a n => Sys2Proof.Machine.execClti p a n s
  | .cltui p a n => Sys2Proof.Machine.execCltui p a n s
  | .br g n o => Sys2Proof.Machine.execBr g n o s
  | .brCompact g n o => Sys2Proof.Machine.execBrCompact g n o s
  | .call n o => Sys2Proof.Machine.execCall n o s
  | .callr n a => Sys2Proof.Machine.execCallr n a s
  | .alloc n h => Sys2Proof.Machine.execAlloc n h s
  | .jmpr a => Sys2Proof.Machine.execJmpr a s
  | .mfs d n => Sys2Proof.Machine.execMfs d n s
  | .mts a n => Sys2Proof.Machine.execMts a n s
  | .fadd d a b g z => Sys2Proof.Machine.execFadd d a b g z s
  | .fsub d a b g z => Sys2Proof.Machine.execFsub d a b g z s
  | .fmul d a b g z => Sys2Proof.Machine.execFmul d a b g z s
  | .ffma d a b g z => Sys2Proof.Machine.execFfma d a b g z s
  | .fdiv d a b g z => Sys2Proof.Machine.execFdiv d a b g z s
  | .fsqrt d a g z => Sys2Proof.Machine.execFsqrt d a g z s
  | .fmin d a b g z => Sys2Proof.Machine.execFmin d a b g z s
  | .fmax d a b g z => Sys2Proof.Machine.execFmax d a b g z s
  | .fabs d a g z => Sys2Proof.Machine.execFabs d a g z s
  | .fneg d a g z => Sys2Proof.Machine.execFneg d a g z s
  | .fcvti d a k g z => Sys2Proof.Machine.execFcvti d a k g z s
  | .fcvtf d a k g z => Sys2Proof.Machine.execFcvtf d a k g z s
  | .fcvtw d a g z => Sys2Proof.Machine.execFcvtw d a g z s
  | .fcvtb d a c g z => Sys2Proof.Machine.execFcvtb d a c g z s
  | .fclass d a g z => Sys2Proof.Machine.execFclass d a g z s
  | .ldB d b n => Sys2Proof.Machine.execLdB d b n s
  | .ldBu d b n => Sys2Proof.Machine.execLdBu d b n s
  | .ldH d b n => Sys2Proof.Machine.execLdH d b n s
  | .ldHu d b n => Sys2Proof.Machine.execLdHu d b n s
  | .ldW d b n => Sys2Proof.Machine.execLdW d b n s
  | .ldWu d b n => Sys2Proof.Machine.execLdWu d b n s
  | .ldD d b n => Sys2Proof.Machine.execLdD d b n s
  | .ldDCompact d b o => Sys2Proof.Machine.execLdDCompact d b o s
  | .stB v b n => Sys2Proof.Machine.execStB v b n s
  | .stH v b n => Sys2Proof.Machine.execStH v b n s
  | .stW v b n => Sys2Proof.Machine.execStW v b n s
  | .stD v b n => Sys2Proof.Machine.execStD v b n s
  | .stDCompact v b o => Sys2Proof.Machine.execStDCompact v b o s
  | .ldsB d b n => Sys2Proof.Machine.execLdsB d b n s
  | .ldsBu d b n => Sys2Proof.Machine.execLdsBu d b n s
  | .ldsH d b n => Sys2Proof.Machine.execLdsH d b n s
  | .ldsHu d b n => Sys2Proof.Machine.execLdsHu d b n s
  | .ldsW d b n => Sys2Proof.Machine.execLdsW d b n s
  | .ldsWu d b n => Sys2Proof.Machine.execLdsWu d b n s
  | .ldsD d b n => Sys2Proof.Machine.execLdsD d b n s
  | .chk a o => Sys2Proof.Machine.execChk a o s
  | .sld d a g o => Sys2Proof.Machine.execSld d a g o s
  | .sst a b g o => Sys2Proof.Machine.execSst a b g o s
  | .aadd d a b g o => Sys2Proof.Machine.execAadd d a b g o s
  | .aswap d a b g o => Sys2Proof.Machine.execAswap d a b g o s
  | .acas d a b g o => Sys2Proof.Machine.execAcas d a b g o s
  | .aand d a b g o => Sys2Proof.Machine.execAand d a b g o s
  | .aor d a b g o => Sys2Proof.Machine.execAor d a b g o s
  | .axor d a b g o => Sys2Proof.Machine.execAxor d a b g o s
  | .amax d a b g o => Sys2Proof.Machine.execAmax d a b g o s
  | .amin d a b g o => Sys2Proof.Machine.execAmin d a b g o s
  | .amaxu d a b g o => Sys2Proof.Machine.execAmaxu d a b g o s
  | .aminu d a b g o => Sys2Proof.Machine.execAminu d a b g o s
  | .fence g v k => Sys2Proof.Machine.execFence g v k s
  | .flushr a g => Sys2Proof.Machine.execFlushr a g s
  | .tlend a b g => Sys2Proof.Machine.execTlend a b g s
  | .tret a g => Sys2Proof.Machine.execTret a g s
  | .tgive a b g => Sys2Proof.Machine.execTgive a b g s
  | .tsplit d a b g => Sys2Proof.Machine.execTsplit d a b g s
  | .tshare a b g => Sys2Proof.Machine.execTshare a b g s
  | .tjoin a g => Sys2Proof.Machine.execTjoin a g s
  | .tqry d a g => Sys2Proof.Machine.execTqry d a g s
  | .twait d a b g => Sys2Proof.Machine.execTwait d a b g s
  | .tseal a g => Sys2Proof.Machine.execTseal a g s
  | .tunseal a g => Sys2Proof.Machine.execTunseal a g s
  | .tclr a g => Sys2Proof.Machine.execTclr a g s
  | .tclaim d a g => Sys2Proof.Machine.execTclaim d a g s
  | .vadd d a b g => Sys2Proof.Machine.execVadd d a b g s
  | .vsub d a b g => Sys2Proof.Machine.execVsub d a b g s
  | .vmul d a b g => Sys2Proof.Machine.execVmul d a b g s
  | .vfma d a b g => Sys2Proof.Machine.execVfma d a b g s
  | .vmin d a b g => Sys2Proof.Machine.execVmin d a b g s
  | .vmax d a b g => Sys2Proof.Machine.execVmax d a b g s
  | .vabs d a g => Sys2Proof.Machine.execVabs d a g s
  | .vneg d a g => Sys2Proof.Machine.execVneg d a g s
  | .vand d a b g => Sys2Proof.Machine.execVand d a b g s
  | .vor d a b g => Sys2Proof.Machine.execVor d a b g s
  | .vxor d a b g => Sys2Proof.Machine.execVxor d a b g s
  | .vshl d a k g => Sys2Proof.Machine.execVshl d a k g s
  | .vshr d a k g => Sys2Proof.Machine.execVshr d a k g s
  | .vcvt d a p g => Sys2Proof.Machine.execVcvt d a p g s
  | .vscl d a k g => Sys2Proof.Machine.execVscl d a k g s
  | .vreds d a g => Sys2Proof.Machine.execVreds d a g s
  | .vredm d a m g => Sys2Proof.Machine.execVredm d a m g s
  | .vbc d a g => Sys2Proof.Machine.execVbc d a g s
  | .vext d a n g => Sys2Proof.Machine.execVext d a n g s
  | .vins d a n g => Sys2Proof.Machine.execVins d a n g s
  | .vperm d a b g => Sys2Proof.Machine.execVperm d a b g s
  | .vsel d a b g => Sys2Proof.Machine.execVsel d a b g s
  | .vcmpeq d a b g => Sys2Proof.Machine.execVcmpeq d a b g s
  | .vcmpeqPred l p a b g => Sys2Proof.Machine.execVcmpeqPred l p a b g s
  | .vcmplt d a b g => Sys2Proof.Machine.execVcmplt d a b g s
  | .vcmpltPred l p a b g => Sys2Proof.Machine.execVcmpltPred l p a b g s
  | .vcmple d a b g => Sys2Proof.Machine.execVcmple d a b g s
  | .vcmplePred l p a b g => Sys2Proof.Machine.execVcmplePred l p a b g s
  | .viota d a g => Sys2Proof.Machine.execViota d a g s
  | .vrnd d a g => Sys2Proof.Machine.execVrnd d a g s
  | .vdgst a g => Sys2Proof.Machine.execVdgst a g s
  | .vfmt d a g => Sys2Proof.Machine.execVfmt d a g s
  | .vmov d a g => Sys2Proof.Machine.execVmov d a g s
  | .vdesc d a g => Sys2Proof.Machine.execVdesc d a g s
  | .vld d b n => Sys2Proof.Machine.execVld d b n s
  | .vst c v b n => Sys2Proof.Machine.execVst c v b n s
  | .vlds d b n => Sys2Proof.Machine.execVlds d b n s
  | .vsts v b n => Sys2Proof.Machine.execVsts v b n s
  | .mma h f a b g => Sys2Proof.Machine.execMma h f a b g s
  | .mzero h f g => Sys2Proof.Machine.execMzero h f g s
  | .mld h f a g => Sys2Proof.Machine.execMld h f a g s
  | .mst h f a e g => Sys2Proof.Machine.execMst h f a e g s
  | .msnap h f a b g => Sys2Proof.Machine.execMsnap h f a b g s
  | .mwait h f g => Sys2Proof.Machine.execMwait h f g s
  | .mwaitCompact h f => Sys2Proof.Machine.execMwaitCompact h f s
  | .mstat h f b g => Sys2Proof.Machine.execMstat h f b g s
  | .mcanc h f g => Sys2Proof.Machine.execMcanc h f g s
  | .mres h f g => Sys2Proof.Machine.execMres h f g s
  | .rndk d a g => Sys2Proof.Machine.execRndk d a g s
  | .dgst a g => Sys2Proof.Machine.execDgst a g s
  | .qbind q a b g => Sys2Proof.Machine.execQbind q a b g s
  | .qunb q g => Sys2Proof.Machine.execQunb q g s
  | .qrd d q g => Sys2Proof.Machine.execQrd d q g s
  | .qrdCompact q d => Sys2Proof.Machine.execQrdCompact q d s
  | .qwr a q g => Sys2Proof.Machine.execQwr a q g s
  | .qwrCompact q a => Sys2Proof.Machine.execQwrCompact q a s
  | .qpoll p q g => Sys2Proof.Machine.execQpoll p q g s
  | .qstat d q g => Sys2Proof.Machine.execQstat d q g s
  | .send a b g n => Sys2Proof.Machine.execSend a b g n s
  | .sendr d a b g n => Sys2Proof.Machine.execSendr d a b g n s
  | .reply b g n => Sys2Proof.Machine.execReply b g n s
  | .hret g => Sys2Proof.Machine.execHret g s
  | .hmask a g => Sys2Proof.Machine.execHmask a g s
  | .hunm a g => Sys2Proof.Machine.execHunm a g s
  | .hset a b g => Sys2Proof.Machine.execHset a b g s
  | .cpy v a g => Sys2Proof.Machine.execCpy v a g s
  | .gath v a g => Sys2Proof.Machine.execGath v a g s
  | .scat v a g => Sys2Proof.Machine.execScat v a g s
  | .coll v a g => Sys2Proof.Machine.execColl v a g s
  | .node d a b g => Sys2Proof.Machine.execNode d a b g s
  | .ewt d a g => Sys2Proof.Machine.execEwt d a g s
  | .echk d a g => Sys2Proof.Machine.execEchk d a g s
  | .edec a g => Sys2Proof.Machine.execEdec a g s
  | .spawn d a b g => Sys2Proof.Machine.execSpawn d a b g s
  | .migr a g => Sys2Proof.Machine.execMigr a g s
  | .steal d a g => Sys2Proof.Machine.execSteal d a g s
  | .yield g => Sys2Proof.Machine.execYield g s
  | .endStrand g => Sys2Proof.Machine.execEndStrand g s
  | .gang a g => Sys2Proof.Machine.execGang a g s
  | .bar a g => Sys2Proof.Machine.execBar a g s
  | .barCompact a => Sys2Proof.Machine.execBarCompact a s
  | .sopen d a k g => Sys2Proof.Machine.execSopen d a k g s
  | .sclose a g => Sys2Proof.Machine.execSclose a g s
  | .scanc a g => Sys2Proof.Machine.execScanc a g s
  | .swin a g => Sys2Proof.Machine.execSwin a g s
  | .shld g => Sys2Proof.Machine.execShld g s
  | .sunsh g => Sys2Proof.Machine.execSunsh g s
  | .cpt g => Sys2Proof.Machine.execCpt g s
  | .sres d a r g => Sys2Proof.Machine.execSres d a r g s
  | .nop g => Sys2Proof.Machine.execNop g s
  | .pause a g => Sys2Proof.Machine.execPause a g s
  | .pauseCompact a => Sys2Proof.Machine.execPauseCompact a s
  | .trap a g => Sys2Proof.Machine.execTrap a g s
  | .eret g => Sys2Proof.Machine.execEret g s
  | .sleep a g => Sys2Proof.Machine.execSleep a g s
  | .krf t v d => Sys2Proof.Machine.execKrf t v d s
  | .kbfx t v d => Sys2Proof.Machine.execKbfx t v d s
  | .kswt v d => Sys2Proof.Machine.execKswt v d s
  | .kdsp t v d => Sys2Proof.Machine.execKdsp t v d s
  | .ret => Sys2Proof.Machine.execRet s
  | .retCompact => Sys2Proof.Machine.execRetCompact s
  | .hretCompact => Sys2Proof.Machine.execHretCompact s
  | .yieldCompact => Sys2Proof.Machine.execYieldCompact s
  | .endCompact => Sys2Proof.Machine.execEndCompact s
  | .cptCompact => Sys2Proof.Machine.execCptCompact s
  | .nopCompact => Sys2Proof.Machine.execNopCompact s
  | .lateFaultTrap => Sys2Proof.Machine.execLateFaultTrap s
  | .groupSpill => Sys2Proof.Machine.execGroupSpill s
  | .groupFill => Sys2Proof.Machine.execGroupFill s
  | .linkRecordSpill => Sys2Proof.Machine.execLinkRecordSpill s
  | .bankPowerOff => Sys2Proof.Machine.execBankPowerOff s
  | .matrixStep => Sys2Proof.Machine.execMatrixStep s
  | .engineSector => Sys2Proof.Machine.execEngineSector s
  | .engineCommandEnd => Sys2Proof.Machine.execEngineCommandEnd s
  | .nodeReservationRetry => Sys2Proof.Machine.execNodeReservationRetry s
  | .l0Eviction => Sys2Proof.Machine.execL0Eviction s
  | .atsCompletion => Sys2Proof.Machine.execAtsCompletion s
  | .priResponse => Sys2Proof.Machine.execPriResponse s
  | .atsInvalidation => Sys2Proof.Machine.execAtsInvalidation s
  | .flitSend => Sys2Proof.Machine.execFlitSend s
  | .flitArrival => Sys2Proof.Machine.execFlitArrival s
  | .negativeAcknowledge => Sys2Proof.Machine.execNegativeAcknowledge s
  | .flitAcknowledge => Sys2Proof.Machine.execFlitAcknowledge s
  | .truncationTimeout => Sys2Proof.Machine.execTruncationTimeout s
  | .partitionRestart => Sys2Proof.Machine.execPartitionRestart s
  | .message => Sys2Proof.Machine.execMessage s
  | .replyArrival => Sys2Proof.Machine.execReplyArrival s
  | .refusal => Sys2Proof.Machine.execRefusal s
  | .sendResend => Sys2Proof.Machine.execSendResend s
  | .queueWord => Sys2Proof.Machine.execQueueWord s
  | .creditRequest => Sys2Proof.Machine.execCreditRequest s
  | .creditGrant => Sys2Proof.Machine.execCreditGrant s
  | .creditRequestRetry => Sys2Proof.Machine.execCreditRequestRetry s
  | .syncCellOperation => Sys2Proof.Machine.execSyncCellOperation s
  | .syncCellReply => Sys2Proof.Machine.execSyncCellReply s
  | .migration => Sys2Proof.Machine.execMigration s
  | .spawnPlacement => Sys2Proof.Machine.execSpawnPlacement s
  | .wheelReplace => Sys2Proof.Machine.execWheelReplace s
  | .overflowRefill => Sys2Proof.Machine.execOverflowRefill s
  | .admission => Sys2Proof.Machine.execAdmission s
  | .autoMigration => Sys2Proof.Machine.execAutoMigration s
  | .codeStore => Sys2Proof.Machine.execCodeStore s
  | .handlerTableWrite => Sys2Proof.Machine.execHandlerTableWrite s
  | .start => Sys2Proof.Machine.execStart s
  | .imageLoad => Sys2Proof.Machine.execImageLoad s
  | .engineCommand => Sys2Proof.Machine.execEngineCommand s
  | .stealRequest => Sys2Proof.Machine.execStealRequest s
  | .stealReply => Sys2Proof.Machine.execStealReply s
  | .tokenQuery => Sys2Proof.Machine.execTokenQuery s
  | .tokenQueryReply => Sys2Proof.Machine.execTokenQueryReply s
  | .memoryRead => Sys2Proof.Machine.execMemoryRead s
  | .readReply => Sys2Proof.Machine.execReadReply s
  | .memoryWrite => Sys2Proof.Machine.execMemoryWrite s
  | .writeAcknowledgement => Sys2Proof.Machine.execWriteAcknowledgement s
  | .engineData => Sys2Proof.Machine.execEngineData s
  | .collectiveData => Sys2Proof.Machine.execCollectiveData s
  | .tokenRequest => Sys2Proof.Machine.execTokenRequest s
  | .tokenGrant => Sys2Proof.Machine.execTokenGrant s
  | .tokenGrantArrival => Sys2Proof.Machine.execTokenGrantArrival s
  | .weightReturn => Sys2Proof.Machine.execWeightReturn s
  | .refillRequest => Sys2Proof.Machine.execRefillRequest s
  | .refillReply => Sys2Proof.Machine.execRefillReply s
  | .cancelPacket => Sys2Proof.Machine.execCancelPacket s
  | .successDeclaration => Sys2Proof.Machine.execSuccessDeclaration s
  | .closeStatus => Sys2Proof.Machine.execCloseStatus s
  | .barrierArrival => Sys2Proof.Machine.execBarrierArrival s
  | .barrierRelease => Sys2Proof.Machine.execBarrierRelease s
  | .predecessorDecrement => Sys2Proof.Machine.execPredecessorDecrement s
  | .acknowledgement => Sys2Proof.Machine.execAcknowledgement s
  | .kilnControl => Sys2Proof.Machine.execKilnControl s
  | .digest => Sys2Proof.Machine.execDigest s
  | .healthEvent => Sys2Proof.Machine.execHealthEvent s
  | .heartbeatSend => Sys2Proof.Machine.execHeartbeatSend s
  | .heartbeat => Sys2Proof.Machine.execHeartbeat s
  | .heartbeatWindowEnd => Sys2Proof.Machine.execHeartbeatWindowEnd s
  | .spareRemap => Sys2Proof.Machine.execSpareRemap s
  | .coreStop => Sys2Proof.Machine.execCoreStop s
  | .sentinelReplay => Sys2Proof.Machine.execSentinelReplay s
  | .supplyAdjust => Sys2Proof.Machine.execSupplyAdjust s
  | .budgetPeriodStart => Sys2Proof.Machine.execBudgetPeriodStart s
  | .quantumEnd => Sys2Proof.Machine.execQuantumEnd s
  | .replayDiverged => Sys2Proof.Machine.execReplayDiverged s
  | .twaitTimeout => Sys2Proof.Machine.execTwaitTimeout s
  | .barTimeout => Sys2Proof.Machine.execBarTimeout s
  | .sleepEnd => Sys2Proof.Machine.execSleepEnd s
  | .preemptionRequest => Sys2Proof.Machine.execPreemptionRequest s
  | .preemptionSave => Sys2Proof.Machine.execPreemptionSave s
  | .preemptionRestore => Sys2Proof.Machine.execPreemptionRestore s
  | .clusterGate => Sys2Proof.Machine.execClusterGate s
  | .kilnGate => Sys2Proof.Machine.execKilnGate s
  | .wakeSequence => Sys2Proof.Machine.execWakeSequence s
  | .coreWake => Sys2Proof.Machine.execCoreWake s
  | .thermalLimit => Sys2Proof.Machine.execThermalLimit s
  | .thermalShutdown => Sys2Proof.Machine.execThermalShutdown s
  | .kilnDispatch => Sys2Proof.Machine.execKilnDispatch s
  | .kilnWatchdog => Sys2Proof.Machine.execKilnWatchdog s
  | .doorbell => Sys2Proof.Machine.execDoorbell s
  | .queue0Create => Sys2Proof.Machine.execQueue0Create s
  | .svncommit => Sys2Proof.Machine.execSvncommit s
  | .writeSlot => Sys2Proof.Machine.execWriteSlot s
  | .reset => Sys2Proof.Machine.execReset s
  | .errorInjection => Sys2Proof.Machine.execErrorInjection s
  | .logEntryClear => Sys2Proof.Machine.execLogEntryClear s
  | .registerWrite => Sys2Proof.Machine.execRegisterWrite s
  | .hostBar2Access => Sys2Proof.Machine.execHostBar2Access s
  | .launch => Sys2Proof.Machine.execLaunch s
  | .cancel => Sys2Proof.Machine.execCancel s
  | .switchOut => Sys2Proof.Machine.execSwitchOut s
  | .switchIn => Sys2Proof.Machine.execSwitchIn s
  | .regionCreate => Sys2Proof.Machine.execRegionCreate s
  | .regionDestroy => Sys2Proof.Machine.execRegionDestroy s
  | .migrate => Sys2Proof.Machine.execMigrate s
  | .powerCap => Sys2Proof.Machine.execPowerCap s
  | .partition => Sys2Proof.Machine.execPartition s
  | .nopCommand => Sys2Proof.Machine.execNopCommand s
  | .tenantCreate => Sys2Proof.Machine.execTenantCreate s
  | .queueCreate => Sys2Proof.Machine.execQueueCreate s
  | .queueDestroy => Sys2Proof.Machine.execQueueDestroy s
  | .powerOn => Sys2Proof.Machine.execPowerOn s
  | .firmwareBringup => Sys2Proof.Machine.execFirmwareBringup s
  | .firmwareTimeout => Sys2Proof.Machine.execFirmwareTimeout s
  | .spdmRequest => Sys2Proof.Machine.execSpdmRequest s
  | .peerLinkUp => Sys2Proof.Machine.execPeerLinkUp s
  | .peerLinkDown => Sys2Proof.Machine.execPeerLinkDown s
  | .notAnInstruction => Sys2Proof.Machine.execNotAnInstruction s
  | .sequentialFlowPastEnd => Sys2Proof.Machine.execSequentialFlowPastEnd s
  | .pauseEnd => Sys2Proof.Machine.execPauseEnd s
  | .kilnTimer => Sys2Proof.Machine.execKilnTimer s
  | .modulePowerCrossesCap => Sys2Proof.Machine.execModulePowerCrossesCap s
  | .coldReset => Sys2Proof.Machine.execColdReset s
  | .refreshFault => Sys2Proof.Machine.execRefreshFault s

end Sys2Proof.Machine
end

