-- ==== Sys2Proof/Machine/Riscv.lean ====
section
/-! DEFINITION. The base instructions of a Kiln hart, RV64IMAC (R354) in machine mode with its control registers. The manual
names the set and does not describe it: its encodings and effects are those of the RISC-V specification (PRESUMED, log entry
36). A hart reaches the SRAM at addresses 0 to 2^21 - 1. -/

namespace Sys2Proof.Machine

/-- A base instruction. `op` holds funct3, `alt` the bit that turns an addition into a subtraction and a logical shift right
into an arithmetic one, `half` the forms of 32 bits. -/
inductive Rv where
  | lui (rd : BitVec 5) (imm : Word)
  | auipc (rd : BitVec 5) (imm : Word)
  | jal (rd : BitVec 5) (imm : Word)
  | jalr (rd rs : BitVec 5) (imm : Word)
  | branch (op : BitVec 3) (a b : BitVec 5) (imm : Word)
  | load (op : BitVec 3) (rd rs : BitVec 5) (imm : Word)
  | store (op : BitVec 3) (rs src : BitVec 5) (imm : Word)
  | aluImm (half alt : Bool) (op : BitVec 3) (rd rs : BitVec 5) (imm : Word)
  | alu (half alt : Bool) (op : BitVec 3) (rd a b : BitVec 5)
  | mul (half : Bool) (op : BitVec 3) (rd a b : BitVec 5)
  | lr (double : Bool) (rd rs : BitVec 5)
  | sc (double : Bool) (rd rs src : BitVec 5)
  | amo (double : Bool) (op : BitVec 5) (rd rs src : BitVec 5)
  | csr (op : BitVec 3) (rd src : BitVec 5) (num : BitVec 12)
  | fence
  | ecall
  | ebreak
  | mret
  | wfi
  deriving DecidableEq, Repr

/-! ### Decoding -/

/-- The fields of a 32-bit word. -/
def rvRd (w : Word32) : BitVec 5 := w.extractLsb' 7 5
def rvRs1 (w : Word32) : BitVec 5 := w.extractLsb' 15 5
def rvRs2 (w : Word32) : BitVec 5 := w.extractLsb' 20 5
def rvF3 (w : Word32) : BitVec 3 := w.extractLsb' 12 3
def rvF7 (w : Word32) : BitVec 7 := w.extractLsb' 25 7
def rvImmI (w : Word32) : Word := (w.extractLsb' 20 12).signExtend 64
def rvImmS (w : Word32) : Word := (w.extractLsb' 25 7 ++ w.extractLsb' 7 5).signExtend 64
def rvImmB (w : Word32) : Word :=
  (w.extractLsb' 31 1 ++ w.extractLsb' 7 1 ++ w.extractLsb' 25 6 ++ w.extractLsb' 8 4 ++ 0#1).signExtend 64
def rvImmU (w : Word32) : Word := (w.extractLsb' 12 20 ++ 0#12).signExtend 64
def rvImmJ (w : Word32) : Word :=
  (w.extractLsb' 31 1 ++ w.extractLsb' 12 8 ++ w.extractLsb' 20 1 ++ w.extractLsb' 21 10 ++ 0#1).signExtend 64

/-- OP-IMM and OP-IMM-32. -/
def rvOpImm (half : Bool) (w : Word32) : Option Rv :=
  let top := if half then (rvF7 w).setWidth 7 else (w.extractLsb' 26 6 ++ 0#1)
  let alu (alt : Bool) (imm : Word) : Option Rv := some (.aluImm half alt (rvF3 w) (rvRd w) (rvRs1 w) imm)
  let shamt : Word := (w.extractLsb' 20 6).setWidth 64
  match (rvF3 w).toNat with
  | 1 => if top = 0 then alu false shamt else none
  | 5 => if top = 0 then alu false shamt else if top = 0x20 then alu true shamt else none
  | 0 => alu false (rvImmI w)
  | _ => if half then none else alu false (rvImmI w)

/-- OP and OP-32. -/
def rvOp (half : Bool) (w : Word32) : Option Rv :=
  let f := rvF3 w
  let alu (alt : Bool) : Option Rv := some (.alu half alt f (rvRd w) (rvRs1 w) (rvRs2 w))
  match (rvF7 w).toNat with
  | 0x00 => if !half || f = 0 || f = 1 || f = 5 then alu false else none
  | 0x20 => if f = 0 || f = 5 then alu true else none
  | 0x01 => if half && (f = 1 || f = 2 || f = 3) then none else some (.mul half f (rvRd w) (rvRs1 w) (rvRs2 w))
  | _ => none

/-- AMO. -/
def rvAmo (w : Word32) : Option Rv :=
  let double := rvF3 w = 3
  let f : BitVec 5 := w.extractLsb' 27 5
  if rvF3 w ≠ 2 ∧ !double then none
  else if f = 2 then (if rvRs2 w = 0 then some (.lr double (rvRd w) (rvRs1 w)) else none)
  else if f = 3 then some (.sc double (rvRd w) (rvRs1 w) (rvRs2 w))
  else if f = 1 ∨ f.toNat % 4 = 0 then some (.amo double f (rvRd w) (rvRs1 w) (rvRs2 w))
  else none

/-- SYSTEM. -/
def rvSystem (w : Word32) : Option Rv :=
  if rvF3 w = 4 then none
  else if rvF3 w ≠ 0 then some (.csr (rvF3 w) (rvRd w) (rvRs1 w) (w.extractLsb' 20 12))
  else match w.toNat with
    | 0x00000073 => some .ecall
    | 0x00100073 => some .ebreak
    | 0x30200073 => some .mret
    | 0x10500073 => some .wfi
    | _ => none

/-- A 32-bit word. -/
def rvDecode (w : Word32) : Option Rv :=
  match (w.extractLsb' 0 7).toNat with
  | 0x37 => some (.lui (rvRd w) (rvImmU w))
  | 0x17 => some (.auipc (rvRd w) (rvImmU w))
  | 0x6F => some (.jal (rvRd w) (rvImmJ w))
  | 0x67 => if rvF3 w = 0 then some (.jalr (rvRd w) (rvRs1 w) (rvImmI w)) else none
  | 0x63 => if rvF3 w = 2 ∨ rvF3 w = 3 then none else some (.branch (rvF3 w) (rvRs1 w) (rvRs2 w) (rvImmB w))
  | 0x03 => if rvF3 w = 7 then none else some (.load (rvF3 w) (rvRd w) (rvRs1 w) (rvImmI w))
  | 0x23 => if 3 < (rvF3 w).toNat then none else some (.store (rvF3 w) (rvRs1 w) (rvRs2 w) (rvImmS w))
  | 0x13 => rvOpImm false w
  | 0x1B => rvOpImm true w
  | 0x33 => rvOp false w
  | 0x3B => rvOp true w
  | 0x2F => rvAmo w
  | 0x0F => if (rvF3 w).toNat < 2 then some .fence else none
  | 0x73 => rvSystem w
  | _ => none

/-! Compressed words: each stands for one instruction of 32 bits. -/

/-- A register of the short fields, x8 to x15. -/
def rvShort (r : BitVec 3) : BitVec 5 := 1#2 ++ r
/-- The six-bit immediate of bits 12 and 6 to 2. -/
def rvImm6 (h : BitVec 16) : Word := (h.extractLsb' 12 1 ++ h.extractLsb' 2 5).signExtend 64

/-- Quadrant 0: loads and stores of the short registers. -/
def rvQuad0 (h : BitVec 16) : Option Rv :=
  let rd := rvShort (h.extractLsb' 2 3)
  let rs := rvShort (h.extractLsb' 7 3)
  let w4 : Word := (h.extractLsb' 5 1 ++ h.extractLsb' 10 3 ++ h.extractLsb' 6 1 ++ 0#2).setWidth 64
  let w8 : Word := (h.extractLsb' 5 2 ++ h.extractLsb' 10 3 ++ 0#3).setWidth 64
  let sp : Word := (h.extractLsb' 7 4 ++ h.extractLsb' 11 2 ++ h.extractLsb' 5 1 ++ h.extractLsb' 6 1 ++ 0#2).setWidth 64
  match (h.extractLsb' 13 3).toNat with
  | 0 => if sp = 0 then none else some (.aluImm false false 0 rd 2 sp)
  | 2 => some (.load 2 rd rs w4)
  | 3 => some (.load 3 rd rs w8)
  | 6 => some (.store 2 rs rd w4)
  | 7 => some (.store 3 rs rd w8)
  | _ => none

/-- The arithmetic of quadrant 1 on a short register. -/
def rvQuad1Alu (h : BitVec 16) : Option Rv :=
  let rd := rvShort (h.extractLsb' 7 3)
  let rs := rvShort (h.extractLsb' 2 3)
  let shamt : Word := (h.extractLsb' 12 1 ++ h.extractLsb' 2 5).setWidth 64
  match (h.extractLsb' 10 2).toNat, (h.extractLsb' 12 1).toNat, (h.extractLsb' 5 2).toNat with
  | 0, _, _ => some (.aluImm false false 5 rd rd shamt)
  | 1, _, _ => some (.aluImm false true 5 rd rd shamt)
  | 2, _, _ => some (.aluImm false false 7 rd rd (rvImm6 h))
  | _, 0, 0 => some (.alu false true 0 rd rd rs)
  | _, 0, 1 => some (.alu false false 4 rd rd rs)
  | _, 0, 2 => some (.alu false false 6 rd rd rs)
  | _, 0, _ => some (.alu false false 7 rd rd rs)
  | _, _, 0 => some (.alu true true 0 rd rd rs)
  | _, _, 1 => some (.alu true false 0 rd rd rs)
  | _, _, _ => none

/-- Quadrant 1. -/
def rvQuad1 (h : BitVec 16) : Option Rv :=
  let rd : BitVec 5 := h.extractLsb' 7 5
  let jump : Word :=
    (h.extractLsb' 12 1 ++ h.extractLsb' 8 1 ++ h.extractLsb' 9 2 ++ h.extractLsb' 6 1 ++ h.extractLsb' 7 1 ++ h.extractLsb' 2 1
      ++ h.extractLsb' 11 1 ++ h.extractLsb' 3 3 ++ 0#1).signExtend 64
  let near : Word :=
    (h.extractLsb' 12 1 ++ h.extractLsb' 5 2 ++ h.extractLsb' 2 1 ++ h.extractLsb' 10 2 ++ h.extractLsb' 3 2 ++ 0#1).signExtend 64
  let sp : Word :=
    (h.extractLsb' 12 1 ++ h.extractLsb' 3 2 ++ h.extractLsb' 5 1 ++ h.extractLsb' 2 1 ++ h.extractLsb' 6 1 ++ 0#4).signExtend 64
  match (h.extractLsb' 13 3).toNat with
  | 0 => some (.aluImm false false 0 rd rd (rvImm6 h))
  | 1 => if rd = 0 then none else some (.aluImm true false 0 rd rd (rvImm6 h))
  | 2 => some (.aluImm false false 0 rd 0 (rvImm6 h))
  | 3 =>
    if rvImm6 h = 0 then none
    else if rd = 2 then some (.aluImm false false 0 2 2 sp)
    else some (.lui rd (rvImm6 h <<< 12))
  | 4 => rvQuad1Alu h
  | 5 => some (.jal 0 jump)
  | 6 => some (.branch 0 (rvShort (h.extractLsb' 7 3)) 0 near)
  | _ => some (.branch 1 (rvShort (h.extractLsb' 7 3)) 0 near)

/-- Quadrant 2. -/
def rvQuad2 (h : BitVec 16) : Option Rv :=
  let rd : BitVec 5 := h.extractLsb' 7 5
  let rs : BitVec 5 := h.extractLsb' 2 5
  let high := h.getLsbD 12
  match (h.extractLsb' 13 3).toNat with
  | 0 => some (.aluImm false false 1 rd rd ((h.extractLsb' 12 1 ++ rs).setWidth 64))
  | 2 => if rd = 0 then none
         else some (.load 2 rd 2 ((h.extractLsb' 2 2 ++ h.extractLsb' 12 1 ++ h.extractLsb' 4 3 ++ 0#2).setWidth 64))
  | 3 => if rd = 0 then none
         else some (.load 3 rd 2 ((h.extractLsb' 2 3 ++ h.extractLsb' 12 1 ++ h.extractLsb' 5 2 ++ 0#3).setWidth 64))
  | 4 =>
    if rs ≠ 0 then some (.alu false false 0 rd (if high then rd else 0) rs)
    else if rd ≠ 0 then some (.jalr (if high then 1 else 0) rd 0)
    else if high then some .ebreak else none
  | 6 => some (.store 2 2 rs ((h.extractLsb' 7 2 ++ h.extractLsb' 9 4 ++ 0#2).setWidth 64))
  | 7 => some (.store 3 2 rs ((h.extractLsb' 7 3 ++ h.extractLsb' 10 3 ++ 0#3).setWidth 64))
  | _ => none

/-- A compressed word; the word of zeros is illegal. -/
def rvCompressed (h : BitVec 16) : Option Rv :=
  match (h.extractLsb' 0 2).toNat with
  | 0 => rvQuad0 h
  | 1 => rvQuad1 h
  | _ => rvQuad2 h

/-! ### Arithmetic -/

/-- The operations of OP and OP-IMM by funct3, on `n` bits. -/
def rvArith {n : Nat} (alt : Bool) (op : BitVec 3) (a b : BitVec n) (shift : Nat) : BitVec n :=
  match op.toNat with
  | 0 => if alt then a - b else a + b
  | 1 => a <<< shift
  | 2 => if a.slt b then 1#n else 0#n
  | 3 => if a.ult b then 1#n else 0#n
  | 4 => a ^^^ b
  | 5 => if alt then a.sshiftRight shift else a >>> shift
  | 6 => a ||| b
  | _ => a &&& b

/-- An operation on all 64 bits, or on the low 32 with its result extended by sign. -/
def rvAlu (half alt : Bool) (op : BitVec 3) (a b : Word) : Word :=
  if half then (rvArith alt op (a.setWidth 32) (b.setWidth 32) (b.toNat % 32)).signExtend 64
  else rvArith alt op a b (b.toNat % 64)

/-- The high half of a product of 64-bit numbers. -/
def rvHigh (a b : Int) : Word := BitVec.ofInt 64 (a * b / 2 ^ 64)

/-- Division: by 0 all ones, and the dividend as remainder; the one overflow wraps. -/
def rvDivide {n : Nat} (op : BitVec 3) (a b : BitVec n) : BitVec n :=
  match op.toNat with
  | 4 => if b = 0#n then BitVec.allOnes n else a.sdiv b
  | 5 => if b = 0#n then BitVec.allOnes n else a / b
  | 6 => if b = 0#n then a else a.srem b
  | _ => if b = 0#n then a else a % b

def rvMul (half : Bool) (op : BitVec 3) (a b : Word) : Word :=
  match op.toNat with
  | 0 => if half then ((a * b).setWidth 32).signExtend 64 else a * b
  | 1 => rvHigh a.toInt b.toInt
  | 2 => rvHigh a.toInt b.toNat
  | 3 => rvHigh a.toNat b.toNat
  | _ => if half then (rvDivide op (a.setWidth 32) (b.setWidth 32)).signExtend 64 else rvDivide op a b

/-- The operations of AMO by funct5. -/
def rvAtomic {n : Nat} (op : BitVec 5) (old v : BitVec n) : BitVec n :=
  match op.toNat with
  | 0x00 => old + v
  | 0x04 => old ^^^ v
  | 0x08 => old ||| v
  | 0x0C => old &&& v
  | 0x10 => if old.slt v then old else v
  | 0x14 => if old.slt v then v else old
  | 0x18 => if old.ult v then old else v
  | 0x1C => if old.ult v then v else old
  | _ => v

def rvTaken (op : BitVec 3) (a b : Word) : Bool :=
  match op.toNat with
  | 0 => a = b
  | 1 => a != b
  | 4 => a.slt b
  | 5 => !a.slt b
  | 6 => a.ult b
  | _ => !a.ult b

/-! ### Control registers -/

/-- What a control register reads; none where the hart has no such register. -/
def State.rvCsr (s : State) (h : Nat) (n : BitVec 12) : Option Word :=
  let x := s.hart h
  match n.toNat with
  | 0x300 => some (0x1800#64 ||| (if x.mie then 8 else 0) ||| (if x.mpie then 128 else 0))
  | 0x301 => some 0x8000000000001105
  | 0x304 => some x.enables
  | 0x305 => some x.mtvec
  | 0x340 => some x.mscratch
  | 0x341 => some x.mepc
  | 0x342 => some x.mcause
  | 0x343 => some x.mtval
  | 0x344 => some 0
  | 0xB00 => some (Config.freeWord s.fresh)
  | 0xB02 => some x.minstret
  | 0xF11 | 0xF12 | 0xF13 | 0xF15 => some 0
  | 0xF14 => some (BitVec.ofNat 64 h)
  | _ => none

/-- A write of a control register; what software cannot change stays. -/
def Hart.setCsr (x : Hart) (n : BitVec 12) (v : Word) : Hart :=
  match n.toNat with
  | 0x300 => { x with mie := v.getLsbD 3, mpie := v.getLsbD 7 }
  | 0x304 => { x with enables := v }
  | 0x305 => { x with mtvec := v &&& ~~~2#64 }
  | 0x340 => { x with mscratch := v }
  | 0x341 => { x with mepc := v &&& ~~~1#64 }
  | 0x342 => { x with mcause := v }
  | 0x343 => { x with mtval := v }
  | 0xB02 => { x with minstret := v }
  | _ => x

/-! ### Execution -/

/-- An exception: its cause and value. -/
abbrev RvFault := Word × Word

/-- Why an access of `n` bytes cannot be made: `mis` and `out` are the causes of a misaligned address and of one outside
the SRAM. -/
def rvAccess (addr : Word) (n : Nat) (mis out : Word) : Option RvFault :=
  if addr.toNat % n ≠ 0 then some (mis, addr) else if Config.sramSize ≤ addr.toNat then some (out, addr) else none

/-- The instruction of `len` bytes is done: its result, and the pc after it. -/
def State.rvDone (s : State) (h : Nat) (rd : BitVec 5) (v pc : Word) : State :=
  s.modHart h fun x => { x.setReg rd v with pc := pc, minstret := x.minstret + 1, waiting := false, since := s.cycle }

/-- The value that a load makes of its bytes, by funct3. -/
def rvLoaded (op : BitVec 3) (bs : List Byte) : Word :=
  let v := wordOf bs
  match op.toNat with
  | 0 => (v.setWidth 8).signExtend 64
  | 1 => (v.setWidth 16).signExtend 64
  | 2 => (v.setWidth 32).signExtend 64
  | _ => v

/-- The bytes of an access by funct3. -/
def rvSize (op : BitVec 3) : Nat := 2 ^ (op.toNat % 4)

/-- A store to the SRAM. -/
def State.rvWrite (s : State) (addr : Word) (n : Nat) (v : Word) : State :=
  (s.setBytes (Config.sramBase + addr.toNat) (leBytes n v)).breakReservations addr.toNat n

def State.rvRead (s : State) (addr : Word) (n : Nat) : List Byte := s.bytes (Config.sramBase + addr.toNat) n

/-- LR, SC and AMO: an access of a word or a doubleword that reads and writes. -/
def rvAtomicOp (old v : Word) (double : Bool) (op : BitVec 5) : Word :=
  if double then rvAtomic op old v else (rvAtomic op (old.setWidth 32) (v.setWidth 32)).setWidth 64

/-- CSRRW, CSRRS, CSRRC and their immediate forms. -/
def State.rvCsrOp (s : State) (h : Nat) (op : BitVec 3) (rd src : BitVec 5) (n : BitVec 12) (next : Word) : Option State :=
  match s.rvCsr h n with
  | none => none
  | some old =>
    let arg : Word := if op.getLsbD 2 then src.setWidth 64 else (s.hart h).reg src
    let writes : Bool := op.toNat % 4 = 1 || src != 0
    if writes && n.extractLsb' 10 2 = 3#2 then none
    else
      let v := match op.toNat % 4 with
        | 1 => arg
        | 2 => old ||| arg
        | _ => old &&& ~~~arg
      let s := s.rvDone h rd old next
      let s := if writes then s.modHart h fun x => x.setCsr n v else s
      some (if n = 0xB00 then { s with fresh := s.fresh + 1 } else s)

/-- One base instruction of hart `h`, of `len` bytes; `bits` are its own, for an illegal one. -/
def State.rvExec (s : State) (h len : Nat) (bits : Word) (i : Rv) : State :=
  let x := s.hart h
  let next := x.pc + BitVec.ofNat 64 len
  let done (rd : BitVec 5) (v : Word) : State := s.rvDone h rd v next
  match i with
  | .lui rd imm => done rd imm
  | .auipc rd imm => done rd (x.pc + imm)
  | .jal rd imm => s.rvDone h rd next (x.pc + imm)
  | .jalr rd rs imm => s.rvDone h rd next ((x.reg rs + imm) &&& ~~~1#64)
  | .branch op a b imm => s.rvDone h 0 0 (if rvTaken op (x.reg a) (x.reg b) then x.pc + imm else next)
  | .load op rd rs imm =>
    let addr := x.reg rs + imm
    match rvAccess addr (rvSize op) 4 5 with
    | some f => s.hartTrap h f.1 f.2
    | none => done rd (rvLoaded op (s.rvRead addr (rvSize op)))
  | .store op rs src imm =>
    let addr := x.reg rs + imm
    match rvAccess addr (rvSize op) 6 7 with
    | some f => s.hartTrap h f.1 f.2
    | none => (s.rvWrite addr (rvSize op) (x.reg src)).rvDone h 0 0 next
  | .aluImm half alt op rd rs imm => done rd (rvAlu half alt op (x.reg rs) imm)
  | .alu half alt op rd a b => done rd (rvAlu half alt op (x.reg a) (x.reg b))
  | .mul half op rd a b => done rd (rvMul half op (x.reg a) (x.reg b))
  | .lr double rd rs =>
    let n := if double then 8 else 4
    match rvAccess (x.reg rs) n 4 5 with
    | some f => s.hartTrap h f.1 f.2
    | none =>
      let v := rvLoaded (if double then 3 else 2) (s.rvRead (x.reg rs) n)
      (s.modHart h fun y => { y with reservation := some ((x.reg rs).toNat, n) }).rvDone h rd v next
  | .sc double rd rs src =>
    let n := if double then 8 else 4
    match rvAccess (x.reg rs) n 6 7 with
    | some f => s.hartTrap h f.1 f.2
    | none =>
      let held := x.reservation = some ((x.reg rs).toNat, n)
      let s := if held then s.rvWrite (x.reg rs) n (x.reg src) else s
      (s.modHart h fun y => { y with reservation := none }).rvDone h rd (if held then 0 else 1) next
  | .amo double op rd rs src =>
    let n := if double then 8 else 4
    match rvAccess (x.reg rs) n 6 7 with
    | some f => s.hartTrap h f.1 f.2
    | none =>
      let old := rvLoaded (if double then 3 else 2) (s.rvRead (x.reg rs) n)
      (s.rvWrite (x.reg rs) n (rvAtomicOp old (x.reg src) double op)).rvDone h rd old next
  | .csr op rd src n =>
    match s.rvCsrOp h op rd src n next with
    | some t => t
    | none => s.hartTrap h 2 bits
  | .fence | .wfi => done 0 0
  | .ecall => s.hartTrap h 11 0
  | .ebreak => s.hartTrap h 3 x.pc
  | .mret => (s.rvDone h 0 0 x.mepc).modHart h fun y => { y with mie := y.mpie, mpie := true }

/-- The instruction at a hart's pc. -/
inductive HartFetch where
  | kiln (i : Instr)
  | base (i : Rv) (len : Nat) (bits : Word)
  | illegal (bits : Word)
  | access (addr : Word)
  deriving DecidableEq, Repr

/-- Fetches and decodes at a hart's pc: halfwords, the second of a word of 32 bits may lie outside the SRAM. -/
def State.hartFetch (s : State) (h : Nat) : HartFetch :=
  let pc := (s.hart h).pc
  let half (a : Word) : BitVec 16 := (wordOf (s.rvRead a 2)).setWidth 16
  if Config.sramSize ≤ pc.toNat then .access pc
  else if half pc &&& 3 ≠ 3 then
    match rvCompressed (half pc) with
    | some i => .base i 2 ((half pc).setWidth 64)
    | none => .illegal ((half pc).setWidth 64)
  else if Config.sramSize ≤ (pc + 2).toNat then .access (pc + 2)
  else
    let w : Word32 := half (pc + 2) ++ half pc
    match decodeKilnBytes (leBytes 4 w), rvDecode w with
    | some i, _ => .kiln i
    | none, some i => .base i 4 (w.setWidth 64)
    | none, none => .illegal (w.setWidth 64)

end Sys2Proof.Machine
end

