-- ==== Sys2Proof/Machine/Issue.lean ====
section
/-! DEFINITION. One move of the module: an event of the agenda, the issue of a strand, the end of a quantum, an instruction
of a Kiln hart. `step` only calls these. -/

namespace Sys2Proof.Machine

/-- Executes an instruction that is no part of a program: an event, or what the fetch found. -/
def State.fire (s : State) (i : Instr) (a : Payload) : Out := exec i { s with arg := a }

/-! ### Strands -/

/-- The strand is taken to its issue: nothing waits any more, the banks of its registers are awake (R52), it has its turn,
and the issue is counted (R314, R374, R392). -/
def State.prepare (s : State) (st : Strand) : State :=
  let fresh := st.wait = .none && st.answer.isNone
  let s := s.modCore st.pcore fun c =>
    { c with rr := slotOf st.sk
             coreIssue := c.coreIssue + 1
             issued := if fresh then c.issued.insert st.scope.toNat (c.issued.get 0 st.scope.toNat + 1) else c.issued }
  let after (kv : Nat × Strand) : Nat × Strand := (kv.1, { kv.2 with yieldTo := kv.2.yieldTo.filter (· != st.sk) })
  let s := { s with strands := s.strands.map after }
  let s := (s.setStrand { st with wait := .none, yieldTo := [] }).bankStates st.pcore
  { s with cur := st.sk, turn := .choose }

/-- Has a pre-emption request come to its point: the pc of an entry of the image's side table, or 8,192 instructions
(R316)? A strand in a trap handler goes on until its ERET (R320). -/
def State.saveDue (s : State) (st : Strand) : Bool :=
  match st.preempt with
  | none => false
  | some n =>
    st.trapDepth == 0 && (8192 ≤ n || (match s.images.find st.image with
      | some im => im.points.any fun e => e.1.setWidth 17 == st.pc
      | none => false))

/-- Is the strand's next instruction a cancellation point that observes now? Its action comes before a pre-emption save
(R303, R320). -/
def State.observesNext (s : State) (st : Strand) : Bool :=
  match s.fetch st.pcore st.pc with
  | .instr i _ =>
    st.p (guardOf i) && (match i with
      | .cpt _ | .cptCompact | .spawn _ _ _ _ | .send _ _ _ _ | .sendr _ _ _ _ _ | .pause _ _ | .pauseCompact _ | .ewt _ _ _
      | .bar _ _ | .barCompact _ => s.observes st
      | .sunsh _ => s.observes { st with saggar := false }
      | .qrd _ q _ | .qrdCompact q _ => match st.queues.find q.toNat with
        | some b => (s.entries st b).isEmpty && s.observes st
        | none => false
      | _ => false)
  | _ => false

/-- Does the strand's next instruction raise a synchronous trap? That is taken before a pre-emption save (R320). -/
def State.trapsNext (s : State) (st : Strand) : Bool :=
  match s.fetch st.pcore st.pc with
  | .instr i _ => match exec i (s.readSources st i) with
    | .next t => match t.strand st.sk with
      | some x => st.trapDepth < x.trapDepth || x.raised.isSome
      | none => (t.scope st.scope).faulted && !(s.scope st.scope).faulted
    | _ => false
  | _ => true

/-- A strand issues: what must come before its next instruction comes; else it fetches, decodes and executes it. -/
def State.issueStrand (s : State) (sk : Nat) : Out :=
  match s.strand sk with
  | none => .next { s with turn := .choose }
  | some st =>
    let s := s.prepare st
    let me : Payload := .strand sk st.handle 0
    if !st.late.isEmpty && st.answer.isNone then s.fire .lateFaultTrap me
    else if s.saveDue st && st.answer.isNone && !s.observesNext st && !s.trapsNext st then s.fire .preemptionSave me
    else if s.remoteDue st && st.answer.isNone then s.fire .autoMigration me
    else
      match s.fetch st.pcore st.pc with
      | .instr i _ => exec i (s.readSources st i)
      | .reject sub w => s.fire .notAnInstruction (.reject sub w)
      | .pastEnd => s.fire .sequentialFlowPastEnd me
      | .parity k =>
        let off := k - istoreKey st.pcore 0
        let s := s.logEvent (.core st.pcore 2) st.cluster 5 (BitVec.ofNat 48 off) ((parityOf (s.err k)).setWidth 64 <<< 20)
          st.handle (s.pasidOf st.scope) 0
        .next (s.takeTrap sk { code := .vaultParity, aux := BitVec.ofNat 64 off } (st.pc.setWidth 64))

/-- An issue takes one cycle. -/
def ticked (o : Out) (n : Nat) : Out :=
  match o with
  | .next s => .next (s.tick n)
  | .fault f => .fault f
  | .refused r => .refused r

/-! ### Events -/

/-- The event at place `i` of the agenda happens. -/
def State.takeEvent (s : State) (i : Nat) : Out :=
  match s.agenda[i]? with
  | none => .next { s with turn := .choose }
  | some p => State.fire ((({ s with agenda := s.agenda.eraseIdx i, turn := .choose }).peerWakes p).takes p) p.ev p.arg

/-- The first step of a quantum's end. -/
def State.endQuantum (s : State) (d : Nat) : Out :=
  State.fire { s with turn := .choose } .quantumEnd (.n2 d 0)

/-! ### The Kiln (R354, R358) -/

/-- A hart executes the instruction at its pc in the SRAM: one of the four of custom-0, or a base instruction of RV64IMAC
(R354, R358). The harts of a gated Kiln are halted (R34). -/
def State.issueHart (s : State) (h : Nat) : Out :=
  let s := { s with curHart := h, turn := .choose }
  if s.kiln.gated then .next s
  else
    match s.hartFetch h with
    | .kiln i => exec i s
    | .base i len bits => .next (s.rvExec h len bits i)
    | .illegal bits => .next (s.hartTrap h 2 bits)
    | .access addr => .next (s.hartTrap h 1 addr)

/-- Does a hart execute an instruction? The Kiln runs, its SRAM holds one at the pc (a halfword 0 is none: log entry 36), and
a KSWT that waits has a signal of its mask (R362). -/
def State.hartGoes (s : State) (h : Nat) : Bool :=
  let x := s.hart h
  s.kiln.mode.toNat ≤ 1 && !s.kiln.gated && !s.powerOff
    && (decide (Config.sramSize ≤ x.pc.toNat) || (s.bytes (Config.sramBase + x.pc.toNat) 2).any (· != 0))
    && (!x.waiting || (match s.hartFetch h with
      | .kiln (.kswt a _) => x.reg a = 0 || x.pending.setWidth 64 &&& x.reg a != 0
      | _ => true))

/-- Every move possible now: those of the cores and the network, then those of the harts. -/
def State.allMoves (s : State) : List Move1 := s.moves ++ ((List.range 4).filter s.hartGoes).map .hart

/-- The hart whose watchdog has counted out while it executes without retiring an instruction (R354). -/
def State.dogDue (s : State) : Option Nat := (List.range 4).find? fun h => s.hartGoes h && s.watchdogDue h

/-! ### Choosing -/

def State.moveOn (s : State) (m : Move1) : Out :=
  match m with
  | .event i => s.takeEvent i
  | .issue sk => ticked (s.issueStrand sk) 1
  | .quantum d => s.endQuantum d
  | .hart h => ticked (s.issueHart h) 1

/-- A clocked event that is due, or a watchdog; else the move that the schedule picks, after the cycles that it lets pass; with no move,
time goes on to the next event (log entry 1). -/
def State.scheduled (s : State) : Out :=
  match s.clockDue with
  | some i => s.takeEvent i
  | none =>
  match s.dogDue with
  | some h => s.fire .kilnWatchdog (.n1 h)
  | none =>
  let (e, rest) : SchedEntry × List SchedEntry := match s.sched with
    | e :: rest => (e, rest)
    | [] => (⟨0, 0⟩, [])
  let s := { (s.tick (s.untilClock e.wait)) with sched := rest }
  match s.allMoves with
  | [] => .next (s.tick s.untilDue)
  | m :: ms => s.moveOn (((m :: ms)[e.pick % (m :: ms).length]?).getD m)

/-- One move. -/
def State.move (s : State) : Out :=
  match s.turn with
  | .choose => s.scheduled
  | .issue sk => ticked (s.issueStrand sk) 1
  | .hart h => ticked (s.issueHart h) 1
  | .event i => s.takeEvent i

/-! ### Placing an instruction (log entry 7) -/

/-- The strand that a placed instruction runs on: the current one, or a new strand in slot 0 of physical core 0. -/
def State.withRunner (s : State) : State :=
  match s.strand s.cur with
  | some st => s.setStrand { st with wait := .none, dying := false, pend := [], late := [], preempt := none, answer := none,
                                      remoteCount := 0 }
  | none =>
    let s := s.modCore 0 fun c => { c with stopped := false, dead := false }
    let st : Strand := { sk := 0, gen := 1, scope := 0, pc := 0, groups := [(0, 0)], spillbase := 0x000C000000600000 }
    { (s.setStrand st) with cur := 0 }

/-- The bytes of an instruction word as the opcode table numbers it, with zeros after it. -/
def fetchBytes (nbits w : Nat) : List Byte := tableBytes nbits w ++ List.replicate (4 - (tableBytes nbits w).length) 0

/-- Puts an instruction where `step` fetches next. -/
def State.place1 (s : State) (nbits w : Nat) : State :=
  if tableIsKiln nbits w then
    { s.setBytes (Config.sramBase + (s.hart 0).pc.toNat) (fetchBytes nbits w) with turn := .hart 0 }
  else
    let s := s.withRunner
    match s.strand s.cur with
    | none => s
    | some st =>
      { s.writeRaw (istoreKey st.pcore st.pc.toNat) (fetchBytes nbits w) with turn := .issue s.cur }

end Sys2Proof.Machine
end

