-- ==== Sys2Proof/Machine/Step.lean ====
section
/-! DEFINITION. The step of the machine, and the placing of one instruction where it fetches next. -/

namespace Sys2Proof.Machine

/-- One step: one move of the module (log entry 1). -/
def step (s : State) : Host.Outcome State Fault Refusal := s.move

/-- The state with an instruction stored where `step` fetches its next one (log entry 7). -/
def State.withFetchWord (s : State) (nbits w : Nat) : State := s.place1 nbits w

end Sys2Proof.Machine
end

