-- ==== Sys2Proof/Safety.lean ====
section
/-! DEFINITION. What counts as a safe state, and a safe step: the memory and the tables keep their canonical form, and a
step answers a next state. -/

namespace Sys2Proof

/-- The memory keeps its canonical form. -/
def Safe (s : Machine.State) : Prop := Machine.memoryWf s.mem = true

/-- A step that neither faults nor refuses. -/
def Steps (s : Machine.State) : Prop := ∃ t, Machine.step s = .next t

end Sys2Proof
end

