-- ==== Sys2Proof/Certificates/Slice0/Obligations.lean ====
section
/-! DEFINITION. What is claimed of the machine. The statements cite the rules of spec/ that they formalise; those that rest on
a choice of the model say so and name its log entry. -/

/-! ### Words the statements share -/

namespace Sys2Proof.Claims

open Sys2Proof.Machine

/-- `st` is the current strand as an instruction finds it: live, and inside the idempotent region that starts at its pc, if
one does (R185). No commit of it is under way: a strand waits for that (log entry 29). -/
def Current (s : State) (st : Strand) : Prop := ∃ st0, s.strand s.cur = some st0 ∧ st = s.enterIdem st0 ∧ st0.commit = none

/-- `st` is the current strand, stands outside every idempotent region, and no commit of it is under way. -/
abbrev Outside (s : State) (st : Strand) : Prop :=
  s.strand s.cur = some st ∧ st.sk = s.cur ∧ st.idem = none ∧ s.enterIdem st = st ∧ st.commit = none

/-- None of the registers has an uncorrectable error (R53). -/
abbrev Sound (st : Strand) (regs : List (BitVec 5)) : Prop := ∀ r ∈ regs, (st.x r.toNat).ue = false

/-- None of the registers is deferred (R41). -/
abbrev Undeferred (st : Strand) (regs : List (BitVec 5)) : Prop := ∀ r ∈ regs, st.xd r = false

/-- The strand after an instruction of class `cls`, its next one at `pc`: the counts of R131 and R392. -/
def after (s : State) (st : Strand) (pc : BitVec 17) (cls : Nat) : Strand :=
  { st with
    pc := pc
    retired := st.retired + 1
    perf := st.perf.insert cls (st.perf.get 0 cls + 1)
    qpos := if s.isQuanta st.scope then st.qpos + 1 else st.qpos
    preempt := if st.trapDepth = 0 then st.preempt.map (· + 1) else st.preempt
    answer := none
    pageAns := if st.idem.isSome then st.pageAns else none
    atsAns := none
    cut := none
    backoff := 0 }

/-- Every byte of memory reads the same in both states. -/
def SameMemory (s t : State) : Prop := ∀ k, t.byte k = s.byte k

/-- Everything but the strands is the same in both states. -/
def OnlyStrands (s t : State) : Prop := t = { s with strands := t.strands }

/-! ### What the scalar instructions compute (R115 to R123, R125) -/

/-- A scalar result: destination, registers read in the order of R114, value, guard, length. -/
structure Res where
  d : BitVec 5
  reads : List (BitVec 5)
  val : Word
  g : BitVec 3 := 0
  len : Nat := 4

/-- The signed number of a word shifted right `k` places, towards minus infinity. -/
def asr (a : Word) (k : Nat) : Word := BitVec.ofInt 64 (a.toInt / 2 ^ k)
def lsl (a : Word) (k : Nat) : Word := BitVec.ofNat 64 (a.toNat * 2 ^ k)
def lsr (a : Word) (k : Nat) : Word := BitVec.ofNat 64 (a.toNat / 2 ^ k)
/-- Rotation: the bits that leave at the right come in at the left. -/
def ror (a : Word) (k : Nat) : Word := lsr a k ||| lsl a (64 - k)
def mod64 (b : Word) : Nat := b.toNat % 64
/-- Truncated quotient and remainder, with R79 for a zero divisor. -/
def quot (a b : Word) : Word := if b = 0 then -1 else BitVec.ofInt 64 (a.toInt.tdiv b.toInt)
def remd (a b : Word) : Word := if b = 0 then a else BitVec.ofInt 64 (a.toInt.tmod b.toInt)
def quotu (a b : Word) : Word := if b = 0 then -1 else BitVec.ofNat 64 (a.toNat / b.toNat)
def remdu (a b : Word) : Word := if b = 0 then a else BitVec.ofNat 64 (a.toNat % b.toNat)
/-- The low `n` bits of a word, extended with their sign or with zeros. -/
def extS (n : Nat) (a : Word) : Word := BitVec.ofInt 64 (((a.toNat % 2 ^ n : Nat) : Int).bmod (2 ^ n))
def extZ (n : Nat) (a : Word) : Word := BitVec.ofNat 64 (a.toNat % 2 ^ n)
def bitsOf (w : BitVec 5) : Nat := 8 * 2 ^ w.toNat

/-- Result of each integer instruction that writes a window register. -/
def intRes (st : Strand) : Instr → Option Res
  | .add d a b g => some { d := d, reads := [a, b], val := BitVec.ofInt 64 ((st.xv a).toInt + (st.xv b).toInt), g := g }
  | .sub d a b g => some { d := d, reads := [a, b], val := BitVec.ofInt 64 ((st.xv a).toInt - (st.xv b).toInt), g := g }
  | .mul d a b g => some { d := d, reads := [a, b], val := BitVec.ofInt 64 ((st.xv a).toInt * (st.xv b).toInt), g := g }
  | .mulh d a b g =>
    some { d := d, reads := [a, b], val := BitVec.ofInt 64 ((st.xv a).toInt * (st.xv b).toInt / 2 ^ 64), g := g }
  | .mulhu d a b g =>
    some { d := d, reads := [a, b], val := BitVec.ofNat 64 ((st.xv a).toNat * (st.xv b).toNat / 2 ^ 64), g := g }
  | .div d a b g => some { d := d, reads := [a, b], val := quot (st.xv a) (st.xv b), g := g }
  | .divu d a b g => some { d := d, reads := [a, b], val := quotu (st.xv a) (st.xv b), g := g }
  | .rem d a b g => some { d := d, reads := [a, b], val := remd (st.xv a) (st.xv b), g := g }
  | .remu d a b g => some { d := d, reads := [a, b], val := remdu (st.xv a) (st.xv b), g := g }
  | .and d a b g => some { d := d, reads := [a, b], val := st.xv a &&& st.xv b, g := g }
  | .or d a b g => some { d := d, reads := [a, b], val := st.xv a ||| st.xv b, g := g }
  | .xor d a b g => some { d := d, reads := [a, b], val := st.xv a ^^^ st.xv b, g := g }
  | .andn d a b g => some { d := d, reads := [a, b], val := st.xv a &&& ~~~(st.xv b), g := g }
  | .shl d a b g => some { d := d, reads := [a, b], val := lsl (st.xv a) (mod64 (st.xv b)), g := g }
  | .shr d a b g => some { d := d, reads := [a, b], val := lsr (st.xv a) (mod64 (st.xv b)), g := g }
  | .sar d a b g => some { d := d, reads := [a, b], val := asr (st.xv a) (mod64 (st.xv b)), g := g }
  | .ror d a b g => some { d := d, reads := [a, b], val := ror (st.xv a) (mod64 (st.xv b)), g := g }
  | .min d a b g =>
    some { d := d, reads := [a, b], val := if (st.xv a).toInt ≤ (st.xv b).toInt then st.xv a else st.xv b, g := g }
  | .max d a b g =>
    some { d := d, reads := [a, b], val := if (st.xv a).toInt ≤ (st.xv b).toInt then st.xv b else st.xv a, g := g }
  | .minu d a b g =>
    some { d := d, reads := [a, b], val := if (st.xv a).toNat ≤ (st.xv b).toNat then st.xv a else st.xv b, g := g }
  | .maxu d a b g =>
    some { d := d, reads := [a, b], val := if (st.xv a).toNat ≤ (st.xv b).toNat then st.xv b else st.xv a, g := g }
  | .sext d a w g => if w.toNat ≤ 2 then some { d := d, reads := [a], val := extS (bitsOf w) (st.xv a), g := g } else none
  | .zext d a w g => if w.toNat ≤ 2 then some { d := d, reads := [a], val := extZ (bitsOf w) (st.xv a), g := g } else none
  | .addw d a b g => some { d := d, reads := [a, b], val := extS 32 (st.xv a + st.xv b), g := g }
  | .mov d a g => some { d := d, reads := [a], val := st.xv a, g := g }
  | .movCompact d a => some { d := d, reads := [a], val := st.xv a, len := 2 }
  | .addCompact d a => some { d := d, reads := [d, a], val := st.xv d + st.xv a, len := 2 }
  | .subCompact d a => some { d := d, reads := [d, a], val := st.xv d - st.xv a, len := 2 }
  | .andCompact d a => some { d := d, reads := [d, a], val := st.xv d &&& st.xv a, len := 2 }
  | .orCompact d a => some { d := d, reads := [d, a], val := st.xv d ||| st.xv a, len := 2 }
  | .xorCompact d a => some { d := d, reads := [d, a], val := st.xv d ^^^ st.xv a, len := 2 }
  | .shlCompact d a => some { d := d, reads := [d, a], val := lsl (st.xv d) (mod64 (st.xv a)), len := 2 }
  | .shrCompact d a => some { d := d, reads := [d, a], val := lsr (st.xv d) (mod64 (st.xv a)), len := 2 }
  | .addi d a i => some { d := d, reads := [a], val := BitVec.ofInt 64 ((st.xv a).toInt + i.toInt) }
  | .addiCompact d i => some { d := d, reads := [d], val := BitVec.ofInt 64 ((st.xv d).toInt + i.toInt), len := 2 }
  | .andi d a i => some { d := d, reads := [a], val := st.xv a &&& BitVec.ofNat 64 i.toNat }
  | .ori d a i => some { d := d, reads := [a], val := st.xv a ||| BitVec.ofNat 64 i.toNat }
  | .xori d a i => some { d := d, reads := [a], val := st.xv a ^^^ BitVec.ofNat 64 i.toNat }
  | .shli d a k => some { d := d, reads := [a], val := lsl (st.xv a) k.toNat }
  | .shri d a k => some { d := d, reads := [a], val := lsr (st.xv a) k.toNat }
  | .sari d a k => some { d := d, reads := [a], val := asr (st.xv a) k.toNat }
  | .rori d a k => some { d := d, reads := [a], val := ror (st.xv a) k.toNat }
  | .lim d i => some { d := d, reads := [], val := BitVec.ofInt 64 i.toInt }
  | .limCompact d i => some { d := d, reads := [], val := BitVec.ofInt 64 i.toInt, len := 2 }
  | .lis d k i =>
    some { d := d, reads := [d]
           val := (st.xv d &&& ~~~(lsl 0xFFFF (16 * k.toNat))) ||| lsl (BitVec.ofNat 64 i.toNat) (16 * k.toNat) }
  | .xfp d a g => some { d := d, reads := [], val := if st.p a then 1 else 0, g := g }
  | _ => none

end Sys2Proof.Claims

open Sys2Proof Sys2Proof.Machine Sys2Proof.Claims

/-- R40, R115, R118 to R121, R123: with its guard true, its sources sound and its destination allocated, each integer
instruction writes its result, with the OR of the D bits it read, and retires; nothing else changes. -/
def Sys2Proof.Claims.IntegerResults : Prop :=
  ∀ (i : Instr) (s : State) (st : Strand) (r : Res), Outside s st → intRes st i = some r → st.p r.g = true →
    Sound st r.reads → r.d.toNat < st.s →
    exec i s = .next (s.setStrand (after s (st.setX r.d.toNat r.val (r.reads.any st.xd)) (st.pc + BitVec.ofNat 17 r.len) clsScalar))

/-- R37, R53, R114: a source with an uncorrectable error raises REG_UE with its position, the first in order; else an
unallocated destination raises REG_UNALLOCATED with its number. The instruction has no other effect. -/
def Sys2Proof.Claims.IntegerTraps : Prop :=
  ∀ (i : Instr) (s : State) (st : Strand) (r : Res), Current s st → intRes st i = some r → st.p r.g = true →
    (∀ (l m : List (BitVec 5)) (x : BitVec 5), r.reads = l ++ x :: m → Sound st l → (st.x x.toNat).ue = true →
      exec i s = .next (s.takeTrap s.cur { code := .regUe, aux := some (BitVec.ofNat 64 (st.w + x.toNat)) } (st.pc.setWidth 64)))
    ∧ (Sound st r.reads → st.s ≤ r.d.toNat →
      exec i s = .next (s.takeTrap s.cur { code := .regUnallocated, aux := some (BitVec.ofNat 64 r.d.toNat) } (st.pc.setWidth 64)))

/-- R115: CLZ, CTZ, POPC and BSWAP write what the table says: CLZ and CTZ count the 0 bits before the first 1 from their
end (64 for zero), POPC the 1 bits, BSWAP reverses the bytes; each retires with the D bit of its source, and nothing else
changes. -/
def Sys2Proof.Claims.BitCountResults : Prop :=
  ∀ (s : State) (st : Strand) (d a : BitVec 5) (g : BitVec 3), Outside s st → st.p g = true → Sound st [a] → d.toNat < st.s →
    let A := st.xv a
    let writes (i : Instr) (v : Word) : Prop :=
      exec i s = .next (s.setStrand (after s (st.setX d.toNat v (st.xd a)) (st.pc + 4) clsScalar))
    (∃ n : Nat, writes (.clz d a g) (BitVec.ofNat 64 n) ∧ n ≤ 64 ∧ (∀ k, k < n → A.getLsbD (63 - k) = false)
      ∧ (n < 64 → A.getLsbD (63 - n) = true))
    ∧ (∃ n : Nat, writes (.ctz d a g) (BitVec.ofNat 64 n) ∧ n ≤ 64 ∧ (∀ k, k < n → A.getLsbD k = false)
      ∧ (n < 64 → A.getLsbD n = true))
    ∧ writes (.popc d a g) (BitVec.ofNat 64 ((List.range 64).countP A.getLsbD))
    ∧ (∃ v : Word, writes (.bswap d a g) v ∧ ∀ k, k < 8 → v.extractLsb' (8 * k) 8 = A.extractLsb' (8 * (7 - k)) 8)

/-! ### Guards, predicates, floating point, jumps, calls and status words -/

namespace Sys2Proof.Claims

/-- A predicate result: predicate, registers read, value, guard. -/
structure PRes where
  p : BitVec 3
  reads : List (BitVec 5)
  val : Bool
  g : BitVec 3 := 0

/-- Result of each integer instruction that writes a predicate (R122, R123, R125). -/
def prdRes (st : Strand) : Instr → Option PRes
  | .ceq p a b g => some { p := p, reads := [a, b], val := decide (st.xv a = st.xv b), g := g }
  | .cne p a b g => some { p := p, reads := [a, b], val := decide (st.xv a ≠ st.xv b), g := g }
  | .clt p a b g => some { p := p, reads := [a, b], val := decide ((st.xv a).toInt < (st.xv b).toInt), g := g }
  | .cle p a b g => some { p := p, reads := [a, b], val := decide ((st.xv a).toInt ≤ (st.xv b).toInt), g := g }
  | .cltu p a b g => some { p := p, reads := [a, b], val := decide ((st.xv a).toNat < (st.xv b).toNat), g := g }
  | .cleu p a b g => some { p := p, reads := [a, b], val := decide ((st.xv a).toNat ≤ (st.xv b).toNat), g := g }
  | .pand p a b g => some { p := p, reads := [], val := st.p a && st.p b, g := g }
  | .por p a b g => some { p := p, reads := [], val := st.p a || st.p b, g := g }
  | .pxor p a b g => some { p := p, reads := [], val := decide (st.p a ≠ st.p b), g := g }
  | .pnot p a g => some { p := p, reads := [], val := !st.p a, g := g }
  | .pfx p a g => some { p := p, reads := [a], val := decide (st.xv a ≠ 0), g := g }
  | .ceqi p a n => some { p := p, reads := [a], val := decide ((st.xv a).toInt = n.toInt) }
  | .cnei p a n => some { p := p, reads := [a], val := decide ((st.xv a).toInt ≠ n.toInt) }
  | .clti p a n => some { p := p, reads := [a], val := decide ((st.xv a).toInt < n.toInt) }
  | .cltui p a n => some { p := p, reads := [a], val := decide ((st.xv a).toNat < n.toNat) }
  | _ => none

/-- The floating compares (R124): predicate, operands, relation of the two values, whether a NaN raises INVALID, guard, and
the width bit that says how the registers are read. -/
def fcmpRes : Instr → Option (BitVec 3 × BitVec 5 × BitVec 5 × (Machine.Num → Machine.Num → Bool) × Bool × BitVec 3 × BitVec 1)
  | .fceq p a b g z => some (p, a, b, Machine.Num.eqv, false, g, z)
  | .fclt p a b g z => some (p, a, b, Machine.Num.lt, true, g, z)
  | .fcle p a b g z => some (p, a, b, fun x y => x.lt y || x.eqv y, true, g, z)
  | .fcun p a b g z => some (p, a, b, fun x y => x.isNan || y.isNan, false, g, z)
  | _ => none

/-- What a compare or PFX reads. -/
def prdReads (st : Strand) (i : Instr) : Option (List (BitVec 5) × BitVec 3) :=
  match prdRes st i, fcmpRes i with
  | some r, _ => some (r.reads, r.g)
  | _, some (_, a, b, _, _, g, _) => some ([a, b], g)
  | _, _ => none

/-- A floating result: destination, registers read, value and flags, guard. -/
structure FRes where
  d : BitVec 5
  reads : List (BitVec 5)
  val : Word × BitVec 6
  g : BitVec 3

/-- The exact value, rounded once to the format of `z` in the mode of sw.frm, with the flags of both (R133). -/
def rounded (st : Strand) (z : BitVec 1) (r : Machine.Num × BitVec 6) : Word × BitVec 6 :=
  let p := pack (fltFmt z) (modeOf st.frm) r.1
  (BitVec.ofNat 64 p.1, r.2 ||| p.2)

/-- Result of each instruction of major FLT (R134 to R140). -/
def fltRes (st : Strand) : Instr → Option FRes
  | .fadd d a b g z =>
    some ⟨d, [a, b], rounded st z (Machine.Num.add (modeOf st.frm) (fltNum z (st.xv a)) (fltNum z (st.xv b))), g⟩
  | .fsub d a b g z =>
    some ⟨d, [a, b], rounded st z (Machine.Num.add (modeOf st.frm) (fltNum z (st.xv a)) (fltNum z (st.xv b)).neg), g⟩
  | .fmul d a b g z => some ⟨d, [a, b], rounded st z (Machine.Num.mul (fltNum z (st.xv a)) (fltNum z (st.xv b))), g⟩
  | .ffma d a b g z =>
    some ⟨d, [a, b, d], rounded st z
      (Machine.Num.fma (modeOf st.frm) (fltNum z (st.xv a)) (fltNum z (st.xv b)) (fltNum z (st.xv d))), g⟩
  | .fdiv d a b g z => some ⟨d, [a, b], rounded st z (Machine.Num.div (fltNum z (st.xv a)) (fltNum z (st.xv b))), g⟩
  | .fsqrt d a g z => some ⟨d, [a], rounded st z (Machine.Num.sqrt (fltNum z (st.xv a))), g⟩
  | .fmin d a b g z => some ⟨d, [a, b], (fltPick z false (st.xv a) (st.xv b), 0), g⟩
  | .fmax d a b g z => some ⟨d, [a, b], (fltPick z true (st.xv a) (st.xv b), 0), g⟩
  | .fabs d a g z =>
    some ⟨d, [a], (if z = 0 then lsr (lsl (st.xv a) 33) 33 else lsr (lsl (st.xv a) 1) 1, 0), g⟩
  | .fneg d a g z =>
    some ⟨d, [a], (if z = 0 then extZ 32 (st.xv a) ^^^ 0x80000000 else st.xv a ^^^ 0x8000000000000000, 0), g⟩
  | .fcvti d a k g z => some ⟨d, [a], toInteger z k st.frm (st.xv a), g⟩
  | .fcvtf d a k g z => some ⟨d, [a], fromInteger z k st.frm (st.xv a), g⟩
  | .fcvtw d a g z => some ⟨d, [a], rounded st z (fltNum (~~~z) (st.xv a), 0), g⟩
  | .fcvtb d a c g z => some ⟨d, [a], halfConvert z c st.frm (st.xv a), g⟩
  | .fclass d a g z => some ⟨d, [a], (fltClass z (st.xv a), 0), g⟩
  | _ => none

/-- The guard, the length and the counter of the guarded instructions. -/
def guardClass : Instr → Option (BitVec 3 × Nat)
  | .add _ _ _ g | .sub _ _ _ g | .mul _ _ _ g | .mulh _ _ _ g | .mulhu _ _ _ g | .div _ _ _ g | .divu _ _ _ g
  | .rem _ _ _ g | .remu _ _ _ g | .and _ _ _ g | .or _ _ _ g | .xor _ _ _ g | .andn _ _ _ g | .shl _ _ _ g
  | .shr _ _ _ g | .sar _ _ _ g | .ror _ _ _ g | .min _ _ _ g | .max _ _ _ g | .minu _ _ _ g | .maxu _ _ _ g
  | .clz _ _ g | .ctz _ _ g | .popc _ _ g | .bswap _ _ g | .sext _ _ _ g | .zext _ _ _ g | .addw _ _ _ g | .mov _ _ g
  | .ceq _ _ _ g | .cne _ _ _ g | .clt _ _ _ g | .cle _ _ _ g | .cltu _ _ _ g | .cleu _ _ _ g | .pand _ _ _ g
  | .por _ _ _ g | .pxor _ _ _ g | .pnot _ _ g | .pfx _ _ g | .xfp _ _ g | .fceq _ _ _ g _ | .fclt _ _ _ g _
  | .fcle _ _ _ g _ | .fcun _ _ _ g _ | .fadd _ _ _ g _ | .fsub _ _ _ g _ | .fmul _ _ _ g _ | .ffma _ _ _ g _
  | .fdiv _ _ _ g _ | .fsqrt _ _ g _ | .fmin _ _ _ g _ | .fmax _ _ _ g _ | .fabs _ _ g _ | .fneg _ _ g _
  | .fcvti _ _ _ g _ | .fcvtf _ _ _ g _ | .fcvtw _ _ g _ | .fcvtb _ _ _ g _ | .fclass _ _ g _ => some (g, clsScalar)
  | .sld _ _ g _ | .sst _ _ g _ | .aadd _ _ _ g _ | .aswap _ _ _ g _ | .acas _ _ _ g _ | .aand _ _ _ g _
  | .aor _ _ _ g _ | .axor _ _ _ g _ | .amax _ _ _ g _ | .amin _ _ _ g _ | .amaxu _ _ _ g _ | .aminu _ _ _ g _
  | .fence g _ _ | .flushr _ g | .tlend _ _ g | .tret _ g | .tgive _ _ g | .tsplit _ _ _ g | .tshare _ _ g | .tjoin _ g
  | .tqry _ _ g | .twait _ _ _ g | .tseal _ g | .tunseal _ g | .tclr _ g | .tclaim _ _ g => some (g, clsMem)
  | .vadd _ _ _ g | .vsub _ _ _ g | .vmul _ _ _ g | .vfma _ _ _ g | .vmin _ _ _ g | .vmax _ _ _ g | .vabs _ _ g
  | .vneg _ _ g | .vand _ _ _ g | .vor _ _ _ g | .vxor _ _ _ g | .vshl _ _ _ g | .vshr _ _ _ g | .vcvt _ _ _ g
  | .vscl _ _ _ g | .vreds _ _ g | .vredm _ _ _ g | .vbc _ _ g | .vext _ _ _ g | .vins _ _ _ g | .vperm _ _ _ g
  | .vsel _ _ _ g | .vcmpeq _ _ _ g | .vcmpeqPred _ _ _ _ g | .vcmplt _ _ _ g | .vcmpltPred _ _ _ _ g
  | .vcmple _ _ _ g | .vcmplePred _ _ _ _ g | .viota _ _ g | .vrnd _ _ g | .vdgst _ g | .vfmt _ _ g | .vmov _ _ g
  | .vdesc _ _ g | .rndk _ _ g | .dgst _ g => some (g, clsVec)
  | .mma _ _ _ _ g | .mzero _ _ g | .mld _ _ _ g | .mst _ _ _ _ g | .msnap _ _ _ _ g | .mwait _ _ g | .mstat _ _ _ g
  | .mcanc _ _ g | .mres _ _ g => some (g, clsMat)
  | .qbind _ _ _ g | .qunb _ g | .qrd _ _ g | .qwr _ _ g | .qpoll _ _ g | .qstat _ _ g | .send _ _ g _ | .sendr _ _ _ g _
  | .reply _ g _ | .hret g | .hmask _ g | .hunm _ g | .hset _ _ g | .cpy _ _ g | .gath _ _ g | .scat _ _ g | .coll _ _ g
  | .node _ _ _ g | .ewt _ _ g | .echk _ _ g | .edec _ g => some (g, clsComm)
  | .spawn _ _ _ g | .migr _ g | .steal _ _ g | .yield g | .endStrand g | .gang _ g | .bar _ g | .sopen _ _ _ g
  | .sclose _ g | .scanc _ g | .swin _ g | .shld g | .sunsh g | .cpt g | .sres _ _ _ g | .nop g | .pause _ g | .trap _ g
  | .eret g | .sleep _ g => some (g, clsCtl)
  | _ => none

end Sys2Proof.Claims

open Sys2Proof Sys2Proof.Machine Sys2Proof.Claims

/-- R11: an instruction whose guard is false has no effect and raises no fault; it retires, and the counts of R131, R382
and R392 are all that changes. -/
def Obligations.FalseGuard : Prop :=
  ∀ (i : Instr) (s : State) (st : Strand) (g : BitVec 3) (cls : Nat), Outside s st → guardClass i = some (g, cls) →
    st.p g = false → exec i s = .next (s.setStrand (after s st (st.pc + 4) cls))

/-- R41, R48, R122, R123, R125: with its guard true and its sources sound and not deferred, each integer compare and each
instruction of predicate logic writes its predicate, unless that is p0; every other predicate and all the rest stay. -/
def Sys2Proof.Claims.PredicateResults : Prop :=
  ∀ (i : Instr) (s : State) (st : Strand) (r : PRes), Outside s st → prdRes st i = some r → st.p r.g = true →
    Sound st r.reads → Undeferred st r.reads →
    ∃ preds : BitVec 8,
      exec i s = .next (s.setStrand (after s { st with preds := preds } (st.pc + 4) clsScalar))
      ∧ ∀ k : BitVec 3, ({ st with preds := preds } : Strand).p k = if k = r.p ∧ k ≠ 0 then r.val else st.p k

/-- R124: a floating compare writes its predicate from the two values; FCLT and FCLE raise INVALID on a NaN, FCEQ and
FCUN never do. -/
def Sys2Proof.Claims.FloatCompares : Prop :=
  ∀ (i : Instr) (s : State) (st : Strand) (p : BitVec 3) (a b : BitVec 5) (rel : Machine.Num → Machine.Num → Bool) (loud : Bool)
    (g : BitVec 3) (z : BitVec 1), Outside s st → fcmpRes i = some (p, a, b, rel, loud, g, z) → st.p g = true →
    Sound st [a, b] → Undeferred st [a, b] →
    let x := fltNum z (st.xv a)
    let y := fltNum z (st.xv b)
    ∃ preds : BitVec 8,
      exec i s = .next (s.setStrand (after s { st with
          preds := preds
          fflags := if loud ∧ (x = .nan ∨ y = .nan) then st.fflags ||| 1 else st.fflags } (st.pc + 4) clsScalar))
      ∧ ∀ k : BitVec 3, ({ st with preds := preds } : Strand).p k = if k = p ∧ k ≠ 0 then rel x y else st.p k

/-- R41, R114: a compare or PFX that reads a deferred register raises DEFERRED with its number, after REG_UE for any of
its registers; the predicate is not written. -/
def Sys2Proof.Claims.PredicateTraps : Prop :=
  ∀ (i : Instr) (s : State) (st : Strand) (reads : List (BitVec 5)) (g : BitVec 3), Current s st →
    prdReads st i = some (reads, g) → st.p g = true →
    ∀ (l m : List (BitVec 5)) (x : BitVec 5), reads = l ++ x :: m →
      (Sound st l → (st.x x.toNat).ue = true →
        exec i s = .next (s.takeTrap s.cur { code := .regUe, aux := some (BitVec.ofNat 64 (st.w + x.toNat)) } (st.pc.setWidth 64)))
      ∧ (Sound st reads → Undeferred st l → st.xd x = true →
        exec i s = .next (s.takeTrap s.cur { code := .deferred, aux := some (x.setWidth 64) } (st.pc.setWidth 64)))

/-- R133 to R140: each instruction of major FLT writes its result, with the OR of the D bits it read, and ORs its flags
into sw.fflags; nothing else changes. -/
def Obligations.FloatResults : Prop :=
  ∀ (i : Instr) (s : State) (st : Strand) (r : FRes), Outside s st → fltRes st i = some r → st.p r.g = true →
    Sound st r.reads → r.d.toNat < st.s →
    exec i s = .next (s.setStrand (after s
      { st.setX r.d.toNat r.val.1 (r.reads.any st.xd) with fflags := st.fflags ||| r.val.2 } (st.pc + 4) clsScalar))

/-- R85, R126, R128, R200: BR, its compact form, JMPR and CHK go to their target, raise FETCH when it lies outside
0x0000 to 0xFFFE (JMPR also when it is odd), or go on; nothing else changes. -/
def Obligations.Jumps : Prop :=
  ∀ (s : State) (st : Strand), Outside s st →
    let goes (i : Instr) (pc : BitVec 17) (cls : Nat) : Prop := exec i s = .next (s.setStrand (after s st pc cls))
    let faults (i : Instr) (low : BitVec 17) : Prop :=
      exec i s = .next (s.takeTrap s.cur { code := .fetch, aux := some (low.setWidth 64) } (st.pc.setWidth 64))
    let jumps (i : Instr) (o : Int) (cls : Nat) : Prop :=
      let t : Int := st.pc.toNat + 2 * o
      if 0 ≤ t ∧ t ≤ 0xFFFE then goes i (BitVec.ofInt 17 t) cls else faults i (BitVec.ofInt 17 t)
    (∀ (g : BitVec 3) (n : BitVec 1) (o : BitVec 20),
      if st.p g = (n == 0) then jumps (.br g n o) o.toInt clsScalar else goes (.br g n o) (st.pc + 4) clsScalar)
    ∧ (∀ (g : BitVec 3) (n : BitVec 1) (o : BitVec 9),
      if st.p g = (n == 0) then jumps (.brCompact g n o) o.toInt clsScalar else goes (.brCompact g n o) (st.pc + 2) clsScalar)
    ∧ (∀ a : BitVec 5, Sound st [a] → Undeferred st [a] →
      if (st.xv a).toNat % 2 = 0 ∧ (st.xv a).toNat ≤ 0xFFFE then goes (.jmpr a) (BitVec.ofNat 17 (st.xv a).toNat) clsScalar
      else faults (.jmpr a) (BitVec.ofNat 17 (st.xv a).toNat))
    ∧ (∀ (a : BitVec 5) (o : BitVec 19), Sound st [a] →
      if st.xd a = true then jumps (.chk a o) o.toInt clsMem else goes (.chk a o) (st.pc + 4) clsMem)

/-- R38, R127 to R130: with its target in range, its size allowed and room in the register store, CALL and CALLR move the
window up by n and push the return, RET and its compact form pop it, ALLOC sets the size. Names keep their positions: a name
below the new size shows what the position held, or zero where the window grows. Memory, tokens and every other strand stay
as they were. -/
def Sys2Proof.Claims.WindowMoves : Prop :=
  ∀ (s : State) (st st' : Strand), Outside s st →
    let moves (i : Instr) (w k : Nat) (links : List LinkRec) (pc : BitVec 17) : Prop :=
      ∃ t new, exec i s = .next t ∧ t.strand s.cur = some new ∧ new.w = w ∧ new.s = k ∧ new.links = links ∧ new.pc = pc
        ∧ new.preds = st.preds ∧ new.vregs = st.vregs ∧ new.retired = st.retired + 1 ∧ new.idem = none
        ∧ (∀ j, j < k → new.x j = if w + j < st.w + st.s then st.stack.get {} (w + j) else {})
        ∧ t.mem = s.mem ∧ t.tokens = s.tokens ∧ t.scopes = s.scopes ∧ ∀ sk, sk ≠ s.cur → t.strand sk = s.strand sk
    let calls (i : Instr) (n : Nat) (pc : BitVec 17) : Prop :=
      let m : Move := { w := st.w + n, s := st.s - n, push := some ⟨false, st.s, n, (st.pc + 4).setWidth 16⟩ }
      n ≤ st.s → (st.pc + 4).toNat ≤ 0xFFFE → st.links.length + st.linkSpilled < 256 → st.w + st.s ≤ 1024 →
      s.roomFor st m = .ready st' → moves i (st.w + n) (st.s - n) (⟨false, st.s, n, (st.pc + 4).setWidth 16⟩ :: st.links) pc
    (∀ (n : BitVec 5) (o : BitVec 16), 0 ≤ (st.pc.toNat : Int) + 2 * o.toInt → (st.pc.toNat : Int) + 2 * o.toInt ≤ 0xFFFE →
      calls (.call n o) n.toNat (BitVec.ofInt 17 (st.pc.toNat + 2 * o.toInt)))
    ∧ (∀ n a : BitVec 5, Sound st [a] → Undeferred st [a] → (st.xv a).toNat % 2 = 0 → (st.xv a).toNat ≤ 0xFFFE →
      calls (.callr n a) n.toNat (BitVec.ofNat 17 (st.xv a).toNat))
    ∧ (∀ (i : Instr) (r : LinkRec) (rest : List LinkRec), i = .ret ∨ i = .retCompact → st.links = r :: rest → r.trap = false →
      st.w - r.n + r.s ≤ 1024 → s.roomFor st { w := st.w - r.n, s := r.s, pop := true } = .ready st' →
      moves i (st.w - r.n) r.s rest (r.pc.setWidth 17))
    ∧ (∀ (n : BitVec 5) (h : BitVec 1), let k := 32 * h.toNat + n.toNat
      k ≤ 32 → st.w + k ≤ 1024 → s.roomFor st { w := st.w, s := k } = .ready st' → moves (.alloc n h) st.w k st.links (st.pc + 4))

/-- R39, R127, R129, R130: what a window move may not do. CALL and CALLR by more than s raise REG_UNALLOCATED, a window
past position 1,024 STACK_LIMIT 0, a 257th record STACK_LIMIT 1; RET with no record STACK_LIMIT 2; ALLOC of more than 32
REG_UNALLOCATED. -/
def Sys2Proof.Claims.WindowLimits : Prop :=
  ∀ (s : State) (st : Strand), Outside s st →
    let traps (i : Instr) (c : FaultName) (aux : Word) : Prop :=
      exec i s = .next (s.takeTrap s.cur { code := c, aux := some aux } (st.pc.setWidth 64))
    (∀ (n : BitVec 5) (o : BitVec 16), 0 ≤ (st.pc.toNat : Int) + 2 * o.toInt → (st.pc.toNat : Int) + 2 * o.toInt ≤ 0xFFFE →
      (st.pc + 4).toNat ≤ 0xFFFE →
      (st.s < n.toNat → traps (.call n o) .regUnallocated (n.setWidth 64))
      ∧ (n.toNat ≤ st.s → 1024 < st.w + st.s → traps (.call n o) .stackLimit 0)
      ∧ (n.toNat ≤ st.s → st.w + st.s ≤ 1024 → 256 ≤ st.links.length + st.linkSpilled → traps (.call n o) .stackLimit 1))
    ∧ (st.links = [] → traps .ret .stackLimit 2 ∧ traps .retCompact .stackLimit 2)
    ∧ (∀ (n : BitVec 5) (h : BitVec 1), let k := 32 * h.toNat + n.toNat
      (32 < k → traps (.alloc n h) .regUnallocated (BitVec.ofNat 64 k))
      ∧ (k ≤ 32 → 1024 < st.w + k → traps (.alloc n h) .stackLimit 0))

namespace Sys2Proof.Claims

/-- Bits of a status word that hold what is written to it (R56, R132, R392). -/
def swMask (n : Nat) : Word :=
  if n = 0x030 then 0x3
  else if n = 0x031 then 0x3F
  else if n = 0x032 ∨ n = 0x033 ∨ n = 0x040 then 0xFFFF
  else if n = 0x052 then ~~~0x3FFF
  else if 0x234 ≤ n then 0x3FF
  else BitVec.allOnes 64

end Sys2Proof.Claims

/-- R56, R131, R385: MFS reads any word of the map that the strand may read into an allocated register; PRIV guards the
privileged words, DETERMINISM the timed ones in a QUANTA scope; a number outside the map is ILLEGAL. -/
def Sys2Proof.Claims.StatusReads : Prop :=
  ∀ (s : State) (st : Strand) (d : BitVec 5) (n : BitVec 12), Outside s st →
    let traps (t : Trap) : Prop := exec (.mfs d n) s = .next (s.takeTrap s.cur t (st.pc.setWidth 64))
    match swAccess n.toNat with
    | none => traps { code := .illegal, aux := some ((instrWord (.mfs d n)).setWidth 64) }
    | some acc =>
      if acc = .priv ∧ s.isSys st.scope = false then traps { code := .priv }
      else if s.isQuanta st.scope = true ∧ swTimed n.toNat = true then traps { code := .determinism, aux := some (n.setWidth 64) }
      else if st.s ≤ d.toNat then traps { code := .regUnallocated, aux := some (BitVec.ofNat 64 d.toNat) }
      else exec (.mfs d n) s =
        .next (s.setStrand (after s (st.setX d.toNat (s.readSw st n.toNat) false) (st.pc + 4) clsScalar))

/-- R56, R132: MTS with sound, undeferred sources writes a word that the strand may write: reading it then gives the bits
the word holds, and every other word reads as before (the retired count apart); PRIV guards the rest of the map. sw.fflags
waits for the strand's matrix operations that go on (log entry 45), sw.spillbase for a spill or fill in progress. -/
def Sys2Proof.Claims.StatusWrites : Prop :=
  ∀ (s : State) (st : Strand) (a : BitVec 5) (n : BitVec 12) (acc : SwAccess), Outside s st → swAccess n.toNat = some acc →
    let barred := acc = .ro ∨ (acc = .priv ∧ s.isSys st.scope = false) ∨ (acc = .handler ∧ st.trapDepth = 0)
    (barred → exec (.mts a n) s = .next (s.takeTrap s.cur { code := .priv } (st.pc.setWidth 64)))
    ∧ (¬ barred → Sound st [a] → Undeferred st [a] →
      (n = 0x052 → ∃ st1, s.spillTo st (st.xv a) = .ok st1) →
      (∀ w, s.swWait st n.toNat = some w → exec (.mts a n) s = .next ((s.setStrand { st with wait := w }).bankStates st.pcore))
      ∧ (s.swWait st n.toNat = none →
      ∃ st1, exec (.mts a n) s = .next (s.setStrand (after s st1 (st.pc + 4) clsScalar))
        ∧ s.readSw st1 n.toNat = st.xv a &&& swMask n.toNat
        ∧ (∀ m, m ≠ n.toNat → s.readSw st1 m = s.readSw st m)
        ∧ st1.stack = st.stack ∧ st1.preds = st.preds ∧ st1.vregs = st.vregs ∧ st1.pc = st.pc))

/-! ### Memory, sync cells and tokens -/

namespace Sys2Proof.Claims

/-- The current strand has retired an instruction `len` bytes long: it goes on after it with the register stack `stack`, its
window, predicates, vectors and link records as they were; every other strand is as it was (counts that go by its handle
reach its own slot). -/
structure Retires (s t : State) (st : Strand) (len : Nat) (stack : Assoc RegEntry) : Prop where
  here : ∃ new, t.strand s.cur = some new ∧ new.pc = st.pc + BitVec.ofNat 17 len ∧ new.retired = st.retired + 1 ∧ new.stack = stack
    ∧ new.w = st.w ∧ new.s = st.s ∧ new.preds = st.preds ∧ new.vregs = st.vregs ∧ new.links = st.links ∧ new.wait = st.wait
    ∧ new.answer = none ∧ new.ox0 = st.ox0 ∧ new.trapcode = st.trapcode
  others : ∀ sk, sk ≠ s.cur → sk ≠ handleSk st.handle → t.strand sk = s.strand sk

/-- A member's packet has left: it is under way, or in QUANTA mode with the requests of the quantum (R383). -/
def Leaves (s t : State) (scope : ScopeId) (ev : Instr) (arg : Payload) : Prop :=
  if s.isQuanta scope = false then ∃ p ∈ t.agenda, p.ev = ev ∧ p.arg = arg
  else ∃ h ∈ (t.domains.get {} (s.domainOf scope).toNat).held, h.1.ev = ev ∧ h.2 = arg

/-- The little-endian number of bytes (R4), and the loaded value of 1 to 8 of them, sign- or zero-extended (R196). -/
def number : List Byte → Nat
  | [] => 0
  | b :: rest => b.toNat + 256 * number rest
def loaded (signed : Bool) (bs : List Byte) : Word :=
  if signed then BitVec.ofInt 64 ((number bs : Int).bmod (2 ^ (8 * bs.length))) else BitVec.ofNat 64 (number bs)
/-- Byte `i` of a word. -/
def byteOf (v : Word) (i : Nat) : Byte := BitVec.ofNat 8 (v.toNat / 2 ^ (8 * i))

/-- Size, extension, destination, base, displacement and length of the loads (R196). -/
def loadOf : Instr → Option (Nat × Bool × BitVec 5 × BitVec 5 × Int × Nat)
  | .ldB d b n => some (1, true, d, b, n.toInt, 4)
  | .ldBu d b n => some (1, false, d, b, n.toInt, 4)
  | .ldH d b n => some (2, true, d, b, 2 * n.toInt, 4)
  | .ldHu d b n => some (2, false, d, b, 2 * n.toInt, 4)
  | .ldW d b n => some (4, true, d, b, 4 * n.toInt, 4)
  | .ldWu d b n => some (4, false, d, b, 4 * n.toInt, 4)
  | .ldD d b n => some (8, false, d, b, 8 * n.toInt, 4)
  | .ldDCompact d b n => some (8, false, d, b, 8 * n.toNat, 2)
  | _ => none

/-- The same of the speculative loads (R199). -/
def specOf : Instr → Option (Nat × Bool × BitVec 5 × BitVec 5 × Int)
  | .ldsB d b n => some (1, true, d, b, n.toInt)
  | .ldsBu d b n => some (1, false, d, b, n.toInt)
  | .ldsH d b n => some (2, true, d, b, 2 * n.toInt)
  | .ldsHu d b n => some (2, false, d, b, 2 * n.toInt)
  | .ldsW d b n => some (4, true, d, b, 4 * n.toInt)
  | .ldsWu d b n => some (4, false, d, b, 4 * n.toInt)
  | .ldsD d b n => some (8, false, d, b, 8 * n.toInt)
  | _ => none

/-- Size, data register, base, displacement and length of the stores (R196). -/
def storeOf : Instr → Option (Nat × BitVec 5 × BitVec 5 × Int × Nat)
  | .stB x b n => some (1, x, b, n.toInt, 4)
  | .stH x b n => some (2, x, b, 2 * n.toInt, 4)
  | .stW x b n => some (4, x, b, 4 * n.toInt, 4)
  | .stD x b n => some (8, x, b, 8 * n.toInt, 4)
  | .stDCompact x b n => some (8, x, b, 8 * n.toNat, 2)
  | _ => none

/-- The address: base plus displacement, modulo 2^64 (R88). -/
def addr (st : Strand) (b : BitVec 5) (o : Int) : Word := BitVec.ofInt 64 ((st.xv b).toInt + o)

/-- The bytes that a load finds near at hand: in the core's own vault whose words pass their parity check, in a line of the core's
L0 without a parity failure, or in a register of IO, once every access issued before has its reply. -/
def near (s : State) (st : Strand) (va : Word) (at_ : Where) (n : Nat) : Option (List Byte) :=
  match at_ with
  | .vaultAt key =>
    if (key - Config.vaultBase) / Config.vaultSize = st.pcore ∧ (∀ k ∈ wordsOf key n, parityOf (s.err k) = 0) then some ((List.range n).map fun j => s.byte (key + j)) else none
  | .lineOf key =>
    match (s.core st.pcore).lines.find (blockKey key) with
    | some l => if l.diff = 0 ∧ key - blockKey key + n ≤ 64 then some ((List.range n).map fun j => blockByte l.data (key - blockKey key + j)) else none
    | none => none
  | .ioAt off =>
    match s.ioAccess st.cluster off va false with
    | .ok r => if st.pend = [] then some ((List.range 8).map fun j => byteOf (s.readReg r) j) else none
    | .error _ => none
  | .cellAt _ => none

/-- No access to the place is counted as remote (R376). -/
abbrev Uncounted (s : State) (st : Strand) (p : Place) : Prop := s.remoteOf st p = none ∨ (s.scope st.scope).migthr = 0

/-- A sector without a flipped bit or bad tag (R190). -/
abbrev Clean (s : State) (k : Nat) : Prop := s.sectorDiff k = 0 ∧ s.badTags.contains k = false

/-- A sector that the keys of `keyid` open: it stands under the same pair, or in the clear under key id 0 (R189). -/
abbrev Opens (s : State) (k : Nat) (keyid : BitVec 12) : Prop := s.seals.get 0 k = s.pairOf keyid

/-- The state once an access has reached its place: a line of L0 there keeps under which address it was reached. -/
def met (s : State) (st : Strand) (p : Place) : State :=
  match p.at_ with
  | .lineOf key =>
    match (s.core st.pcore).lines.find (blockKey key) with
    | some l => s.setLine st.pcore (blockKey key) (l.reached (blockKey key) p.c0)
    | none => s
  | _ => s

end Sys2Proof.Claims

/-- R88, R173, R196, R197: a load whose address passes its checks and whose bytes are in the core's own vault, in the core's L0 or in a
register of IO writes them, little-endian and extended as its name says, with D = 0; nothing else changes, memory least of all,
but that a line keeps the address it was reached under. -/
def Sys2Proof.Claims.Loads : Prop :=
  ∀ (i : Instr) (s : State) (st : Strand) (n : Nat) (signed : Bool) (d b : BitVec 5) (o : Int) (len : Nat) (p : Place)
    (bs : List Byte), Outside s st → loadOf i = some (n, signed, d, b, o, len) → Sound st [b] → Undeferred st [b] →
    d.toNat < st.s → st.cut = none → s.place (s.who st) (.load n) (addr st b o) = .ok p → Uncounted s st p →
    near s st (addr st b o) p.at_ n = some bs →
    exec i s = .next ((met s st p).setStrand
      (after s (st.setX d.toNat (loaded signed bs) false) (st.pc + BitVec.ofNat 17 len) clsMem))

/-- R180, R189, R190, R196: a load of a line that L0 does not hold, whose sector has no error and opens under the region's key
id, gives the bytes of home memory and
leaves a clean copy of the whole line in L0; with fewer than 1,024 lines there, no byte of memory changes. The number of lines
an L0 holds before it evicts is the model's reading (log entry 8). A load of a vault, any core's, whose words pass their parity
check gives its bytes, and no memory changes. -/
def Sys2Proof.Claims.LoadFills : Prop :=
  (∀ (i : Instr) (s : State) (st : Strand) (n : Nat) (signed : Bool) (d b : BitVec 5) (o : Int) (len : Nat) (p : Place) (key : Nat),
    Outside s st → loadOf i = some (n, signed, d, b, o, len) → Sound st [b] → Undeferred st [b] → d.toNat < st.s → st.cut = none →
    s.place (s.who st) (.load n) (addr st b o) = .ok p → Uncounted s st p → p.at_ = .lineOf key →
    (s.core st.pcore).lines.find (blockKey key) = none → isHost (blockKey key) = true ∨ Clean s (blockKey key) ∧ Opens s (blockKey key) p.c0.keyid →
    (s.core st.pcore).lines.length < 1024 → blockKey (key + n - 1) = blockKey key →
    ∃ t l, exec i s = .next t ∧ SameMemory s t
      ∧ Retires s t st len (st.setX d.toNat (loaded signed ((List.range n).map fun j => s.byte (key + j))) false).stack
      ∧ (t.core st.pcore).lines.find (blockKey key) = some l ∧ l.dirty = false ∧ ∀ j, j < 64 → blockByte l.data j = s.byte (blockKey key + j))
  ∧ ∀ (i : Instr) (s : State) (st : Strand) (n : Nat) (signed : Bool) (d b : BitVec 5) (o : Int) (len : Nat) (p : Place) (key : Nat),
    Outside s st → loadOf i = some (n, signed, d, b, o, len) → Sound st [b] → Undeferred st [b] → d.toNat < st.s → st.cut = none →
    s.place (s.who st) (.load n) (addr st b o) = .ok p → Uncounted s st p → p.at_ = .vaultAt key →
    (∀ k ∈ wordsOf key n, parityOf (s.err k) = 0) → ∃ t, exec i s = .next t ∧ SameMemory s t ∧ t.cores = s.cores
      ∧ Retires s t st len (st.setX d.toNat (loaded signed ((List.range n).map fun j => s.byte (key + j))) false).stack

/-- R88, R173, R192, R196, R197: a store to a vault writes its bytes at its address and no other byte of any memory; a store
to a line that L0 holds changes those bytes of the line, makes it dirty, and changes no byte of memory; a store to a
register of IO has that register's effect. -/
def Obligations.Stores : Prop :=
  ∀ (i : Instr) (s : State) (st : Strand) (n : Nat) (x b : BitVec 5) (o : Int) (len : Nat) (p : Place) (key : Nat),
    Outside s st → storeOf i = some (n, x, b, o, len) → Sound st [b, x] → Undeferred st [b, x] → st.cut = none →
    s.place (s.who st) (.store n) (addr st b o) = .ok p → Uncounted s st p →
    (p.at_ = .vaultAt key → ∃ t, exec i s = .next t ∧ Retires s t st len st.stack ∧ t.cores = s.cores ∧ t.tokens = s.tokens
      ∧ ∀ a, t.byte a = if key ≤ a ∧ a < key + n then byteOf (st.xv x) (a - key) else s.byte a)
    ∧ (∀ l, p.at_ = .lineOf key → (s.core st.pcore).lines.find (blockKey key) = some l → l.diff = 0 →
      ∃ t l', exec i s = .next t ∧ SameMemory s t ∧ Retires s t st len st.stack
        ∧ (t.core st.pcore).lines.find (blockKey key) = some l' ∧ l'.dirty = true ∧ l'.desc = l.desc
        ∧ (∀ j, j < 64 → blockByte l'.data j =
            if key ≤ blockKey key + j ∧ blockKey key + j < key + n then byteOf (st.xv x) (blockKey key + j - key) else blockByte l.data j)
        ∧ ∀ k, k ≠ blockKey key → (t.core st.pcore).lines.find k = (s.core st.pcore).lines.find k)
    ∧ (∀ off reg s1 st1, p.at_ = .ioAt off → st.pend = [] → s.ioAccess st.cluster off (addr st b o) true = .ok reg →
      s.writeReg reg (st.xv x) = some s1 → s1.cur = s.cur → s1.strand s.cur = some st1 → st1.idem = none →
      exec i s = .next (s1.setStrand (after s1 st1 (st1.pc + BitVec.ofNat 17 len) clsMem)))

/-- R199: a speculative load of bytes near at hand gives what the load would give; on SYNC and IO, and where the checks of
its address would trap, it writes 0 with D = 1 instead. Where no translation gives the page, it does so too, with no page
request, once the device holds one that does not allow the read or the host's IOMMU has answered; until then it waits for that
answer. Nothing else changes, but that a line keeps the address it was reached under. -/
def Obligations.SpeculativeLoads : Prop :=
  ∀ (i : Instr) (s : State) (st : Strand) (n : Nat) (signed : Bool) (d b : BitVec 5) (o : Int),
    Outside s st → specOf i = some (n, signed, d, b, o) → Sound st [b] → Undeferred st [b] → d.toNat < st.s →
    let gives (v : Word) (deferred : Bool) : Prop :=
      exec i s = .next (s.setStrand (after s (st.setX d.toNat v deferred) (st.pc + 4) clsMem))
    let path := (addr st b o).extractLsb' 50 4
    (∀ p bs, path ≠ 2 → path ≠ 7 → st.answer = none → st.cut = none → s.place (s.who st) (.load n) (addr st b o) = .ok p →
      Uncounted s st p → near s st (addr st b o) p.at_ n = some bs →
      exec i s = .next ((met s st p).setStrand (after s (st.setX d.toNat (loaded signed bs) false) (st.pc + 4) clsMem)))
    ∧ (∀ p key, st.answer = none → st.cut = none → s.place (s.who st) (.load n) (addr st b o) = .ok p → Uncounted s st p →
      p.at_ = .vaultAt key → (∀ k ∈ wordsOf key n, parityOf (s.err k) = 0) → ∃ t, exec i s = .next t ∧ SameMemory s t ∧ t.cores = s.cores
        ∧ Retires s t st 4 (st.setX d.toNat (loaded signed ((List.range n).map fun j => s.byte (key + j))) false).stack)
    ∧ (path = 2 ∨ path = 7 → gives 0 true)
    ∧ (∀ t, path ≠ 2 → path ≠ 7 → s.place (s.who st) (.load n) (addr st b o) = .error (.trap t) → gives 0 true)
    ∧ (∀ who pg w, path ≠ 2 → path ≠ 7 → s.place (s.who st) (.load n) (addr st b o) = .error (.page who pg w) →
      ((s.transEntry who (4096 * pg)).isSome = true ∨ st.atsAns = some pg → (∀ t, st.answer ≠ some (.trap t)) → gives 0 true)
      ∧ (s.transEntry who (4096 * pg) = none → st.atsAns ≠ some pg → (∀ t, st.answer ≠ some (.trap t)) → ∃ t, exec i s = .next t
        ∧ (t.strand s.cur).map (fun x => (x.wait, x.pc)) = some (.ats who pg, st.pc)
        ∧ { pasid := who, page := pg, need := 0, stage := .quiet, sent := false } ∈ t.pages ∧ SameMemory s t))

/-- R173, R187: what a load's or a store's address raises, in this order: bits above the path PATH 1, an undefined path PATH
2, an access that the path does not take PATH 3, a vault past 2^32 PATH 5, no register of IO there PATH 3, IO outside `sys` PRIV, a misaligned address ALIGN, each with the address in sw.trapva; no register and no memory is
written before the trap. -/
def Obligations.AddressTraps : Prop :=
  ∀ (i : Instr) (s : State) (st : Strand) (n : Nat) (b : BitVec 5) (o : Int) (write : Bool),
    Outside s st → Sound st [b] → Undeferred st [b] →
    ((∃ sg d len, write = false ∧ loadOf i = some (n, sg, d, b, o, len) ∧ d.toNat < st.s)
      ∨ ∃ x len, write = true ∧ storeOf i = some (n, x, b, o, len) ∧ Sound st [x] ∧ Undeferred st [x]) →
    let va := addr st b o
    let path := (va.extractLsb' 50 4).toNat
    let traps (c : FaultName) (sub : BitVec 8) : Prop :=
      exec i s = .next (s.takeTrap s.cur { code := c, sub := sub, va := va } (st.pc.setWidth 64))
    if va.toNat / 2 ^ 54 ≠ 0 then traps .path 1
    else if path = 5 ∨ 8 ≤ path then traps .path 2
    else if path = 2 ∧ n ≠ 8 ∨ path = 7 ∧ n ≠ 8 then traps .path 3
    else if path = 3 ∧ 2 ^ 32 ≤ va.toNat % 2 ^ 50 then traps .path 5
    else if path = 7 ∧ (s.ioAccess st.cluster (va.toNat % 2 ^ 50) va write).toOption = none then traps .path 3
    else if path = 7 ∧ s.isSys st.scope = false then traps .priv 0
    else va.toNat % n ≠ 0 → traps .align 0

namespace Sys2Proof.Claims

/-- The sync-cell instructions (R201), and LD.D and ST.D on SYNC: operation, order, address, value, destination, guard,
registers read, length. -/
structure CellOp where
  op : BitVec 4
  ord : BitVec 2
  va : Word
  val : Word
  dst : Option (BitVec 5)
  g : BitVec 3
  reads : List (BitVec 5)
  len : Nat := 4

/-- The address lies on the path SYNC. -/
def onSync (va : Word) : Bool := va.toNat / 2 ^ 50 == 2

def cellOf (st : Strand) : Instr → Option CellOp
  | .sld d a g o => some ⟨0, o, st.xv a, 0, some d, g, [a], 4⟩
  | .sst a b g o => some ⟨1, o, st.xv a, st.xv b, none, g, [a, b], 4⟩
  | .aadd d a b g o => some ⟨2, o, st.xv a, st.xv b, some d, g, [a, b], 4⟩
  | .aswap d a b g o => some ⟨3, o, st.xv a, st.xv b, some d, g, [a, b], 4⟩
  | .acas d a b g o => some ⟨4, o, st.xv a, st.xv b, some d, g, [a, b], 4⟩
  | .aand d a b g o => some ⟨5, o, st.xv a, st.xv b, some d, g, [a, b], 4⟩
  | .aor d a b g o => some ⟨6, o, st.xv a, st.xv b, some d, g, [a, b], 4⟩
  | .axor d a b g o => some ⟨7, o, st.xv a, st.xv b, some d, g, [a, b], 4⟩
  | .amax d a b g o => some ⟨8, o, st.xv a, st.xv b, some d, g, [a, b], 4⟩
  | .amin d a b g o => some ⟨9, o, st.xv a, st.xv b, some d, g, [a, b], 4⟩
  | .amaxu d a b g o => some ⟨10, o, st.xv a, st.xv b, some d, g, [a, b], 4⟩
  | .aminu d a b g o => some ⟨11, o, st.xv a, st.xv b, some d, g, [a, b], 4⟩
  | .ldD d b n => if onSync (addr st b (8 * n.toInt)) then some ⟨0, 0, addr st b (8 * n.toInt), 0, some d, 0, [b], 4⟩ else none
  | .ldDCompact d b n =>
    if onSync (addr st b (8 * n.toNat)) then some ⟨0, 0, addr st b (8 * n.toNat), 0, some d, 0, [b], 2⟩ else none
  | .stD x b n =>
    if onSync (addr st b (8 * n.toInt)) then some ⟨1, 0, addr st b (8 * n.toInt), st.xv x, none, 0, [b, x], 4⟩ else none
  | .stDCompact x b n =>
    if onSync (addr st b (8 * n.toNat)) then some ⟨1, 0, addr st b (8 * n.toNat), st.xv x, none, 0, [b, x], 2⟩ else none
  | _ => none

/-- What the cell holds after an operation, of the old value, the operand and sw.ox0 (R201). -/
def cellAfter (op : BitVec 4) (old v cmp : Word) : Word :=
  match op.toNat with
  | 1 | 3 => v
  | 2 => BitVec.ofInt 64 (old.toInt + v.toInt)
  | 4 => if old.toNat = cmp.toNat then v else old
  | 5 => old &&& v
  | 6 => old ||| v
  | 7 => old ^^^ v
  | 8 => if old.toInt ≤ v.toInt then v else old
  | 9 => if v.toInt ≤ old.toInt then v else old
  | 10 => if old.toNat ≤ v.toNat then v else old
  | 11 => if v.toNat ≤ old.toNat then v else old
  | _ => old

end Sys2Proof.Claims

/-- R196, R201 to R203: a sync-cell instruction, or an LD.D or ST.D on SYNC, whose address passes the checks of SYNC retires
at once; its operation leaves for the cell's home with its operand and sw.ox0, `.r` and `.ar` ones behind the strand's earlier
accesses (in QUANTA mode it waits to issue for the first reads of engine commands), and pends; the destination is not written
yet, and memory stays as it was. -/
def Sys2Proof.Claims.CellIssue : Prop :=
  ∀ (i : Instr) (s : State) (st : Strand) (c : CellOp) (p : Place), Outside s st → cellOf st i = some c → st.p c.g = true →
    Sound st c.reads → Undeferred st c.reads → (∀ d ∈ c.dst, d.toNat < st.s) →
    s.place (s.who st) (.cell (c.op != 0)) c.va = .ok p → Uncounted s st p →
    (c.ord.getLsbD 1 = true → s.isQuanta st.scope = true → st.cmds.any s.unread = false) →
    ∃ t new q r, exec i s = .next t ∧ Retires s t st c.len st.stack ∧ SameMemory s t
      ∧ t.strand s.cur = some new ∧ new.pend = st.pend ++ [q] ∧ q.number = s.fresh ∧ q.dst = c.dst.map (fun d => st.w + d.toNat)
      ∧ Leaves s t st.scope .syncCellOperation (.syncReq r) ∧ r.number = s.fresh ∧ r.op = c.op ∧ r.ord = c.ord ∧ r.key = p.at_.key
      ∧ r.va = c.va ∧ r.val = c.val ∧ r.cmp = st.ox0 ∧ r.dst = q.dst ∧ r.sk = st.sk ∧ r.handle = st.handle ∧ s.fresh ∈ t.outst
      ∧ (s.isQuanta st.scope = false → ∃ e ∈ t.agenda, e.arg = .syncReq r
          ∧ e.waits = if c.ord.getLsbD 1 then st.pend.map (·.number) ++ st.moves ++ st.cmds else [])

/-- R201, R219, R410: at its home an operation outside the recorded modes reads the cell and writes its new value in one
step; the old value goes back to the strand. No other byte of memory changes, and no strand but an EWT that waits there. -/
def Sys2Proof.Claims.CellOperation : Prop :=
  ∀ (s : State) (r : SyncReq), s.arg = .syncReq r → s.dmode r.scope = 0 ∨ s.dmode r.scope = 3 →
    s.quadRuns (quadOf (routerOf r.key)) = true → isHost (blockKey r.key) = false → isTable (blockKey r.key) = false →
    Clean s (blockKey r.key) →
    Opens s (blockKey r.key) (((s.covering r.pasid false (r.va.toNat % 2 ^ 50)).map (·.keyid)).getD 0) → r.key % 8 = 0 →
    r.op.toNat ≤ 11 →
    ∃ t, exec .syncCellOperation s = .next t ∧ r.number ∉ t.outst
      ∧ (∀ a, t.byte a = if r.key ≤ a ∧ a < r.key + 8 then byteOf (cellAfter r.op (s.word r.key) r.val r.cmp) (a - r.key) else s.byte a)
      ∧ (∀ sk st, s.strand sk = some st → st.wait ≠ .word r.key true → t.strand sk = some st) ∧ t.tokens = s.tokens
      ∧ Leaves s t r.scope .syncCellReply
          (.syncAns { number := r.number, sk := r.sk, handle := r.handle, dst := r.dst, val := s.word r.key, fault := none
                      va := r.va, key := r.key, old := s.word r.key, new := cellAfter r.op (s.word r.key) r.val r.cmp })

/-- R45, R203, R410: the reply writes the destination, where the strand still has it, at its place in the register stack, with
D = 0, or in the spill area where its group has been spilled; the operation no longer pends. A fault is kept for the strand's next instruction
boundary; a reply to a strand that has ended is discarded. -/
def Sys2Proof.Claims.CellReply : Prop :=
  ∀ (s : State) (a : SyncAns) (st : Strand), s.arg = .syncAns a → s.strand a.sk = some st → st.sk = a.sk → st.wait ≠ .drain →
    st.commit = none →
    let answered : Strand := { st with pend := st.pend.filter fun q => q.number != a.number }
    (∀ p, st.handle = a.handle → st.pend.find? (fun q => q.number = a.number) = some p →
      (∀ f, a.fault = some f → exec .syncCellReply s = .next (s.setStrand { answered with late := st.late ++ [f] }))
      ∧ (a.fault = none → p.dst = none → exec .syncCellReply s = .next (s.setStrand answered))
      ∧ (∀ pos, a.fault = none → p.dst = some pos → st.spilled.contains (pos / 8) = false →
        exec .syncCellReply s = .next (s.setStrand
          { answered with stack := st.stack.put {} pos { val := a.val, d := false, lost := false, flip := 0 } }))
      ∧ (∀ pos, a.fault = none → p.dst = some pos → st.spilled.contains (pos / 8) = true → pos < 1024 →
        ∃ t, exec .syncCellReply s = .next t ∧ t.strand a.sk = some answered
          ∧ ∀ j, j < 8 → t.byte (s.spillKey st + 8 * pos + j) = byteOf a.val j))
    ∧ (st.handle ≠ a.handle → exec .syncCellReply s = .next s)
    ∧ ((∀ q ∈ st.pend, q.number ≠ a.number) → exec .syncCellReply s = .next s)

namespace Sys2Proof.Claims

/-- Has a FENCE of kind `k` an access to wait for (R204, R282)? Loads for `.ld`; stores, queue words and replies for `.st`; all
of them, token transfers and the first reads of engine commands for `.all` and `.eng`. With scope 0, the parties of its own core, an
operation need only have been performed. -/
def FenceHeld (s : State) (st : Strand) (k : BitVec 2) (core : Bool) : Prop :=
  let open_ (q : PendSync) : Prop := core = false ∨ q.number ∈ s.outst
  if k = 0 then ∃ q ∈ st.pend, q.reads = true ∧ open_ q
  else if k = 1 then (∃ q ∈ st.pend, q.writes = true ∧ open_ q) ∨ s.sending st = true
  else (∃ q ∈ st.pend, open_ q) ∨ (∃ n ∈ st.moves, n ∈ s.outst) ∨ (∃ n ∈ st.cmds, s.unread n = true) ∨ s.sending st = true

end Sys2Proof.Claims

/-- R204: FENCE completes: with none of the accesses that its kind names outstanding, FENCE.ld, FENCE.st, FENCE.all or FENCE.eng
retires and changes nothing else; a FENCE.all of a RECORD scope writes its place in the total order to the log too, and one of a REPLAY scope needs that place to
have come (R222). -/
def Sys2Proof.Claims.FenceCompletes : Prop :=
  ∀ (s : State) (st : Strand) (g sc : BitVec 3) (k : BitVec 2), Outside s st → st.p g = true →
    ¬ FenceHeld s st k (sc == 0) →
    (s.dmode st.scope = 0 ∨ s.dmode st.scope = 3 ∨ k ≠ 2 →
      exec (.fence g sc k) s = .next (s.setStrand (after s st (st.pc + 4) clsMem)))
    ∧ (s.dmode st.scope = 1 → ∃ t, exec (.fence g sc k) s = .next t ∧ Retires s t st 4 st.stack)
    ∧ (s.dmode st.scope = 2 → s.isDue st.scope 5 0 (partyChoice (s.logical st.pcore) st.retired) = true →
      ∃ t, exec (.fence g sc k) s = .next t ∧ Retires s t st 4 st.stack)

/-- R204: FENCE waits for the accesses that its kind names, and is executed again when they are here. -/
def Sys2Proof.Claims.FenceWaits : Prop :=
  ∀ (s : State) (st : Strand) (g sc : BitVec 3) (k : BitVec 2), Outside s st → st.p g = true →
    FenceHeld s st k (sc == 0) →
    exec (.fence g sc k) s = .next ((s.setStrand { st with wait := .fence k (sc == 0) }).bankStates st.pcore)

namespace Sys2Proof.Claims

/-- The 64 bytes that the line at `k` is written to, and those of the mirror of a table sector (R177). -/
def spans (k a : Nat) : Prop :=
  k ≤ a ∧ a < k + 64 ∨ isTable k = true ∧ k + Config.tableSize ≤ a ∧ a < k + Config.tableSize + 64

/-- The region's dirty lines in the cores `cs` have been written to memory, each whose words pass their parity check (R192)
with its 64 bytes, and no other byte has changed. -/
structure WroteOut (s t : State) (cs : Nat → Prop) (r : Region) (pasid : BitVec 20) : Prop where
  rest : ∀ a, (∀ c x, cs c → x ∈ s.linesOf c r pasid → x.2.dirty = true → ¬ spans x.1 a) → t.byte a = s.byte a
  bytes : ∀ c x j, cs c → x ∈ s.linesOf c r pasid → x.2.dirty = true → x.2.failing allWords = none → j < 64 →
    (∀ d y, cs d → y ∈ s.linesOf d r pasid → y.2.dirty = true → y ≠ x → ¬ spans y.1 (x.1 + j)) →
    t.byte (x.1 + j) = blockByte x.2.data j

end Sys2Proof.Claims

/-- R205: FLUSHR by the holder of the full token completes: it writes the region's dirty lines of the core's L0, none of which
has a parity failure, to memory, and no other byte; they stay valid, with their data and descriptor, and are clean; no other
line of any L0 changes, and the strand only retires. -/
def Sys2Proof.Claims.FlushCompletes : Prop :=
  ∀ (s : State) (st : Strand) (a : BitVec 5) (g : BitVec 3) (r : Region) (k : Token), Outside s st → st.p g = true →
    Sound st [a] → Undeferred st [a] → decodeRegion (st.xv a) = some r → s.token r (s.pasidOf st.scope) = some k →
    k.state ≠ .reclaiming → k.holdsFull st.parties = true →
    let ls := s.linesOf st.pcore r (s.pasidOf st.scope)
    (∀ x ∈ ls, x.2.dirty = true → x.2.failing allWords = none) →
    ∃ t, exec (.flushr a g) s = .next t ∧ WroteOut s t (· = st.pcore) r (s.pasidOf st.scope)
      ∧ (∀ x ∈ ls, (s.core st.pcore).lines.find x.1 = some x.2 → (∀ y ∈ ls, y.1 = x.1 → y = x) →
        ∃ l, (t.core st.pcore).lines.find x.1 = some l ∧ l.dirty = false ∧ l.data = x.2.data ∧ l.desc = x.2.desc)
      ∧ (∀ key, (∀ x ∈ ls, x.1 ≠ key) → (t.core st.pcore).lines.find key = (s.core st.pcore).lines.find key)
      ∧ (∀ c, c ≠ st.pcore → t.core c = s.core c) ∧ t.tokens = s.tokens
      ∧ t.strands = (s.setStrand (after s st (st.pc + 4) clsMem)).strands

/-- R205: without the full token FLUSHR raises TOKEN_ABSENT 2 with the region word. -/
def Sys2Proof.Claims.FlushTraps : Prop :=
  ∀ (s : State) (st : Strand) (a : BitVec 5) (g : BitVec 3) (r : Region) (k : Token), Outside s st → st.p g = true →
    Sound st [a] → Undeferred st [a] → decodeRegion (st.xv a) = some r → s.token r (s.pasidOf st.scope) = some k →
    k.state ≠ .reclaiming → k.holdsFull st.parties = false →
    exec (.flushr a g) s = .next (s.takeTrap s.cur { code := .tokenAbsent, sub := 2, aux := some (st.xv a) } (st.pc.setWidth 64))

/-- R208, R209, R403: TLEND, TRET, TGIVE and TSHARE that their rules allow retire at once; the giver has lost its rights, its
core's dirty lines of the region are written back, the grant leaves for the region's home and is outstanding until it is
performed. -/
def Obligations.TokenTransfers : Prop :=
  ∀ (s : State) (st : Strand) (a b : BitVec 5) (g : BitVec 3) (r : Region) (k : Token), Outside s st → st.p g = true →
    Sound st [a, b] → Undeferred st [a, b] → decodeRegion (st.xv a) = some r → s.token r (s.pasidOf st.scope) = some k →
    k.state ≠ .reclaiming → k.state ≠ .poisoned →
    let me := strandParty st.handle
    let sends (i : Instr) (kind : GrantKind) (giver receiver : Party) (k' : Token) : Prop :=
      ∃ t, exec i s = .next t ∧ Retires s t st 4 st.stack ∧ t.token r (s.pasidOf st.scope) = some k' ∧ s.fresh ∈ t.outst
        ∧ ∃ x : Grant, Leaves s t st.scope .tokenGrant (.grant x) ∧ x.kind = kind ∧ x.number = s.fresh ∧ x.region = st.xv a
          ∧ x.pasid = s.pasidOf st.scope ∧ x.giver = giver ∧ x.receiver = receiver
        ∧ WroteOut s t (s.partyCore giver = some ·) r (s.pasidOf st.scope)
    (∀ p, s.receiverOf st (st.xv a) (st.xv b) true = .ok p → k.borrowers.length < 4 →
      (k.owner = me ∧ k.giving = false ∧ k.settled me = true ∧ k.state = .held ∧ k.sharing = 0)
        ∨ (k.state = .lent ∧ k.borrowers.getLast? = some me ∧ k.settled me = true) →
      sends (.tlend a b g) .lend me p { k with leaving := me :: k.leaving })
    ∧ (k.state = .lent → k.borrowers.getLast? = some me → k.settled me = true →
      sends (.tret a g) .ret me me { k with leaving := me :: k.leaving })
    ∧ (st.act = none → k.state = .shared → k.netShares me ≠ 0 →
      sends (.tret a g) .shareRet me me { k with leaving := me :: k.leaving })
    ∧ (k.owner = me → k.giving = false → k.settled me = true → (k.state = .held ∧ k.sharing = 0) ∨ k.state = .sealed_ →
      (st.xv b = 0 → sends (.tgive a b g) .park me (scopeParty st.scope) { k with giving := true })
      ∧ (∀ p, st.xv b ≠ 0 → s.receiverOf st (st.xv a) (st.xv b) false = .ok p →
        sends (.tgive a b g) .give me p { k with giving := true }))
    ∧ (∀ p, k.owner = me → k.giving = false → k.settled me = true → k.state = .held ∨ k.state = .shared →
      k.shares.length + k.sharing < 65535 → s.receiverOf st (st.xv a) (st.xv b) false = .ok p →
      sends (.tshare a b g) .share me p { k with sharing := k.sharing + 1 })

/-- R209 to R211: the token instructions that ask the home first send their request and wait for its answer; with the answer
they complete: TSPLIT, TCLAIM and TQRY write the value it brings, TJOIN, TSEAL, TUNSEAL and TCLR write nothing. A refusal of
the home is the trap it names. TCLR outside `sys` raises PRIV. -/
def Sys2Proof.Claims.TokenRequests : Prop :=
  ∀ (s : State) (st : Strand) (d a b : BitVec 5) (g : BitVec 3) (r : Region), Outside s st → st.p g = true →
    Sound st [a, b] → Undeferred st [a, b] → d.toNat < st.s → decodeRegion (st.xv a) = some r →
    let writes (i : Instr) : Prop := ∀ v, st.answer = some (.value v) →
      exec i s = .next (s.setStrand (after s (st.setX d.toNat v false) (st.pc + 4) clsMem))
    let ends (i : Instr) : Prop := ∀ v, st.answer = some (.value v) →
      exec i s = .next (s.setStrand (after s st (st.pc + 4) clsMem))
    let asks (i ev : Instr) (op : BitVec 6) (arg : Word) : Prop := st.answer = none →
      (∀ k, s.token r (s.pasidOf st.scope) = some k → k.state ≠ .reclaiming) →
      ∃ t q, exec i s = .next t ∧ (t.strand s.cur).map (fun x => (x.wait, x.pc)) = some (.reply s.fresh, st.pc)
        ∧ Leaves s t st.scope ev (.tokReq s.fresh q) ∧ q.op = op ∧ q.region = st.xv a ∧ q.arg = arg ∧ q.handle = st.handle
    let traps (i : Instr) : Prop := ∀ f, st.answer = some (.trap f) → exec i s = .next (s.takeTrap s.cur f (st.pc.setWidth 64))
    (writes (.tsplit d a b g) ∧ asks (.tsplit d a b g) .tokenRequest 3 (st.xv b) ∧ traps (.tsplit d a b g))
    ∧ (writes (.tclaim d a g) ∧ asks (.tclaim d a g) .tokenRequest 11 0 ∧ traps (.tclaim d a g))
    ∧ (writes (.tqry d a g) ∧ asks (.tqry d a g) .tokenQuery 6 0 ∧ traps (.tqry d a g))
    ∧ (ends (.tjoin a g) ∧ asks (.tjoin a g) .tokenRequest 5 0 ∧ traps (.tjoin a g))
    ∧ (ends (.tunseal a g) ∧ asks (.tunseal a g) .tokenRequest 9 0 ∧ traps (.tunseal a g))
    ∧ (asks (.tseal a g) .tokenRequest 8 0 ∧ ∀ v, st.answer = some (.value v) →
        exec (.tseal a g) s =
          .next ((s.flushRegion st.pcore r (s.pasidOf st.scope)).setStrand (after s st (st.pc + 4) clsMem)))
    ∧ (if s.isSys st.scope = true then ends (.tclr a g) ∧ asks (.tclr a g) .tokenRequest 10 0 ∧ traps (.tclr a g)
       else exec (.tclr a g) s = .next (s.takeTrap s.cur { code := .priv } (st.pc.setWidth 64)))

/-- R209, R210: TWAIT outside the recorded modes writes 1 where the issuer has a right to the region, 0 when its time has run
out first, and waits until then; a time in a QUANTA scope raises DETERMINISM. -/
def Sys2Proof.Claims.TokenWaits : Prop :=
  ∀ (s : State) (st : Strand) (d a b : BitVec 5) (g : BitVec 3), Outside s st → st.p g = true →
    Sound st [a, b] → Undeferred st [a, b] →
    let gives (v : Word) : Prop :=
      exec (.twait d a b g) s = .next (s.setStrand (after s (st.setX d.toNat v false) (st.pc + 4) clsMem))
    (st.xv b ≠ 0 → s.isQuanta st.scope = true →
      exec (.twait d a b g) s = .next (s.takeTrap s.cur { code := .determinism } (st.pc.setWidth 64)))
    ∧ (∀ (r : Region) (k : Token), d.toNat < st.s → decodeRegion (st.xv a) = some r → s.token r (s.pasidOf st.scope) = some k →
      k.state ≠ .reclaiming → k.state ≠ .poisoned → s.dmode st.scope = 0 ∨ s.dmode st.scope = 3 ∧ st.xv b = 0 →
      (s.hasRight st (st.xv a) = true → gives 1)
      ∧ (s.hasRight st (st.xv a) = false → st.answer = some .timeout → gives 0)
      ∧ (s.hasRight st (st.xv a) = false → st.answer = none → ∃ t, exec (.twait d a b g) s = .next t
        ∧ (t.strand s.cur).map (fun x => (x.wait, x.pc)) = some (.token (st.xv a) s.fresh, st.pc)
        ∧ (st.xv b ≠ 0 → ∃ e ∈ t.agenda, e.ev = .twaitTimeout ∧ e.due = s.cycle + (st.xv b).toNat
            ∧ e.arg = .strand st.sk st.handle s.fresh)))

/-- R207, R209 to R211: what the home does with a request outside the recorded modes. TSEAL seals a HELD token of its owner,
with every dirty line of the region written back, where its words pass their parity check, and no line of it left in any L0;
TUNSEAL makes a SEALED one HELD, with no line left in any L0 either; TCLR makes a POISONED one HELD by the issuer, TCLAIM gives a FREE one to
the issuer, and the issuer's core keeps no line of it (what another holder has stored there is written back); TSPLIT splits
a HELD one in 2^j equal sherds in address order, HELD by the same owner; TJOIN makes HELD a SPLIT one whose sherds are all HELD
by the issuer, and removes them. The answer goes to the issuer. TQRY changes nothing. -/
def Obligations.TokenHome : Prop :=
  ∀ (s : State) (n : Nat) (q : TokReq) (r : Region) (k : Token), s.arg = .tokReq n q → s.dmode q.scope = 0 ∨ s.dmode q.scope = 3 →
    decodeRegion q.region = some r → s.token r q.pasid = some k → k.state ≠ .reclaiming →
    let me := strandParty q.handle
    let becomes (k' : Token) (v : Word) (t : State) : Prop := exec .tokenRequest s = .next t
      ∧ t.token r q.pasid = some k' ∧ Leaves s t q.scope .acknowledgement (.answer q.sk q.handle n (.value v)) ∧ t.strands = s.strands
    let issuers (c : Nat) : Prop := s.partyCore me = some c
    (q.op = 8 → k.state = .held → k.owner = me → k.giving = false → k.sharing = 0 →
      ∃ t, becomes { k with state := .sealed_ } 0 t ∧ WroteOut s t (fun _ => True) r q.pasid ∧ ∀ c, t.linesOf c r q.pasid = [])
    ∧ (q.op = 9 → k.state = .sealed_ → k.owner = me → k.giving = false →
      ∃ t, becomes { k with state := .held } 0 t ∧ t.mem = s.mem ∧ ∀ c, t.linesOf c r q.pasid = [])
    ∧ (q.op = 10 → k.state = .poisoned → ∃ t, becomes { k with state := .held, owner := me, lost := false } 0 t
      ∧ WroteOut s t issuers r q.pasid ∧ ∀ c, issuers c → t.linesOf c r q.pasid = [])
    ∧ (q.op = 11 → k.state = .free → ∃ t, becomes { k with state := .held, owner := me } 1 t
      ∧ WroteOut s t issuers r q.pasid ∧ ∀ c, issuers c → t.linesOf c r q.pasid = [])
    ∧ (∀ j, q.op = 3 → q.arg = BitVec.ofNat 64 j → 1 ≤ j → j ≤ 6 → 12 + j ≤ r.k → k.state = .held → k.owner = me → k.giving = false →
      k.sharing = 0 → ∃ t, exec .tokenRequest s = .next t ∧ t.token r q.pasid = some { k with state := .split, splitlog := BitVec.ofNat 3 j }
        ∧ t.tokens.length = s.tokens.length + 2 ^ j ∧ t.mem = s.mem ∧ t.strands = s.strands
        ∧ ∀ i, i < 2 ^ j → ∃ x, t.tokens[s.tokens.length + i]? = some x ∧ x.state = .held ∧ x.owner = me ∧ x.pasid = k.pasid
          ∧ x.parent = k.region ∧ x.reg = { path := if r.vault then 3 else 0, base := r.base + i * 2 ^ (r.k - j), k := r.k - j })
    ∧ (q.op = 5 → k.state = .split → k.splitlog ≠ 0 →
      (∀ i, i < 2 ^ k.splitlog.toNat → ∃ u, s.token (r.sherd k.splitlog.toNat i) q.pasid = some u ∧ u.owner = me ∧ u.state = .held
        ∧ u.giving = false ∧ u.sharing = 0 ∧ u.settled me = true) →
      ∃ t, becomes { k with state := .held, splitlog := 0, owner := me } 0 t ∧ t.mem = s.mem
        ∧ ∀ i, i < 2 ^ k.splitlog.toNat → ∀ x ∈ t.tokens, x.isFor (r.sherd k.splitlog.toNat i) q.pasid = false)
    ∧ ∃ t, exec .tokenQuery s = .next t ∧ t.tokens = s.tokens ∧ t.mem = s.mem ∧ t.strands = s.strands

/-- R208: a lend that passes through its home makes the token LENT with its receiver last in the chain; the receiver takes
the rights when the grant arrives there, where its core keeps no line of the region (what another holder has stored in one
is written back). -/
def Obligations.GrantPath : Prop :=
  ∀ (s : State) (x : Grant) (r : Region) (k : Token), s.arg = .grant x → decodeRegion x.region = some r →
    s.token r x.pasid = some k → k.state ≠ .reclaiming → k.state ≠ .poisoned →
    (s.dmode x.scope = 0 ∨ s.dmode x.scope = 3 →
      (x.kind = .lend → ∃ t, exec .tokenGrant s = .next t ∧ t.token r x.pasid = some { k with
            state := .lent, borrowers := k.borrowers ++ [x.receiver], leaving := k.leaving.erase x.giver
            coming := x.receiver :: k.coming.erase x.giver }
          ∧ Leaves s t x.scope .tokenGrantArrival (.grant x))
      ∧ (x.kind = .give → ∃ t, exec .tokenGrant s = .next t ∧ t.token r x.pasid = some { k with
            owner := x.receiver, giving := false, leaving := k.leaving.erase x.giver
            coming := x.receiver :: k.coming.erase x.giver }
          ∧ Leaves s t x.scope .tokenGrantArrival (.grant x)))
    ∧ (s.partyLives x.receiver = true → ∃ t, exec .tokenGrantArrival s = .next t
      ∧ t.token r x.pasid = some { k with coming := k.coming.erase x.receiver } ∧ x.number ∉ t.outst
      ∧ WroteOut s t (s.partyCore x.receiver = some ·) r x.pasid
      ∧ ∀ c, s.partyCore x.receiver = some c → t.linesOf c r x.pasid = [])

/-! ### Vectors and the matrix unit -/

namespace Sys2Proof.Claims

/-- No vector register among them has an uncorrectable error. -/
abbrev VSound (st : Strand) (vs : List (BitVec 4)) : Prop := ∀ v ∈ vs, (st.v v).ue = false

/-- Value of lane `j` of a vector register under its descriptor (R61, R65). -/
def lane (st : Strand) (v : BitVec 4) (j : Nat) : Machine.Num := laneValue (st.v v).data (st.v v).desc j

/-- The flags of all of a list of results. -/
def allFlags (fs : List (BitVec 6)) : BitVec 6 := fs.foldl (· ||| ·) 0

/-- The lanewise instructions of R144: destination, sources, guard, and the exact value of a lane with the flags of
forming it. -/
def laneRes (st : Strand) : Instr → Option (BitVec 4 × List (BitVec 4) × BitVec 3 × (Nat → Machine.Num × BitVec 6))
  | .vadd d a b g => some (d, [a, b], g, fun j => Machine.Num.add (modeOf st.frm) (lane st a j) (lane st b j))
  | .vsub d a b g => some (d, [a, b], g, fun j => Machine.Num.add (modeOf st.frm) (lane st a j) (lane st b j).neg)
  | .vmul d a b g => some (d, [a, b], g, fun j => Machine.Num.mul (lane st a j) (lane st b j))
  | .vfma d a b g => some (d, [a, b, d], g, fun j => Machine.Num.fma (modeOf st.frm) (lane st a j) (lane st b j) (lane st d j))
  | .vmin d a b g => some (d, [a, b], g, fun j => (Machine.Num.pick false (lane st a j) (lane st b j), 0))
  | .vmax d a b g => some (d, [a, b], g, fun j => (Machine.Num.pick true (lane st a j) (lane st b j), 0))
  | .vabs d a g => some (d, [a], g, fun j => (if (lane st a j).sign then (lane st a j).neg else lane st a j, 0))
  | .vneg d a g => some (d, [a], g, fun j => ((lane st a j).neg, 0))
  | _ => none

/-- The vector instructions that move bits: destination, sources, register whose descriptor goes along, guard, block (R150). -/
def bitRes (st : Strand) : Instr → Option (BitVec 4 × List (BitVec 4) × BitVec 3 × (Nat → Byte))
  | .vand d a b g => some (d, [a, b], g, fun j => blockByte (st.v a).data j &&& blockByte (st.v b).data j)
  | .vor d a b g => some (d, [a, b], g, fun j => blockByte (st.v a).data j ||| blockByte (st.v b).data j)
  | .vxor d a b g => some (d, [a, b], g, fun j => blockByte (st.v a).data j ^^^ blockByte (st.v b).data j)
  | .vperm d a b g =>
    some (d, [a, b], g, fun j =>
      if 128 ≤ (blockByte (st.v b).data j).toNat then 0
      else blockByte (st.v a).data ((blockByte (st.v b).data j).toNat % 64))
  | .vsel d a b g =>
    some (d, [a, b, d], g, fun j =>
      (blockByte (st.v d).data j &&& blockByte (st.v a).data j) ||| (~~~(blockByte (st.v d).data j) &&& blockByte (st.v b).data j))
  | .vmov d a g => some (d, [a], g, fun j => blockByte (st.v a).data j)
  | _ => none

/-- The compares of R149: operands, relation, whether a NaN is invalid, guard; a destination register, or a predicate and
whether all lanes must hold. -/
def vcmpRes : Instr → Option ((BitVec 4 ⊕ BitVec 3 × Bool) × BitVec 4 × BitVec 4 × (Machine.Num → Machine.Num → Bool) × Bool × BitVec 3)
  | .vcmpeq d a b g => some (.inl d, a, b, Machine.Num.eqv, false, g)
  | .vcmplt d a b g => some (.inl d, a, b, Machine.Num.lt, true, g)
  | .vcmple d a b g => some (.inl d, a, b, fun x y => x.lt y || x.eqv y, true, g)
  | .vcmpeqPred l p a b g => some (.inr (p, l == 1), a, b, Machine.Num.eqv, false, g)
  | .vcmpltPred l p a b g => some (.inr (p, l == 1), a, b, Machine.Num.lt, true, g)
  | .vcmplePred l p a b g => some (.inr (p, l == 1), a, b, fun x y => x.lt y || x.eqv y, true, g)
  | _ => none

end Sys2Proof.Claims

/-- R49, R72, R142, R144: with sound sources in vector formats of as many lanes as sw.vfmt, each lanewise instruction writes
every lane's exact result, rounded once under sw.vfmt; the flags of all lanes go to sw.fflags. A strand without a vector set
gets one that reads zero first. -/
def Sys2Proof.Claims.VectorLanes : Prop :=
  ∀ (i : Instr) (s : State) (st : Strand) (d : BitVec 4) (srcs : List (BitVec 4)) (g : BitVec 3) (op : Nat → Machine.Num × BitVec 6),
    Outside s st → laneRes st.claimV i = some (d, srcs, g, op) → st.p g = true → VSound st.claimV srcs →
    vectorFormat st.vfmt = true → (∀ v ∈ srcs, vectorFormat (st.claimV.v v).desc = true ∧ lanes (st.claimV.v v).desc = lanes st.vfmt) →
    let m := modeOf st.frm
    let out (j : Nat) : Nat × BitVec 6 := laneRound st.vfmt m (op j).1
    ∃ b : Block,
      exec i s = .next (s.setStrand (after s { st.claimV.setV d { data := b, desc := st.vfmt } with
        fflags := st.fflags ||| allFlags ((List.range (lanes st.vfmt)).map fun j => (op j).2 ||| (out j).2) } (st.pc + 4) clsVec))
      ∧ ∀ j, j < lanes st.vfmt → laneOf' b st.vfmt j = (out j).1 % 2 ^ laneBits st.vfmt

/-- R142, R150: VAND, VOR, VXOR, VPERM, VSEL and VMOV write each byte as the table says, with the descriptor of v[a], in any
format. -/
def Sys2Proof.Claims.VectorBits : Prop :=
  ∀ (i : Instr) (s : State) (st : Strand) (d : BitVec 4) (srcs : List (BitVec 4)) (g : BitVec 3) (byte : Nat → Byte) (a : BitVec 4),
    Outside s st → bitRes st.claimV i = some (d, srcs, g, byte) → srcs.head? = some a → st.p g = true → VSound st.claimV srcs →
    ∃ b : Block,
      exec i s = .next (s.setStrand (after s (st.claimV.setV d { data := b, desc := (st.claimV.v a).desc }) (st.pc + 4) clsVec))
      ∧ ∀ j, j < 64 → blockByte b j = byte j

/-- R149: a vector compare makes a mask of ones and zeros with descriptor RAW, or a predicate from all lanes or from any; a
NaN makes its lane false, and VCMPLT and VCMPLE raise INVALID for it. -/
def Sys2Proof.Claims.VectorCompares : Prop :=
  ∀ (i : Instr) (s : State) (st : Strand) (dst : BitVec 4 ⊕ BitVec 3 × Bool) (a b : BitVec 4) (rel : Machine.Num → Machine.Num → Bool) (loud : Bool)
    (g : BitVec 3), Outside s st → vcmpRes i = some (dst, a, b, rel, loud, g) → st.p g = true →
    let c := st.claimV
    let da := (c.v a).desc
    VSound c [a, b] → vectorFormat da = true → vectorFormat (c.v b).desc = true → lanes (c.v b).desc = lanes da →
    let nan (j : Nat) : Prop := lane c a j = .nan ∨ lane c b j = .nan
    let holds (j : Nat) : Prop := ¬ nan j ∧ rel (lane c a j) (lane c b j) = true
    ∃ fl : BitVec 6, (loud = true ∧ (∃ j, j < lanes da ∧ nan j) → fl = 1) ∧ (¬ (loud = true ∧ ∃ j, j < lanes da ∧ nan j) → fl = 0)
      ∧ match dst with
        | .inl d => ∃ blk : Block,
          exec i s = .next (s.setStrand (after s { c.setV d { data := blk, desc := 0 } with fflags := st.fflags ||| fl } (st.pc + 4) clsVec))
          ∧ ∀ j, j < lanes da → (holds j → laneOf' blk da j = 2 ^ laneBits da - 1) ∧ (¬ holds j → laneOf' blk da j = 0)
        | .inr (p, all) => ∃ preds : BitVec 8, ∃ v : Bool,
          exec i s = .next (s.setStrand (after s { c with preds := preds, fflags := st.fflags ||| fl } (st.pc + 4) clsVec))
          ∧ (v = true ↔ if all = true then ∀ j, j < lanes da → holds j else ∃ j, j < lanes da ∧ holds j)
          ∧ ∀ k : BitVec 3, ({ st with preds := preds } : Strand).p k = if k = p ∧ k ≠ 0 then v else st.p k

/-- R145 to R148: VCVT converts lanes between formats, VSCL multiplies every value by 2^k through the scale alone, VSHL and
VSHR shift integer lanes (VSHR of a signed format rounds towards minus infinity), VREDS and VREDM leave the sum or the extreme
in lane 0 and zeros in the rest. -/
def Obligations.VectorShapes : Prop :=
  ∀ (s : State) (st : Strand) (d a : BitVec 4) (g : BitVec 3), Outside s st → st.p g = true →
    let c := st.claimV
    let v := c.v a
    let m := modeOf st.frm
    VSound c [a] →
    let writes (i : Instr) (b : Block) (ds : Desc) (fl : BitVec 6) : Prop :=
      exec i s = .next (s.setStrand (after s { c.setV d { data := b, desc := ds } with fflags := st.fflags ||| fl } (st.pc + 4) clsVec))
    (∀ part : BitVec 3, vectorFormat v.desc = true → vectorFormat st.vfmt = true →
      let ns := lanes v.desc
      let nd := lanes st.vfmt
      (ns < nd → (c.v d).ue = false) →
      part.toNat < Nat.max (nd / ns) (ns / nd) →
      ∃ (b : Block) (fl : BitVec 6), writes (.vcvt d a part g) b st.vfmt fl ∧ ∀ j, j < nd →
        (ns ≤ nd → part.toNat * ns ≤ j → j < part.toNat * ns + ns →
          laneOf' b st.vfmt j = (laneRound st.vfmt m (lane c a (j - part.toNat * ns))).1 % 2 ^ laneBits st.vfmt)
        ∧ (ns ≤ nd → j < part.toNat * ns ∨ part.toNat * ns + ns ≤ j → laneOf' b st.vfmt j = laneOf' (c.v d).data st.vfmt j)
        ∧ (nd < ns → laneOf' b st.vfmt j = (laneRound st.vfmt m (lane c a (part.toNat * nd + j))).1 % 2 ^ laneBits st.vfmt))
    ∧ (∀ k : BitVec 5, vectorFormat v.desc = true →
      (if descCode v.desc = 8 then -32 ≤ scaleOf v.desc + k.toInt ∧ scaleOf v.desc + k.toInt ≤ 31
       else -128 ≤ scaleOf v.desc + k.toInt ∧ scaleOf v.desc + k.toInt ≤ 127) →
      ∃ ds : Desc, writes (.vscl d a k g) v.data ds 0 ∧ descCode ds = descCode v.desc
        ∧ ∀ j, laneValue v.data ds j = (lane c a j).scale k.toInt)
    ∧ (∀ k : BitVec 5, shiftFormat v.desc = true → ∃ b b' : Block, writes (.vshl d a k g) b v.desc 0 ∧ writes (.vshr d a k g) b' v.desc 0
      ∧ ∀ j, j < lanes v.desc → let w := laneBits v.desc
        let x := laneOf' v.data v.desc j
        laneOf' b v.desc j = x * 2 ^ k.toNat % 2 ^ w
        ∧ (descCode v.desc = 7 → laneOf' b' v.desc j = x / 2 ^ k.toNat)
        ∧ (descCode v.desc ≠ 7 → (BitVec.ofNat w (laneOf' b' v.desc j)).toInt = (BitVec.ofNat w x).toInt / 2 ^ k.toNat))
    ∧ (vectorFormat v.desc = true → vectorFormat st.vfmt = true →
      let r := reduceSum m (blockValues v.data v.desc)
      let x := laneRound st.vfmt m r.1
      writes (.vreds d a g) (BitVec.ofNat 512 x.1) st.vfmt (r.2 ||| x.2)
      ∧ ∀ top : BitVec 1, let y := laneRound st.vfmt m (reducePick (top == 1) (blockValues v.data v.desc))
        writes (.vredm d a top g) (BitVec.ofNat 512 y.1) st.vfmt y.2)

/-- R59, R150 to R152, R170: VFMT and VDESC change a descriptor, VEXT and VINS move a doubleword, VBC, VIOTA and VRND fill
lanes from x[a], VDGST, DGST and RNDK use the digest and the generator. Each changes its one destination and, where it
rounds, sw.fflags. -/
def Obligations.VectorMoves : Prop :=
  ∀ (s : State) (st : Strand) (d a : BitVec 4) (xd xa n : BitVec 5) (g : BitVec 3), Outside s st → st.p g = true →
    VSound st.claimV [a, d] → Sound st [xa] → Undeferred st [xa] →
    let c := st.claimV
    let becomes (i : Instr) (new : Strand) : Prop := exec i s = .next (s.setStrand (after s new (st.pc + 4) clsVec))
    (descCode st.vfmt < 12 → becomes (.vfmt d a g) (c.setV d { data := (c.v a).data, desc := st.vfmt }))
    ∧ ((st.xv xa).toNat % 256 < 12 → becomes (.vdesc d xa g) (c.setV d { data := (c.v d).data, desc := (st.xv xa).setWidth 16 }))
    ∧ (xd.toNat < st.s → n.toNat < 8 → becomes (.vext xd a n g) (c.setX xd.toNat ((c.v a).data.extractLsb' (64 * n.toNat) 64) false))
    ∧ (xd.toNat < st.s → n.toNat = 8 → becomes (.vext xd a n g) (c.setX xd.toNat ((c.v a).desc.setWidth 64) false))
    ∧ (n.toNat < 8 → ∃ b : Block, becomes (.vins d xa n g) (c.setV d { data := b, desc := (c.v d).desc })
      ∧ ∀ j, j < 8 → b.extractLsb' (64 * j) 64 = if j = n.toNat then st.xv xa else (c.v d).data.extractLsb' (64 * j) 64)
    ∧ (vectorFormat st.vfmt = true →
      let fills (i : Instr) (out : Nat → Nat × BitVec 6) : Prop := ∃ b : Block,
        becomes i { c.setV d { data := b, desc := st.vfmt } with
          fflags := st.fflags ||| allFlags ((List.range (lanes st.vfmt)).map fun j => (out j).2) }
        ∧ ∀ j, j < lanes st.vfmt → laneOf' b st.vfmt j = (out j).1 % 2 ^ laneBits st.vfmt
      fills (.vbc d xa g) (fun _ => ((st.xv xa).toNat, 0))
      ∧ fills (.viota d xa g) (fun j => laneRound st.vfmt (modeOf st.frm) (.fin ((st.xv xa).toInt + j < 0) ((st.xv xa).toInt + j).natAbs 0))
      ∧ fills (.vrnd d xa g) (fun j =>
          let z := genK st.rkey0 st.rkey1 (st.xv xa + BitVec.ofNat 64 j)
          if descCode st.vfmt ≤ 5 then laneRound st.vfmt (modeOf st.frm) (.fin false (z.toNat / 2 ^ 40) (-24)) else (z.toNat, 0)))
    ∧ becomes (.vdgst a g) { c with
        digest := digestStep ((List.range 8).foldl (fun z j => digestStep z ((c.v a).data.extractLsb' (64 * j) 64)) st.digest)
          ((c.v a).desc.setWidth 64) }
    ∧ becomes (.dgst xa g) { st with digest := digestStep st.digest (st.xv xa) }
    ∧ (xd.toNat < st.s → becomes (.rndk xd xa g) (st.setX xd.toNat (genK st.rkey0 st.rkey1 (st.xv xa)) false))

namespace Sys2Proof.Claims

/-- Unit `j` of a strided access (R154): its address. -/
def unitAt (st : Strand) (b : BitVec 5) (disp : BitVec 11) (j : Nat) : Word :=
  BitVec.ofInt 64 ((st.xv b).toInt + 64 * disp.toInt + j * ((st.ox0.toNat % 2 ^ 48 : Nat) : Int).bmod (2 ^ 48))
/-- Bytes in a unit. -/
def unitBytes (st : Strand) : Nat := 2 ^ ((st.ox0.toNat / 2 ^ 48) % 4)

/-- The block that VST stores, its descriptor and flags (R153): the register, or its lanes rounded to sw.vfmt. -/
def storedBlock (st : Strand) (conv : BitVec 1) (x : BitVec 4) : Option (Block × Desc × BitVec 6) :=
  if conv = 0 then some ((st.v x).data, (st.v x).desc, 0)
  else if vectorFormat (st.v x).desc = true ∧ vectorFormat st.vfmt = true ∧ lanes (st.v x).desc = lanes st.vfmt then
    let r := roundBlock st.vfmt (modeOf st.frm) (blockValues (st.v x).data (st.v x).desc)
    some (r.1, st.vfmt, r.2)
  else none

end Sys2Proof.Claims

/-- R153, R154, R180: VLD takes 64 bytes, on the BLK path with the line's descriptor, else with its own as it was; VLDS
gathers units of 1 to 8 bytes at a signed stride and keeps the descriptor. Both change only the destination, and lines keep the addresses they were reached under. -/
def Obligations.VectorLoads : Prop :=
  ∀ (s : State) (st : Strand) (d : BitVec 4) (b : BitVec 5) (disp : BitVec 11), Outside s st → Sound st [b] → Undeferred st [b] → st.cut = none →
    let c := st.claimV
    let va := addr st b (64 * disp.toInt)
    let gives (s' : State) (i : Instr) (bs : List Byte) (ds : Desc) : Prop := ∃ blk : Block,
      exec i s = .next (s'.setStrand (after s (c.setV d { data := blk, desc := ds }) (st.pc + 4) clsVec))
      ∧ ∀ j, j < 64 → blockByte blk j = bs[j]?.getD 0
    (∀ p bs, s.place (s.who st) (.vec false) va = .ok p → Uncounted s st p → near s st va p.at_ 64 = some bs →
      (pathOf va ≠ 4 → gives (met s st p) (.vld d b disp) bs (c.v d).desc)
      ∧ (∀ key l, p.at_ = .lineOf key → (s.core st.pcore).lines.find (blockKey key) = some l → pathOf va = 4 →
        gives (met s st p) (.vld d b disp) bs l.desc))
    ∧ (∀ p key, s.place (s.who st) (.vec false) va = .ok p → Uncounted s st p → p.at_ = .vaultAt key → pathOf va ≠ 4 →
      (∀ k ∈ wordsOf key 64, parityOf (s.err k) = 0) → ∃ t new, exec (.vld d b disp) s = .next t ∧ SameMemory s t ∧ t.cores = s.cores
        ∧ t.strand s.cur = some new ∧ new.pc = st.pc + 4 ∧ new.stack = st.stack ∧ (∀ v, v ≠ d → new.v v = c.v v)
        ∧ (new.v d).desc = (c.v d).desc ∧ ∀ j, j < 64 → blockByte (new.v d).data j = s.byte (key + j))
    ∧ (∀ (ps : Nat → Place) (bs : Nat → List Byte),
      (∀ j, j < 64 / unitBytes st → s.place (s.who st) (.engine false (unitBytes st)) (unitAt st b disp j) = .ok (ps j)
        ∧ Uncounted s st (ps j) ∧ near s st (unitAt st b disp j) (ps j).at_ (unitBytes st) = some (bs j)) →
      gives ((List.range (64 / unitBytes st)).foldl (fun s j => met s st (ps j)) s) (.vlds d b disp) ((List.range (64 / unitBytes st)).flatMap bs) (c.v d).desc)

/-- R153 to R155, R191: VST writes a block with its descriptor, converted first where asked, to a vault or to a line of L0
made dirty; VSTS writes units at a stride to a vault, later units over earlier ones, and no other byte.
The keys under which the model keeps the memories are its own (log entry 42), and so is which line a full L0 gives up (log
entry 8). -/
def Obligations.VectorStores : Prop :=
  ∀ (s : State) (st : Strand) (x : BitVec 4) (b : BitVec 5) (disp : BitVec 11) (conv : BitVec 1), Outside s st →
    Sound st [b] → Undeferred st [b] → VSound st.claimV [x] → st.cut = none →
    let c := st.claimV
    let va := addr st b (64 * disp.toInt)
    (∀ p key blk ds fl, s.place (s.who st) (.vec true) va = .ok p → Uncounted s st p → storedBlock c conv x = some (blk, ds, fl) →
      (p.at_ = .vaultAt key → ∃ t, exec (.vst conv x b disp) s = .next t ∧ Retires s t c 4 st.stack
        ∧ (t.strand s.cur).map (·.fflags) = some (st.fflags ||| fl) ∧ t.desc key = ds ∧ t.cores = s.cores
        ∧ ∀ a, t.byte a = if key ≤ a ∧ a < key + 64 then blockByte blk (a - key) else s.byte a)
      ∧ (p.at_ = .lineOf key → (s.core st.pcore).lines.length < 1024 → ∃ t l, exec (.vst conv x b disp) s = .next t ∧ Retires s t c 4 st.stack
        ∧ (t.strand s.cur).map (·.fflags) = some (st.fflags ||| fl) ∧ SameMemory s t
        ∧ (t.core st.pcore).lines.find (blockKey key) = some l ∧ l.data = blk ∧ l.desc = ds ∧ l.dirty = true
        ∧ ∀ k, k ≠ blockKey key → (t.core st.pcore).lines.find k = (s.core st.pcore).lines.find k))
    ∧ (∀ (ps : Nat → Place) (keys : Nat → Nat),
      (∀ j, j < 64 / unitBytes st → s.place (s.who st) (.engine true (unitBytes st)) (unitAt st b disp j) = .ok (ps j)
        ∧ Uncounted s st (ps j) ∧ (ps j).at_ = .vaultAt (keys j)) →
      ¬ (unitAt st b disp 1 = va + BitVec.ofNat 64 (unitBytes st) ∧ va.toNat % 64 = 0) →
      ∃ t, exec (.vsts x b disp) s = .next t ∧ Retires s t c 4 st.stack ∧ t.cores = s.cores
        ∧ ∀ a, t.byte a = match (List.range (64 / unitBytes st)).reverse.find? fun j => keys j ≤ a && a < keys j + unitBytes st with
          | some j => blockByte (c.v x).data (unitBytes st * j + (a - keys j))
          | none => s.byte a)

namespace Sys2Proof.Claims

/-- The strand may name every tile of the group, none of which has an operation on it (R51, R159). -/
def Quiet (s : State) (st : Strand) (ts : List Nat) (claims : Bool) : Prop :=
  (∀ t ∈ ts, ((s.core st.pcore).tile t).holder = some st.sk ∨ claims = true ∧ ((s.core st.pcore).tile t).holder = none)
  ∧ ∀ o ∈ (s.core st.pcore).ops, o.meets ts = false

/-- The line of the core's L0 that holds the block at an address of matrix data, with its key. -/
def matrixLine (s : State) (st : Strand) (a : Access) (va : Word) : Option (Nat × L0Line) :=
  match s.place (s.who st) a va with
  | .ok p =>
    match p.at_ with
    | .lineOf key =>
      match (s.core st.pcore).lines.find (blockKey key) with
      | some l => if l.diff = 0 ∧ key % 64 = 0 ∧ (s.scope st.scope).migthr = 0 then some (key, l) else none
      | none => none
    | _ => none
  | .error _ => none

/-- Address of block `k` of row `m` of an operand (R157). -/
def blockAt (base : Word) (stride : BitVec 32) (m k : Nat) : Word := BitVec.ofInt 64 (base.toInt + m * stride.toInt + 64 * k)

/-- A base of the BLK path whose address and stride are multiples of 64 (R157). -/
abbrev MatrixBase (va : Word) (stride : BitVec 32) : Prop := va.toNat / 2 ^ 50 = 4 ∧ va.toNat % 64 = 0 ∧ stride.toNat % 64 = 0

end Sys2Proof.Claims

/-- R51, R156, R160: MZERO and MLD claim their group. MZERO makes every element zero; MLD, with every block of its rows in L0
under one lane width, makes element (m, n) the value of lane n of row m, rounded to A34. Other tiles and memory stay. -/
def Obligations.MatrixLoads : Prop :=
  ∀ (s : State) (st : Strand) (h : BitVec 2) (f g : BitVec 3) (a : BitVec 5), Outside s st → st.p g = true →
    Quiet s st (groupTiles h f) true →
    (∃ t, exec (.mzero h f g) s = .next t ∧ Retires s t st 4 st.stack ∧ SameMemory s t ∧ ∀ k, (t.core st.pcore).tile k =
      if k ∈ groupTiles h f then { holder := some st.sk } else (s.core st.pcore).tile k)
    ∧ (∀ (e : Nat) (line : Nat → Nat → Nat × L0Line), 0 < e → Sound st [a] → Undeferred st [a] → MatrixBase (st.xv a) (st.ox2.setWidth 32) →
      (∀ m k, m < shapeRows h → k < (shapeCols h + e - 1) / e →
        matrixLine s st (.matrix false) (blockAt (st.xv a) (st.ox2.setWidth 32) m k) = some (line m k)
        ∧ matrixFormat (line m k).2.desc = true ∧ lanes (line m k).2.desc = e) →
      ∃ t, exec (.mld h f a g) s = .next t ∧ Retires s t st 4 st.stack ∧ SameMemory s t
        ∧ (∀ m n, m < shapeRows h → n < shapeCols h → (t.core st.pcore).elem h f m n =
            (toA34 (laneValue (line m (n / e)).2.data (line m (n / e)).2.desc (n % e))).1)
        ∧ (∀ k, k ∈ groupTiles h f → ((t.core st.pcore).tile k).holder = some st.sk)
        ∧ ∀ k, k ∉ groupTiles h f → (t.core st.pcore).tile k = (s.core st.pcore).tile k)

/-- R158, R161: MMA on a group that the strand holds, no tile of which has two operations yet, completes: it starts its
operation and retires; nothing is read or written yet. With K = 0 and no operation on the group it only sets the counts that
MSTAT shows to 0. The total that MSTAT shows of an operation under way is the model's reading (log entry 13). -/
def Sys2Proof.Claims.MultiplyCompletes : Prop :=
  ∀ (s : State) (st : Strand) (h : BitVec 2) (f g : BitVec 3) (a b : BitVec 5), Outside s st → st.p g = true →
    Sound st [a, b] → Undeferred st [a, b] →
    (∀ k ∈ groupTiles h f, ((s.core st.pcore).tile k).holder = some st.sk ∧ ((s.core st.pcore).opsOn [k]).length < 2) →
    MatrixBase (st.xv a) (st.ox0.setWidth 32) → MatrixBase (st.xv b) (BitVec.ofNat 32 (st.ox0.toNat / 2 ^ 32)) →
    ∃ t, exec (.mma h f a b g) s = .next t ∧ Retires s t st 4 st.stack ∧ SameMemory s t
      ∧ (st.ox1.toNat % 2 ^ 16 = 0 ∧ (s.core st.pcore).opsOn (groupTiles h f) = [] →
        (t.core st.pcore).ops = (s.core st.pcore).ops ∧ ∀ k, (t.core st.pcore).tile k =
          if k ∈ groupTiles h f then { (s.core st.pcore).tile k with steps := 0, total := 0 } else (s.core st.pcore).tile k)
      ∧ (st.ox1.toNat % 2 ^ 16 ≠ 0 ∨ (s.core st.pcore).opsOn (groupTiles h f) ≠ [] →
        (∃ o, (t.core st.pcore).ops = (s.core st.pcore).ops ++ [o] ∧ o.sk = st.sk ∧ o.aBase = st.xv a ∧ o.bBase = st.xv b
          ∧ o.ox = st.ox0 ∧ o.k = st.ox1.toNat % 2 ^ 16 ∧ o.steps = 0 ∧ o.shape = h ∧ o.first = f ∧ o.state = .running
          ∧ o.number = s.fresh)
        ∧ (∀ k, (t.core st.pcore).tile k = (s.core st.pcore).tile k)
        ∧ ∃ e ∈ t.agenda, e.ev = .matrixStep ∧ e.arg = .n2 st.pcore s.fresh)

/-- R158, R161, R162: MATRIX_STEP of an operation that may take a step (it runs, no operation on its tiles comes before it, and
it has its pipes), and whose blocks are in L0, completes: the products of one K step are added to every element, rounded once,
and the step that completes K ends the operation, whose flags reach the strand then. One of K = 0 ends at once; one that may not
step yet tries again. The lane counts stand from the first step on. -/
def Sys2Proof.Claims.StepCompletes : Prop :=
  ∀ (s : State) (st : Strand) (o : TileOp), s.arg = .n2 st.pcore o.number →
    (s.core st.pcore).ops.find? (fun x => x.number = o.number) = some o → s.strand o.sk = some st → st.sk = o.sk →
    o.state = .running → o.paused = false →
    let others := (s.core st.pcore).ops.filter fun x => x.number != o.number
    ((s.core st.pcore).mayStep o = false → exec .matrixStep s = .next (s.after 1 .matrixStep s.arg))
    ∧ ((s.core st.pcore).mayStep o = true → o.k = 0 → ∃ t, exec .matrixStep s = .next t ∧ SameMemory s t ∧ (t.core st.pcore).ops = others)
    ∧ (∀ (la lb : Nat) (as bs : Nat → Nat × L0Line), (s.core st.pcore).mayStep o = true → o.k ≠ 0 →
      (∀ k ∈ o.tiles, ((s.core st.pcore).tile k).ue = false) → la ≠ 0 → lb ≠ 0 →
      let first (n l : Nat) (base : Word) : Prop := n = l ∨ n = 0 ∧ ∃ x, matrixLine s st (.matrix false) base = some x
        ∧ matrixFormat x.2.desc = true ∧ lanes x.2.desc = l
      first o.la la o.aBase → first o.lb lb o.bBase →
      let d := depthOf (Nat.min la lb)
      let k0 := o.steps * d
      (∀ m, m < shapeRows o.shape → matrixLine s st (.matrix false) (blockAt o.aBase (o.ox.setWidth 32) m (k0 / la)) = some (as m)
        ∧ matrixFormat (as m).2.desc = true ∧ lanes (as m).2.desc = la) →
      (∀ n, n < shapeCols o.shape → matrixLine s st (.matrix false) (blockAt o.bBase (BitVec.ofNat 32 (o.ox.toNat / 2 ^ 32)) n (k0 / lb)) = some (bs n)
        ∧ matrixFormat (bs n).2.desc = true ∧ lanes (bs n).2.desc = lb) →
      let count := Nat.min (k0 + d) o.k - k0
      let row (l : Nat × L0Line) (lns : Nat) : List Machine.Num := (List.range count).map fun j => laneValue l.2.data l.2.desc (k0 % lns + j)
      let new (m n : Nat) : A34 × BitVec 6 :=
        stepElem ((s.core st.pcore).elem o.shape o.first m n) (row (as m) la) (row (bs n) lb)
      let fl := o.flags ||| allFlags ((groupPlaces o.shape).map fun mn => (new mn.1 mn.2).2)
      ∃ t, exec .matrixStep s = .next t ∧ SameMemory s t
        ∧ (∀ m n, m < shapeRows o.shape → n < shapeCols o.shape → (t.core st.pcore).elem o.shape o.first m n = (new m n).1)
        ∧ (if stepCount o.k la lb ≤ o.steps + 1 then
            (t.core st.pcore).ops = others ∧ (t.strand o.sk).map (·.fflags) = some (st.fflags ||| fl)
           else (∃ o', (t.core st.pcore).ops.find? (fun x => x.number = o.number) = some o' ∧ o'.steps = o.steps + 1
              ∧ o'.flags = fl ∧ o'.la = la ∧ o'.lb = lb)
            ∧ ∃ e ∈ t.agenda, e.ev = .matrixStep ∧ e.arg = s.arg ∧ e.due = s.cycle + 1))

/-- R158, R161, R162: MMA starts a matrix operation, and MATRIX_STEP takes its steps; both complete under these conditions. -/
def Obligations.MatrixMultiply : Prop := Claims.MultiplyCompletes ∧ Claims.StepCompletes

/-- R163, R164: MST and MSNAP, with the blocks of their rows in distinct lines of L0, write every element of the group rounded
under sw.mfmt into its lane there; memory, and the group of MSNAP, stay. MST with e = 1 frees the tiles; MSNAP writes the steps
that its first tile shows. That the conversions of MSNAP set sw.fflags is the model's reading (log entry 49). -/
def Obligations.MatrixStores : Prop :=
  ∀ (s : State) (st : Strand) (h : BitVec 2) (f g : BitVec 3) (a b : BitVec 5) (free : BitVec 1) (line : Nat → Nat → Nat × L0Line),
    Outside s st → st.p g = true → Sound st [a] → Undeferred st [a] → Quiet s st (groupTiles h f) false →
    (∀ k ∈ groupTiles h f, ((s.core st.pcore).tile k).ue = false) → matrixFormat st.mfmt = true →
    MatrixBase (st.xv a) (st.ox2.setWidth 32) →
    let e := lanes st.mfmt
    let blocks := (shapeCols h + e - 1) / e
    (∀ m k, m < shapeRows h → k < blocks →
      matrixLine s st (if shapeCols h < (k + 1) * e then .part else .matrix true) (blockAt (st.xv a) (st.ox2.setWidth 32) m k) = some (line m k)) →
    (∀ m k m' k', m < shapeRows h → k < blocks → m' < shapeRows h → k' < blocks → (m, k) ≠ (m', k') → (line m k).1 ≠ (line m' k').1) →
    let out (m n : Nat) : Nat × BitVec 6 := laneRound st.mfmt (modeOf st.frm) (a34Num ((s.core st.pcore).elem h f m n))
    let writes (t : State) : Prop := SameMemory s t
      ∧ (∀ m n, m < shapeRows h → n < shapeCols h → ∃ l, (t.core st.pcore).lines.find (line m (n / e)).1 = some l ∧ l.dirty = true
          ∧ laneOf' l.data st.mfmt (n % e) = (out m n).1 % 2 ^ laneBits st.mfmt)
      ∧ ∀ k, (∀ m j, m < shapeRows h → j < blocks → (line m j).1 ≠ k) → (t.core st.pcore).lines.find k = (s.core st.pcore).lines.find k
    (∃ t, exec (.mst h f a free g) s = .next t ∧ Retires s t st 4 st.stack ∧ writes t ∧ ∀ k, (t.core st.pcore).tile k =
      if free = 1 ∧ k ∈ groupTiles h f then { (s.core st.pcore).tile k with holder := none } else (s.core st.pcore).tile k)
    ∧ (b.toNat < st.s → ∃ t, exec (.msnap h f a b g) s = .next t ∧ writes t ∧ (∀ k, (t.core st.pcore).tile k = (s.core st.pcore).tile k)
      ∧ Retires s t st 4 (st.setX b.toNat (BitVec.ofNat 64 ((s.core st.pcore).tile f.toNat).steps.toNat) false).stack)

/-- R159, R165, R166: on a group that the strand holds, MWAIT and its compact form retire when no operation is left, MSTAT
writes the status word (steps, total, cause, state), MCANC discards every operation of the group and MRES lets the suspended
one run again. A group that another strand holds raises ACC_HELD with the first such
tile. TOTAL before the first step and the shape bits of MSTAT are read as log entries 13 and 48 say. -/
def Obligations.MatrixControl : Prop :=
  ∀ (s : State) (st : Strand) (h : BitVec 2) (f g : BitVec 3) (b : BitVec 5), Outside s st → st.p g = true →
    let core := s.core st.pcore
    let mine := ∀ k ∈ groupTiles h f, (core.tile k).holder = some st.sk
    (Quiet s st (groupTiles h f) false → exec (.mwait h f g) s = .next (s.setStrand (after s st (st.pc + 4) clsMat))
      ∧ exec (.mwaitCompact h f) s = .next (s.setStrand (after s st (st.pc + 2) clsMat))
      ∧ (b.toNat < st.s → exec (.mstat h f b g) s = .next (s.setStrand (after s (st.setX b.toNat
          (BitVec.ofNat 64 (2 ^ 32 * (core.tile f.toNat).steps.toNat + 2 ^ 16 * (core.tile f.toNat).total.toNat)) false) (st.pc + 4) clsMat))))
    ∧ (mine → ∃ t, exec (.mcanc h f g) s = .next t ∧ SameMemory s t
      ∧ (t.core st.pcore).ops = core.ops.filter fun x => !((core.opsOn (groupTiles h f)).any fun y => x.number == y.number))
    ∧ (∀ o, mine → o ∈ core.ops → o.meets [f.toNat] = true → o.state = .suspended → (∀ x ∈ core.ops, x.meets [f.toNat] = true → x = o) →
      ∃ t, exec (.mres h f g) s = .next t ∧ Retires s t st 4 st.stack ∧ SameMemory s t
        ∧ (t.core st.pcore).ops = core.ops.map (fun x => if x.number = o.number then { o with state := .running, cause := 0, va := 0 } else x)
        ∧ ∃ e ∈ t.agenda, e.ev = .matrixStep ∧ e.arg = .n2 st.pcore o.number)
    ∧ (∀ l k m other, groupTiles h f = l ++ k :: m → (∀ x ∈ l, (core.tile x).holder = some st.sk) → (core.tile k).holder = some other →
      other ≠ st.sk → exec (.mwait h f g) s =
        .next (s.takeTrap s.cur { code := .accHeld, aux := some (BitVec.ofNat 64 k) } (st.pc.setWidth 64)))

/-! ### Queue registers, messages, engines and nodes -/

namespace Sys2Proof.Claims

/-- The scope of the strand neither logs nor forces what timing decides (R386). -/
abbrev Unrecorded (s : State) (scope : ScopeId) : Prop := s.dmode scope = 0 ∨ s.dmode scope = 3

/-- The instruction waits at its own address. -/
def WaitsFor (s t : State) (st : Strand) (w : Wait) : Prop := (t.strand s.cur).map (fun x => (x.wait, x.pc)) = some (w, st.pc)

/-- Length and guard of QRD and QWR in their two forms. -/
def qrdForm (d : BitVec 5) (q g : BitVec 3) (i : Instr) (len : Nat) : Prop :=
  (i = .qrd d q g ∧ len = 4) ∨ (i = .qrdCompact q d ∧ g = 0 ∧ len = 2)
def qwrForm (a : BitVec 5) (q g : BitVec 3) (i : Instr) (len : Nat) : Prop :=
  (i = .qwr a q g ∧ len = 4) ∨ (i = .qwrCompact q a ∧ g = 0 ∧ len = 2)

end Sys2Proof.Claims

/-- R236 to R238, R269 to R271: QBIND of an unbound register to an endpoint that is well formed, free and alive binds it; a
pair's joins the FIFO that its partner has made and that waits for it, else makes one. Send bindings and pairs are numbered, for
credits, refusals and words to find them by; QUNB unbinds a neighbour register; what is malformed, taken or unbound raises
QUEUE_UNBOUND with its subcode and word. -/
def Obligations.QueueBinding : Prop :=
  ∀ (s : State) (st : Strand) (q g : BitVec 3) (a b : BitVec 5), Outside s st → st.p g = true → Sound st [a, b] →
    Undeferred st [a, b] → st.q q.toNat = none →
    let traps (i : Instr) (sub : BitVec 8) (aux : Word) : Prop :=
      exec i s = .next (s.takeTrap s.cur { code := .queueUnbound, sub := sub, aux := some aux } (st.pc.setWidth 64))
    (∀ w, endpointOf (st.xv a) (st.xv b) = .error w → traps (.qbind q a b g) 5 w)
    ∧ (∀ e, endpointOf (st.xv a) (st.xv b) = .ok e → e.kind ≠ 4 → e.kind ≠ 5 →
      (s.endpointTaken st e = true → traps (.qbind q a b g) 4 (q.setWidth 64))
      ∧ (s.endpointTaken st e = false → (e.kind = 0 →
            if e.pdev = 0 then s.isRetired (s.handleCore e.partner) = false else s.peerUp e.pdev = true) →
        exec (.qbind q a b g) s = .next (
          if e.kind = 0 then { s with fresh := s.fresh + 1 }.setStrand (after s (st.setQ q.toNat { e with num := s.fresh + 1 }) (st.pc + 4) clsComm)
          else s.setStrand (after s (st.setQ q.toNat e) (st.pc + 4) clsComm))))
    ∧ (∀ e, endpointOf (st.xv a) (st.xv b) = .ok e → e.kind = 4 ∨ e.kind = 5 → e.partner ≠ st.handle →
      handleSk e.partner / 16 = st.pcore → (s.named e.partner).isSome = true →
      let ends : Handle × Handle := if e.kind = 4 then (st.handle, e.partner) else (e.partner, st.handle)
      let out := e.kind == 4
      ∃ t n, exec (.qbind q a b g) s = .next t ∧ Retires s t st 4 st.stack ∧ SameMemory s t
        ∧ ((t.strand s.cur).bind (·.q q.toNat)) = some { e with num := n }
        ∧ match s.pairs.find? fun p => p.awaits ends.1 ends.2 out with
          | some p => n = p.num ∧ t.pair n = some (if out = true then { p with outB := true } else { p with inB := true })
          | none => n = s.fresh + 1 ∧ t.pair n = some { num := n, outH := ends.1, inH := ends.2, outB := out, inB := !out })
    ∧ traps (.qunb q g) 1 (q.setWidth 64)
    ∧ (∀ (q' : BitVec 3) (e : Binding), st.q q'.toNat = some e → e.kind = 2 ∨ e.kind = 3 →
      exec (.qunb q' g) s = .next (s.setStrand (after s (st.dropQ q'.toNat) (st.pc + 4) clsComm)))

/-- R237, R239, R241, R272: QRD takes the oldest word that can be read from its register into x[d] and frees its entry;
without one it waits (outside a cancelled scope); an unbound register raises QUEUE_UNBOUND 1, a write register 3. -/
def Sys2Proof.Claims.QueueReads : Prop :=
  ∀ (s : State) (st : Strand) (d : BitVec 5) (q g : BitVec 3) (i : Instr) (len : Nat), Outside s st → st.p g = true →
    qrdForm d q g i len → d.toNat < st.s →
    let traps (sub : BitVec 8) : Prop :=
      exec i s = .next (s.takeTrap s.cur { code := .queueUnbound, sub := sub, aux := some (q.setWidth 64) } (st.pc.setWidth 64))
    (st.q q.toNat = none → traps 1)
    ∧ ∀ b, st.q q.toNat = some b → (b.isRead = false → traps 3)
      ∧ (b.isRead = true → ∀ w, s.readable st b = some w →
        ∃ t, exec i s = .next t ∧ Retires s t st len (st.setX d.toNat w false).stack ∧ SameMemory s t ∧ t.tokens = s.tokens
          ∧ (b.kind = 1 → ((t.strand s.cur).bind (·.q q.toNat)).map (·.words) = some (b.words.drop 1) ∧ t.lcores = s.lcores ∧ t.pairs = s.pairs)
          ∧ (b.kind = 3 → (t.lcore (s.logical st.pcore)).fifo b.side = ((s.lcore (s.logical st.pcore)).fifo b.side).drop 1 ∧ t.pairs = s.pairs)
          ∧ (b.kind = 5 → ∀ p, s.pair b.num = some p →
              t.pair b.num = some { p with words := p.words.drop 1 } ∧ t.lcores = s.lcores))
      ∧ (b.isRead = true → s.entries st b = [] → (s.brokenBy st b).1 = false → s.observes st = false →
        ∃ t, exec i s = .next t ∧ WaitsFor s t st (.queueIn q.toNat) ∧ SameMemory s t)

/-- R236, R239, R272: QWR appends x[a] to its register, or waits while eight words stand there. A neighbour's FIFO takes it
in two cycles, a pair's in one; a network register with credits sends it at once, without them it keeps the word. -/
def Sys2Proof.Claims.QueueWrites : Prop :=
  ∀ (s : State) (st : Strand) (a : BitVec 5) (q g : BitVec 3) (i : Instr) (len : Nat) (b : Binding), Outside s st → st.p g = true →
    qwrForm a q g i len → Sound st [a] → Undeferred st [a] → st.q q.toNat = some b →
    let w := st.xv a
    (b.isRead = true →
      exec i s = .next (s.takeTrap s.cur { code := .queueUnbound, sub := 3, aux := some (q.setWidth 64) } (st.pc.setWidth 64)))
    ∧ (b.isRead = false → (s.brokenBy st b).1 = false → s.writable st b = false →
      ∃ t, exec i s = .next t ∧ WaitsFor s t st (.queueOut q.toNat) ∧ SameMemory s t)
    ∧ (b.isRead = false → (s.brokenBy st b).1 = false → s.writable st b = true →
      ∃ t, exec i s = .next t ∧ Retires s t st len st.stack ∧ SameMemory s t
        ∧ (b.kind = 2 → s.isQuanta st.scope = false →
            (t.lcore (neighbour (s.logical st.pcore) b.side)).fifo (!b.side)
              = (s.lcore (neighbour (s.logical st.pcore) b.side)).fifo (!b.side) ++ [(s.cycle + 2, w)])
        ∧ (b.kind = 4 → s.isQuanta st.scope = false → ∀ p, s.pair b.num = some p →
            t.pair b.num = some { p with words := p.words ++ [(s.cycle + 1, w)] })
        ∧ (b.kind = 0 → b.words = [] → b.credits ≠ 0 →
            Leaves s t st.scope .queueWord (.queueWord (s.bindCore b) b.chan st.handle b.num w)
            ∧ ((t.strand s.cur).bind (·.q q.toNat)).map (fun x => (x.words, x.credits)) = some ([], b.credits - 1))
        ∧ (b.kind = 0 → b.credits = 0 →
            ((t.strand s.cur).bind (·.q q.toNat)).map (fun x => (x.words, x.asked)) = some (b.words ++ [w], true)
            ∧ (b.asked = false → Leaves s t st.scope .creditRequest
                (.creditRequest (s.bindCore b) b.chan st.handle b.num (b.words.length + 1))))
        ∧ (b.kind = 2 → s.isQuanta st.scope = true → Leaves s t st.scope .queueWord
            (.fifo false (neighbour (s.logical st.pcore) b.side) (!b.side) st.handle w))
        ∧ (b.kind = 4 → s.isQuanta st.scope = true → Leaves s t st.scope .queueWord (.fifo true b.num false st.handle w)))

/-- R273, R274: outside the recorded modes QPOLL writes whether a read would find a word, or a write room; QSTAT writes the
register's status word, 0 for an unbound one. Neither changes the register. -/
def Sys2Proof.Claims.QueueStatus : Prop :=
  ∀ (s : State) (st : Strand) (d : BitVec 5) (p q g : BitVec 3), Outside s st → st.p g = true → Unrecorded s st.scope →
    (∀ b, st.q q.toNat = some b → b.isRead = true ∨ (s.brokenBy st b).1 = false →
      exec (.qpoll p q g) s = .next (s.setStrand (after s
        (st.setP p (if b.isRead = true then (s.readable st b).isSome else decide (s.written st b < 8))) (st.pc + 4) clsComm)))
    ∧ (d.toNat < st.s →
      (st.q q.toNat = none → exec (.qstat d q g) s = .next (s.setStrand (after s (st.setX d.toNat 0 false) (st.pc + 4) clsComm)))
      ∧ ∀ b, st.q q.toNat = some b → exec (.qstat d q g) s = .next (s.setStrand (after s (st.setX d.toNat (BitVec.ofNat 64 (
          1 + 8 * b.side.toNat + 16 * b.kind.toNat + 128 * (s.brokenBy st b).1.toNat + 256 * b.chan.toNat
          + 2 ^ 16 * ((if b.isRead = true then (s.entries st b).length else s.written st b) % 256)
          + 2 ^ 32 * ((if b.kind = 0 then b.credits else if b.kind = 1 then b.requests.length else 0) % 256))) false) (st.pc + 4) clsComm)))

/-- R252, R275 to R277, R299: SEND and SENDR take a share of the strand's weight, send their message, and wait; SEND retires
when its message is accepted, SENDR when its reply is here: then x[d] holds status and count, the next four registers the
words. Core `l` of peer device `dev` is 512 dev + l in a message. -/
def Obligations.Messages : Prop :=
  ∀ (s : State) (st : Strand) (d a b : BitVec 5) (g n : BitVec 3), Outside s st → st.p g = true →
    (st.answer = some .done → exec (.send a b g n) s = .next (s.setStrand (after s st (st.pc + 4) clsComm)))
    ∧ (∀ status ws, st.answer = some (.words status ws) → d.toNat + 4 < st.s → d.toNat ≤ 27 →
      let r0 : Word := BitVec.ofNat 64 (256 * ws.length + status.toNat)
      let put (x : Strand) (k : Nat) : Strand := x.setX (d.toNat + 1 + k) (ws[k]?.getD 0) false
      exec (.sendr d a b g n) s =
        .next (s.setStrand (after s (put (put (put (put (st.setX d.toNat r0 false) 0) 1) 2) 3) (st.pc + 4) clsComm)))
    ∧ (∀ dst w st', st.answer = none → s.observes st = false → Sound st (a :: regsFrom b n.toNat) →
      Undeferred st (a :: regsFrom b n.toNat) → msgDest (st.xv a) = some dst →
      (dst.dev ≠ 0 → s.peerUp dst.dev = true) → st.split = some (w, st') →
      ∀ i reply, (i = .send a b g n ∧ reply = false) ∨ (i = .sendr d a b g n ∧ reply = true ∧ d.toNat + 4 < st.s) →
        ∃ t m, exec i s = .next t ∧ WaitsFor s t st (if reply then .point s.fresh else .reply s.fresh) ∧ SameMemory s t
          ∧ Leaves s t st.memberScope .message (.msg m) ∧ m.lcore = 512 * dst.dev.toNat + dst.lcore ∧ m.chan = dst.chan ∧ m.words = (regsFrom b n.toNat).map st.xv
          ∧ m.sender = st.handle ∧ m.wantReply = reply ∧ m.number = s.fresh ∧ m.scope = st.memberScope ∧ m.weight = BitVec.ofNat 32 w
          ∧ (t.strand s.cur).map (·.memberWeight) = some (st.memberWeight - w))

/-- R278, R281, R280: REPLY in an activation that still owes its reply sends its words to the sender, once; HMASK and HUNM
set and clear the masks of the strand's own channels; HSET writes a channel's entry, keeping its mailbox, or with depth 0
removes it, with its mailbox; a SCRATCH that names no token of the tenant is TOKEN_ABSENT. -/
def Obligations.Handlers : Prop :=
  ∀ (s : State) (st : Strand) (a b : BitVec 5) (g n : BitVec 3), Outside s st → st.p g = true →
    let l := s.logical st.pcore
    (∀ act h sk k, Sound st (regsFrom b n.toNat) → Undeferred st (regsFrom b n.toNat) → st.act = some act → act.reply = some (h, sk, k) →
      ∃ t r, exec (.reply b g n) s = .next t ∧ Retires s t st 4 st.stack ∧ SameMemory s t
        ∧ Leaves s t st.scope .replyArrival (.reply r) ∧ r.dest = h ∧ r.number = k ∧ r.status = 0
        ∧ r.words = (regsFrom b n.toNat).map st.xv ∧ (t.strand s.cur).map (·.act) = some (some { act with reply := none }))
    ∧ (Sound st (regsFrom b n.toNat) → Undeferred st (regsFrom b n.toNat) → (∀ act, st.act = some act → act.reply = none) →
      exec (.reply b g n) s = .next (s.takeTrap s.cur { code := .queueUnbound, sub := 6 } (st.pc.setWidth 64)))
    ∧ (Sound st [a, b] → Undeferred st [a, b] →
      let own (c : Nat) : Prop := c < 64 ∧ (st.xv a).getLsbD c = true ∧ (s.handler l c).depth ≠ 0 ∧
        (s.handler l c).tenant = (s.scope st.scope).tenant
      (∃ t, exec (.hmask a g) s = .next t ∧ Retires s t st 4 st.stack ∧ SameMemory s t
        ∧ ∀ c, (own c → t.handler l c = { s.handler l c with mask := true }) ∧ (¬ own c → t.handler l c = s.handler l c))
      ∧ (∃ t, exec (.hunm a g) s = .next t ∧ ∀ c, (own c → (t.handler l c).mask = false) ∧ (¬ own c → t.handler l c = s.handler l c))
      ∧ (s.hsetWord st (st.xv a) = true → st.xv b ≠ 0 → s.received l ((st.xv a).setWidth 6) = false →
        (s.handler l ((st.xv a).toNat % 64)).depth = 0 ∨ (s.handler l ((st.xv a).toNat % 64)).tenant = (s.scope st.scope).tenant → ∀ r, decodeRegion (st.xv b) = some r → s.token r (s.pasidOf st.scope) = none →
        exec (.hset a b g) s = .next (s.takeTrap s.cur { code := .tokenAbsent, sub := 1, aux := some (st.xv b) } (st.pc.setWidth 64)))
      ∧ (s.hsetWord st (st.xv a) = true →
        st.xv b = 0 ∨ (∃ r, decodeRegion (st.xv b) = some r ∧ (s.token r (s.pasidOf st.scope)).isSome = true) →
        let c : BitVec 6 := (st.xv a).setWidth 6
        let depth : BitVec 5 := (st.xv a).extractLsb' 16 5
        s.received l c = false → (s.handler l c.toNat).depth = 0 ∨ (s.handler l c.toNat).tenant = (s.scope st.scope).tenant →
        (depth = 0 → ∃ t, exec (.hset a b g) s = .next t ∧ ∃ back, t.handler l c.toNat = { active := (s.handler l c.toNat).active, back := back })
        ∧ (depth ≠ 0 → ∃ t, exec (.hset a b g) s = .next t ∧ Retires s t st 4 st.stack ∧ SameMemory s t
          ∧ t.handler l c.toNat = { s.handler l c.toNat with
              pc := (st.xv a).extractLsb' 32 16, prio := (st.xv a).extractLsb' 8 4, depth := depth
              tenant := (s.scope st.scope).tenant, scratch := st.xv b })))

/-- R279, R329: END, HRET and their compact forms end a strand that has no open scope and owns no token, once its accesses are
performed and no spill of its registers is in progress: the slot is free, its tiles too, its weight goes home and the core admits the next context. An open scope raises
SCOPE_STATE 8, an owned token TOKENS_HELD; HRET outside an activation is ILLEGAL. The next context starts in the lowest free
slot (log entry 9). -/
def Obligations.Endings : Prop :=
  ∀ (s : State) (st : Strand) (g : BitVec 3) (i : Instr), Outside s st → st.p g = true →
    i = .endStrand g ∨ i = .endCompact ∨ ((i = .hret g ∨ i = .hretCompact) ∧ st.act.isSome = true) →
    let traps (c : FaultName) (sub : BitVec 8) (aux : Word) : Prop :=
      exec i s = .next (s.takeTrap s.cur { code := c, sub := sub, aux := some aux } (st.pc.setWidth 64))
    (∀ r rest, st.opens = r :: rest → traps .scopeState 8 (r.scope.setWidth 64))
    ∧ (st.opens = [] → ∀ w, s.lowestOwned st.handle = some w → traps .tokensHeld 0 w)
    ∧ (st.opens = [] → s.lowestOwned st.handle = none → st.pend ≠ [] →
      ∃ t, exec i s = .next t ∧ WaitsFor s t st .drain)
    ∧ (st.opens = [] → s.lowestOwned st.handle = none → st.pend = [] → s.transferring st.sk = true →
      ∃ t, exec i s = .next t ∧ WaitsFor s t st .transfer)
    ∧ (st.opens = [] → s.lowestOwned st.handle = none → st.pend = [] → s.transferring st.sk = false →
      (∀ a, st.act = some a → (s.handler a.lcore a.chan.toNat).box = []) →
      ∃ t, exec i s = .next t ∧ t.strand s.cur = none
        ∧ (∀ k, ((t.core st.pcore).tile k).holder ≠ some st.sk)
        ∧ Leaves s t st.scope .weightReturn (.weight st.scope st.weight false true)
        ∧ ∃ e ∈ t.agenda, e.ev = .admission ∧ e.arg = .n1 st.pcore)
    ∧ (st.act = none → exec (.hret g) s = .next (s.takeTrap s.cur
        { code := .illegal, aux := some ((instrWord (.hret g)).setWidth 64) } (st.pc.setWidth 64)))

namespace Sys2Proof.Claims

/-- Opcode, scope field and address register of the engine instructions (R283). -/
def engineForm : Instr → Option (BitVec 3 × BitVec 3 × BitVec 5 × BitVec 3)
  | .cpy sc a g => some (0, sc, a, g)
  | .gath sc a g => some (1, sc, a, g)
  | .scat sc a g => some (2, sc, a, g)
  | .coll sc a g => some (3, sc, a, g)
  | _ => none

/-- The eight words of 64 bytes. -/
def wordsIn (bs : List Byte) : List Word := (List.range 8).map fun k => BitVec.ofNat 64 (number ((bs.drop (8 * k)).take 8))

/-- A cell in a sector of device memory without an error, which the key id of its region opens. -/
abbrev SoundCell (s : State) (key : Nat) (keyid : BitVec 12) : Prop :=
  key % 8 = 0 ∧ isHost (blockKey key) = false ∧ isTable (blockKey key) = false ∧ Clean s (blockKey key) ∧ Opens s (blockKey key) keyid

/-- The cell at an address, when the strand may read it, or write it, and nothing of its own on it is still under way. -/
def freeCell (s : State) (st : Strand) (write : Bool) (va : Word) (key : Nat) : Prop :=
  (∃ p, s.place (s.who st) (.cell write) va = .ok p ∧ p.at_ = .cellAt key ∧ SoundCell s key p.c0.keyid) ∧ ∀ x ∈ st.pend, x.key ≠ key

/-- The party may lend the token (R209, R210): its owner in HELD, or its last borrower. -/
abbrev mayLendNow (k : Token) (me : Party) : Prop :=
  k.borrowers.length < 4 ∧ ((k.owner = me ∧ k.giving = false ∧ k.settled me = true ∧ k.state = .held ∧ k.sharing = 0)
    ∨ (k.state = .lent ∧ k.borrowers.getLast? = some me ∧ k.settled me = true))

end Sys2Proof.Claims

/-- R283: CPY, GATH, SCAT and COLL send their command, with its block and a share of the strand's weight, to the engine that
the block names, after writing its completion word 0, and wait; they retire when an inbox has taken it. Each region of
the block is lent to the engine. What the
engine checks where the command arrives, and an engine of another partition: log entries 21 and 66. -/
def Obligations.EngineIssue : Prop :=
  ∀ (i : Instr) (s : State) (st : Strand) (op sc : BitVec 3) (a : BitVec 5) (g : BitVec 3), Outside s st → st.p g = true →
    engineForm i = some (op, sc, a, g) →
    (st.answer = some .done → exec i s = .next (s.setStrand (after s st (st.pc + 4) clsComm)))
    ∧ (∀ f, st.answer = some (.trap f) → exec i s = .next (s.takeTrap s.cur f (st.pc.setWidth 64)))
    ∧ (∀ p bs key w st', st.answer = none → Sound st [a] → Undeferred st [a] → st.cut = none →
      s.place (s.who st) (.vec false) (st.xv a) = .ok p → Uncounted s st p → near s st (st.xv a) p.at_ 64 = some bs →
      let blk := wordsIn bs
      s.samePart st.cluster (s.command st op sc blk).cluster = true →
      freeCell s st true (blk[3]?.getD 0) key → st.split = some (w, st') → s.isQuanta st.scope = false → s.isQuanta st.memberScope = false →
      (∀ x ∈ (s.command st op sc blk).regions, ∃ r k, decodeRegion x = some r ∧ s.token r (s.pasidOf st.scope) = some k
        ∧ mayLendNow k (strandParty st.handle)) →
      ∃ t c, exec i s = .next t ∧ WaitsFor s t st (.reply s.fresh)
        ∧ Leaves s t st.memberScope .engineCommand (.cmd c) ∧ c.op = op ∧ c.fscope = sc ∧ c.blk = blk ∧ c.number = s.fresh ∧ c.issuer = st.handle
        ∧ c.scope = st.memberScope ∧ c.weight = BitVec.ofNat 32 w ∧ c.eng = engineOf op blk st.cluster
        ∧ (∀ x ∈ c.regions, ∃ y : Grant, Leaves s t st.scope .tokenGrant (.grant y) ∧ y.kind = .lend ∧ y.region = x
            ∧ y.giver = strandParty st.handle ∧ y.receiver = engineParty c.eng s.fresh)
        ∧ (c.regions = [] → t.tokens = s.tokens ∧ ∀ k, t.byte k = if key ≤ k ∧ k < key + 8 then 0 else s.byte k))

/-- R260, R285, R286: an engine with room takes a command and answers its strand; a full inbox refuses it. A CPY's sector is
read from home memory and leaves for its destination; a unit of GATH leaves from the place in the table that its index names for the dense
array, one of SCAT the other way. ENGINE_DATA writes a sector or unit at its destination, no other byte, and counts it. -/
def Sys2Proof.Claims.EngineWork : Prop :=
  ∀ (s : State),
    let goesOn (c : EngCmd) : Prop :=
      c.shielded = true ∨ (if s.isQuanta c.scope = true then c.stopping = false else (s.scope c.scope).cancelled = false)
    let sound (k : Nat) (keyid : BitVec 12) : Prop := isHost (blockKey k) = true ∨ Clean s (blockKey k) ∧ Opens s (blockKey k) keyid
    let leaves (c : EngCmd) (dst : Word) (key : Nat) : Prop := ∃ t r, exec .engineSector s = .next t ∧ SameMemory s t
      ∧ (∃ x ∈ t.agenda, x.ev = .engineData ∧ x.arg = .memReq r) ∧ r.number = c.number ∧ r.by_ = .engine c.eng ∧ r.off = dst.toNat
      ∧ ∀ j, j < c.unit → blockByte r.data j = s.byte (key + j)
    (∀ c, s.arg = .cmd c → c.issued = true → 16 ≤ (s.engine c.eng).inbox.length →
      ∃ t, exec .engineCommand s = .next t ∧ t.engines = s.engines ∧ Leaves s t c.scope .refusal (.refused 1 (.cmd c)))
    ∧ (∀ c, s.arg = .cmd c → c.issued = true → (s.engine c.eng).inbox.length < 16 → c.node = none →
      ∃ t, exec .engineCommand s = .next t ∧ (t.engine c.eng).inbox.length = (s.engine c.eng).inbox.length + 1
        ∧ Leaves s t c.scope .acknowledgement (.answer c.sk c.issuer c.number .done) ∧ SameMemory s t)
    ∧ (∀ e c p key, s.arg = .n1 e → s.turnOf e = some c → c.op = 0 → (c.w 6).extractLsb' 16 16 = 0 → goesOn c →
      let off := BitVec.ofNat 64 (64 * c.unitsDone)
      s.place (s.engineWho c (c.w 0 + off)) (.engine false 64) (c.w 0 + off) = .ok p → p.at_ = .lineOf key → key % 64 = 0 →
      sound key p.c0.keyid → leaves c (c.w 1 + off) key)
    ∧ (∀ e c p0 k0 p key, s.arg = .n1 e → s.turnOf e = some c → c.op = 1 ∨ c.op = 2 → goesOn c → c.unit ≤ 64 →
      let ix := c.w 1 + BitVec.ofNat 64 (4 * c.unitsDone)
      s.place (s.engineWho c ix) (.engine false 4) ix = .ok p0 → p0.at_ = .lineOf k0 → k0 % 4 = 0 → sound k0 p0.c0.keyid →
      let named := c.w 0 + BitVec.ofNat 64 (c.unit * number ((List.range 4).map fun i => s.byte (k0 + i)))
      let dense := c.w 2 + BitVec.ofNat 64 (c.unit * c.unitsDone)
      let src := if c.op = 1 then named else dense
      let dst := if c.op = 1 then dense else named
      s.place (s.engineWho c src) (.engine false c.unit) src = .ok p → p.at_ = .lineOf key → key % c.unit = 0 →
      sound key p.c0.keyid → leaves c dst key)
    ∧ (∀ r e c p key, s.arg = .memReq r → r.by_ = .engine e → s.cmd e r.number = some c → c.eng = e → c.inFlight = true → c.code = none →
      c.op.toNat ≤ 2 → c.unit ≤ 64 →
      s.place (s.engineWho c (BitVec.ofNat 64 r.off)) (.engine true c.unit) (BitVec.ofNat 64 r.off) = .ok p → p.at_ = .lineOf key →
      key % c.unit = 0 → c.unit = 64 ∨ sound key p.c0.keyid → ∃ t, exec .engineData s = .next t
        ∧ ((t.cmd e r.number).map fun x => (x.unitsDone, x.inFlight)) = some (c.unitsDone + 1, false)
        ∧ ∀ k, t.byte k = if key ≤ k ∧ k < key + c.unit then blockByte r.data (k - key) else s.byte k)

/-- R284, R224, R386: a command that has its code and has returned its tokens writes its completion word (DONE, the code, the
bytes done) to its cell, outside the recorded modes, and leaves its inbox; its weight goes home. -/
def Sys2Proof.Claims.EngineEnd : Prop :=
  ∀ (s : State) (e n : Nat) (c : EngCmd) (code : BitVec 15) (p : Place) (key : Nat), s.arg = .n2 e n → s.cmd e n = some c →
    c.eng = e → c.number = n → c.code = some code → c.returned = true → Unrecorded s c.scope → ¬ (c.op = 3 ∧ code = 0 ∧ (c.w 6).getLsbD 6 = true) → c.node = none →
    s.place (s.engineWho c (c.w 3)) (.cell true) (c.w 3) = .ok p → p.at_ = .cellAt key → SoundCell s key p.c0.keyid →
    ∃ t, exec .engineCommandEnd s = .next t ∧ t.cmd e n = none
      ∧ Leaves s t c.scope .weightReturn (.weight c.scope c.weight.toNat false false)
      ∧ ∀ k, t.byte k = if key ≤ k ∧ k < key + 8 then
          byteOf (BitVec.ofNat 64 (2 ^ 63 + 2 ^ 48 * code.toNat + (c.unit * c.unitsDone) % 2 ^ 48)) (k - key) else s.byte k

/-- R288 to R290, R397: EWT takes a completion word that has DONE and else waits for it; in a QUANTA scope it asks the word's home and
takes the answer; ECHK issues a read of the word and retires;
NODE makes a waiting node in a free entry and returns its handle; EDEC sends its decrement, to a node of its partition. The lowest free entry is the
model's choice (log entry 9). -/
def Obligations.Graph : Prop :=
  ∀ (s : State) (st : Strand) (d a b : BitVec 5) (g : BitVec 3), Outside s st → st.p g = true → Sound st [a, b] → Undeferred st [a, b] →
    (∀ key, d.toNat < st.s → st.answer = none → s.observes st = false → s.isQuanta st.scope = false → freeCell s st false (st.xv a) key →
      if (s.word key).msb = true then
        ∃ t, exec (.ewt d a g) s = .next t ∧ Retires s t st 4 (st.setX d.toNat (s.word key) false).stack ∧ SameMemory s t
      else ∃ t, exec (.ewt d a g) s = .next t ∧ WaitsFor s t st (.word key) ∧ SameMemory s t)
    ∧ (∀ p key, st.answer = none → s.observes st = false → s.isQuanta st.scope = true → s.place (s.who st) (.cell false) (st.xv a) = .ok p →
      p.at_ = .cellAt key → ∃ t r, exec (.ewt d a g) s = .next t ∧ WaitsFor s t st (.word key false) ∧ SameMemory s t
        ∧ Leaves s t st.scope .syncCellOperation (.syncReq r) ∧ r.op = 13 ∧ r.key = key)
    ∧ (∀ v, d.toNat < st.s → st.answer = some (.value v) →
      exec (.ewt d a g) s = .next (s.setStrand (after s (st.setX d.toNat v false) (st.pc + 4) clsComm)))
    ∧ (∀ p, d.toNat < st.s → s.place (s.who st) (.cell false) (st.xv a) = .ok p → Uncounted s st p →
      ∃ t r, exec (.echk d a g) s = .next t ∧ Retires s t st 4 st.stack ∧ SameMemory s t
        ∧ Leaves s t st.scope .syncCellOperation (.syncReq r) ∧ r.key = p.at_.key ∧ r.dst = some (st.w + d.toNat)
        ∧ ∀ v w, cellAfter r.op v w st.ox0 = v)
    ∧ (∀ v, d.toNat < st.s → st.answer = some (.value v) →
      let st1 : Strand := if (st.xv b).toNat % 8 = 3 ∧ v ≠ BitVec.allOnes 64 then { st with collStep := st.collStep + 1 } else st
      exec (.node d a b g) s = .next (s.setStrand (after s (st1.setX d.toNat v false) (st.pc + 4) clsComm)))
    ∧ (∀ e w st' p bs key, d.toNat < st.s → st.answer = none → st.cut = none → nodeWordOk (st.xv b) = true → s.isQuanta st.scope = false →
      s.isQuanta st.memberScope = false → st.split = some (w, st') → w < 2 ^ 32 → s.freeNode st.cluster = some e →
      let op := (st.xv b).toNat % 8
      let blk := wordsIn bs
      (op = 4 ∨ (s.place (s.who st) (.vec false) (st.xv a) = .ok p ∧ Uncounted s st p ∧ near s st (st.xv a) p.at_ 64 = some bs)) →
      (op < 4 → s.samePart st.cluster (s.command st ((st.xv b).setWidth 3) 0 blk).cluster = true
        ∧ freeCell s st true (blk[3]?.getD 0) key ∧ ∀ x ∈ (s.command st ((st.xv b).setWidth 3) 0 blk).regions,
        ∃ r, decodeRegion x = some r ∧ (s.token r (s.pasidOf st.scope)).isSome = true) →
      (op = 5 → s.strandBlockFault st.memberScope blk = none) →
      (st.xv b).toNat / 2 ^ 8 % 2 ^ 8 ≠ 0 →
      let id := 256 * st.cluster + e
      let gen := nextNodeGen (s.node id).gen
      ∃ t, exec (.node d a b g) s = .next t
        ∧ Retires s t st 4 (st.setX d.toNat (BitVec.ofNat 64 (2 ^ 16 * gen.toNat + id % 2 ^ 16)) false).stack
        ∧ (t.node id).state = .waiting ∧ (t.node id).pred = (st.xv b).toNat / 2 ^ 8 % 2 ^ 8 ∧ (t.node id).gen = gen
        ∧ (t.node id).op.toNat = op ∧ (t.node id).weight = w ∧ (t.node id).blk = (if op = 4 then [] else blk)
        ∧ ∀ k, t.byte k = if op < 4 ∧ key ≤ k ∧ k < key + 8 then 0 else s.byte k)
    ∧ (∃ t, exec (.edec a g) s = .next t ∧ Retires s t st 4 st.stack ∧ SameMemory s t
      ∧ ((st.xv a).toNat / 2 ^ 32 = 0 → (st.xv a).toNat / 2 ^ 13 % 8 = 0 →
          s.samePart st.cluster (nodeCluster ((st.xv a).toNat % 2 ^ 13)) = true → Leaves s t st.scope .predecessorDecrement
          (.decrement ((st.xv a).toNat % 2 ^ 13) (some ((st.xv a).extractLsb' 16 16)) 1)))

/-! ### Strands, scopes, traps and the system -/

namespace Sys2Proof.Claims

/-- Every access of the strand has been performed: its operations and transfers, the first reads of its engine commands, and
the queue words and replies it has sent (R203, R204, R218, R282). -/
abbrev Performed (s : State) (st : Strand) : Prop :=
  st.pend = [] ∧ (∀ n ∈ st.moves, n ∉ s.outst) ∧ (∀ n ∈ st.cmds, s.unread n = false) ∧ s.sending st = false

/-- Length and guard of the instructions that have a compact form. -/
def yieldForm (g : BitVec 3) (i : Instr) (len : Nat) : Prop := (i = .yield g ∧ len = 4) ∨ (i = .yieldCompact ∧ g = 0 ∧ len = 2)
def barForm (a : BitVec 5) (g : BitVec 3) (i : Instr) (len : Nat) : Prop :=
  (i = .bar a g ∧ len = 4) ∨ (i = .barCompact a ∧ g = 0 ∧ len = 2)
def pauseForm (a : BitVec 5) (g : BitVec 3) (i : Instr) (len : Nat) : Prop :=
  (i = .pause a g ∧ len = 4) ∨ (i = .pauseCompact a ∧ g = 0 ∧ len = 2)
def nopForm (g : BitVec 3) (i : Instr) (len : Nat) : Prop := (i = .nop g ∧ len = 4) ∨ (i = .nopCompact ∧ g = 0 ∧ len = 2)
def cptForm (g : BitVec 3) (i : Instr) (len : Nat) : Prop := (i = .cpt g ∧ len = 4) ∨ (i = .cptCompact ∧ g = 0 ∧ len = 2)

/-- What a context takes from its strand: the first eight registers with their D bits, and the settings (R256). -/
structure Carries (c : Ctx) (st : Strand) : Prop where
  x : c.x = (List.range 8).map fun j => (st.x j).val
  d : ∀ j, j < 8 → c.dbits.getLsbD j = (st.x j).d
  vfmt : c.vfmt = st.vfmt
  mfmt : c.mfmt = st.mfmt
  frm : c.frm = st.frm
  rkey0 : c.rkey0 = st.rkey0
  rkey1 : c.rkey1 = st.rkey1
  origin : c.origin = st.handle

/-- The 64 bytes of an operand block, as words: the strand finds them near at hand. -/
def blockWords (s : State) (st : Strand) (va : Word) (blk : List Word) : Prop :=
  st.cut = none ∧ ∃ p bs, s.place (s.who st) (.vec false) va = .ok p ∧ Uncounted s st p ∧ near s st va p.at_ 64 = some bs
    ∧ blk = wordsIn bs

/-- The scope that a word names for a strand, 0 its own: one above it or one it has open, of this tenant (R336, R340). -/
def names (s : State) (st : Strand) (w : Word) (id : ScopeId) : Prop :=
  w.toNat < 2 ^ 24 ∧ id = (if w = 0 then st.scope else w.setWidth 24) ∧ (id ∈ s.ancestors st.scope ∨ ∃ r ∈ st.opens, r.scope = id)
    ∧ ((s.scope id).parent ≠ 0 ∨ s.isSys st.scope = true)

end Sys2Proof.Claims

/-- R257, R299, R300, R325 to R328: SPAWN sends a child with the first eight registers and a share of the weight to the Wheel or
the named core (x[d] = 1), or keeps it in the core's deque (x[d] = 0); MIGR to the own core does nothing, to another it sends
the strand's context and waits; STEAL asks another core and gives 1 or 0, or raises DEAD_PEER where the packet is refused; YIELD lets the other runnable strands of its
priority go first. That a child keeps the D bits of those registers is the model's reading (log entry 67); the channel that
a migrating activation leaves and what another partition answers are its choices (log entries 14, 66). -/
def Obligations.Strands : Prop :=
  ∀ (s : State) (st : Strand) (d a b : BitVec 5) (g : BitVec 3), Outside s st → st.p g = true →
    (∀ p w st', st.answer = none → s.observes st = false → Sound st (a :: b :: regsFrom 0 8) → Undeferred st [a, b] → d.toNat < st.s →
      (st.xv a).toNat % 2 = 0 → (st.xv a).toNat ≤ 0xFFFE → s.placementOf st.scope (st.xv b) = some p → st.split = some (w, st') →
      s.isQuanta st.memberScope = false →
      (s.scope st.memberScope).spawnlim = 0 ∨ (s.scope st.memberScope).live.toNat < (s.scope st.memberScope).spawnlim.toNat →
      (p = .deque → Performed s st ∧ (s.core st.pcore).deque.length < 32) →
      ∃ t c, exec (.spawn d a b g) s = .next t ∧ Carries c st ∧ c.pc = (st.xv a).setWidth 16 ∧ c.preds = st.preds &&& 0xFE
        ∧ c.weight = BitVec.ofNat 32 w ∧ c.scope = st.memberScope ∧ c.kind = 0 ∧ c.retired = 0 ∧ c.fflags = 0 ∧ SameMemory s t
        ∧ (t.strand s.cur).map (·.memberWeight) = some (st.memberWeight - w)
        ∧ (∀ sb, s.scb st.memberScope = some sb → sb.id = st.memberScope → (t.scope st.memberScope).live = sb.live + 1)
        ∧ (p = .deque → Retires s t st 4 (st.setX d.toNat 0 false).stack
            ∧ (t.core st.pcore).deque = (s.core st.pcore).deque ++ [c] ∧ ∃ e ∈ t.agenda, e.ev = .admission ∧ e.arg = .n1 st.pcore)
        ∧ (p ≠ .deque → Retires s t st 4 (st.setX d.toNat 1 false).stack
            ∧ ∃ l, Leaves s t st.memberScope .spawnPlacement (.ctx st.cluster l c) ∧ ∀ k, p = .named k ↔ l = some k))
    ∧ (∀ l, l < 512 → Sound st [a] → Undeferred st [a] → st.answer = none → (st.xv a).toNat = l →
      (l = s.logical st.pcore → exec (.migr a g) s = .next (s.setStrand (after s st (st.pc + 4) clsCtl)))
      ∧ (l ≠ s.logical st.pcore → Sound st (regsFrom 0 8) → s.migrationBar st l = none → s.isRetired l = false → Performed s st →
        ∃ t c, exec (.migr a g) s = .next t ∧ WaitsFor s t st (.migrating s.fresh false)
          ∧ Leaves s t st.scope .migration (.ctx s.fresh (some l) c) ∧ Carries c st ∧ c.pc = (st.pc + 4).setWidth 16 ∧ c.kind = 1
          ∧ c.preds = st.preds ∧ c.weight = BitVec.ofNat 32 st.weight ∧ c.scope = st.scope ∧ c.retired = st.retired + 1))
    ∧ (∀ v, st.answer = some (.value v) → d.toNat < st.s →
      exec (.steal d a g) s = .next (s.setStrand (after s (st.setX d.toNat v false) (st.pc + 4) clsCtl)))
    ∧ (∀ sub, st.answer = some (.refused sub) →
      exec (.steal d a g) s = .next (s.takeTrap s.cur { code := .deadPeer } (st.pc.setWidth 64)))
    ∧ (∀ l, l < 512 → Sound st [a] → Undeferred st [a] → st.answer = none → (st.xv a).toNat = l → s.isRetired l = false →
      s.samePart st.cluster (l / 16) = true → d.toNat < st.s →
      (l = s.logical st.pcore → exec (.steal d a g) s = .next (s.setStrand (after s (st.setX d.toNat 0 false) (st.pc + 4) clsCtl)))
      ∧ (l ≠ s.logical st.pcore → ∃ t, exec (.steal d a g) s = .next t ∧ WaitsFor s t st (.reply s.fresh) ∧ SameMemory s t
        ∧ Leaves s t st.scope .stealRequest (.steal (s.logical st.pcore) st.handle s.fresh l)))
    ∧ (∀ i len, yieldForm g i len → ∃ l, exec i s =
        .next (s.setStrand (after s { st with yieldTo := l } (st.pc + BitVec.ofNat 17 len) clsCtl))
      ∧ ∀ k, k ∈ l ↔ ∃ x, (k, x) ∈ s.strands ∧ pcoreOf k = st.pcore ∧ k ≠ st.sk ∧ s.runnable x = true ∧ s.effPrio x = s.effPrio st)

/-- R224, R330, R331: GANG writes its completion word 0, sends its launch with a share of the weight to the loader, and retires;
BAR of a strand that is no gang's passes; else it announces its rank and waits, with a time also for its end; released, it
retires and its next BAR belongs to the next
generation. When the loader takes a GANG, and in which scope its ranks live: log entry 16. -/
def Obligations.Gangs : Prop :=
  ∀ (s : State) (st : Strand) (a : BitVec 5) (g : BitVec 3), Outside s st → st.p g = true →
    (∀ blk key w st' first n e, Sound st [a] → Undeferred st [a] → blockWords s st (st.xv a) blk →
      (blk[1]?.getD 0).toNat = first + 512 * n → first < 512 → 1 ≤ n → first + n ≤ 512 → (blk[2]?.getD 0).toNat = e → e < 256 →
      freeCell s st true (blk[3]?.getD 0) key → st.split = some (w, st') → s.isQuanta st.memberScope = false →
      ∃ t r, exec (.gang a g) s = .next t ∧ Retires s t st 4 st.stack ∧ Leaves s t st.memberScope .imageLoad (.load r)
        ∧ r.image = blk[0]?.getD 0 ∧ r.first = first ∧ r.count = n ∧ r.entry = e ∧ r.compl = blk[3]?.getD 0 ∧ r.args = blk.drop 4
        ∧ r.scope = st.memberScope ∧ r.member = true ∧ r.weight = BitVec.ofNat 32 w ∧ r.issuer = st.handle
        ∧ ∀ k, t.byte k = if key ≤ k ∧ k < key + 8 then 0 else s.byte k)
    ∧ ∀ i len, barForm a g i len →
      (st.answer = some .done → ∃ t, exec i s = .next t ∧ SameMemory s t
        ∧ t.strand s.cur = some (after s { st with barWait := none } (st.pc + BitVec.ofNat 17 len) clsCtl)
        ∧ (∀ sk, sk ≠ s.cur → t.strand sk = s.strand sk)
        ∧ ∀ ga, s.gangs.find st.gang.toNat = some ga → ∃ ga', t.gangs.find st.gang.toNat = some ga' ∧ ga'.gen = ga.gen
          ∧ ∀ r, ga'.genOf r = if r = st.rank then ga.genOf r + 1 else ga.genOf r)
      ∧ (st.answer = none → s.observes st = false → Sound st [a] → Undeferred st [a] → st.xv a = 0 ∨ s.isQuanta st.scope = false →
        (st.nrank = 1 → exec i s = .next (s.setStrand (after s st (st.pc + BitVec.ofNat 17 len) clsCtl)))
        ∧ (st.nrank ≠ 1 → (∀ ga, s.gangs.find st.gang.toNat = some ga → ∀ x ∈ ga.dead, st.rank.toNat ∉ x.2) → Performed s st →
          ∃ t, exec i s = .next t ∧ WaitsFor s t st (.point s.fresh) ∧ SameMemory s t
            ∧ (t.strand s.cur).map (·.barWait) = some (some s.fresh)
            ∧ Leaves s t st.scope .barrierArrival (.strand st.sk st.handle s.fresh)
            ∧ (st.xv a ≠ 0 → ∃ x ∈ t.agenda, x.ev = .barTimeout ∧ x.due = s.cycle + (st.xv a).toNat
                ∧ x.arg = .strand st.sk st.handle s.fresh)))

/-- R295 to R299, R333: SOPEN opens a scope with the lowest free identifier of its cluster: a copy of the enclosing one but
for the fields that R295 names, with the overrides of its block; a share of the weight is its PWEIGHT, the window grows by `k`
zero registers, and x[d] holds the identifier. The lowest identifier is the model's choice (log entry 9). -/
def Sys2Proof.Claims.ScopeOpening : Prop :=
  ∀ (s : State) (st st' st2 : Strand) (d a k : BitVec 5) (g : BitVec 3) (blk : List Word) (id : ScopeId) (b : Scb) (w : Nat),
    Outside s st → st.p g = true → st.answer = none → s.isQuanta st.memberScope = false → Sound st [a] → Undeferred st [a] →
    st.s + k.toNat ≤ 32 → d.toNat < st.s + k.toNat → st.opens.length < 16 → st.w + st.s + k.toNat ≤ 1024 →
    s.roomFor st { w := st.w, s := st.s + k.toNat } = .ready st' →
    (st.xv a = 0 ∧ blk = []) ∨ (st.xv a ≠ 0 ∧ blockWords s st (st.xv a) blk) →
    s.freeScope st.cluster = some id → st.split = some (w, st2) →
    openedScb (s.scope st.memberScope) id st.handle st.sk blk (s.isSys st.scope) = .ok b →
    (∃ t new, exec (.sopen d a k g) s = .next t ∧ SameMemory s t ∧ t.strand s.cur = some new ∧ new.pc = st.pc + 4
      ∧ new.retired = st.retired + 1 ∧ new.w = st.w ∧ new.s = st.s + k.toNat ∧ new.x d.toNat = { val := id.setWidth 64 }
      ∧ (∀ j, j < st.s + k.toNat → j ≠ d.toNat → new.x j = if j < st.s then st.x j else {})
      ∧ new.opens = { scope := id, num := s.fresh, w := st.w, s := st.s, k := k.toNat, stock := Config.scopeWeight } :: st2.opens
      ∧ t.scb id = some { b with
          pweight := w, num := s.fresh, opw := BitVec.ofNat 10 st.w, ops := BitVec.ofNat 6 st.s, opk := BitVec.ofNat 6 k.toNat }
      ∧ ∀ sk, sk ≠ s.cur → t.strand sk = s.strand sk)
    ∧ b.id = id ∧ b.parent = (s.scope st.memberScope).id ∧ b.state = .isOpen ∧ b.opener = st.handle ∧ b.outw = 2 ^ 32
    ∧ b.issued = 2 ^ 32 ∧ b.live = 0 ∧ b.result = 0 ∧ b.won = false ∧ b.faulted = false ∧ b.damaged = false
    ∧ b.tenant = (s.scope st.memberScope).tenant ∧ b.pasid = (s.scope st.memberScope).pasid
    ∧ b.prio ≤ (s.scope st.memberScope).prio ∧ b.issmin ≤ (s.scope st.memberScope).issmin
    ∧ (blk = [] → b.prio = (s.scope st.memberScope).prio ∧ b.dmode = (s.scope st.memberScope).dmode
        ∧ b.trappc = (s.scope st.memberScope).trappc ∧ b.trapv = (s.scope st.memberScope).trapv
        ∧ b.spawnlim = (s.scope st.memberScope).spawnlim ∧ b.cancelled = (s.scope st.memberScope).cancelled)

namespace Sys2Proof.Claims

/-- Every scope control block stands under its own identifier. -/
abbrev Named (s : State) : Prop := ∀ kv ∈ s.scopes, kv.2.id.toNat = kv.1

/-- dw0[15:0] of a scope control block (R294). -/
def scopeWord (b : Scb) : Nat :=
  b.prio.toNat + 2 ^ 4 * b.dmode.toNat + 2 ^ 6 * b.cancelled.toNat + 2 ^ 7 * b.won.toNat + 2 ^ 8 * b.damaged.toNat
    + 2 ^ 9 * b.faulted.toNat + 2 ^ 10 * b.sys.toNat + 2 ^ 11 * b.shield.toNat + 2 ^ 13 * b.saved.toNat
    + 2 ^ 14 * (match b.state with
      | .unused => 0
      | .isOpen => 1
      | .draining => 2)

/-- A scope and every open one below it are cancelled, each that was not yet with a packet to every cluster of its members;
no other scope changes (R302). -/
structure Cancels (s t : State) (id : ScopeId) : Prop where
  flag : ∀ d ∈ s.descendants id, (t.scope d).cancelled = true
  packets : ∀ d ∈ s.descendants id, (s.scope d).cancelled = false → ∀ p ∈ s.cancelPlaces d,
    Leaves s t d .cancelPacket (.scopeAt d p)
  others : ∀ d, d ∉ s.descendants id → t.scope d = s.scope d

end Sys2Proof.Claims

/-- R297, R298, R334: SCLOSE of a scope whose window is back returns the opener's stock, drains the scope and waits; when the
close status has come, the record goes, the window has its old size, and a pair that x[a] names gets result and status by
two stores as of SST.rel. -/
def Sys2Proof.Claims.ScopeClosing : Prop :=
  ∀ (s : State) (st : Strand) (a : BitVec 5) (g : BitVec 3) (r : OpenRec) (rest : List OpenRec), Outside s st → st.p g = true →
    Sound st [a] → Undeferred st [a] → st.opens = r :: rest →
    let pair := st.xv a
    (st.answer = none → st.w ≠ r.w ∨ st.s ≠ r.s + r.k →
      exec (.sclose a g) s = .next (s.takeTrap s.cur { code := .scopeState, sub := 1, aux := some (r.scope.setWidth 64) } (st.pc.setWidth 64)))
    ∧ (∀ sb, st.answer = none → st.w = r.w → st.s = r.s + r.k → r.returned = false → (∀ x ∈ s.kept, x.1 ≠ r.num) →
      s.scb r.scope = some sb → Named s →
      pair = 0 ∨ ((∃ p, s.place (s.who st) (.cell true) pair = .ok p) ∧ ∃ p, s.place (s.who st) (.cell true) (pair + 8) = .ok p) →
      ∃ t, exec (.sclose a g) s = .next t ∧ WaitsFor s t st .closing ∧ SameMemory s t
        ∧ t.scb r.scope = some { sb with state := .draining }
        ∧ Leaves s t r.scope .weightReturn (.weight r.scope r.stock false false))
    ∧ (∀ status res, st.answer = some (.close status res) → st.w = r.w → st.s = r.s + r.k → s.observes st = false →
      s.dmode st.scope ≠ 2 → (s.isQuanta st.scope = true → ∀ n ∈ st.cmds, s.unread n = false) → ∃ t new, exec (.sclose a g) s = .next t ∧ SameMemory s t ∧ t.strand s.cur = some new
        ∧ new.opens = rest ∧ new.w = st.w ∧ new.s = r.s ∧ (∀ j, j < r.s → new.x j = st.x j) ∧ new.pc = st.pc + 4
        ∧ new.retired = st.retired + 1
        ∧ (∀ va v p, (va = pair + 8 ∧ v = res) ∨ (va = pair ∧ v = BitVec.ofNat 64 (2 ^ 63 + 2 ^ 48 * status.toNat)) → pair ≠ 0 →
            s.place (s.who st) (.cell true) va = .ok p → Uncounted s st p →
            ∃ q, Leaves s t st.scope .syncCellOperation (.syncReq q) ∧ q.op = 1 ∧ q.ord = 2 ∧ q.key = p.at_.key ∧ q.val = v))

/-- R302, R305, R307, R336 to R340: SCANC cancels the scope it names and those below it; SRES reads its state or its result;
SWIN sends its declaration; SHLD and SUNSH enter and leave the saggar; CPT passes, or takes the cancellation. The
order of the checks, and when a cancel is seen, are the model's (log entries 20, 27). -/
def Obligations.ScopeControl : Prop :=
  ∀ (s : State) (st : Strand) (d a : BitVec 5) (g : BitVec 3) (id : ScopeId), Outside s st → st.p g = true →
    let retires (i : Instr) (st' : Strand) (len : Nat) : Prop :=
      exec i s = .next (s.setStrand (after s st' (st.pc + BitVec.ofNat 17 len) clsCtl))
    let cancels (i : Instr) (x : Strand) : Prop :=
      exec i s = .next (s.takeTrap s.cur { code := .cancel, aux := some (x.scope.setWidth 64) } (st.pc.setWidth 64))
    (Sound st [a] → Undeferred st [a] → names s st (st.xv a) id →
      (st.answer = some .done → retires (.scanc a g) st 4)
      ∧ (st.answer = none → s.isQuanta id = false → s.isQuanta st.scope = false → Named s →
        ∃ t, exec (.scanc a g) s = .next t ∧ Retires s t st 4 st.stack ∧ SameMemory s t ∧ Cancels s t id)
      ∧ (d.toNat < st.s →
        (∀ v (r : BitVec 1), st.answer = some (.value v) → retires (.sres d a r g) (st.setX d.toNat v false) 4)
        ∧ (st.answer = none → s.isQuanta id = false → s.isQuanta st.scope = false →
          retires (.sres d a 0 g) (st.setX d.toNat (BitVec.ofNat 64 (scopeWord (s.scope id))) false) 4
          ∧ retires (.sres d a 1 g) (st.setX d.toNat (s.scope id).result false) 4)))
    ∧ (Sound st [a] → Undeferred st [a] → ∃ t, exec (.swin a g) s = .next t ∧ Retires s t st 4 st.stack ∧ SameMemory s t
      ∧ Leaves s t st.scope .successDeclaration (.win st.scope (st.xv a) (s.logical st.pcore) st.retired))
    ∧ (st.saggar = false → (s.scope st.scope).shield ≠ 1 → retires (.shld g) { st with saggar := true } 4)
    ∧ (st.saggar = true → s.observes { st with saggar := false } = false → retires (.sunsh g) { st with saggar := false } 4)
    ∧ (st.saggar = true → s.observes { st with saggar := false } = true → s.dmode st.scope ≠ 1 → cancels (.sunsh g) st)
    ∧ ∀ i len, cptForm g i len →
      (s.observes st = false → retires i st len) ∧ (s.observes st = true → s.dmode st.scope ≠ 1 → cancels i st)

/-- R58, R308, R309: taking a trap with every access performed and no spill of the registers in progress saves sw.trapcode, sw.trappc, sw.trapva and sw.trapaux, moves the
window above the old one with eight zero registers and a trap record, and goes to the handler of the scope, bit 0 of whose
address is taken as 0 (log entry 43); no memory, token or other strand changes. A scope without one is FAULTED and CANCELLED, the host learns it, and the strand is gone. TRAP
raises BREAK with x[a]; ERET takes the trap record back and resumes at sw.trappc. The words of some
traps are the model's (log entries 23, 53). -/
def Obligations.Traps : Prop :=
  ∀ (s : State) (st : Strand) (a : BitVec 5) (g : BitVec 3), Outside s st →
    (∀ (t : Trap) (v pc : Word) (st' : Strand) (h : BitVec 16), st.pend = [] → s.transferring s.cur = false → t.aux = some v →
      let b := s.scope st.scope
      (if t.code = .cancel then b.cancv = true ∧ h = b.cancpc else b.trapv = true ∧ h = b.trappc) →
      st.w + st.s + 8 ≤ 1024 → st.links.length + st.linkSpilled < 256 →
      s.roomFor st { w := st.w + st.s, s := 8, push := some { trap := true, s := st.s, n := st.s, pc := pc.setWidth 16 } } = .ready st' →
      let u := s.takeTrap s.cur t pc
      ∃ new, u.strand s.cur = some new ∧ new.trapcode = t.sub ++ faultCode t.code ∧ new.trappc = pc ∧ new.trapva = t.va ∧ new.trapaux = v
        ∧ new.w = st.w + st.s ∧ new.s = 8 ∧ (∀ j, j < 8 → new.x j = {})
        ∧ new.links = { trap := true, s := st.s, n := st.s, pc := pc.setWidth 16 } :: st.links ∧ new.pc = BitVec.ofNat 17 (2 * (h.toNat / 2))
        ∧ new.trapDepth = st.trapDepth + 1 ∧ new.preds = st.preds ∧ new.vregs = st.vregs ∧ new.retired = st.retired
        ∧ new.cancelSeen = (st.cancelSeen || t.code = .cancel) ∧ new.opens = st.opens
        ∧ u.mem = s.mem ∧ u.tokens = s.tokens ∧ u.scopes = s.scopes ∧ ∀ sk, sk ≠ s.cur → u.strand sk = s.strand sk)
    ∧ (∀ (t : Trap) (v pc : Word) (b : Scb), st.pend = [] → s.transferring s.cur = false → t.aux = some v → t.code ≠ .cancel → s.scb st.scope = some b → b.trapv = false →
      Named s → st.scope ≠ 0 → st.opens = [] → st.act = none →
      let u := s.takeTrap s.cur t pc
      u.strand s.cur = none ∧ (u.scope st.scope).faulted = true ∧ (u.scope st.scope).cancelled = true
        ∧ (7, b.fdom, [st.handle.setWidth 64, (t.sub ++ faultCode t.code).setWidth 64, pc, t.va, v]) ∈ u.kiln.reports)
    ∧ (st.p g = true → Sound st [a] → Undeferred st [a] →
      exec (.trap a g) s = .next (s.takeTrap s.cur { code := .brk, aux := some (st.xv a) } (st.pc.setWidth 64)))
    ∧ (∀ r rest st', st.p g = true → st.links = r :: rest → r.trap = true → st.trappc.toNat % 2 = 0 → st.trappc.toNat ≤ 0xFFFE →
      st.w - r.n + r.s ≤ 1024 → s.roomFor st { w := st.w - r.n, s := r.s, pop := true } = .ready st' →
      ∃ t new, exec (.eret g) s = .next t ∧ t.strand s.cur = some new ∧ new.w = st.w - r.n ∧ new.s = r.s ∧ new.links = rest
        ∧ new.pc = BitVec.ofNat 17 st.trappc.toNat ∧ new.trapDepth = st.trapDepth - 1 ∧ new.retired = st.retired + 1
        ∧ (∀ j, j < r.s → new.x j = if st.w - r.n + j < st.w + st.s then st.stack.get {} (st.w - r.n + j) else {})
        ∧ t.mem = s.mem ∧ t.scopes = s.scopes ∧ ∀ sk, sk ≠ s.cur → t.strand sk = s.strand sk)
    ∧ (st.p g = true → st.links = [] → st.trappc.toNat % 2 = 0 → st.trappc.toNat ≤ 0xFFFE → exec (.eret g) s = .next (s.takeTrap s.cur { code := .stackLimit, aux := some 2 } (st.pc.setWidth 64)))
    ∧ (∀ sub w, s.arg = .reject sub w → exec .notAnInstruction s =
        .next (s.takeTrap s.cur { code := .illegal, sub := sub, aux := some (w.setWidth 64) } (st.pc.setWidth 64)))
    ∧ (∀ k, s.arg = .strand st.sk st.handle k → exec .sequentialFlowPastEnd s =
        .next (s.takeTrap s.cur { code := .fetch, aux := some 0x10000 } (st.pc.setWidth 64)))

/-- R341: NOP does nothing. PAUSE stands back for min(x[a], 65,535) cycles, SLEEP waits for x[a][31:0] cycles; their events
end both, and the banks of a strand that SLEEP_END wakes are ON (R52). -/
def Obligations.Pauses : Prop :=
  ∀ (s : State) (st : Strand) (a : BitVec 5) (g : BitVec 3), Outside s st →
    (st.p g = true →
      let retires (i : Instr) (len : Nat) : Prop := exec i s = .next (s.setStrand (after s st (st.pc + BitVec.ofNat 17 len) clsCtl))
      (∀ i len, nopForm g i len → retires i len)
      ∧ (∀ i len, pauseForm a g i len → Sound st [a] → Undeferred st [a] → s.observes st = false →
        let n := min (st.xv a).toNat 65535
        (n = 0 → retires i len)
        ∧ (n ≠ 0 → ∃ t, exec i s = .next t ∧ Retires s t st len st.stack ∧ SameMemory s t
          ∧ (t.strand s.cur).map (·.pauseTo) = some (s.cycle + n + 1)
          ∧ ∃ e ∈ t.agenda, e.ev = .pauseEnd ∧ e.due = s.cycle + n + 1 ∧ e.arg = .strand st.sk st.handle (s.cycle + n + 1)))
      ∧ (st.answer = some .done → retires (.sleep a g) 4)
      ∧ (st.answer = none → Sound st [a] → Undeferred st [a] →
        let n := (st.xv a).toNat % 2 ^ 32
        (n = 0 → retires (.sleep a g) 4)
        ∧ (n ≠ 0 → s.isQuanta st.scope = true →
            exec (.sleep a g) s = .next (s.takeTrap s.cur { code := .determinism } (st.pc.setWidth 64)))
        ∧ (n ≠ 0 → s.isQuanta st.scope = false → ∃ t, exec (.sleep a g) s = .next t ∧ WaitsFor s t st (.sleep s.fresh) ∧ SameMemory s t
          ∧ ∃ e ∈ t.agenda, e.ev = .sleepEnd ∧ e.due = s.cycle + n ∧ e.arg = .strand st.sk st.handle s.fresh)))
    ∧ (∀ k, s.arg = .strand st.sk st.handle k →
      (st.wait = .sleep k → exec .sleepEnd s =
        .next ((s.setStrand { st with wait := .none, answer := some .done }).bankStates (pcoreOf st.sk)))
      ∧ (st.pauseTo = k → exec .pauseEnd s = .next (s.setStrand { st with pauseTo := 0 })))

/-! ### Events: answers, scopes, messages, placement -/

namespace Sys2Proof.Claims

/-- Each strand stands in its own slot, once. -/
def Slots (s : State) : Prop := Assoc.sorted s.strands = true ∧ ∀ k x, s.strand k = some x → x.sk = k

/-- The strand waits no more: its answer is here. -/
def Strand.answered (st : Strand) (a : Answer) : Strand := { st with wait := .none, answer := some a }

/-- Completion words of R298: what the flags of a scope make of its close. -/
def closeOf (b : Scb) (lost : Bool) : BitVec 3 :=
  if (b.damaged || lost) = true then 3 else if b.faulted = true then 4 else if b.won = true then 1 else if b.cancelled = true then 2 else 0

/-- A core with room for one more context of a scope, awake and not stopped (R257, R378). -/
abbrev Roomy (s : State) (l p : Nat) (c : Ctx) : Prop :=
  s.physical l = some p ∧ (s.core p).gated = false ∧ (s.core p).stopped = false ∧ (s.core p).overflow = [] ∧ (s.core p).arrival.length < 64
    ∧ ((s.core p).arrival.filter fun x => x.scope = c.scope).length < (s.scope c.scope).arrdepth.toNat

/-- The context stands last in the arrival queue of a core, which looks at it. -/
def Arrived (s t : State) (p : Nat) (c : Ctx) : Prop :=
  (t.core p).arrival = (s.core p).arrival ++ [c] ∧ ∃ e ∈ t.agenda, e.ev = .admission ∧ e.arg = .n1 p

/-- A context as a new strand's state (R256, R36; its D bits as log entry 67 reads them, its pc as log entries 43 and 53 do). -/
def Begins (st : Strand) (c : Ctx) : Prop :=
  st.pc = (if c.pcEnd = true then 0x10000 else BitVec.ofNat 17 (2 * (c.pc.toNat / 2))) ∧ st.w = 0 ∧ st.s = 8 ∧ (∀ j, j < 8 → (st.x j).val = c.x[j]?.getD 0 ∧ (st.x j).d = c.dbits.getLsbD j)
    ∧ st.preds = c.preds &&& 0xFE ∧ st.scope = c.scope ∧ st.weight = c.weight.toNat ∧ st.frm = c.frm ∧ st.fflags = c.fflags
    ∧ st.vfmt = c.vfmt ∧ st.mfmt = c.mfmt ∧ st.retired = c.retired ∧ st.links = [] ∧ st.opens = [] ∧ st.queues = []

/-- R277, R297, R331, R334, R410 and R209, R253, R299, R326: an answer ends the wait that it is for, with what it brings; an
acknowledged migration frees its slot; the banks of a strand that has waited in BAR or SCLOSE are ON again (R52); a late fault is taken; a strand at its limit of remote accesses migrates. What an
answer may come back for on a peer device is then no longer open there (`peerAnswered`). -/
def WaitEvents : Prop :=
  ∀ (s : State) (st : Strand) (n : Nat), s.strand st.sk = some st →
    let sets (ev : Instr) (st' : Strand) : Prop := exec ev s = .next (s.setStrand st')
    let wakes (ev : Instr) (st' : Strand) : Prop := exec ev s = .next ((s.setStrand st').bankStates st.pcore)
    let told (ev : Instr) (st' : Strand) : Prop := exec ev s = .next ((s.peerAnswered n).setStrand st')
    (∀ w, s.arg = .strand st.sk st.handle n → st.wait = .token w n → sets .twaitTimeout (Strand.answered st .timeout))
    ∧ (∀ a, s.arg = .answer st.sk st.handle n a →
      (st.sk < 2 ^ 20 → st.wait = .reply n ∨ st.wait = .point n → told .acknowledgement (Strand.answered st a))
      ∧ (st.wait = .reply n → sets .tokenQueryReply (Strand.answered st a))
      ∧ (∀ auto, st.wait = .migrating n auto → a = .done → ∃ t, exec .acknowledgement s = .next t ∧ t.strand st.sk = none)
      ∧ (st.sk < 2 ^ 20 → st.wait = .migrating n false → a ≠ .done → told .acknowledgement (Strand.answered st a)))
    ∧ (∀ r, s.arg = .reply r → r.sk = st.sk → r.dest = st.handle → r.number = n → r.peer = none → st.wait = .point n →
      told .replyArrival (Strand.answered st (.words r.status r.words)))
    ∧ (∀ scope : ScopeId, s.arg = .strand st.sk st.handle scope.toNat → st.wait = .refill →
      (st.opens = [] → st.scope = scope → sets .refillReply { st with weight := st.weight + 2 ^ 16, wait := .none })
      ∧ (∀ r, st.opens = [r] → r.scope = scope → r.returned = false →
        sets .refillReply { st with opens := [{ r with stock := r.stock + 2 ^ 16 }], wait := .none }))
    ∧ (∀ r rest status res, s.arg = .close r.scope r.num st.sk st.handle status res → st.opens = r :: rest → st.wait = .closing →
      st.dying = false → wakes .closeStatus (Strand.answered st (.close status res)))
    ∧ (∀ gen ga, s.arg = .strand st.sk st.handle gen → st.barWait = some n → s.gangs.find st.gang.toNat = some ga →
      ga.genOf st.rank = gen → st.wait = .point n → wakes .barrierRelease (Strand.answered st .done))
    ∧ (∀ ga, s.arg = .strand st.sk st.handle n → st.barWait = some n → s.gangs.find st.gang.toNat = some ga →
      let r := st.rank.toNat
      let without : Gang := { ga with arrived := ga.arrived.filter (· != r), ahead := ga.ahead.filter (· != r) }
      let missing : Word := BitVec.ofNat 64 (ga.members.filter fun m => m.1 != r && !ga.arrived.contains m.1).length
      (st.wait = .point n → ga.genOf st.rank = ga.gen → exec .barTimeout s =
        .next (({ s with gangs := s.gangs.insert st.gang.toNat without }.setStrand
          (Strand.answered st (.trap { code := .deadPeer, sub := 1, aux := some missing }))).bankStates st.pcore))
      ∧ (ga.genOf st.rank < ga.gen → ∃ t, exec .barrierArrival s = .next t ∧ t.gangs = s.gangs
        ∧ Leaves s t st.scope .barrierRelease (.strand st.sk st.handle (ga.genOf st.rank)))
      ∧ (ga.genOf st.rank = ga.gen → r ∉ ga.arrived →
        let all := ∀ m ∈ ga.members, m.1 ∈ ga.arrived ++ [r]
        (¬ all → exec .barrierArrival s =
          .next { s with gangs := s.gangs.insert st.gang.toNat { ga with arrived := ga.arrived ++ [r] } })
        ∧ (all → ga.members ≠ [] → ∃ t, exec .barrierArrival s = .next t
          ∧ t.gangs = s.gangs.insert st.gang.toNat { ga with gen := ga.gen + 1, arrived := ga.ahead, ahead := [] }
          ∧ ∀ m ∈ ga.members, ∀ x, s.named m.2 = some x → Leaves s t x.scope .barrierRelease (.strand x.sk m.2 ga.gen))))
    ∧ (∀ t rest, s.arg = .strand st.sk st.handle n → st.late = t :: rest → st.pend = [] →
      exec .lateFaultTrap s = .next ((s.setStrand { st with late := rest }).takeTrap st.sk t (st.pc.setWidth 64)))
    ∧ (∀ l, s.arg = .strand st.sk st.handle n → Performed s st → st.idem = none → s.coneFull st.cluster st.scope = false →
      (∀ j, j < 8 → (st.stack.get {} (st.w + j)).lost = false ∧ (st.stack.get {} (st.w + j)).flip = 0) → l < 512 → st.remoteHome.toNat = l →
      (l = s.logical st.pcore → sets .autoMigration { st with remoteCount := 0 })
      ∧ (l ≠ s.logical st.pcore → Sound st (regsFrom 0 8) → s.migrationBar st l = none → s.isRetired l = false → ∃ t c, exec .autoMigration s = .next t
        ∧ (t.strand st.sk).map (fun x => (x.wait, x.remoteCount)) = some (.migrating s.fresh true, 0)
        ∧ Leaves s t st.scope .migration (.ctx s.fresh (some l) c) ∧ Carries c st ∧ c.pc = st.pc.setWidth 16 ∧ c.kind = 1
        ∧ c.weight = BitVec.ofNat 32 st.weight ∧ c.retired = st.retired))

/-- R299, R302, R307, R316, R382, R388, R401: weight comes home, and a DRAINING scope without any closes with the status of
its flags; a refill issues 2^16 units; a cancel reaches the cores of a cluster and ends waits there; the first success wins; a
divergence faults its scope; pre-emption marks, saves and restores strands; a quantum ends. -/
def ScopeEvents : Prop :=
  ∀ (s : State) (id : ScopeId) (b : Scb), s.scb id = some b → Named s →
    (∀ w lost live, s.arg = .weight id w lost live →
      let b' : Scb := { b with
        outw := b.outw - w, damaged := b.damaged || lost, live := if live = true then b.live - 1 else b.live }
      (w < b.outw ∨ b.state ≠ .draining → exec .weightReturn s = .next (s.setScb b'))
      ∧ (w = b.outw → b.state = .draining → s.isQuanta id = false → s.isQuanta b.parent = false → b.parent ≠ id →
        s.launches.find id.toNat = none → ∃ t, exec .weightReturn s = .next t ∧ t.scb id = none ∧ SameMemory s t
          ∧ (∃ e ∈ t.agenda, e.ev = .closeStatus ∧ e.arg = .close id b.num b.openerSk b.opener (closeOf b lost) b.result)
          ∧ (∃ e ∈ t.agenda, e.ev = .weightReturn ∧ e.arg = .weight b.parent b.pweight false false)
          ∧ t.tokens = s.tokens.map fun k => if k.owner = scopeParty id then { k with owner := scopeParty b.parent } else k))
    ∧ (∀ sk h, s.arg = .strand sk h id.toNat → ∃ t, exec .refillRequest s = .next t
      ∧ t.scb id = some { b with outw := b.outw + 2 ^ 16, issued := b.issued + 2 ^ 16 }
      ∧ Leaves s t id .refillReply (.strand sk h id.toNat))
    ∧ (∀ p, s.arg = .scopeAt id p → b.cancelled = true → Slots s → ∃ t, exec .cancelPacket s = .next t
      ∧ (∀ q, q / 17 = p / 17 → t.flagAt id q = true)
      ∧ ∀ x n, s.strand x.sk = some x → x.cluster = p / 17 → x.scope = id → x.wait = .point n → x.dying = false →
        x.cancelSeen = false → x.saggar = false → b.dmode ≠ 2 → t.strand x.sk = some { x with wait := .none, answer := none })
    ∧ (∀ w party retired, s.arg = .win id w party retired → Unrecorded s id →
      (b.won = true → exec .successDeclaration s = .next s)
      ∧ (b.won = false → ∃ t, exec .successDeclaration s = .next t ∧ (t.scope id).won = true ∧ (t.scope id).result = w
        ∧ ∀ d ∈ s.descendants id, (t.scope d).cancelled = true))
    ∧ (∀ n, s.arg = .scopeAt id n → id ≠ 0 → ∃ t, exec .replayDiverged s = .next t ∧ (t.scope id).faulted = true
      ∧ (t.scope id).cancelled = true ∧ (4, b.fdom, []) ∈ t.kiln.reports)
    ∧ (∀ n, s.arg = .scopeAt id n → Slots s → (∀ k x, s.strand k = some x → s.under id x.scope = true → s.savesNow x = false) →
      ∃ t, exec .preemptionRequest s = .next t ∧ ∀ k x, s.strand k = some x → s.under id x.scope = true →
        t.strand k = some { x with preempt := some (x.preempt.getD 0) })
    ∧ (∀ st k, s.strand st.sk = some st → s.arg = .strand st.sk st.handle k → Slots s → Performed s st → s.transferring st.sk = false → st.idem = none → st.spilled = [] → st.linkSpilled = 0 →
      (∀ e ∈ st.stack, e.2.flip = 0 ∧ e.2.lost = false) → ∃ t n sv, exec .preemptionSave s = .next t ∧ t.strand st.sk = none ∧ t.kiln.saves.find n = some sv ∧ s.kiln.saves.find n = none
        ∧ sv.st.pc = st.pc ∧ sv.st.scope = st.scope ∧ sv.st.stack = st.stack ∧ sv.st.retired = st.retired
        ∧ sv.lcore = s.logical st.pcore)
    ∧ (∀ n sv o bs u, s.arg = .n1 n → s.kiln.saves.find n = some sv → sv.off = some o →
      (readVa (s.scope sv.top).pasid ((s.scope sv.top).savearea + BitVec.ofNat 64 o) sv.bytes.length).go s = (.ok bs, u) →
      (∀ j, 13 ≤ j → j < 16 → bs[j]?.getD 0 = 0) →
      ∃ t l, exec .preemptionRestore s = .next t ∧ Leaves s t sv.ctx.scope .spawnPlacement (.ctx (sv.lcore / 16) l sv.ctx)
        ∧ (l = some sv.lcore ∨ l = none))
    ∧ (∀ sk h n retired, s.arg = .scopeOp sk h n id 3 retired → ∃ t, exec .quantumEnd s = .next t
      ∧ let a : Payload := .answer sk h n (.value (BitVec.ofNat 64 (scopeWord b)))
        (s.isQuanta id = true → Leaves s t id .acknowledgement a)
        ∧ ∀ st, s.waiter sk h = some st → s.isQuanta id = false → Leaves s t st.scope .acknowledgement a)
    ∧ (∀ dom, s.arg = .n2 id.toNat 10 → s.domains.find id.toNat = some dom → ∃ t, exec .quantumEnd s = .next t
      ∧ (t.domains.find id.toNat).map (·.ending) = some false
      ∧ ∀ k x, s.strand k = some x → s.under id x.scope = true → x.inQuantum = true →
        (t.strand k).map (fun y => (y.quantum, y.qpos)) = some (x.quantum + 1, 0))

/-- R238, R239, R252 to R255, R236: a message starts an activation, waits in its mailbox, or is refused; a refused one comes
back with its weight and is sent again later; one for a peer device leaves for it, where the tenant is paired with it, and is else
refused DEAD (R369; log entry 41). Words of a queue take the entries that
credits reserved; one without an entry is discarded, and at a channel without a receiver its sender is told. The lowest free slot is
the model's choice (log entry 9). -/
def MessageEvents : Prop :=
  (∀ (s : State) (m : Msg), s.arg = .msg m → 512 ≤ m.lcore →
    (s.isPaired (m.lcore / 512) (s.scope m.scope).tenant = true →
      exec .message s = .next { s with peerOut := s.peerOut ++ [(.message, .msg m)] })
    ∧ (s.isPaired (m.lcore / 512) (s.scope m.scope).tenant = false → ∃ t, exec .message s = .next t ∧ t.peerOut = s.peerOut
      ∧ Leaves s t m.scope .refusal (.refused 3 (.msg m))))
  ∧ (∀ (s : State) (m : Msg) (p : Nat), s.arg = .msg m → m.lcore < 512 → Unrecorded s m.scope → s.physical m.lcore = some p →
    (if 512 ≤ m.fromCore then s.isPaired (m.fromCore / 512) m.tenant = true ∧ s.holdsPeers m.scope m.fromCore = false
      else s.samePart (m.fromCore / 16) (m.lcore / 16) = true) → (s.core p).gated = false →
    let h := s.handler m.lcore m.chan.toNat
    (h.depth = 0 ∨ h.tenant ≠ m.tenant ∨ s.received m.lcore m.chan = true → ∃ t, exec .message s = .next t
      ∧ Leaves s t m.scope .refusal (.refused 2 (.msg m)) ∧ t.strands = s.strands)
    ∧ (h.depth ≠ 0 → h.tenant = m.tenant → s.received m.lcore m.chan = false → s.flagAt m.scope p = false →
      (h.mask = true → h.box.length < h.depth.toNat → ∃ t, exec .message s = .next t
        ∧ t.handler m.lcore m.chan.toNat = { h with box := h.box ++ [m] } ∧ t.strands = s.strands
        ∧ (m.wantReply = false → m.fromCore < 512 → Leaves s t m.scope .acknowledgement (.answer m.sk m.sender m.number .done)))
      ∧ (h.mask = true → h.depth.toNat ≤ h.box.length → ∃ t, exec .message s = .next t
        ∧ Leaves s t m.scope .refusal (.refused 1 (.msg m)) ∧ t.strands = s.strands)
      ∧ (∀ k, h.mask = false → h.box = [] → h.active = none → s.freeSlot p = some k → 64 ≤ s.freeEntries p →
        (s.scope m.scope).saved = false → ∃ t new, exec .message s = .next t ∧ t.strand (16 * p + k) = some new
          ∧ new.pc = BitVec.ofNat 17 (2 * (h.pc.toNat / 2)) ∧ new.scope = m.scope ∧ new.weight = m.weight.toNat ∧ new.sender = m.sender
          ∧ new.chan = m.chan ∧ new.prio = h.prio ∧ (∀ j, j < 8 → (new.x j).val = m.words[j]?.getD 0 ∧ (new.x j).d = false)
          ∧ (t.handler m.lcore m.chan.toNat).active = some (16 * p + k)
          ∧ ∀ sk, sk ≠ 16 * p + k → t.strand sk = s.strand sk)))
  ∧ (∀ (s : State) (st : Strand) (m : Msg) (cause : BitVec 8), s.arg = .refused cause (.msg m) → s.strand st.sk = some st →
    m.sk = st.sk → m.sender = st.handle → m.scope = st.scope → m.fromCore < 512 → st.opens = [] → m.wantReply = false →
    (st.wait = .reply m.number →
      let back : Strand := { st with weight := st.weight + m.weight.toNat }
      (cause = 1 ∨ cause = 4 → ∃ t, exec .refusal s = .next t
        ∧ t.strand st.sk = some { back with wait := .point m.number, backoff := st.backoff + 1 }
        ∧ ∃ e ∈ t.agenda, e.ev = .sendResend ∧ e.due = s.cycle + min (32 * 2 ^ min st.backoff 5) 1024 ∧ e.arg = .refused 0 (.msg m))
      ∧ (cause ≠ 1 → cause ≠ 4 → exec .refusal s = .next ((s.peerAnswered m.number).setStrand (Strand.answered back (.refused cause)))))
    ∧ (∀ w st', st.wait = .point m.number → st.split = some (w, st') → ∃ t, exec .sendResend s = .next t
      ∧ Leaves s t st.scope .message (.msg { m with weight := BitVec.ofNat 32 w })
      ∧ (t.strand st.sk).map (fun x => (x.wait, x.weight)) = some (.reply m.number, st.weight - w)))
  ∧ (∀ (s : State) (st : Strand) (q l : Nat) (c : BitVec 6) (b : Binding) (h : Handle) (n k : Nat) (w : Word),
    s.receiver l c = some (st, q, b) → l < 512 → s.wordHeld l c h n = none →
    (s.arg = .queueWord l c h n w → (∃ e ∈ b.reserved, e.2.1 = n) → exec .queueWord s =
        .next (s.setStrand (st.setQ q { b with reserved := unreserve b.reserved n 1, words := b.words ++ [w] })))
    ∧ (s.arg = .queueWord l c h n w → (∀ e ∈ b.reserved, e.2.1 ≠ n) → exec .queueWord s = .next s)
    ∧ (s.arg = .creditRequest l c h n k →
      let m := min (min k 8) b.free
      (m ≠ 0 → ∃ t, exec .creditRequest s = .next t ∧ t.strands = s.strands.insert st.sk (st.setQ q { b with reserved := reserve b.reserved h n m })
        ∧ Leaves s t (((t.sender n).map (·.1.scope)).getD 0) .creditGrant (.creditGrant h n m false))
      ∧ (m = 0 → b.requests.length < 16 → exec .creditRequest s =
        .next (s.setStrand (st.setQ q { b with requests := b.requests ++ [(h, n, k)] })))
      ∧ (m = 0 → 16 ≤ b.requests.length → ∃ t, exec .creditRequest s = .next t ∧ t.strands = s.strands
        ∧ Leaves s t (((t.sender n).map (·.1.scope)).getD 0) .creditGrant (.creditGrant h n 0 false))))
  ∧ (∀ (s : State) (l n : Nat) (c : BitVec 6) (h : Handle) (w : Word), s.arg = .queueWord l c h n w → l < 512 → s.received l c = false →
    ∃ t, exec .queueWord s = .next t ∧ Leaves s t (((t.sender n).map (·.1.scope)).getD 0) .creditGrant (.creditGrant h n 0 true))
  ∧ (∀ (s : State) (l : Nat) (right : Bool) (h : Handle) (w : Word), s.arg = .fifo false l right h w → exec .queueWord s =
      .next (s.modLCore l fun x => x.setFifo right (x.fifo right ++ [(s.cycle + 2, w)])))
  ∧ (∀ (s : State) (n : Nat) (r : Bool) (h : Handle) (w : Word) (p : Pair), s.arg = .fifo true n r h w → s.pair n = some p →
    p.broken = false → exec .queueWord s = .next (s.setPair { p with words := p.words ++ [(s.cycle + 1, w)] }))
  ∧ (∀ (s : State) (st : Strand) (h : Handle) (q n k : Nat) (b : Binding), s.sender n = some (st, q, b) → s.strand st.sk = some st →
    st.q q = some b → b.kind = 0 → n < 2 ^ 40 → b.broken = false → (s.brokenBy st b).1 = false →
    let sets (b' : Binding) : Prop := exec .creditGrant s = .next (s.setStrand (st.setQ q b'))
    (s.arg = .creditGrant h n k false → k ≠ 0 → b.words = [] → sets { b with credits := b.credits + k, asked := false })
    ∧ (s.arg = .creditGrant h n 0 false → exec .creditGrant s = .next (s.after 64 .creditRequestRetry (.creditGrant h n 0 false)))
    ∧ (s.arg = .creditGrant h n k true → sets { b with broken := true, words := [], asked := false })
    ∧ (s.arg = .creditGrant h n 0 false → b.words ≠ [] → b.credits = 0 → ∃ t, exec .creditRequestRetry s = .next t
      ∧ Leaves s t st.scope .creditRequest (.creditRequest (s.bindCore b) b.chan st.handle n b.words.length)))

/-- R256 to R259, R288, R289, R312, R313, R348: contexts arrive in the queue of their core, come out of its overflow area, and
start as strands; a thief takes from the top of a deque, but not where another steal of it was served in this cycle or its
owner takes its last strand now; a decrement counts down a live node and is else ignored. The lowest
free slot is the model's choice (log entry 9), the D bits of a new strand its reading (log entry 67). -/
def PlacementEvents : Prop :=
  (∀ (s : State) (l p cl n : Nat) (c : Ctx), Roomy s l p c →
    (s.arg = .ctx n (some l) c → s.isQuanta c.scope = false → ∃ t, exec .migration s = .next t ∧ Arrived s t p c
      ∧ ∃ e ∈ t.agenda, e.ev = .acknowledgement ∧ e.arg = .answer (handleSk c.origin) c.origin n .done)
    ∧ (s.arg = .ctx cl (some l) c → ∃ t, exec .spawnPlacement s = .next t ∧ Arrived s t p c ∧ t.strands = s.strands)
    ∧ (s.arg = .ctx l none c → (∀ e ∈ s.agenda, e.starts c.scope = true → e.parcel = 0) → s.loading l = false → ∃ t, exec .start s = .next t ∧ Arrived s t p c ∧ t.strands = s.strands)
    ∧ (∀ st, s.arg = .stolen l st.handle n (some c) → s.strand (handleSk st.handle) = some st → st.sk = handleSk st.handle →
      st.wait = .reply n → ∃ t, exec .stealReply s = .next t ∧ Arrived s t p c ∧ t.strand st.sk = some (Strand.answered st (.value 1))))
  ∧ (∀ (s : State) (cl : Nat) (l : Option Nat) (c : Ctx), s.arg = .ctx cl l c →
    ∃ t, exec .wheelReplace s = .next t ∧ Leaves s t c.scope .spawnPlacement (.ctx cl l c))
  ∧ (∀ (s : State) (st : Strand) (n thief victim p : Nat), s.arg = .steal thief st.handle n victim → s.named st.handle = some st →
    Unrecorded s st.scope → s.physical victim = some p → (s.core p).gated = false →
    (∀ c rest, (s.core p).deque = c :: rest → (s.scope c.scope).tenant = (s.scope st.scope).tenant →
      let late := s.stolen victim = true ∨ s.ownerTakes p c = true
      (s.isQuanta st.scope = true ∨ ¬ late → ∃ t, exec .stealRequest s = .next t ∧ (t.core p).deque = rest
        ∧ Leaves s t st.scope .stealReply (.stolen thief st.handle n (some c)))
      ∧ (s.isQuanta st.scope = false → late → ∃ t, exec .stealRequest s = .next t ∧ t.cores = s.cores
        ∧ Leaves s t st.scope .stealReply (.stolen thief st.handle n none)))
    ∧ ((s.core p).deque = [] → ∃ t, exec .stealRequest s = .next t
      ∧ Leaves s t st.scope .stealReply (.stolen thief st.handle n none)))
  ∧ (∀ (s : State) (p k : Nat) (c : Ctx), s.arg = .n1 p → (s.core p).arrival = [c] → (s.core p).deque = [] →
    (∀ x ∈ (s.lcore (s.logical p)).handlers, x.2.box = []) → (s.scope c.scope).cancelled = false → s.flagAt c.scope p = false →
    s.isQuanta c.scope = false → (s.core p).stopped = false → s.freeSlot p = some k → s.admissible p c = true → s.coreRoom p c = true →
    c.kind = 0 → c.restore = none → ∃ t new, exec .admission s = .next t ∧ t.strand (16 * p + k) = some new ∧ Begins new c
      ∧ (t.core p).arrival = [] ∧ ∀ sk, sk ≠ 16 * p + k → t.strand sk = s.strand sk)
  ∧ (∀ (s : State) (p : Nat) (c : Ctx), s.arg = .n1 p → (s.core p).overflow = [c] → (s.core p).arrival = [] →
    s.isQuanta c.scope = false → (s.scope c.scope).arrdepth ≠ 0 →
    (∀ k ∈ wordsOf (vaultKey p 0x7F8000) 128, parityOf (s.err k) = 0) → ∃ t, exec .overflowRefill s = .next t
      ∧ (t.core p).arrival = [c] ∧ (t.core p).overflow = [])
  ∧ (∀ (s : State) (id : Nat) (gen : Option (BitVec 16)) (n : Nat), s.arg = .decrement id gen n →
    let nd := s.node id
    if nd.state = .waiting ∧ (∀ x ∈ gen, x = nd.gen) ∧ n ≤ nd.pred then
      (n < nd.pred ∨ s.isQuanta nd.mscope = true → exec .predecessorDecrement s = .next (s.setNode id { nd with pred := nd.pred - n }))
      ∧ (n = nd.pred → s.isQuanta nd.mscope = false →
          exec .predecessorDecrement s = .next ((s.setNode id { nd with pred := 0 }).fireNode id))
    else exec .predecessorDecrement s = .next (s.modCluster (id / 256) fun c => { c with ignored := c.ignored + 1 }))
  ∧ (∀ (s : State) (id : Nat), let nd := s.node id
    s.arg = .n2 id nd.gen.toNat → nd.op = 5 → nd.state = .running → nd.weight ≠ 0 → (s.scope nd.mscope).spawnlim = 0 →
    ∃ t l c, exec .nodeReservationRetry s = .next t ∧ (∃ e ∈ t.agenda, e.ev = .spawnPlacement ∧ e.arg = .ctx (id / 256) l c)
      ∧ c.scope = nd.mscope ∧ c.weight = BitVec.ofNat 32 nd.weight ∧ c.node = some id ∧ c.pc = (nd.blk[0]?.getD 0).setWidth 16
      ∧ (t.node id).weight = 0)
  ∧ (∀ (s : State) (g step rank : Nat) (d : Word) (ga : Gang), s.arg = .digest g step rank d → s.gangs.find g = some ga →
    (ga.digests.filter fun x => x.1 = step).length + 1 < ga.nrank → exec .digest s =
      .next { s with gangs := s.gangs.insert g { ga with digests := ga.digests ++ [(step, rank, d)] } })
  ∧ (∀ (s : State) (r : MemReq) (e : Nat) (c : EngCmd) (ga : Gang), s.arg = .memReq r → r.by_ = .engine e →
    s.cmd e r.number = some c → c.inFlight = true → c.code = none → c.nrank ≠ 1 → s.gangs.find c.gang.toNat = some ga →
    (ga.parts.filter fun x => x.1 = c.step).length + 1 < ga.nrank →
    let more : Gang := { ga with parts := ga.parts ++ [(c.step, c.rank.toNat, r.data, r.desc.getD 0)] }
    exec .collectiveData s = .next { s with gangs := s.gangs.insert c.gang.toNat more })

/-- R228 to R231, R330, R379: a code packet writes the instruction store of its core and nothing else; a handler packet writes
an entry, its mailbox kept; both are sent again while their core is dead and not yet served (log entry 24). Once both are everywhere, every rank
of a cluster that this load serves leaves for its core with 2^16 units of weight, and behind the
last of them a GANG's weight returns. The order in
which a loader sends is the model's choice (log entry 16). -/
def LoadEvents : Prop :=
  (∀ (s : State) (l off p : Nat) (bs : List (BitVec 8)), s.arg = .code l off bs → s.physical l = some p → ∃ t,
    exec .codeStore s = .next t ∧ t.strands = s.strands
      ∧ ∀ k, t.byte k = if istoreKey p off ≤ k ∧ k < istoreKey p off + bs.length then bs.getD (k - istoreKey p off) 0 else s.byte k)
  ∧ (∀ (s : State) (l chan : Nat) (e : HandlerEntry), s.arg = .handler l chan e → (s.physical l).isSome = true →
    s.received l (BitVec.ofNat 6 chan) = false →
    let h := s.handler l chan
    let new (back : List (Word × BitVec 20)) : Handler :=
      { h with pc := e.pc, prio := e.prio, depth := e.depth, mask := e.mask, tenant := e.tenant, scratch := e.scratch, back := back }
    (h.depth = 0 → ∃ t, exec .handlerTableWrite s = .next t ∧ SameMemory s t ∧ t.handler l chan = new h.back)
    ∧ (h.depth ≠ 0 → h.tenant = e.tenant → ∃ t back, exec .handlerTableWrite s = .next t ∧ t.handler l chan = new back))
  ∧ (∀ (s : State) (l : Nat), s.physical l = none → s.isRetired l = false →
    (∀ off bs, s.arg = .code l off bs → exec .codeStore s = .next (s.after Config.retryWait .codeStore s.arg))
    ∧ ∀ chan e, s.arg = .handler l chan e → exec .handlerTableWrite s = .next (s.after Config.retryWait .handlerTableWrite s.arg))
  ∧ (∀ (s : State) (r : LoadReq) (image gang : Nat) (c : Ctx), s.arg = .released r image gang c → s.isQuanta r.scope = false →
    (s.scope r.scope).cancelled = false → ∃ t, exec .imageLoad s = .next t ∧ SameMemory s t
      ∧ (∀ i, i < r.count → (r.first + i) / 16 ∉ r.skip → ∃ e ∈ t.agenda, e.ev = .start ∧ e.arg = .ctx (r.first + i) none { c with rank := BitVec.ofNat 16 i })
      ∧ ∃ e ∈ t.agenda, e.ev = .imageLoad ∧ e.arg = .started r)
  ∧ (∀ (s : State) (r : LoadReq), s.arg = .started r → r.member = true → (∀ e ∈ s.agenda, e.starts r.scope = false) →
    s.isQuanta r.scope = false → ∃ t, exec .imageLoad s = .next t
      ∧ Leaves s t r.scope .weightReturn (.weight r.scope r.weight.toNat false false))

end Sys2Proof.Claims

/-! ### Events: memory, links, health -/

namespace Sys2Proof.Claims

/-- A link record as a word of the spill area (R47). -/
def recordWord (r : LinkRec) : Word :=
  BitVec.ofNat 64 (r.pc.toNat + 2 ^ 16 * (r.n % 64) + 2 ^ 22 * (r.s % 64) + 2 ^ 28 * r.trap.toNat)

/-- R43 to R47: a spill writes a group's values, D bits and error bits to the spill area and no other byte, and frees its
place; a fill brings them back; eight link records go there, oldest first, and come back. The strand that waited goes on. The
place that a fill takes is the model's choice (log entry 9). -/
def SpillEvents : Prop :=
  ∀ (s : State) (st : Strand) (g : Nat), s.strand st.sk = some st → st.wait = .spill → st.raised = none → g < 128 →
    let base := s.spillKey st
    (s.arg = .n3 st.sk g st.sk →
      ((st.groups.find g).isSome = true → ∃ t new, exec .groupSpill s = .next t ∧ t.strand st.sk = some new
        ∧ new.groups.find g = none ∧ g ∈ new.spilled ∧ new.wait = .none
        ∧ (∀ pos, new.stack.get {} pos = if pos / 8 = g then {} else st.stack.get {} pos)
        ∧ (∀ j, j < 8 → let e := st.stack.get {} (8 * g + j)
            t.word (base + 64 * g + 8 * j) = e.val ∧ t.memBit (base + 0x2000) (8 * g + j) = e.d
              ∧ t.memBit (base + 0x2080) (8 * g + j) = e.ue)
        ∧ ∀ k, (k < base + 64 * g ∨ base + 64 * g + 64 ≤ k) → k ≠ base + 0x2000 + g → k ≠ base + 0x2080 + g → t.byte k = s.byte k)
      ∧ (∀ place, g ∈ st.spilled → s.freePlace st.pcore = some place →
        (∀ k ∈ wordsOf (base + 64 * g) 64 ++ wordsOf (base + 0x2000 + g) 1 ++ wordsOf (base + 0x2080 + g) 1, parityOf (s.err k) = 0) →
        ∃ t new, exec .groupFill s = .next t ∧ SameMemory s t
          ∧ t.strand st.sk = some new ∧ new.groups.find g = some place ∧ new.wait = .none ∧ new.spilled = st.spilled.erase g
          ∧ ∀ pos, new.stack.get {} pos = if pos / 8 = g then
              { val := s.word (base + 8 * pos), d := s.memBit (base + 0x2000) pos, lost := s.memBit (base + 0x2080) pos }
            else st.stack.get {} pos))
    ∧ (s.arg = .n3 st.sk 0 st.sk → 8 ≤ st.links.length → ∃ t new, exec .linkRecordSpill s = .next t ∧ t.strand st.sk = some new
      ∧ new.links = st.links.take (st.links.length - 8) ∧ new.linkSpilled = st.linkSpilled + 8 ∧ new.wait = .none
      ∧ ∀ i r, i < 8 → ((st.links.drop (st.links.length - 8)).reverse)[i]? = some r →
          t.word (base + 0x2100 + 8 * (st.linkSpilled + i)) = recordWord r)
    ∧ (s.arg = .n3 st.sk 1 st.sk → let n := min 8 st.linkSpilled
      (∀ k ∈ wordsOf (base + 0x2100 + 8 * (st.linkSpilled - n)) (8 * n), parityOf (s.err k) = 0) → ∃ t new,
        exec .linkRecordSpill s = .next t ∧ SameMemory s t ∧ t.strand st.sk = some new ∧ new.linkSpilled = st.linkSpilled - n
        ∧ new.links = st.links ++ (List.range n).map fun i => LinkRec.ofWord (s.word (base + 0x2100 + 8 * (st.linkSpilled - 1 - i))))

/-- R52, R176, R179 to R184, R188 to R194, R250: evictions, translations, page answers; a sector that opens under its region's
key id is read, or written in the bytes of its mask; a truncated reply meets the strand's current instruction; the host's
window; registers that the Kiln writes, injections and log entries. A dirty line with a failing word is discarded (log entry
56); the events that enable page requests again and give their number are the model's (log entry 57), and so is what an injection does (log entry
12). -/
def MemoryEvents : Prop :=
  (∀ (s : State) (p b t0 : Nat), s.arg = .n2 p b → (s.core p).bankIdle.find b = some t0 → t0 + 1024 ≤ s.cycle →
    ∃ t, exec .bankPowerOff s = .next t ∧ (t.core p).banks.get .off b = .off ∧ (t.core p).bankIdle.find b = none)
  ∧ (∀ (s : State) (p key : Nat) (l : L0Line), s.arg = .n2 p key → (s.core p).lines.find key = some l → isTable key = false →
    let kept : Bool := l.dirty && (List.range 8).all fun i => parityOf (blockWord l.diff i) == 0
    ∃ t, exec .l0Eviction s = .next t ∧ (t.core p).lines.find key = none
      ∧ ∀ k, t.byte k = if kept = true ∧ key ≤ k ∧ k < key + 64 then blockByte l.data (k - key) else s.byte k)
  ∧ (∀ (s : State) (e : TransEntry), s.arg = .trans e → ∃ t, exec .atsCompletion s = .next t
    ∧ (∀ x, x ∈ t.trans ↔ x = e ∨ (x ∈ s.trans ∧ ¬ (x.pasid = e.pasid ∧ x.vbase = e.vbase ∧ x.logSize = e.logSize)))
    ∧ ∀ q sk x, q ∈ s.pages → transCovers e q.pasid (4096 * q.page) = true → s.strand sk = some x →
      (q.stage ≠ .pri → q.stage ≠ .quiet → t.permits q = true → x.wait = .page q.pasid q.page q.need →
        t.strand sk = some { x with wait := .none, pageAns := none })
      ∧ (q.stage = .quiet → x.wait = .ats q.pasid q.page → t.strand sk = some { x with wait := .none, atsAns := some q.page }))
  ∧ (∀ (s : State) (pasid : BitVec 20) (v n : Nat), s.arg = .invalidate pasid v n → ∃ t, exec .atsInvalidation s = .next t
    ∧ (∀ x, x ∈ t.trans ↔ x ∈ s.trans ∧ ¬ (x.pasid = pasid ∧ x.vbase < v + 2 ^ n ∧ v < x.vbase + 2 ^ x.logSize))
    ∧ ∃ e ∈ t.agenda, e.ev = .atsInvalidation ∧ e.waits = s.outst)
  ∧ (∀ (s : State) (pasid v n : Nat), s.arg = .n3 pasid v n →
    (s.heldIn (BitVec.ofNat 20 pasid) v (2 ^ n) = true → exec .atsInvalidation s = .next (s.after 1 .atsInvalidation s.arg))
    ∧ (s.heldIn (BitVec.ofNat 20 pasid) v (2 ^ n) = false → ∃ t, exec .atsInvalidation s = .next t
      ∧ t = { s with invalidations := s.invalidations + 1, tokens := t.tokens } ∧ ((∀ k ∈ s.tokens, k.migration ≠ 2) → t.tokens = s.tokens)))
  ∧ (∀ (s : State) (pasid : BitVec 20) (page : Nat) (code : BitVec 4), s.arg = .page pasid page code →
    ∃ t, exec .priResponse s = .next t ∧ (code = 15 → t.pagesOn = false)
      ∧ (∀ sk x q, s.strand sk = some x → q ∈ s.pages → q.stage ≠ .quiet → x.wait = .page q.pasid q.page q.need →
        (code = 15 ∨ (q.sent = true ∧ q.pasid = pasid ∧ q.page = page ∧ (code ≠ 0 ∨ (s.transEntry pasid (4096 * page)).isSome = true))) →
        t.strand sk = some { x with wait := .none, pageAns := if code = 0 ∧ s.permits q = true then none else some (q.page, q.need, code) })
      ∧ (code = 0 → s.transEntry pasid (4096 * page) = none → t.strands = s.strands))
  ∧ (∀ (s : State) (on : Bool), s.arg = .flag on → ∃ t, exec .priResponse s = .next t ∧ t.pagesOn = on ∧ t.strands = s.strands)
  ∧ (∀ (s : State) (n : Nat), s.arg = .n1 n → ∃ t, exec .priResponse s = .next t ∧ t.pageAlloc = n ∧ t.strands = s.strands)
  ∧ (∀ (s : State) (r : MemReq), s.arg = .memReq r →
    let key := blockKey r.off
    let sound := Clean s key ∧ Opens s key (((s.regionAt key).map (·.keyid)).getD 0)
    (sound → ∃ t a, exec .memoryRead s = .next t ∧ SameMemory s t ∧ (∃ e ∈ t.agenda, e.ev = .readReply ∧ e.arg = .memAns a)
      ∧ a.number = r.number ∧ a.fault = none ∧ a.desc = s.desc key ∧ ∀ j, j < 64 → blockByte a.data j = s.byte (key + j))
    ∧ (r.byteMask = BitVec.allOnes 64 ∨ sound → isTable key = false → ∃ t a, exec .memoryWrite s = .next t
      ∧ (∃ e ∈ t.agenda, e.ev = .writeAcknowledgement ∧ e.arg = .memAns a) ∧ a.number = r.number ∧ a.fault = none
      ∧ ∀ k, t.byte k = if key ≤ k ∧ k < key + 64 ∧ r.byteMask.getLsbD (k - key) = true then blockByte r.data (k - key) else s.byte k))
  ∧ (∀ (s : State) (a : MemAns) (p : Nat), s.arg = .memAns a → a.by_ = .core p →
    (a.fault = none → (s.core p).lines.find a.off = none → (s.core p).lines.length < 1024 →
      (∃ t l, exec .readReply s = .next t ∧ SameMemory s t ∧ (t.core p).lines.find a.off = some l ∧ l.data = a.data ∧ l.desc = a.desc
        ∧ l.dirty = false ∧ l.diff = 0)
      ∧ ∃ t, exec .writeAcknowledgement s = .next t ∧ a.number ∉ t.outst ∧ SameMemory s t)
    ∧ (∀ f x, a.fault = some f → s.strand a.number = some x → x.sk = a.number →
      exec .readReply s = .next (s.setStrand { x with cut := some f.sub })
      ∧ exec .writeAcknowledgement s = .next (s.setStrand { x with cut := some f.sub })))
  ∧ (∀ (s : State) (base : Word) (b n : Nat), (s.arg = .word 0 base → ∃ t, exec .hostBar2Access s = .next t
      ∧ t.devwin.toNat = base.toNat / 2 ^ 41 * 2 ^ 41 ∧ SameMemory s t)
    ∧ (s.arg = .n2 b n → exec .hostBar2Access s = .next { s with cxlRanges := (b, n) :: s.cxlRanges }))
  ∧ (∀ (s : State) (off tag : Nat) (v : BitVec 64), s.powerOff = false → isVisible off = true →
    (s.arg = .bar2 off none tag → ∃ t r, exec .hostBar2Access s = .next t ∧ (∃ e ∈ t.agenda, e.ev = .memoryRead ∧ e.arg = .memReq r)
      ∧ r.off = off ∧ r.number = tag ∧ r.by_ = .host tag)
    ∧ (s.arg = .bar2 off (some v) tag → ∃ t r, exec .hostBar2Access s = .next t
      ∧ (∃ e ∈ t.agenda, e.ev = .memoryWrite ∧ e.arg = .memReq r) ∧ r.off = off ∧ r.by_ = .host tag
      ∧ ∀ j, j < 64 → (r.byteMask.getLsbD j = decide (off / 8 * 8 % 64 ≤ j ∧ j < off / 8 * 8 % 64 + 8))
        ∧ (r.byteMask.getLsbD j = true → blockByte r.data j = byteOf v (j - off / 8 * 8 % 64))))
  ∧ (∀ (s : State) (off tag : Nat) (w : Option (BitVec 64)), s.powerOff = false → isVisible off = false → s.arg = .bar2 off w tag →
    exec .hostBar2Access s = .fault .noSuchAddress)
  ∧ (∀ (s : State) (c n : Nat) (v : Word), c < 32 → n < 7 → s.arg = .word (0x2000000 + 0x10000 * c + 0xA100 + 8 * n) v →
    ∃ t, exec .registerWrite s = .next t ∧ SameMemory s t ∧ t.strands = s.strands
      ∧ ∀ c' n', n' < 7 → (t.cluster c').count n' = if c' = c ∧ n' = n then v else (s.cluster c').count n')
  ∧ (∀ (s : State) (p addr pos : Nat) (v : Word), p < 544 → addr < 2 ^ 23 → pos < 64 → addr % 8 = 0 →
    v = BitVec.ofNat 64 (2 ^ 63 + 2 ^ 48 * pos + addr) → s.arg = .word (0x1000000 + 0x1000 * p + 0xC00) v →
    ∃ t, exec .errorInjection s = .next t ∧ t.strands = s.strands
      ∧ ∀ k, t.byte k = if k = vaultKey p addr + pos / 8 then s.byte k ^^^ (1#8 <<< (pos % 8)) else s.byte k)
  ∧ (∀ (s : State) (p ar e : Nat) (v : Word), p < 544 → ar < 6 → e < 16 → s.arg = .word (0x1000000 + 0x1000 * p + 0x200 * ar + 32 * e) v →
    ∃ t, exec .logEntryClear s = .next t ∧ SameMemory s t
      ∧ t.logs (.core p ar) e = { s.logs (.core p ar) e with w0 := (s.logs (.core p ar) e).w0 &&& ~~~(v &&& 0xC000000000000000) })

/-- R246 to R250, R353: a port sends the next flit of its highest class that can, numbered, and keeps it; a good flit in its
turn is acknowledged, and a packet whose only flit it is happens, or goes on by the next port where its router is not its
destination's; a bad one is asked for again, and sent again; a packet
without a further flit for 4,096 cycles is closed. When a port sends is the model's reading (log entry 19). -/
def LinkEvents : Prop :=
  (∀ (s : State) (p c : Nat) (f : Flit), s.arg = .n3 p 0 0 → (s.link p).stopped = false → (portEnd p).isSome = true →
    (s.link p).bar = false ∨ c = 2 ∨ ((s.link p).class_ c).current ≠ 0 →
    c ≤ 2 → ((s.link p).class_ c).ready = true → (∀ c', c' < c → ((s.link p).class_ c').ready = false) →
    ((s.link p).class_ c).next = some f → ∃ t f', exec .flitSend s = .next t
      ∧ (∃ e ∈ t.agenda, e.ev = .flitArrival ∧ e.due = s.cycle + 1 ∧ e.arg = .flit p f')
      ∧ f'.payload = f.payload ∧ flitSeq f' = ((s.link p).class_ c).seq ∧ flitHead f' = flitHead f ∧ flitTail f' = flitTail f
      ∧ ((t.link p).class_ c).queue = ((s.link p).class_ c).queue.erase f
      ∧ ((t.link p).class_ c).current = (if flitTail f = true then 0 else f.parcel) ∧ ((t.link p).class_ c).seq = ((s.link p).class_ c).seq + 1
      ∧ ((t.link p).class_ c).retryBuf = ((s.link p).class_ c).retryBuf ++ [(((s.link p).class_ c).seq, f', 1)])
  ∧ (∀ (s : State) (p : Nat) (f : Flit), s.arg = .flit p f → (s.link p).stopped = false → flitCls f ≤ 2 →
    let c := flitCls f
    (flitCrcOk f = false → ((s.link p).class_ c).sent (flitSeq f) < 8 →
      exec .flitArrival s = .next (s.send 0 .negativeAcknowledge (.n3 p c (flitSeq f).toNat)))
    ∧ (flitCrcOk f = true → flitSeq f ≠ ((s.link p).class_ c).nextSeq → exec .flitArrival s = .next s)
    ∧ (flitCrcOk f = true → flitSeq f = ((s.link p).class_ c).nextSeq → ((s.link p).class_ c).active = false →
      flitHead f = true → flitTail f = true → flitAbort f = false → kindClass (hdrKind (f.payload.extractLsb' 0 192)) = some c →
      let here := portEnd p = some (hdrRouter (f.payload.extractLsb' 0 192))
      ∃ t, exec .flitArrival s = .next t ∧ ((t.link p).class_ c).nextSeq = flitSeq f + 1 ∧ ((t.link p).class_ c).active = false
        ∧ (∃ e ∈ t.agenda, e.ev = .flitAcknowledge ∧ e.arg = .n3 p c (flitSeq f).toNat)
        ∧ (here → ∀ e ∈ s.agenda, e.parcel = f.parcel → f.parcel ≠ 0 → { e with parcel := 0 } ∈ t.agenda)
        ∧ (¬ here → ∃ q, { f with via := some p } ∈ ((t.link q).class_ c).queue)))
  ∧ (∀ (s : State) (p c n : Nat) (sq : BitVec 5) (f : Flit), s.arg = .n3 p c sq.toNat → ((s.link p).class_ c).retryBuf = [(sq, f, n)] →
    (n < 8 → ∃ t, exec .negativeAcknowledge s = .next t ∧ ((t.link p).class_ c).retryBuf = [(sq, f, n + 1)]
      ∧ (∃ e ∈ t.agenda, e.ev = .flitArrival ∧ e.due = s.cycle + 1 ∧ ∃ f', e.arg = .flit p f' ∧ f'.payload = f.payload ∧ flitSeq f' = sq)
      ∧ (t.cluster (portCluster p)).retry = (s.cluster (portCluster p)).retry + 1)
    ∧ ∃ t, exec .flitAcknowledge s = .next t ∧ ((t.link p).class_ c).retryBuf = [])
  ∧ (∀ (s : State) (p c : Nat) (x : LinkClass), s.arg = .n2 p c → (s.link p).cls.find c = some x → x.active = true →
    x.since + 4096 ≤ s.cycle → ∃ t, exec .truncationTimeout s = .next t ∧ ((t.link p).class_ c).active = false)

/-- R18, R21, R377 to R381, R391, R407: heartbeats, the third missed window of a core, its spare or its retirement; timing
sentinels and the supply, which reads SENT and clears it (log entry 24); the counts of a cluster. -/
def HealthEvents : Prop :=
  (∀ (s : State) (p : Nat), s.arg = .n1 p →
    (∃ t, exec .coreStop s = .next t ∧ (t.core p).stopped = true ∧ t.strands = s.strands)
    ∧ (∃ t, exec .heartbeat s = .next t ∧ ((s.core p).dead = false → (t.core p).beat = true) ∧ ((s.core p).dead = true → t = s))
    ∧ (∃ t, exec .sentinelReplay s = .next t ∧ (t.core p).sent = (s.core p).sent + 1
      ∧ (t.cluster (p / 17)).sentcl = (s.cluster (p / 17)).sentcl + 1 ∧ t.strands = s.strands)
    ∧ (∃ t, exec .coreWake s = .next t ∧ (t.core p).gated = false ∧ (t.cluster (p / 17)).gated = false))
  ∧ (∀ (s : State) (w k : Nat), s.arg = .n2 w k → k < 544 → ∃ t, exec .heartbeatSend s = .next t
    ∧ (s.beats (17 * (k % 32) + k / 32) = true → ∃ e ∈ t.agenda, e.ev = .heartbeat ∧ e.arg = .n1 (17 * (k % 32) + k / 32) ∧ e.due = s.cycle + 1)
    ∧ (k < 543 → ∃ e ∈ t.agenda, e.ev = .heartbeatSend ∧ e.arg = .n2 w (k + 1) ∧ e.due = 4096 * w + 8 * ((k + 1) / 32))
    ∧ (k = 543 → ∃ e ∈ t.agenda, e.ev = .heartbeatWindowEnd ∧ e.arg = .n1 w ∧ e.due = 4096 * (w + 1)))
  ∧ (∀ (s : State) (w : Nat), s.arg = .n1 w → ∃ t, exec .heartbeatWindowEnd s = .next t
    ∧ ∀ p, p < 544 → (s.core p).dead = false →
      ((s.core p).beat = true → (t.core p).beat = false ∧ (t.core p).missed = 0 ∧ (t.core p).dead = false)
      ∧ ((s.core p).beat = false → (s.core p).gated = false →
        ((s.core p).missed = 2 → (t.core p).dead = true ∧ ∃ e ∈ t.agenda, e.ev = .spareRemap ∧ e.arg = .n1 p)
        ∧ ((s.core p).missed ≠ 2 → (t.core p).missed = (s.core p).missed + 1 ∧ (t.core p).dead = false)))
  ∧ (∀ (s : State) (c pos : Nat), s.arg = .n1 (17 * c + pos) → pos < 16 → s.spares.find c = none → (s.core (17 * c + pos)).dead = true →
    (s.core (17 * c + pos)).retired = false →
    ((s.core (17 * c + 16)).dead = false → ∃ t, exec .spareRemap s = .next t ∧ t.spares.find c = some pos
      ∧ t.physical (16 * c + pos) = some (17 * c + 16)
      ∧ ((s.lcore (16 * c + pos)).copy = [] → ∀ a, a < 2 ^ 23 → t.byte (vaultKey (17 * c + 16) a) = 0))
    ∧ ((s.core (17 * c + 16)).dead = true → ∃ t, exec .spareRemap s = .next t ∧ t.isRetired (16 * c + pos) = true))
  ∧ (∀ (s : State) (w q : Nat), s.arg = .n1 w → q < 4 → (∀ p, (s.core p).sent.toNat < 1024) → ∃ t, exec .supplyAdjust s = .next t
    ∧ (∃ e ∈ t.agenda, e.ev = .supplyAdjust ∧ e.arg = .n1 (w + 1) ∧ e.due = 2 ^ 20 * (w + 2))
    ∧ ((∃ p, p / 136 = q ∧ 64 ≤ (s.core p).sent.toNat ∧ 1 ≤ (s.core p).noisy) →
        t.supply.get 675 q = min 740 (s.supply.get 675 q + 5))
    ∧ ((∀ p, p / 136 = q → 4 ≤ (s.core p).sent.toNat ∧ (s.core p).sent.toNat < 64) → t.supply.get 675 q = s.supply.get 675 q)
    ∧ ∀ p, p / 136 = q → (t.core p).sent = 0)
  ∧ (∀ (s : State) (c n : Nat), s.arg = .n2 c n → c < 32 → n < 7 → ∃ t, exec .healthEvent s = .next t
    ∧ ∀ c' n', n' < 7 → (t.cluster c').count n' = (s.cluster c').count n' + if c' = c ∧ n' = n then 1 else 0)
  ∧ (∀ (s : State) (u : Nat), s.arg = .n1 u → u < 8 → ∃ t, exec .refreshFault s = .next t
    ∧ (t.cluster (8 * (u / 2) + 4 + 2 * (u % 2))).uncorr = (s.cluster (8 * (u / 2) + 4 + 2 * (u % 2))).uncorr + 1)

/-- R32, R34, R373: a budget period begins with its counters at 0; an idle cluster is gated with its lines clean, the Kiln
once every cluster is; power above the cap stops admission when nothing can give way; at shutdown every strand is lost. What a
maximum is lowered to is a free value (log entry 2); the number of the cause is the model's (log entry 54). -/
def PowerEvents : Prop :=
  (∀ (s : State) (p : Nat), s.arg = .n1 p → ∃ t, exec .budgetPeriodStart s = .next t
    ∧ (∃ e ∈ t.agenda, e.ev = .budgetPeriodStart ∧ e.arg = .n1 (p + 1) ∧ e.due = 8192 * (p + 1))
    ∧ (∀ k, (t.core k).issued = []) ∧ (∀ c, (t.cluster c).flits = [] ∧ (t.cluster c).sectors = [])
    ∧ ∀ id b i f m, s.scb id = some b → b.capped = some (i, f, m) →
        t.scb id = some { b with issmax := i, fltmax := f, memmax := m, capped := none })
  ∧ (∀ (s : State) (c : Nat), s.arg = .n1 c → c < 32 → s.clusterIdle c = true → (s.cluster c).gated = false →
    s.idleAt.get 0 c + 2 ^ 20 ≤ s.cycle → ∃ t, exec .clusterGate s = .next t ∧ (t.cluster c).gated = true
      ∧ ∀ p, p / 17 = c → (t.core p).gated = true ∧ ∀ k l, (t.core p).lines.find k = some l → l.dirty = false)
  ∧ (∀ s : State, (∀ c, c < 32 → (s.cluster c).gated = true) → s.undispatched = false → s.kiln.mode = 1 → s.kiln.gated = false →
    exec .kilnGate s = .next (s.modKiln fun k => { k with gated := true }))
  ∧ (∀ s : State, s.kiln.gated = true → s.kiln.latchOrder = [] → ∃ t, exec .wakeSequence s = .next t ∧ t.kiln.gated = false
    ∧ t.strands = s.strands)
  ∧ (∀ s : State, (∀ kv ∈ s.scopes, kv.2.lowerable = false) →
    (∃ t, exec .thermalLimit s = .next t ∧ t.noAdmit = true ∧ t.strands = s.strands)
    ∧ (s.arg = .flag true → ∃ t, exec .modulePowerCrossesCap s = .next t ∧ t.noAdmit = true ∧ t.strands = s.strands))
  ∧ (∀ s : State, s.arg = .flag false → ∃ t, exec .modulePowerCrossesCap s = .next t ∧ t.noAdmit = false ∧ t.strands = s.strands)
  ∧ (∀ s : State, ∃ t, exec .thermalShutdown s = .next t ∧ t.powerOff = true ∧ t.kiln.mode = 3 ∧ t.kiln.cause = 3 ∧ t.strands = []
    ∧ t.scopes = [] ∧ t.tokens = [] ∧ t.trans = [] ∧ t.kiln.saves = [] ∧ t.kiln.queues = [] ∧ t.unitLogs = [] ∧ ∀ k, isHost k = true → t.byte k = s.byte k)

end Sys2Proof.Claims

/-! ### The Kiln -/

namespace Sys2Proof.Claims

/-- A sector that hardware reads without a fault: host memory, or a sound sector of device memory that the key id of its
region opens. -/
abbrev SoundSector (s : State) (k : Nat) : Prop :=
  isHost k = true ∨ (isTable k = false ∧ Clean s k ∧ Opens s k (((s.regionAt k).map (·.keyid)).getD 0))

/-- The other harts are as they were, but for a load-reserve's reservation that a store to the SRAM may end and for the
signals `sig`, which become pending in hart 0 (log entry 36). -/
def SameHarts (s t : State) (sig : BitVec 9) : Prop :=
  ∀ h, h ≠ s.curHart → ∃ r, (r = (s.hart h).reservation ∨ r = none) ∧
    t.hart h = { s.hart h with reservation := r, pending := (s.hart h).pending ||| (if h = 0 then sig else 0) }

/-- The current hart has completed an instruction: x[d] holds `v` (x0 stays 0), its pc is 4 further, the other harts (but for
the signals `sig` of hart 0) and every strand are as they were. -/
structure HartNext (s t : State) (d : BitVec 5) (v : Word) (sig : BitVec 9 := 0) : Prop where
  reg : ∀ r, (t.hart s.curHart).reg r = if r = d ∧ r ≠ 0 then v else (s.hart s.curHart).reg r
  pc : (t.hart s.curHart).pc = (s.hart s.curHart).pc + 4
  saved : (t.hart s.curHart).mcause = (s.hart s.curHart).mcause ∧ (t.hart s.curHart).mtval = (s.hart s.curHart).mtval
    ∧ (t.hart s.curHart).mepc = (s.hart s.curHart).mepc ∧ (t.hart s.curHart).mtvec = (s.hart s.curHart).mtvec
  others : SameHarts s t sig
  strands : t.strands = s.strands

/-- The current hart has met an exception: cause, value and the address of the instruction are saved, and it goes on at its
trap vector; x[d] holds `v`, every other register is as it was. -/
structure HartTraps (s t : State) (cause val : Word) (d : BitVec 5) (v : Word) : Prop where
  mcause : (t.hart s.curHart).mcause = cause
  mtval : (t.hart s.curHart).mtval = val
  mepc : (t.hart s.curHart).mepc = (s.hart s.curHart).pc
  pc : (t.hart s.curHart).pc = (s.hart s.curHart).mtvec &&& ~~~3#64
  reg : ∀ r, (t.hart s.curHart).reg r = if r = d ∧ r ≠ 0 then v else (s.hart s.curHart).reg r
  mtvec : (t.hart s.curHart).mtvec = (s.hart s.curHart).mtvec
  others : SameHarts s t 0
  strands : t.strands = s.strands

/-- The 128 bytes `b` stand at an address of the SRAM; every other byte is as it was. -/
def InSram (s t : State) (addr : Word) (b : List Byte) : Prop :=
  ∀ k, t.byte k = if 2 ^ 68 + addr.toNat ≤ k ∧ k < 2 ^ 68 + addr.toNat + 128 then b[k - (2 ^ 68 + addr.toNat)]?.getD 0 else s.byte k

/-- The 128 bytes `b` of a queue's entry stand at the virtual address RINGVA + HEAD of its tenant, in host memory or in two
sound sectors of device memory, which the Kiln may read (R9; log entry 36). -/
def RingHolds (s : State) (c : QcbCopy) (b : List Byte) : Prop :=
  let va := c.ringva + c.head.setWidth 64
  ∃ r key, s.root (c.tenant.setWidth 12) = some r ∧ s.ringPage c = none ∧ va.toNat % 128 = 0 ∧ s.rawKey r.pasid va = some key
    ∧ s.rawKey r.pasid (va + 64) = some (key + 64) ∧ key % 64 = 0 ∧ isVault key = false ∧ SoundSector s key
    ∧ SoundSector s (key + 64) ∧ b = s.bytes key 128

/-- R359: KRF refuses a queue number above 4,095 and a bad address, finds a queue EMPTY or stops it as STRADDLE, and else
brings the entry at its head to the SRAM with HEAD in x[d]; a malformed or unknown entry is brought, and reported. The entry
is read at the virtual address RINGVA + HEAD of the tenant: KRF waits for a page that it may not read yet, and raises an
access fault where the answer did not help (log entry 36). -/
def QueueFetch (s : State) (t a d : BitVec 5) : Prop :=
  let q := (s.hart s.curHart).reg a
  let addr := (s.hart s.curHart).reg t
  let traps (cause val : Word) : Prop := ∃ u, exec (.krf t a d) s = .next u ∧ HartTraps s u cause val 0 0 ∧ SameMemory s u
  (4095 < q.toNat → traps 24 q)
  ∧ (q.toNat ≤ 4095 → addr.toNat % 128 ≠ 0 → traps 6 addr)
  ∧ (q.toNat ≤ 4095 → addr.toNat % 128 = 0 → addr.toNat < 2 ^ 21 →
    (s.kiln.queues.find q.toNat = none → traps 27 q)
    ∧ ∀ x, s.kiln.queues.find q.toNat = some x →
      let c : QcbCopy := if x.gen.getLsbD 1 = true then x.b else x.a
      let tail := s.kiln.tails.get 0 q.toNat
      let straddle := c.head.toNat % 128 ≠ 0 ∨ c.ringsize.toNat % 128 ≠ 0 ∨ tail.toNat % 128 ≠ 0 ∨ c.ringsize.toNat ≤ c.head.toNat
      (x.gen.getLsbD 0 = true ∨ c.state ≠ 1 → traps 27 q)
      ∧ (x.gen.getLsbD 0 = false → c.state = 1 →
        (straddle → ∃ u, exec (.krf t a d) s = .next u ∧ HartTraps s u 26 q 0 0 ∧ SameMemory s u
          ∧ u.hostQueueStatus q.toNat = BitVec.ofNat 64 (2 ^ 32 * c.head.toNat + 2 ^ 16 * 26 + 2))
        ∧ (¬ straddle → c.head = tail → traps 27 q)
        ∧ (¬ straddle → c.head ≠ tail → ∀ pg, s.ringPage c = some pg →
          let asked := (s.hart s.curHart).asked = some pg
          let open_ := ∃ p ∈ s.pages, p.pasid = pg.1 ∧ p.page = pg.2 ∧ p.need = 1 ∧ p.stage ≠ .quiet
          (¬ asked ∨ open_ → exec (.krf t a d) s = .next ((s.askPage pg.1 pg.2 1).modHart s.curHart fun x =>
            { x with asked := some pg, since := s.cycle }))
          ∧ (asked → ¬ open_ → traps 5 c.entryVa))
        ∧ (∀ b, ¬ straddle → c.head ≠ tail → RingHolds s c b →
          let head : Word := c.head.setWidth 64
          let opcode := number (b.drop 8 |>.take 2)
          let known := 1 ≤ opcode ∧ opcode ≤ 0xD
          (entryOk c b = false → ∃ u, exec (.krf t a d) s = .next u ∧ HartTraps s u 24 q d head ∧ InSram s u addr b)
          ∧ (entryOk c b = true → ¬ known → ∃ u, exec (.krf t a d) s = .next u ∧ HartTraps s u 25 q d head ∧ InSram s u addr b)
          ∧ (entryOk c b = true → known → ∃ u, exec (.krf t a d) s = .next u ∧ HartNext s u d head ∧ InSram s u addr b
            ∧ u.kiln.queues = s.kiln.queues))))

/-- R363: KDSP refuses a cluster above 31 and a record with a reserved bit set; the Wheel answers 2 outside a running
partition, 1 when it is full, else 0: then the log has TAG and cluster, and every rank leaves for its core with a weight of
2^16 that the scope's home has issued. Its answer is also the signal WHEEL, bit 1 (log entry 6). -/
def RecordSends (s : State) (t a d : BitVec 5) : Prop :=
  let addr := (s.hart s.curHart).reg a
  let cl := (s.hart s.curHart).reg t
  let w (i : Nat) : Word := s.word (2 ^ 68 + addr.toNat + 8 * i)
  let reserved := (w 0).extractLsb' 48 4 ≠ 0 ∨ (w 1).extractLsb' 24 8 ≠ 0 ∨ (w 1).extractLsb' 48 16 ≠ 0 ∨ w 7 ≠ 0
  let first := (w 2).toNat % 2 ^ 16
  let n := (w 2).toNat / 2 ^ 16 % 2 ^ 16
  let full := ∃ i p, i < n ∧ s.physical (first + i) = some p ∧ 256 ≤ (s.core p).overflow.length
  addr.toNat % 64 = 0 → addr.toNat < 2 ^ 21 →
    (31 < cl.toNat ∨ reserved → ∃ u, exec (.kdsp t a d) s = .next u ∧ HartTraps s u 24 addr 0 0 ∧ SameMemory s u)
    ∧ (cl.toNat ≤ 31 → ¬ reserved →
      (s.quadRuns (cl.toNat / 8) = false → ∃ u, exec (.kdsp t a d) s = .next u ∧ HartNext s u d 2 2 ∧ u.kiln.log = s.kiln.log)
      ∧ (s.quadRuns (cl.toNat / 8) = true → full →
          ∃ u, exec (.kdsp t a d) s = .next u ∧ HartNext s u d 1 2 ∧ u.kiln.log = s.kiln.log)
      ∧ ∀ id : ScopeId, s.quadRuns (cl.toNat / 8) = true → ¬ full → id = (w 1).setWidth 24 → s.isQuanta id = false → Named s →
        ∃ u, exec (.kdsp t a d) s = .next u ∧ HartNext s u d 0 2 ∧ SameMemory s u ∧ u.kiln.log = s.kiln.log ++ [(w 0, cl.toNat)]
          ∧ (∀ b, s.scb id = some b → (u.scope id).outw = b.outw + n * 2 ^ 16 ∧ (u.scope id).issued = b.issued + n * 2 ^ 16)
          ∧ ∀ i, i < n → ∃ e ∈ u.agenda, ∃ c, e.ev = .start ∧ e.arg = .ctx (first + i) none c ∧ c.scope = id
            ∧ c.pc = (w 1).extractLsb' 32 16 ∧ c.x = [w 3, w 4, w 5, w 6, 0, 0, 0, 0] ∧ c.weight = 2 ^ 16
            ∧ c.rank.toNat = ((w 2).toNat / 2 ^ 32 + i) % 2 ^ 16)

end Sys2Proof.Claims

/-- R361: KBFX writes the w bits of x[a] from bit lo on to x[d], zeros above them and for bits above bit 63; w = 0 means 64, and
the other bits of x[t] have no influence. It raises nothing, and nothing else changes. -/
def Obligations.BitFields : Prop :=
  ∀ (s : State) (t a d : BitVec 5), s.curHart < 4 →
    let x := s.hart s.curHart
    let lo := (x.reg t).toNat % 64
    let w := (x.reg t).toNat / 256 % 64
    ∃ u v, exec (.kbfx t a d) s = .next u ∧ HartNext s u d v ∧ SameMemory s u
      ∧ ∀ j, j < 64 → v.getLsbD j = ((decide (j < w) || w == 0) && (x.reg a).getLsbD (lo + j))

/-- R359, R362, R363: KRF, KSWT and KDSP, each with its exceptions. KSWT writes the pending signals of its mask and clears
them, and waits while there are none. Causes 4 to 7, the page that KRF waits for, the reservations that a store ends and the
hart that gets a signal are the model's (log entries 6 and 36). -/
def Obligations.KilnInstructions : Prop :=
  ∀ (s : State) (t a d : BitVec 5), s.curHart < 4 →
    let x := s.hart s.curHart
    QueueFetch s t a d ∧ RecordSends s t a d
    ∧ (let mask := x.reg a
      let got := x.pending.setWidth 64 &&& mask
      (mask = 0 ∨ got ≠ 0 → ∃ u, exec (.kswt a d) s = .next u ∧ HartNext s u d got ∧ SameMemory s u
        ∧ ∀ j, j < 9 → (u.hart s.curHart).pending.getLsbD j = (x.pending.getLsbD j && !mask.getLsbD j))
      ∧ (mask ≠ 0 → got = 0 → exec (.kswt a d) s = .next (s.modHart s.curHart fun x => { x with waiting := true })))

/-! ### The host's commands -/

namespace Sys2Proof.Claims

/-- R356: a completion record of 32 bytes: DONE, CODE, LATE; TAG; RESULT 0; the time. Every other byte is as it was. -/
def CompletionRecord : Prop :=
  ∀ (s : State) (c : HostCmd) (code : BitVec 15),
    let k := s.keyOf c.compl.toNat
    let t := s.answerHost c code
    (∀ j, j < 32 → SoundSector s (blockKey (k + j))) →
    t.word k = BitVec.ofNat 64 (2 ^ 63 + 2 ^ 48 * code.toNat + if c.deadline.toNat < s.ktime then 2 ^ 47 else 0)
    ∧ t.word (k + 8) = c.tag ∧ t.word (k + 16) = 0 ∧ t.word (k + 24) = BitVec.ofNat 64 s.ktime
    ∧ (∀ x, (x < k ∨ k + 32 ≤ x) → t.byte x = s.byte x)
    ∧ t = { s with mem := t.mem, errs := t.errs, badTags := t.badTags, seals := t.seals }

/-- R311: with the launches that are there, a scope's issue minimum fits on each of its cores and its flit and memory
minimums in each of their clusters. -/
def Fits (s : State) (first n : Nat) (b : Scb) : Prop :=
  let sum (f : Scb → BitVec 16) (lo hi : Nat) : Nat :=
    ((s.launches.filter fun kv => max kv.2.first lo < min (kv.2.first + kv.2.count) hi).map fun kv =>
      (f (s.scope (BitVec.ofNat 24 kv.1))).toNat).sum
  s.noAdmit = false ∧ ∀ l, first ≤ l → l < first + n →
    sum (·.issmin) l (l + 1) + b.issmin.toNat ≤ 7168
    ∧ sum (·.fltmin) (l / 16 * 16) (l / 16 * 16 + 16) + b.fltmin.toNat ≤ 7168
    ∧ sum (·.memmin) (l / 16 * 16) (l / 16 * 16 + 16) + b.memmin.toNat ≤ 7168

/-- A command of a tenant that has a root, taken in a phase of it. -/
abbrev Command (s : State) (c : HostCmd) (r : Scb) (phase : Nat) : Prop := s.arg = .host c phase ∧ s.root c.tenant = some r

/-- R266, R311, R355: LAUNCH admits a scope below the tenant's root and has its image loaded, waits while its minimums do not
fit, and refuses cores outside 0 to 511. R355: CANCEL, SWITCH_OUT and SWITCH_IN of an own scope; NOP. The lowest free
identifier is the model's choice (log entry 9). -/
def HostScopes : Prop :=
  ∀ (s : State) (c : HostCmd) (r : Scb) (phase : Nat), Command s c r phase →
    exec .nopCommand s = .next (s.answerHost c 0)
    ∧ (∀ first n, (hostArg c 1).toNat = first + 512 * n → first < 512 → n < 1024 →
      (n = 0 ∨ 512 < first + n → exec .launch s = .next (s.answerHost c 10))
      ∧ (∀ id, 1 ≤ n → first + n ≤ 512 → (hostArg c 2).toNat < 256 → hostArg c 8 = 0 → s.freeScope (first / 16) = some id →
        r.tier.toNat ≤ c.tier.toNat % 4 → Named s →
        let b : Scb := { r.child id 0 0 with tier := c.tier.setWidth 2, deadline := c.deadline, pweight := 2 ^ 16 }
        (Fits s first n b → ∃ t q, exec .launch s = .next t ∧ SameMemory s t ∧ t.scb id = some b ∧ (t.scope r.id).outw = r.outw + 2 ^ 16
          ∧ t.launches.find id.toNat = some { first := first, count := n, compl := c.compl, tag := c.tag, deadline := c.deadline, tenant := c.tenant }
          ∧ (∃ e ∈ t.agenda, e.ev = .imageLoad ∧ e.arg = .load q) ∧ q.image = hostArg c 0 ∧ q.first = first ∧ q.count = n
          ∧ q.entry = (hostArg c 2).toNat ∧ q.args = [hostArg c 4, hostArg c 5, hostArg c 6, hostArg c 7] ∧ q.scope = id
          ∧ q.pasid = r.pasid ∧ q.tenant = c.tenant ∧ q.member = false ∧ q.skip = c.skip)
        ∧ (¬ Fits s first n b → exec .launch s = .next (s.after 64 .launch (.host c phase)))))
    ∧ ∀ b, s.scb b.id = some b → hostArg c 0 = b.id.setWidth 64 →
      (b.tenant ≠ c.tenant → exec .cancel s = .next (s.answerHost c 10) ∧ exec .switchOut s = .next (s.answerHost c 10)
        ∧ exec .switchIn s = .next (s.answerHost c 10))
      ∧ (b.tenant = c.tenant → Named s →
        (∃ t, exec .cancel s = .next (t.answerHost c 0) ∧ Cancels s t b.id)
        ∧ (phase = 0 → b.saved = true → exec .switchOut s = .next (s.answerHost c 10))
        ∧ (phase = 0 → b.saved = false → ∃ t, exec .switchOut s = .next t ∧ (∀ d ∈ s.descendants b.id, (t.scope d).saved = true)
          ∧ SameMemory s t ∧ (∃ e ∈ t.agenda, e.ev = .preemptionRequest ∧ e.arg = .scopeAt b.id 0)
          ∧ ∃ e ∈ t.agenda, e.ev = .switchOut ∧ e.due = s.cycle + 64 ∧ e.arg = .host c 1)
        ∧ (phase = 1 → b.id ∉ s.kiln.noResume → s.allSaved b.id = true →
          ∃ t : State, exec .switchOut s = .next (t.answerHost c 0) ∧ t.strands = s.strands ∧ t.scopes.map (·.1) = s.scopes.map (·.1))
        ∧ (b.saved = false → exec .switchIn s = .next (s.answerHost c 10))
        ∧ (b.saved = true → (∀ e ∈ s.agenda, e.ev ≠ .switchOut) → s.switchOf b.id = b.id → b.id ∉ s.kiln.noResume →
          ∃ t, exec .switchIn s = .next (t.answerHost c 0) ∧ (∀ d ∈ s.descendants b.id, (t.scope d).saved = false) ∧ SameMemory s t
            ∧ ∀ n sv, s.kiln.saves.find n = some sv → sv.top = b.id →
              ∃ e ∈ t.agenda, e.ev = .preemptionRestore ∧ e.arg = .n1 n))

/-- R183, R226, R346, R355: REGION_CREATE enters a token, FREE or parked with an own scope; REGION_DESTROY removes one that is
FREE or parked; MIGRATE withholds the region, writes its lines out of every L0, copies it to its new backing, where it waits
for a page that it may not read yet, and, once the host has replaced the translation, gives the token its state back. -/
def HostRegions : Prop :=
  ∀ (s : State) (c : HostCmd) (r : Scb) (phase : Nat) (reg : Region), Command s c r phase → decodeRegion (hostArg c 0) = some reg →
    let meets := ∃ k ∈ s.tokens, k.reg.vault = reg.vault ∧ (reg.vault = true ∨ k.pasid = r.pasid) ∧ k.reg.meets reg = true
    let scope := hostArg c 3
    let system := reg.vault = true ∧ 0x600000 < reg.base % 2 ^ 23 + 2 ^ reg.k
    (meets ∨ system → exec .regionCreate s = .next (s.answerHost c 10))
    ∧ (¬ meets → ¬ system → (hostArg c 1).toNat < 4096 → (hostArg c 2).toNat < 2 →
      scope = 0 ∨ (scope.toNat < 2 ^ 24 ∧ ∃ b, s.scb (scope.setWidth 24) = some b ∧ b.tenant = c.tenant) →
      (2 ^ 24 ≤ s.tokens.length → exec .regionCreate s = .next (s.answerHost c 5))
      ∧ (s.tokens.length < 2 ^ 24 → ∃ t k, exec .regionCreate s = .next (t.answerHost c 0) ∧ SameMemory s t
        ∧ t.tokens = s.tokens ++ [k] ∧ k.region = reg.dirWord ∧ k.pasid = r.pasid ∧ k.keyid = (hostArg c 1).setWidth 12
        ∧ (k.integ = true ↔ hostArg c 2 = 1) ∧ (scope = 0 → k.state = .free)
        ∧ (scope ≠ 0 → k.state = .held ∧ k.owner = scopeParty (scope.setWidth 24))))
    ∧ ∀ k, s.token reg r.pasid = some k →
      let free := k.state = .free ∨ (k.state = .held ∧ k.owner.kind = .scope)
      (¬ free → exec .regionDestroy s = .next (s.answerHost c 10))
      ∧ (free → ∃ t : State, exec .regionDestroy s = .next (t.answerHost c 0) ∧ t.tokens = s.tokens.filter fun x => !x.isFor reg r.pasid)
      ∧ (let new := (hostArg c 1).toNat
        let size := 2 ^ reg.k
        let visible := isVisible new = true ∧ isVisible (new + size - 1) = true
        (phase = 0 → reg.vault = true ∨ k.state = .reclaiming ∨ new % size ≠ 0 ∨ ¬ visible →
          exec .migrate s = .next (s.answerHost c 10))
        ∧ (phase = 0 → reg.vault = false → k.state ≠ .reclaiming → new % size = 0 → visible → ∃ t, exec .migrate s = .next t
          ∧ t.token reg r.pasid = some { k with state := .reclaiming, prior := k.state, migration := 1 }
          ∧ (∀ x ∈ s.tokens, x.pasid = r.pasid → x.reg.vault = false → reg.base ≤ x.reg.base →
              x.reg.base + 2 ^ x.reg.k ≤ reg.base + size → x.state ≠ .reclaiming →
              { x with state := .reclaiming, prior := x.state, migration := 1 } ∈ t.tokens)
          ∧ ∃ e ∈ t.agenda, e.ev = .migrate ∧ e.arg = .host c 1)
        ∧ (phase = 1 → s.cellsIn reg r.pasid = true → exec .migrate s = .next (s.after 1 .migrate (.host c 1)))
        ∧ (phase = 1 → s.cellsIn reg r.pasid = false → ∃ t, exec .migrate s = .next t
          ∧ (∃ e ∈ t.agenda, e.ev = .migrate ∧ e.arg = .host c 3) ∧ WroteOut s t (fun _ => True) reg r.pasid
          ∧ (∀ p, t.linesOf p reg r.pasid = []) ∧ t.tokens = s.tokens)
        ∧ (∀ f, f < size / 64 →
          let page := (reg.base + 64 * f) / 4096
          let waits := ∃ q ∈ s.pages, q.pasid = r.pasid ∧ q.page = page ∧ q.need = 1 ∧ q.stage ≠ .quiet
          let missing := ∀ e, s.transEntry r.pasid (reg.base + 64 * f) = some e → e.r = false
          (phase = 3 + 2 * f → missing →
            exec .migrate s = .next ((s.askPage r.pasid page 1).after 1 .migrate (.host c (4 + 2 * f))))
          ∧ (phase = 4 + 2 * f → waits → exec .migrate s = .next (s.after 1 .migrate (.host c phase)))
          ∧ (phase = 4 + 2 * f → ¬ waits → missing → ∃ t : State, exec .migrate s = .next (t.answerHost c 4)
            ∧ (k.migration ≠ 0 → reg.vault = false → t.token reg r.pasid = some { k with state := k.prior, prior := .free, migration := 0 }))
          ∧ ∀ src : Nat → Nat, phase = 3 + 2 * f ∨ (phase = 4 + 2 * f ∧ ¬ waits) → (∀ i, f ≤ i → i < size / 64 →
              (src i + 64 ≤ new ∨ new + size ≤ src i) ∧ isTable (new + 64 * i) = false
              ∧ (isHost (src i) = true ∨ isTable (src i) = false ∧ Clean s (src i) ∧ Opens s (src i) k.keyid)
              ∧ ∃ e, s.transEntry r.pasid (reg.base + 64 * i) = some e ∧ e.r = true
                ∧ src i = s.keyOf (e.tbase + (reg.base + 64 * i - e.vbase))) →
            ∃ t, exec .migrate s = .next t ∧ (∃ e ∈ t.agenda, e.ev = .migrate ∧ e.arg = .host c 2)
              ∧ (k.migration ≠ 0 → reg.vault = false → t.token reg r.pasid = some { k with migration := 2, gone := [] })
              ∧ ∀ i j, f ≤ i → i < size / 64 → j < 64 → t.byte (new + 64 * i + j) = s.byte (src i + j))
        ∧ (phase = 2 → k.migration ≠ 3 → exec .migrate s = .next (s.after 64 .migrate (.host c 2)))
        ∧ (phase = 2 → k.migration = 3 → reg.vault = false → (∀ p, s.linesOf p reg r.pasid = []) →
          (∀ i e, i < size / 4096 → s.transEntry r.pasid (reg.base + 4096 * i) = some e →
            s.keyOf (e.tbase + (reg.base + 4096 * i - e.vbase)) = new + 4096 * i) →
          ∃ t, exec .migrate s = .next (t.answerHost c 0) ∧ SameMemory s t
            ∧ t.token reg r.pasid = some { k with state := k.prior, prior := .free, migration := 0 }))

/-- R32, R351, R355, R411, R412: POWER_CAP within 1,000 and 2,300 W; PARTITION with the routing words it gives; TENANT_CREATE
with the root's values; QUEUE_CREATE with the new control block; QUEUE_DESTROY, which waits for an entry in PEND. The
identifier of the root is the model's choice (log entry 9). -/
def HostTables : Prop :=
  ∀ (s : State) (c : HostCmd) (r : Scb) (phase : Nat), Command s c r phase →
    let w := (hostArg c 0).toNat
    (w < 1000 ∨ 2300 < w → exec .powerCap s = .next (s.answerHost c 10))
    ∧ (1000 ≤ w → w ≤ 2300 → exec .powerCap s = .next (({ s with powerCap := w }).answerHost c 0))
    ∧ ((∃ q, q < 4 ∧ 3 < (hostArg c q).toNat) → exec .partition s = .next (s.answerHost c 10))
    ∧ ((∀ q, q < 4 → (hostArg c q).toNat ≤ 3) → (∀ kv ∈ s.scopes, kv.2.parent = 0) → ∃ t, exec .partition s = .next (t.answerHost c 0)
      ∧ SameMemory s t
      ∧ (∀ q, q < 4 → (t.parts.get (0, 0) q).1 = (s.parts.get (0, 0) q).1 ∧ (t.parts.get (0, 0) q).2 = (hostArg c q).setWidth 2)
      ∧ ∀ cl k, cl < 32 → k < 4 →
        ((t.cluster cl).linken.getLsbD k = true ↔ k = 0 ∨ hostArg c ((cl / 8 + k) % 4) = hostArg c (cl / 8))
        ∧ ((t.cluster cl).intermask.getLsbD k = true ↔ k ≠ cl / 8 ∧ hostArg c k = hostArg c (cl / 8)))
    ∧ (∀ tenant : BitVec 12, hostArg c 0 = tenant.setWidth 64 →
      ((s.root tenant).isSome = true ∨ (s.rootOf ((hostArg c 1).setWidth 20)).isSome = true →
        exec .tenantCreate s = .next (s.answerHost c 10))
      ∧ (∀ cl id, s.rootOf ((hostArg c 1).setWidth 20) = none → (∃ key, key ≠ 0 ∧ key ∉ s.kiln.keys) → (∀ x ∈ s.kiln.tenants, x.1 ≠ tenant) → (hostArg c 1).toNat < 2 ^ 20 → (hostArg c 3).toNat = cl → cl < 32 →
        s.quadRuns (cl / 8) = true → hostArg c 7 = 0 → s.freeScope cl = some id → ∃ t b, exec .tenantCreate s = .next (t.answerHost c 0)
          ∧ SameMemory s t ∧ t.root tenant = some b ∧ t.scb id = some b ∧ b.id = id ∧ b.parent = 0 ∧ b.opener = 0 ∧ b.state = .isOpen ∧ b.prio = 15
          ∧ b.tier = 0 ∧ b.dmode = 0 ∧ b.qlenm1 = 255 ∧ b.arrdepth = 16 ∧ b.corelim = 0 ∧ b.spawnlim = 0 ∧ b.migthr = 0
          ∧ b.declreg = 64 ∧ b.deadline = -1 ∧ b.issmin = 7168 ∧ b.fltmin = 7168 ∧ b.memmin = 7168 ∧ b.issmax = -1
          ∧ b.fltmax = -1 ∧ b.memmax = -1 ∧ b.fdom = id ∧ b.trapv = false ∧ b.cancv = false ∧ b.shield = 0 ∧ b.sys = false
          ∧ b.tenant = tenant ∧ b.pasid = (hostArg c 1).setWidth 20 ∧ b.savearea = hostArg c 4 ∧ b.logbase = hostArg c 5
          ∧ b.loglen = (hostArg c 6).setWidth 32 ∧ b.keyid ≠ 0 ∧ b.keyid ∉ s.kiln.keys))
    ∧ (let q := w
      let size := (hostArg c 2).toNat
      let tenant := (hostArg c 3).setWidth 12
      let bad := (s.kiln.queues.find q).isSome = true ∨ s.root tenant = none ∨ (hostArg c 1).toNat % 128 ≠ 0 ∨ size % 128 ≠ 0
        ∨ size < 256 ∨ 2 ^ 24 < size
      (bad → exec .queueCreate s = .next (s.answerHost c 10))
      ∧ (¬ bad → q < 4096 → (hostArg c 3).toNat < 4096 → (hostArg c 4).toNat < 4 → (∀ i, 5 ≤ i → i < 12 → hostArg c i = 0) →
        ∃ t x, exec .queueCreate s = .next (t.answerHost c 0) ∧ SameMemory s t ∧ t.kiln.queues.find q = some x ∧ x.gen = 0
          ∧ x.a = { ringva := hostArg c 1, ringsize := BitVec.ofNat 32 size, head := 0, tenant := tenant.setWidth 16, state := 1
                    tiermin := (hostArg c 4).setWidth 8, errcode := 0, pend := 0xFFFFFFFF, consumed := 0 }
          ∧ t.kiln.tails.get 0 q = 0 ∧ t.hostQueueStatus q = 1)
      ∧ (s.kiln.queues.find q = none → exec .queueDestroy s = .next (s.answerHost c 10))
      ∧ ∀ x, s.kiln.queues.find q = some x → x.gen.getLsbD 0 = false →
        (x.valid.pend = 0xFFFFFFFF → ∃ t, exec .queueDestroy s = .next (t.answerHost c 0) ∧ SameMemory s t
          ∧ t.hostQueueStatus q = 3 ∧ ∀ p, p ≠ q → t.kiln.queues.find p = s.kiln.queues.find p)
        ∧ (phase = 0 → x.valid.pend ≠ 0xFFFFFFFF → ∃ t, exec .queueDestroy s = .next t
          ∧ (t.hostQueueStatus q).extractLsb' 0 8 = 0 ∧ ∃ e ∈ t.agenda, e.ev = .queueDestroy ∧ e.arg = .host c 1))

end Sys2Proof.Claims

/-- R356 and the commands of R355: each completes with its record when its action is done; BAD_COMMAND (10) for what R355,
R346, R351, R411 and R412 refuse. The order of the words of ARGS is the model's (log entry 17); what REGION_CREATE leaves as
the owner of a FREE token too (log entry 3), the steps of a
command with more than one action (log entry 34), and what step 1 of a MIGRATE commits (log entry 60). -/
def Obligations.HostCommands : Prop := CompletionRecord ∧ HostScopes ∧ HostRegions ∧ HostTables

/-! ### Events of the Kiln, start-up, peers and partitions -/

namespace Sys2Proof.Claims

/-- The copy of a queue control block that GEN selects (R264). -/
def chosenCopy (x : Qcb) : QcbCopy := if x.gen.getLsbD 1 = true then x.b else x.a

/-- A block with GEN one up and the other copy written. -/
def otherCopy (x : Qcb) (c : QcbCopy) : Qcb :=
  if x.gen.getLsbD 1 = true then { x with gen := x.gen + 1, a := c } else { x with gen := x.gen + 1, b := c }

/-- An event without payload order: it is in the agenda. -/
def Sends (t : State) (ev : Instr) (arg : Payload) : Prop := ∃ e ∈ t.agenda, e.ev = ev ∧ e.arg = arg

/-- Opcodes, events, and those of tenant 0 alone (R355). -/
def hostTable : List (Nat × Instr × Bool) :=
  [(1, .launch, false), (2, .cancel, false), (3, .switchOut, false), (4, .switchIn, false), (5, .regionCreate, false)
  , (6, .regionDestroy, false), (7, .migrate, false), (8, .powerCap, true), (9, .partition, true), (10, .nopCommand, false)
  , (11, .tenantCreate, true), (12, .queueCreate, true), (13, .queueDestroy, true)]

/-- R265, R412: a doorbell gives its queue a new tail, stops it, or is discarded and counted (log entry 70 for one whose bits
63:32 are not 0); it is remembered as the last one (R223); the latch keeps the words written to a
module that starts or has gated parts, in order, and wakes it; queue 0 comes from the host's three registers. R34, R362: the timer. -/
def Doorbells : Prop :=
  (∀ (s : State) (q : Nat) (v : Word), s.arg = .word q v → q < 4096 →
    let discards : Prop := exec .doorbell s =
      .next (({ s with bellSeq := s.hostSeq }).modKiln fun k => { k with discards := k.discards + 1 })
    (s.kiln.mode = 1 → s.partGated = false →
      (s.kiln.queues.find q = none → discards)
      ∧ ∀ x, s.kiln.queues.find q = some x →
        let c := chosenCopy x
        let bad := v.toNat % 128 ≠ 0 ∨ c.ringsize.toNat ≤ v.toNat
        (c.state ≠ 1 ∨ 2 ^ 32 ≤ v.toNat → discards)
        ∧ (c.state = 1 → v.toNat < 2 ^ 32 → bad → x.gen.getLsbD 0 = false → ∃ t, exec .doorbell s = .next t ∧ SameMemory s t
          ∧ t.hostQueueStatus q = BitVec.ofNat 64 (2 ^ 32 * c.head.toNat + 2 ^ 16 * 26 + 2))
        ∧ (c.state = 1 → ¬ bad → ∃ t, exec .doorbell s = .next t ∧ SameMemory s t ∧ t.bellSeq = s.hostSeq ∧ t.kiln.tails.find q = some (v.setWidth 32)
          ∧ t.kiln.queues.find q = some (if c.head = s.kiln.tails.get 0 q then { x with headSince := s.cycle } else x)
          ∧ (∀ p, p ≠ q → t.kiln.queues.find p = s.kiln.queues.find p) ∧ Sends t .kilnDispatch .none
          ∧ (t.hart 0).pending.getLsbD 0 = true))
    ∧ (s.kiln.mode ≠ 1 ∨ s.partGated = true → ∃ t, exec .doorbell s = .next t ∧ SameMemory s t ∧ t.kiln.queues = s.kiln.queues
      ∧ (∀ p, t.kiln.latched.find p = if p = q then some v else s.kiln.latched.find p)
      ∧ t.kiln.latchOrder = (if q ∈ s.kiln.latchOrder then s.kiln.latchOrder else s.kiln.latchOrder ++ [q])
      ∧ (s.partGated = true → Sends t .wakeSequence .none)))
  ∧ (∀ (s : State) (v : Word),
    (s.arg = .word 0x020 v → exec .queue0Create s = .next (s.modKiln fun k => { k with q0ring := v }))
    ∧ (s.arg = .word 0x028 v → exec .queue0Create s = .next (s.modKiln fun k => { k with q0size := v }))
    ∧ (s.arg = .word 0x030 v → v ≠ 1 → exec .queue0Create s = .next s)
    ∧ (s.arg = .word 0x030 1 →
      (s.kiln.mode ≠ 1 → exec .queue0Create s = .next (s.modKiln fun k => { k with q0create := true }))
      ∧ (s.kiln.mode = 1 → (s.root 0).isSome = true → s.kiln.queues.find 0 = none → s.kiln.q0ring.toNat % 128 = 0 →
        s.kiln.q0size.toNat % 128 = 0 → 256 ≤ s.kiln.q0size.toNat → s.kiln.q0size.toNat ≤ 2 ^ 24 →
        ∃ t x, exec .queue0Create s = .next t ∧ t.kiln.q0create = false ∧ t.kiln.queues.find 0 = some x ∧ x.gen = 0
          ∧ x.a.ringva = s.kiln.q0ring ∧ x.a.ringsize.toNat = s.kiln.q0size.toNat ∧ x.a.head = 0 ∧ x.a.tenant = 0 ∧ x.a.tiermin = 0
          ∧ t.hostQueueStatus 0 = 1)))
  ∧ ∀ s : State, ∃ t, exec .kilnTimer s = .next t ∧ (∀ j, j < 9 → (t.hart 0).pending.getLsbD j = ((s.hart 0).pending.getLsbD j || j == 5))
    ∧ (s.kiln.gated = true → Sends t .wakeSequence .none) ∧ t.strands = s.strands

/-- R264, R266, R363, R364: the head that goes next; a head whose page may not be read has it asked for; the parts of its
dispatch, each change of the block under GEN, a launch delivered once to each of its clusters by its TAG and placed for the
clusters that this dispatch served; when a hart's watchdog counts out, GEN is even again and every entry in PEND goes on with
the third part. What the dispatcher does about an entry that it cannot read, a Wheel that is full and a partition that does
not run, and how the watchdog counts, are the model's choices (log entries 6 and 36). -/
def Dispatching : Prop :=
  (∀ (s : State) (h : Head), s.arg = .none → s.kiln.mode = 1 → s.kiln.gated = false → (∀ q, s.headOf q ≠ .straddle) →
    (∀ q c, s.headOf q ≠ .missing c) →
    (∀ e ∈ s.agenda, e.ev ≠ .kilnDispatch ∨ e.arg = .none) → h ∈ s.heads → s.dispatchable h = true →
    let others (p : Head → Prop) : Prop := ∀ x ∈ s.heads, s.dispatchable x = true → x ≠ h → p x
    let old (x : Head) : Prop := x.c.tier = 3 ∧ x.since + 524288 ≤ s.cycle
    let goes : Prop := exec .kilnDispatch s = .next (s.send 0 .kilnDispatch (.n2 h.q 1))
    (old h → others (fun x => old x → h.c.deadline.toNat < x.c.deadline.toNat ∨ (h.c.deadline = x.c.deadline ∧ h.q < x.q)) → goes)
    ∧ (h.c.tier ≠ 3 → others (fun x => ¬ old x) → others (fun x => x.c.tier ≠ 3 → h.c.deadline.toNat < x.c.deadline.toNat
        ∨ (h.c.deadline = x.c.deadline ∧ (h.c.tier.toNat < x.c.tier.toNat ∨ (h.c.tier = x.c.tier ∧ h.q < x.q)))) → goes)
    ∧ (h.c.tier = 3 → ¬ old h → others (fun x => x.c.tier = 3 ∧ ¬ old x ∧ h.c.deadline.toNat < x.c.deadline.toNat) → goes))
  ∧ (∀ (s : State) (q : Nat) (x : Qcb) (p : BitVec 20 × Nat), s.arg = .none → s.kiln.mode = 1 → s.kiln.gated = false →
    s.kiln.queues = [(q, x)] → s.headOf q = .missing (chosenCopy x) → s.ringPage (chosenCopy x) = some p →
    (∀ e ∈ s.agenda, e.ev ≠ .kilnDispatch ∨ e.arg = .none) →
    exec .kilnDispatch s = .next ((s.askPage p.1 p.2 1).after 64 .kilnDispatch .none))
  ∧ (∀ (s : State) (q n : Nat) (x : Qcb) (p : BitVec 20 × Nat), s.kiln.queues.find q = some x →
    (chosenCopy x).pend ≠ 0xFFFFFFFF → s.arg = .n2 q n → n = 3 ∨ n = 5 →
    s.ringPage { chosenCopy x with head := (chosenCopy x).pend } = some p →
    exec .kilnDispatch s = .next ((s.askPage p.1 p.2 1).after 64 .kilnDispatch (.n2 q n)))
  ∧ (∀ (s : State) (q : Nat) (x : Qcb) (b : List Byte), s.kiln.queues.find q = some x → q < 4096 →
    let c := chosenCopy x
    let read := RingHolds s { c with head := c.pend } b
    let cmd := hostEntry q b
    let part (n : Nat) (x' : Qcb) : Prop := ∃ t, exec .kilnDispatch s = .next t ∧ SameMemory s t ∧ t.kiln.queues.find q = some x'
      ∧ (∀ p, p ≠ q → t.kiln.queues.find p = s.kiln.queues.find p) ∧ Sends t .kilnDispatch (.n2 q (n + 1))
    let skips : Prop := exec .kilnDispatch s = .next (s.send 0 .kilnDispatch (.n2 q 4))
    let only (t : State) : Prop := ∀ e ∈ t.agenda, e ∈ s.agenda ∨ e.ev = .kilnDispatch
    (s.arg = .n2 q 1 → part 1 (otherCopy x { c with pend := c.head }))
    ∧ (s.arg = .n2 q 2 → part 2 { x with gen := x.gen + 1 })
    ∧ (s.arg = .n2 q 3 → c.pend ≠ 0xFFFFFFFF → read → entryOk c b = true →
      let tag := BitVec.ofNat 64 (2 ^ 52 * q + c.consumed.toNat % 2 ^ 48)
      (cmd.opcode ≠ 1 → skips)
      ∧ (cmd.opcode = 1 → (∀ cl ∈ launchClusters cmd, (tag, cl) ∈ s.kiln.log) → ∃ t, exec .kilnDispatch s = .next t ∧ SameMemory s t
        ∧ t.kiln.queues = s.kiln.queues ∧ t.kiln.log = s.kiln.log ∧ Sends t .kilnDispatch (.n2 q 4)
        ∧ (∀ y, y ∈ t.kiln.placing ↔ y ∈ s.kiln.placing ∧ y.1 ≠ tag)
        ∧ ((∀ y ∈ s.kiln.placing, y.1 ≠ tag) → launchClusters cmd ≠ [] → only t)
        ∧ ((∃ y ∈ s.kiln.placing, y.1 = tag) ∨ launchClusters cmd = [] →
          Sends t .launch (.host { cmd with skip := (launchClusters cmd).filter fun cl => !s.kiln.placing.contains (tag, cl) } 0)))
      ∧ ∀ cl rest, cmd.opcode = 1 → (launchClusters cmd).filter (fun cl => !s.kiln.log.contains (tag, cl)) = cl :: rest →
        let first := (hostArg cmd 1).toNat % 512
        let full := ∃ i p, i < (hostArg cmd 1).toNat / 512 % 1024 ∧ (first + i) / 16 = cl ∧ s.physical (first + i) = some p
          ∧ 256 ≤ (s.core p).overflow.length
        (s.quadRuns (cl / 8) = false ∨ full → exec .kilnDispatch s = .next ((s.signal 1).after 64 .kilnDispatch (.n2 q 3)))
        ∧ (s.quadRuns (cl / 8) = true → ¬ full → ∃ t, exec .kilnDispatch s = .next t ∧ SameMemory s t ∧ t.kiln.queues = s.kiln.queues
          ∧ t.kiln.log = s.kiln.log ++ [(tag, cl)] ∧ t.kiln.placing = s.kiln.placing ++ [(tag, cl)]
          ∧ (t.hart 0).pending.getLsbD 1 = true ∧ Sends t .kilnDispatch (.n2 q 3) ∧ only t))
    ∧ (s.arg = .n2 q 4 → part 4 (otherCopy x { c with
        head := BitVec.ofNat 32 (if c.ringsize.toNat ≤ c.head.toNat + 128 then c.head.toNat + 128 - c.ringsize.toNat else c.head.toNat + 128)
        consumed := c.consumed + 1, pend := 0xFFFFFFFF }))
    ∧ (s.arg = .n2 q 5 → read → let x' : Qcb := { x with gen := x.gen + 1, headSince := s.cycle }
      (∀ row ∈ hostTable, entryOk c b = true → cmd.opcode.toNat = row.1 →
        (row.2.2 = true → c.tenant ≠ 0 → ∃ t : State, exec .kilnDispatch s = .next ((t.answerHost cmd 10).send 0 .kilnDispatch .none)
          ∧ SameMemory s t ∧ t.kiln.queues.find q = some x')
        ∧ (row.2.2 = false ∨ c.tenant = 0 → ∃ t, exec .kilnDispatch s = .next t ∧ SameMemory s t ∧ t.kiln.queues.find q = some x'
          ∧ (row.1 ≠ 1 → Sends t row.2.1 (.host cmd 0)) ∧ (row.1 = 1 → only t) ∧ Sends t .kilnDispatch .none))
      ∧ (entryOk c b = false ∨ (∀ row ∈ hostTable, cmd.opcode.toNat ≠ row.1) →
        ∃ t : State, exec .kilnDispatch s = .next ((t.answerHost cmd 10).send 0 .kilnDispatch .none)
          ∧ SameMemory s t ∧ t.kiln.queues.find q = some x')))
  ∧ (∀ (s : State) (h : Nat), s.arg = .n1 h → (s.hart h).waiting = true ∨ s.cycle < (s.hart h).since + 1500000 →
    exec .kilnWatchdog s = .next s)
  ∧ ∀ (s : State) (h : Nat), s.arg = .n1 h → h < 4 → (s.hart h).waiting = false → (s.hart h).since + 1500000 ≤ s.cycle →
    ∃ t, exec .kilnWatchdog s = .next t ∧ SameMemory s t
    ∧ (t.hart h).pc = 0 ∧ (t.hart h).regs = [] ∧ (t.hart h).waiting = false ∧ (t.hart h).since = s.cycle ∧ (∀ h', h' ≠ h → t.hart h' = s.hart h')
    ∧ (∀ q x, s.kiln.queues.find q = some x →
        t.kiln.queues.find q = some (if x.gen.getLsbD 0 = true then otherCopy x (chosenCopy x) else x)
        ∧ ((chosenCopy x).pend ≠ 0xFFFFFFFF → Sends t .kilnDispatch (.n2 q 3)))
    ∧ ∀ e ∈ t.agenda, e.ev = .kilnDispatch → e.arg = .none ∨ ∃ q, e.arg = .n2 q 3

/-- R365 to R367, R411: the boot ROM runs the better valid slot, or the module enters recovery; READY clears the memories,
makes tenant 0's root and starts the clocks; failures; the slots, the counter and the mailbox; what a cold reset keeps. The
values that a new root takes and the manual does not give are the model's (log entry 3), and so are the numbers of the causes
(log entry 54) and the modes in which a slot is written (log entry 37). -/
def Booting : Prop :=
  (∀ s : State, let k := s.kiln
    let valid (x : Option SlotImage) : Prop := ∃ y, x = some y ∧ slotOk k.fuses y = true
    let runs (n : BitVec 4) (y : SlotImage) : Prop := ∃ t, exec .powerOn s = .next t ∧ SameMemory s t ∧ t.kiln.mode = 0 ∧ t.kiln.slot = n
      ∧ t.kiln.svn = y.svn.setWidth 8 ∧ t.kiln.failures = 0 ∧ Sends t .firmwareBringup .none
      ∧ ∃ e ∈ t.agenda, e.ev = .firmwareTimeout ∧ e.due = s.cycle + 15000000000
    (¬ valid k.slotA → ¬ valid k.slotB → ∃ t, exec .powerOn s = .next t ∧ t.kiln.mode = 2 ∧ t.kiln.cause = 1 ∧ t.powerOff = true)
    ∧ ∀ a b, (k.slotA = some a → valid k.slotA → ¬ valid k.slotB → runs 0 a)
      ∧ (k.slotB = some b → valid k.slotB → ¬ valid k.slotA → runs 1 b)
      ∧ (k.slotA = some a → k.slotB = some b → valid k.slotA → valid k.slotB →
        (a.svn.toNat < b.svn.toNat ∨ (a.svn = b.svn ∧ a.version.toNat < b.version.toNat) → runs 1 b)
        ∧ (b.svn.toNat < a.svn.toNat ∨ (a.svn = b.svn ∧ b.version.toNat ≤ a.version.toNat) → runs 0 a)))
  ∧ (∀ s : State, s.kiln.mode = 0 → s.kiln.tenants = [] → s.parts = [] → ∃ t b, exec .firmwareBringup s = .next t ∧ t.kiln.mode = 1
    ∧ t.kiln.failures = 0 ∧ t.powerOff = false ∧ t.strands = [] ∧ t.tokens = [] ∧ t.root 0 = some b ∧ homeCluster b.id = 0
    ∧ b.tenant = 0 ∧ b.keyid = 0 ∧ b.issmin = 7168 ∧ b.fdom = b.id ∧ (∀ k, k < 2 ^ 64 ∨ (2 ^ 66 ≤ k ∧ k < 2 ^ 68) → t.byte k = 0)
    ∧ (∀ k, isHost k = true → t.byte k = s.byte k) ∧ (∀ p, (t.core p).banks = [] ∧ (t.core p).lines = [])
    ∧ (∀ c, c < 32 → (t.cluster c).linken = 15 ∧ ∀ x, x < 4 → (t.cluster c).intermask.getLsbD x = decide (x ≠ c / 8))
    ∧ (∃ e ∈ t.agenda, e.ev = .heartbeatSend ∧ e.due = 4096 * (s.cycle / 4096 + 1))
    ∧ (∃ e ∈ t.agenda, e.ev = .budgetPeriodStart ∧ e.due = 8192 * (s.cycle / 8192 + 1))
    ∧ ∀ e ∈ t.agenda, e.ev ≠ .firmwareTimeout)
  ∧ (∀ s : State, s.kiln.mode = 0 →
    let n := s.kiln.failures + 1
    let cur : Bool := s.kiln.slot == 1
    let runs (b : Bool) : Prop := ∃ t, exec .firmwareTimeout s = .next t ∧ t.kiln.mode = 0 ∧ t.kiln.failures = n
      ∧ t.kiln.slot = (if b = true then 1 else 0) ∧ Sends t .firmwareBringup .none
    let recovers : Prop := ∃ t, exec .firmwareTimeout s = .next t ∧ t.kiln.mode = 2 ∧ t.kiln.cause = 2 ∧ t.powerOff = true
    (n < 3 → runs cur) ∧ (n = 3 → s.kiln.slotValid (!cur) = true → runs (!cur)) ∧ (n = 3 → s.kiln.slotValid (!cur) = false → recovers)
    ∧ (3 < n → n < 6 → runs cur) ∧ (6 ≤ n → recovers))
  ∧ (∀ (s : State) (n : Nat) (v : Word), s.arg = .word n v →
    (v.toNat = s.kiln.svn.toNat → ∃ t, exec .svncommit s = .next t ∧ t.kiln.fuses.toNat = max s.kiln.fuses.toNat s.kiln.svn.toNat)
    ∧ (v.toNat ≠ s.kiln.svn.toNat → exec .svncommit s = .next s))
  ∧ (∀ s : State, s.kiln.mode ≠ 2 → s.kiln.mode ≠ 3 → exec .writeSlot s = .next s)
  ∧ (∀ (s : State) (off : Nat) (v : Word), s.arg = .word off v → s.kiln.mode = 2 ∨ s.kiln.mode = 3 →
    (0x4000000 ≤ off → off < 0x8000000 → off % 8 = 0 → ∃ t, exec .writeSlot s = .next t
      ∧ ∀ o, 0x4000000 ≤ o → o < 0x8000000 → o % 8 = 0 → t.recoveryWord o = if o = off then some v else s.recoveryWord o)
    ∧ (off = 0x808 → exec .writeSlot s = .next (s.modKiln fun k => { k with mboxArg := v }))
    ∧ (off = 0x800 → v = 1 → s.kiln.mboxResp ≠ 0xFF → ∃ t, exec .writeSlot s = .next t ∧ t.recoveryWord 0x800 = some 1
      ∧ t.recoveryWord 0x808 = some s.kiln.mboxArg ∧ t.recoveryWord 0x810 = some 0xFF ∧ Sends t .writeSlot .none
      ∧ (t.hart 0).pending.getLsbD 6 = true)
    ∧ (off = 0x800 → v = 2 → ∃ t, exec .writeSlot s = .next t ∧ Sends t .reset .none ∧ (t.hart 0).pending.getLsbD 6 = true))
  ∧ (∀ s : State, s.arg = .none → s.kiln.mode = 2 ∨ s.kiln.mode = 3 → s.kiln.mboxResp = 0xFF →
    let len := s.kiln.mboxArg.toNat / 256 % 2 ^ 24
    let b : Bool := s.kiln.mboxArg.getLsbD 0
    let x := s.kiln.uploadedSlot len
    let fits := 512 ≤ len ∧ slotSized x = true
    ∃ t, exec .writeSlot s = .next t ∧ (¬ fits → t.kiln.mboxResp = 3) ∧ (fits → slotSigned x = false → t.kiln.mboxResp = 1)
      ∧ (fits → slotSigned x = true → slotOk s.kiln.fuses x = false → t.kiln.mboxResp = 2)
      ∧ (fits → slotOk s.kiln.fuses x = true → t.kiln.mboxResp = 0)
      ∧ t.kiln.slotA = (if fits ∧ slotOk s.kiln.fuses x = true ∧ b = false then some x else s.kiln.slotA)
      ∧ t.kiln.slotB = (if fits ∧ slotOk s.kiln.fuses x = true ∧ b = true then some x else s.kiln.slotB))
  ∧ ∀ s : State, (s.kiln.mode = 2 ∨ s.kiln.mode = 3 → exec .reset s = exec .coldReset s) ∧ ∃ t, exec .coldReset s = .next t ∧ t.kiln.mode = 0
    ∧ t.kiln.slotA = s.kiln.slotA ∧ t.kiln.slotB = s.kiln.slotB ∧ t.kiln.fuses = s.kiln.fuses ∧ t.ktime = s.ktime
    ∧ t.kiln.latched = s.kiln.latched ∧ t.kiln.q0ring = s.kiln.q0ring ∧ t.kiln.queues = [] ∧ t.strands = [] ∧ t.cores = [] ∧ t.tokens = []
    ∧ t.scopes = [] ∧ t.trans = [] ∧ t.parts = [] ∧ t.powerCap = 2300 ∧ (∀ k, t.byte k = if isHost k = true then s.byte k else 0)
    ∧ Sends t .powerOn .none

/-- R352, R368, R369: signed measurements; a peer's Kiln authenticates itself before its links come up, and
makes and ends the pairs of its tenants (log entry 41); with the last link the
device is down, bindings to it are broken and tokens it held are being reclaimed, to be poisoned; the restart of a partition, step by step. The bytes
that a measurement covers are the model's choice (log entry 6). -/
def OutsideEvents : Prop :=
  (∀ (s : State) (i : Nat), s.arg = .n1 i →
    (∀ b, s.measurement i = some b → exec .spdmRequest s = .next (s.modKiln fun k => { k with
      measured := k.measured ++ [(i, b ++ Config.aliasSign (Config.sha384 s.kiln.runningBody) b)] }))
    ∧ (i = 4 → s.measurement i = some (s.kiln.fuses :: (leBytes 48 Config.keyHash).reverse)) ∧ (s.measurement i = none ↔ i = 0 ∨ 5 < i)
    ∧ (i = 0 ∨ 5 < i → exec .spdmRequest s = .next s))
  ∧ (∀ (s : State) (dev n : Nat), s.arg = .n2 dev n → ∃ t, exec .kilnControl s = .next t ∧ (n = 1 → dev ∈ t.kiln.peersAuth)
    ∧ (s.kiln.gated = true → Sends t .wakeSequence .none) ∧ (t.hart 0).pending.getLsbD 7 = true ∧ t.strands = s.strands)
  ∧ (∀ (s : State) (dev on : Nat) (tenant : BitVec 12), s.arg = .n3 dev tenant.toNat on → ∃ t, exec .kilnControl s = .next t
    ∧ ((dev, tenant) ∈ t.kiln.paired ↔ on = 1) ∧ (∀ y, y ≠ (dev, tenant) → (y ∈ t.kiln.paired ↔ y ∈ s.kiln.paired))
    ∧ t.strands = s.strands)
  ∧ (∀ (s : State) (dev links : Nat), s.arg = .n2 dev links → 1 ≤ dev → dev ≤ 1024 →
    let e := s.peers.get (0, 0, 0) (dev - 1)
    (dev ∉ s.kiln.peersAuth → exec .peerLinkUp s = .next s)
    ∧ (dev ∈ s.kiln.peersAuth → links % 4096 ≠ 0 → ∃ t, exec .peerLinkUp s = .next t
      ∧ t.peers.get (0, 0, 0) (dev - 1) = (1, e.2.1 ||| BitVec.ofNat 12 links, e.2.2) ∧ t.strands = s.strands)
    ∧ (e.1 = 1 → let left := e.2.1 &&& ~~~(BitVec.ofNat 12 links)
      (left ≠ 0 → ∃ t, exec .peerLinkDown s = .next t ∧ t.peers.get (0, 0, 0) (dev - 1) = (1, left, e.2.2) ∧ t.strands = s.strands)
      ∧ (left = 0 → Slots s → ∃ t, exec .peerLinkDown s = .next t ∧ t.peers.get (0, 0, 0) (dev - 1) = (2, 0, e.2.2)
        ∧ (∀ sk st q b, s.strand sk = some st → st.queues.find q = some b → b.pdev.toNat = dev →
            ∃ st' b', t.strand sk = some st' ∧ st'.queues.find q = some b' ∧ b'.broken = true)
        ∧ Sends t .spareRemap .none
        ∧ ∀ k ∈ s.tokens, k.state = .held → k.owner.kind = .peer → k.owner.dev.toNat = dev →
            ∃ k' ∈ t.tokens, k'.region = k.region ∧ k'.pasid = k.pasid ∧ k'.state = .reclaiming ∧ k'.prior = .poisoned
              ∧ k'.owner.kind = .fdom)))
  ∧ ∀ (s : State) (c : Nat), c < 32 →
    let here (cl : Nat) : Prop := cl / 8 < 4 ∧ (s.parts.get (0, 0) (cl / 8)).2 = (s.parts.get (0, 0) (c / 8)).2
    let state (t : State) (v : BitVec 2) : Prop := ∀ q, q < 4 →
      ((s.parts.get (0, 0) q).2 = (s.parts.get (0, 0) (c / 8)).2 → (t.parts.get (0, 0) q).1 = v)
      ∧ ((s.parts.get (0, 0) q).2 ≠ (s.parts.get (0, 0) (c / 8)).2 → (t.parts.get (0, 0) q).1 = (s.parts.get (0, 0) q).1)
    (s.arg = .n2 c 1 → Named s → ∃ t, exec .partitionRestart s = .next t ∧ state t 1 ∧ Sends t .partitionRestart (.n2 c 2)
      ∧ ∀ id b, s.scb id = some b → b.parent ≠ 0 → here (homeCluster id) → (s.ancestors id).length ≤ s.scopes.length →
        t.scb id = none ∧ (3, id, [BitVec.ofNat 64 c]) ∈ t.kiln.reports)
    ∧ (s.arg = .n2 c 1 → Named s → ∃ t, exec .partitionRestart s = .next t
      ∧ (∀ id b, s.scb id = some b → b.parent = 0 → here (homeCluster id) → (3, id, [BitVec.ofNat 64 c]) ∈ t.kiln.reports)
      ∧ ((∀ id b, s.scb id = some b → ¬ here (homeCluster id)) → (3, 0, [BitVec.ofNat 64 c]) ∈ t.kiln.reports))
    ∧ (s.arg = .n2 c 2 → ∃ t, exec .partitionRestart s = .next t ∧ Sends t .partitionRestart (.n2 c 3)
      ∧ (∀ sk, here (sk / 16 / 17) → t.strand sk = none) ∧ (∀ sk, ¬ here (sk / 16 / 17) → t.strand sk = s.strand sk)
      ∧ ∀ k ∈ s.tokens, k.state = .held → k.owner.kind = .strand → handleSk k.owner.id / 16 < 544 → here (handleSk k.owner.id / 16 / 17) →
          k.migration = 0 → ∃ k' ∈ t.tokens, k'.region = k.region ∧ k'.pasid = k.pasid ∧ k'.state = .poisoned)
    ∧ (s.arg = .n2 c 3 → ∃ t, exec .partitionRestart s = .next t ∧ state t 2 ∧ Sends t .partitionRestart (.n2 c 4)
      ∧ (∀ p, here (p / 17) → (t.core p).lines = [] ∧ (t.core p).arrival = [] ∧ (t.core p).tiles = [] ∧ (t.core p).ops = []
        ∧ (t.core p).dead = (s.core p).dead)
      ∧ ∀ e, here (e / 4) → t.engine e = {})
    ∧ (s.arg = .n2 c 4 → ∃ t, exec .partitionRestart s = .next t ∧ state t 0 ∧ t.strands = s.strands ∧ SameMemory s t)

end Sys2Proof.Claims

/-- R34, R264 to R266, R362 to R364, R412: doorbells, the timer, queue 0, dispatch and the watchdog. -/
def Obligations.KilnEvents : Prop := Doorbells ∧ Dispatching

/-- R352, R365 to R369, R411: start-up, recovery and reset, attestation, peers, and the restart of a partition. What the roots of a
restarting partition do, and what comes from outside, follow log entries 39 and 41. -/
def Obligations.StartUp : Prop := Booting ∧ OutsideEvents

/-! ### Parts that belong together -/

/-- R37, R40, R53, R114, R115, R118 to R121, R123: with its guard true, its sources sound and its destination allocated, each
integer instruction writes its result, with the OR of the D bits it read, and retires; nothing else changes. Else the first
fault in order is raised, with no other effect. -/
def Obligations.IntegerResults : Prop := Claims.IntegerResults ∧ Claims.BitCountResults ∧ Claims.IntegerTraps

/-- R41, R48, R122 to R125: predicates get their results; compares of floating-point values add their flags; the faults of both,
the first in order, with no other effect. -/
def Obligations.PredicateResults : Prop := Claims.PredicateResults ∧ Claims.FloatCompares ∧ Claims.PredicateTraps

/-- R38, R39, R127 to R130: CALL, CALLR, RET and ALLOC move the window; the traps of a move that cannot be made. -/
def Obligations.WindowMoves : Prop := Claims.WindowMoves ∧ Claims.WindowLimits

/-- R56, R131, R132, R385, R392: what MFS reads and MTS writes, register by register, and what they refuse. The end of a
spill area, sw.fflags under a matrix operation and the count of an MTS itself are the model's (log entries 44 to 46). -/
def Obligations.StatusRegisters : Prop := Claims.StatusReads ∧ Claims.StatusWrites

/-- R88, R173, R180, R190, R196, R197: loads of bytes that are near at hand, and of a line that L0 must fetch first. -/
def Obligations.Loads : Prop := Claims.Loads ∧ Claims.LoadFills

/-- R196, R201 to R203, R219, R410: a sync-cell operation is issued, performed at its home, and brings its value back. -/
def Obligations.SyncCells : Prop := Claims.CellIssue ∧ Claims.CellOperation ∧ Claims.CellReply

/-- R204, R205: FENCE and FLUSHR complete where nothing holds them back; what FENCE waits for, and what FLUSHR refuses. -/
def Obligations.Fences : Prop := Claims.FenceCompletes ∧ Claims.FenceWaits ∧ Claims.FlushCompletes ∧ Claims.FlushTraps

/-- R209 to R211: requests to a token's home, and the wait for a right. -/
def Obligations.TokenRequests : Prop := Claims.TokenRequests ∧ Claims.TokenWaits

/-- R49, R72, R142, R144, R149, R150: what the vector instructions make of their lanes and bits, and the masks and predicates of compares. -/
def Obligations.VectorResults : Prop := Claims.VectorLanes ∧ Claims.VectorBits ∧ Claims.VectorCompares

/-- R236 to R239, R241, R271 to R274: words are read from and written to queue registers; their status.
When a word can be read is the model's clock (log entry 1). -/
def Obligations.QueueTransfers : Prop := Claims.QueueReads ∧ Claims.QueueWrites ∧ Claims.QueueStatus

/-- R224, R260, R284 to R286, R386: an engine takes a command, moves its sectors and ends it with a completion word. -/
def Obligations.EngineWork : Prop := Claims.EngineWork ∧ Claims.EngineEnd

/-- R295 to R298, R333, R334: a scope opens and closes. The lowest free identifier is the model's choice (log entry 9), and so is the order of
SOPEN's checks (log entry 27) and of the malformed words (log entry 70). -/
def Obligations.ScopeOpenClose : Prop := Claims.ScopeOpening ∧ Claims.ScopeClosing

/-- R277, R297, R299, R326, R331, R334, R376, R410: an answer ends the wait that it is for. -/
def Obligations.WaitEvents : Prop := Claims.WaitEvents

/-- R299, R302, R307, R316 to R319, R382, R388, R401: what happens at the home of a scope. The site of a
logged choice, when a cancel is seen at a core, who is at a boundary, and what a save keeps beside its record are the model's
(log entries 10, 20, 22, 33, 58). -/
def Obligations.ScopeEvents : Prop := Claims.ScopeEvents

/-- R236, R238, R239, R252 to R255: what happens to messages, queue words and credits. Mailbox
heads, refused packets of a stopped core and the return of credits follow log entries 24, 28 and 69. -/
def Obligations.MessageEvents : Prop := Claims.MessageEvents

/-- R229, R230, R256, R257, R312, R313, R326, R328, R330, R355: contexts find a core and become strands; an image is loaded. -/
def Obligations.PlacementEvents : Prop := Claims.PlacementEvents ∧ Claims.LoadEvents

/-- R43 to R47, R52, R176, R180 to R184, R188 to R194, R343: what happens in the
memories. Who holds a spill area, what traps name, a mirror that fails too and a table of addresses are the model's (log
entries 23, 42, 55, 59). -/
def Obligations.MemoryEvents : Prop := Claims.SpillEvents ∧ Claims.MemoryEvents

/-- R246 to R250: what happens on a link. -/
def Obligations.LinkEvents : Prop := Claims.LinkEvents

/-- R18, R32, R34, R373, R377 to R381, R391, R407: heartbeats, spares, the supply, budget periods, gating and power.
The supply's steps and the limits of idleness are the model's (log entry 38). -/
def Obligations.HealthEvents : Prop := Claims.HealthEvents ∧ Claims.PowerEvents

/-! ### The machine as a whole -/

/-- R83, R86, R93, R115, R119, R126, R197, R201, R204, R270, R291, R327, R358: the words that the manual's examples give decode to the
instructions they stand for. -/
def Obligations.ExampleWords : Prop :=
  (decodeTableWord 32 0xE0298EC0 = some (.add 5 6 7 3)) ∧ decodeTableWord 32 0xE048C883 = some (.mulh 9 3 4 2)
  ∧ decodeTableWord 32 0xE31FFFFB = some (.lim 3 0x7FFFB) ∧ decodeTableWord 32 0xE40A7D24 = some (.lis 1 1 0x7D24)
  ∧ decodeTableWord 32 0xE7000800 = some (.br 0 0 0x800) ∧ decodeTableWord 32 0xE919E002 = some (.ldW 3 7 2)
  ∧ decodeTableWord 16 0x7111 = some (.stDCompact 2 4 1) ∧ decodeTableWord 32 0xEB2A960B = some (.aadd 5 10 11 0 3)
  ∧ decodeTableWord 32 0xEC00000E = some (.fence 0 3 2) ∧ decodeTableWord 32 0xEE214C83 = some (.vfma 4 5 6 2)
  ∧ decodeTableWord 32 0xF0E08600 = some (.mma 3 4 2 3 0) ∧ decodeTableWord 32 0xF1110A00 = some (.qbind 2 4 5 0)
  ∧ decodeTableWord 32 0xF21A1211 = some (.sendr 3 8 9 0 2) ∧ decodeTableWord 32 0xF3310A04 = some (.node 6 4 5 0)
  ∧ decodeTableWord 16 0xA600 = some .yieldCompact ∧ decodeTableWord 32 0xF8298E03 = some (.ffma 5 6 7 0 0)
  ∧ decodeTableWord 32 0x00C5850B = some (.krf 12 11 10) ∧ decodeTableWord 32 0x0005A50B = some (.kswt 11 10)

/-- R83 to R94, R358: every well-formed instruction is read back from its bytes, with every operand, whatever follows them. -/
def Obligations.EncodeThenDecode : Prop :=
  ∀ (i : Instr) (rest : List Byte), WellFormed i → i.isEvent = false →
    (i.isKiln = false → decode (encode i ++ rest) = .instr i (encode i).length)
    ∧ (i.isKiln = true → decodeKilnBytes (encode i ++ rest) = some i)

/-- R83 to R95, R358: what the decoders accept is the encoding of one well-formed instruction and of no other: reserved fields
are zero, and no bit is dropped. -/
def Obligations.DecodeThenEncode : Prop :=
  (∀ (bytes : List Byte) (i : Instr) (len : Nat), decode bytes = .instr i len →
    WellFormed i ∧ i.isEvent = false ∧ i.isKiln = false ∧ bytes.take len = encode i)
  ∧ ∀ (b0 b1 b2 b3 : Byte) (rest : List Byte) (i : Instr), decodeKilnBytes (b0 :: b1 :: b2 :: b3 :: rest) = some i →
    i.isKiln = true ∧ encode i = [b0, b1, b2, b3]

/-- No register of the strand, and no tile of its core, has a flipped bit: reading one changes nothing (R53, R143). -/
abbrev Sys2Proof.Claims.Unflipped (s : State) (st : Strand) : Prop :=
  (∀ n, (st.stack.get {} n).flip = 0 ∧ (st.stack.get {} n).lost = false) ∧ (∀ v, (st.vregs.get {} v).flip = 0)
    ∧ ∀ t, ((s.core st.pcore).tiles.get {} t).flip = []

/-- R53, R84, R314, R354 (log entry 1 for the turn): when a strand that nothing holds back has the turn and the bytes at its pc are
those of an instruction, the step is that instruction executed by it, its sources read (which may correct and log an error),
and one cycle; so for a hart that runs and the word at its pc, a base instruction or an exception in its place answers a next
state (log entry 36), and a hart of a gated Kiln is halted; so for an event of the agenda, which leaves the agenda and brings
its payload. With the turn open a clocked event that is due comes first, then a watchdog that has counted out; with no choice
of the schedule given, the first possible move is made, and with none possible time goes on to the next event. -/
def Obligations.StepRunsDecoded : Prop :=
  ∀ s : State,
    (∀ sk st i len, s.turn = .issue sk → s.strand sk = some st → st.sk = sk → st.late = [] → st.preempt = none →
      (s.scope st.scope).migthr = 0 → st.pc.toNat ≤ 0xFFFC →
      decode (s.bytes (istoreKey st.pcore st.pc.toNat) 4) = .instr i len →
      (∀ w ∈ wordsOf (istoreKey st.pcore st.pc.toNat) 4, parityOf (s.err w) = 0) →
      ∃ u, (∀ t, exec i u = .next t → step s = .next (t.tick 1)) ∧ (∀ f, exec i u = .fault f → step s = .fault f)
        ∧ (∀ r, exec i u = .refused r → step s = .refused r)
        ∧ u.cur = sk ∧ u.turn = .choose ∧ SameMemory s u
        ∧ (∀ e ∈ s.agenda, e ∈ u.agenda) ∧ (∀ e ∈ u.agenda, e ∈ s.agenda ∨ e.ev = .bankPowerOff)
        ∧ (∃ x, u.strand sk = some x ∧ x.pc = st.pc ∧ x.wait = .none ∧ x.answer = st.answer ∧ x.w = st.w ∧ x.s = st.s ∧ x.scope = st.scope
          ∧ ∀ r, x.xv r = st.xv r ∧ x.xd r = st.xd r)
        ∧ (Unflipped s st → u = { s with cores := u.cores, strands := u.strands, agenda := u.agenda, cur := sk, turn := .choose }
          ∧ u.strand sk = some { st with wait := .none, yieldTo := [] })
        ∧ ∀ k x, k ≠ sk → s.strand k = some x → u.strand k = some { x with yieldTo := x.yieldTo.filter (· != sk) })
    ∧ (∀ h, s.turn = .hart h →
      (s.kiln.gated = true → step s = .next (State.tick { s with curHart := h, turn := .choose } 1))
      ∧ (h < 4 → ∃ t, step s = .next t)
      ∧ ∀ i, s.kiln.gated = false → (s.hart h).pc.toNat + 2 < 2 ^ 21 →
        decodeKilnBytes (s.bytes (2 ^ 68 + (s.hart h).pc.toNat) 4) = some i →
        ∃ t, exec i { s with curHart := h, turn := .choose } = .next t ∧ step s = .next (t.tick 1))
    ∧ (∀ n p, s.turn = .event n → s.agenda[n]? = some p → ∃ u, step s = exec p.ev u
      ∧ u = { s with agenda := u.agenda, served := u.served, turn := .choose, arg := p.arg }
      ∧ (s.kiln.gated = false → u.agenda = s.agenda.eraseIdx n)
      ∧ (u.served = s.served ∨ ∃ x, u.served = s.served ++ [x]))
    ∧ (s.turn = .choose →
      (∀ n, s.clockDue = some n → step s = step { s with turn := .event n })
      ∧ (∀ h, s.clockDue = none → s.dogDue = some h → step s = exec .kilnWatchdog { s with arg := .n1 h })
      ∧ (s.clockDue = none → s.dogDue = none → s.sched = [] →
        (s.allMoves = [] → step s = .next (s.tick s.untilDue))
        ∧ ∀ m ms, s.allMoves = m :: ms →
          (∀ n, m = .event n → step s = step { s with turn := .event n }) ∧ (∀ sk, m = .issue sk → step s = step { s with turn := .issue sk })
          ∧ (∀ h, m = .hart h → step s = step { s with turn := .hart h })
          ∧ (∀ d, m = .quantum d → step s = exec .quantumEnd { s with turn := .choose, arg := .n2 d 0 })))

/-- R8, R10 and the whole of the instruction table: where a strand and a hart are there to execute it, every instruction but an
access of the host's window answers a next state. -/
def Obligations.ExecIsTotal : Prop :=
  ∀ (i : Instr) (s : State), s.strand s.cur ≠ none → s.curHart < 4 → i ≠ .hostBar2Access → ∃ t, exec i s = .next t

/-- R2, R4 (log entry 5 for what an unlisted byte reads as): every step keeps the memory in its canonical form: addresses rise, and
no listed byte is 0. -/
def Obligations.MemoryStaysCanonical : Prop :=
  ∀ s t : State, memoryWf s.mem = true → step s = .next t → memoryWf t.mem = true

/-- R54, R55, R293, R294: every step keeps each strand in its own slot, once, and each scope control block under its identifier. -/
def Obligations.TablesStayKeyed : Prop :=
  ∀ s t : State, step s = .next t → (Slots s → Slots t) ∧ (Named s → Named t)

/-- R32, R360, R365, R366: after reset the module is booting, its power cap is 2,300 W, its memory is in canonical form and reads 0
(log entry 5), no strand, scope or token exists, every queue number reads STATE 3 with 0 in every other field, and the one
event due is the start of power-on; the invariants hold. -/
def Obligations.ResetState : Prop :=
  let s := State.reset
  memoryWf s.mem = true ∧ Slots s ∧ Named s ∧ (∀ k, s.byte k = 0) ∧ s.kiln.mode = 0 ∧ s.powerCap = 2300 ∧ s.powerOff = false
    ∧ (∀ sk, s.strand sk = none) ∧ (∀ id, s.scb id = none) ∧ s.tokens = [] ∧ (∀ q, s.hostQueueStatus q = 3)
    ∧ (∀ q, s.parts.get (0, 0) q = (0, 0)) ∧ (∀ p b, (s.core p).banks.get .off b = .off) ∧ s.agenda = [{ ev := .powerOn }] ∧ s.cycle = 0
end

