-- ==== Sys2Proof/Laws/Memory.lean ====
section
/-! SUPPORT. Tables and memory: reading after a write, and that every operation keeps the canonical form. -/

namespace Sys2Proof.Machine

/-! ### Tables -/

section Tables

variable {β : Type}

/-- Every key of a table lies above a bound. -/
def Assoc.above (b : Nat) (l : Assoc β) : Prop := ∀ kv ∈ l, b < kv.1

theorem Assoc.sorted_cons {k : Nat} {v : β} {l : Assoc β} :
    Assoc.sorted ((k, v) :: l) = true ↔ Assoc.above k l ∧ Assoc.sorted l = true := by
  induction l generalizing k v with
  | nil => simp [Assoc.sorted, Assoc.above]
  | cons kv rest ih =>
    obtain ⟨k', v'⟩ := kv
    simp only [Assoc.sorted, Bool.and_eq_true, decide_eq_true_eq]
    rw [ih]
    constructor
    · rintro ⟨h, ha, hs⟩
      refine ⟨?_, ha, hs⟩
      intro kv hkv
      rcases List.mem_cons.1 hkv with rfl | hm
      · exact h
      · exact Nat.lt_trans h (ha kv hm)
    · rintro ⟨ha, hb, hs⟩
      exact ⟨ha (k', v') (List.mem_cons_self ..), hb, hs⟩

theorem Assoc.mem_place {i : Nat} {v : β} {l : Assoc β} {kv : Nat × β} (h : kv ∈ l.place i v) : kv = (i, v) ∨ kv ∈ l := by
  induction l with
  | nil => exact .inl (List.mem_singleton.1 h)
  | cons x rest ih =>
    simp only [Assoc.place] at h
    split at h
    · exact (List.mem_cons.1 h).imp_right id
    · rcases List.mem_cons.1 h with rfl | h
      · exact .inr (List.mem_cons_self ..)
      · exact (ih h).imp_right (List.mem_cons_of_mem _)

theorem Assoc.mem_replace {i : Nat} {v : β} {l : Assoc β} {kv : Nat × β} (h : kv ∈ l.replace i v) : kv = (i, v) ∨ kv ∈ l := by
  induction l with
  | nil => simp [Assoc.replace] at h
  | cons x rest ih =>
    simp only [Assoc.replace] at h
    split at h
    · exact (List.mem_cons.1 h).imp_right (List.mem_cons_of_mem _)
    · rcases List.mem_cons.1 h with rfl | h
      · exact .inr (List.mem_cons_self ..)
      · exact (ih h).imp_right (List.mem_cons_of_mem _)

theorem Assoc.mem_insert {i : Nat} {v : β} {l : Assoc β} {kv : Nat × β} (h : kv ∈ l.insert i v) : kv = (i, v) ∨ kv ∈ l := by
  unfold Assoc.insert at h
  split at h
  · exact Assoc.mem_replace h
  · exact Assoc.mem_place h

theorem Assoc.find_mem {i : Nat} {v : β} {l : Assoc β} (h : l.find i = some v) : (i, v) ∈ l := by
  induction l with
  | nil => exact absurd h (by simp [Assoc.find])
  | cons x rest ih =>
    obtain ⟨k, u⟩ := x
    simp only [Assoc.find] at h
    split at h
    · rename_i hk; subst hk; cases h; exact List.mem_cons_self ..
    · exact List.mem_cons_of_mem _ (ih h)

theorem Assoc.find_none {i : Nat} {l : Assoc β} (h : l.find i = none) : ∀ kv ∈ l, kv.1 ≠ i := by
  induction l with
  | nil => intro kv hkv; simp at hkv
  | cons x rest ih =>
    obtain ⟨k, u⟩ := x
    simp only [Assoc.find] at h
    split at h
    · exact absurd h (by simp)
    · rename_i hk
      intro kv hkv
      rcases List.mem_cons.1 hkv with rfl | hm
      · exact fun e => hk e.symm
      · exact ih h kv hm

theorem Assoc.sorted_place {i : Nat} {v : β} {l : Assoc β} (h : Assoc.sorted l = true) (hn : ∀ kv ∈ l, kv.1 ≠ i) :
    Assoc.sorted (l.place i v) = true := by
  induction l with
  | nil => rfl
  | cons x rest ih =>
    obtain ⟨k, u⟩ := x
    have hs := Assoc.sorted_cons.1 h
    have hk : k ≠ i := hn (k, u) (List.mem_cons_self ..)
    simp only [Assoc.place]
    split
    · rename_i hlt
      refine Assoc.sorted_cons.2 ⟨?_, h⟩
      intro y hy
      rcases List.mem_cons.1 hy with rfl | hy
      · exact hlt
      · exact Nat.lt_trans hlt (hs.1 y hy)
    · refine Assoc.sorted_cons.2 ⟨?_, ih hs.2 fun kv hkv => hn kv (List.mem_cons_of_mem _ hkv)⟩
      intro y hy
      rcases Assoc.mem_place hy with rfl | hy
      · show k < i; omega
      · exact hs.1 y hy

theorem Assoc.sorted_replace {i : Nat} {v : β} {l : Assoc β} (h : Assoc.sorted l = true) :
    Assoc.sorted (l.replace i v) = true := by
  induction l with
  | nil => rfl
  | cons x rest ih =>
    obtain ⟨k, u⟩ := x
    have hs := Assoc.sorted_cons.1 h
    simp only [Assoc.replace]
    split
    · rename_i hk; subst hk; exact Assoc.sorted_cons.2 hs
    · refine Assoc.sorted_cons.2 ⟨?_, ih hs.2⟩
      clear ih h
      intro y hy
      induction rest with
      | nil => simp [Assoc.replace] at hy
      | cons z zs ihz =>
        obtain ⟨kz, uz⟩ := z
        simp only [Assoc.replace] at hy
        split at hy
        · rename_i hz
          subst hz
          rcases List.mem_cons.1 hy with rfl | hy
          · exact hs.1 (i, uz) (List.mem_cons_self ..)
          · exact hs.1 y (List.mem_cons_of_mem _ hy)
        · rcases List.mem_cons.1 hy with rfl | hy
          · exact hs.1 _ (List.mem_cons_self ..)
          · exact ihz ⟨fun w hw => hs.1 w (List.mem_cons_of_mem _ hw), (Assoc.sorted_cons.1 hs.2).2⟩ hy

theorem Assoc.sorted_insert {i : Nat} {v : β} {l : Assoc β} (h : Assoc.sorted l = true) :
    Assoc.sorted (l.insert i v) = true := by
  unfold Assoc.insert
  split
  · exact Assoc.sorted_replace h
  · rename_i hn
    exact Assoc.sorted_place h (Assoc.find_none (by simpa using hn))

theorem Assoc.erase_sub {i : Nat} {l : Assoc β} {kv : Nat × β} (h : kv ∈ l.erase i) : kv ∈ l := (List.mem_filter.1 h).1

theorem Assoc.sorted_filter {p : Nat × β → Bool} {l : Assoc β} (h : Assoc.sorted l = true) :
    Assoc.sorted (l.filter p) = true := by
  induction l with
  | nil => rfl
  | cons x rest ih =>
    obtain ⟨k, u⟩ := x
    have hs := Assoc.sorted_cons.1 h
    simp only [List.filter]
    split
    · exact Assoc.sorted_cons.2 ⟨fun x hx => hs.1 x ((List.mem_filter.1 hx).1), ih hs.2⟩
    · exact ih hs.2

theorem Assoc.sorted_erase {i : Nat} {l : Assoc β} (h : Assoc.sorted l = true) : Assoc.sorted (l.erase i) = true :=
  Assoc.sorted_filter h

theorem Assoc.find_place {i j : Nat} {v : β} {l : Assoc β} (h : l.find i = none) :
    (l.place i v).find j = if j = i then some v else l.find j := by
  induction l with
  | nil => simp [Assoc.place, Assoc.find]
  | cons x rest ih =>
    obtain ⟨k, u⟩ := x
    have hk : i ≠ k := fun e => Assoc.find_none h (k, u) (List.mem_cons_self ..) e.symm
    have hr : Assoc.find rest i = none := by simpa [Assoc.find, hk] using h
    simp only [Assoc.place]
    split
    · simp only [Assoc.find]
    · simp only [Assoc.find, ih hr]
      by_cases hj : j = i
      · subst hj; simp [hk]
      · simp [hj]

theorem Assoc.find_replace {i j : Nat} {v : β} {l : Assoc β} (h : (l.find i).isSome) :
    (l.replace i v).find j = if j = i then some v else l.find j := by
  induction l with
  | nil => exact absurd h (by simp [Assoc.find])
  | cons x rest ih =>
    obtain ⟨k, u⟩ := x
    simp only [Assoc.replace]
    split
    · rename_i hk
      subst hk
      simp only [Assoc.find]
      by_cases hj : j = i <;> simp [hj]
    · rename_i hk
      have hr : (Assoc.find rest i).isSome := by simpa [Assoc.find, hk] using h
      simp only [Assoc.find, ih hr]
      by_cases hj : j = i
      · subst hj; simp [hk]
      · simp [hj]

/-- A read of a key after a write: the value written, or what stood there. -/
theorem Assoc.find_insert {i j : Nat} {v : β} {l : Assoc β} :
    (l.insert i v).find j = if j = i then some v else l.find j := by
  unfold Assoc.insert
  split
  · rename_i h; exact Assoc.find_replace h
  · rename_i h; exact Assoc.find_place (by simpa using h)

/-- Keys that a filter keeps read as before, the others as nothing. -/
theorem Assoc.find_filter {p : Nat → Bool} {j : Nat} {l : Assoc β} :
    Assoc.find (l.filter fun kv => p kv.1) j = if p j then l.find j else none := by
  induction l with
  | nil => simp [Assoc.find]
  | cons x rest ih =>
    obtain ⟨k, u⟩ := x
    simp only [List.filter]
    by_cases hj : j = k
    · subst hj
      cases hp : p j <;> simp [Assoc.find, hp, ih]
    · cases hp : p k <;> simp [Assoc.find, hj, ih]

theorem Assoc.find_erase {i j : Nat} {l : Assoc β} : (l.erase i).find j = if j = i then none else l.find j := by
  unfold Assoc.erase
  rw [Assoc.find_filter (p := fun k => k != i)]
  by_cases h : j = i <;> simp [h]

/-- Writing what a key holds already changes nothing. -/
theorem Assoc.insert_same {i : Nat} {v : β} {l : Assoc β} (h : l.find i = some v) : l.insert i v = l := by
  have hr : l.replace i v = l := by
    induction l with
    | nil => rfl
    | cons x rest ih =>
      obtain ⟨k, u⟩ := x
      simp only [Assoc.find] at h
      simp only [Assoc.replace]
      split at h
      · rename_i hk; subst hk; cases h; simp
      · rename_i hk; simp [hk, ih h]
  simp [Assoc.insert, h, hr]

/-- Of two writes of one key the later stands. -/
theorem Assoc.insert_insert {i : Nat} {u v : β} {l : Assoc β} : (l.insert i u).insert i v = l.insert i v := by
  have h1 : ∀ l : Assoc β, (l.replace i u).replace i v = l.replace i v := by
    intro l
    induction l with
    | nil => rfl
    | cons x rest ih =>
      obtain ⟨k, w⟩ := x
      by_cases hk : i = k <;> simp [Assoc.replace, hk, ih]
  have h2 : ∀ l : Assoc β, l.find i = none → (l.place i u).replace i v = l.place i v := by
    intro l h
    induction l with
    | nil => simp [Assoc.place, Assoc.replace]
    | cons x rest ih =>
      obtain ⟨k, w⟩ := x
      have hk : i ≠ k := fun e => Assoc.find_none h (k, w) (List.mem_cons_self ..) e.symm
      have hr : Assoc.find rest i = none := by simpa [Assoc.find, hk] using h
      by_cases hlt : i < k <;> simp [Assoc.place, Assoc.replace, hlt, hk, ih hr]
  rw [Assoc.insert, if_pos (by rw [Assoc.find_insert]; simp)]
  unfold Assoc.insert
  split
  · exact h1 l
  · rename_i h; exact h2 l (by simpa using h)

theorem Assoc.get_put [DecidableEq β] {d v : β} {i j : Nat} {l : Assoc β} :
    Assoc.get d (Assoc.put d l i v) j = if j = i then v else Assoc.get d l j := by
  unfold Assoc.get Assoc.put
  split
  · rename_i h
    rw [Assoc.find_erase]
    by_cases hj : j = i <;> simp [hj, h]
  · rw [Assoc.find_insert]
    by_cases hj : j = i <;> simp [hj]

theorem Assoc.get_insert {d v : β} {i j : Nat} {l : Assoc β} :
    Assoc.get d (l.insert i v) j = if j = i then v else Assoc.get d l j := by
  unfold Assoc.get
  rw [Assoc.find_insert]
  by_cases hj : j = i <;> simp [hj]

end Tables

/-! ### The canonical form of memory -/

theorem memoryWf_iff {m : List Host.Cell} :
    memoryWf m = true ↔ Assoc.sorted m = true ∧ ∀ c ∈ m, c.2 ≠ 0 := by
  simp [memoryWf, List.all_eq_true]

theorem memoryWf_nil : memoryWf [] = true := rfl

/-- A write of one byte keeps the canonical form. -/
theorem memoryWf_put {m : List Host.Cell} {k : Nat} {b : Byte} (h : memoryWf m = true) :
    memoryWf (Assoc.put 0 m k b) = true := by
  rw [memoryWf_iff] at h ⊢
  unfold Assoc.put
  split
  · exact ⟨Assoc.sorted_erase h.1, fun c hc => h.2 c (Assoc.erase_sub hc)⟩
  · rename_i hb
    refine ⟨Assoc.sorted_insert h.1, fun c hc => ?_⟩
    rcases Assoc.mem_insert hc with rfl | hc
    · exact hb
    · exact h.2 c hc

/-- Forgetting cells keeps it. -/
theorem memoryWf_filter {m : List Host.Cell} {p : Host.Cell → Bool} (h : memoryWf m = true) :
    memoryWf (m.filter p) = true := by
  rw [memoryWf_iff] at h ⊢
  exact ⟨Assoc.sorted_filter h.1, fun c hc => h.2 c ((List.mem_filter.1 hc).1)⟩

theorem setByte_wf {s : State} {k : Nat} {b : Byte} (h : memoryWf s.mem = true) : memoryWf (s.setByte k b).mem = true :=
  memoryWf_put h

theorem setBytes_wf {s : State} {k : Nat} {bs : List Byte} (h : memoryWf s.mem = true) :
    memoryWf (s.setBytes k bs).mem = true := by
  induction bs generalizing s k with
  | nil => exact h
  | cons b rest ih => exact ih (setByte_wf h)

theorem setWord_wf {s : State} {k : Nat} {v : Word} (h : memoryWf s.mem = true) : memoryWf (s.setWord k v).mem = true :=
  setBytes_wf h

/-! ### Reading bytes after writing them -/

/-- The byte written reads back, every other byte as before. -/
theorem byte_setByte {s : State} {k j : Nat} {b : Byte} : (s.setByte k b).byte j = if j = k then b else s.byte j :=
  Assoc.get_put

/-- After a write of bytes from `k` on: the bytes written, and every other byte as before. -/
theorem byte_setBytes {s : State} {k j : Nat} {bs : List Byte} :
    (s.setBytes k bs).byte j = if k ≤ j ∧ j < k + bs.length then bs.getD (j - k) 0 else s.byte j := by
  induction bs generalizing s k with
  | nil =>
    have hn : ¬(k ≤ j ∧ j < k + 0) := by omega
    simp only [State.setBytes, List.length_nil, if_neg hn]
  | cons b rest ih =>
    simp only [State.setBytes, List.length_cons]
    rw [ih, byte_setByte]
    by_cases h1 : k + 1 ≤ j ∧ j < k + 1 + rest.length
    · rw [if_pos h1, if_pos (by omega)]
      have : j - k = (j - (k + 1)) + 1 := by omega
      rw [this]
      simp
    · rw [if_neg h1]
      by_cases h2 : j = k
      · subst h2
        rw [if_pos rfl, if_pos (by omega)]
        simp
      · rw [if_neg h2, if_neg (by omega)]

/-! ### Blocks and raw writes -/

theorem clearErrs_mem {s : State} {k : Nat} : (s.clearErrs k).mem = s.mem := by
  unfold State.clearErrs
  have h : ∀ (l : List Nat) (s : State), (l.foldl (fun s i => s.setErr (k + 8 * i) 0) s).mem = s.mem := by
    intro l
    induction l with
    | nil => intro s; rfl
    | cons i rest ih => intro s; exact ih _
  exact h _ s

/-- What a block write does after its 64 bytes are written changes no byte. -/
theorem setBlock_rest_mem {u : State} {k : Nat} {d : Option Desc} : (let s := u.clearErrs k
    let s := { s with badTags := s.badTags.filter (· != k) }
    match d with
    | some d => if isHost k then s else s.setDesc k d
    | none => s).mem = u.mem := by
  cases d with
  | none => simp only [clearErrs_mem]
  | some d =>
    dsimp only
    cases isHost k with
    | true => simp only [clearErrs_mem, if_true]
    | false => simp only [State.setDesc, clearErrs_mem, Bool.false_eq_true, if_false]

/-- A block write changes the bytes of memory as a write of its 64 bytes does. -/
theorem setBlock_mem {s : State} {k : Nat} {b : Block} {d : Option Desc} : (s.setBlock k b d).mem = (s.setBytes k (leBytes 64 b)).mem := by
  unfold State.setBlock
  exact setBlock_rest_mem

theorem setBlock_wf {s : State} {k : Nat} {b : Block} {d : Option Desc} (h : memoryWf s.mem = true) :
    memoryWf (s.setBlock k b d).mem = true := by
  rw [setBlock_mem]
  exact setBytes_wf h

theorem byte_setBlock {s : State} {k j : Nat} {b : Block} {d : Option Desc} :
    (s.setBlock k b d).byte j = (s.setBytes k (leBytes 64 b)).byte j := by
  unfold State.byte
  rw [setBlock_mem]

end Sys2Proof.Machine
end

