-- ==== Sys2Proof/Laws/State.lean ====
section
/-! SUPPORT. What each small update of the state and of a strand leaves as it is, one lemma per field and update, and what
it makes of the field it changes. -/

namespace Sys2Proof.Machine

/-! `setStrand` changes `strands` alone. -/

@[simp] theorem State.setStrand_mem (s : State) (st : Strand) : (s.setStrand st).mem = s.mem := rfl
@[simp] theorem State.setStrand_descs (s : State) (st : Strand) : (s.setStrand st).descs = s.descs := rfl
@[simp] theorem State.setStrand_errs (s : State) (st : Strand) : (s.setStrand st).errs = s.errs := rfl
@[simp] theorem State.setStrand_badTags (s : State) (st : Strand) : (s.setStrand st).badTags = s.badTags := rfl
@[simp] theorem State.setStrand_seals (s : State) (st : Strand) : (s.setStrand st).seals = s.seals := rfl
@[simp] theorem State.setStrand_cores (s : State) (st : Strand) : (s.setStrand st).cores = s.cores := rfl
@[simp] theorem State.setStrand_lcores (s : State) (st : Strand) : (s.setStrand st).lcores = s.lcores := rfl
@[simp] theorem State.setStrand_clusters (s : State) (st : Strand) : (s.setStrand st).clusters = s.clusters := rfl
@[simp] theorem State.setStrand_engines (s : State) (st : Strand) : (s.setStrand st).engines = s.engines := rfl
@[simp] theorem State.setStrand_links (s : State) (st : Strand) : (s.setStrand st).links = s.links := rfl
@[simp] theorem State.setStrand_pairs (s : State) (st : Strand) : (s.setStrand st).pairs = s.pairs := rfl
@[simp] theorem State.setStrand_tokens (s : State) (st : Strand) : (s.setStrand st).tokens = s.tokens := rfl
@[simp] theorem State.setStrand_scopes (s : State) (st : Strand) : (s.setStrand st).scopes = s.scopes := rfl
@[simp] theorem State.setStrand_launches (s : State) (st : Strand) : (s.setStrand st).launches = s.launches := rfl
@[simp] theorem State.setStrand_gangs (s : State) (st : Strand) : (s.setStrand st).gangs = s.gangs := rfl
@[simp] theorem State.setStrand_images (s : State) (st : Strand) : (s.setStrand st).images = s.images := rfl
@[simp] theorem State.setStrand_domains (s : State) (st : Strand) : (s.setStrand st).domains = s.domains := rfl
@[simp] theorem State.setStrand_kept (s : State) (st : Strand) : (s.setStrand st).kept = s.kept := rfl
@[simp] theorem State.setStrand_spares (s : State) (st : Strand) : (s.setStrand st).spares = s.spares := rfl
@[simp] theorem State.setStrand_trans (s : State) (st : Strand) : (s.setStrand st).trans = s.trans := rfl
@[simp] theorem State.setStrand_oldTrans (s : State) (st : Strand) : (s.setStrand st).oldTrans = s.oldTrans := rfl
@[simp] theorem State.setStrand_pages (s : State) (st : Strand) : (s.setStrand st).pages = s.pages := rfl
@[simp] theorem State.setStrand_pageAlloc (s : State) (st : Strand) : (s.setStrand st).pageAlloc = s.pageAlloc := rfl
@[simp] theorem State.setStrand_pagesOn (s : State) (st : Strand) : (s.setStrand st).pagesOn = s.pagesOn := rfl
@[simp] theorem State.setStrand_invalidations (s : State) (st : Strand) : (s.setStrand st).invalidations = s.invalidations := rfl
@[simp] theorem State.setStrand_devwin (s : State) (st : Strand) : (s.setStrand st).devwin = s.devwin := rfl
@[simp] theorem State.setStrand_hostSeq (s : State) (st : Strand) : (s.setStrand st).hostSeq = s.hostSeq := rfl
@[simp] theorem State.setStrand_bellSeq (s : State) (st : Strand) : (s.setStrand st).bellSeq = s.bellSeq := rfl
@[simp] theorem State.setStrand_cxlRanges (s : State) (st : Strand) : (s.setStrand st).cxlRanges = s.cxlRanges := rfl
@[simp] theorem State.setStrand_unitLogs (s : State) (st : Strand) : (s.setStrand st).unitLogs = s.unitLogs := rfl
@[simp] theorem State.setStrand_unitInject (s : State) (st : Strand) : (s.setStrand st).unitInject = s.unitInject := rfl
@[simp] theorem State.setStrand_parts (s : State) (st : Strand) : (s.setStrand st).parts = s.parts := rfl
@[simp] theorem State.setStrand_peers (s : State) (st : Strand) : (s.setStrand st).peers = s.peers := rfl
@[simp] theorem State.setStrand_peerOut (s : State) (st : Strand) : (s.setStrand st).peerOut = s.peerOut := rfl
@[simp] theorem State.setStrand_powerCap (s : State) (st : Strand) : (s.setStrand st).powerCap = s.powerCap := rfl
@[simp] theorem State.setStrand_noAdmit (s : State) (st : Strand) : (s.setStrand st).noAdmit = s.noAdmit := rfl
@[simp] theorem State.setStrand_supply (s : State) (st : Strand) : (s.setStrand st).supply = s.supply := rfl
@[simp] theorem State.setStrand_powerOff (s : State) (st : Strand) : (s.setStrand st).powerOff = s.powerOff := rfl
@[simp] theorem State.setStrand_cycle (s : State) (st : Strand) : (s.setStrand st).cycle = s.cycle := rfl
@[simp] theorem State.setStrand_kiln (s : State) (st : Strand) : (s.setStrand st).kiln = s.kiln := rfl
@[simp] theorem State.setStrand_ltimes (s : State) (st : Strand) : (s.setStrand st).ltimes = s.ltimes := rfl
@[simp] theorem State.setStrand_stuck (s : State) (st : Strand) : (s.setStrand st).stuck = s.stuck := rfl
@[simp] theorem State.setStrand_doneWords (s : State) (st : Strand) : (s.setStrand st).doneWords = s.doneWords := rfl
@[simp] theorem State.setStrand_agenda (s : State) (st : Strand) : (s.setStrand st).agenda = s.agenda := rfl
@[simp] theorem State.setStrand_outst (s : State) (st : Strand) : (s.setStrand st).outst = s.outst := rfl
@[simp] theorem State.setStrand_served (s : State) (st : Strand) : (s.setStrand st).served = s.served := rfl
@[simp] theorem State.setStrand_idleAt (s : State) (st : Strand) : (s.setStrand st).idleAt = s.idleAt := rfl
@[simp] theorem State.setStrand_sched (s : State) (st : Strand) : (s.setStrand st).sched = s.sched := rfl
@[simp] theorem State.setStrand_turn (s : State) (st : Strand) : (s.setStrand st).turn = s.turn := rfl
@[simp] theorem State.setStrand_cur (s : State) (st : Strand) : (s.setStrand st).cur = s.cur := rfl
@[simp] theorem State.setStrand_curHart (s : State) (st : Strand) : (s.setStrand st).curHart = s.curHart := rfl
@[simp] theorem State.setStrand_arg (s : State) (st : Strand) : (s.setStrand st).arg = s.arg := rfl
@[simp] theorem State.setStrand_fresh (s : State) (st : Strand) : (s.setStrand st).fresh = s.fresh := rfl

/-! `dropStrand` changes `strands` alone. -/

@[simp] theorem State.dropStrand_mem (s : State) (sk : Nat) : (s.dropStrand sk).mem = s.mem := rfl
@[simp] theorem State.dropStrand_descs (s : State) (sk : Nat) : (s.dropStrand sk).descs = s.descs := rfl
@[simp] theorem State.dropStrand_errs (s : State) (sk : Nat) : (s.dropStrand sk).errs = s.errs := rfl
@[simp] theorem State.dropStrand_badTags (s : State) (sk : Nat) : (s.dropStrand sk).badTags = s.badTags := rfl
@[simp] theorem State.dropStrand_seals (s : State) (sk : Nat) : (s.dropStrand sk).seals = s.seals := rfl
@[simp] theorem State.dropStrand_cores (s : State) (sk : Nat) : (s.dropStrand sk).cores = s.cores := rfl
@[simp] theorem State.dropStrand_lcores (s : State) (sk : Nat) : (s.dropStrand sk).lcores = s.lcores := rfl
@[simp] theorem State.dropStrand_clusters (s : State) (sk : Nat) : (s.dropStrand sk).clusters = s.clusters := rfl
@[simp] theorem State.dropStrand_engines (s : State) (sk : Nat) : (s.dropStrand sk).engines = s.engines := rfl
@[simp] theorem State.dropStrand_links (s : State) (sk : Nat) : (s.dropStrand sk).links = s.links := rfl
@[simp] theorem State.dropStrand_pairs (s : State) (sk : Nat) : (s.dropStrand sk).pairs = s.pairs := rfl
@[simp] theorem State.dropStrand_tokens (s : State) (sk : Nat) : (s.dropStrand sk).tokens = s.tokens := rfl
@[simp] theorem State.dropStrand_scopes (s : State) (sk : Nat) : (s.dropStrand sk).scopes = s.scopes := rfl
@[simp] theorem State.dropStrand_launches (s : State) (sk : Nat) : (s.dropStrand sk).launches = s.launches := rfl
@[simp] theorem State.dropStrand_gangs (s : State) (sk : Nat) : (s.dropStrand sk).gangs = s.gangs := rfl
@[simp] theorem State.dropStrand_images (s : State) (sk : Nat) : (s.dropStrand sk).images = s.images := rfl
@[simp] theorem State.dropStrand_domains (s : State) (sk : Nat) : (s.dropStrand sk).domains = s.domains := rfl
@[simp] theorem State.dropStrand_kept (s : State) (sk : Nat) : (s.dropStrand sk).kept = s.kept := rfl
@[simp] theorem State.dropStrand_spares (s : State) (sk : Nat) : (s.dropStrand sk).spares = s.spares := rfl
@[simp] theorem State.dropStrand_trans (s : State) (sk : Nat) : (s.dropStrand sk).trans = s.trans := rfl
@[simp] theorem State.dropStrand_oldTrans (s : State) (sk : Nat) : (s.dropStrand sk).oldTrans = s.oldTrans := rfl
@[simp] theorem State.dropStrand_pages (s : State) (sk : Nat) : (s.dropStrand sk).pages = s.pages := rfl
@[simp] theorem State.dropStrand_pageAlloc (s : State) (sk : Nat) : (s.dropStrand sk).pageAlloc = s.pageAlloc := rfl
@[simp] theorem State.dropStrand_pagesOn (s : State) (sk : Nat) : (s.dropStrand sk).pagesOn = s.pagesOn := rfl
@[simp] theorem State.dropStrand_invalidations (s : State) (sk : Nat) : (s.dropStrand sk).invalidations = s.invalidations := rfl
@[simp] theorem State.dropStrand_devwin (s : State) (sk : Nat) : (s.dropStrand sk).devwin = s.devwin := rfl
@[simp] theorem State.dropStrand_hostSeq (s : State) (sk : Nat) : (s.dropStrand sk).hostSeq = s.hostSeq := rfl
@[simp] theorem State.dropStrand_bellSeq (s : State) (sk : Nat) : (s.dropStrand sk).bellSeq = s.bellSeq := rfl
@[simp] theorem State.dropStrand_cxlRanges (s : State) (sk : Nat) : (s.dropStrand sk).cxlRanges = s.cxlRanges := rfl
@[simp] theorem State.dropStrand_unitLogs (s : State) (sk : Nat) : (s.dropStrand sk).unitLogs = s.unitLogs := rfl
@[simp] theorem State.dropStrand_unitInject (s : State) (sk : Nat) : (s.dropStrand sk).unitInject = s.unitInject := rfl
@[simp] theorem State.dropStrand_parts (s : State) (sk : Nat) : (s.dropStrand sk).parts = s.parts := rfl
@[simp] theorem State.dropStrand_peers (s : State) (sk : Nat) : (s.dropStrand sk).peers = s.peers := rfl
@[simp] theorem State.dropStrand_peerOut (s : State) (sk : Nat) : (s.dropStrand sk).peerOut = s.peerOut := rfl
@[simp] theorem State.dropStrand_powerCap (s : State) (sk : Nat) : (s.dropStrand sk).powerCap = s.powerCap := rfl
@[simp] theorem State.dropStrand_noAdmit (s : State) (sk : Nat) : (s.dropStrand sk).noAdmit = s.noAdmit := rfl
@[simp] theorem State.dropStrand_supply (s : State) (sk : Nat) : (s.dropStrand sk).supply = s.supply := rfl
@[simp] theorem State.dropStrand_powerOff (s : State) (sk : Nat) : (s.dropStrand sk).powerOff = s.powerOff := rfl
@[simp] theorem State.dropStrand_cycle (s : State) (sk : Nat) : (s.dropStrand sk).cycle = s.cycle := rfl
@[simp] theorem State.dropStrand_kiln (s : State) (sk : Nat) : (s.dropStrand sk).kiln = s.kiln := rfl
@[simp] theorem State.dropStrand_ltimes (s : State) (sk : Nat) : (s.dropStrand sk).ltimes = s.ltimes := rfl
@[simp] theorem State.dropStrand_stuck (s : State) (sk : Nat) : (s.dropStrand sk).stuck = s.stuck := rfl
@[simp] theorem State.dropStrand_doneWords (s : State) (sk : Nat) : (s.dropStrand sk).doneWords = s.doneWords := rfl
@[simp] theorem State.dropStrand_agenda (s : State) (sk : Nat) : (s.dropStrand sk).agenda = s.agenda := rfl
@[simp] theorem State.dropStrand_outst (s : State) (sk : Nat) : (s.dropStrand sk).outst = s.outst := rfl
@[simp] theorem State.dropStrand_served (s : State) (sk : Nat) : (s.dropStrand sk).served = s.served := rfl
@[simp] theorem State.dropStrand_idleAt (s : State) (sk : Nat) : (s.dropStrand sk).idleAt = s.idleAt := rfl
@[simp] theorem State.dropStrand_sched (s : State) (sk : Nat) : (s.dropStrand sk).sched = s.sched := rfl
@[simp] theorem State.dropStrand_turn (s : State) (sk : Nat) : (s.dropStrand sk).turn = s.turn := rfl
@[simp] theorem State.dropStrand_cur (s : State) (sk : Nat) : (s.dropStrand sk).cur = s.cur := rfl
@[simp] theorem State.dropStrand_curHart (s : State) (sk : Nat) : (s.dropStrand sk).curHart = s.curHart := rfl
@[simp] theorem State.dropStrand_arg (s : State) (sk : Nat) : (s.dropStrand sk).arg = s.arg := rfl
@[simp] theorem State.dropStrand_fresh (s : State) (sk : Nat) : (s.dropStrand sk).fresh = s.fresh := rfl

/-! `setCore` changes `cores` alone. -/

@[simp] theorem State.setCore_mem (s : State) (p : Nat) (c : Core) : (s.setCore p c).mem = s.mem := rfl
@[simp] theorem State.setCore_descs (s : State) (p : Nat) (c : Core) : (s.setCore p c).descs = s.descs := rfl
@[simp] theorem State.setCore_errs (s : State) (p : Nat) (c : Core) : (s.setCore p c).errs = s.errs := rfl
@[simp] theorem State.setCore_badTags (s : State) (p : Nat) (c : Core) : (s.setCore p c).badTags = s.badTags := rfl
@[simp] theorem State.setCore_seals (s : State) (p : Nat) (c : Core) : (s.setCore p c).seals = s.seals := rfl
@[simp] theorem State.setCore_strands (s : State) (p : Nat) (c : Core) : (s.setCore p c).strands = s.strands := rfl
@[simp] theorem State.setCore_lcores (s : State) (p : Nat) (c : Core) : (s.setCore p c).lcores = s.lcores := rfl
@[simp] theorem State.setCore_clusters (s : State) (p : Nat) (c : Core) : (s.setCore p c).clusters = s.clusters := rfl
@[simp] theorem State.setCore_engines (s : State) (p : Nat) (c : Core) : (s.setCore p c).engines = s.engines := rfl
@[simp] theorem State.setCore_links (s : State) (p : Nat) (c : Core) : (s.setCore p c).links = s.links := rfl
@[simp] theorem State.setCore_pairs (s : State) (p : Nat) (c : Core) : (s.setCore p c).pairs = s.pairs := rfl
@[simp] theorem State.setCore_tokens (s : State) (p : Nat) (c : Core) : (s.setCore p c).tokens = s.tokens := rfl
@[simp] theorem State.setCore_scopes (s : State) (p : Nat) (c : Core) : (s.setCore p c).scopes = s.scopes := rfl
@[simp] theorem State.setCore_launches (s : State) (p : Nat) (c : Core) : (s.setCore p c).launches = s.launches := rfl
@[simp] theorem State.setCore_gangs (s : State) (p : Nat) (c : Core) : (s.setCore p c).gangs = s.gangs := rfl
@[simp] theorem State.setCore_images (s : State) (p : Nat) (c : Core) : (s.setCore p c).images = s.images := rfl
@[simp] theorem State.setCore_domains (s : State) (p : Nat) (c : Core) : (s.setCore p c).domains = s.domains := rfl
@[simp] theorem State.setCore_kept (s : State) (p : Nat) (c : Core) : (s.setCore p c).kept = s.kept := rfl
@[simp] theorem State.setCore_spares (s : State) (p : Nat) (c : Core) : (s.setCore p c).spares = s.spares := rfl
@[simp] theorem State.setCore_trans (s : State) (p : Nat) (c : Core) : (s.setCore p c).trans = s.trans := rfl
@[simp] theorem State.setCore_oldTrans (s : State) (p : Nat) (c : Core) : (s.setCore p c).oldTrans = s.oldTrans := rfl
@[simp] theorem State.setCore_pages (s : State) (p : Nat) (c : Core) : (s.setCore p c).pages = s.pages := rfl
@[simp] theorem State.setCore_pageAlloc (s : State) (p : Nat) (c : Core) : (s.setCore p c).pageAlloc = s.pageAlloc := rfl
@[simp] theorem State.setCore_pagesOn (s : State) (p : Nat) (c : Core) : (s.setCore p c).pagesOn = s.pagesOn := rfl
@[simp] theorem State.setCore_invalidations (s : State) (p : Nat) (c : Core) : (s.setCore p c).invalidations = s.invalidations := rfl
@[simp] theorem State.setCore_devwin (s : State) (p : Nat) (c : Core) : (s.setCore p c).devwin = s.devwin := rfl
@[simp] theorem State.setCore_hostSeq (s : State) (p : Nat) (c : Core) : (s.setCore p c).hostSeq = s.hostSeq := rfl
@[simp] theorem State.setCore_bellSeq (s : State) (p : Nat) (c : Core) : (s.setCore p c).bellSeq = s.bellSeq := rfl
@[simp] theorem State.setCore_cxlRanges (s : State) (p : Nat) (c : Core) : (s.setCore p c).cxlRanges = s.cxlRanges := rfl
@[simp] theorem State.setCore_unitLogs (s : State) (p : Nat) (c : Core) : (s.setCore p c).unitLogs = s.unitLogs := rfl
@[simp] theorem State.setCore_unitInject (s : State) (p : Nat) (c : Core) : (s.setCore p c).unitInject = s.unitInject := rfl
@[simp] theorem State.setCore_parts (s : State) (p : Nat) (c : Core) : (s.setCore p c).parts = s.parts := rfl
@[simp] theorem State.setCore_peers (s : State) (p : Nat) (c : Core) : (s.setCore p c).peers = s.peers := rfl
@[simp] theorem State.setCore_peerOut (s : State) (p : Nat) (c : Core) : (s.setCore p c).peerOut = s.peerOut := rfl
@[simp] theorem State.setCore_powerCap (s : State) (p : Nat) (c : Core) : (s.setCore p c).powerCap = s.powerCap := rfl
@[simp] theorem State.setCore_noAdmit (s : State) (p : Nat) (c : Core) : (s.setCore p c).noAdmit = s.noAdmit := rfl
@[simp] theorem State.setCore_supply (s : State) (p : Nat) (c : Core) : (s.setCore p c).supply = s.supply := rfl
@[simp] theorem State.setCore_powerOff (s : State) (p : Nat) (c : Core) : (s.setCore p c).powerOff = s.powerOff := rfl
@[simp] theorem State.setCore_cycle (s : State) (p : Nat) (c : Core) : (s.setCore p c).cycle = s.cycle := rfl
@[simp] theorem State.setCore_kiln (s : State) (p : Nat) (c : Core) : (s.setCore p c).kiln = s.kiln := rfl
@[simp] theorem State.setCore_ltimes (s : State) (p : Nat) (c : Core) : (s.setCore p c).ltimes = s.ltimes := rfl
@[simp] theorem State.setCore_stuck (s : State) (p : Nat) (c : Core) : (s.setCore p c).stuck = s.stuck := rfl
@[simp] theorem State.setCore_doneWords (s : State) (p : Nat) (c : Core) : (s.setCore p c).doneWords = s.doneWords := rfl
@[simp] theorem State.setCore_agenda (s : State) (p : Nat) (c : Core) : (s.setCore p c).agenda = s.agenda := rfl
@[simp] theorem State.setCore_outst (s : State) (p : Nat) (c : Core) : (s.setCore p c).outst = s.outst := rfl
@[simp] theorem State.setCore_served (s : State) (p : Nat) (c : Core) : (s.setCore p c).served = s.served := rfl
@[simp] theorem State.setCore_idleAt (s : State) (p : Nat) (c : Core) : (s.setCore p c).idleAt = s.idleAt := rfl
@[simp] theorem State.setCore_sched (s : State) (p : Nat) (c : Core) : (s.setCore p c).sched = s.sched := rfl
@[simp] theorem State.setCore_turn (s : State) (p : Nat) (c : Core) : (s.setCore p c).turn = s.turn := rfl
@[simp] theorem State.setCore_cur (s : State) (p : Nat) (c : Core) : (s.setCore p c).cur = s.cur := rfl
@[simp] theorem State.setCore_curHart (s : State) (p : Nat) (c : Core) : (s.setCore p c).curHart = s.curHart := rfl
@[simp] theorem State.setCore_arg (s : State) (p : Nat) (c : Core) : (s.setCore p c).arg = s.arg := rfl
@[simp] theorem State.setCore_fresh (s : State) (p : Nat) (c : Core) : (s.setCore p c).fresh = s.fresh := rfl

/-! `modCore` changes `cores` alone. -/

@[simp] theorem State.modCore_mem (s : State) (p : Nat) (f : Core → Core) : (s.modCore p f).mem = s.mem := rfl
@[simp] theorem State.modCore_descs (s : State) (p : Nat) (f : Core → Core) : (s.modCore p f).descs = s.descs := rfl
@[simp] theorem State.modCore_errs (s : State) (p : Nat) (f : Core → Core) : (s.modCore p f).errs = s.errs := rfl
@[simp] theorem State.modCore_badTags (s : State) (p : Nat) (f : Core → Core) : (s.modCore p f).badTags = s.badTags := rfl
@[simp] theorem State.modCore_seals (s : State) (p : Nat) (f : Core → Core) : (s.modCore p f).seals = s.seals := rfl
@[simp] theorem State.modCore_strands (s : State) (p : Nat) (f : Core → Core) : (s.modCore p f).strands = s.strands := rfl
@[simp] theorem State.modCore_lcores (s : State) (p : Nat) (f : Core → Core) : (s.modCore p f).lcores = s.lcores := rfl
@[simp] theorem State.modCore_clusters (s : State) (p : Nat) (f : Core → Core) : (s.modCore p f).clusters = s.clusters := rfl
@[simp] theorem State.modCore_engines (s : State) (p : Nat) (f : Core → Core) : (s.modCore p f).engines = s.engines := rfl
@[simp] theorem State.modCore_links (s : State) (p : Nat) (f : Core → Core) : (s.modCore p f).links = s.links := rfl
@[simp] theorem State.modCore_pairs (s : State) (p : Nat) (f : Core → Core) : (s.modCore p f).pairs = s.pairs := rfl
@[simp] theorem State.modCore_tokens (s : State) (p : Nat) (f : Core → Core) : (s.modCore p f).tokens = s.tokens := rfl
@[simp] theorem State.modCore_scopes (s : State) (p : Nat) (f : Core → Core) : (s.modCore p f).scopes = s.scopes := rfl
@[simp] theorem State.modCore_launches (s : State) (p : Nat) (f : Core → Core) : (s.modCore p f).launches = s.launches := rfl
@[simp] theorem State.modCore_gangs (s : State) (p : Nat) (f : Core → Core) : (s.modCore p f).gangs = s.gangs := rfl
@[simp] theorem State.modCore_images (s : State) (p : Nat) (f : Core → Core) : (s.modCore p f).images = s.images := rfl
@[simp] theorem State.modCore_domains (s : State) (p : Nat) (f : Core → Core) : (s.modCore p f).domains = s.domains := rfl
@[simp] theorem State.modCore_kept (s : State) (p : Nat) (f : Core → Core) : (s.modCore p f).kept = s.kept := rfl
@[simp] theorem State.modCore_spares (s : State) (p : Nat) (f : Core → Core) : (s.modCore p f).spares = s.spares := rfl
@[simp] theorem State.modCore_trans (s : State) (p : Nat) (f : Core → Core) : (s.modCore p f).trans = s.trans := rfl
@[simp] theorem State.modCore_oldTrans (s : State) (p : Nat) (f : Core → Core) : (s.modCore p f).oldTrans = s.oldTrans := rfl
@[simp] theorem State.modCore_pages (s : State) (p : Nat) (f : Core → Core) : (s.modCore p f).pages = s.pages := rfl
@[simp] theorem State.modCore_pageAlloc (s : State) (p : Nat) (f : Core → Core) : (s.modCore p f).pageAlloc = s.pageAlloc := rfl
@[simp] theorem State.modCore_pagesOn (s : State) (p : Nat) (f : Core → Core) : (s.modCore p f).pagesOn = s.pagesOn := rfl
@[simp] theorem State.modCore_invalidations (s : State) (p : Nat) (f : Core → Core) : (s.modCore p f).invalidations = s.invalidations := rfl
@[simp] theorem State.modCore_devwin (s : State) (p : Nat) (f : Core → Core) : (s.modCore p f).devwin = s.devwin := rfl
@[simp] theorem State.modCore_hostSeq (s : State) (p : Nat) (f : Core → Core) : (s.modCore p f).hostSeq = s.hostSeq := rfl
@[simp] theorem State.modCore_bellSeq (s : State) (p : Nat) (f : Core → Core) : (s.modCore p f).bellSeq = s.bellSeq := rfl
@[simp] theorem State.modCore_cxlRanges (s : State) (p : Nat) (f : Core → Core) : (s.modCore p f).cxlRanges = s.cxlRanges := rfl
@[simp] theorem State.modCore_unitLogs (s : State) (p : Nat) (f : Core → Core) : (s.modCore p f).unitLogs = s.unitLogs := rfl
@[simp] theorem State.modCore_unitInject (s : State) (p : Nat) (f : Core → Core) : (s.modCore p f).unitInject = s.unitInject := rfl
@[simp] theorem State.modCore_parts (s : State) (p : Nat) (f : Core → Core) : (s.modCore p f).parts = s.parts := rfl
@[simp] theorem State.modCore_peers (s : State) (p : Nat) (f : Core → Core) : (s.modCore p f).peers = s.peers := rfl
@[simp] theorem State.modCore_peerOut (s : State) (p : Nat) (f : Core → Core) : (s.modCore p f).peerOut = s.peerOut := rfl
@[simp] theorem State.modCore_powerCap (s : State) (p : Nat) (f : Core → Core) : (s.modCore p f).powerCap = s.powerCap := rfl
@[simp] theorem State.modCore_noAdmit (s : State) (p : Nat) (f : Core → Core) : (s.modCore p f).noAdmit = s.noAdmit := rfl
@[simp] theorem State.modCore_supply (s : State) (p : Nat) (f : Core → Core) : (s.modCore p f).supply = s.supply := rfl
@[simp] theorem State.modCore_powerOff (s : State) (p : Nat) (f : Core → Core) : (s.modCore p f).powerOff = s.powerOff := rfl
@[simp] theorem State.modCore_cycle (s : State) (p : Nat) (f : Core → Core) : (s.modCore p f).cycle = s.cycle := rfl
@[simp] theorem State.modCore_kiln (s : State) (p : Nat) (f : Core → Core) : (s.modCore p f).kiln = s.kiln := rfl
@[simp] theorem State.modCore_ltimes (s : State) (p : Nat) (f : Core → Core) : (s.modCore p f).ltimes = s.ltimes := rfl
@[simp] theorem State.modCore_stuck (s : State) (p : Nat) (f : Core → Core) : (s.modCore p f).stuck = s.stuck := rfl
@[simp] theorem State.modCore_doneWords (s : State) (p : Nat) (f : Core → Core) : (s.modCore p f).doneWords = s.doneWords := rfl
@[simp] theorem State.modCore_agenda (s : State) (p : Nat) (f : Core → Core) : (s.modCore p f).agenda = s.agenda := rfl
@[simp] theorem State.modCore_outst (s : State) (p : Nat) (f : Core → Core) : (s.modCore p f).outst = s.outst := rfl
@[simp] theorem State.modCore_served (s : State) (p : Nat) (f : Core → Core) : (s.modCore p f).served = s.served := rfl
@[simp] theorem State.modCore_idleAt (s : State) (p : Nat) (f : Core → Core) : (s.modCore p f).idleAt = s.idleAt := rfl
@[simp] theorem State.modCore_sched (s : State) (p : Nat) (f : Core → Core) : (s.modCore p f).sched = s.sched := rfl
@[simp] theorem State.modCore_turn (s : State) (p : Nat) (f : Core → Core) : (s.modCore p f).turn = s.turn := rfl
@[simp] theorem State.modCore_cur (s : State) (p : Nat) (f : Core → Core) : (s.modCore p f).cur = s.cur := rfl
@[simp] theorem State.modCore_curHart (s : State) (p : Nat) (f : Core → Core) : (s.modCore p f).curHart = s.curHart := rfl
@[simp] theorem State.modCore_arg (s : State) (p : Nat) (f : Core → Core) : (s.modCore p f).arg = s.arg := rfl
@[simp] theorem State.modCore_fresh (s : State) (p : Nat) (f : Core → Core) : (s.modCore p f).fresh = s.fresh := rfl

/-! `modLCore` changes `lcores` alone. -/

@[simp] theorem State.modLCore_mem (s : State) (l : Nat) (f : LCore → LCore) : (s.modLCore l f).mem = s.mem := rfl
@[simp] theorem State.modLCore_descs (s : State) (l : Nat) (f : LCore → LCore) : (s.modLCore l f).descs = s.descs := rfl
@[simp] theorem State.modLCore_errs (s : State) (l : Nat) (f : LCore → LCore) : (s.modLCore l f).errs = s.errs := rfl
@[simp] theorem State.modLCore_badTags (s : State) (l : Nat) (f : LCore → LCore) : (s.modLCore l f).badTags = s.badTags := rfl
@[simp] theorem State.modLCore_seals (s : State) (l : Nat) (f : LCore → LCore) : (s.modLCore l f).seals = s.seals := rfl
@[simp] theorem State.modLCore_strands (s : State) (l : Nat) (f : LCore → LCore) : (s.modLCore l f).strands = s.strands := rfl
@[simp] theorem State.modLCore_cores (s : State) (l : Nat) (f : LCore → LCore) : (s.modLCore l f).cores = s.cores := rfl
@[simp] theorem State.modLCore_clusters (s : State) (l : Nat) (f : LCore → LCore) : (s.modLCore l f).clusters = s.clusters := rfl
@[simp] theorem State.modLCore_engines (s : State) (l : Nat) (f : LCore → LCore) : (s.modLCore l f).engines = s.engines := rfl
@[simp] theorem State.modLCore_links (s : State) (l : Nat) (f : LCore → LCore) : (s.modLCore l f).links = s.links := rfl
@[simp] theorem State.modLCore_pairs (s : State) (l : Nat) (f : LCore → LCore) : (s.modLCore l f).pairs = s.pairs := rfl
@[simp] theorem State.modLCore_tokens (s : State) (l : Nat) (f : LCore → LCore) : (s.modLCore l f).tokens = s.tokens := rfl
@[simp] theorem State.modLCore_scopes (s : State) (l : Nat) (f : LCore → LCore) : (s.modLCore l f).scopes = s.scopes := rfl
@[simp] theorem State.modLCore_launches (s : State) (l : Nat) (f : LCore → LCore) : (s.modLCore l f).launches = s.launches := rfl
@[simp] theorem State.modLCore_gangs (s : State) (l : Nat) (f : LCore → LCore) : (s.modLCore l f).gangs = s.gangs := rfl
@[simp] theorem State.modLCore_images (s : State) (l : Nat) (f : LCore → LCore) : (s.modLCore l f).images = s.images := rfl
@[simp] theorem State.modLCore_domains (s : State) (l : Nat) (f : LCore → LCore) : (s.modLCore l f).domains = s.domains := rfl
@[simp] theorem State.modLCore_kept (s : State) (l : Nat) (f : LCore → LCore) : (s.modLCore l f).kept = s.kept := rfl
@[simp] theorem State.modLCore_spares (s : State) (l : Nat) (f : LCore → LCore) : (s.modLCore l f).spares = s.spares := rfl
@[simp] theorem State.modLCore_trans (s : State) (l : Nat) (f : LCore → LCore) : (s.modLCore l f).trans = s.trans := rfl
@[simp] theorem State.modLCore_oldTrans (s : State) (l : Nat) (f : LCore → LCore) : (s.modLCore l f).oldTrans = s.oldTrans := rfl
@[simp] theorem State.modLCore_pages (s : State) (l : Nat) (f : LCore → LCore) : (s.modLCore l f).pages = s.pages := rfl
@[simp] theorem State.modLCore_pageAlloc (s : State) (l : Nat) (f : LCore → LCore) : (s.modLCore l f).pageAlloc = s.pageAlloc := rfl
@[simp] theorem State.modLCore_pagesOn (s : State) (l : Nat) (f : LCore → LCore) : (s.modLCore l f).pagesOn = s.pagesOn := rfl
@[simp] theorem State.modLCore_invalidations (s : State) (l : Nat) (f : LCore → LCore) : (s.modLCore l f).invalidations = s.invalidations := rfl
@[simp] theorem State.modLCore_devwin (s : State) (l : Nat) (f : LCore → LCore) : (s.modLCore l f).devwin = s.devwin := rfl
@[simp] theorem State.modLCore_hostSeq (s : State) (l : Nat) (f : LCore → LCore) : (s.modLCore l f).hostSeq = s.hostSeq := rfl
@[simp] theorem State.modLCore_bellSeq (s : State) (l : Nat) (f : LCore → LCore) : (s.modLCore l f).bellSeq = s.bellSeq := rfl
@[simp] theorem State.modLCore_cxlRanges (s : State) (l : Nat) (f : LCore → LCore) : (s.modLCore l f).cxlRanges = s.cxlRanges := rfl
@[simp] theorem State.modLCore_unitLogs (s : State) (l : Nat) (f : LCore → LCore) : (s.modLCore l f).unitLogs = s.unitLogs := rfl
@[simp] theorem State.modLCore_unitInject (s : State) (l : Nat) (f : LCore → LCore) : (s.modLCore l f).unitInject = s.unitInject := rfl
@[simp] theorem State.modLCore_parts (s : State) (l : Nat) (f : LCore → LCore) : (s.modLCore l f).parts = s.parts := rfl
@[simp] theorem State.modLCore_peers (s : State) (l : Nat) (f : LCore → LCore) : (s.modLCore l f).peers = s.peers := rfl
@[simp] theorem State.modLCore_peerOut (s : State) (l : Nat) (f : LCore → LCore) : (s.modLCore l f).peerOut = s.peerOut := rfl
@[simp] theorem State.modLCore_powerCap (s : State) (l : Nat) (f : LCore → LCore) : (s.modLCore l f).powerCap = s.powerCap := rfl
@[simp] theorem State.modLCore_noAdmit (s : State) (l : Nat) (f : LCore → LCore) : (s.modLCore l f).noAdmit = s.noAdmit := rfl
@[simp] theorem State.modLCore_supply (s : State) (l : Nat) (f : LCore → LCore) : (s.modLCore l f).supply = s.supply := rfl
@[simp] theorem State.modLCore_powerOff (s : State) (l : Nat) (f : LCore → LCore) : (s.modLCore l f).powerOff = s.powerOff := rfl
@[simp] theorem State.modLCore_cycle (s : State) (l : Nat) (f : LCore → LCore) : (s.modLCore l f).cycle = s.cycle := rfl
@[simp] theorem State.modLCore_kiln (s : State) (l : Nat) (f : LCore → LCore) : (s.modLCore l f).kiln = s.kiln := rfl
@[simp] theorem State.modLCore_ltimes (s : State) (l : Nat) (f : LCore → LCore) : (s.modLCore l f).ltimes = s.ltimes := rfl
@[simp] theorem State.modLCore_stuck (s : State) (l : Nat) (f : LCore → LCore) : (s.modLCore l f).stuck = s.stuck := rfl
@[simp] theorem State.modLCore_doneWords (s : State) (l : Nat) (f : LCore → LCore) : (s.modLCore l f).doneWords = s.doneWords := rfl
@[simp] theorem State.modLCore_agenda (s : State) (l : Nat) (f : LCore → LCore) : (s.modLCore l f).agenda = s.agenda := rfl
@[simp] theorem State.modLCore_outst (s : State) (l : Nat) (f : LCore → LCore) : (s.modLCore l f).outst = s.outst := rfl
@[simp] theorem State.modLCore_served (s : State) (l : Nat) (f : LCore → LCore) : (s.modLCore l f).served = s.served := rfl
@[simp] theorem State.modLCore_idleAt (s : State) (l : Nat) (f : LCore → LCore) : (s.modLCore l f).idleAt = s.idleAt := rfl
@[simp] theorem State.modLCore_sched (s : State) (l : Nat) (f : LCore → LCore) : (s.modLCore l f).sched = s.sched := rfl
@[simp] theorem State.modLCore_turn (s : State) (l : Nat) (f : LCore → LCore) : (s.modLCore l f).turn = s.turn := rfl
@[simp] theorem State.modLCore_cur (s : State) (l : Nat) (f : LCore → LCore) : (s.modLCore l f).cur = s.cur := rfl
@[simp] theorem State.modLCore_curHart (s : State) (l : Nat) (f : LCore → LCore) : (s.modLCore l f).curHart = s.curHart := rfl
@[simp] theorem State.modLCore_arg (s : State) (l : Nat) (f : LCore → LCore) : (s.modLCore l f).arg = s.arg := rfl
@[simp] theorem State.modLCore_fresh (s : State) (l : Nat) (f : LCore → LCore) : (s.modLCore l f).fresh = s.fresh := rfl

/-! `modCluster` changes `clusters` alone. -/

@[simp] theorem State.modCluster_mem (s : State) (c : Nat) (f : Cluster → Cluster) : (s.modCluster c f).mem = s.mem := rfl
@[simp] theorem State.modCluster_descs (s : State) (c : Nat) (f : Cluster → Cluster) : (s.modCluster c f).descs = s.descs := rfl
@[simp] theorem State.modCluster_errs (s : State) (c : Nat) (f : Cluster → Cluster) : (s.modCluster c f).errs = s.errs := rfl
@[simp] theorem State.modCluster_badTags (s : State) (c : Nat) (f : Cluster → Cluster) : (s.modCluster c f).badTags = s.badTags := rfl
@[simp] theorem State.modCluster_seals (s : State) (c : Nat) (f : Cluster → Cluster) : (s.modCluster c f).seals = s.seals := rfl
@[simp] theorem State.modCluster_strands (s : State) (c : Nat) (f : Cluster → Cluster) : (s.modCluster c f).strands = s.strands := rfl
@[simp] theorem State.modCluster_cores (s : State) (c : Nat) (f : Cluster → Cluster) : (s.modCluster c f).cores = s.cores := rfl
@[simp] theorem State.modCluster_lcores (s : State) (c : Nat) (f : Cluster → Cluster) : (s.modCluster c f).lcores = s.lcores := rfl
@[simp] theorem State.modCluster_engines (s : State) (c : Nat) (f : Cluster → Cluster) : (s.modCluster c f).engines = s.engines := rfl
@[simp] theorem State.modCluster_links (s : State) (c : Nat) (f : Cluster → Cluster) : (s.modCluster c f).links = s.links := rfl
@[simp] theorem State.modCluster_pairs (s : State) (c : Nat) (f : Cluster → Cluster) : (s.modCluster c f).pairs = s.pairs := rfl
@[simp] theorem State.modCluster_tokens (s : State) (c : Nat) (f : Cluster → Cluster) : (s.modCluster c f).tokens = s.tokens := rfl
@[simp] theorem State.modCluster_scopes (s : State) (c : Nat) (f : Cluster → Cluster) : (s.modCluster c f).scopes = s.scopes := rfl
@[simp] theorem State.modCluster_launches (s : State) (c : Nat) (f : Cluster → Cluster) : (s.modCluster c f).launches = s.launches := rfl
@[simp] theorem State.modCluster_gangs (s : State) (c : Nat) (f : Cluster → Cluster) : (s.modCluster c f).gangs = s.gangs := rfl
@[simp] theorem State.modCluster_images (s : State) (c : Nat) (f : Cluster → Cluster) : (s.modCluster c f).images = s.images := rfl
@[simp] theorem State.modCluster_domains (s : State) (c : Nat) (f : Cluster → Cluster) : (s.modCluster c f).domains = s.domains := rfl
@[simp] theorem State.modCluster_kept (s : State) (c : Nat) (f : Cluster → Cluster) : (s.modCluster c f).kept = s.kept := rfl
@[simp] theorem State.modCluster_spares (s : State) (c : Nat) (f : Cluster → Cluster) : (s.modCluster c f).spares = s.spares := rfl
@[simp] theorem State.modCluster_trans (s : State) (c : Nat) (f : Cluster → Cluster) : (s.modCluster c f).trans = s.trans := rfl
@[simp] theorem State.modCluster_oldTrans (s : State) (c : Nat) (f : Cluster → Cluster) : (s.modCluster c f).oldTrans = s.oldTrans := rfl
@[simp] theorem State.modCluster_pages (s : State) (c : Nat) (f : Cluster → Cluster) : (s.modCluster c f).pages = s.pages := rfl
@[simp] theorem State.modCluster_pageAlloc (s : State) (c : Nat) (f : Cluster → Cluster) : (s.modCluster c f).pageAlloc = s.pageAlloc := rfl
@[simp] theorem State.modCluster_pagesOn (s : State) (c : Nat) (f : Cluster → Cluster) : (s.modCluster c f).pagesOn = s.pagesOn := rfl
@[simp] theorem State.modCluster_invalidations (s : State) (c : Nat) (f : Cluster → Cluster) : (s.modCluster c f).invalidations = s.invalidations := rfl
@[simp] theorem State.modCluster_devwin (s : State) (c : Nat) (f : Cluster → Cluster) : (s.modCluster c f).devwin = s.devwin := rfl
@[simp] theorem State.modCluster_hostSeq (s : State) (c : Nat) (f : Cluster → Cluster) : (s.modCluster c f).hostSeq = s.hostSeq := rfl
@[simp] theorem State.modCluster_bellSeq (s : State) (c : Nat) (f : Cluster → Cluster) : (s.modCluster c f).bellSeq = s.bellSeq := rfl
@[simp] theorem State.modCluster_cxlRanges (s : State) (c : Nat) (f : Cluster → Cluster) : (s.modCluster c f).cxlRanges = s.cxlRanges := rfl
@[simp] theorem State.modCluster_unitLogs (s : State) (c : Nat) (f : Cluster → Cluster) : (s.modCluster c f).unitLogs = s.unitLogs := rfl
@[simp] theorem State.modCluster_unitInject (s : State) (c : Nat) (f : Cluster → Cluster) : (s.modCluster c f).unitInject = s.unitInject := rfl
@[simp] theorem State.modCluster_parts (s : State) (c : Nat) (f : Cluster → Cluster) : (s.modCluster c f).parts = s.parts := rfl
@[simp] theorem State.modCluster_peers (s : State) (c : Nat) (f : Cluster → Cluster) : (s.modCluster c f).peers = s.peers := rfl
@[simp] theorem State.modCluster_peerOut (s : State) (c : Nat) (f : Cluster → Cluster) : (s.modCluster c f).peerOut = s.peerOut := rfl
@[simp] theorem State.modCluster_powerCap (s : State) (c : Nat) (f : Cluster → Cluster) : (s.modCluster c f).powerCap = s.powerCap := rfl
@[simp] theorem State.modCluster_noAdmit (s : State) (c : Nat) (f : Cluster → Cluster) : (s.modCluster c f).noAdmit = s.noAdmit := rfl
@[simp] theorem State.modCluster_supply (s : State) (c : Nat) (f : Cluster → Cluster) : (s.modCluster c f).supply = s.supply := rfl
@[simp] theorem State.modCluster_powerOff (s : State) (c : Nat) (f : Cluster → Cluster) : (s.modCluster c f).powerOff = s.powerOff := rfl
@[simp] theorem State.modCluster_cycle (s : State) (c : Nat) (f : Cluster → Cluster) : (s.modCluster c f).cycle = s.cycle := rfl
@[simp] theorem State.modCluster_kiln (s : State) (c : Nat) (f : Cluster → Cluster) : (s.modCluster c f).kiln = s.kiln := rfl
@[simp] theorem State.modCluster_ltimes (s : State) (c : Nat) (f : Cluster → Cluster) : (s.modCluster c f).ltimes = s.ltimes := rfl
@[simp] theorem State.modCluster_stuck (s : State) (c : Nat) (f : Cluster → Cluster) : (s.modCluster c f).stuck = s.stuck := rfl
@[simp] theorem State.modCluster_doneWords (s : State) (c : Nat) (f : Cluster → Cluster) : (s.modCluster c f).doneWords = s.doneWords := rfl
@[simp] theorem State.modCluster_agenda (s : State) (c : Nat) (f : Cluster → Cluster) : (s.modCluster c f).agenda = s.agenda := rfl
@[simp] theorem State.modCluster_outst (s : State) (c : Nat) (f : Cluster → Cluster) : (s.modCluster c f).outst = s.outst := rfl
@[simp] theorem State.modCluster_served (s : State) (c : Nat) (f : Cluster → Cluster) : (s.modCluster c f).served = s.served := rfl
@[simp] theorem State.modCluster_idleAt (s : State) (c : Nat) (f : Cluster → Cluster) : (s.modCluster c f).idleAt = s.idleAt := rfl
@[simp] theorem State.modCluster_sched (s : State) (c : Nat) (f : Cluster → Cluster) : (s.modCluster c f).sched = s.sched := rfl
@[simp] theorem State.modCluster_turn (s : State) (c : Nat) (f : Cluster → Cluster) : (s.modCluster c f).turn = s.turn := rfl
@[simp] theorem State.modCluster_cur (s : State) (c : Nat) (f : Cluster → Cluster) : (s.modCluster c f).cur = s.cur := rfl
@[simp] theorem State.modCluster_curHart (s : State) (c : Nat) (f : Cluster → Cluster) : (s.modCluster c f).curHart = s.curHart := rfl
@[simp] theorem State.modCluster_arg (s : State) (c : Nat) (f : Cluster → Cluster) : (s.modCluster c f).arg = s.arg := rfl
@[simp] theorem State.modCluster_fresh (s : State) (c : Nat) (f : Cluster → Cluster) : (s.modCluster c f).fresh = s.fresh := rfl

/-! `modEngine` changes `engines` alone. -/

@[simp] theorem State.modEngine_mem (s : State) (e : Nat) (f : Engine → Engine) : (s.modEngine e f).mem = s.mem := rfl
@[simp] theorem State.modEngine_descs (s : State) (e : Nat) (f : Engine → Engine) : (s.modEngine e f).descs = s.descs := rfl
@[simp] theorem State.modEngine_errs (s : State) (e : Nat) (f : Engine → Engine) : (s.modEngine e f).errs = s.errs := rfl
@[simp] theorem State.modEngine_badTags (s : State) (e : Nat) (f : Engine → Engine) : (s.modEngine e f).badTags = s.badTags := rfl
@[simp] theorem State.modEngine_seals (s : State) (e : Nat) (f : Engine → Engine) : (s.modEngine e f).seals = s.seals := rfl
@[simp] theorem State.modEngine_strands (s : State) (e : Nat) (f : Engine → Engine) : (s.modEngine e f).strands = s.strands := rfl
@[simp] theorem State.modEngine_cores (s : State) (e : Nat) (f : Engine → Engine) : (s.modEngine e f).cores = s.cores := rfl
@[simp] theorem State.modEngine_lcores (s : State) (e : Nat) (f : Engine → Engine) : (s.modEngine e f).lcores = s.lcores := rfl
@[simp] theorem State.modEngine_clusters (s : State) (e : Nat) (f : Engine → Engine) : (s.modEngine e f).clusters = s.clusters := rfl
@[simp] theorem State.modEngine_links (s : State) (e : Nat) (f : Engine → Engine) : (s.modEngine e f).links = s.links := rfl
@[simp] theorem State.modEngine_pairs (s : State) (e : Nat) (f : Engine → Engine) : (s.modEngine e f).pairs = s.pairs := rfl
@[simp] theorem State.modEngine_tokens (s : State) (e : Nat) (f : Engine → Engine) : (s.modEngine e f).tokens = s.tokens := rfl
@[simp] theorem State.modEngine_scopes (s : State) (e : Nat) (f : Engine → Engine) : (s.modEngine e f).scopes = s.scopes := rfl
@[simp] theorem State.modEngine_launches (s : State) (e : Nat) (f : Engine → Engine) : (s.modEngine e f).launches = s.launches := rfl
@[simp] theorem State.modEngine_gangs (s : State) (e : Nat) (f : Engine → Engine) : (s.modEngine e f).gangs = s.gangs := rfl
@[simp] theorem State.modEngine_images (s : State) (e : Nat) (f : Engine → Engine) : (s.modEngine e f).images = s.images := rfl
@[simp] theorem State.modEngine_domains (s : State) (e : Nat) (f : Engine → Engine) : (s.modEngine e f).domains = s.domains := rfl
@[simp] theorem State.modEngine_kept (s : State) (e : Nat) (f : Engine → Engine) : (s.modEngine e f).kept = s.kept := rfl
@[simp] theorem State.modEngine_spares (s : State) (e : Nat) (f : Engine → Engine) : (s.modEngine e f).spares = s.spares := rfl
@[simp] theorem State.modEngine_trans (s : State) (e : Nat) (f : Engine → Engine) : (s.modEngine e f).trans = s.trans := rfl
@[simp] theorem State.modEngine_oldTrans (s : State) (e : Nat) (f : Engine → Engine) : (s.modEngine e f).oldTrans = s.oldTrans := rfl
@[simp] theorem State.modEngine_pages (s : State) (e : Nat) (f : Engine → Engine) : (s.modEngine e f).pages = s.pages := rfl
@[simp] theorem State.modEngine_pageAlloc (s : State) (e : Nat) (f : Engine → Engine) : (s.modEngine e f).pageAlloc = s.pageAlloc := rfl
@[simp] theorem State.modEngine_pagesOn (s : State) (e : Nat) (f : Engine → Engine) : (s.modEngine e f).pagesOn = s.pagesOn := rfl
@[simp] theorem State.modEngine_invalidations (s : State) (e : Nat) (f : Engine → Engine) : (s.modEngine e f).invalidations = s.invalidations := rfl
@[simp] theorem State.modEngine_devwin (s : State) (e : Nat) (f : Engine → Engine) : (s.modEngine e f).devwin = s.devwin := rfl
@[simp] theorem State.modEngine_hostSeq (s : State) (e : Nat) (f : Engine → Engine) : (s.modEngine e f).hostSeq = s.hostSeq := rfl
@[simp] theorem State.modEngine_bellSeq (s : State) (e : Nat) (f : Engine → Engine) : (s.modEngine e f).bellSeq = s.bellSeq := rfl
@[simp] theorem State.modEngine_cxlRanges (s : State) (e : Nat) (f : Engine → Engine) : (s.modEngine e f).cxlRanges = s.cxlRanges := rfl
@[simp] theorem State.modEngine_unitLogs (s : State) (e : Nat) (f : Engine → Engine) : (s.modEngine e f).unitLogs = s.unitLogs := rfl
@[simp] theorem State.modEngine_unitInject (s : State) (e : Nat) (f : Engine → Engine) : (s.modEngine e f).unitInject = s.unitInject := rfl
@[simp] theorem State.modEngine_parts (s : State) (e : Nat) (f : Engine → Engine) : (s.modEngine e f).parts = s.parts := rfl
@[simp] theorem State.modEngine_peers (s : State) (e : Nat) (f : Engine → Engine) : (s.modEngine e f).peers = s.peers := rfl
@[simp] theorem State.modEngine_peerOut (s : State) (e : Nat) (f : Engine → Engine) : (s.modEngine e f).peerOut = s.peerOut := rfl
@[simp] theorem State.modEngine_powerCap (s : State) (e : Nat) (f : Engine → Engine) : (s.modEngine e f).powerCap = s.powerCap := rfl
@[simp] theorem State.modEngine_noAdmit (s : State) (e : Nat) (f : Engine → Engine) : (s.modEngine e f).noAdmit = s.noAdmit := rfl
@[simp] theorem State.modEngine_supply (s : State) (e : Nat) (f : Engine → Engine) : (s.modEngine e f).supply = s.supply := rfl
@[simp] theorem State.modEngine_powerOff (s : State) (e : Nat) (f : Engine → Engine) : (s.modEngine e f).powerOff = s.powerOff := rfl
@[simp] theorem State.modEngine_cycle (s : State) (e : Nat) (f : Engine → Engine) : (s.modEngine e f).cycle = s.cycle := rfl
@[simp] theorem State.modEngine_kiln (s : State) (e : Nat) (f : Engine → Engine) : (s.modEngine e f).kiln = s.kiln := rfl
@[simp] theorem State.modEngine_ltimes (s : State) (e : Nat) (f : Engine → Engine) : (s.modEngine e f).ltimes = s.ltimes := rfl
@[simp] theorem State.modEngine_stuck (s : State) (e : Nat) (f : Engine → Engine) : (s.modEngine e f).stuck = s.stuck := rfl
@[simp] theorem State.modEngine_doneWords (s : State) (e : Nat) (f : Engine → Engine) : (s.modEngine e f).doneWords = s.doneWords := rfl
@[simp] theorem State.modEngine_agenda (s : State) (e : Nat) (f : Engine → Engine) : (s.modEngine e f).agenda = s.agenda := rfl
@[simp] theorem State.modEngine_outst (s : State) (e : Nat) (f : Engine → Engine) : (s.modEngine e f).outst = s.outst := rfl
@[simp] theorem State.modEngine_served (s : State) (e : Nat) (f : Engine → Engine) : (s.modEngine e f).served = s.served := rfl
@[simp] theorem State.modEngine_idleAt (s : State) (e : Nat) (f : Engine → Engine) : (s.modEngine e f).idleAt = s.idleAt := rfl
@[simp] theorem State.modEngine_sched (s : State) (e : Nat) (f : Engine → Engine) : (s.modEngine e f).sched = s.sched := rfl
@[simp] theorem State.modEngine_turn (s : State) (e : Nat) (f : Engine → Engine) : (s.modEngine e f).turn = s.turn := rfl
@[simp] theorem State.modEngine_cur (s : State) (e : Nat) (f : Engine → Engine) : (s.modEngine e f).cur = s.cur := rfl
@[simp] theorem State.modEngine_curHart (s : State) (e : Nat) (f : Engine → Engine) : (s.modEngine e f).curHart = s.curHart := rfl
@[simp] theorem State.modEngine_arg (s : State) (e : Nat) (f : Engine → Engine) : (s.modEngine e f).arg = s.arg := rfl
@[simp] theorem State.modEngine_fresh (s : State) (e : Nat) (f : Engine → Engine) : (s.modEngine e f).fresh = s.fresh := rfl

/-! `setScb` changes `scopes` alone. -/

@[simp] theorem State.setScb_mem (s : State) (b : Scb) : (s.setScb b).mem = s.mem := rfl
@[simp] theorem State.setScb_descs (s : State) (b : Scb) : (s.setScb b).descs = s.descs := rfl
@[simp] theorem State.setScb_errs (s : State) (b : Scb) : (s.setScb b).errs = s.errs := rfl
@[simp] theorem State.setScb_badTags (s : State) (b : Scb) : (s.setScb b).badTags = s.badTags := rfl
@[simp] theorem State.setScb_seals (s : State) (b : Scb) : (s.setScb b).seals = s.seals := rfl
@[simp] theorem State.setScb_strands (s : State) (b : Scb) : (s.setScb b).strands = s.strands := rfl
@[simp] theorem State.setScb_cores (s : State) (b : Scb) : (s.setScb b).cores = s.cores := rfl
@[simp] theorem State.setScb_lcores (s : State) (b : Scb) : (s.setScb b).lcores = s.lcores := rfl
@[simp] theorem State.setScb_clusters (s : State) (b : Scb) : (s.setScb b).clusters = s.clusters := rfl
@[simp] theorem State.setScb_engines (s : State) (b : Scb) : (s.setScb b).engines = s.engines := rfl
@[simp] theorem State.setScb_links (s : State) (b : Scb) : (s.setScb b).links = s.links := rfl
@[simp] theorem State.setScb_pairs (s : State) (b : Scb) : (s.setScb b).pairs = s.pairs := rfl
@[simp] theorem State.setScb_tokens (s : State) (b : Scb) : (s.setScb b).tokens = s.tokens := rfl
@[simp] theorem State.setScb_launches (s : State) (b : Scb) : (s.setScb b).launches = s.launches := rfl
@[simp] theorem State.setScb_gangs (s : State) (b : Scb) : (s.setScb b).gangs = s.gangs := rfl
@[simp] theorem State.setScb_images (s : State) (b : Scb) : (s.setScb b).images = s.images := rfl
@[simp] theorem State.setScb_domains (s : State) (b : Scb) : (s.setScb b).domains = s.domains := rfl
@[simp] theorem State.setScb_kept (s : State) (b : Scb) : (s.setScb b).kept = s.kept := rfl
@[simp] theorem State.setScb_spares (s : State) (b : Scb) : (s.setScb b).spares = s.spares := rfl
@[simp] theorem State.setScb_trans (s : State) (b : Scb) : (s.setScb b).trans = s.trans := rfl
@[simp] theorem State.setScb_oldTrans (s : State) (b : Scb) : (s.setScb b).oldTrans = s.oldTrans := rfl
@[simp] theorem State.setScb_pages (s : State) (b : Scb) : (s.setScb b).pages = s.pages := rfl
@[simp] theorem State.setScb_pageAlloc (s : State) (b : Scb) : (s.setScb b).pageAlloc = s.pageAlloc := rfl
@[simp] theorem State.setScb_pagesOn (s : State) (b : Scb) : (s.setScb b).pagesOn = s.pagesOn := rfl
@[simp] theorem State.setScb_invalidations (s : State) (b : Scb) : (s.setScb b).invalidations = s.invalidations := rfl
@[simp] theorem State.setScb_devwin (s : State) (b : Scb) : (s.setScb b).devwin = s.devwin := rfl
@[simp] theorem State.setScb_hostSeq (s : State) (b : Scb) : (s.setScb b).hostSeq = s.hostSeq := rfl
@[simp] theorem State.setScb_bellSeq (s : State) (b : Scb) : (s.setScb b).bellSeq = s.bellSeq := rfl
@[simp] theorem State.setScb_cxlRanges (s : State) (b : Scb) : (s.setScb b).cxlRanges = s.cxlRanges := rfl
@[simp] theorem State.setScb_unitLogs (s : State) (b : Scb) : (s.setScb b).unitLogs = s.unitLogs := rfl
@[simp] theorem State.setScb_unitInject (s : State) (b : Scb) : (s.setScb b).unitInject = s.unitInject := rfl
@[simp] theorem State.setScb_parts (s : State) (b : Scb) : (s.setScb b).parts = s.parts := rfl
@[simp] theorem State.setScb_peers (s : State) (b : Scb) : (s.setScb b).peers = s.peers := rfl
@[simp] theorem State.setScb_peerOut (s : State) (b : Scb) : (s.setScb b).peerOut = s.peerOut := rfl
@[simp] theorem State.setScb_powerCap (s : State) (b : Scb) : (s.setScb b).powerCap = s.powerCap := rfl
@[simp] theorem State.setScb_noAdmit (s : State) (b : Scb) : (s.setScb b).noAdmit = s.noAdmit := rfl
@[simp] theorem State.setScb_supply (s : State) (b : Scb) : (s.setScb b).supply = s.supply := rfl
@[simp] theorem State.setScb_powerOff (s : State) (b : Scb) : (s.setScb b).powerOff = s.powerOff := rfl
@[simp] theorem State.setScb_cycle (s : State) (b : Scb) : (s.setScb b).cycle = s.cycle := rfl
@[simp] theorem State.setScb_kiln (s : State) (b : Scb) : (s.setScb b).kiln = s.kiln := rfl
@[simp] theorem State.setScb_ltimes (s : State) (b : Scb) : (s.setScb b).ltimes = s.ltimes := rfl
@[simp] theorem State.setScb_stuck (s : State) (b : Scb) : (s.setScb b).stuck = s.stuck := rfl
@[simp] theorem State.setScb_doneWords (s : State) (b : Scb) : (s.setScb b).doneWords = s.doneWords := rfl
@[simp] theorem State.setScb_agenda (s : State) (b : Scb) : (s.setScb b).agenda = s.agenda := rfl
@[simp] theorem State.setScb_outst (s : State) (b : Scb) : (s.setScb b).outst = s.outst := rfl
@[simp] theorem State.setScb_served (s : State) (b : Scb) : (s.setScb b).served = s.served := rfl
@[simp] theorem State.setScb_idleAt (s : State) (b : Scb) : (s.setScb b).idleAt = s.idleAt := rfl
@[simp] theorem State.setScb_sched (s : State) (b : Scb) : (s.setScb b).sched = s.sched := rfl
@[simp] theorem State.setScb_turn (s : State) (b : Scb) : (s.setScb b).turn = s.turn := rfl
@[simp] theorem State.setScb_cur (s : State) (b : Scb) : (s.setScb b).cur = s.cur := rfl
@[simp] theorem State.setScb_curHart (s : State) (b : Scb) : (s.setScb b).curHart = s.curHart := rfl
@[simp] theorem State.setScb_arg (s : State) (b : Scb) : (s.setScb b).arg = s.arg := rfl
@[simp] theorem State.setScb_fresh (s : State) (b : Scb) : (s.setScb b).fresh = s.fresh := rfl

/-! `modKiln` changes `kiln` alone. -/

@[simp] theorem State.modKiln_mem (s : State) (f : Kiln → Kiln) : (s.modKiln f).mem = s.mem := rfl
@[simp] theorem State.modKiln_descs (s : State) (f : Kiln → Kiln) : (s.modKiln f).descs = s.descs := rfl
@[simp] theorem State.modKiln_errs (s : State) (f : Kiln → Kiln) : (s.modKiln f).errs = s.errs := rfl
@[simp] theorem State.modKiln_badTags (s : State) (f : Kiln → Kiln) : (s.modKiln f).badTags = s.badTags := rfl
@[simp] theorem State.modKiln_seals (s : State) (f : Kiln → Kiln) : (s.modKiln f).seals = s.seals := rfl
@[simp] theorem State.modKiln_strands (s : State) (f : Kiln → Kiln) : (s.modKiln f).strands = s.strands := rfl
@[simp] theorem State.modKiln_cores (s : State) (f : Kiln → Kiln) : (s.modKiln f).cores = s.cores := rfl
@[simp] theorem State.modKiln_lcores (s : State) (f : Kiln → Kiln) : (s.modKiln f).lcores = s.lcores := rfl
@[simp] theorem State.modKiln_clusters (s : State) (f : Kiln → Kiln) : (s.modKiln f).clusters = s.clusters := rfl
@[simp] theorem State.modKiln_engines (s : State) (f : Kiln → Kiln) : (s.modKiln f).engines = s.engines := rfl
@[simp] theorem State.modKiln_links (s : State) (f : Kiln → Kiln) : (s.modKiln f).links = s.links := rfl
@[simp] theorem State.modKiln_pairs (s : State) (f : Kiln → Kiln) : (s.modKiln f).pairs = s.pairs := rfl
@[simp] theorem State.modKiln_tokens (s : State) (f : Kiln → Kiln) : (s.modKiln f).tokens = s.tokens := rfl
@[simp] theorem State.modKiln_scopes (s : State) (f : Kiln → Kiln) : (s.modKiln f).scopes = s.scopes := rfl
@[simp] theorem State.modKiln_launches (s : State) (f : Kiln → Kiln) : (s.modKiln f).launches = s.launches := rfl
@[simp] theorem State.modKiln_gangs (s : State) (f : Kiln → Kiln) : (s.modKiln f).gangs = s.gangs := rfl
@[simp] theorem State.modKiln_images (s : State) (f : Kiln → Kiln) : (s.modKiln f).images = s.images := rfl
@[simp] theorem State.modKiln_domains (s : State) (f : Kiln → Kiln) : (s.modKiln f).domains = s.domains := rfl
@[simp] theorem State.modKiln_kept (s : State) (f : Kiln → Kiln) : (s.modKiln f).kept = s.kept := rfl
@[simp] theorem State.modKiln_spares (s : State) (f : Kiln → Kiln) : (s.modKiln f).spares = s.spares := rfl
@[simp] theorem State.modKiln_trans (s : State) (f : Kiln → Kiln) : (s.modKiln f).trans = s.trans := rfl
@[simp] theorem State.modKiln_oldTrans (s : State) (f : Kiln → Kiln) : (s.modKiln f).oldTrans = s.oldTrans := rfl
@[simp] theorem State.modKiln_pages (s : State) (f : Kiln → Kiln) : (s.modKiln f).pages = s.pages := rfl
@[simp] theorem State.modKiln_pageAlloc (s : State) (f : Kiln → Kiln) : (s.modKiln f).pageAlloc = s.pageAlloc := rfl
@[simp] theorem State.modKiln_pagesOn (s : State) (f : Kiln → Kiln) : (s.modKiln f).pagesOn = s.pagesOn := rfl
@[simp] theorem State.modKiln_invalidations (s : State) (f : Kiln → Kiln) : (s.modKiln f).invalidations = s.invalidations := rfl
@[simp] theorem State.modKiln_devwin (s : State) (f : Kiln → Kiln) : (s.modKiln f).devwin = s.devwin := rfl
@[simp] theorem State.modKiln_hostSeq (s : State) (f : Kiln → Kiln) : (s.modKiln f).hostSeq = s.hostSeq := rfl
@[simp] theorem State.modKiln_bellSeq (s : State) (f : Kiln → Kiln) : (s.modKiln f).bellSeq = s.bellSeq := rfl
@[simp] theorem State.modKiln_cxlRanges (s : State) (f : Kiln → Kiln) : (s.modKiln f).cxlRanges = s.cxlRanges := rfl
@[simp] theorem State.modKiln_unitLogs (s : State) (f : Kiln → Kiln) : (s.modKiln f).unitLogs = s.unitLogs := rfl
@[simp] theorem State.modKiln_unitInject (s : State) (f : Kiln → Kiln) : (s.modKiln f).unitInject = s.unitInject := rfl
@[simp] theorem State.modKiln_parts (s : State) (f : Kiln → Kiln) : (s.modKiln f).parts = s.parts := rfl
@[simp] theorem State.modKiln_peers (s : State) (f : Kiln → Kiln) : (s.modKiln f).peers = s.peers := rfl
@[simp] theorem State.modKiln_peerOut (s : State) (f : Kiln → Kiln) : (s.modKiln f).peerOut = s.peerOut := rfl
@[simp] theorem State.modKiln_powerCap (s : State) (f : Kiln → Kiln) : (s.modKiln f).powerCap = s.powerCap := rfl
@[simp] theorem State.modKiln_noAdmit (s : State) (f : Kiln → Kiln) : (s.modKiln f).noAdmit = s.noAdmit := rfl
@[simp] theorem State.modKiln_supply (s : State) (f : Kiln → Kiln) : (s.modKiln f).supply = s.supply := rfl
@[simp] theorem State.modKiln_powerOff (s : State) (f : Kiln → Kiln) : (s.modKiln f).powerOff = s.powerOff := rfl
@[simp] theorem State.modKiln_cycle (s : State) (f : Kiln → Kiln) : (s.modKiln f).cycle = s.cycle := rfl
@[simp] theorem State.modKiln_ltimes (s : State) (f : Kiln → Kiln) : (s.modKiln f).ltimes = s.ltimes := rfl
@[simp] theorem State.modKiln_stuck (s : State) (f : Kiln → Kiln) : (s.modKiln f).stuck = s.stuck := rfl
@[simp] theorem State.modKiln_doneWords (s : State) (f : Kiln → Kiln) : (s.modKiln f).doneWords = s.doneWords := rfl
@[simp] theorem State.modKiln_agenda (s : State) (f : Kiln → Kiln) : (s.modKiln f).agenda = s.agenda := rfl
@[simp] theorem State.modKiln_outst (s : State) (f : Kiln → Kiln) : (s.modKiln f).outst = s.outst := rfl
@[simp] theorem State.modKiln_served (s : State) (f : Kiln → Kiln) : (s.modKiln f).served = s.served := rfl
@[simp] theorem State.modKiln_idleAt (s : State) (f : Kiln → Kiln) : (s.modKiln f).idleAt = s.idleAt := rfl
@[simp] theorem State.modKiln_sched (s : State) (f : Kiln → Kiln) : (s.modKiln f).sched = s.sched := rfl
@[simp] theorem State.modKiln_turn (s : State) (f : Kiln → Kiln) : (s.modKiln f).turn = s.turn := rfl
@[simp] theorem State.modKiln_cur (s : State) (f : Kiln → Kiln) : (s.modKiln f).cur = s.cur := rfl
@[simp] theorem State.modKiln_curHart (s : State) (f : Kiln → Kiln) : (s.modKiln f).curHart = s.curHart := rfl
@[simp] theorem State.modKiln_arg (s : State) (f : Kiln → Kiln) : (s.modKiln f).arg = s.arg := rfl
@[simp] theorem State.modKiln_fresh (s : State) (f : Kiln → Kiln) : (s.modKiln f).fresh = s.fresh := rfl

/-! `modHart` changes `kiln` alone. -/

@[simp] theorem State.modHart_mem (s : State) (h : Nat) (f : Hart → Hart) : (s.modHart h f).mem = s.mem := rfl
@[simp] theorem State.modHart_descs (s : State) (h : Nat) (f : Hart → Hart) : (s.modHart h f).descs = s.descs := rfl
@[simp] theorem State.modHart_errs (s : State) (h : Nat) (f : Hart → Hart) : (s.modHart h f).errs = s.errs := rfl
@[simp] theorem State.modHart_badTags (s : State) (h : Nat) (f : Hart → Hart) : (s.modHart h f).badTags = s.badTags := rfl
@[simp] theorem State.modHart_seals (s : State) (h : Nat) (f : Hart → Hart) : (s.modHart h f).seals = s.seals := rfl
@[simp] theorem State.modHart_strands (s : State) (h : Nat) (f : Hart → Hart) : (s.modHart h f).strands = s.strands := rfl
@[simp] theorem State.modHart_cores (s : State) (h : Nat) (f : Hart → Hart) : (s.modHart h f).cores = s.cores := rfl
@[simp] theorem State.modHart_lcores (s : State) (h : Nat) (f : Hart → Hart) : (s.modHart h f).lcores = s.lcores := rfl
@[simp] theorem State.modHart_clusters (s : State) (h : Nat) (f : Hart → Hart) : (s.modHart h f).clusters = s.clusters := rfl
@[simp] theorem State.modHart_engines (s : State) (h : Nat) (f : Hart → Hart) : (s.modHart h f).engines = s.engines := rfl
@[simp] theorem State.modHart_links (s : State) (h : Nat) (f : Hart → Hart) : (s.modHart h f).links = s.links := rfl
@[simp] theorem State.modHart_pairs (s : State) (h : Nat) (f : Hart → Hart) : (s.modHart h f).pairs = s.pairs := rfl
@[simp] theorem State.modHart_tokens (s : State) (h : Nat) (f : Hart → Hart) : (s.modHart h f).tokens = s.tokens := rfl
@[simp] theorem State.modHart_scopes (s : State) (h : Nat) (f : Hart → Hart) : (s.modHart h f).scopes = s.scopes := rfl
@[simp] theorem State.modHart_launches (s : State) (h : Nat) (f : Hart → Hart) : (s.modHart h f).launches = s.launches := rfl
@[simp] theorem State.modHart_gangs (s : State) (h : Nat) (f : Hart → Hart) : (s.modHart h f).gangs = s.gangs := rfl
@[simp] theorem State.modHart_images (s : State) (h : Nat) (f : Hart → Hart) : (s.modHart h f).images = s.images := rfl
@[simp] theorem State.modHart_domains (s : State) (h : Nat) (f : Hart → Hart) : (s.modHart h f).domains = s.domains := rfl
@[simp] theorem State.modHart_kept (s : State) (h : Nat) (f : Hart → Hart) : (s.modHart h f).kept = s.kept := rfl
@[simp] theorem State.modHart_spares (s : State) (h : Nat) (f : Hart → Hart) : (s.modHart h f).spares = s.spares := rfl
@[simp] theorem State.modHart_trans (s : State) (h : Nat) (f : Hart → Hart) : (s.modHart h f).trans = s.trans := rfl
@[simp] theorem State.modHart_oldTrans (s : State) (h : Nat) (f : Hart → Hart) : (s.modHart h f).oldTrans = s.oldTrans := rfl
@[simp] theorem State.modHart_pages (s : State) (h : Nat) (f : Hart → Hart) : (s.modHart h f).pages = s.pages := rfl
@[simp] theorem State.modHart_pageAlloc (s : State) (h : Nat) (f : Hart → Hart) : (s.modHart h f).pageAlloc = s.pageAlloc := rfl
@[simp] theorem State.modHart_pagesOn (s : State) (h : Nat) (f : Hart → Hart) : (s.modHart h f).pagesOn = s.pagesOn := rfl
@[simp] theorem State.modHart_invalidations (s : State) (h : Nat) (f : Hart → Hart) : (s.modHart h f).invalidations = s.invalidations := rfl
@[simp] theorem State.modHart_devwin (s : State) (h : Nat) (f : Hart → Hart) : (s.modHart h f).devwin = s.devwin := rfl
@[simp] theorem State.modHart_hostSeq (s : State) (h : Nat) (f : Hart → Hart) : (s.modHart h f).hostSeq = s.hostSeq := rfl
@[simp] theorem State.modHart_bellSeq (s : State) (h : Nat) (f : Hart → Hart) : (s.modHart h f).bellSeq = s.bellSeq := rfl
@[simp] theorem State.modHart_cxlRanges (s : State) (h : Nat) (f : Hart → Hart) : (s.modHart h f).cxlRanges = s.cxlRanges := rfl
@[simp] theorem State.modHart_unitLogs (s : State) (h : Nat) (f : Hart → Hart) : (s.modHart h f).unitLogs = s.unitLogs := rfl
@[simp] theorem State.modHart_unitInject (s : State) (h : Nat) (f : Hart → Hart) : (s.modHart h f).unitInject = s.unitInject := rfl
@[simp] theorem State.modHart_parts (s : State) (h : Nat) (f : Hart → Hart) : (s.modHart h f).parts = s.parts := rfl
@[simp] theorem State.modHart_peers (s : State) (h : Nat) (f : Hart → Hart) : (s.modHart h f).peers = s.peers := rfl
@[simp] theorem State.modHart_peerOut (s : State) (h : Nat) (f : Hart → Hart) : (s.modHart h f).peerOut = s.peerOut := rfl
@[simp] theorem State.modHart_powerCap (s : State) (h : Nat) (f : Hart → Hart) : (s.modHart h f).powerCap = s.powerCap := rfl
@[simp] theorem State.modHart_noAdmit (s : State) (h : Nat) (f : Hart → Hart) : (s.modHart h f).noAdmit = s.noAdmit := rfl
@[simp] theorem State.modHart_supply (s : State) (h : Nat) (f : Hart → Hart) : (s.modHart h f).supply = s.supply := rfl
@[simp] theorem State.modHart_powerOff (s : State) (h : Nat) (f : Hart → Hart) : (s.modHart h f).powerOff = s.powerOff := rfl
@[simp] theorem State.modHart_cycle (s : State) (h : Nat) (f : Hart → Hart) : (s.modHart h f).cycle = s.cycle := rfl
@[simp] theorem State.modHart_ltimes (s : State) (h : Nat) (f : Hart → Hart) : (s.modHart h f).ltimes = s.ltimes := rfl
@[simp] theorem State.modHart_stuck (s : State) (h : Nat) (f : Hart → Hart) : (s.modHart h f).stuck = s.stuck := rfl
@[simp] theorem State.modHart_doneWords (s : State) (h : Nat) (f : Hart → Hart) : (s.modHart h f).doneWords = s.doneWords := rfl
@[simp] theorem State.modHart_agenda (s : State) (h : Nat) (f : Hart → Hart) : (s.modHart h f).agenda = s.agenda := rfl
@[simp] theorem State.modHart_outst (s : State) (h : Nat) (f : Hart → Hart) : (s.modHart h f).outst = s.outst := rfl
@[simp] theorem State.modHart_served (s : State) (h : Nat) (f : Hart → Hart) : (s.modHart h f).served = s.served := rfl
@[simp] theorem State.modHart_idleAt (s : State) (h : Nat) (f : Hart → Hart) : (s.modHart h f).idleAt = s.idleAt := rfl
@[simp] theorem State.modHart_sched (s : State) (h : Nat) (f : Hart → Hart) : (s.modHart h f).sched = s.sched := rfl
@[simp] theorem State.modHart_turn (s : State) (h : Nat) (f : Hart → Hart) : (s.modHart h f).turn = s.turn := rfl
@[simp] theorem State.modHart_cur (s : State) (h : Nat) (f : Hart → Hart) : (s.modHart h f).cur = s.cur := rfl
@[simp] theorem State.modHart_curHart (s : State) (h : Nat) (f : Hart → Hart) : (s.modHart h f).curHart = s.curHart := rfl
@[simp] theorem State.modHart_arg (s : State) (h : Nat) (f : Hart → Hart) : (s.modHart h f).arg = s.arg := rfl
@[simp] theorem State.modHart_fresh (s : State) (h : Nat) (f : Hart → Hart) : (s.modHart h f).fresh = s.fresh := rfl

/-! `setByte` changes `mem` alone. -/

@[simp] theorem State.setByte_descs (s : State) (k : Nat) (b : Byte) : (s.setByte k b).descs = s.descs := rfl
@[simp] theorem State.setByte_errs (s : State) (k : Nat) (b : Byte) : (s.setByte k b).errs = s.errs := rfl
@[simp] theorem State.setByte_badTags (s : State) (k : Nat) (b : Byte) : (s.setByte k b).badTags = s.badTags := rfl
@[simp] theorem State.setByte_seals (s : State) (k : Nat) (b : Byte) : (s.setByte k b).seals = s.seals := rfl
@[simp] theorem State.setByte_strands (s : State) (k : Nat) (b : Byte) : (s.setByte k b).strands = s.strands := rfl
@[simp] theorem State.setByte_cores (s : State) (k : Nat) (b : Byte) : (s.setByte k b).cores = s.cores := rfl
@[simp] theorem State.setByte_lcores (s : State) (k : Nat) (b : Byte) : (s.setByte k b).lcores = s.lcores := rfl
@[simp] theorem State.setByte_clusters (s : State) (k : Nat) (b : Byte) : (s.setByte k b).clusters = s.clusters := rfl
@[simp] theorem State.setByte_engines (s : State) (k : Nat) (b : Byte) : (s.setByte k b).engines = s.engines := rfl
@[simp] theorem State.setByte_links (s : State) (k : Nat) (b : Byte) : (s.setByte k b).links = s.links := rfl
@[simp] theorem State.setByte_pairs (s : State) (k : Nat) (b : Byte) : (s.setByte k b).pairs = s.pairs := rfl
@[simp] theorem State.setByte_tokens (s : State) (k : Nat) (b : Byte) : (s.setByte k b).tokens = s.tokens := rfl
@[simp] theorem State.setByte_scopes (s : State) (k : Nat) (b : Byte) : (s.setByte k b).scopes = s.scopes := rfl
@[simp] theorem State.setByte_launches (s : State) (k : Nat) (b : Byte) : (s.setByte k b).launches = s.launches := rfl
@[simp] theorem State.setByte_gangs (s : State) (k : Nat) (b : Byte) : (s.setByte k b).gangs = s.gangs := rfl
@[simp] theorem State.setByte_images (s : State) (k : Nat) (b : Byte) : (s.setByte k b).images = s.images := rfl
@[simp] theorem State.setByte_domains (s : State) (k : Nat) (b : Byte) : (s.setByte k b).domains = s.domains := rfl
@[simp] theorem State.setByte_kept (s : State) (k : Nat) (b : Byte) : (s.setByte k b).kept = s.kept := rfl
@[simp] theorem State.setByte_spares (s : State) (k : Nat) (b : Byte) : (s.setByte k b).spares = s.spares := rfl
@[simp] theorem State.setByte_trans (s : State) (k : Nat) (b : Byte) : (s.setByte k b).trans = s.trans := rfl
@[simp] theorem State.setByte_oldTrans (s : State) (k : Nat) (b : Byte) : (s.setByte k b).oldTrans = s.oldTrans := rfl
@[simp] theorem State.setByte_pages (s : State) (k : Nat) (b : Byte) : (s.setByte k b).pages = s.pages := rfl
@[simp] theorem State.setByte_pageAlloc (s : State) (k : Nat) (b : Byte) : (s.setByte k b).pageAlloc = s.pageAlloc := rfl
@[simp] theorem State.setByte_pagesOn (s : State) (k : Nat) (b : Byte) : (s.setByte k b).pagesOn = s.pagesOn := rfl
@[simp] theorem State.setByte_invalidations (s : State) (k : Nat) (b : Byte) : (s.setByte k b).invalidations = s.invalidations := rfl
@[simp] theorem State.setByte_devwin (s : State) (k : Nat) (b : Byte) : (s.setByte k b).devwin = s.devwin := rfl
@[simp] theorem State.setByte_hostSeq (s : State) (k : Nat) (b : Byte) : (s.setByte k b).hostSeq = s.hostSeq := rfl
@[simp] theorem State.setByte_bellSeq (s : State) (k : Nat) (b : Byte) : (s.setByte k b).bellSeq = s.bellSeq := rfl
@[simp] theorem State.setByte_cxlRanges (s : State) (k : Nat) (b : Byte) : (s.setByte k b).cxlRanges = s.cxlRanges := rfl
@[simp] theorem State.setByte_unitLogs (s : State) (k : Nat) (b : Byte) : (s.setByte k b).unitLogs = s.unitLogs := rfl
@[simp] theorem State.setByte_unitInject (s : State) (k : Nat) (b : Byte) : (s.setByte k b).unitInject = s.unitInject := rfl
@[simp] theorem State.setByte_parts (s : State) (k : Nat) (b : Byte) : (s.setByte k b).parts = s.parts := rfl
@[simp] theorem State.setByte_peers (s : State) (k : Nat) (b : Byte) : (s.setByte k b).peers = s.peers := rfl
@[simp] theorem State.setByte_peerOut (s : State) (k : Nat) (b : Byte) : (s.setByte k b).peerOut = s.peerOut := rfl
@[simp] theorem State.setByte_powerCap (s : State) (k : Nat) (b : Byte) : (s.setByte k b).powerCap = s.powerCap := rfl
@[simp] theorem State.setByte_noAdmit (s : State) (k : Nat) (b : Byte) : (s.setByte k b).noAdmit = s.noAdmit := rfl
@[simp] theorem State.setByte_supply (s : State) (k : Nat) (b : Byte) : (s.setByte k b).supply = s.supply := rfl
@[simp] theorem State.setByte_powerOff (s : State) (k : Nat) (b : Byte) : (s.setByte k b).powerOff = s.powerOff := rfl
@[simp] theorem State.setByte_cycle (s : State) (k : Nat) (b : Byte) : (s.setByte k b).cycle = s.cycle := rfl
@[simp] theorem State.setByte_kiln (s : State) (k : Nat) (b : Byte) : (s.setByte k b).kiln = s.kiln := rfl
@[simp] theorem State.setByte_ltimes (s : State) (k : Nat) (b : Byte) : (s.setByte k b).ltimes = s.ltimes := rfl
@[simp] theorem State.setByte_stuck (s : State) (k : Nat) (b : Byte) : (s.setByte k b).stuck = s.stuck := rfl
@[simp] theorem State.setByte_doneWords (s : State) (k : Nat) (b : Byte) : (s.setByte k b).doneWords = s.doneWords := rfl
@[simp] theorem State.setByte_agenda (s : State) (k : Nat) (b : Byte) : (s.setByte k b).agenda = s.agenda := rfl
@[simp] theorem State.setByte_outst (s : State) (k : Nat) (b : Byte) : (s.setByte k b).outst = s.outst := rfl
@[simp] theorem State.setByte_served (s : State) (k : Nat) (b : Byte) : (s.setByte k b).served = s.served := rfl
@[simp] theorem State.setByte_idleAt (s : State) (k : Nat) (b : Byte) : (s.setByte k b).idleAt = s.idleAt := rfl
@[simp] theorem State.setByte_sched (s : State) (k : Nat) (b : Byte) : (s.setByte k b).sched = s.sched := rfl
@[simp] theorem State.setByte_turn (s : State) (k : Nat) (b : Byte) : (s.setByte k b).turn = s.turn := rfl
@[simp] theorem State.setByte_cur (s : State) (k : Nat) (b : Byte) : (s.setByte k b).cur = s.cur := rfl
@[simp] theorem State.setByte_curHart (s : State) (k : Nat) (b : Byte) : (s.setByte k b).curHart = s.curHart := rfl
@[simp] theorem State.setByte_arg (s : State) (k : Nat) (b : Byte) : (s.setByte k b).arg = s.arg := rfl
@[simp] theorem State.setByte_fresh (s : State) (k : Nat) (b : Byte) : (s.setByte k b).fresh = s.fresh := rfl

/-! `setDesc` changes `descs` alone. -/

@[simp] theorem State.setDesc_mem (s : State) (k : Nat) (d : Desc) : (s.setDesc k d).mem = s.mem := rfl
@[simp] theorem State.setDesc_errs (s : State) (k : Nat) (d : Desc) : (s.setDesc k d).errs = s.errs := rfl
@[simp] theorem State.setDesc_badTags (s : State) (k : Nat) (d : Desc) : (s.setDesc k d).badTags = s.badTags := rfl
@[simp] theorem State.setDesc_seals (s : State) (k : Nat) (d : Desc) : (s.setDesc k d).seals = s.seals := rfl
@[simp] theorem State.setDesc_strands (s : State) (k : Nat) (d : Desc) : (s.setDesc k d).strands = s.strands := rfl
@[simp] theorem State.setDesc_cores (s : State) (k : Nat) (d : Desc) : (s.setDesc k d).cores = s.cores := rfl
@[simp] theorem State.setDesc_lcores (s : State) (k : Nat) (d : Desc) : (s.setDesc k d).lcores = s.lcores := rfl
@[simp] theorem State.setDesc_clusters (s : State) (k : Nat) (d : Desc) : (s.setDesc k d).clusters = s.clusters := rfl
@[simp] theorem State.setDesc_engines (s : State) (k : Nat) (d : Desc) : (s.setDesc k d).engines = s.engines := rfl
@[simp] theorem State.setDesc_links (s : State) (k : Nat) (d : Desc) : (s.setDesc k d).links = s.links := rfl
@[simp] theorem State.setDesc_pairs (s : State) (k : Nat) (d : Desc) : (s.setDesc k d).pairs = s.pairs := rfl
@[simp] theorem State.setDesc_tokens (s : State) (k : Nat) (d : Desc) : (s.setDesc k d).tokens = s.tokens := rfl
@[simp] theorem State.setDesc_scopes (s : State) (k : Nat) (d : Desc) : (s.setDesc k d).scopes = s.scopes := rfl
@[simp] theorem State.setDesc_launches (s : State) (k : Nat) (d : Desc) : (s.setDesc k d).launches = s.launches := rfl
@[simp] theorem State.setDesc_gangs (s : State) (k : Nat) (d : Desc) : (s.setDesc k d).gangs = s.gangs := rfl
@[simp] theorem State.setDesc_images (s : State) (k : Nat) (d : Desc) : (s.setDesc k d).images = s.images := rfl
@[simp] theorem State.setDesc_domains (s : State) (k : Nat) (d : Desc) : (s.setDesc k d).domains = s.domains := rfl
@[simp] theorem State.setDesc_kept (s : State) (k : Nat) (d : Desc) : (s.setDesc k d).kept = s.kept := rfl
@[simp] theorem State.setDesc_spares (s : State) (k : Nat) (d : Desc) : (s.setDesc k d).spares = s.spares := rfl
@[simp] theorem State.setDesc_trans (s : State) (k : Nat) (d : Desc) : (s.setDesc k d).trans = s.trans := rfl
@[simp] theorem State.setDesc_oldTrans (s : State) (k : Nat) (d : Desc) : (s.setDesc k d).oldTrans = s.oldTrans := rfl
@[simp] theorem State.setDesc_pages (s : State) (k : Nat) (d : Desc) : (s.setDesc k d).pages = s.pages := rfl
@[simp] theorem State.setDesc_pageAlloc (s : State) (k : Nat) (d : Desc) : (s.setDesc k d).pageAlloc = s.pageAlloc := rfl
@[simp] theorem State.setDesc_pagesOn (s : State) (k : Nat) (d : Desc) : (s.setDesc k d).pagesOn = s.pagesOn := rfl
@[simp] theorem State.setDesc_invalidations (s : State) (k : Nat) (d : Desc) : (s.setDesc k d).invalidations = s.invalidations := rfl
@[simp] theorem State.setDesc_devwin (s : State) (k : Nat) (d : Desc) : (s.setDesc k d).devwin = s.devwin := rfl
@[simp] theorem State.setDesc_hostSeq (s : State) (k : Nat) (d : Desc) : (s.setDesc k d).hostSeq = s.hostSeq := rfl
@[simp] theorem State.setDesc_bellSeq (s : State) (k : Nat) (d : Desc) : (s.setDesc k d).bellSeq = s.bellSeq := rfl
@[simp] theorem State.setDesc_cxlRanges (s : State) (k : Nat) (d : Desc) : (s.setDesc k d).cxlRanges = s.cxlRanges := rfl
@[simp] theorem State.setDesc_unitLogs (s : State) (k : Nat) (d : Desc) : (s.setDesc k d).unitLogs = s.unitLogs := rfl
@[simp] theorem State.setDesc_unitInject (s : State) (k : Nat) (d : Desc) : (s.setDesc k d).unitInject = s.unitInject := rfl
@[simp] theorem State.setDesc_parts (s : State) (k : Nat) (d : Desc) : (s.setDesc k d).parts = s.parts := rfl
@[simp] theorem State.setDesc_peers (s : State) (k : Nat) (d : Desc) : (s.setDesc k d).peers = s.peers := rfl
@[simp] theorem State.setDesc_peerOut (s : State) (k : Nat) (d : Desc) : (s.setDesc k d).peerOut = s.peerOut := rfl
@[simp] theorem State.setDesc_powerCap (s : State) (k : Nat) (d : Desc) : (s.setDesc k d).powerCap = s.powerCap := rfl
@[simp] theorem State.setDesc_noAdmit (s : State) (k : Nat) (d : Desc) : (s.setDesc k d).noAdmit = s.noAdmit := rfl
@[simp] theorem State.setDesc_supply (s : State) (k : Nat) (d : Desc) : (s.setDesc k d).supply = s.supply := rfl
@[simp] theorem State.setDesc_powerOff (s : State) (k : Nat) (d : Desc) : (s.setDesc k d).powerOff = s.powerOff := rfl
@[simp] theorem State.setDesc_cycle (s : State) (k : Nat) (d : Desc) : (s.setDesc k d).cycle = s.cycle := rfl
@[simp] theorem State.setDesc_kiln (s : State) (k : Nat) (d : Desc) : (s.setDesc k d).kiln = s.kiln := rfl
@[simp] theorem State.setDesc_ltimes (s : State) (k : Nat) (d : Desc) : (s.setDesc k d).ltimes = s.ltimes := rfl
@[simp] theorem State.setDesc_stuck (s : State) (k : Nat) (d : Desc) : (s.setDesc k d).stuck = s.stuck := rfl
@[simp] theorem State.setDesc_doneWords (s : State) (k : Nat) (d : Desc) : (s.setDesc k d).doneWords = s.doneWords := rfl
@[simp] theorem State.setDesc_agenda (s : State) (k : Nat) (d : Desc) : (s.setDesc k d).agenda = s.agenda := rfl
@[simp] theorem State.setDesc_outst (s : State) (k : Nat) (d : Desc) : (s.setDesc k d).outst = s.outst := rfl
@[simp] theorem State.setDesc_served (s : State) (k : Nat) (d : Desc) : (s.setDesc k d).served = s.served := rfl
@[simp] theorem State.setDesc_idleAt (s : State) (k : Nat) (d : Desc) : (s.setDesc k d).idleAt = s.idleAt := rfl
@[simp] theorem State.setDesc_sched (s : State) (k : Nat) (d : Desc) : (s.setDesc k d).sched = s.sched := rfl
@[simp] theorem State.setDesc_turn (s : State) (k : Nat) (d : Desc) : (s.setDesc k d).turn = s.turn := rfl
@[simp] theorem State.setDesc_cur (s : State) (k : Nat) (d : Desc) : (s.setDesc k d).cur = s.cur := rfl
@[simp] theorem State.setDesc_curHart (s : State) (k : Nat) (d : Desc) : (s.setDesc k d).curHart = s.curHart := rfl
@[simp] theorem State.setDesc_arg (s : State) (k : Nat) (d : Desc) : (s.setDesc k d).arg = s.arg := rfl
@[simp] theorem State.setDesc_fresh (s : State) (k : Nat) (d : Desc) : (s.setDesc k d).fresh = s.fresh := rfl

/-! `setErr` changes `errs` alone. -/

@[simp] theorem State.setErr_mem (s : State) (k : Nat) (v : Word) : (s.setErr k v).mem = s.mem := rfl
@[simp] theorem State.setErr_descs (s : State) (k : Nat) (v : Word) : (s.setErr k v).descs = s.descs := rfl
@[simp] theorem State.setErr_badTags (s : State) (k : Nat) (v : Word) : (s.setErr k v).badTags = s.badTags := rfl
@[simp] theorem State.setErr_seals (s : State) (k : Nat) (v : Word) : (s.setErr k v).seals = s.seals := rfl
@[simp] theorem State.setErr_strands (s : State) (k : Nat) (v : Word) : (s.setErr k v).strands = s.strands := rfl
@[simp] theorem State.setErr_cores (s : State) (k : Nat) (v : Word) : (s.setErr k v).cores = s.cores := rfl
@[simp] theorem State.setErr_lcores (s : State) (k : Nat) (v : Word) : (s.setErr k v).lcores = s.lcores := rfl
@[simp] theorem State.setErr_clusters (s : State) (k : Nat) (v : Word) : (s.setErr k v).clusters = s.clusters := rfl
@[simp] theorem State.setErr_engines (s : State) (k : Nat) (v : Word) : (s.setErr k v).engines = s.engines := rfl
@[simp] theorem State.setErr_links (s : State) (k : Nat) (v : Word) : (s.setErr k v).links = s.links := rfl
@[simp] theorem State.setErr_pairs (s : State) (k : Nat) (v : Word) : (s.setErr k v).pairs = s.pairs := rfl
@[simp] theorem State.setErr_tokens (s : State) (k : Nat) (v : Word) : (s.setErr k v).tokens = s.tokens := rfl
@[simp] theorem State.setErr_scopes (s : State) (k : Nat) (v : Word) : (s.setErr k v).scopes = s.scopes := rfl
@[simp] theorem State.setErr_launches (s : State) (k : Nat) (v : Word) : (s.setErr k v).launches = s.launches := rfl
@[simp] theorem State.setErr_gangs (s : State) (k : Nat) (v : Word) : (s.setErr k v).gangs = s.gangs := rfl
@[simp] theorem State.setErr_images (s : State) (k : Nat) (v : Word) : (s.setErr k v).images = s.images := rfl
@[simp] theorem State.setErr_domains (s : State) (k : Nat) (v : Word) : (s.setErr k v).domains = s.domains := rfl
@[simp] theorem State.setErr_kept (s : State) (k : Nat) (v : Word) : (s.setErr k v).kept = s.kept := rfl
@[simp] theorem State.setErr_spares (s : State) (k : Nat) (v : Word) : (s.setErr k v).spares = s.spares := rfl
@[simp] theorem State.setErr_trans (s : State) (k : Nat) (v : Word) : (s.setErr k v).trans = s.trans := rfl
@[simp] theorem State.setErr_oldTrans (s : State) (k : Nat) (v : Word) : (s.setErr k v).oldTrans = s.oldTrans := rfl
@[simp] theorem State.setErr_pages (s : State) (k : Nat) (v : Word) : (s.setErr k v).pages = s.pages := rfl
@[simp] theorem State.setErr_pageAlloc (s : State) (k : Nat) (v : Word) : (s.setErr k v).pageAlloc = s.pageAlloc := rfl
@[simp] theorem State.setErr_pagesOn (s : State) (k : Nat) (v : Word) : (s.setErr k v).pagesOn = s.pagesOn := rfl
@[simp] theorem State.setErr_invalidations (s : State) (k : Nat) (v : Word) : (s.setErr k v).invalidations = s.invalidations := rfl
@[simp] theorem State.setErr_devwin (s : State) (k : Nat) (v : Word) : (s.setErr k v).devwin = s.devwin := rfl
@[simp] theorem State.setErr_hostSeq (s : State) (k : Nat) (v : Word) : (s.setErr k v).hostSeq = s.hostSeq := rfl
@[simp] theorem State.setErr_bellSeq (s : State) (k : Nat) (v : Word) : (s.setErr k v).bellSeq = s.bellSeq := rfl
@[simp] theorem State.setErr_cxlRanges (s : State) (k : Nat) (v : Word) : (s.setErr k v).cxlRanges = s.cxlRanges := rfl
@[simp] theorem State.setErr_unitLogs (s : State) (k : Nat) (v : Word) : (s.setErr k v).unitLogs = s.unitLogs := rfl
@[simp] theorem State.setErr_unitInject (s : State) (k : Nat) (v : Word) : (s.setErr k v).unitInject = s.unitInject := rfl
@[simp] theorem State.setErr_parts (s : State) (k : Nat) (v : Word) : (s.setErr k v).parts = s.parts := rfl
@[simp] theorem State.setErr_peers (s : State) (k : Nat) (v : Word) : (s.setErr k v).peers = s.peers := rfl
@[simp] theorem State.setErr_peerOut (s : State) (k : Nat) (v : Word) : (s.setErr k v).peerOut = s.peerOut := rfl
@[simp] theorem State.setErr_powerCap (s : State) (k : Nat) (v : Word) : (s.setErr k v).powerCap = s.powerCap := rfl
@[simp] theorem State.setErr_noAdmit (s : State) (k : Nat) (v : Word) : (s.setErr k v).noAdmit = s.noAdmit := rfl
@[simp] theorem State.setErr_supply (s : State) (k : Nat) (v : Word) : (s.setErr k v).supply = s.supply := rfl
@[simp] theorem State.setErr_powerOff (s : State) (k : Nat) (v : Word) : (s.setErr k v).powerOff = s.powerOff := rfl
@[simp] theorem State.setErr_cycle (s : State) (k : Nat) (v : Word) : (s.setErr k v).cycle = s.cycle := rfl
@[simp] theorem State.setErr_kiln (s : State) (k : Nat) (v : Word) : (s.setErr k v).kiln = s.kiln := rfl
@[simp] theorem State.setErr_ltimes (s : State) (k : Nat) (v : Word) : (s.setErr k v).ltimes = s.ltimes := rfl
@[simp] theorem State.setErr_stuck (s : State) (k : Nat) (v : Word) : (s.setErr k v).stuck = s.stuck := rfl
@[simp] theorem State.setErr_doneWords (s : State) (k : Nat) (v : Word) : (s.setErr k v).doneWords = s.doneWords := rfl
@[simp] theorem State.setErr_agenda (s : State) (k : Nat) (v : Word) : (s.setErr k v).agenda = s.agenda := rfl
@[simp] theorem State.setErr_outst (s : State) (k : Nat) (v : Word) : (s.setErr k v).outst = s.outst := rfl
@[simp] theorem State.setErr_served (s : State) (k : Nat) (v : Word) : (s.setErr k v).served = s.served := rfl
@[simp] theorem State.setErr_idleAt (s : State) (k : Nat) (v : Word) : (s.setErr k v).idleAt = s.idleAt := rfl
@[simp] theorem State.setErr_sched (s : State) (k : Nat) (v : Word) : (s.setErr k v).sched = s.sched := rfl
@[simp] theorem State.setErr_turn (s : State) (k : Nat) (v : Word) : (s.setErr k v).turn = s.turn := rfl
@[simp] theorem State.setErr_cur (s : State) (k : Nat) (v : Word) : (s.setErr k v).cur = s.cur := rfl
@[simp] theorem State.setErr_curHart (s : State) (k : Nat) (v : Word) : (s.setErr k v).curHart = s.curHart := rfl
@[simp] theorem State.setErr_arg (s : State) (k : Nat) (v : Word) : (s.setErr k v).arg = s.arg := rfl
@[simp] theorem State.setErr_fresh (s : State) (k : Nat) (v : Word) : (s.setErr k v).fresh = s.fresh := rfl

/-! `push` changes `agenda` alone. -/

@[simp] theorem State.push_mem (s : State) (p : Pending) : (s.push p).mem = s.mem := rfl
@[simp] theorem State.push_descs (s : State) (p : Pending) : (s.push p).descs = s.descs := rfl
@[simp] theorem State.push_errs (s : State) (p : Pending) : (s.push p).errs = s.errs := rfl
@[simp] theorem State.push_badTags (s : State) (p : Pending) : (s.push p).badTags = s.badTags := rfl
@[simp] theorem State.push_seals (s : State) (p : Pending) : (s.push p).seals = s.seals := rfl
@[simp] theorem State.push_strands (s : State) (p : Pending) : (s.push p).strands = s.strands := rfl
@[simp] theorem State.push_cores (s : State) (p : Pending) : (s.push p).cores = s.cores := rfl
@[simp] theorem State.push_lcores (s : State) (p : Pending) : (s.push p).lcores = s.lcores := rfl
@[simp] theorem State.push_clusters (s : State) (p : Pending) : (s.push p).clusters = s.clusters := rfl
@[simp] theorem State.push_engines (s : State) (p : Pending) : (s.push p).engines = s.engines := rfl
@[simp] theorem State.push_links (s : State) (p : Pending) : (s.push p).links = s.links := rfl
@[simp] theorem State.push_pairs (s : State) (p : Pending) : (s.push p).pairs = s.pairs := rfl
@[simp] theorem State.push_tokens (s : State) (p : Pending) : (s.push p).tokens = s.tokens := rfl
@[simp] theorem State.push_scopes (s : State) (p : Pending) : (s.push p).scopes = s.scopes := rfl
@[simp] theorem State.push_launches (s : State) (p : Pending) : (s.push p).launches = s.launches := rfl
@[simp] theorem State.push_gangs (s : State) (p : Pending) : (s.push p).gangs = s.gangs := rfl
@[simp] theorem State.push_images (s : State) (p : Pending) : (s.push p).images = s.images := rfl
@[simp] theorem State.push_domains (s : State) (p : Pending) : (s.push p).domains = s.domains := rfl
@[simp] theorem State.push_kept (s : State) (p : Pending) : (s.push p).kept = s.kept := rfl
@[simp] theorem State.push_spares (s : State) (p : Pending) : (s.push p).spares = s.spares := rfl
@[simp] theorem State.push_trans (s : State) (p : Pending) : (s.push p).trans = s.trans := rfl
@[simp] theorem State.push_oldTrans (s : State) (p : Pending) : (s.push p).oldTrans = s.oldTrans := rfl
@[simp] theorem State.push_pages (s : State) (p : Pending) : (s.push p).pages = s.pages := rfl
@[simp] theorem State.push_pageAlloc (s : State) (p : Pending) : (s.push p).pageAlloc = s.pageAlloc := rfl
@[simp] theorem State.push_pagesOn (s : State) (p : Pending) : (s.push p).pagesOn = s.pagesOn := rfl
@[simp] theorem State.push_invalidations (s : State) (p : Pending) : (s.push p).invalidations = s.invalidations := rfl
@[simp] theorem State.push_devwin (s : State) (p : Pending) : (s.push p).devwin = s.devwin := rfl
@[simp] theorem State.push_hostSeq (s : State) (p : Pending) : (s.push p).hostSeq = s.hostSeq := rfl
@[simp] theorem State.push_bellSeq (s : State) (p : Pending) : (s.push p).bellSeq = s.bellSeq := rfl
@[simp] theorem State.push_cxlRanges (s : State) (p : Pending) : (s.push p).cxlRanges = s.cxlRanges := rfl
@[simp] theorem State.push_unitLogs (s : State) (p : Pending) : (s.push p).unitLogs = s.unitLogs := rfl
@[simp] theorem State.push_unitInject (s : State) (p : Pending) : (s.push p).unitInject = s.unitInject := rfl
@[simp] theorem State.push_parts (s : State) (p : Pending) : (s.push p).parts = s.parts := rfl
@[simp] theorem State.push_peers (s : State) (p : Pending) : (s.push p).peers = s.peers := rfl
@[simp] theorem State.push_peerOut (s : State) (p : Pending) : (s.push p).peerOut = s.peerOut := rfl
@[simp] theorem State.push_powerCap (s : State) (p : Pending) : (s.push p).powerCap = s.powerCap := rfl
@[simp] theorem State.push_noAdmit (s : State) (p : Pending) : (s.push p).noAdmit = s.noAdmit := rfl
@[simp] theorem State.push_supply (s : State) (p : Pending) : (s.push p).supply = s.supply := rfl
@[simp] theorem State.push_powerOff (s : State) (p : Pending) : (s.push p).powerOff = s.powerOff := rfl
@[simp] theorem State.push_cycle (s : State) (p : Pending) : (s.push p).cycle = s.cycle := rfl
@[simp] theorem State.push_kiln (s : State) (p : Pending) : (s.push p).kiln = s.kiln := rfl
@[simp] theorem State.push_ltimes (s : State) (p : Pending) : (s.push p).ltimes = s.ltimes := rfl
@[simp] theorem State.push_stuck (s : State) (p : Pending) : (s.push p).stuck = s.stuck := rfl
@[simp] theorem State.push_doneWords (s : State) (p : Pending) : (s.push p).doneWords = s.doneWords := rfl
@[simp] theorem State.push_outst (s : State) (p : Pending) : (s.push p).outst = s.outst := rfl
@[simp] theorem State.push_served (s : State) (p : Pending) : (s.push p).served = s.served := rfl
@[simp] theorem State.push_idleAt (s : State) (p : Pending) : (s.push p).idleAt = s.idleAt := rfl
@[simp] theorem State.push_sched (s : State) (p : Pending) : (s.push p).sched = s.sched := rfl
@[simp] theorem State.push_turn (s : State) (p : Pending) : (s.push p).turn = s.turn := rfl
@[simp] theorem State.push_cur (s : State) (p : Pending) : (s.push p).cur = s.cur := rfl
@[simp] theorem State.push_curHart (s : State) (p : Pending) : (s.push p).curHart = s.curHart := rfl
@[simp] theorem State.push_arg (s : State) (p : Pending) : (s.push p).arg = s.arg := rfl
@[simp] theorem State.push_fresh (s : State) (p : Pending) : (s.push p).fresh = s.fresh := rfl

/-! `send` changes `agenda` alone. -/

@[simp] theorem State.send_mem (s : State) (l : Nat) (e : Instr) (a : Payload) : (s.send l e a).mem = s.mem := rfl
@[simp] theorem State.send_descs (s : State) (l : Nat) (e : Instr) (a : Payload) : (s.send l e a).descs = s.descs := rfl
@[simp] theorem State.send_errs (s : State) (l : Nat) (e : Instr) (a : Payload) : (s.send l e a).errs = s.errs := rfl
@[simp] theorem State.send_badTags (s : State) (l : Nat) (e : Instr) (a : Payload) : (s.send l e a).badTags = s.badTags := rfl
@[simp] theorem State.send_seals (s : State) (l : Nat) (e : Instr) (a : Payload) : (s.send l e a).seals = s.seals := rfl
@[simp] theorem State.send_strands (s : State) (l : Nat) (e : Instr) (a : Payload) : (s.send l e a).strands = s.strands := rfl
@[simp] theorem State.send_cores (s : State) (l : Nat) (e : Instr) (a : Payload) : (s.send l e a).cores = s.cores := rfl
@[simp] theorem State.send_lcores (s : State) (l : Nat) (e : Instr) (a : Payload) : (s.send l e a).lcores = s.lcores := rfl
@[simp] theorem State.send_clusters (s : State) (l : Nat) (e : Instr) (a : Payload) : (s.send l e a).clusters = s.clusters := rfl
@[simp] theorem State.send_engines (s : State) (l : Nat) (e : Instr) (a : Payload) : (s.send l e a).engines = s.engines := rfl
@[simp] theorem State.send_links (s : State) (l : Nat) (e : Instr) (a : Payload) : (s.send l e a).links = s.links := rfl
@[simp] theorem State.send_pairs (s : State) (l : Nat) (e : Instr) (a : Payload) : (s.send l e a).pairs = s.pairs := rfl
@[simp] theorem State.send_tokens (s : State) (l : Nat) (e : Instr) (a : Payload) : (s.send l e a).tokens = s.tokens := rfl
@[simp] theorem State.send_scopes (s : State) (l : Nat) (e : Instr) (a : Payload) : (s.send l e a).scopes = s.scopes := rfl
@[simp] theorem State.send_launches (s : State) (l : Nat) (e : Instr) (a : Payload) : (s.send l e a).launches = s.launches := rfl
@[simp] theorem State.send_gangs (s : State) (l : Nat) (e : Instr) (a : Payload) : (s.send l e a).gangs = s.gangs := rfl
@[simp] theorem State.send_images (s : State) (l : Nat) (e : Instr) (a : Payload) : (s.send l e a).images = s.images := rfl
@[simp] theorem State.send_domains (s : State) (l : Nat) (e : Instr) (a : Payload) : (s.send l e a).domains = s.domains := rfl
@[simp] theorem State.send_kept (s : State) (l : Nat) (e : Instr) (a : Payload) : (s.send l e a).kept = s.kept := rfl
@[simp] theorem State.send_spares (s : State) (l : Nat) (e : Instr) (a : Payload) : (s.send l e a).spares = s.spares := rfl
@[simp] theorem State.send_trans (s : State) (l : Nat) (e : Instr) (a : Payload) : (s.send l e a).trans = s.trans := rfl
@[simp] theorem State.send_oldTrans (s : State) (l : Nat) (e : Instr) (a : Payload) : (s.send l e a).oldTrans = s.oldTrans := rfl
@[simp] theorem State.send_pages (s : State) (l : Nat) (e : Instr) (a : Payload) : (s.send l e a).pages = s.pages := rfl
@[simp] theorem State.send_pageAlloc (s : State) (l : Nat) (e : Instr) (a : Payload) : (s.send l e a).pageAlloc = s.pageAlloc := rfl
@[simp] theorem State.send_pagesOn (s : State) (l : Nat) (e : Instr) (a : Payload) : (s.send l e a).pagesOn = s.pagesOn := rfl
@[simp] theorem State.send_invalidations (s : State) (l : Nat) (e : Instr) (a : Payload) : (s.send l e a).invalidations = s.invalidations := rfl
@[simp] theorem State.send_devwin (s : State) (l : Nat) (e : Instr) (a : Payload) : (s.send l e a).devwin = s.devwin := rfl
@[simp] theorem State.send_hostSeq (s : State) (l : Nat) (e : Instr) (a : Payload) : (s.send l e a).hostSeq = s.hostSeq := rfl
@[simp] theorem State.send_bellSeq (s : State) (l : Nat) (e : Instr) (a : Payload) : (s.send l e a).bellSeq = s.bellSeq := rfl
@[simp] theorem State.send_cxlRanges (s : State) (l : Nat) (e : Instr) (a : Payload) : (s.send l e a).cxlRanges = s.cxlRanges := rfl
@[simp] theorem State.send_unitLogs (s : State) (l : Nat) (e : Instr) (a : Payload) : (s.send l e a).unitLogs = s.unitLogs := rfl
@[simp] theorem State.send_unitInject (s : State) (l : Nat) (e : Instr) (a : Payload) : (s.send l e a).unitInject = s.unitInject := rfl
@[simp] theorem State.send_parts (s : State) (l : Nat) (e : Instr) (a : Payload) : (s.send l e a).parts = s.parts := rfl
@[simp] theorem State.send_peers (s : State) (l : Nat) (e : Instr) (a : Payload) : (s.send l e a).peers = s.peers := rfl
@[simp] theorem State.send_peerOut (s : State) (l : Nat) (e : Instr) (a : Payload) : (s.send l e a).peerOut = s.peerOut := rfl
@[simp] theorem State.send_powerCap (s : State) (l : Nat) (e : Instr) (a : Payload) : (s.send l e a).powerCap = s.powerCap := rfl
@[simp] theorem State.send_noAdmit (s : State) (l : Nat) (e : Instr) (a : Payload) : (s.send l e a).noAdmit = s.noAdmit := rfl
@[simp] theorem State.send_supply (s : State) (l : Nat) (e : Instr) (a : Payload) : (s.send l e a).supply = s.supply := rfl
@[simp] theorem State.send_powerOff (s : State) (l : Nat) (e : Instr) (a : Payload) : (s.send l e a).powerOff = s.powerOff := rfl
@[simp] theorem State.send_cycle (s : State) (l : Nat) (e : Instr) (a : Payload) : (s.send l e a).cycle = s.cycle := rfl
@[simp] theorem State.send_kiln (s : State) (l : Nat) (e : Instr) (a : Payload) : (s.send l e a).kiln = s.kiln := rfl
@[simp] theorem State.send_ltimes (s : State) (l : Nat) (e : Instr) (a : Payload) : (s.send l e a).ltimes = s.ltimes := rfl
@[simp] theorem State.send_stuck (s : State) (l : Nat) (e : Instr) (a : Payload) : (s.send l e a).stuck = s.stuck := rfl
@[simp] theorem State.send_doneWords (s : State) (l : Nat) (e : Instr) (a : Payload) : (s.send l e a).doneWords = s.doneWords := rfl
@[simp] theorem State.send_outst (s : State) (l : Nat) (e : Instr) (a : Payload) : (s.send l e a).outst = s.outst := rfl
@[simp] theorem State.send_served (s : State) (l : Nat) (e : Instr) (a : Payload) : (s.send l e a).served = s.served := rfl
@[simp] theorem State.send_idleAt (s : State) (l : Nat) (e : Instr) (a : Payload) : (s.send l e a).idleAt = s.idleAt := rfl
@[simp] theorem State.send_sched (s : State) (l : Nat) (e : Instr) (a : Payload) : (s.send l e a).sched = s.sched := rfl
@[simp] theorem State.send_turn (s : State) (l : Nat) (e : Instr) (a : Payload) : (s.send l e a).turn = s.turn := rfl
@[simp] theorem State.send_cur (s : State) (l : Nat) (e : Instr) (a : Payload) : (s.send l e a).cur = s.cur := rfl
@[simp] theorem State.send_curHart (s : State) (l : Nat) (e : Instr) (a : Payload) : (s.send l e a).curHart = s.curHart := rfl
@[simp] theorem State.send_arg (s : State) (l : Nat) (e : Instr) (a : Payload) : (s.send l e a).arg = s.arg := rfl
@[simp] theorem State.send_fresh (s : State) (l : Nat) (e : Instr) (a : Payload) : (s.send l e a).fresh = s.fresh := rfl

/-! `after` changes `agenda` alone. -/

@[simp] theorem State.after_mem (s : State) (n : Nat) (e : Instr) (a : Payload) : (s.after n e a).mem = s.mem := rfl
@[simp] theorem State.after_descs (s : State) (n : Nat) (e : Instr) (a : Payload) : (s.after n e a).descs = s.descs := rfl
@[simp] theorem State.after_errs (s : State) (n : Nat) (e : Instr) (a : Payload) : (s.after n e a).errs = s.errs := rfl
@[simp] theorem State.after_badTags (s : State) (n : Nat) (e : Instr) (a : Payload) : (s.after n e a).badTags = s.badTags := rfl
@[simp] theorem State.after_seals (s : State) (n : Nat) (e : Instr) (a : Payload) : (s.after n e a).seals = s.seals := rfl
@[simp] theorem State.after_strands (s : State) (n : Nat) (e : Instr) (a : Payload) : (s.after n e a).strands = s.strands := rfl
@[simp] theorem State.after_cores (s : State) (n : Nat) (e : Instr) (a : Payload) : (s.after n e a).cores = s.cores := rfl
@[simp] theorem State.after_lcores (s : State) (n : Nat) (e : Instr) (a : Payload) : (s.after n e a).lcores = s.lcores := rfl
@[simp] theorem State.after_clusters (s : State) (n : Nat) (e : Instr) (a : Payload) : (s.after n e a).clusters = s.clusters := rfl
@[simp] theorem State.after_engines (s : State) (n : Nat) (e : Instr) (a : Payload) : (s.after n e a).engines = s.engines := rfl
@[simp] theorem State.after_links (s : State) (n : Nat) (e : Instr) (a : Payload) : (s.after n e a).links = s.links := rfl
@[simp] theorem State.after_pairs (s : State) (n : Nat) (e : Instr) (a : Payload) : (s.after n e a).pairs = s.pairs := rfl
@[simp] theorem State.after_tokens (s : State) (n : Nat) (e : Instr) (a : Payload) : (s.after n e a).tokens = s.tokens := rfl
@[simp] theorem State.after_scopes (s : State) (n : Nat) (e : Instr) (a : Payload) : (s.after n e a).scopes = s.scopes := rfl
@[simp] theorem State.after_launches (s : State) (n : Nat) (e : Instr) (a : Payload) : (s.after n e a).launches = s.launches := rfl
@[simp] theorem State.after_gangs (s : State) (n : Nat) (e : Instr) (a : Payload) : (s.after n e a).gangs = s.gangs := rfl
@[simp] theorem State.after_images (s : State) (n : Nat) (e : Instr) (a : Payload) : (s.after n e a).images = s.images := rfl
@[simp] theorem State.after_domains (s : State) (n : Nat) (e : Instr) (a : Payload) : (s.after n e a).domains = s.domains := rfl
@[simp] theorem State.after_kept (s : State) (n : Nat) (e : Instr) (a : Payload) : (s.after n e a).kept = s.kept := rfl
@[simp] theorem State.after_spares (s : State) (n : Nat) (e : Instr) (a : Payload) : (s.after n e a).spares = s.spares := rfl
@[simp] theorem State.after_trans (s : State) (n : Nat) (e : Instr) (a : Payload) : (s.after n e a).trans = s.trans := rfl
@[simp] theorem State.after_oldTrans (s : State) (n : Nat) (e : Instr) (a : Payload) : (s.after n e a).oldTrans = s.oldTrans := rfl
@[simp] theorem State.after_pages (s : State) (n : Nat) (e : Instr) (a : Payload) : (s.after n e a).pages = s.pages := rfl
@[simp] theorem State.after_pageAlloc (s : State) (n : Nat) (e : Instr) (a : Payload) : (s.after n e a).pageAlloc = s.pageAlloc := rfl
@[simp] theorem State.after_pagesOn (s : State) (n : Nat) (e : Instr) (a : Payload) : (s.after n e a).pagesOn = s.pagesOn := rfl
@[simp] theorem State.after_invalidations (s : State) (n : Nat) (e : Instr) (a : Payload) : (s.after n e a).invalidations = s.invalidations := rfl
@[simp] theorem State.after_devwin (s : State) (n : Nat) (e : Instr) (a : Payload) : (s.after n e a).devwin = s.devwin := rfl
@[simp] theorem State.after_hostSeq (s : State) (n : Nat) (e : Instr) (a : Payload) : (s.after n e a).hostSeq = s.hostSeq := rfl
@[simp] theorem State.after_bellSeq (s : State) (n : Nat) (e : Instr) (a : Payload) : (s.after n e a).bellSeq = s.bellSeq := rfl
@[simp] theorem State.after_cxlRanges (s : State) (n : Nat) (e : Instr) (a : Payload) : (s.after n e a).cxlRanges = s.cxlRanges := rfl
@[simp] theorem State.after_unitLogs (s : State) (n : Nat) (e : Instr) (a : Payload) : (s.after n e a).unitLogs = s.unitLogs := rfl
@[simp] theorem State.after_unitInject (s : State) (n : Nat) (e : Instr) (a : Payload) : (s.after n e a).unitInject = s.unitInject := rfl
@[simp] theorem State.after_parts (s : State) (n : Nat) (e : Instr) (a : Payload) : (s.after n e a).parts = s.parts := rfl
@[simp] theorem State.after_peers (s : State) (n : Nat) (e : Instr) (a : Payload) : (s.after n e a).peers = s.peers := rfl
@[simp] theorem State.after_peerOut (s : State) (n : Nat) (e : Instr) (a : Payload) : (s.after n e a).peerOut = s.peerOut := rfl
@[simp] theorem State.after_powerCap (s : State) (n : Nat) (e : Instr) (a : Payload) : (s.after n e a).powerCap = s.powerCap := rfl
@[simp] theorem State.after_noAdmit (s : State) (n : Nat) (e : Instr) (a : Payload) : (s.after n e a).noAdmit = s.noAdmit := rfl
@[simp] theorem State.after_supply (s : State) (n : Nat) (e : Instr) (a : Payload) : (s.after n e a).supply = s.supply := rfl
@[simp] theorem State.after_powerOff (s : State) (n : Nat) (e : Instr) (a : Payload) : (s.after n e a).powerOff = s.powerOff := rfl
@[simp] theorem State.after_cycle (s : State) (n : Nat) (e : Instr) (a : Payload) : (s.after n e a).cycle = s.cycle := rfl
@[simp] theorem State.after_kiln (s : State) (n : Nat) (e : Instr) (a : Payload) : (s.after n e a).kiln = s.kiln := rfl
@[simp] theorem State.after_ltimes (s : State) (n : Nat) (e : Instr) (a : Payload) : (s.after n e a).ltimes = s.ltimes := rfl
@[simp] theorem State.after_stuck (s : State) (n : Nat) (e : Instr) (a : Payload) : (s.after n e a).stuck = s.stuck := rfl
@[simp] theorem State.after_doneWords (s : State) (n : Nat) (e : Instr) (a : Payload) : (s.after n e a).doneWords = s.doneWords := rfl
@[simp] theorem State.after_outst (s : State) (n : Nat) (e : Instr) (a : Payload) : (s.after n e a).outst = s.outst := rfl
@[simp] theorem State.after_served (s : State) (n : Nat) (e : Instr) (a : Payload) : (s.after n e a).served = s.served := rfl
@[simp] theorem State.after_idleAt (s : State) (n : Nat) (e : Instr) (a : Payload) : (s.after n e a).idleAt = s.idleAt := rfl
@[simp] theorem State.after_sched (s : State) (n : Nat) (e : Instr) (a : Payload) : (s.after n e a).sched = s.sched := rfl
@[simp] theorem State.after_turn (s : State) (n : Nat) (e : Instr) (a : Payload) : (s.after n e a).turn = s.turn := rfl
@[simp] theorem State.after_cur (s : State) (n : Nat) (e : Instr) (a : Payload) : (s.after n e a).cur = s.cur := rfl
@[simp] theorem State.after_curHart (s : State) (n : Nat) (e : Instr) (a : Payload) : (s.after n e a).curHart = s.curHart := rfl
@[simp] theorem State.after_arg (s : State) (n : Nat) (e : Instr) (a : Payload) : (s.after n e a).arg = s.arg := rfl
@[simp] theorem State.after_fresh (s : State) (n : Nat) (e : Instr) (a : Payload) : (s.after n e a).fresh = s.fresh := rfl

/-! `bulk` changes `agenda` alone. -/

@[simp] theorem State.bulk_mem (s : State) (a b : Nat) (e : Instr) (x : Payload) : (s.bulk a b e x).mem = s.mem := rfl
@[simp] theorem State.bulk_descs (s : State) (a b : Nat) (e : Instr) (x : Payload) : (s.bulk a b e x).descs = s.descs := rfl
@[simp] theorem State.bulk_errs (s : State) (a b : Nat) (e : Instr) (x : Payload) : (s.bulk a b e x).errs = s.errs := rfl
@[simp] theorem State.bulk_badTags (s : State) (a b : Nat) (e : Instr) (x : Payload) : (s.bulk a b e x).badTags = s.badTags := rfl
@[simp] theorem State.bulk_seals (s : State) (a b : Nat) (e : Instr) (x : Payload) : (s.bulk a b e x).seals = s.seals := rfl
@[simp] theorem State.bulk_strands (s : State) (a b : Nat) (e : Instr) (x : Payload) : (s.bulk a b e x).strands = s.strands := rfl
@[simp] theorem State.bulk_cores (s : State) (a b : Nat) (e : Instr) (x : Payload) : (s.bulk a b e x).cores = s.cores := rfl
@[simp] theorem State.bulk_lcores (s : State) (a b : Nat) (e : Instr) (x : Payload) : (s.bulk a b e x).lcores = s.lcores := rfl
@[simp] theorem State.bulk_clusters (s : State) (a b : Nat) (e : Instr) (x : Payload) : (s.bulk a b e x).clusters = s.clusters := rfl
@[simp] theorem State.bulk_engines (s : State) (a b : Nat) (e : Instr) (x : Payload) : (s.bulk a b e x).engines = s.engines := rfl
@[simp] theorem State.bulk_links (s : State) (a b : Nat) (e : Instr) (x : Payload) : (s.bulk a b e x).links = s.links := rfl
@[simp] theorem State.bulk_pairs (s : State) (a b : Nat) (e : Instr) (x : Payload) : (s.bulk a b e x).pairs = s.pairs := rfl
@[simp] theorem State.bulk_tokens (s : State) (a b : Nat) (e : Instr) (x : Payload) : (s.bulk a b e x).tokens = s.tokens := rfl
@[simp] theorem State.bulk_scopes (s : State) (a b : Nat) (e : Instr) (x : Payload) : (s.bulk a b e x).scopes = s.scopes := rfl
@[simp] theorem State.bulk_launches (s : State) (a b : Nat) (e : Instr) (x : Payload) : (s.bulk a b e x).launches = s.launches := rfl
@[simp] theorem State.bulk_gangs (s : State) (a b : Nat) (e : Instr) (x : Payload) : (s.bulk a b e x).gangs = s.gangs := rfl
@[simp] theorem State.bulk_images (s : State) (a b : Nat) (e : Instr) (x : Payload) : (s.bulk a b e x).images = s.images := rfl
@[simp] theorem State.bulk_domains (s : State) (a b : Nat) (e : Instr) (x : Payload) : (s.bulk a b e x).domains = s.domains := rfl
@[simp] theorem State.bulk_kept (s : State) (a b : Nat) (e : Instr) (x : Payload) : (s.bulk a b e x).kept = s.kept := rfl
@[simp] theorem State.bulk_spares (s : State) (a b : Nat) (e : Instr) (x : Payload) : (s.bulk a b e x).spares = s.spares := rfl
@[simp] theorem State.bulk_trans (s : State) (a b : Nat) (e : Instr) (x : Payload) : (s.bulk a b e x).trans = s.trans := rfl
@[simp] theorem State.bulk_oldTrans (s : State) (a b : Nat) (e : Instr) (x : Payload) : (s.bulk a b e x).oldTrans = s.oldTrans := rfl
@[simp] theorem State.bulk_pages (s : State) (a b : Nat) (e : Instr) (x : Payload) : (s.bulk a b e x).pages = s.pages := rfl
@[simp] theorem State.bulk_pageAlloc (s : State) (a b : Nat) (e : Instr) (x : Payload) : (s.bulk a b e x).pageAlloc = s.pageAlloc := rfl
@[simp] theorem State.bulk_pagesOn (s : State) (a b : Nat) (e : Instr) (x : Payload) : (s.bulk a b e x).pagesOn = s.pagesOn := rfl
@[simp] theorem State.bulk_invalidations (s : State) (a b : Nat) (e : Instr) (x : Payload) : (s.bulk a b e x).invalidations = s.invalidations := rfl
@[simp] theorem State.bulk_devwin (s : State) (a b : Nat) (e : Instr) (x : Payload) : (s.bulk a b e x).devwin = s.devwin := rfl
@[simp] theorem State.bulk_hostSeq (s : State) (a b : Nat) (e : Instr) (x : Payload) : (s.bulk a b e x).hostSeq = s.hostSeq := rfl
@[simp] theorem State.bulk_bellSeq (s : State) (a b : Nat) (e : Instr) (x : Payload) : (s.bulk a b e x).bellSeq = s.bellSeq := rfl
@[simp] theorem State.bulk_cxlRanges (s : State) (a b : Nat) (e : Instr) (x : Payload) : (s.bulk a b e x).cxlRanges = s.cxlRanges := rfl
@[simp] theorem State.bulk_unitLogs (s : State) (a b : Nat) (e : Instr) (x : Payload) : (s.bulk a b e x).unitLogs = s.unitLogs := rfl
@[simp] theorem State.bulk_unitInject (s : State) (a b : Nat) (e : Instr) (x : Payload) : (s.bulk a b e x).unitInject = s.unitInject := rfl
@[simp] theorem State.bulk_parts (s : State) (a b : Nat) (e : Instr) (x : Payload) : (s.bulk a b e x).parts = s.parts := rfl
@[simp] theorem State.bulk_peers (s : State) (a b : Nat) (e : Instr) (x : Payload) : (s.bulk a b e x).peers = s.peers := rfl
@[simp] theorem State.bulk_peerOut (s : State) (a b : Nat) (e : Instr) (x : Payload) : (s.bulk a b e x).peerOut = s.peerOut := rfl
@[simp] theorem State.bulk_powerCap (s : State) (a b : Nat) (e : Instr) (x : Payload) : (s.bulk a b e x).powerCap = s.powerCap := rfl
@[simp] theorem State.bulk_noAdmit (s : State) (a b : Nat) (e : Instr) (x : Payload) : (s.bulk a b e x).noAdmit = s.noAdmit := rfl
@[simp] theorem State.bulk_supply (s : State) (a b : Nat) (e : Instr) (x : Payload) : (s.bulk a b e x).supply = s.supply := rfl
@[simp] theorem State.bulk_powerOff (s : State) (a b : Nat) (e : Instr) (x : Payload) : (s.bulk a b e x).powerOff = s.powerOff := rfl
@[simp] theorem State.bulk_cycle (s : State) (a b : Nat) (e : Instr) (x : Payload) : (s.bulk a b e x).cycle = s.cycle := rfl
@[simp] theorem State.bulk_kiln (s : State) (a b : Nat) (e : Instr) (x : Payload) : (s.bulk a b e x).kiln = s.kiln := rfl
@[simp] theorem State.bulk_ltimes (s : State) (a b : Nat) (e : Instr) (x : Payload) : (s.bulk a b e x).ltimes = s.ltimes := rfl
@[simp] theorem State.bulk_stuck (s : State) (a b : Nat) (e : Instr) (x : Payload) : (s.bulk a b e x).stuck = s.stuck := rfl
@[simp] theorem State.bulk_doneWords (s : State) (a b : Nat) (e : Instr) (x : Payload) : (s.bulk a b e x).doneWords = s.doneWords := rfl
@[simp] theorem State.bulk_outst (s : State) (a b : Nat) (e : Instr) (x : Payload) : (s.bulk a b e x).outst = s.outst := rfl
@[simp] theorem State.bulk_served (s : State) (a b : Nat) (e : Instr) (x : Payload) : (s.bulk a b e x).served = s.served := rfl
@[simp] theorem State.bulk_idleAt (s : State) (a b : Nat) (e : Instr) (x : Payload) : (s.bulk a b e x).idleAt = s.idleAt := rfl
@[simp] theorem State.bulk_sched (s : State) (a b : Nat) (e : Instr) (x : Payload) : (s.bulk a b e x).sched = s.sched := rfl
@[simp] theorem State.bulk_turn (s : State) (a b : Nat) (e : Instr) (x : Payload) : (s.bulk a b e x).turn = s.turn := rfl
@[simp] theorem State.bulk_cur (s : State) (a b : Nat) (e : Instr) (x : Payload) : (s.bulk a b e x).cur = s.cur := rfl
@[simp] theorem State.bulk_curHart (s : State) (a b : Nat) (e : Instr) (x : Payload) : (s.bulk a b e x).curHart = s.curHart := rfl
@[simp] theorem State.bulk_arg (s : State) (a b : Nat) (e : Instr) (x : Payload) : (s.bulk a b e x).arg = s.arg := rfl
@[simp] theorem State.bulk_fresh (s : State) (a b : Nat) (e : Instr) (x : Payload) : (s.bulk a b e x).fresh = s.fresh := rfl

/-! `leaves` changes `peerOut` alone. -/

@[simp] theorem State.leaves_mem (s : State) (e : Instr) : (s.leaves e).mem = s.mem := rfl
@[simp] theorem State.leaves_descs (s : State) (e : Instr) : (s.leaves e).descs = s.descs := rfl
@[simp] theorem State.leaves_errs (s : State) (e : Instr) : (s.leaves e).errs = s.errs := rfl
@[simp] theorem State.leaves_badTags (s : State) (e : Instr) : (s.leaves e).badTags = s.badTags := rfl
@[simp] theorem State.leaves_seals (s : State) (e : Instr) : (s.leaves e).seals = s.seals := rfl
@[simp] theorem State.leaves_strands (s : State) (e : Instr) : (s.leaves e).strands = s.strands := rfl
@[simp] theorem State.leaves_cores (s : State) (e : Instr) : (s.leaves e).cores = s.cores := rfl
@[simp] theorem State.leaves_lcores (s : State) (e : Instr) : (s.leaves e).lcores = s.lcores := rfl
@[simp] theorem State.leaves_clusters (s : State) (e : Instr) : (s.leaves e).clusters = s.clusters := rfl
@[simp] theorem State.leaves_engines (s : State) (e : Instr) : (s.leaves e).engines = s.engines := rfl
@[simp] theorem State.leaves_links (s : State) (e : Instr) : (s.leaves e).links = s.links := rfl
@[simp] theorem State.leaves_pairs (s : State) (e : Instr) : (s.leaves e).pairs = s.pairs := rfl
@[simp] theorem State.leaves_tokens (s : State) (e : Instr) : (s.leaves e).tokens = s.tokens := rfl
@[simp] theorem State.leaves_scopes (s : State) (e : Instr) : (s.leaves e).scopes = s.scopes := rfl
@[simp] theorem State.leaves_launches (s : State) (e : Instr) : (s.leaves e).launches = s.launches := rfl
@[simp] theorem State.leaves_gangs (s : State) (e : Instr) : (s.leaves e).gangs = s.gangs := rfl
@[simp] theorem State.leaves_images (s : State) (e : Instr) : (s.leaves e).images = s.images := rfl
@[simp] theorem State.leaves_domains (s : State) (e : Instr) : (s.leaves e).domains = s.domains := rfl
@[simp] theorem State.leaves_kept (s : State) (e : Instr) : (s.leaves e).kept = s.kept := rfl
@[simp] theorem State.leaves_spares (s : State) (e : Instr) : (s.leaves e).spares = s.spares := rfl
@[simp] theorem State.leaves_trans (s : State) (e : Instr) : (s.leaves e).trans = s.trans := rfl
@[simp] theorem State.leaves_oldTrans (s : State) (e : Instr) : (s.leaves e).oldTrans = s.oldTrans := rfl
@[simp] theorem State.leaves_pages (s : State) (e : Instr) : (s.leaves e).pages = s.pages := rfl
@[simp] theorem State.leaves_pageAlloc (s : State) (e : Instr) : (s.leaves e).pageAlloc = s.pageAlloc := rfl
@[simp] theorem State.leaves_pagesOn (s : State) (e : Instr) : (s.leaves e).pagesOn = s.pagesOn := rfl
@[simp] theorem State.leaves_invalidations (s : State) (e : Instr) : (s.leaves e).invalidations = s.invalidations := rfl
@[simp] theorem State.leaves_devwin (s : State) (e : Instr) : (s.leaves e).devwin = s.devwin := rfl
@[simp] theorem State.leaves_hostSeq (s : State) (e : Instr) : (s.leaves e).hostSeq = s.hostSeq := rfl
@[simp] theorem State.leaves_bellSeq (s : State) (e : Instr) : (s.leaves e).bellSeq = s.bellSeq := rfl
@[simp] theorem State.leaves_cxlRanges (s : State) (e : Instr) : (s.leaves e).cxlRanges = s.cxlRanges := rfl
@[simp] theorem State.leaves_unitLogs (s : State) (e : Instr) : (s.leaves e).unitLogs = s.unitLogs := rfl
@[simp] theorem State.leaves_unitInject (s : State) (e : Instr) : (s.leaves e).unitInject = s.unitInject := rfl
@[simp] theorem State.leaves_parts (s : State) (e : Instr) : (s.leaves e).parts = s.parts := rfl
@[simp] theorem State.leaves_peers (s : State) (e : Instr) : (s.leaves e).peers = s.peers := rfl
@[simp] theorem State.leaves_powerCap (s : State) (e : Instr) : (s.leaves e).powerCap = s.powerCap := rfl
@[simp] theorem State.leaves_noAdmit (s : State) (e : Instr) : (s.leaves e).noAdmit = s.noAdmit := rfl
@[simp] theorem State.leaves_supply (s : State) (e : Instr) : (s.leaves e).supply = s.supply := rfl
@[simp] theorem State.leaves_powerOff (s : State) (e : Instr) : (s.leaves e).powerOff = s.powerOff := rfl
@[simp] theorem State.leaves_cycle (s : State) (e : Instr) : (s.leaves e).cycle = s.cycle := rfl
@[simp] theorem State.leaves_kiln (s : State) (e : Instr) : (s.leaves e).kiln = s.kiln := rfl
@[simp] theorem State.leaves_ltimes (s : State) (e : Instr) : (s.leaves e).ltimes = s.ltimes := rfl
@[simp] theorem State.leaves_stuck (s : State) (e : Instr) : (s.leaves e).stuck = s.stuck := rfl
@[simp] theorem State.leaves_doneWords (s : State) (e : Instr) : (s.leaves e).doneWords = s.doneWords := rfl
@[simp] theorem State.leaves_agenda (s : State) (e : Instr) : (s.leaves e).agenda = s.agenda := rfl
@[simp] theorem State.leaves_outst (s : State) (e : Instr) : (s.leaves e).outst = s.outst := rfl
@[simp] theorem State.leaves_served (s : State) (e : Instr) : (s.leaves e).served = s.served := rfl
@[simp] theorem State.leaves_idleAt (s : State) (e : Instr) : (s.leaves e).idleAt = s.idleAt := rfl
@[simp] theorem State.leaves_sched (s : State) (e : Instr) : (s.leaves e).sched = s.sched := rfl
@[simp] theorem State.leaves_turn (s : State) (e : Instr) : (s.leaves e).turn = s.turn := rfl
@[simp] theorem State.leaves_cur (s : State) (e : Instr) : (s.leaves e).cur = s.cur := rfl
@[simp] theorem State.leaves_curHart (s : State) (e : Instr) : (s.leaves e).curHart = s.curHart := rfl
@[simp] theorem State.leaves_arg (s : State) (e : Instr) : (s.leaves e).arg = s.arg := rfl
@[simp] theorem State.leaves_fresh (s : State) (e : Instr) : (s.leaves e).fresh = s.fresh := rfl

/-! `workLeaves` changes `idleAt` alone. -/

@[simp] theorem State.workLeaves_mem (s : State) (c : Nat) : (s.workLeaves c).mem = s.mem := rfl
@[simp] theorem State.workLeaves_descs (s : State) (c : Nat) : (s.workLeaves c).descs = s.descs := rfl
@[simp] theorem State.workLeaves_errs (s : State) (c : Nat) : (s.workLeaves c).errs = s.errs := rfl
@[simp] theorem State.workLeaves_badTags (s : State) (c : Nat) : (s.workLeaves c).badTags = s.badTags := rfl
@[simp] theorem State.workLeaves_seals (s : State) (c : Nat) : (s.workLeaves c).seals = s.seals := rfl
@[simp] theorem State.workLeaves_strands (s : State) (c : Nat) : (s.workLeaves c).strands = s.strands := rfl
@[simp] theorem State.workLeaves_cores (s : State) (c : Nat) : (s.workLeaves c).cores = s.cores := rfl
@[simp] theorem State.workLeaves_lcores (s : State) (c : Nat) : (s.workLeaves c).lcores = s.lcores := rfl
@[simp] theorem State.workLeaves_clusters (s : State) (c : Nat) : (s.workLeaves c).clusters = s.clusters := rfl
@[simp] theorem State.workLeaves_engines (s : State) (c : Nat) : (s.workLeaves c).engines = s.engines := rfl
@[simp] theorem State.workLeaves_links (s : State) (c : Nat) : (s.workLeaves c).links = s.links := rfl
@[simp] theorem State.workLeaves_pairs (s : State) (c : Nat) : (s.workLeaves c).pairs = s.pairs := rfl
@[simp] theorem State.workLeaves_tokens (s : State) (c : Nat) : (s.workLeaves c).tokens = s.tokens := rfl
@[simp] theorem State.workLeaves_scopes (s : State) (c : Nat) : (s.workLeaves c).scopes = s.scopes := rfl
@[simp] theorem State.workLeaves_launches (s : State) (c : Nat) : (s.workLeaves c).launches = s.launches := rfl
@[simp] theorem State.workLeaves_gangs (s : State) (c : Nat) : (s.workLeaves c).gangs = s.gangs := rfl
@[simp] theorem State.workLeaves_images (s : State) (c : Nat) : (s.workLeaves c).images = s.images := rfl
@[simp] theorem State.workLeaves_domains (s : State) (c : Nat) : (s.workLeaves c).domains = s.domains := rfl
@[simp] theorem State.workLeaves_kept (s : State) (c : Nat) : (s.workLeaves c).kept = s.kept := rfl
@[simp] theorem State.workLeaves_spares (s : State) (c : Nat) : (s.workLeaves c).spares = s.spares := rfl
@[simp] theorem State.workLeaves_trans (s : State) (c : Nat) : (s.workLeaves c).trans = s.trans := rfl
@[simp] theorem State.workLeaves_oldTrans (s : State) (c : Nat) : (s.workLeaves c).oldTrans = s.oldTrans := rfl
@[simp] theorem State.workLeaves_pages (s : State) (c : Nat) : (s.workLeaves c).pages = s.pages := rfl
@[simp] theorem State.workLeaves_pageAlloc (s : State) (c : Nat) : (s.workLeaves c).pageAlloc = s.pageAlloc := rfl
@[simp] theorem State.workLeaves_pagesOn (s : State) (c : Nat) : (s.workLeaves c).pagesOn = s.pagesOn := rfl
@[simp] theorem State.workLeaves_invalidations (s : State) (c : Nat) : (s.workLeaves c).invalidations = s.invalidations := rfl
@[simp] theorem State.workLeaves_devwin (s : State) (c : Nat) : (s.workLeaves c).devwin = s.devwin := rfl
@[simp] theorem State.workLeaves_hostSeq (s : State) (c : Nat) : (s.workLeaves c).hostSeq = s.hostSeq := rfl
@[simp] theorem State.workLeaves_bellSeq (s : State) (c : Nat) : (s.workLeaves c).bellSeq = s.bellSeq := rfl
@[simp] theorem State.workLeaves_cxlRanges (s : State) (c : Nat) : (s.workLeaves c).cxlRanges = s.cxlRanges := rfl
@[simp] theorem State.workLeaves_unitLogs (s : State) (c : Nat) : (s.workLeaves c).unitLogs = s.unitLogs := rfl
@[simp] theorem State.workLeaves_unitInject (s : State) (c : Nat) : (s.workLeaves c).unitInject = s.unitInject := rfl
@[simp] theorem State.workLeaves_parts (s : State) (c : Nat) : (s.workLeaves c).parts = s.parts := rfl
@[simp] theorem State.workLeaves_peers (s : State) (c : Nat) : (s.workLeaves c).peers = s.peers := rfl
@[simp] theorem State.workLeaves_peerOut (s : State) (c : Nat) : (s.workLeaves c).peerOut = s.peerOut := rfl
@[simp] theorem State.workLeaves_powerCap (s : State) (c : Nat) : (s.workLeaves c).powerCap = s.powerCap := rfl
@[simp] theorem State.workLeaves_noAdmit (s : State) (c : Nat) : (s.workLeaves c).noAdmit = s.noAdmit := rfl
@[simp] theorem State.workLeaves_supply (s : State) (c : Nat) : (s.workLeaves c).supply = s.supply := rfl
@[simp] theorem State.workLeaves_powerOff (s : State) (c : Nat) : (s.workLeaves c).powerOff = s.powerOff := rfl
@[simp] theorem State.workLeaves_cycle (s : State) (c : Nat) : (s.workLeaves c).cycle = s.cycle := rfl
@[simp] theorem State.workLeaves_kiln (s : State) (c : Nat) : (s.workLeaves c).kiln = s.kiln := rfl
@[simp] theorem State.workLeaves_ltimes (s : State) (c : Nat) : (s.workLeaves c).ltimes = s.ltimes := rfl
@[simp] theorem State.workLeaves_stuck (s : State) (c : Nat) : (s.workLeaves c).stuck = s.stuck := rfl
@[simp] theorem State.workLeaves_doneWords (s : State) (c : Nat) : (s.workLeaves c).doneWords = s.doneWords := rfl
@[simp] theorem State.workLeaves_agenda (s : State) (c : Nat) : (s.workLeaves c).agenda = s.agenda := rfl
@[simp] theorem State.workLeaves_outst (s : State) (c : Nat) : (s.workLeaves c).outst = s.outst := rfl
@[simp] theorem State.workLeaves_served (s : State) (c : Nat) : (s.workLeaves c).served = s.served := rfl
@[simp] theorem State.workLeaves_sched (s : State) (c : Nat) : (s.workLeaves c).sched = s.sched := rfl
@[simp] theorem State.workLeaves_turn (s : State) (c : Nat) : (s.workLeaves c).turn = s.turn := rfl
@[simp] theorem State.workLeaves_cur (s : State) (c : Nat) : (s.workLeaves c).cur = s.cur := rfl
@[simp] theorem State.workLeaves_curHart (s : State) (c : Nat) : (s.workLeaves c).curHart = s.curHart := rfl
@[simp] theorem State.workLeaves_arg (s : State) (c : Nat) : (s.workLeaves c).arg = s.arg := rfl
@[simp] theorem State.workLeaves_fresh (s : State) (c : Nat) : (s.workLeaves c).fresh = s.fresh := rfl

/-! What a strand keeps. -/

@[simp] theorem Strand.setX_sk (st : Strand) (i : Nat) (v : Word) (d : Bool) : (st.setX i v d).sk = st.sk := rfl
@[simp] theorem Strand.setX_gen (st : Strand) (i : Nat) (v : Word) (d : Bool) : (st.setX i v d).gen = st.gen := rfl
@[simp] theorem Strand.setX_scope (st : Strand) (i : Nat) (v : Word) (d : Bool) : (st.setX i v d).scope = st.scope := rfl
@[simp] theorem Strand.setX_image (st : Strand) (i : Nat) (v : Word) (d : Bool) : (st.setX i v d).image = st.image := rfl
@[simp] theorem Strand.setX_gang (st : Strand) (i : Nat) (v : Word) (d : Bool) : (st.setX i v d).gang = st.gang := rfl
@[simp] theorem Strand.setX_rank (st : Strand) (i : Nat) (v : Word) (d : Bool) : (st.setX i v d).rank = st.rank := rfl
@[simp] theorem Strand.setX_nrank (st : Strand) (i : Nat) (v : Word) (d : Bool) : (st.setX i v d).nrank = st.nrank := rfl
@[simp] theorem Strand.setX_barWait (st : Strand) (i : Nat) (v : Word) (d : Bool) : (st.setX i v d).barWait = st.barWait := rfl
@[simp] theorem Strand.setX_collStep (st : Strand) (i : Nat) (v : Word) (d : Bool) : (st.setX i v d).collStep = st.collStep := rfl
@[simp] theorem Strand.setX_pc (st : Strand) (i : Nat) (v : Word) (d : Bool) : (st.setX i v d).pc = st.pc := rfl
@[simp] theorem Strand.setX_w (st : Strand) (i : Nat) (v : Word) (d : Bool) : (st.setX i v d).w = st.w := rfl
@[simp] theorem Strand.setX_s (st : Strand) (i : Nat) (v : Word) (d : Bool) : (st.setX i v d).s = st.s := rfl
@[simp] theorem Strand.setX_groups (st : Strand) (i : Nat) (v : Word) (d : Bool) : (st.setX i v d).groups = st.groups := rfl
@[simp] theorem Strand.setX_spilled (st : Strand) (i : Nat) (v : Word) (d : Bool) : (st.setX i v d).spilled = st.spilled := rfl
@[simp] theorem Strand.setX_links (st : Strand) (i : Nat) (v : Word) (d : Bool) : (st.setX i v d).links = st.links := rfl
@[simp] theorem Strand.setX_linkSpilled (st : Strand) (i : Nat) (v : Word) (d : Bool) : (st.setX i v d).linkSpilled = st.linkSpilled := rfl
@[simp] theorem Strand.setX_preds (st : Strand) (i : Nat) (v : Word) (d : Bool) : (st.setX i v d).preds = st.preds := rfl
@[simp] theorem Strand.setX_vset (st : Strand) (i : Nat) (v : Word) (d : Bool) : (st.setX i v d).vset = st.vset := rfl
@[simp] theorem Strand.setX_vregs (st : Strand) (i : Nat) (v : Word) (d : Bool) : (st.setX i v d).vregs = st.vregs := rfl
@[simp] theorem Strand.setX_ox0 (st : Strand) (i : Nat) (v : Word) (d : Bool) : (st.setX i v d).ox0 = st.ox0 := rfl
@[simp] theorem Strand.setX_ox1 (st : Strand) (i : Nat) (v : Word) (d : Bool) : (st.setX i v d).ox1 = st.ox1 := rfl
@[simp] theorem Strand.setX_ox2 (st : Strand) (i : Nat) (v : Word) (d : Bool) : (st.setX i v d).ox2 = st.ox2 := rfl
@[simp] theorem Strand.setX_ox3 (st : Strand) (i : Nat) (v : Word) (d : Bool) : (st.setX i v d).ox3 = st.ox3 := rfl
@[simp] theorem Strand.setX_queues (st : Strand) (i : Nat) (v : Word) (d : Bool) : (st.setX i v d).queues = st.queues := rfl
@[simp] theorem Strand.setX_retired (st : Strand) (i : Nat) (v : Word) (d : Bool) : (st.setX i v d).retired = st.retired := rfl
@[simp] theorem Strand.setX_quantum (st : Strand) (i : Nat) (v : Word) (d : Bool) : (st.setX i v d).quantum = st.quantum := rfl
@[simp] theorem Strand.setX_qpos (st : Strand) (i : Nat) (v : Word) (d : Bool) : (st.setX i v d).qpos = st.qpos := rfl
@[simp] theorem Strand.setX_frm (st : Strand) (i : Nat) (v : Word) (d : Bool) : (st.setX i v d).frm = st.frm := rfl
@[simp] theorem Strand.setX_fflags (st : Strand) (i : Nat) (v : Word) (d : Bool) : (st.setX i v d).fflags = st.fflags := rfl
@[simp] theorem Strand.setX_vfmt (st : Strand) (i : Nat) (v : Word) (d : Bool) : (st.setX i v d).vfmt = st.vfmt := rfl
@[simp] theorem Strand.setX_mfmt (st : Strand) (i : Nat) (v : Word) (d : Bool) : (st.setX i v d).mfmt = st.mfmt := rfl
@[simp] theorem Strand.setX_rkey0 (st : Strand) (i : Nat) (v : Word) (d : Bool) : (st.setX i v d).rkey0 = st.rkey0 := rfl
@[simp] theorem Strand.setX_rkey1 (st : Strand) (i : Nat) (v : Word) (d : Bool) : (st.setX i v d).rkey1 = st.rkey1 := rfl
@[simp] theorem Strand.setX_trapcode (st : Strand) (i : Nat) (v : Word) (d : Bool) : (st.setX i v d).trapcode = st.trapcode := rfl
@[simp] theorem Strand.setX_trappc (st : Strand) (i : Nat) (v : Word) (d : Bool) : (st.setX i v d).trappc = st.trappc := rfl
@[simp] theorem Strand.setX_trapva (st : Strand) (i : Nat) (v : Word) (d : Bool) : (st.setX i v d).trapva = st.trapva := rfl
@[simp] theorem Strand.setX_trapaux (st : Strand) (i : Nat) (v : Word) (d : Bool) : (st.setX i v d).trapaux = st.trapaux := rfl
@[simp] theorem Strand.setX_trapDepth (st : Strand) (i : Nat) (v : Word) (d : Bool) : (st.setX i v d).trapDepth = st.trapDepth := rfl
@[simp] theorem Strand.setX_spillbase (st : Strand) (i : Nat) (v : Word) (d : Bool) : (st.setX i v d).spillbase = st.spillbase := rfl
@[simp] theorem Strand.setX_sender (st : Strand) (i : Nat) (v : Word) (d : Bool) : (st.setX i v d).sender = st.sender := rfl
@[simp] theorem Strand.setX_chan (st : Strand) (i : Nat) (v : Word) (d : Bool) : (st.setX i v d).chan = st.chan := rfl
@[simp] theorem Strand.setX_digest (st : Strand) (i : Nat) (v : Word) (d : Bool) : (st.setX i v d).digest = st.digest := rfl
@[simp] theorem Strand.setX_perf (st : Strand) (i : Nat) (v : Word) (d : Bool) : (st.setX i v d).perf = st.perf := rfl
@[simp] theorem Strand.setX_evs (st : Strand) (i : Nat) (v : Word) (d : Bool) : (st.setX i v d).evs = st.evs := rfl
@[simp] theorem Strand.setX_opens (st : Strand) (i : Nat) (v : Word) (d : Bool) : (st.setX i v d).opens = st.opens := rfl
@[simp] theorem Strand.setX_weight (st : Strand) (i : Nat) (v : Word) (d : Bool) : (st.setX i v d).weight = st.weight := rfl
@[simp] theorem Strand.setX_saggar (st : Strand) (i : Nat) (v : Word) (d : Bool) : (st.setX i v d).saggar = st.saggar := rfl
@[simp] theorem Strand.setX_cancelSeen (st : Strand) (i : Nat) (v : Word) (d : Bool) : (st.setX i v d).cancelSeen = st.cancelSeen := rfl
@[simp] theorem Strand.setX_prio (st : Strand) (i : Nat) (v : Word) (d : Bool) : (st.setX i v d).prio = st.prio := rfl
@[simp] theorem Strand.setX_act (st : Strand) (i : Nat) (v : Word) (d : Bool) : (st.setX i v d).act = st.act := rfl
@[simp] theorem Strand.setX_idem (st : Strand) (i : Nat) (v : Word) (d : Bool) : (st.setX i v d).idem = st.idem := rfl
@[simp] theorem Strand.setX_commit (st : Strand) (i : Nat) (v : Word) (d : Bool) : (st.setX i v d).commit = st.commit := rfl
@[simp] theorem Strand.setX_wait (st : Strand) (i : Nat) (v : Word) (d : Bool) : (st.setX i v d).wait = st.wait := rfl
@[simp] theorem Strand.setX_answer (st : Strand) (i : Nat) (v : Word) (d : Bool) : (st.setX i v d).answer = st.answer := rfl
@[simp] theorem Strand.setX_pageAns (st : Strand) (i : Nat) (v : Word) (d : Bool) : (st.setX i v d).pageAns = st.pageAns := rfl
@[simp] theorem Strand.setX_atsAns (st : Strand) (i : Nat) (v : Word) (d : Bool) : (st.setX i v d).atsAns = st.atsAns := rfl
@[simp] theorem Strand.setX_cut (st : Strand) (i : Nat) (v : Word) (d : Bool) : (st.setX i v d).cut = st.cut := rfl
@[simp] theorem Strand.setX_backoff (st : Strand) (i : Nat) (v : Word) (d : Bool) : (st.setX i v d).backoff = st.backoff := rfl
@[simp] theorem Strand.setX_pend (st : Strand) (i : Nat) (v : Word) (d : Bool) : (st.setX i v d).pend = st.pend := rfl
@[simp] theorem Strand.setX_late (st : Strand) (i : Nat) (v : Word) (d : Bool) : (st.setX i v d).late = st.late := rfl
@[simp] theorem Strand.setX_raised (st : Strand) (i : Nat) (v : Word) (d : Bool) : (st.setX i v d).raised = st.raised := rfl
@[simp] theorem Strand.setX_moves (st : Strand) (i : Nat) (v : Word) (d : Bool) : (st.setX i v d).moves = st.moves := rfl
@[simp] theorem Strand.setX_cmds (st : Strand) (i : Nat) (v : Word) (d : Bool) : (st.setX i v d).cmds = st.cmds := rfl
@[simp] theorem Strand.setX_remoteHome (st : Strand) (i : Nat) (v : Word) (d : Bool) : (st.setX i v d).remoteHome = st.remoteHome := rfl
@[simp] theorem Strand.setX_remoteCount (st : Strand) (i : Nat) (v : Word) (d : Bool) : (st.setX i v d).remoteCount = st.remoteCount := rfl
@[simp] theorem Strand.setX_serial (st : Strand) (i : Nat) (v : Word) (d : Bool) : (st.setX i v d).serial = st.serial := rfl
@[simp] theorem Strand.setX_preempt (st : Strand) (i : Nat) (v : Word) (d : Bool) : (st.setX i v d).preempt = st.preempt := rfl
@[simp] theorem Strand.setX_yieldTo (st : Strand) (i : Nat) (v : Word) (d : Bool) : (st.setX i v d).yieldTo = st.yieldTo := rfl
@[simp] theorem Strand.setX_pauseTo (st : Strand) (i : Nat) (v : Word) (d : Bool) : (st.setX i v d).pauseTo = st.pauseTo := rfl
@[simp] theorem Strand.setX_dying (st : Strand) (i : Nat) (v : Word) (d : Bool) : (st.setX i v d).dying = st.dying := rfl
@[simp] theorem Strand.setX_inQuantum (st : Strand) (i : Nat) (v : Word) (d : Bool) : (st.setX i v d).inQuantum = st.inQuantum := rfl
@[simp] theorem Strand.setX_node (st : Strand) (i : Nat) (v : Word) (d : Bool) : (st.setX i v d).node = st.node := rfl

@[simp] theorem Strand.setV_sk (st : Strand) (i : BitVec 4) (r : VReg) : (st.setV i r).sk = st.sk := rfl
@[simp] theorem Strand.setV_gen (st : Strand) (i : BitVec 4) (r : VReg) : (st.setV i r).gen = st.gen := rfl
@[simp] theorem Strand.setV_scope (st : Strand) (i : BitVec 4) (r : VReg) : (st.setV i r).scope = st.scope := rfl
@[simp] theorem Strand.setV_image (st : Strand) (i : BitVec 4) (r : VReg) : (st.setV i r).image = st.image := rfl
@[simp] theorem Strand.setV_gang (st : Strand) (i : BitVec 4) (r : VReg) : (st.setV i r).gang = st.gang := rfl
@[simp] theorem Strand.setV_rank (st : Strand) (i : BitVec 4) (r : VReg) : (st.setV i r).rank = st.rank := rfl
@[simp] theorem Strand.setV_nrank (st : Strand) (i : BitVec 4) (r : VReg) : (st.setV i r).nrank = st.nrank := rfl
@[simp] theorem Strand.setV_barWait (st : Strand) (i : BitVec 4) (r : VReg) : (st.setV i r).barWait = st.barWait := rfl
@[simp] theorem Strand.setV_collStep (st : Strand) (i : BitVec 4) (r : VReg) : (st.setV i r).collStep = st.collStep := rfl
@[simp] theorem Strand.setV_pc (st : Strand) (i : BitVec 4) (r : VReg) : (st.setV i r).pc = st.pc := rfl
@[simp] theorem Strand.setV_w (st : Strand) (i : BitVec 4) (r : VReg) : (st.setV i r).w = st.w := rfl
@[simp] theorem Strand.setV_s (st : Strand) (i : BitVec 4) (r : VReg) : (st.setV i r).s = st.s := rfl
@[simp] theorem Strand.setV_stack (st : Strand) (i : BitVec 4) (r : VReg) : (st.setV i r).stack = st.stack := rfl
@[simp] theorem Strand.setV_groups (st : Strand) (i : BitVec 4) (r : VReg) : (st.setV i r).groups = st.groups := rfl
@[simp] theorem Strand.setV_spilled (st : Strand) (i : BitVec 4) (r : VReg) : (st.setV i r).spilled = st.spilled := rfl
@[simp] theorem Strand.setV_links (st : Strand) (i : BitVec 4) (r : VReg) : (st.setV i r).links = st.links := rfl
@[simp] theorem Strand.setV_linkSpilled (st : Strand) (i : BitVec 4) (r : VReg) : (st.setV i r).linkSpilled = st.linkSpilled := rfl
@[simp] theorem Strand.setV_preds (st : Strand) (i : BitVec 4) (r : VReg) : (st.setV i r).preds = st.preds := rfl
@[simp] theorem Strand.setV_vset (st : Strand) (i : BitVec 4) (r : VReg) : (st.setV i r).vset = st.vset := rfl
@[simp] theorem Strand.setV_ox0 (st : Strand) (i : BitVec 4) (r : VReg) : (st.setV i r).ox0 = st.ox0 := rfl
@[simp] theorem Strand.setV_ox1 (st : Strand) (i : BitVec 4) (r : VReg) : (st.setV i r).ox1 = st.ox1 := rfl
@[simp] theorem Strand.setV_ox2 (st : Strand) (i : BitVec 4) (r : VReg) : (st.setV i r).ox2 = st.ox2 := rfl
@[simp] theorem Strand.setV_ox3 (st : Strand) (i : BitVec 4) (r : VReg) : (st.setV i r).ox3 = st.ox3 := rfl
@[simp] theorem Strand.setV_queues (st : Strand) (i : BitVec 4) (r : VReg) : (st.setV i r).queues = st.queues := rfl
@[simp] theorem Strand.setV_retired (st : Strand) (i : BitVec 4) (r : VReg) : (st.setV i r).retired = st.retired := rfl
@[simp] theorem Strand.setV_quantum (st : Strand) (i : BitVec 4) (r : VReg) : (st.setV i r).quantum = st.quantum := rfl
@[simp] theorem Strand.setV_qpos (st : Strand) (i : BitVec 4) (r : VReg) : (st.setV i r).qpos = st.qpos := rfl
@[simp] theorem Strand.setV_frm (st : Strand) (i : BitVec 4) (r : VReg) : (st.setV i r).frm = st.frm := rfl
@[simp] theorem Strand.setV_fflags (st : Strand) (i : BitVec 4) (r : VReg) : (st.setV i r).fflags = st.fflags := rfl
@[simp] theorem Strand.setV_vfmt (st : Strand) (i : BitVec 4) (r : VReg) : (st.setV i r).vfmt = st.vfmt := rfl
@[simp] theorem Strand.setV_mfmt (st : Strand) (i : BitVec 4) (r : VReg) : (st.setV i r).mfmt = st.mfmt := rfl
@[simp] theorem Strand.setV_rkey0 (st : Strand) (i : BitVec 4) (r : VReg) : (st.setV i r).rkey0 = st.rkey0 := rfl
@[simp] theorem Strand.setV_rkey1 (st : Strand) (i : BitVec 4) (r : VReg) : (st.setV i r).rkey1 = st.rkey1 := rfl
@[simp] theorem Strand.setV_trapcode (st : Strand) (i : BitVec 4) (r : VReg) : (st.setV i r).trapcode = st.trapcode := rfl
@[simp] theorem Strand.setV_trappc (st : Strand) (i : BitVec 4) (r : VReg) : (st.setV i r).trappc = st.trappc := rfl
@[simp] theorem Strand.setV_trapva (st : Strand) (i : BitVec 4) (r : VReg) : (st.setV i r).trapva = st.trapva := rfl
@[simp] theorem Strand.setV_trapaux (st : Strand) (i : BitVec 4) (r : VReg) : (st.setV i r).trapaux = st.trapaux := rfl
@[simp] theorem Strand.setV_trapDepth (st : Strand) (i : BitVec 4) (r : VReg) : (st.setV i r).trapDepth = st.trapDepth := rfl
@[simp] theorem Strand.setV_spillbase (st : Strand) (i : BitVec 4) (r : VReg) : (st.setV i r).spillbase = st.spillbase := rfl
@[simp] theorem Strand.setV_sender (st : Strand) (i : BitVec 4) (r : VReg) : (st.setV i r).sender = st.sender := rfl
@[simp] theorem Strand.setV_chan (st : Strand) (i : BitVec 4) (r : VReg) : (st.setV i r).chan = st.chan := rfl
@[simp] theorem Strand.setV_digest (st : Strand) (i : BitVec 4) (r : VReg) : (st.setV i r).digest = st.digest := rfl
@[simp] theorem Strand.setV_perf (st : Strand) (i : BitVec 4) (r : VReg) : (st.setV i r).perf = st.perf := rfl
@[simp] theorem Strand.setV_evs (st : Strand) (i : BitVec 4) (r : VReg) : (st.setV i r).evs = st.evs := rfl
@[simp] theorem Strand.setV_opens (st : Strand) (i : BitVec 4) (r : VReg) : (st.setV i r).opens = st.opens := rfl
@[simp] theorem Strand.setV_weight (st : Strand) (i : BitVec 4) (r : VReg) : (st.setV i r).weight = st.weight := rfl
@[simp] theorem Strand.setV_saggar (st : Strand) (i : BitVec 4) (r : VReg) : (st.setV i r).saggar = st.saggar := rfl
@[simp] theorem Strand.setV_cancelSeen (st : Strand) (i : BitVec 4) (r : VReg) : (st.setV i r).cancelSeen = st.cancelSeen := rfl
@[simp] theorem Strand.setV_prio (st : Strand) (i : BitVec 4) (r : VReg) : (st.setV i r).prio = st.prio := rfl
@[simp] theorem Strand.setV_act (st : Strand) (i : BitVec 4) (r : VReg) : (st.setV i r).act = st.act := rfl
@[simp] theorem Strand.setV_idem (st : Strand) (i : BitVec 4) (r : VReg) : (st.setV i r).idem = st.idem := rfl
@[simp] theorem Strand.setV_commit (st : Strand) (i : BitVec 4) (r : VReg) : (st.setV i r).commit = st.commit := rfl
@[simp] theorem Strand.setV_wait (st : Strand) (i : BitVec 4) (r : VReg) : (st.setV i r).wait = st.wait := rfl
@[simp] theorem Strand.setV_answer (st : Strand) (i : BitVec 4) (r : VReg) : (st.setV i r).answer = st.answer := rfl
@[simp] theorem Strand.setV_pageAns (st : Strand) (i : BitVec 4) (r : VReg) : (st.setV i r).pageAns = st.pageAns := rfl
@[simp] theorem Strand.setV_atsAns (st : Strand) (i : BitVec 4) (r : VReg) : (st.setV i r).atsAns = st.atsAns := rfl
@[simp] theorem Strand.setV_cut (st : Strand) (i : BitVec 4) (r : VReg) : (st.setV i r).cut = st.cut := rfl
@[simp] theorem Strand.setV_backoff (st : Strand) (i : BitVec 4) (r : VReg) : (st.setV i r).backoff = st.backoff := rfl
@[simp] theorem Strand.setV_pend (st : Strand) (i : BitVec 4) (r : VReg) : (st.setV i r).pend = st.pend := rfl
@[simp] theorem Strand.setV_late (st : Strand) (i : BitVec 4) (r : VReg) : (st.setV i r).late = st.late := rfl
@[simp] theorem Strand.setV_raised (st : Strand) (i : BitVec 4) (r : VReg) : (st.setV i r).raised = st.raised := rfl
@[simp] theorem Strand.setV_moves (st : Strand) (i : BitVec 4) (r : VReg) : (st.setV i r).moves = st.moves := rfl
@[simp] theorem Strand.setV_cmds (st : Strand) (i : BitVec 4) (r : VReg) : (st.setV i r).cmds = st.cmds := rfl
@[simp] theorem Strand.setV_remoteHome (st : Strand) (i : BitVec 4) (r : VReg) : (st.setV i r).remoteHome = st.remoteHome := rfl
@[simp] theorem Strand.setV_remoteCount (st : Strand) (i : BitVec 4) (r : VReg) : (st.setV i r).remoteCount = st.remoteCount := rfl
@[simp] theorem Strand.setV_serial (st : Strand) (i : BitVec 4) (r : VReg) : (st.setV i r).serial = st.serial := rfl
@[simp] theorem Strand.setV_preempt (st : Strand) (i : BitVec 4) (r : VReg) : (st.setV i r).preempt = st.preempt := rfl
@[simp] theorem Strand.setV_yieldTo (st : Strand) (i : BitVec 4) (r : VReg) : (st.setV i r).yieldTo = st.yieldTo := rfl
@[simp] theorem Strand.setV_pauseTo (st : Strand) (i : BitVec 4) (r : VReg) : (st.setV i r).pauseTo = st.pauseTo := rfl
@[simp] theorem Strand.setV_dying (st : Strand) (i : BitVec 4) (r : VReg) : (st.setV i r).dying = st.dying := rfl
@[simp] theorem Strand.setV_inQuantum (st : Strand) (i : BitVec 4) (r : VReg) : (st.setV i r).inQuantum = st.inQuantum := rfl
@[simp] theorem Strand.setV_node (st : Strand) (i : BitVec 4) (r : VReg) : (st.setV i r).node = st.node := rfl

@[simp] theorem Strand.setP_sk (st : Strand) (i : BitVec 3) (b : Bool) : (st.setP i b).sk = st.sk := by
  unfold Strand.setP; split <;> rfl
@[simp] theorem Strand.setP_gen (st : Strand) (i : BitVec 3) (b : Bool) : (st.setP i b).gen = st.gen := by
  unfold Strand.setP; split <;> rfl
@[simp] theorem Strand.setP_scope (st : Strand) (i : BitVec 3) (b : Bool) : (st.setP i b).scope = st.scope := by
  unfold Strand.setP; split <;> rfl
@[simp] theorem Strand.setP_image (st : Strand) (i : BitVec 3) (b : Bool) : (st.setP i b).image = st.image := by
  unfold Strand.setP; split <;> rfl
@[simp] theorem Strand.setP_gang (st : Strand) (i : BitVec 3) (b : Bool) : (st.setP i b).gang = st.gang := by
  unfold Strand.setP; split <;> rfl
@[simp] theorem Strand.setP_rank (st : Strand) (i : BitVec 3) (b : Bool) : (st.setP i b).rank = st.rank := by
  unfold Strand.setP; split <;> rfl
@[simp] theorem Strand.setP_nrank (st : Strand) (i : BitVec 3) (b : Bool) : (st.setP i b).nrank = st.nrank := by
  unfold Strand.setP; split <;> rfl
@[simp] theorem Strand.setP_barWait (st : Strand) (i : BitVec 3) (b : Bool) : (st.setP i b).barWait = st.barWait := by
  unfold Strand.setP; split <;> rfl
@[simp] theorem Strand.setP_collStep (st : Strand) (i : BitVec 3) (b : Bool) : (st.setP i b).collStep = st.collStep := by
  unfold Strand.setP; split <;> rfl
@[simp] theorem Strand.setP_pc (st : Strand) (i : BitVec 3) (b : Bool) : (st.setP i b).pc = st.pc := by
  unfold Strand.setP; split <;> rfl
@[simp] theorem Strand.setP_w (st : Strand) (i : BitVec 3) (b : Bool) : (st.setP i b).w = st.w := by
  unfold Strand.setP; split <;> rfl
@[simp] theorem Strand.setP_s (st : Strand) (i : BitVec 3) (b : Bool) : (st.setP i b).s = st.s := by
  unfold Strand.setP; split <;> rfl
@[simp] theorem Strand.setP_stack (st : Strand) (i : BitVec 3) (b : Bool) : (st.setP i b).stack = st.stack := by
  unfold Strand.setP; split <;> rfl
@[simp] theorem Strand.setP_groups (st : Strand) (i : BitVec 3) (b : Bool) : (st.setP i b).groups = st.groups := by
  unfold Strand.setP; split <;> rfl
@[simp] theorem Strand.setP_spilled (st : Strand) (i : BitVec 3) (b : Bool) : (st.setP i b).spilled = st.spilled := by
  unfold Strand.setP; split <;> rfl
@[simp] theorem Strand.setP_links (st : Strand) (i : BitVec 3) (b : Bool) : (st.setP i b).links = st.links := by
  unfold Strand.setP; split <;> rfl
@[simp] theorem Strand.setP_linkSpilled (st : Strand) (i : BitVec 3) (b : Bool) : (st.setP i b).linkSpilled = st.linkSpilled := by
  unfold Strand.setP; split <;> rfl
@[simp] theorem Strand.setP_vset (st : Strand) (i : BitVec 3) (b : Bool) : (st.setP i b).vset = st.vset := by
  unfold Strand.setP; split <;> rfl
@[simp] theorem Strand.setP_vregs (st : Strand) (i : BitVec 3) (b : Bool) : (st.setP i b).vregs = st.vregs := by
  unfold Strand.setP; split <;> rfl
@[simp] theorem Strand.setP_ox0 (st : Strand) (i : BitVec 3) (b : Bool) : (st.setP i b).ox0 = st.ox0 := by
  unfold Strand.setP; split <;> rfl
@[simp] theorem Strand.setP_ox1 (st : Strand) (i : BitVec 3) (b : Bool) : (st.setP i b).ox1 = st.ox1 := by
  unfold Strand.setP; split <;> rfl
@[simp] theorem Strand.setP_ox2 (st : Strand) (i : BitVec 3) (b : Bool) : (st.setP i b).ox2 = st.ox2 := by
  unfold Strand.setP; split <;> rfl
@[simp] theorem Strand.setP_ox3 (st : Strand) (i : BitVec 3) (b : Bool) : (st.setP i b).ox3 = st.ox3 := by
  unfold Strand.setP; split <;> rfl
@[simp] theorem Strand.setP_queues (st : Strand) (i : BitVec 3) (b : Bool) : (st.setP i b).queues = st.queues := by
  unfold Strand.setP; split <;> rfl
@[simp] theorem Strand.setP_retired (st : Strand) (i : BitVec 3) (b : Bool) : (st.setP i b).retired = st.retired := by
  unfold Strand.setP; split <;> rfl
@[simp] theorem Strand.setP_quantum (st : Strand) (i : BitVec 3) (b : Bool) : (st.setP i b).quantum = st.quantum := by
  unfold Strand.setP; split <;> rfl
@[simp] theorem Strand.setP_qpos (st : Strand) (i : BitVec 3) (b : Bool) : (st.setP i b).qpos = st.qpos := by
  unfold Strand.setP; split <;> rfl
@[simp] theorem Strand.setP_frm (st : Strand) (i : BitVec 3) (b : Bool) : (st.setP i b).frm = st.frm := by
  unfold Strand.setP; split <;> rfl
@[simp] theorem Strand.setP_fflags (st : Strand) (i : BitVec 3) (b : Bool) : (st.setP i b).fflags = st.fflags := by
  unfold Strand.setP; split <;> rfl
@[simp] theorem Strand.setP_vfmt (st : Strand) (i : BitVec 3) (b : Bool) : (st.setP i b).vfmt = st.vfmt := by
  unfold Strand.setP; split <;> rfl
@[simp] theorem Strand.setP_mfmt (st : Strand) (i : BitVec 3) (b : Bool) : (st.setP i b).mfmt = st.mfmt := by
  unfold Strand.setP; split <;> rfl
@[simp] theorem Strand.setP_rkey0 (st : Strand) (i : BitVec 3) (b : Bool) : (st.setP i b).rkey0 = st.rkey0 := by
  unfold Strand.setP; split <;> rfl
@[simp] theorem Strand.setP_rkey1 (st : Strand) (i : BitVec 3) (b : Bool) : (st.setP i b).rkey1 = st.rkey1 := by
  unfold Strand.setP; split <;> rfl
@[simp] theorem Strand.setP_trapcode (st : Strand) (i : BitVec 3) (b : Bool) : (st.setP i b).trapcode = st.trapcode := by
  unfold Strand.setP; split <;> rfl
@[simp] theorem Strand.setP_trappc (st : Strand) (i : BitVec 3) (b : Bool) : (st.setP i b).trappc = st.trappc := by
  unfold Strand.setP; split <;> rfl
@[simp] theorem Strand.setP_trapva (st : Strand) (i : BitVec 3) (b : Bool) : (st.setP i b).trapva = st.trapva := by
  unfold Strand.setP; split <;> rfl
@[simp] theorem Strand.setP_trapaux (st : Strand) (i : BitVec 3) (b : Bool) : (st.setP i b).trapaux = st.trapaux := by
  unfold Strand.setP; split <;> rfl
@[simp] theorem Strand.setP_trapDepth (st : Strand) (i : BitVec 3) (b : Bool) : (st.setP i b).trapDepth = st.trapDepth := by
  unfold Strand.setP; split <;> rfl
@[simp] theorem Strand.setP_spillbase (st : Strand) (i : BitVec 3) (b : Bool) : (st.setP i b).spillbase = st.spillbase := by
  unfold Strand.setP; split <;> rfl
@[simp] theorem Strand.setP_sender (st : Strand) (i : BitVec 3) (b : Bool) : (st.setP i b).sender = st.sender := by
  unfold Strand.setP; split <;> rfl
@[simp] theorem Strand.setP_chan (st : Strand) (i : BitVec 3) (b : Bool) : (st.setP i b).chan = st.chan := by
  unfold Strand.setP; split <;> rfl
@[simp] theorem Strand.setP_digest (st : Strand) (i : BitVec 3) (b : Bool) : (st.setP i b).digest = st.digest := by
  unfold Strand.setP; split <;> rfl
@[simp] theorem Strand.setP_perf (st : Strand) (i : BitVec 3) (b : Bool) : (st.setP i b).perf = st.perf := by
  unfold Strand.setP; split <;> rfl
@[simp] theorem Strand.setP_evs (st : Strand) (i : BitVec 3) (b : Bool) : (st.setP i b).evs = st.evs := by
  unfold Strand.setP; split <;> rfl
@[simp] theorem Strand.setP_opens (st : Strand) (i : BitVec 3) (b : Bool) : (st.setP i b).opens = st.opens := by
  unfold Strand.setP; split <;> rfl
@[simp] theorem Strand.setP_weight (st : Strand) (i : BitVec 3) (b : Bool) : (st.setP i b).weight = st.weight := by
  unfold Strand.setP; split <;> rfl
@[simp] theorem Strand.setP_saggar (st : Strand) (i : BitVec 3) (b : Bool) : (st.setP i b).saggar = st.saggar := by
  unfold Strand.setP; split <;> rfl
@[simp] theorem Strand.setP_cancelSeen (st : Strand) (i : BitVec 3) (b : Bool) : (st.setP i b).cancelSeen = st.cancelSeen := by
  unfold Strand.setP; split <;> rfl
@[simp] theorem Strand.setP_prio (st : Strand) (i : BitVec 3) (b : Bool) : (st.setP i b).prio = st.prio := by
  unfold Strand.setP; split <;> rfl
@[simp] theorem Strand.setP_act (st : Strand) (i : BitVec 3) (b : Bool) : (st.setP i b).act = st.act := by
  unfold Strand.setP; split <;> rfl
@[simp] theorem Strand.setP_idem (st : Strand) (i : BitVec 3) (b : Bool) : (st.setP i b).idem = st.idem := by
  unfold Strand.setP; split <;> rfl
@[simp] theorem Strand.setP_commit (st : Strand) (i : BitVec 3) (b : Bool) : (st.setP i b).commit = st.commit := by
  unfold Strand.setP; split <;> rfl
@[simp] theorem Strand.setP_wait (st : Strand) (i : BitVec 3) (b : Bool) : (st.setP i b).wait = st.wait := by
  unfold Strand.setP; split <;> rfl
@[simp] theorem Strand.setP_answer (st : Strand) (i : BitVec 3) (b : Bool) : (st.setP i b).answer = st.answer := by
  unfold Strand.setP; split <;> rfl
@[simp] theorem Strand.setP_pageAns (st : Strand) (i : BitVec 3) (b : Bool) : (st.setP i b).pageAns = st.pageAns := by
  unfold Strand.setP; split <;> rfl
@[simp] theorem Strand.setP_atsAns (st : Strand) (i : BitVec 3) (b : Bool) : (st.setP i b).atsAns = st.atsAns := by
  unfold Strand.setP; split <;> rfl
@[simp] theorem Strand.setP_cut (st : Strand) (i : BitVec 3) (b : Bool) : (st.setP i b).cut = st.cut := by
  unfold Strand.setP; split <;> rfl
@[simp] theorem Strand.setP_backoff (st : Strand) (i : BitVec 3) (b : Bool) : (st.setP i b).backoff = st.backoff := by
  unfold Strand.setP; split <;> rfl
@[simp] theorem Strand.setP_pend (st : Strand) (i : BitVec 3) (b : Bool) : (st.setP i b).pend = st.pend := by
  unfold Strand.setP; split <;> rfl
@[simp] theorem Strand.setP_late (st : Strand) (i : BitVec 3) (b : Bool) : (st.setP i b).late = st.late := by
  unfold Strand.setP; split <;> rfl
@[simp] theorem Strand.setP_raised (st : Strand) (i : BitVec 3) (b : Bool) : (st.setP i b).raised = st.raised := by
  unfold Strand.setP; split <;> rfl
@[simp] theorem Strand.setP_moves (st : Strand) (i : BitVec 3) (b : Bool) : (st.setP i b).moves = st.moves := by
  unfold Strand.setP; split <;> rfl
@[simp] theorem Strand.setP_cmds (st : Strand) (i : BitVec 3) (b : Bool) : (st.setP i b).cmds = st.cmds := by
  unfold Strand.setP; split <;> rfl
@[simp] theorem Strand.setP_remoteHome (st : Strand) (i : BitVec 3) (b : Bool) : (st.setP i b).remoteHome = st.remoteHome := by
  unfold Strand.setP; split <;> rfl
@[simp] theorem Strand.setP_remoteCount (st : Strand) (i : BitVec 3) (b : Bool) : (st.setP i b).remoteCount = st.remoteCount := by
  unfold Strand.setP; split <;> rfl
@[simp] theorem Strand.setP_serial (st : Strand) (i : BitVec 3) (b : Bool) : (st.setP i b).serial = st.serial := by
  unfold Strand.setP; split <;> rfl
@[simp] theorem Strand.setP_preempt (st : Strand) (i : BitVec 3) (b : Bool) : (st.setP i b).preempt = st.preempt := by
  unfold Strand.setP; split <;> rfl
@[simp] theorem Strand.setP_yieldTo (st : Strand) (i : BitVec 3) (b : Bool) : (st.setP i b).yieldTo = st.yieldTo := by
  unfold Strand.setP; split <;> rfl
@[simp] theorem Strand.setP_pauseTo (st : Strand) (i : BitVec 3) (b : Bool) : (st.setP i b).pauseTo = st.pauseTo := by
  unfold Strand.setP; split <;> rfl
@[simp] theorem Strand.setP_dying (st : Strand) (i : BitVec 3) (b : Bool) : (st.setP i b).dying = st.dying := by
  unfold Strand.setP; split <;> rfl
@[simp] theorem Strand.setP_inQuantum (st : Strand) (i : BitVec 3) (b : Bool) : (st.setP i b).inQuantum = st.inQuantum := by
  unfold Strand.setP; split <;> rfl
@[simp] theorem Strand.setP_node (st : Strand) (i : BitVec 3) (b : Bool) : (st.setP i b).node = st.node := by
  unfold Strand.setP; split <;> rfl

/-! ### Reading what an update wrote -/

/-- The strand set is the one found under its key; the others are as before. -/
theorem State.strand_setStrand (s : State) (st : Strand) (sk : Nat) :
    (s.setStrand st).strand sk = if sk = st.sk then some st else s.strand sk := Assoc.find_insert

theorem State.strand_setStrand_self (s : State) (st : Strand) : (s.setStrand st).strand st.sk = some st := by
  simp [State.strand_setStrand]

theorem State.core_modCore (s : State) (p q : Nat) (f : Core → Core) :
    (s.modCore p f).core q = if q = p then f (s.core p) else s.core q := Assoc.get_insert

theorem State.lcore_modLCore (s : State) (l k : Nat) (f : LCore → LCore) :
    (s.modLCore l f).lcore k = if k = l then f (s.lcore l) else s.lcore k := Assoc.get_insert

theorem State.cluster_modCluster (s : State) (c k : Nat) (f : Cluster → Cluster) :
    (s.modCluster c f).cluster k = if k = c then f (s.cluster c) else s.cluster k := Assoc.get_insert

theorem State.engine_modEngine (s : State) (e k : Nat) (f : Engine → Engine) :
    (s.modEngine e f).engine k = if k = e then f (s.engine e) else s.engine k := Assoc.get_insert

theorem State.hart_modHart (s : State) (h k : Nat) (f : Hart → Hart) :
    (s.modHart h f).hart k = if k = h then f (s.hart h) else s.hart k := Assoc.get_insert

theorem State.scb_setScb (s : State) (b : Scb) (id : ScopeId) :
    (s.setScb b).scb id = if id.toNat = b.id.toNat then some b else s.scb id := Assoc.find_insert

/-! ### Window registers and predicates (R37, R48) -/

/-- p0 reads 1. -/
@[simp] theorem Strand.p_zero (st : Strand) : st.p 0 = true := rfl

/-- A write to p0 is discarded. -/
@[simp] theorem Strand.setP_zero (st : Strand) (b : Bool) : st.setP 0 b = st := rfl

/-- A name at or above s reads 0 with D = 0. -/
theorem Strand.x_above (st : Strand) (i : Nat) (h : st.s ≤ i) : st.x i = {} := if_neg (Nat.not_lt.2 h)

end Sys2Proof.Machine
end

