-- ==== Sys2Proof/Laws/Ops.lean ====
section
/-! SUPPORT. What the shared operations behind an instruction can do, said once: the runners, retirement, idempotent
regions, waits. -/

namespace Sys2Proof.Machine

/-! ### The runners -/

/-- Under its guard, an instruction that only changes its strand retires with the new strand, or takes its trap. -/
theorem runPure_taken {cls len : Nat} {g : BitVec 3} {f : Strand → Except Trap Strand} {s : State} {st0 : Strand}
    (h : s.strand s.cur = some st0) (hg : (s.enterIdem st0).p g = true) :
    runPure cls len g f s =
      match f (s.enterIdem st0) with
      | .ok st' => .next (s.retire st' ((s.enterIdem st0).pc + BitVec.ofNat 17 len) cls)
      | .error t => .next (s.takeTrap s.cur t ((s.enterIdem st0).pc.setWidth 64)) := by
  cases hf : f (s.enterIdem st0) <;> simp only [runPure, h, hg, hf, if_true]

/-- A false guard retires the instruction and nothing else. -/
theorem runPure_skipped {cls len : Nat} {g : BitVec 3} {f : Strand → Except Trap Strand} {s : State} {st0 : Strand}
    (h : s.strand s.cur = some st0) (hg : (s.enterIdem st0).p g = false) :
    runPure cls len g f s = .next (s.retire (s.enterIdem st0) ((s.enterIdem st0).pc + BitVec.ofNat 17 len) cls) := by
  simp [runPure, h, hg]

theorem runAct_skipped {cls len : Nat} {g : BitVec 3} {c : Bool} {body : Strand → Act Next} {s : State} {st0 : Strand}
    (h : s.strand s.cur = some st0) (hg : st0.p g = false) :
    runAct cls len g c body s = .next (s.retire (s.enterIdem st0) (st0.pc + BitVec.ofNat 17 len) cls) := by
  simp [runAct, h, hg]

theorem runJump_eq {cls : Nat} {f : Strand → Except Trap (BitVec 17)} {s : State} {st0 : Strand}
    (h : s.strand s.cur = some st0) :
    runJump cls f s =
      match f (s.enterIdem st0) with
      | .ok pc => .next (s.retire (s.enterIdem st0) pc cls)
      | .error t => .next (s.takeTrap s.cur t ((s.enterIdem st0).pc.setWidth 64)) := by
  cases hf : f (s.enterIdem st0) <;> simp only [runJump, h, hf]

/-- With a live current strand every runner answers a next state. -/
theorem runPure_next {cls len : Nat} {g : BitVec 3} {f : Strand → Except Trap Strand} {s : State} {st0 : Strand}
    (h : s.strand s.cur = some st0) : ∃ t, runPure cls len g f s = .next t := by
  simp only [runPure, h]
  split
  · split <;> exact ⟨_, rfl⟩
  · exact ⟨_, rfl⟩

theorem runAct_next {cls len : Nat} {g : BitVec 3} {c : Bool} {body : Strand → Act Next} {s : State} {st0 : Strand}
    (h : s.strand s.cur = some st0) : ∃ t, runAct cls len g c body s = .next t := by
  simp only [runAct, h]
  repeat' split
  all_goals exact ⟨_, rfl⟩

theorem runJump_next {cls : Nat} {f : Strand → Except Trap (BitVec 17)} {s : State} {st0 : Strand}
    (h : s.strand s.cur = some st0) : ∃ t, runJump cls f s = .next t := by
  simp only [runJump, h]
  split <;> exact ⟨_, rfl⟩

/-! ### Idempotent regions and retirement -/

theorem enterIdem_same {s : State} {st : Strand} (hs : s.images.find st.image = none) : s.enterIdem st = st := by
  simp [State.enterIdem, hs]

/-- Entering a region changes nothing but the region. -/
theorem enterIdem_eq (s : State) (st : Strand) : s.enterIdem st = { st with idem := (s.enterIdem st).idem } := by
  unfold State.enterIdem
  split
  · rfl
  · split
    · split <;> rfl
    · rfl

theorem commitIdem_none {s : State} {st : Strand} (h : st.idem = none) : s.commitIdem st = s := by
  simp [State.commitIdem, h]

/-- Outside every idempotent region a retirement changes the strand alone. -/
theorem retire_outside {s : State} {st : Strand} {pc : BitVec 17} {cls : Nat} (h : st.idem = none) :
    s.retire st pc cls = s.setStrand { st.counted cls (s.isQuanta st.scope) with pc := pc } := by
  simp [State.retire, State.leaveIdem, Strand.counted, h]

/-! ### Actions -/

theorem Act.go_pure {α : Type} (a : α) (s : State) : (pure a : Act α).go s = (.ok a, s) := rfl
theorem Act.go_throw {α : Type} (e : Stop) (s : State) : (throw e : Act α).go s = (.error e, s) := rfl
theorem Act.go_get (s : State) : (get : Act State).go s = (.ok s, s) := rfl
theorem Act.go_set (s t : State) : (set t : Act PUnit).go s = (.ok ⟨⟩, t) := rfl
theorem Act.go_modify (f : State → State) (s : State) : (modify f : Act PUnit).go s = (.ok ⟨⟩, f s) := rfl

/-- Two actions in a row: the second runs in the state the first leaves, unless the first stops. -/
theorem Act.go_bind {α β : Type} (a : Act α) (f : α → Act β) (s : State) :
    (a >>= f).go s = match a.go s with
      | (.ok x, s') => (f x).go s'
      | (.error e, s') => (.error e, s') := by
  simp only [Act.go, ExceptT.run, bind, ExceptT.bind, ExceptT.mk, StateT.bind, ExceptT.bindCont]
  rcases h : StateT.run a s with ⟨r, s'⟩
  cases r <;> simp_all [StateT.run, pure, StateT.pure]

theorem Act.go_liftT {α : Type} (e : Except Trap α) (s : State) :
    (liftT e).go s = match e with
      | .ok a => (.ok a, s)
      | .error t => (.error (.trap t), s) := by
  cases e <;> rfl

theorem Act.go_raise {α : Type} (t : Trap) (s : State) : (raise t : Act α).go s = (.error (.trap t), s) := rfl
theorem Act.go_holdFor {α : Type} (w : Wait) (s : State) : (holdFor w : Act α).go s = (.error (.hold w), s) := rfl

end Sys2Proof.Machine
end

