-- ==== Sys2Proof/Tests/Slice0.lean ====
section
/-! SUPPORT. Tests: the well-formedness checks refuse an ill-formed term each; words written out from the encoding tables
decode to their instructions; one step on small states; and for every statement with hypotheses a state that meets them. -/

set_option Elab.async false

namespace Sys2Proof.Tests

open Sys2Proof.Machine Sys2Proof.Claims

/-- The state that an outcome goes on with. -/
def okState (o : Out) : State :=
  match o with
  | .next t => t
  | _ => State.reset

/-- A strand in slot 0 of core 0: window registers x0 = 5, x1 = 7, x2 = 2^63, x3 deferred, x4 spoiled; p2 true. -/
def tSt : Strand :=
  { sk := 0, gen := 1, scope := 1, pc := 100, w := 3, s := 20, preds := 4, weight := 65536, groups := [(0, 0), (1, 1), (2, 2)]
    stack := [(3, { val := 5 }), (4, { val := 7 }), (5, { val := 0x8000000000000000 }), (6, { val := 9, d := true }), (7, { lost := true })] }

/-- The root scope of tenant 0. -/
def tRoot : Scb := { id := 1, fdom := 1, outw := 4294967296, issued := 4294967296 }

/-- The module in READY with one strand that has the turn. -/
def withStrand (st : Strand) : State :=
  { State.reset with
    scopes := [(1, tRoot)], agenda := [], cur := st.sk, strands := [(st.sk, st)]
    kiln := { mode := 1, tenants := [(0, 1)] } }

def tS : State := withStrand tSt

/-- A property of every member, from a test of the list. -/
theorem all_of {α : Type} {l : List α} {P : α → Prop} (f : α → Bool) (h : l.all f = true) (hf : ∀ x, f x = true → P x) :
    ∀ x ∈ l, P x := fun x hx => hf x (List.all_eq_true.mp h x hx)


/-- A property of every entry of a table, and of what an unlisted one reads as. -/
theorem get_all {α : Type} {d : α} {l : Assoc α} {P : α → Prop} (h : ∀ kv ∈ l, P kv.2) (hd : P d) (n : Nat) : P (Assoc.get d l n) := by
  unfold Assoc.get
  cases hf : l.find n with
  | none => exact hd
  | some v => exact h _ (Assoc.find_mem hf)

theorem slots_of {s : State} (h : Assoc.sorted s.strands = true) (hk : ∀ kv ∈ s.strands, kv.2.sk = kv.1) : Slots s :=
  ⟨h, fun _ _ hf => hk _ (Assoc.find_mem hf)⟩
/-! ### Hypotheses that states meet -/

theorem wit_IntegerResults : Outside tS tSt ∧ (∃ r, intRes tSt (.add 2 0 3 2) = some r ∧ tSt.p r.g = true ∧ Sound tSt r.reads ∧ r.d.toNat < tSt.s)
    ∧ tSt.p 2 = true ∧ Sound tSt [2] ∧ (19#5).toNat < tSt.s := by
  exact ⟨by decide +kernel, ⟨_, rfl, by decide +kernel⟩, by decide +kernel⟩

theorem wit_IntegerResults_traps : Current tS tSt
    ∧ (∃ r, intRes tSt (.sub 2 0 4 0) = some r ∧ tSt.p r.g = true ∧ r.reads = [0] ++ 4 :: [] ∧ Sound tSt [0] ∧ (tSt.x (4#5).toNat).ue = true)
    ∧ (∃ r, intRes tSt (.sub 20 0 1 0) = some r ∧ Sound tSt r.reads ∧ tSt.s ≤ r.d.toNat)
    ∧ (prdReads tSt (.ceq 1 0 4 0) = some ([0, 4], 0) ∧ Sound tSt [0] ∧ (tSt.x (4#5).toNat).ue = true)
    ∧ (prdReads tSt (.ceq 1 0 3 0) = some ([0, 3], 0) ∧ Sound tSt [0, 3] ∧ Undeferred tSt [0] ∧ tSt.xd 3 = true) := by
  refine ⟨⟨tSt, by decide +kernel, by decide +kernel⟩, ⟨_, rfl, by decide +kernel⟩, ⟨_, rfl, by decide +kernel⟩, ⟨rfl, by decide +kernel⟩, rfl,
    by decide +kernel⟩

theorem wit_FalseGuard : Outside tS tSt ∧ guardClass (.fence 1 4 2) = some (1, clsMem) ∧ tSt.p 1 = false := by decide +kernel

theorem wit_PredicateResults : Outside tS tSt
    ∧ (∃ r, prdRes tSt (.clt 0 0 1 2) = some r ∧ tSt.p r.g = true ∧ Sound tSt r.reads ∧ Undeferred tSt r.reads)
    ∧ (∃ rel loud, fcmpRes (.fclt 3 0 1 0 1) = some (3, 0, 1, rel, loud, 0, 1) ∧ tSt.p 0 = true ∧ Sound tSt [0, 1] ∧ Undeferred tSt [0, 1]) := by
  refine ⟨by decide +kernel, ⟨_, rfl, by decide +kernel⟩, _, _, rfl, by decide +kernel⟩

theorem wit_FloatResults : Outside tS tSt ∧ ∃ r, fltRes tSt (.fadd 19 0 1 0 1) = some r ∧ tSt.p r.g = true ∧ Sound tSt r.reads ∧ r.d.toNat < tSt.s := by
  exact ⟨by decide +kernel, _, rfl, by decide +kernel⟩

theorem wit_Jumps : Outside tS tSt ∧ Sound tSt [0, 3] ∧ Undeferred tSt [0] ∧ tSt.xd 3 = true := by decide +kernel

/-- Return records: of a call, below the positions of the window, and of a trap. -/
def tCalled : Strand := { tSt with links := [⟨false, 3, 3, 0x40⟩], linkSpilled := 240 }
/-- A window that ends at position 1,024; one beyond it. -/
def tTop : Strand := { tSt with w := 1004, groups := [(125, 0), (126, 1), (127, 2)] }
def tOver : Strand := { tSt with w := 1010 }
def tFull : Strand := { tSt with linkSpilled := 256 }
/-- A window of no register. -/
def tNarrow : Strand := { tSt with s := 0 }

theorem wit_WindowMoves : (Outside (withStrand tTop) tTop ∧ (20#5).toNat ≤ tTop.s ∧ tTop.w + tTop.s ≤ 1024 ∧ (tTop.pc + 4).toNat ≤ 0xFFFE
      ∧ ∃ st', (withStrand tTop).roomFor tTop { w := tTop.w + 20, s := tTop.s - 20, push := some ⟨false, 20, 20, (tTop.pc + 4).setWidth 16⟩ } = .ready st')
    ∧ (Outside (withStrand tCalled) tCalled ∧ tCalled.links = ⟨false, 3, 3, 0x40⟩ :: [] ∧ tCalled.w - 3 + 3 ≤ 1024
      ∧ ∃ st', (withStrand { tCalled with linkSpilled := 0 }).roomFor { tCalled with linkSpilled := 0 } { w := 0, s := 3, pop := true } = .ready st')
    ∧ (∃ st', tS.roomFor tSt { w := 3, s := 20 } = .ready st')
    ∧ (tNarrow.s < (1#5).toNat ∧ 1024 < tOver.w + tOver.s ∧ 256 ≤ tFull.links.length + tFull.linkSpilled ∧ tSt.links = []
      ∧ Outside (withStrand tNarrow) tNarrow ∧ Outside (withStrand tOver) tOver ∧ Outside (withStrand tFull) tFull) := by
  refine ⟨⟨by decide +kernel, by decide +kernel, by decide +kernel, by decide +kernel, _, rfl⟩, ⟨by decide +kernel, by decide +kernel, by decide +kernel, _, rfl⟩, ⟨_, rfl⟩, by decide +kernel⟩

def tOp : TileOp :=
  { sk := 0, aBase := 0x0010000000010040, bBase := 0x0010000000010040, ox := 64 + 2 ^ 38, k := 8, steps := 0, total := 8, shape := 0
    first := 0, la := 32, lb := 32 }
/-- A matrix operation of the strand goes on. -/
def tBusy : State := { tS with cores := [(0, { ops := [tOp] })] }

theorem wit_StatusRegisters : Outside tS tSt ∧ swAccess 0x000 = some .ro ∧ swAccess 0x030 = some .rw ∧ Sound tSt [0] ∧ Undeferred tSt [0]
    ∧ tS.swWait tSt 0x031 = none ∧ tBusy.swWait tSt 0x031 = some .tile ∧ Outside tBusy tSt
    ∧ (∃ st1, tS.spillTo tSt 0x000C000000604000 = .ok st1) := by
  refine ⟨?_, rfl, rfl, ?_, ?_, ?_, ?_, ?_, _, rfl⟩

  all_goals decide +kernel
/-! Memory, sync cells and tokens. -/

def tAddrs : Assoc RegEntry :=
  [(3, { val := 0x000C000000001000 }), (4, { val := 0x10040 }), (5, { val := 0x0008000000020008 }), (6, { val := 0x08040001 }), (7, { val := 0x001C000000000000 })
   , (8, { val := 0x10000 }), (9, { val := 2 })]
def tMS : Strand := { tSt with stack := tAddrs }
/-- Another live strand, in core 1; its handle stands in x3. -/
def tOther : Strand := { sk := 16, gen := 1, scope := 1, pc := 0 }
def tHeldTok (w : Word) (st : TokState) : Token := { region := w, pasid := 0, state := st, owner := strandParty tMS.handle }
def tLine : L0Line := { data := 0x1234567890, desc := 2, dirty := false }
/-- Memory of tenant 0: a page of a vault and a page of the window that the strand holds, a page of sync cells that is FREE,
and one line in L0. -/
def tM (st : Strand) (toks : List Token) : State :=
  { withStrand st with
    strands := [(0, st), (16, tOther)]
    trans := [⟨0, 0x10000, 17, 0x10000, true, true⟩]
    cores := [(0, { lines := [(0x10040, tLine)] })]
    tokens := toks ++ [tHeldTok 0x000C000000001000 .held, tHeldTok 0x0008000000020000 .free] }
def tMem : State := tM tMS [tHeldTok 0x10000 .held]

theorem some_of {α : Type} {o : Option α} (h : o.isSome = true) : ∃ b, o = some b := Option.isSome_iff_exists.mp h

theorem wit_Loads : Outside tMem tMS ∧ (loadOf (.ldD 1 0 (-1)) = some (8, true, 1, 0, -8, 4) ∨ loadOf (.ldDCompact 1 0 0) = some (8, false, 1, 0, 0, 2))
    ∧ Sound tMS [0, 1] ∧ Undeferred tMS [0, 1] ∧ (1#5).toNat < tMS.s ∧ tMS.cut = none
    ∧ (∃ p, tMem.place (tMem.who tMS) (.load 8) (addr tMS 0 0) = .ok p ∧ Uncounted tMem tMS p ∧ ∃ bs, near tMem tMS (addr tMS 0 0) p.at_ 8 = some bs)
    ∧ (∃ p, tMem.place (tMem.who tMS) (.load 1) (addr tMS 1 63) = .ok p ∧ Uncounted tMem tMS p ∧ ∃ bs, near tMem tMS (addr tMS 1 63) p.at_ 1 = some bs)
    ∧ (∃ p key, tMem.place (tMem.who tMS) (.load 8) (addr tMS 1 64) = .ok p ∧ p.at_ = .lineOf key ∧ (tMem.core tMS.pcore).lines.find (blockKey key) = none
        ∧ (Clean tMem (blockKey key) ∧ Opens tMem (blockKey key) p.c0.keyid) ∧ (tMem.core tMS.pcore).lines.length < 1024 ∧ blockKey (key + 7) = blockKey key) := by
  exact ⟨by decide +kernel, .inr rfl, by decide +kernel, by decide +kernel, by decide +kernel, rfl, ⟨_, rfl, .inr rfl, some_of (by decide +kernel)⟩,
    ⟨_, rfl, .inr rfl, some_of (by decide +kernel)⟩, _, _, rfl, rfl, by decide +kernel⟩

/-- The strand with a value in x0. -/
def tWith (v : Word) : Strand := { tMS with stack := (3, { val := v }) :: tAddrs.tail }

/-- The strand owns a page of the vault of core 1. -/
def tFarSt : Strand := tWith 0x000C000000801000
def tFar : State := tM tFarSt [tHeldTok 0x000C000000801000 .held]

theorem wit_VaultLoads : Outside tFar tFarSt ∧ Sound tFarSt [0] ∧ Undeferred tFarSt [0]
    ∧ (∃ p key, tFar.place (tFar.who tFarSt) (.load 8) (addr tFarSt 0 0) = .ok p ∧ Uncounted tFar tFarSt p ∧ p.at_ = .vaultAt key
        ∧ (key - Config.vaultBase) / Config.vaultSize ≠ tFarSt.pcore ∧ ∀ k ∈ wordsOf key 8, parityOf (tFar.err k) = 0)
    ∧ (∃ p key, tFar.place (tFar.who tFarSt) (.vec false) (addr tFarSt 0 0) = .ok p ∧ Uncounted tFar tFarSt p ∧ p.at_ = .vaultAt key
        ∧ pathOf (addr tFarSt 0 0) ≠ 4 ∧ ∀ k ∈ wordsOf key 64, parityOf (tFar.err k) = 0) := by
  exact ⟨by decide +kernel, by decide +kernel, by decide +kernel, ⟨_, _, rfl, .inr rfl, rfl, by decide +kernel⟩, _, _, rfl, .inr rfl, rfl, by decide +kernel⟩

/-- The same memory, in a system scope, whose strand names the IO path. -/
def tSysSt : Strand := { tMS with scope := 2 }
def tSys : State :=
  { tM tSysSt [tHeldTok 0x10000 .held] with scopes := [(1, tRoot), (2, { id := 2, fdom := 1, sys := true, tenant := 0xFFF, outw := 65536, issued := 65536 })] }

theorem wit_Stores : Outside tMem tMS ∧ storeOf (.stD 1 0 0) = some (8, 1, 0, 0, 4) ∧ Sound tMS [0, 1] ∧ Undeferred tMS [0, 1] ∧ tMS.cut = none
    ∧ (∃ p key, tMem.place (tMem.who tMS) (.store 8) (addr tMS 0 0) = .ok p ∧ Uncounted tMem tMS p ∧ p.at_ = .vaultAt key)
    ∧ (∃ p key, tMem.place (tMem.who tMS) (.store 8) (addr tMS 1 0) = .ok p ∧ Uncounted tMem tMS p ∧ p.at_ = .lineOf key
        ∧ (tMem.core tMS.pcore).lines.find (blockKey key) = some tLine ∧ tLine.diff = 0) := by
  exact ⟨by decide +kernel, rfl, by decide +kernel, by decide +kernel, rfl, ⟨_, _, rfl, .inr rfl, rfl⟩, _, _, rfl, .inr rfl, rfl, by decide +kernel, rfl⟩

theorem wit_SpeculativeLoads : Outside tMem tMS ∧ specOf (.ldsD 1 1 0) = some (8, false, 1, 1, 0) ∧ Sound tMS [1] ∧ Undeferred tMS [1] ∧ (1#5).toNat < tMS.s ∧ tMS.answer = none ∧ tMS.cut = none
    ∧ (∃ p, tMem.place (tMem.who tMS) (.load 8) (addr tMS 1 0) = .ok p ∧ Uncounted tMem tMS p ∧ ∃ bs, near tMem tMS (addr tMS 1 0) p.at_ 8 = some bs)
    ∧ (addr tMS 2 0).extractLsb' 50 4 = 2
    ∧ (∃ t, tMem.place (tMem.who tMS) (.load 8) (addr tMS 1 4) = .error (.trap t))
    ∧ (∃ w, tMem.place (tMem.who tMS) (.load 8) (addr tMS 1 0x20000) = .error (.page 0 0x30 w)) ∧ tMem.transEntry 0 (4096 * 0x30) = none ∧ tMS.atsAns ≠ some 0x30
    ∧ (let st : Strand := { tMS with atsAns := some 0x30 }
       let s := tM st [tHeldTok 0x10000 .held]
       Outside s st ∧ (∃ w, s.place (s.who st) (.load 8) (addr st 1 0x20000) = .error (.page 0 0x30 w)) ∧ st.atsAns = some 0x30 ∧ st.answer = none) := by
  exact ⟨by decide +kernel, rfl, by decide +kernel, by decide +kernel, by decide +kernel, rfl, rfl, ⟨_, rfl, .inr rfl, some_of (by decide +kernel)⟩, by decide +kernel,
    ⟨_, rfl⟩, ⟨_, rfl⟩, by decide +kernel, by decide +kernel, by decide +kernel, ⟨_, rfl⟩, by decide +kernel⟩

theorem wit_AddressTraps : Outside tMem tMS ∧ Sound tMS [0, 1] ∧ Undeferred tMS [0, 1] ∧ loadOf (.ldD 1 0 0) = some (8, false, 1, 0, 0, 4) ∧ (1#5).toNat < tMS.s
    ∧ (addr (tWith 0x0040000000000000) 0 0).toNat / 2 ^ 54 ≠ 0
    ∧ ((addr (tWith 0x003C000000000000) 0 0).extractLsb' 50 4).toNat = 15 ∧ (addr (tWith 0x003C000000000000) 0 0).toNat / 2 ^ 54 = 0
    ∧ ((addr (tWith 0x000C000100000000) 0 0).extractLsb' 50 4).toNat = 3 ∧ 2 ^ 32 ≤ (addr (tWith 0x000C000100000000) 0 0).toNat % 2 ^ 50
    ∧ ((addr tMS 4 0).extractLsb' 50 4).toNat = 7 ∧ tMem.isSys tMS.scope = false ∧ (addr tMS 1 4).toNat % 8 ≠ 0 := by
  exact ⟨by decide +kernel, by decide +kernel, by decide +kernel, rfl, by decide +kernel⟩

/-- The cell at 0x20008, exclusive or. -/
def tCellReq : SyncReq :=
  { number := 0, sk := 0, handle := 1, lcore := 0, pasid := 0, va := 0x0008000000020008, key := 0x20008, op := 11, ord := 0, val := 7, cmp := 0
    dst := none, scope := 1, retired := 0 }
/-- An operation of the strand that reads is under way. -/
def tPending : Strand := { tMS with pend := [⟨5, some 4, 0x20008, false, true, true⟩] }

theorem wit_SyncCells : Outside tMem tMS
    ∧ (∃ c p, cellOf tMS (.acas 1 2 5 0 3) = some c ∧ tMS.p c.g = true ∧ Sound tMS c.reads ∧ Undeferred tMS c.reads ∧ (∀ d ∈ c.dst, d.toNat < tMS.s)
        ∧ tMem.place (tMem.who tMS) (.cell (c.op != 0)) c.va = .ok p ∧ Uncounted tMem tMS p)
    ∧ tMem.isQuanta tMS.scope = false
    ∧ (({ tMem with arg := .syncReq tCellReq } : State).arg = .syncReq tCellReq ∧ tCellReq.op.toNat ≤ 11 ∧ tMem.dmode tCellReq.scope = 0
        ∧ tMem.quadRuns (quadOf (routerOf tCellReq.key)) = true ∧ isHost (blockKey tCellReq.key) = false ∧ isTable (blockKey tCellReq.key) = false
        ∧ Clean tMem (blockKey tCellReq.key)
        ∧ Opens tMem (blockKey tCellReq.key) (((tMem.covering tCellReq.pasid false (tCellReq.va.toNat % 2 ^ 50)).map (·.keyid)).getD 0)
        ∧ tCellReq.key % 8 = 0)
    ∧ tPending.pend.find? (fun q => q.number = 5) = some ⟨5, some 4, 0x20008, false, true, true⟩ ∧ tMS.wait ≠ .drain ∧ tPending.commit = none
    ∧ tPending.spilled.contains (4 / 8) = false ∧ ({ tPending with spilled := [0] } : Strand).spilled.contains (4 / 8) = true ∧ tMS.pend = [] := by
  exact ⟨by decide +kernel, ⟨_, _, rfl, by decide +kernel, by decide +kernel, by decide +kernel, by decide +kernel, rfl, .inr rfl⟩, by decide +kernel,
    ⟨rfl, by decide +kernel⟩, by decide +kernel⟩

/-- The same memory under a scope that is recorded, or replayed; the one entry of its log is the strand's FENCE. -/
def tModed (st : Strand) (m : BitVec 2) : State :=
  { tM st [] with scopes := [(1, { tRoot with dmode := m, logbase := 0x11000, loglen := 1 })], mem := [(0x11007, 0x14)] }

theorem wit_Fences : (Outside tMem tMS ∧ tMS.p 2 = true ∧ (∀ k, ¬ FenceHeld tMem tMS k false) ∧ tMem.dmode tMS.scope = 0)
    ∧ (Outside (tModed tMS 1) tMS ∧ (∀ k, ¬ FenceHeld (tModed tMS 1) tMS k false) ∧ (tModed tMS 1).dmode tMS.scope = 1)
    ∧ (Outside (tModed tMS 2) tMS ∧ (∀ k, ¬ FenceHeld (tModed tMS 2) tMS k false) ∧ (tModed tMS 2).dmode tMS.scope = 2
      ∧ (tModed tMS 2).isDue tMS.scope 5 0 (partyChoice ((tModed tMS 2).logical tMS.pcore) tMS.retired) = true)
    ∧ (Outside (tM tPending []) tPending ∧ tPending.p 0 = true ∧ FenceHeld (tM tPending []) tPending 0 false ∧ FenceHeld (tM tPending []) tPending 3 false)
    ∧ (let l : L0Line := { tLine with dirty := true }
       let s : State := { tMem with cores := [(0, { lines := [(0x10040, l)] })] }
       Outside s tMS ∧ Sound tMS [5] ∧ Undeferred tMS [5] ∧ ∃ r k, decodeRegion (tMS.xv 5) = some r ∧ s.token r (s.pasidOf tMS.scope) = some k
      ∧ k.state ≠ .reclaiming ∧ k.holdsFull tMS.parties = true ∧ (tHeldTok 0x10000 .free).holdsFull tMS.parties = false
      ∧ s.linesOf tMS.pcore r (s.pasidOf tMS.scope) = [(0x10040, l)] ∧ l.failing allWords = none ∧ (s.core tMS.pcore).lines.find 0x10040 = some l) := by
  have free (s : State) (h : s.sending tMS = false) (k : BitVec 2) : ¬ FenceHeld s tMS k false := by
    have hp : tMS.pend = [] ∧ tMS.moves = [] ∧ tMS.cmds = [] := ⟨rfl, rfl, rfl⟩
    simp [FenceHeld, hp, h]
  exact ⟨⟨by decide +kernel, by decide +kernel, free _ (by decide +kernel), by decide +kernel⟩,
    ⟨by decide +kernel, free _ (by decide +kernel), by decide +kernel⟩,
    ⟨by decide +kernel, free _ (by decide +kernel), by decide +kernel⟩,
    ⟨by decide +kernel, by decide +kernel, ⟨_, List.mem_cons_self, rfl, .inl rfl⟩, .inl ⟨_, List.mem_cons_self, .inl rfl⟩⟩,
    by decide +kernel, by decide +kernel, by decide +kernel, _, _, rfl, rfl, by decide +kernel⟩

theorem wit_TokenTransfers : Outside tMem tMS ∧ tMS.p 0 = true ∧ Sound tMS [5, 3] ∧ Undeferred tMS [5, 3] ∧ tMS.xv 3 ≠ 0
    ∧ (∃ r k, decodeRegion (tMS.xv 5) = some r ∧ tMem.token r (tMem.pasidOf tMS.scope) = some k ∧ k.state = .held ∧ k.owner = strandParty tMS.handle
      ∧ k.giving = false ∧ k.settled k.owner = true ∧ k.sharing = 0 ∧ k.borrowers.length < 4)
    ∧ (∃ p, tMem.receiverOf tMS (tMS.xv 5) (tMS.xv 3) true = .ok p) ∧ (∃ p, tMem.receiverOf tMS (tMS.xv 5) (tMS.xv 3) false = .ok p)
    ∧ (let lent : Token := { tHeldTok 0x10000 .lent with owner := scopeParty 1, borrowers := [strandParty tMS.handle] }
       ∃ r, decodeRegion (tMS.xv 5) = some r ∧ (tM tMS [lent]).token r 0 = some lent ∧ lent.borrowers.getLast? = some (strandParty tMS.handle)
         ∧ lent.settled (strandParty tMS.handle) = true)
    ∧ (∃ r k, decodeRegion (tMS.xv 5) = some r ∧ (tM tMS [tHeldTok 0x10000 .sealed_]).token r 0 = some k ∧ k.state = .sealed_)
    ∧ (let shared : Token := { tHeldTok 0x10000 .shared with shares := [strandParty tMS.handle] }
       ∃ r, decodeRegion (tMS.xv 5) = some r ∧ (tM tMS [shared]).token r 0 = some shared ∧ tMS.act = none ∧ shared.state = .shared
         ∧ shared.netShares (strandParty tMS.handle) ≠ 0) := by
  refine ⟨?_, ?_, ?_, ?_, ?_, ⟨_, _, rfl, rfl, ?_⟩, ⟨_, rfl⟩, ⟨_, rfl⟩, ⟨_, rfl, rfl, ?_⟩, ⟨_, _, rfl, rfl, rfl⟩, _, rfl, rfl, ?_⟩ <;> decide +kernel

/-- The strand back from its wait with an answer, or outside a system scope. -/
def tAnswered (a : Answer) : Strand := { tMS with answer := some a }

theorem wit_TokenRequests : Outside tMem tMS ∧ tMS.p 0 = true ∧ Sound tMS [5, 6] ∧ Undeferred tMS [5, 6] ∧ (1#5).toNat < tMS.s
    ∧ (∃ r k, decodeRegion (tMS.xv 5) = some r ∧ tMem.token r (tMem.pasidOf tMS.scope) = some k ∧ k.state ≠ .reclaiming ∧ k.state ≠ .poisoned)
    ∧ tMS.answer = none ∧ Outside (tM (tAnswered (.value 3)) []) (tAnswered (.value 3)) ∧ (tAnswered (.trap { code := .poisoned })).answer = some (.trap { code := .poisoned })
    ∧ tSys.isSys tSysSt.scope = true ∧ Outside tSys tSysSt ∧ tMem.isSys tMS.scope = false
    ∧ tMem.dmode tMS.scope = 0 ∧ tMem.hasRight tMS (tMS.xv 5) = true
    ∧ (tM tMS [tHeldTok 0x10000 .free]).hasRight tMS (tMS.xv 5) = false ∧ (tAnswered .timeout).answer = some .timeout
    ∧ (let s : State := { tMem with scopes := [(1, { tRoot with dmode := 3 })] }
       Outside s tMS ∧ s.isQuanta tMS.scope = true ∧ tMS.xv 6 ≠ 0 ∧ s.dmode tMS.scope = 3
        ∧ tMS.xv 17 = 0) := by
  refine ⟨?_, ?_, ?_, ?_, ?_, ⟨_, _, rfl, rfl, ?_⟩, ?_⟩
  all_goals decide +kernel

def tReq (op : BitVec 6) (arg : Word) : TokReq := ⟨op, 0x40000, arg, tMS.handle, 0, 0, 0, 1, none, 0⟩
/-- A token of 16 KiB, so that it can be split. -/
def tBig (st : TokState) : Token := { region := 0x41800, pasid := 0, state := st, owner := strandParty tMS.handle }

theorem wit_TokenHome : (∀ op ∈ [8, 9, 10, 11], ({ tMem with arg := .tokReq 4 (tReq op 0) } : State).arg = .tokReq 4 (tReq op 0)) ∧ tMem.dmode 1 = 0
    ∧ (∃ r k, decodeRegion (tMS.xv 5) = some r ∧ tMem.token r 0 = some k ∧ k.state = .held ∧ k.owner = strandParty (tReq 8 0).handle ∧ k.giving = false ∧ k.sharing = 0)
    ∧ (∀ st ∈ [.sealed_, .poisoned, .free], (tM tMS [tHeldTok 0x10000 st]).token ⟨0, 0x10000, 12⟩ 0 = some (tHeldTok 0x10000 st) ∧ st ≠ .reclaiming)
    ∧ (∃ r, decodeRegion 0x41800 = some r ∧ (tM tMS [tBig .held]).token r 0 = some (tBig .held) ∧ 12 + 2 ≤ r.k
      ∧ (let k : Token := { tBig .split with splitlog := 2 }
         let part (i : Nat) : Token := { tHeldTok (0x40000 + BitVec.ofNat 64 (0x1000 * i)) .held with parent := 0x41800 }
         let s := tM tMS (k :: (List.range 4).map part)
         s.token r 0 = some k ∧ k.state = .split ∧ ∀ i < 4, s.token (r.sherd 2 i) 0 = some (part i) ∧ (part i).owner = strandParty (tReq 5 0).handle
          ∧ (part i).state = .held ∧ (part i).giving = false ∧ (part i).sharing = 0 ∧ (part i).settled (strandParty (tReq 5 0).handle) = true)) := by
  refine ⟨by decide +kernel, by decide +kernel, ⟨_, _, rfl, rfl, by decide +kernel⟩, by decide +kernel, _, rfl, rfl, by decide +kernel⟩

theorem wit_GrantPath : let x (k : GrantKind) : Grant := ⟨k, 3, 0, 0x10000, 0, strandParty tMS.handle, strandParty tOther.handle, 1, 0⟩
    (∀ k ∈ [.lend, .give], ({ tMem with arg := .grant (x k) } : State).arg = .grant (x k)) ∧ tMem.dmode 1 = 0 ∧ tMem.partyLives (x .lend).receiver = true
    ∧ ∃ r k, decodeRegion (x .lend).region = some r ∧ tMem.token r 0 = some k ∧ k.state ≠ .reclaiming ∧ k.state ≠ .poisoned := by
  refine ⟨by decide +kernel, by decide +kernel, by decide +kernel, _, _, rfl, rfl, by decide +kernel⟩

/-! Vectors and the matrix unit. -/

/-- v0 is FP32, v1 INT8, v2 RAW; sw.vfmt is FP32. -/
def tVS : Strand := { tMS with vset := true, vregs := [(0, { data := 0x3F800000, desc := 1 }), (1, { data := 0x81, desc := 6 }), (2, { data := 0x90 })] }
def tV : State := tM tVS [tHeldTok 0x10000 .held]

theorem wit_VectorResults : Outside tV tVS
    ∧ (∃ op, laneRes tVS.claimV (.vadd 3 0 0 2) = some (3, [0, 0], 2, op)) ∧ tVS.p 2 = true ∧ VSound tVS.claimV [0, 0]
    ∧ vectorFormat tVS.vfmt = true ∧ (∀ v ∈ [(0 : BitVec 4)], vectorFormat (tVS.claimV.v v).desc = true ∧ lanes (tVS.claimV.v v).desc = lanes tVS.vfmt)
    ∧ (∃ byte, bitRes tVS.claimV (.vsel 3 2 1 0) = some (3, [2, 1, 3], 0, byte)) ∧ VSound tVS.claimV [2, 1, 3]
    ∧ (∃ rel, vcmpRes (.vcmplePred 1 2 0 0 2) = some (.inr (2, true), 0, 0, rel, true, 2)) := by
  exact ⟨by decide +kernel, ⟨_, rfl⟩, by decide +kernel, by decide +kernel, by decide +kernel, by decide +kernel, ⟨_, rfl⟩, by decide +kernel, _, rfl⟩

theorem wit_VectorShapes : Outside tV tVS ∧ tVS.p 2 = true ∧ VSound tVS.claimV [0] ∧ VSound tVS.claimV [1] ∧ (tVS.claimV.v 3).ue = false
    ∧ vectorFormat (tVS.claimV.v 1).desc = true ∧ vectorFormat tVS.vfmt = true
    ∧ (3#3).toNat < Nat.max (lanes tVS.vfmt / lanes (tVS.claimV.v 1).desc) (lanes (tVS.claimV.v 1).desc / lanes tVS.vfmt)
    ∧ (-128 ≤ scaleOf (tVS.claimV.v 0).desc + (15#5).toInt ∧ scaleOf (tVS.claimV.v 0).desc + (15#5).toInt ≤ 127)
    ∧ shiftFormat (tVS.claimV.v 1).desc = true := by decide +kernel

theorem wit_VectorMoves : Outside tV tVS ∧ tVS.p 2 = true ∧ Sound tVS [0, 1] ∧ Undeferred tVS [0, 1] ∧ VSound tVS.claimV [0, 1, 2]
    ∧ (2#5).toNat < tVS.s ∧ vectorFormat tVS.vfmt = true := by decide +kernel

/-- Sixteen lines of L0 on the BLK path, named by x1 and a stride of 64 bytes; tile 0 is the strand's own. -/
def tMat : State :=
  { tV with
    strands := [(0, { tVS with stack := [(4, { val := 0x0010000000010040 })], ox0 := 64 + 2 ^ 38, ox1 := 8, ox2 := 64 })]
    cores := [(0, { lines := (List.range 16).map fun m => (0x10040 + 64 * m, { tLine with desc := 2 }), tiles := [(0, { holder := some 0 })] })] }
def tMatS : Strand := { tVS with stack := [(4, { val := 0x0010000000010040 })], ox0 := 64 + 2 ^ 38, ox1 := 8, ox2 := 64 }

theorem wit_VectorLoads : Outside tV tVS ∧ tVS.cut = none ∧ Sound tVS [0, 1] ∧ Undeferred tVS [0, 1]
    ∧ (∃ p, tV.place (tV.who tVS) (.vec false) (addr tVS 0 0) = .ok p ∧ Uncounted tV tVS p ∧ ∃ bs, near tV tVS (addr tVS 0 0) p.at_ 64 = some bs)
    ∧ (∃ p key l, tMat.place (tMat.who tMatS) (.vec false) (addr tMatS 1 0) = .ok p ∧ p.at_ = .lineOf key
        ∧ (tMat.core tMatS.pcore).lines.find (blockKey key) = some l ∧ pathOf (addr tMatS 1 0) = 4)
    ∧ (∀ j < 64 / unitBytes tVS, ∃ p, tV.place (tV.who tVS) (.engine false (unitBytes tVS)) (unitAt tVS 0 0 j) = .ok p
        ∧ Uncounted tV tVS p ∧ ∃ bs, near tV tVS (unitAt tVS 0 0 j) p.at_ (unitBytes tVS) = some bs) := by
  refine ⟨by decide +kernel, rfl, by decide +kernel, by decide +kernel, ⟨_, rfl, .inr rfl, some_of (by decide +kernel)⟩, ⟨_, _, _, rfl, rfl, rfl, by decide +kernel⟩, ?_⟩
  have h : ∀ j, j < 64 / unitBytes tVS → unitAt tVS 0 0 j = 0x000C000000001000 := by decide +kernel
  intro j hj
  rw [h j hj]
  exact ⟨_, rfl, .inr rfl, some_of (by decide +kernel)⟩

theorem wit_VectorStores : Outside tV tVS ∧ tVS.cut = none ∧ Sound tVS [0, 1] ∧ Undeferred tVS [0, 1] ∧ VSound tVS.claimV [0]
    ∧ (∃ p key, tV.place (tV.who tVS) (.vec true) (addr tVS 0 0) = .ok p ∧ Uncounted tV tVS p ∧ p.at_ = .vaultAt key)
    ∧ (∃ p key, tV.place (tV.who tVS) (.vec true) (addr tVS 1 0) = .ok p ∧ Uncounted tV tVS p ∧ p.at_ = .lineOf key
        ∧ (tV.core tVS.pcore).lines.length < 1024)
    ∧ (∃ r, storedBlock tVS.claimV 1 0 = some r)
    ∧ (∀ j < 64 / unitBytes tVS, ∃ p key, tV.place (tV.who tVS) (.engine true (unitBytes tVS)) (unitAt tVS 0 0 j) = .ok p
        ∧ Uncounted tV tVS p ∧ p.at_ = .vaultAt key)
    ∧ ¬ (unitAt tVS 0 0 1 = addr tVS 0 0 + BitVec.ofNat 64 (unitBytes tVS)) := by
  refine ⟨by decide +kernel, rfl, by decide +kernel, by decide +kernel, by decide +kernel, ⟨_, _, rfl, .inr rfl, rfl⟩, ⟨_, _, rfl, .inr rfl, rfl, by decide +kernel⟩, some_of (by decide +kernel), ?_,
    by decide +kernel⟩
  have h : ∀ j, j < 64 / unitBytes tVS → unitAt tVS 0 0 j = 0x000C000000001000 := by decide +kernel
  intro j hj
  rw [h j hj]
  exact ⟨_, _, rfl, .inr rfl, rfl⟩

/-- The row `m` of the sixteen lines. -/
def tRow (m : Nat) : Nat × L0Line := (0x10040 + 64 * m, { tLine with desc := 2 })

theorem wit_MatrixLoads : Outside tMat tMatS ∧ tMatS.p 2 = true ∧ (∀ t ∈ groupTiles 0 0, ((tMat.core tMatS.pcore).tile t).holder = some tMatS.sk)
    ∧ (∀ t ∈ groupTiles 3 4, ((tMat.core tMatS.pcore).tile t).holder = none) ∧ (tMat.core tMatS.pcore).ops = []
    ∧ Sound tMatS [1] ∧ Undeferred tMatS [1] ∧ MatrixBase (tMatS.xv 1) (tMatS.ox2.setWidth 32)
    ∧ (∀ m < shapeRows 0, ∀ k < (shapeCols 0 + 32 - 1) / 32,
        matrixLine tMat tMatS (.matrix false) (blockAt (tMatS.xv 1) (tMatS.ox2.setWidth 32) m k) = some (tRow m)
        ∧ matrixFormat (tRow m).2.desc = true ∧ lanes (tRow m).2.desc = 32) := by decide +kernel

/-- The same with an operation on tile 0. -/
def tStep : State :=
  { tMat with arg := .n2 0 0, cores := [(0, { (tMat.core 0) with ops := [tOp] })] }

/-- The strand with K = 0; an operation of no step; a second one behind the first. -/
def tMatZ : Strand := { tMatS with ox1 := 0 }
def tOpZ : TileOp := { tOp with k := 0, total := 0, number := 1 }
def tTwo : State := { tMat with arg := .n2 0 1, cores := [(0, { (tMat.core 0) with ops := [tOp, tOpZ] })] }
def tZero : State := { tMat with arg := .n2 0 1, cores := [(0, { (tMat.core 0) with ops := [tOpZ] })] }

theorem wit_MatrixMultiply :
    (Outside tMat tMatS ∧ tMatS.p 2 = true ∧ Sound tMatS [1, 1] ∧ Undeferred tMatS [1, 1] ∧ tMatS.ox1.toNat % 2 ^ 16 ≠ 0
      ∧ (∀ k ∈ groupTiles 0 0, ((tMat.core tMatS.pcore).tile k).holder = some tMatS.sk ∧ ((tMat.core tMatS.pcore).opsOn [k]).length < 2)
      ∧ MatrixBase (tMatS.xv 1) (tMatS.ox0.setWidth 32) ∧ MatrixBase (tMatS.xv 1) (BitVec.ofNat 32 (tMatS.ox0.toNat / 2 ^ 32)))
    ∧ (tMatZ.ox1.toNat % 2 ^ 16 = 0 ∧ (tMat.core tMatZ.pcore).opsOn (groupTiles 0 0) = [])
    ∧ (tStep.arg = .n2 tMatS.pcore tOp.number ∧ (tStep.core tMatS.pcore).ops.find? (fun x => x.number = tOp.number) = some tOp
      ∧ tStep.strand tOp.sk = some tMatS ∧ tMatS.sk = tOp.sk ∧ tOp.state = .running ∧ tOp.paused = false
      ∧ (tStep.core tMatS.pcore).mayStep tOp = true ∧ tOp.k ≠ 0 ∧ (∀ k ∈ tOp.tiles, ((tStep.core tMatS.pcore).tile k).ue = false)
      ∧ tOp.la = 32 ∧ tOp.lb = 32)
    ∧ (∀ m < shapeRows tOp.shape, matrixLine tStep tMatS (.matrix false) (blockAt tOp.aBase (tOp.ox.setWidth 32) m 0) = some (tRow m)
        ∧ matrixLine tStep tMatS (.matrix false) (blockAt tOp.bBase (BitVec.ofNat 32 (tOp.ox.toNat / 2 ^ 32)) m 0) = some (tRow m)
        ∧ matrixFormat (tRow m).2.desc = true ∧ lanes (tRow m).2.desc = 32)
    ∧ (tTwo.arg = .n2 tMatS.pcore tOpZ.number ∧ (tTwo.core tMatS.pcore).ops.find? (fun x => x.number = tOpZ.number) = some tOpZ
      ∧ (tTwo.core tMatS.pcore).mayStep tOpZ = false)
    ∧ ((tZero.core tMatS.pcore).ops.find? (fun x => x.number = tOpZ.number) = some tOpZ ∧ (tZero.core tMatS.pcore).mayStep tOpZ = true) := by
  and_intros <;> decide +kernel

theorem wit_MatrixStores : Outside tMat tMatS ∧ tMatS.p 0 = true ∧ Sound tMatS [1] ∧ Undeferred tMatS [1]
    ∧ (∀ t ∈ groupTiles 0 0, ((tMat.core tMatS.pcore).tile t).holder = some tMatS.sk ∧ ((tMat.core tMatS.pcore).tile t).ue = false)
    ∧ (tMat.core tMatS.pcore).ops = [] ∧ matrixFormat tMatS.mfmt = true ∧ MatrixBase (tMatS.xv 1) (tMatS.ox2.setWidth 32)
    ∧ (∀ m < shapeRows 0, ∀ k < (shapeCols 0 + lanes tMatS.mfmt - 1) / lanes tMatS.mfmt,
        matrixLine tMat tMatS (if shapeCols 0 < (k + 1) * lanes tMatS.mfmt then .part else .matrix true) (blockAt (tMatS.xv 1) (tMatS.ox2.setWidth 32) m k) = some (tRow m))
    ∧ (∀ m < 16, ∀ m' < 16, m ≠ m' → (tRow m).1 ≠ (tRow m').1) ∧ (2#5).toNat < tMatS.s := by decide +kernel

theorem wit_MatrixControl : Outside tMat tMatS ∧ tMatS.p 0 = true ∧ (∀ t ∈ groupTiles 0 0, ((tMat.core tMatS.pcore).tile t).holder = some tMatS.sk)
    ∧ (tMat.core tMatS.pcore).ops = [] ∧ (2#5).toNat < tMatS.s
    ∧ (let o : TileOp := { tOp with state := .suspended, cause := 3 }
       o.meets [(0#3).toNat] = true ∧ o.state = .suspended)
    ∧ groupTiles 1 0 = [0] ++ 1 :: [] := by decide +kernel

/-! Queue registers, messages, engines and nodes. -/

def tMate : Strand := { sk := 1, gen := 1, scope := 1, pc := 0 }
/-- q0 writes to the network, q1 receives, q2 and q3 are the left neighbour's, q5 reads a pair, q6 writes one; q4 is unbound. -/
def tQS : Strand :=
  { tMS with
    stack := [(3, { val := 2 }), (4, { val := tMate.handle.setWidth 64 }), (5, { val := 4 }), (6, { val := 6 }), (7, { val := 0x100 })]
    queues := [(0, { kind := 0, num := 90, chan := 3, partner := tOther.handle, credits := 2 }), (1, { kind := 1, chan := 2, words := [17, 18] }), (2, { kind := 2 }),
      (3, { kind := 3 }), (5, { kind := 5, num := 91, partner := tMate.handle }), (6, { kind := 4, num := 92, partner := tMate.handle })] }
def tQ : State :=
  { tM tQS [tHeldTok 0x10000 .held] with
    strands := [(0, tQS), (1, tMate), (16, tOther)], cycle := 9
    cores := [(0, { gens := [(0, 1), (1, 1)] }), (1, { gens := [(0, 1)] })]
    pairs := [{ num := 91, outH := tMate.handle, inH := tQS.handle, inB := true, words := [(3, 40)] }, { num := 92, outH := tQS.handle, inH := tMate.handle, outB := true }]
    lcores := [(0, { fifoL := [(4, 50)], handlers := [(9, { pc := 64, depth := 2, tenant := 0 })], ranges := [(0, 0, 0x1000)] })] }

theorem wit_QueueBinding : Outside tQ tQS ∧ tQS.p 2 = true ∧ Sound tQS [0, 1, 2, 3] ∧ Undeferred tQS [0, 1, 2, 3] ∧ tQS.q (4#3).toNat = none
    ∧ (∃ w, endpointOf (tQS.xv 3) (tQS.xv 3) = .error w)
    ∧ (∃ e, endpointOf (tQS.xv 0) (tQS.xv 0) = .ok e ∧ e.kind = 2 ∧ tQ.endpointTaken tQS e = false)
    ∧ (∃ e, endpointOf 0x91 0 = .ok e ∧ e.kind = 1 ∧ tQ.endpointTaken tQS e = true)
    ∧ (∃ e, endpointOf 0x30 (tQS.xv 1) = .ok e ∧ e.kind = 0 ∧ e.pdev = 0 ∧ tQ.isRetired (tQ.handleCore e.partner) = false)
    ∧ (∃ e, endpointOf (tQS.xv 2) (tQS.xv 1) = .ok e ∧ e.kind = 4 ∧ e.partner ≠ tQS.handle ∧ handleSk e.partner / 16 = tQS.pcore
      ∧ (tQ.named e.partner).isSome = true ∧ tQ.pairs.find? (fun p => p.awaits tQS.handle e.partner true) = none
      ∧ (({ tQ with pairs := [{ num := 93, outH := tQS.handle, inH := tMate.handle, inB := true }] } : State).pairs.find? fun p => p.awaits tQS.handle e.partner true).isSome = true)
    ∧ (∃ e, tQS.q (3#3).toNat = some e ∧ e.kind = 3) := by
  refine ⟨?_, ?_, ?_, ?_, ?_, ⟨_, rfl⟩, ⟨_, rfl, ?_⟩, ⟨_, rfl, ?_⟩,
    ⟨_, rfl, ?_⟩, ⟨_, rfl, ?_⟩, _, rfl, ?_⟩
  all_goals decide +kernel

theorem wit_QueueTransfers : Outside tQ tQS ∧ tQS.p 0 = true ∧ qrdForm 1 1 0 (.qrdCompact 1 1) 2 ∧ qwrForm 0 2 2 (.qwr 0 2 2) 4 ∧ (1#5).toNat < tQS.s
    ∧ Sound tQS [0] ∧ Undeferred tQS [0] ∧ tQS.q (4#3).toNat = none
    ∧ (∀ q ∈ [1, 3, 5], ∃ b, tQS.q q = some b ∧ b.isRead = true ∧ ∃ w, tQ.readable tQS b = some w)
    ∧ (∀ q ∈ [0, 2, 6], ∃ b, tQS.q q = some b ∧ b.isRead = false ∧ (tQ.brokenBy tQS b).1 = false ∧ tQ.writable tQS b = true)
    ∧ (∃ b, tQS.q 0 = some b ∧ b.kind = 0 ∧ b.pdev = 0 ∧ b.words = [] ∧ b.credits ≠ 0)
    ∧ tQ.entries tQS { kind := 1 } = [] ∧ (tQ.brokenBy tQS { kind := 1 }).1 = false ∧ tQ.observes tQS = false
    ∧ tQ.writable tQS { kind := 0, partner := tOther.handle, words := [1, 2, 3, 4, 5, 6, 7, 8] } = false
    ∧ Unrecorded tQ tQS.scope := by
  refine ⟨by decide +kernel, by decide +kernel, .inr ⟨rfl, rfl, rfl⟩, .inl ⟨rfl, rfl⟩, by decide +kernel, by decide +kernel, by decide +kernel, by decide +kernel, ?_, ?_,
    ⟨_, rfl, by decide +kernel⟩, by decide +kernel⟩
  · intro q hq
    rcases List.mem_cons.1 hq with rfl | hq
    · exact ⟨_, rfl, by decide +kernel, some_of (by decide +kernel)⟩
    rcases List.mem_cons.1 hq with rfl | hq
    · exact ⟨_, rfl, by decide +kernel, some_of (by decide +kernel)⟩
    rcases List.mem_singleton.1 hq with rfl
    exact ⟨_, rfl, by decide +kernel, some_of (by decide +kernel)⟩
  · intro q hq
    rcases List.mem_cons.1 hq with rfl | hq
    · exact ⟨_, rfl, by decide +kernel, by decide +kernel, by decide +kernel⟩
    rcases List.mem_cons.1 hq with rfl | hq
    · exact ⟨_, rfl, by decide +kernel, by decide +kernel, by decide +kernel⟩
    rcases List.mem_singleton.1 hq with rfl
    exact ⟨_, rfl, by decide +kernel, by decide +kernel, by decide +kernel⟩

theorem wit_Messages : Outside tQ tQS ∧ tQS.p 0 = true ∧ tQS.answer = none ∧ tQ.observes tQS = false ∧ Sound tQS (4 :: regsFrom 0 (2#3).toNat)
    ∧ Undeferred tQS (4 :: regsFrom 0 (2#3).toNat) ∧ (∃ dst, msgDest (tQS.xv 4) = some dst ∧ dst.dev = 0) ∧ (∃ x, tQS.split = some x)
    ∧ (15#5).toNat + 4 < tQS.s ∧ (15#5).toNat ≤ 27 ∧ (tAnswered (.words 0 [1, 2])).answer = some (.words 0 [1, 2])
    ∧ Outside (tM (tAnswered .done) []) (tAnswered .done) := by
  refine ⟨?_, ?_, ?_, ?_, ?_, ?_, ⟨_, rfl, rfl⟩, ⟨_, rfl⟩, ?_⟩
  all_goals decide +kernel

/-- A strand that runs a handler's activation; x0 names channel 9, x1 is an HSET word for it. -/
def tHS : Strand :=
  { tQS with
    act := some { lcore := 0, chan := 9, reply := some (tOther.handle, 16, 4) }
    stack := [(3, { val := 0x200 }), (4, { val := 0x004000020709 }), (5, { val := 9 })] }
def tH : State := { tQ with strands := [(0, tHS), (16, tOther)] }

theorem wit_Handlers : Outside tH tHS ∧ tHS.p 2 = true ∧ Sound tHS (regsFrom 0 (2#3).toNat) ∧ Undeferred tHS (regsFrom 0 (2#3).toNat)
    ∧ (∃ act h sk k, tHS.act = some act ∧ act.reply = some (h, sk, k)) ∧ tQS.act = none ∧ Outside tQ tQS ∧ Sound tQS (regsFrom 0 (2#3).toNat)
    ∧ ([tHS.xv 1, tHS.xv 2].all fun w => decide (tH.hsetWord tHS w = true ∧ (tH.handler (tH.logical tHS.pcore) (w.setWidth 6 : BitVec 6).toNat).tenant = (tH.scope tHS.scope).tenant
        ∧ tH.received (tH.logical tHS.pcore) (w.setWidth 6) = false)) = true
    ∧ tHS.xv 3 = 0 ∧ (tHS.xv 0).getLsbD 9 = true ∧ (tH.handler (tH.logical tHS.pcore) 9).depth ≠ 0 := by
  refine ⟨by decide +kernel, by decide +kernel, by decide +kernel, by decide +kernel, ⟨_, _, _, _, rfl, rfl⟩, by decide +kernel⟩

theorem wit_Endings : Outside tH tHS ∧ tHS.p 0 = true ∧ tHS.act.isSome = true ∧ tHS.pend = []
    ∧ (let st : Strand := { tQS with opens := [⟨5, 0, 3, 20, 8, 65536, false⟩] }
       Outside (withStrand st) st)
    ∧ tHS.opens = [] ∧ tH.lowestOwned tHS.handle ≠ none
    ∧ (let s : State := { tH with tokens := [], agenda := [{ ev := .groupSpill, arg := .n3 0 1 5 }] }
       Outside s tHS ∧ s.lowestOwned tHS.handle = none ∧ s.transferring tHS.sk = true)
    ∧ (let s : State := { tH with tokens := [] }
       Outside s tHS ∧ s.lowestOwned tHS.handle = none ∧ s.transferring tHS.sk = false ∧ ∀ a, tHS.act = some a → (s.handler a.lcore a.chan.toNat).box = []) := by
  refine ⟨?_, ?_, ?_, ?_, ?_, ?_, ?_, ?_, ?_, ?_, ?_, fun a ha => ?_⟩
  case refine_12 =>
    cases ha
    decide
  all_goals decide +kernel

/-- The block at x1: its completion word is the free cell at 0x20008, and its region word 0x10000. -/
def tBlock (w4 w6 : Nat) : L0Line := { data := BitVec.ofNat 512 (0x0008000000020008 * 2 ^ 192 + w4 * 2 ^ 256 + w6 * 2 ^ 384), desc := 0, dirty := false }
def tEng (w4 w6 : Nat) : State := { tMem with cores := [(0, { lines := [(0x10040, tBlock w4 w6)] })] }

theorem wit_EngineIssue : let s := tEng 0x10000 0
    Outside s tMS ∧ tMS.p 1 = false ∧ tMS.p 2 = true ∧ engineForm (.cpy 3 1 2) = some (0, 3, 1, 2) ∧ tMS.answer = none ∧ tMS.cut = none ∧ Sound tMS [1] ∧ Undeferred tMS [1]
    ∧ (∃ p, s.place (s.who tMS) (.vec false) (tMS.xv 1) = .ok p ∧ Uncounted s tMS p ∧ ∃ bs, near s tMS (tMS.xv 1) p.at_ 64 = some bs
        ∧ (wordsIn bs)[3]? = some 0x0008000000020008
        ∧ (∀ x ∈ (s.command tMS 0 3 (wordsIn bs)).regions, ∃ r k, decodeRegion x = some r ∧ s.token r (s.pasidOf tMS.scope) = some k
            ∧ mayLendNow k (strandParty tMS.handle)))
    ∧ freeCell s tMS true 0x0008000000020008 0x20008 ∧ (∃ x, tMS.split = some x) ∧ s.isQuanta tMS.scope = false ∧ s.isQuanta tMS.memberScope = false
    ∧ s.samePart tMS.cluster (s.command tMS 0 3 (wordsIn ((List.range 64).map fun j => blockByte (tBlock 0x10000 0).data j))).cluster = true
    ∧ Outside (tM (tAnswered .done) []) (tAnswered .done) := by
  refine ⟨by decide +kernel, by decide +kernel, by decide +kernel, rfl, rfl, rfl, by decide +kernel, by decide +kernel,
    ⟨_, rfl, .inr rfl, (List.range 64).map fun j => blockByte (tBlock 0x10000 0).data j, by decide +kernel, by decide +kernel, ?_⟩,
    ⟨⟨_, rfl, rfl, by decide +kernel⟩, by decide +kernel⟩, ⟨_, rfl⟩, by decide +kernel⟩
  have h : (((tEng 0x10000 0).command tMS 0 3 (wordsIn ((List.range 64).map fun j => blockByte (tBlock 0x10000 0).data j))).regions) = [0x10000] := by decide +kernel
  intro x hx
  rw [h] at hx
  cases List.mem_singleton.1 hx
  exact ⟨_, _, rfl, rfl, by decide +kernel⟩

/-- A CPY of one sector from 0x10080 to 0x100C0, in the inbox of engine 0; its token is lent to it. -/
def tCmd : EngCmd := 
  { number := 4, eng := 0, op := 0, fscope := 0, blk := [0x10080, 0x100C0, 64, 0x0008000000020008, 0x10000, 0, 0, 0], issuer := tMS.handle, sk := 0, lcore := 0
    rank := 0, nrank := 1, gang := 0, scope := 1, weight := 16, shielded := false, pasid := 0, node := none, unitsDone := 0, inQuantum := 0, code := none
    paused := false, retired := 0, issued := true }
def tLent : Token := { tHeldTok 0x10000 .lent with borrowers := [engineParty 0 4] }
def tWorks (c : EngCmd) (arg : Payload) : State := { tM tMS [tLent] with engines := [(0, { inbox := [c] })], arg := arg }

/-- A GATH of one unit of 8 bytes: index 0 at 0x10100, the table at 0x10080, the dense array at 0x100C0; its SCAT; their tokens lent. -/
def tGath (op : BitVec 3) : EngCmd := { tCmd with op := op, blk := [0x10080, 0x10100, 0x100C0, 0x0008000000020008, 0x10000, 0, 0x300000000, 1] }

theorem wit_EngineWork :
    (tCmd.issued = true ∧ tCmd.node = none ∧ ((tWorks tCmd .none).engine tCmd.eng).inbox.length < 16
      ∧ 16 ≤ (({ tMem with engines := [(0, { inbox := List.replicate 16 tCmd })] } : State).engine tCmd.eng).inbox.length)
    ∧ (let s := tWorks tCmd (.n1 0)
       ∃ p, s.turnOf 0 = some tCmd ∧ tCmd.op = 0 ∧ (tCmd.w 6).extractLsb' 16 16 = 0 ∧ s.isQuanta tCmd.scope = false ∧ (s.scope tCmd.scope).cancelled = false
      ∧ s.place (s.engineWho tCmd (tCmd.w 0)) (.engine false 64) (tCmd.w 0) = .ok p ∧ p.at_ = .lineOf 0x10080
      ∧ Clean s 0x10080 ∧ Opens s 0x10080 p.c0.keyid)
    ∧ (([1, 2] : List (BitVec 3)).all fun op => let s := tWorks (tGath op) (.n1 0)
       decide (s.turnOf 0 = some (tGath op) ∧ (tGath op).unit = 8 ∧ s.isQuanta (tGath op).scope = false ∧ (s.scope (tGath op).scope).cancelled = false
        ∧ Clean s 0x10100 ∧ Clean s 0x10080 ∧ Clean s 0x100C0)) = true
    ∧ (let op := 1
       let s := tWorks (tGath op) (.n1 0)
       ∃ p0 p1 p2, s.place (s.engineWho (tGath op) 0x10100) (.engine false 4) 0x10100 = .ok p0 ∧ p0.at_ = .lineOf 0x10100 ∧ Opens s 0x10100 p0.c0.keyid
        ∧ s.place (s.engineWho (tGath op) 0x10080) (.engine false 8) 0x10080 = .ok p1 ∧ p1.at_ = .lineOf 0x10080 ∧ Opens s 0x10080 p1.c0.keyid
        ∧ s.place (s.engineWho (tGath op) 0x100C0) (.engine false 8) 0x100C0 = .ok p2 ∧ p2.at_ = .lineOf 0x100C0 ∧ Opens s 0x100C0 p2.c0.keyid)
    ∧ (let c := { tCmd with inFlight := true }
       let r : MemReq := { number := 4, by_ := .engine 0, off := 0x100C0, byteMask := 0, data := 7, desc := none }
       ∃ p, (tWorks c (.memReq r)).cmd 0 r.number = some c ∧ c.eng = 0 ∧ c.inFlight = true ∧ c.code = none ∧ c.op.toNat ≤ 2 ∧ c.unit = 64
        ∧ (tWorks c (.memReq r)).place ((tWorks c (.memReq r)).engineWho c (BitVec.ofNat 64 r.off)) (.engine true 64) (BitVec.ofNat 64 r.off) = .ok p
        ∧ p.at_ = .lineOf 0x100C0)
    ∧ (let c := { tCmd with code := some 0, returned := true, unitsDone := 1 }
       ∃ p, (tWorks c (.n2 0 4)).cmd 0 4 = some c ∧ c.number = 4 ∧ Unrecorded (tWorks c (.n2 0 4)) c.scope ∧ ¬ (c.op = 3) ∧ c.node = none
        ∧ (tWorks c (.n2 0 4)).place ((tWorks c (.n2 0 4)).engineWho c (c.w 3)) (.cell true) (c.w 3) = .ok p ∧ p.at_ = .cellAt 0x20008
        ∧ SoundCell (tWorks c (.n2 0 4)) 0x20008 p.c0.keyid) := by
  refine ⟨?_, ⟨_, ?_, ?_, ?_, ?_, ?_, rfl, rfl, ?_⟩, ?_, ⟨_, _, _, rfl, rfl, ?_, rfl, rfl, ?_, rfl, rfl, ?_⟩,
    ⟨_, ?_, ?_, ?_, ?_, ?_, ?_, rfl, rfl⟩, _, ?_, ?_, ?_, ?_, ?_, rfl, rfl, ?_⟩
  all_goals decide +kernel

theorem wit_Graph : let s := tEng 0 0
    Outside s tMS ∧ tMS.p 2 = true ∧ Sound tMS [2, 6] ∧ Undeferred tMS [2, 6] ∧ (1#5).toNat < tMS.s ∧ s.observes tMS = false ∧ s.isQuanta tMS.scope = false
    ∧ tMS.answer = none ∧ tMS.cut = none
    ∧ (let s : State := { s with scopes := [(1, { tRoot with dmode := 3 })] }
       Outside s tMS ∧ s.observes tMS = false ∧ s.isQuanta tMS.scope = true ∧ ∃ p, s.place (s.who tMS) (.cell false) (tMS.xv 2) = .ok p ∧ p.at_ = .cellAt 0x20008)
    ∧ Outside (tM (tAnswered (.value 3)) []) (tAnswered (.value 3)) ∧ s.samePart tMS.cluster (nodeCluster 0x1FFF) = true
    ∧ s.samePart tMS.cluster (s.command tMS 3 0 [64, 0, 0, 0, 0, 0, 0, 0]).cluster = true
    ∧ freeCell s tMS false (tMS.xv 2) 0x20008 ∧ freeCell s tMS true (tMS.xv 2) 0x20008 ∧ (s.word 0x20008).msb = false
    ∧ (∃ p, s.place (s.who tMS) (.cell false) (tMS.xv 2) = .ok p ∧ Uncounted s tMS p)
    ∧ ([0, 1, 2, 3, 4, 5].all fun op : Word => decide (nodeWordOk (0xFFFFFFFF0100 + op) = true ∧ (0xFFFFFFFF0100 + op).toNat / 2 ^ 8 % 2 ^ 8 ≠ 0)) = true
    ∧ (∃ w st', tMS.split = some (w, st') ∧ w < 2 ^ 32) ∧ s.freeNode tMS.cluster = some 0 ∧ s.isQuanta tMS.memberScope = false
    ∧ s.strandBlockFault tMS.memberScope [64, 0, 0, 0, 0, 0, 0, 0] = none := by
  refine ⟨?_, ?_, ?_, ?_, ?_, ?_, ?_, rfl, rfl, ⟨?_, ?_, ?_, _, rfl, rfl⟩, ?_, ?_, ?_,
    ⟨⟨_, rfl, rfl, ?_⟩, ?_⟩, ⟨⟨_, rfl, rfl, ?_⟩, ?_⟩, ?_, ⟨_, rfl, .inr rfl⟩,
    ?_, ⟨_, _, rfl, ?_⟩, ?_⟩

  all_goals decide +kernel
/-! Strands, scopes, traps and the system. -/

theorem ready_of {r : Room} (h : (match r with
    | .ready _ => true
    | _ => false) = true) : ∃ st', r = .ready st' := by
  cases r with
  | ready st => exact ⟨st, rfl⟩
  | _ => cases h

theorem wit_Strands : Outside tMem tMS ∧ tMS.p 2 = true ∧ tMS.answer = none ∧ tMem.observes tMS = false ∧ Undeferred tMS [6, 7]
    ∧ Sound tMS (6 :: 7 :: regsFrom 0 8) ∧ tMem.samePart tMS.cluster (2 / 16) = true ∧ (1#5).toNat < tMS.s ∧ (tMS.xv 6).toNat % 2 = 0 ∧ (tMS.xv 6).toNat ≤ 0xFFFE
    ∧ tMem.placementOf tMS.scope (tMS.xv 7) = some .wheel ∧ tMem.placementOf tMS.scope 0x400 = some .deque
    ∧ (∃ w st', tMS.split = some (w, st')) ∧ tMem.isQuanta tMS.memberScope = false ∧ (tMem.scope tMS.memberScope).spawnlim = 0
    ∧ Performed tMem tMS ∧ (tMem.core tMS.pcore).deque.length < 32
    ∧ ((tMS.xv 7).toNat = 0 ∧ tMem.logical tMS.pcore = 0)
    ∧ ((tMS.xv 6).toNat = 2 ∧ tMem.migrationBar { tMS with s := 8 } 2 = none ∧ tMem.isRetired 2 = false)
    ∧ Outside (tM (tAnswered (.value 1)) []) (tAnswered (.value 1)) ∧ Outside (tM (tAnswered (.refused 3)) []) (tAnswered (.refused 3)) ∧ yieldForm 0 .yieldCompact 2 := by
  refine ⟨?_, ?_, ?_, ?_, ?_, ?_, ?_, ?_, ?_, ?_, ?_, ?_, ⟨_, _, rfl⟩, ?_, ?_, ?_, ?_, ?_, ?_, ?_, ?_, .inr ⟨rfl, rfl, rfl⟩⟩ <;> decide +kernel

/-- A launch block at x1: image 0x9000, cores 4 to 7, entry 1, the completion word of tBlock. -/
def tLaunch : L0Line := { data := BitVec.ofNat 512 (0x9000 + 2052 * 2 ^ 64 + 2 ^ 128 + 0x0008000000020008 * 2 ^ 192), desc := 0, dirty := false }
def tGangs : State := { tMem with cores := [(0, { lines := [(0x10040, tLaunch)] })], gangs := [(7, { nrank := 2, members := [(0, tMS.handle)] })] }
def tRanked : Strand := { tMS with gang := 7, nrank := 2 }

theorem wit_Gangs : Outside tGangs tMS ∧ tMS.p 2 = true ∧ Sound tMS [1] ∧ Undeferred tMS [1]
    ∧ (∃ blk, blockWords tGangs tMS (tMS.xv 1) blk ∧ (blk[1]?.getD 0).toNat = 4 + 512 * 4 ∧ (blk[2]?.getD 0).toNat = 1
        ∧ freeCell tGangs tMS true (blk[3]?.getD 0) 0x20008)
    ∧ (∃ w st', tMS.split = some (w, st')) ∧ tGangs.isQuanta tMS.scope = false ∧ tGangs.isQuanta tMS.memberScope = false ∧ barForm 7 0 (.barCompact 7) 2 ∧ tMS.xv 7 = 0 ∧ tMS.nrank = 1
    ∧ (let s : State := { tGangs with strands := [(0, tRanked)] }
       Outside s tRanked ∧ tRanked.nrank ≠ 1 ∧ tRanked.answer = none ∧ s.observes tRanked = false ∧ Performed s tRanked
        ∧ s.gangs.find tRanked.gang.toNat = some { nrank := 2, members := [(0, tMS.handle)] })
    ∧ (let st := { tRanked with answer := some .done, barWait := some 4 }
       let s : State := { tGangs with strands := [(0, st)] }
       Outside s st ∧ st.answer = some .done ∧ s.gangs.find st.gang.toNat = some { nrank := 2, members := [(0, tMS.handle)] }) := by
  exact ⟨by decide +kernel, by decide +kernel, by decide +kernel, by decide +kernel, ⟨[0x9000, 2052, 1, 0x0008000000020008, 0, 0, 0, 0],
    ⟨rfl, _, (List.range 64).map fun j => blockByte tLaunch.data j, rfl, .inr rfl, by decide +kernel, by decide +kernel⟩, by decide +kernel, by decide +kernel,
    ⟨_, rfl, rfl, by decide +kernel⟩, by decide +kernel⟩, ⟨_, _, rfl⟩, by decide +kernel, by decide +kernel, .inr ⟨rfl, rfl, rfl⟩, by decide +kernel⟩

/-- A strand with scope 3 open below its own, and one whose window stands where it stood when the scope was opened. -/
def tOpener : Strand := { tMS with opens := [⟨3, 0, 3, 12, 8, 4294967296, false⟩] }
def tNested (st : Strand) : State :=
  { tM st [] with scopes := [(1, tRoot), (3, { id := 3, parent := 1, fdom := 1, opener := st.handle, outw := 4294967296, issued := 4294967296 })] }

theorem wit_ScopeOpenClose :
    (Outside tMem tMS ∧ tMS.p 2 = true ∧ tMS.answer = none ∧ tMem.isQuanta tMS.memberScope = false ∧ Sound tMS [7] ∧ Undeferred tMS [7]
      ∧ tMS.s + (8#5).toNat ≤ 32 ∧ (1#5).toNat < tMS.s + (8#5).toNat ∧ tMS.opens.length < 16 ∧ tMS.w + tMS.s + (8#5).toNat ≤ 1024
      ∧ (∃ st', tMem.roomFor tMS { w := tMS.w, s := tMS.s + (8#5).toNat } = .ready st') ∧ tMS.xv 7 = 0
      ∧ (∃ id w st2 b, tMem.freeScope tMS.cluster = some id ∧ tMS.split = some (w, st2)
        ∧ openedScb (tMem.scope tMS.memberScope) id tMS.handle tMS.sk [] (tMem.isSys tMS.scope) = .ok b))
    ∧ (Outside (tNested tOpener) tOpener ∧ Sound tOpener [7] ∧ Undeferred tOpener [7] ∧ tOpener.xv 7 = 0 ∧ tOpener.opens = ⟨3, 0, 3, 12, 8, 4294967296, false⟩ :: []
      ∧ tOpener.answer = none ∧ tOpener.w = 3 ∧ tOpener.s = 12 + 8 ∧ (∃ sb, (tNested tOpener).scb 3 = some sb) ∧ Named (tNested tOpener)
      ∧ ∀ x ∈ (tNested tOpener).kept, x.1 ≠ 0)
    ∧ (let st : Strand := { tOpener with s := 19 }
       Outside (tNested st) st ∧ (st.w ≠ 3 ∨ st.s ≠ 12 + 8))
    ∧ (let st : Strand := { tOpener with answer := some (.close 1 77) }
       Outside (tNested st) st ∧ (tNested st).observes st = false ∧ (tNested st).dmode st.scope ≠ 2
        ∧ (tNested st).isQuanta st.scope = false ∧ ∃ p, (tNested st).place ((tNested st).who st) (.cell true) (st.xv 2) = .ok p ∧ Uncounted (tNested st) st p) := by
  refine ⟨⟨?_, ?_, ?_, ?_, ?_, ?_, ?_, ?_, ?_, ?_, ready_of ?_, ?_, _, _, _, _, rfl, rfl, rfl⟩,
    ⟨?_, ?_, ?_, ?_, rfl, ?_, ?_, ?_, ⟨_, rfl⟩, ?_, all_of (fun x => x.1 != 0) ?_ fun x h => by simpa using h⟩, ?_, ⟨?_, ?_, ?_, ?_, _, rfl, .inr rfl⟩⟩
    <;> decide +kernel

/-- The opener in the cancelled scope 3 itself. -/
def tInner : Strand := { tMS with scope := 3, saggar := true }
def tCancelled : State :=
  { tM tInner [] with scopes := [(1, tRoot), (3, { id := 3, parent := 1, fdom := 1, cancelled := true, opener := tMS.handle, outw := 65536, issued := 65536 })]
                      cores := [(0, { cancels := [3] })] }

theorem wit_ScopeControl : Outside (tNested tOpener) tOpener ∧ tOpener.p 2 = true ∧ Sound tOpener [7] ∧ Undeferred tOpener [7]
    ∧ (∃ r ∈ tOpener.opens, r.scope = 3) ∧ ((tNested tOpener).scope 3).parent ≠ 0
    ∧ (tNested tOpener).isQuanta 3 = false ∧ (tNested tOpener).isQuanta tOpener.scope = false ∧ Named (tNested tOpener) ∧ (1#5).toNat < tOpener.s
    ∧ names (tNested tOpener) { tOpener with scope := 3 } ({ tOpener with scope := 3 } : Strand).scope.toNat 3
    ∧ tOpener.saggar = false ∧ ((tNested tOpener).scope tOpener.scope).shield ≠ 1 ∧ (tNested tOpener).observes tOpener = false ∧ cptForm 0 .cptCompact 2
    ∧ Outside tCancelled tInner ∧ tInner.saggar = true ∧ tCancelled.observes { tInner with saggar := false } = true ∧ tCancelled.dmode tInner.scope ≠ 1 := by
  refine ⟨?_, ?_, ?_, ?_, ?_, ?_, ?_, ?_, ?_, ?_, ⟨?_, ?_, .inl ?_, .inl ?_⟩, ?_, ?_, ?_, .inr ⟨rfl, rfl, rfl⟩, ?_⟩ <;> decide +kernel

/-- The root scope with handlers for traps and for cancellation; a strand in a trap. -/
def tTraps (st : Strand) : State := { tM st [] with scopes := [(1, { tRoot with trapv := true, trappc := 0x40, cancv := true, cancpc := 0x80 })] }
def tInTrap : Strand := { tMS with links := [⟨true, 20, 3, 100⟩], trapDepth := 1, trappc := 0xFFFE, w := 3 }

theorem wit_Traps : Outside (tTraps tMS) tMS ∧ tMS.pend = [] ∧ (tTraps tMS).transferring (tTraps tMS).cur = false ∧ tMem.transferring tMem.cur = false ∧ ((tTraps tMS).scope tMS.scope).cancv = true ∧ ((tTraps tMS).scope tMS.scope).trapv = true
    ∧ tMS.w + tMS.s + 8 ≤ 1024 ∧ tMS.links.length + tMS.linkSpilled < 256
    ∧ (∃ st', (tTraps tMS).roomFor tMS { w := tMS.w + tMS.s, s := 8, push := some { trap := true, s := tMS.s, n := tMS.s, pc := 100 } } = .ready st')
    ∧ (∃ b, tMem.scb tMS.scope = some b ∧ b.trapv = false) ∧ Named tMem ∧ tMS.scope ≠ 0 ∧ tMS.opens = [] ∧ tMS.act = none
    ∧ tMS.p 2 = true ∧ Sound tMS [0] ∧ Undeferred tMS [0]
    ∧ Outside (tTraps tInTrap) tInTrap ∧ tInTrap.links = ⟨true, 20, 3, 100⟩ :: [] ∧ tInTrap.trappc.toNat % 2 = 0 ∧ tInTrap.trappc.toNat ≤ 0xFFFE
    ∧ tInTrap.w - 3 + 20 ≤ 1024 ∧ (∃ st', (tTraps tInTrap).roomFor tInTrap { w := tInTrap.w - 3, s := 20, pop := true } = .ready st')
    ∧ (let st : Strand := { tMS with trappc := 8 }
       st.links = [] ∧ st.trappc.toNat % 2 = 0)
    ∧ ({ tMem with arg := .reject 3 0x1F } : State).arg = .reject 3 0x1F ∧ ({ tMem with arg := .strand tMS.sk tMS.handle 0 } : State).arg = .strand tMS.sk tMS.handle 0 := by
  refine ⟨?_, ?_, ?_, ?_, ?_, ?_, ?_, ?_, ready_of ?_, ⟨_, rfl, rfl⟩, ?_, ?_, ?_, ?_, ?_, ?_, ?_, ?_, rfl, ?_, ?_, ?_, ready_of ?_, ?_, ?_⟩ <;> decide +kernel

theorem wit_Pauses : Outside tMem tMS ∧ tMS.p 2 = true ∧ nopForm 0 .nopCompact 2 ∧ pauseForm 6 0 (.pauseCompact 6) 2 ∧ Sound tMS [6, 7] ∧ Undeferred tMS [6, 7]
    ∧ tMem.observes tMS = false ∧ min (tMS.xv 6).toNat 65535 ≠ 0 ∧ min (tMS.xv 7).toNat 65535 = 0 ∧ tMS.answer = none
    ∧ Outside (tM (tAnswered .done) []) (tAnswered .done) ∧ tMem.isQuanta tMS.scope = false
    ∧ (let s : State := { tMem with scopes := [(1, { tRoot with dmode := 3 })] }
       Outside s tMS ∧ s.isQuanta tMS.scope = true)
    ∧ ({ tMem with arg := .strand tMS.sk tMS.handle 9 } : State).arg = .strand tMS.sk tMS.handle 9 ∧ ({ tMS with wait := .sleep 9 } : Strand).wait = .sleep 9
    ∧ ({ tMS with pauseTo := 9 } : Strand).pauseTo = 9 := by
  refine ⟨by decide +kernel, by decide +kernel, .inr ⟨rfl, rfl, rfl⟩, .inr ⟨rfl, rfl, rfl⟩, by decide +kernel⟩

/-! Events: answers, scopes, messages, placement. -/

def tArg (s : State) (a : Payload) : State := { s with arg := a }
/-- The strand as it waits. -/
def tWaits (w : Wait) : Strand := { tMS with wait := w }
def tH0 : Handle := tMS.handle

theorem wit_WaitEvents :
    (let st := tWaits (.token 0x10000 4)
     let s := tArg (tM st []) (.strand st.sk st.handle 4)
     s.strand st.sk = some st ∧ s.arg = .strand st.sk st.handle 4 ∧ st.wait = .token 0x10000 4)
    ∧ (let st := tWaits (.reply 4)
       let s := tArg (tM st []) (.answer st.sk st.handle 4 .done)
       s.strand st.sk = some st ∧ s.arg = .answer st.sk st.handle 4 .done ∧ st.wait = .reply 4)
    ∧ (let st := tWaits (.migrating 4 false)
       let s := tArg (tM st []) (.answer st.sk st.handle 4 .done)
       s.strand st.sk = some st ∧ st.wait = .migrating 4 false)
    ∧ (let st := tWaits (.point 4)
       let r : ReplyMsg := { dest := st.handle, sk := 0, number := 4, status := 0, words := [1] }
       let s := tArg (tM st []) (.reply r)
       s.strand st.sk = some st ∧ s.arg = .reply r ∧ r.sk = st.sk ∧ r.dest = st.handle ∧ st.wait = .point 4)
    ∧ (let st := tWaits .refill
       let s := tArg (tM st []) (.strand st.sk st.handle 1)
       s.strand st.sk = some st ∧ st.wait = .refill ∧ st.opens = [] ∧ st.scope = 1)
    ∧ (let st : Strand := { tOpener with wait := .refill }
       st.opens = [⟨3, 0, 3, 12, 8, 4294967296, false⟩] ∧ (tArg (tNested st) (.strand st.sk st.handle 3)).strand st.sk = some st)
    ∧ (let st : Strand := { tOpener with wait := .closing }
       let s := tArg (tNested st) (.close 3 0 st.sk st.handle 1 7)
       s.strand st.sk = some st ∧ st.wait = .closing ∧ st.dying = false)
    ∧ (let st : Strand := { tRanked with wait := .point 4, barWait := some 4 }
       let ga : Gang := { nrank := 2, members := [(0, st.handle), (1, tOther.handle)], arrived := [1] }
       let s := tArg { tM st [] with gangs := [(7, ga)] } (.strand st.sk st.handle 4)
       s.strand st.sk = some st ∧ st.barWait = some 4 ∧ s.gangs.find st.gang.toNat = some ga ∧ ga.genOf st.rank = ga.gen ∧ st.rank.toNat ∉ ga.arrived
        ∧ (∀ m ∈ ga.members, m.1 ∈ ga.arrived ++ [st.rank.toNat]) ∧ ga.members ≠ [] ∧ s.named tOther.handle = some tOther)
    ∧ (let st : Strand := { tRanked with wait := .point 4, barWait := some 4 }
       let ga : Gang := { nrank := 2, members := [(0, st.handle), (1, tOther.handle)], gen := 1, ahead := [0] }
       let s := tArg { tM st [] with gangs := [(7, ga)] } (.strand st.sk st.handle 0)
       s.arg = .strand st.sk st.handle 0 ∧ st.barWait = some 4 ∧ s.gangs.find st.gang.toNat = some ga ∧ ga.genOf st.rank = 0 ∧ st.wait = .point 4
        ∧ ga.genOf st.rank < ga.gen)
    ∧ (let st : Strand := { tRanked with barWait := some 4 }
       let ga : Gang := { nrank := 2, members := [(0, st.handle), (1, tOther.handle)] }
       ¬ ∀ m ∈ ga.members, m.1 ∈ ga.arrived ++ [st.rank.toNat])
    ∧ (let st : Strand := { tMS with late := [{ code := .dataUe }] }
       let s := tArg (tM st []) (.strand st.sk st.handle 4)
       s.strand st.sk = some st ∧ st.late = { code := .dataUe } :: [] ∧ st.pend = [])
    ∧ (let st : Strand := { tMS with s := 8, remoteHome := 2, remoteCount := 9 }
       let s := tArg (tM st []) (.strand st.sk st.handle 4)
       s.strand st.sk = some st ∧ Performed s st ∧ Sound st (regsFrom 0 8) ∧ st.idem = none ∧ s.coneFull st.cluster st.scope = false
        ∧ (∀ j < 8, (st.stack.get {} (st.w + j)).lost = false ∧ (st.stack.get {} (st.w + j)).flip = 0) ∧ st.remoteHome.toNat = 2 ∧ s.migrationBar st 2 = none ∧ s.isRetired 2 = false
        ∧ s.logical st.pcore = 0) := by
  and_intros <;> decide +kernel

/-- Scope 3 below the root, without weight outside but for 65,536 units. -/
def tScb (st : ScopeState) : Scb := { id := 3, parent := 1, fdom := 1, state := st, outw := 65536, issued := 65536 }
def tScoped (b : Scb) (strands : Assoc Strand) (a : Payload) : State := { tMem with scopes := [(1, tRoot), (3, b)], strands := strands, arg := a }

theorem wit_ScopeEvents :
    (let s := tScoped (tScb .draining) [] (.weight 3 65536 false false)
     s.scb 3 = some (tScb .draining) ∧ Named s ∧ (tScb .draining).outw = 65536 ∧ s.isQuanta 3 = false ∧ s.isQuanta 1 = false ∧ s.launches.find 3 = none)
    ∧ (let s := tScoped (tScb .isOpen) [] (.weight 3 65536 false true)
       s.scb 3 = some (tScb .isOpen) ∧ Named s ∧ (tScb .isOpen).state ≠ .draining)
    ∧ (let st : Strand := { tMS with scope := 3, wait := .point 4 }
       let b : Scb := { tScb .isOpen with cancelled := true }
       let s := tScoped b [(0, st)] (.scopeAt 3 5)
       s.scb 3 = some b ∧ Named s ∧ b.cancelled = true ∧ s.strand st.sk = some st ∧ st.cluster = 5 / 17 ∧ st.scope = 3 ∧ st.dying = false
        ∧ st.cancelSeen = false ∧ st.saggar = false ∧ b.dmode ≠ 2 ∧ Assoc.sorted s.strands = true)
    ∧ (let s := tScoped (tScb .isOpen) [] (.win 3 8 0 0)
       Unrecorded s 3 ∧ (tScb .isOpen).won = false)
    ∧ (let st : Strand := { tMS with scope := 3 }
       let s := tScoped (tScb .isOpen) [(0, st)] (.scopeAt 3 0)
       s.under 3 st.scope = true ∧ s.savesNow st = false)
    ∧ (let st : Strand := { tMS with scope := 3 }
       let s := tScoped (tScb .isOpen) [(0, st)] (.strand 0 st.handle 0)
       s.strand st.sk = some st ∧ Performed s st ∧ s.transferring st.sk = false ∧ st.idem = none ∧ st.spilled = [] ∧ st.linkSpilled = 0 ∧ (∀ e ∈ st.stack, e.2.flip = 0 ∧ e.2.lost = false)
        ∧ Assoc.sorted s.strands = true)
    ∧ (let s := tScoped (tScb .isOpen) [(0, tMS)] (.scopeOp 0 tMS.handle 4 3 3 9)
       s.arg = .scopeOp 0 tMS.handle 4 3 3 9 ∧ s.scb 3 = some (tScb .isOpen) ∧ s.waiter 0 tMS.handle = some tMS ∧ s.isQuanta 3 = false
        ∧ (tScoped { tScb .isOpen with dmode := 3 } [] (.scopeOp 0 tMS.handle 4 3 3 9)).isQuanta 3 = true)
    ∧ (let s : State := { tScoped (tScb .isOpen) [] (.n2 3 10) with domains := [(3, {})] }
       s.scb 3 = some (tScb .isOpen) ∧ s.domains.find 3 = some {}) := by decide +kernel

/-- The saved strand of scope 3, whose record stands at the beginning of its save area in the window. -/
def tCtx : Ctx := tMS.context 0 100
def tSaved : Saved := { top := 3, st := { tMS with scope := 3 }, lcore := 0, ctx := tCtx, pos := 0, off := some 0 }
def tRestores : State :=
  let s := tScoped { tScb .isOpen with savearea := 0x10000, saved := true } [] (.n1 2)
  { s with kiln := { s.kiln with saves := [(2, tSaved)] } }

theorem wit_ScopeEvents_restore : tRestores.arg = .n1 2 ∧ tRestores.kiln.saves.find 2 = some tSaved ∧ tSaved.off = some 0
    ∧ (match (readVa (tRestores.scope tSaved.top).pasid ((tRestores.scope tSaved.top).savearea + BitVec.ofNat 64 0) tSaved.bytes.length).go tRestores with
      | (.ok bs, _) => bs[13]?.getD 0 == 0 && bs[14]?.getD 0 == 0 && bs[15]?.getD 0 == 0
      | _ => false) = true := by decide +kernel

def tMsg (scope : ScopeId) : Msg :=
  { number := 4, lcore := 0, chan := 9, words := [1, 2], sender := tMS.handle, sk := 0, scope := scope, weight := 16, wantReply := false, tenant := 0, fromCore := 0, retired := 0 }

theorem wit_MessageEvents :
    (let s := tArg tQ (.msg (tMsg 1))
     let h := s.handler 0 9
     Unrecorded s 1 ∧ s.physical 0 = some 0 ∧ (s.core 0).gated = false ∧ h.depth ≠ 0 ∧ h.tenant = 0 ∧ s.received 0 9 = false ∧ s.samePart (0 / 16) (0 / 16) = true ∧ s.flagAt 1 0 = false
      ∧ h.mask = false ∧ h.box = [] ∧ h.active = none ∧ s.freeSlot 0 = some 2 ∧ 64 ≤ s.freeEntries 0 ∧ (s.scope 1).saved = false
      ∧ (s.handler 0 8).depth = 0 ∧ 512 ≤ ({ tMsg 1 with lcore := 512 } : Msg).lcore ∧ s.isPaired (512 / 512) (s.scope 1).tenant = false
      ∧ (let m : Msg := { tMsg 1 with fromCore := 513 }
         let s : State := { s with kiln := { s.kiln with paired := [(1, 0)] } }
         512 ≤ m.fromCore ∧ s.isPaired (m.fromCore / 512) m.tenant = true ∧ s.holdsPeers m.scope m.fromCore = false ∧ s.isPaired (512 / 512) (s.scope 1).tenant = true))
    ∧ (let h : Handler := { pc := 64, depth := 1, mask := true }
       let s : State := { tArg tQ (.msg (tMsg 1)) with lcores := [(0, { handlers := [(9, h)] })] }
       s.handler 0 9 = h ∧ h.mask = true ∧ h.box.length < h.depth.toNat ∧ ({ h with box := [tMsg 1] } : Handler).depth.toNat ≤ [tMsg 1].length)
    ∧ (let st := tWaits (.reply 4)
       let s := tArg (tM st []) (.refused 1 (.msg (tMsg 1)))
       s.strand st.sk = some st ∧ (tMsg 1).sk = st.sk ∧ (tMsg 1).sender = st.handle ∧ (tMsg 1).scope = st.scope ∧ st.opens = [] ∧ st.wait = .reply 4)
    ∧ (let st := tWaits (.point 4)
       let s := tArg (tM st []) (.refused 0 (.msg (tMsg 1)))
       s.strand st.sk = some st ∧ st.wait = .point 4 ∧ (st.split).isSome = true)
    ∧ (∃ st q b, tQ.receiver 0 2 = some (st, q, b) ∧ b.free ≠ 0 ∧ b.requests.length < 16 ∧ tQ.wordHeld 0 2 7 0 = none)
    ∧ (∃ st q b, (let b : Binding := { kind := 1, chan := 2, reserved := [(7, 0, 1)] }
        { tQ with strands := [(0, { tQS with queues := [(1, b)] })] } : State).receiver 0 2 = some (st, q, b) ∧ ∃ e ∈ b.reserved, e.1 = 7 ∧ e.2.1 = 0)
    ∧ (tQ.received 0 5 = false ∧ tQ.pair 91 = some { num := 91, outH := tMate.handle, inH := tQS.handle, inB := true, words := [(3, 40)] })
    ∧ (∃ b, tQ.sender 90 = some (tQS, 0, b) ∧ tQ.strand tQS.sk = some tQS ∧ tQS.q 0 = some b ∧ b.kind = 0 ∧ b.broken = false ∧ (tQ.brokenBy tQS b).1 = false
        ∧ b.words = []) := by
  refine ⟨?_, ?_, ?_, ?_, ?_, ?_, ?_, ?_⟩
  all_goals first
    | decide +kernel
    | exact ⟨_, _, _, rfl, by decide +kernel⟩
    | exact ⟨_, _, _, rfl, (7, 0, 1), .head _, rfl, rfl⟩
    | exact ⟨_, rfl, by decide +kernel⟩

theorem wit_PlacementEvents :
    (let s := tArg tMem (.ctx 4 (some 0) tCtx)
     Roomy s 0 0 tCtx ∧ s.isQuanta tCtx.scope = false ∧ s.loading 0 = false ∧ ∀ e ∈ s.agenda, e.starts tCtx.scope = true → e.parcel = 0)
    ∧ (let st := tWaits (.reply 4)
       let s := tArg (tM st []) (.stolen 0 st.handle 4 (some tCtx))
       Roomy s 0 0 tCtx ∧ s.strand (handleSk st.handle) = some st ∧ st.sk = handleSk st.handle)
    ∧ (let s : State := { tArg tMem (.steal 0 tMS.handle 4 2) with cores := [(2, { deque := [tCtx] })] }
       s.named tMS.handle = some tMS ∧ Unrecorded s tMS.scope ∧ s.physical 2 = some 2 ∧ (s.core 2).gated = false ∧ (s.core 2).deque = tCtx :: []
        ∧ (s.scope tCtx.scope).tenant = (s.scope tMS.scope).tenant ∧ s.isQuanta tMS.scope = false ∧ s.stolen 2 = false ∧ s.ownerTakes 2 tCtx = false
        ∧ ({ s with served := [(8 * 2 + 6, 0), (8 * 2 + 6, 1)] } : State).stolen 2 = true)
    ∧ (let s : State := { tArg tMem (.n1 2) with cores := [(2, { arrival := [tCtx] })] }
       (s.core 2).arrival = [tCtx] ∧ (s.core 2).deque = [] ∧ (∀ x ∈ (s.lcore (s.logical 2)).handlers, x.2.box = []) ∧ (s.scope tCtx.scope).cancelled = false
        ∧ s.flagAt tCtx.scope 2 = false ∧ s.isQuanta tCtx.scope = false ∧ (s.core 2).stopped = false ∧ s.freeSlot 2 = some 0 ∧ s.admissible 2 tCtx = true
        ∧ s.coreRoom 2 tCtx = true ∧ tCtx.kind = 0 ∧ tCtx.restore = none)
    ∧ (let s : State := { tArg tMem (.n1 2) with cores := [(2, { overflow := [tCtx] })] }
       (s.core 2).overflow = [tCtx] ∧ (s.core 2).arrival = [] ∧ (s.scope tCtx.scope).arrdepth ≠ 0
        ∧ ∀ k ∈ wordsOf (vaultKey 2 0x7F8000) 128, parityOf (s.err k) = 0)
    ∧ (let nd : Node := { gen := 1, state := .waiting, pred := 2, mscope := 1 }
       let s : State := { tArg tMem (.decrement 3 (some 1) 2) with clusters := [(0, { nodes := [(3, nd)] })] }
       s.node 3 = nd ∧ nd.state = .waiting ∧ 1 = nd.gen ∧ 2 ≤ nd.pred ∧ s.isQuanta nd.mscope = false)
    ∧ (let nd : Node := { gen := 1, state := .running, op := 5, weight := 65536, mscope := 1, blk := [64] }
       let s : State := { tArg tMem (.n2 3 1) with clusters := [(0, { nodes := [(3, nd)] })] }
       s.node 3 = nd ∧ nd.op = 5 ∧ nd.state = .running ∧ nd.weight ≠ 0 ∧ (s.scope nd.mscope).spawnlim = 0)
    ∧ (let ga : Gang := { nrank := 3, members := [(0, 1), (1, 2)] }
       let c : EngCmd := { tCmd with op := 3, nrank := 3, gang := 7, inFlight := true }
       let r : MemReq := { number := 4, by_ := .engine 0, off := 0, byteMask := 0, data := 7, desc := none }
       let s : State := { tWorks c (.memReq r) with gangs := [(7, ga)] }
       s.gangs.find 7 = some ga ∧ (ga.digests.filter fun x => x.1 = 0).length + 1 < ga.nrank
        ∧ s.cmd 0 r.number = some c ∧ c.code = none ∧ c.nrank ≠ 1 ∧ (ga.parts.filter fun x => x.1 = c.step).length + 1 < ga.nrank)
    ∧ (let r : LoadReq := { image := 0, first := 0, count := 4, entry := 0, compl := 0, args := [], scope := 1, weight := 0, issuer := 0, sk := 0, pasid := 0, tenant := 0, member := true }
       let s := tArg tMem (.released r 0 0 tCtx)
       s.physical 0 = some 0 ∧ r.member = true ∧ s.isQuanta r.scope = false ∧ (s.scope r.scope).cancelled = false ∧ (s.handler 0 5).depth = 0 ∧ (∀ i < 4, (r.first + i) / 16 ∉ r.skip)
        ∧ ({ s with cores := [(0, { dead := true })] } : State).physical 0 = none ∧ ({ s with cores := [(0, { dead := true })] } : State).isRetired 0 = false
        ∧ (tH.handler 0 9).depth ≠ 0 ∧ (tH.handler 0 9).tenant = 0 ∧ tH.received 0 9 = false
        ∧ s.received 0 (BitVec.ofNat 6 5) = false ∧ ∀ e ∈ s.agenda, e.starts r.scope = false) := by
  and_intros <;> decide +kernel

/-! Events: memory, links, health. -/

def tSpills : Strand := { tMS with wait := .spill, spilled := [5], links := List.replicate 9 ⟨false, 3, 3, 0x40⟩, linkSpilled := 8 }

theorem wit_MemoryEvents :
    (let s := tArg (tM tSpills []) (.n3 0 1 0)
     s.strand tSpills.sk = some tSpills ∧ tSpills.wait = .spill ∧ tSpills.raised = none ∧ s.arg = .n3 tSpills.sk 1 tSpills.sk
      ∧ (tSpills.groups.find 1).isSome = true ∧ 8 ≤ tSpills.links.length
      ∧ (∀ k ∈ wordsOf (s.spillKey tSpills + 0x2100) 64, parityOf (s.err k) = 0))
    ∧ (let s := tArg (tM tSpills []) (.n3 0 5 0)
       5 ∈ tSpills.spilled ∧ (s.freePlace tSpills.pcore).isSome = true ∧ (∀ k ∈ wordsOf (s.spillKey tSpills + 64 * 5) 64
          ++ wordsOf (s.spillKey tSpills + 0x2000 + 5) 1 ++ wordsOf (s.spillKey tSpills + 0x2080 + 5) 1, parityOf (s.err k) = 0))
    ∧ (let s : State := { tArg tMem (.n2 2 3) with cores := [(2, { bankIdle := [(3, 0)] })], cycle := 1024 }
       (s.core 2).bankIdle.find 3 = some 0 ∧ 0 + 1024 ≤ s.cycle)
    ∧ (((tArg tMem (.n2 0 0x10040)).core 0).lines.find 0x10040 = some tLine ∧ isTable 0x10040 = false)
    ∧ (let st := tWaits (.page 0 18 2)
       let q : PageReq := { pasid := 0, page := 18, need := 2, stage := .pri, sent := true }
       let s : State := { tArg (tM st []) (.page 0 18 15) with pages := [q] }
       s.strand 0 = some st ∧ st.wait = .page 0 18 2 ∧ q ∈ s.pages ∧ q.stage ≠ .quiet)
    ∧ (let st := tWaits (.page 0 18 2)
       let q : PageReq := { pasid := 0, page := 18, need := 2, stage := .ats, sent := false }
       let e : TransEntry := ⟨0, 0x10000, 17, 0x10000, true, true⟩
       let s : State := { tArg (tM st []) (.trans e) with pages := [q] }
       q ∈ s.pages ∧ q.stage ≠ .pri ∧ q.stage ≠ .quiet ∧ transCovers e q.pasid (4096 * q.page) = true ∧ s.permits q = true ∧ st.wait = .page q.pasid q.page q.need)
    ∧ (let st := tWaits (.ats 0 18)
       let q : PageReq := { pasid := 0, page := 18, need := 0, stage := .quiet, sent := false }
       let s : State := { tArg (tM st []) (.trans ⟨0, 0x10000, 17, 0x10000, true, true⟩) with pages := [q] }
       q ∈ s.pages ∧ s.strand 0 = some st ∧ q.stage = .quiet ∧ st.wait = .ats q.pasid q.page)
    ∧ (let st : Strand := { tMS with idem := some { start := 100, stop := 200, stores := [{ va := 0x10080, key := 0x10080, bytes := [1], desc := none }] } }
       (tM st []).heldIn (BitVec.ofNat 20 0) 0x10000 (2 ^ 16) = true ∧ tMem.heldIn (BitVec.ofNat 20 0) 0x10000 (2 ^ 16) = false
        ∧ ∀ k ∈ tMem.tokens, k.migration ≠ 2)
    ∧ (let r : MemReq := { number := 4, by_ := .core 0, off := 0x10080, byteMask := BitVec.allOnes 64, data := 7, desc := some 1 }
       Clean (tArg tMem (.memReq r)) (blockKey r.off) ∧ Opens (tArg tMem (.memReq r)) (blockKey r.off) ((((tArg tMem (.memReq r)).regionAt (blockKey r.off)).map (·.keyid)).getD 0)
        ∧ r.byteMask = BitVec.allOnes 64 ∧ isTable (blockKey r.off) = false)
    ∧ (let a : MemAns := { number := 4, by_ := .core 0, off := 0x10080, data := 7, desc := 1, fault := none }
       let s := tArg tMem (.memAns a)
       s.arg = .memAns a ∧ (s.core 0).lines.find a.off = none ∧ (s.core 0).lines.length < 1024)
    ∧ (tMem.powerOff = false ∧ isVisible 0x10080 = true ∧ isVisible (2 ^ 39) = false)
    ∧ ((543 : Nat) < 544 ∧ 2 ^ 23 - 8 < 2 ^ 23 ∧ (2 ^ 23 - 8) % 8 = 0 ∧ (63 : Nat) < 64) := by
  and_intros <;> decide +kernel

theorem flitCrc_low (f : Flit) (side : BitVec 43) (h : side.extractLsb' 16 27 = f.side.extractLsb' 16 27) : flitCrc { f with side := side } = flitCrc f := by
  have hb : flitBits { f with side := side } = flitBits f := by
    simp only [flitBits, List.append_cancel_left_eq]
    apply List.map_congr_left
    intro i hi
    have hi' : i < 27 := List.mem_range.1 hi
    have := congrArg (fun x => x.getLsbD (26 - i)) h
    simp only [BitVec.getLsbD_extractLsb'] at this
    have e : 16 + (26 - i) = 42 - i := by omega
    simpa [e, show 26 - i < 27 by omega] using this
  simp [flitCrc, hb]

theorem stampFlit_crcOk (f : Flit) (q : BitVec 5) : flitCrcOk (stampFlit f q) = true := by
  have low : ∀ (x : BitVec 43) (c : BitVec 16), x.extractLsb' 0 16 = 0 →
      (x ||| c.setWidth 43).extractLsb' 0 16 = c ∧ (x ||| c.setWidth 43).extractLsb' 16 27 = x.extractLsb' 16 27 := by
    intro x c hx
    constructor
    · ext i hi
      have := congrArg (fun y => y.getLsbD i) hx
      simp [hi] at this ⊢
      rw [BitVec.getLsbD_eq_getElem (by omega)] at this
      simp [this, show i < 43 by omega]
    · ext i hi
      simp
  have zero : ∀ (a : BitVec 6) (b : BitVec 5) (c : BitVec 16), (a ++ b ++ c ++ 0#16).extractLsb' 0 16 = 0 := by
    intro a b c
    ext i hi
    rw [BitVec.getElem_extractLsb', Nat.zero_add, BitVec.getLsbD_append]
    simp [hi]
  unfold stampFlit flitCrcOk
  dsimp only
  obtain ⟨h1, h2⟩ := low _ (flitCrc { f with side := f.side.extractLsb' 37 6 ++ q ++ f.side.extractLsb' 16 16 ++ 0#16 }) (zero _ _ _)
  rw [h1, flitCrc_low { f with side := f.side.extractLsb' 37 6 ++ q ++ f.side.extractLsb' 16 16 ++ 0#16 } _ h2]
  exact beq_self_eq_true _

theorem spoilt_crc (f : Flit) (q : BitVec 5) : flitCrcOk { stampFlit f q with side := (stampFlit f q).side ^^^ 1 } = false := by
  have h : ∀ x : BitVec 43, (x ^^^ 1).extractLsb' 0 16 = x.extractLsb' 0 16 ^^^ 1 ∧ (x ^^^ 1).extractLsb' 16 27 = x.extractLsb' 16 27 := by
    intro x
    constructor
    · ext i hi
      simp
    · ext i hi
      simp
  have ok := stampFlit_crcOk f q
  unfold flitCrcOk at ok ⊢
  rw [flitCrc_low _ _ (h _).2, (h _).1]
  rw [beq_iff_eq] at ok
  rw [ok]
  generalize flitCrc (stampFlit f q) = c
  rw [beq_eq_false_iff_ne]
  intro e
  have := congrArg (fun x => c ^^^ x) e
  rw [← BitVec.xor_assoc, BitVec.xor_self, BitVec.zero_xor] at this
  exact absurd this (by decide)

theorem stampFlit_high (f : Flit) (q : BitVec 5) :
    (stampFlit f q).side.extractLsb' 16 27 = f.side.extractLsb' 37 6 ++ q ++ f.side.extractLsb' 16 16 := by
  unfold stampFlit
  dsimp only
  generalize flitCrc _ = c
  ext i hi
  simp
  rw [BitVec.getLsbD_append]
  simp [← BitVec.getLsbD_eq_getElem]

theorem high_fields (f : Flit) : let h := f.side.extractLsb' 16 27
    flitCls f = (h.extractLsb' 25 2).toNat ∧ flitHead f = h.getLsbD 24 ∧ flitTail f = h.getLsbD 23 ∧ flitAbort f = h.getLsbD 21
      ∧ flitSeq f = h.extractLsb' 16 5 := by
  refine ⟨?_, ?_, ?_, ?_, ?_⟩
  · unfold flitCls
    congr 1
    ext i hi
    simp [show 25 + i < 27 by omega, ← Nat.add_assoc]
  · simp [flitHead]
  · simp [flitTail]
  · simp [flitAbort]
  · unfold flitSeq
    ext i hi
    simp [show 16 + i < 27 by omega, ← Nat.add_assoc]

/-- A packet of class U in one flit: head and tail, SEQ 0, its check bits right. -/
def tRaw : Flit := { payload := 0, side := 2 ^ 41 + 2 ^ 40 + 2 ^ 39, parcel := 6 }
def tFlit : Flit := stampFlit tRaw 0

theorem tFlit_fields : flitCls tFlit = 1 ∧ flitHead tFlit = true ∧ flitTail tFlit = true ∧ flitAbort tFlit = false ∧ flitSeq tFlit = 0 := by
  have h := high_fields tFlit
  rw [show tFlit.side.extractLsb' 16 27 = _ from stampFlit_high _ _] at h
  obtain ⟨a, b, c, d, e⟩ := h
  exact ⟨a.trans (by decide), b.trans (by decide), c.trans (by decide), d.trans (by decide), e.trans (by decide)⟩

def tLinkQ (c : LinkClass) (a : Payload) : State := { tArg tMem a with links := [(9, { cls := [(1, c)] })] }

/-- Nothing of the state matters here but the link. -/
theorem wit_LinkEvents :
    (let s := tLinkQ { current := 6, queue := [tRaw] } (.n3 9 0 0)
     (s.link 9).stopped = false ∧ (s.link 9).bWait < 3 ∧ ((s.link 9).class_ 1).ready = true ∧ ((s.link 9).class_ 0).ready = false
      ∧ ((s.link 9).class_ 1).next = some tRaw ∧ (s.link 9).bar = false ∧ (portEnd 9).isSome = true)
    ∧ (let s := tLinkQ {} (.flit 9 tFlit)
       s.arg = .flit 9 tFlit ∧ (s.link 9).stopped = false ∧ flitCls tFlit = 1 ∧ flitCrcOk tFlit = true ∧ flitSeq tFlit = ((s.link 9).class_ 1).nextSeq
        ∧ ((s.link 9).class_ 1).active = false ∧ flitHead tFlit = true ∧ flitTail tFlit = true ∧ flitAbort tFlit = false
        ∧ kindClass (hdrKind (tFlit.payload.extractLsb' 0 192)) = some 1 ∧ portEnd 9 = some (hdrRouter (tFlit.payload.extractLsb' 0 192))
        ∧ portEnd 1 ≠ some (hdrRouter (tFlit.payload.extractLsb' 0 192)))
    ∧ (let f : Flit := { tFlit with side := tFlit.side ^^^ 1 }
       let s := tLinkQ { nextSeq := 3 } (.flit 9 f)
       flitCrcOk f = false ∧ (∀ q, ((s.link 9).class_ 1).sent q < 8) ∧ flitSeq tFlit ≠ ((s.link 9).class_ 1).nextSeq)
    ∧ (∀ f, ((tLinkQ { retryBuf := [(0, f, 7)] } (.n3 9 1 0)).link 9 |>.class_ 1).retryBuf = [(0, f, 7)])
    ∧ (let x : LinkClass := { active := true, since := 0 }
       let s : State := { tLinkQ x (.n2 9 1) with cycle := 4096 }
       (s.link 9).cls.find 1 = some x ∧ x.active = true ∧ x.since + 4096 ≤ s.cycle) := by
  obtain ⟨a, b, c, d, e⟩ := tFlit_fields
  refine ⟨by decide +kernel, ⟨rfl, rfl, a, stampFlit_crcOk _ _, e, rfl, b, c, d, ?_, ?_, ?_⟩, ⟨spoilt_crc _ _, by decide, ?_⟩, fun f => rfl, by decide⟩
  · show kindClass (hdrKind (tRaw.payload.extractLsb' 0 192)) = some 1
    decide +kernel
  · show portEnd 9 = some (hdrRouter (tRaw.payload.extractLsb' 0 192))
    decide +kernel
  · show portEnd 1 ≠ some (hdrRouter (tRaw.payload.extractLsb' 0 192))
    decide +kernel
  · rw [e]
    decide

theorem wit_HealthEvents :
    ((tArg tMem (.n2 2 543)).arg = .n2 2 543 ∧ (543 : Nat) < 544 ∧ tMem.beats (17 * (543 % 32) + 543 / 32) = true)
    ∧ (let s : State := { tArg tMem (.n1 2) with cores := [(5, { missed := 2 }), (6, { missed := 1 }), (7, { beat := true, missed := 2 })] }
       (s.core 5).dead = false ∧ (s.core 5).beat = false ∧ (s.core 5).gated = false ∧ (s.core 5).missed = 2 ∧ (s.core 6).missed ≠ 2 ∧ (s.core 7).beat = true)
    ∧ (let s : State := { tArg tMem (.n1 20) with cores := [(20, { dead := true })] }
       s.arg = .n1 (17 * 1 + 3) ∧ s.spares.find 1 = none ∧ (s.core 20).dead = true ∧ (s.core 20).retired = false ∧ (s.core (17 * 1 + 16)).dead = false
        ∧ (s.lcore (16 * 1 + 3)).copy = [])
    ∧ (let s : State := { tArg tMem (.n1 20) with cores := [(20, { dead := true }), (33, { dead := true })] }
       (s.core 20).dead = true ∧ (s.core (17 * 1 + 16)).dead = true)
    ∧ (let s : State := { tArg tMem (.n1 2) with cores := [(5, { sent := 64, noisy := 1 })] }
       5 / 136 = 0 ∧ 64 ≤ (s.core 5).sent.toNat ∧ 1 ≤ (s.core 5).noisy ∧ (s.core 5).sent.toNat < 1024)
    ∧ (let s : State := { tArg tMem (.n1 2) with cores := (List.range 136).map fun p => (p, { sent := 4 }) }
       ∀ p < 136, 4 ≤ (s.core p).sent.toNat ∧ (s.core p).sent.toNat < 64)
    ∧ ((tArg tMem (.n2 31 6)).arg = .n2 31 6 ∧ (tArg tMem (.n1 7)).arg = .n1 7)
    ∧ (let b : Scb := { tRoot with capped := some (7, 8, 9) }
       let s : State := { tArg tMem (.n1 2) with scopes := [(1, b)] }
       s.scb 1 = some b ∧ b.capped = some (7, 8, 9))
    ∧ (let s : State := { State.reset with agenda := [], cycle := 2 ^ 20, arg := .n1 4 }
       s.arg = .n1 4 ∧ s.clusterIdle 4 = true ∧ (s.cluster 4).gated = false ∧ s.idleAt.get 0 4 + 2 ^ 20 ≤ s.cycle)
    ∧ (let s : State := { State.reset with clusters := (List.range 32).map fun c => (c, { gated := true }), kiln := { mode := 1 } }
       (∀ c < 32, (s.cluster c).gated = true) ∧ s.heads = [] ∧ s.kiln.mode = 1 ∧ s.kiln.gated = false)
    ∧ (let s : State := { State.reset with kiln := { mode := 1, gated := true } }
       s.kiln.gated = true ∧ s.kiln.latchOrder = [])
    ∧ (∀ kv ∈ State.reset.scopes, kv.2.lowerable = false) ∧ (tArg tMem (.flag true)).arg = .flag true ∧ (tArg tMem (.flag false)).arg = .flag false := by
  and_intros <;> decide +kernel

/-! The Kiln, the host's commands, and the machine as a whole. -/

/-- Queue 0 of tenant 0 holds one entry, a NOP or another opcode, at the tenant's address 0x11000; its block may have it in PEND. -/
def tQcb (gen : Word) (pend : BitVec 32) : Qcb :=
  let c : QcbCopy := { ringva := 0x11000, ringsize := 256, state := 1, pend := pend }
  { gen := gen, a := c, b := c }
def tKiln (opcode : BitVec 8) (x : Qcb) : State :=
  { tMem with
    mem := [(0x11008, opcode)], curHart := 1, devwin := 0
    kiln := { mode := 1, tenants := [(0, 1)], queues := [(0, x)], tails := [(0, 128)]
              harts := [(1, { pc := 64, mtvec := 0x100, regs := [(11, 0x80), (12, 0)], pending := 0x21 })] } }
/-- The same without a translation of the ring. -/
def tUnmapped (opcode : BitVec 8) (x : Qcb) : State := { tKiln opcode x with trans := [] }

theorem wit_BitFields : (tKiln 10 (tQcb 0 0xFFFFFFFF)).curHart < 4 := by decide +kernel

theorem wit_RingHolds : RingHolds (tKiln 10 (tQcb 0 0xFFFFFFFF)) (tQcb 0 0xFFFFFFFF).a ((tKiln 10 (tQcb 0 0xFFFFFFFF)).bytes 0x11000 128) := by
  refine ⟨tRoot, 0x11000, ?_, ?_, ?_, ?_, ?_, ?_, ?_, .inr ?_, .inr ?_, rfl⟩ <;> decide +kernel

theorem wit_KilnInstructions : let s := tKiln 10 (tQcb 0 0xFFFFFFFF)
    let x := tQcb 0 0xFFFFFFFF
    s.curHart < 4 ∧ ((s.hart 1).reg 12).toNat ≤ 4095 ∧ ((s.hart 1).reg 11).toNat % 128 = 0 ∧ ((s.hart 1).reg 11).toNat < 2 ^ 21
    ∧ s.kiln.queues.find 0 = some x ∧ x.gen.getLsbD 0 = false ∧ x.a.state = 1 ∧ x.a.head.toNat % 128 = 0 ∧ x.a.head.toNat < x.a.ringsize.toNat
    ∧ x.a.head ≠ s.kiln.tails.get 0 0 ∧ entryOk x.a (s.bytes 0x11000 128) = true
    ∧ number ((s.bytes 0x11000 128).drop 8 |>.take 2) = 10
    ∧ (4095 < (4096 : Word).toNat ∧ (4095 : Word).toNat ≤ 4095 ∧ (0x81 : Word).toNat % 128 ≠ 0 ∧ s.kiln.queues.find 4095 = none ∧ (tQcb 1 0xFFFFFFFF).gen.getLsbD 0 = true)
    ∧ (let y : Qcb := { x with a := { x.a with head := 1 } }
       y.a.head.toNat % 128 ≠ 0 ∧ y.a.state = 1)
    ∧ (let u := tUnmapped 10 x
       u.kiln.queues.find 0 = some x ∧ u.ringPage x.a = some (0, 0x11) ∧ (u.hart 1).asked ≠ some (0, 0x11) ∧ u.pages = []
        ∧ ({ u with kiln := { u.kiln with harts := [(1, { asked := some (0, 0x11) })] } } : State).hart 1 = { asked := some (0, 0x11) })
    ∧ s.quadRuns (31 / 8) = true ∧ s.isQuanta 1 = false ∧ Named s ∧ ((1 : Word).setWidth 24 : ScopeId) = 1 ∧ (s.hart 1).pending.setWidth 64 &&& (1 : Word) ≠ 0
    ∧ (s.hart 1).pending.setWidth 64 &&& (2 : Word) = 0 := by decide +kernel

def tHost (opcode : BitVec 16) (args : List Word) : HostCmd := { queue := 0, deadline := 5, opcode := opcode, tier := 1, tenant := 0, tag := 7, compl := 2 ^ 45, args := args }

theorem wit_HostCommands :
    (let c := tHost 1 [0x9000, 4 + 512 * 4, 1, 0, 1, 2, 3, 4, 0]
     let s := tArg tMem (.host c 0)
     Command s c tRoot 0 ∧ (hostArg c 1).toNat = 4 + 512 * 4 ∧ (hostArg c 2).toNat < 256 ∧ hostArg c 8 = 0 ∧ (s.freeScope (4 / 16)).isSome = true
      ∧ tRoot.tier.toNat ≤ c.tier.toNat % 4 ∧ Named s ∧ s.launches = [] ∧ s.noAdmit = false ∧ tRoot.issmin.toNat ≤ 7168 ∧ tRoot.fltmin.toNat ≤ 7168)
    ∧ (let c := tHost 1 [0x9000, 511 + 512 * 2]
       Command (tArg tMem (.host c 0)) c tRoot 0 ∧ (hostArg c 1).toNat = 511 + 512 * 2 ∧ 512 < 511 + 2)
    ∧ (let c := tHost 3 [3]
       let b := tScb .isOpen
       let s := { tScoped b [] (.host c 0) with agenda := [] }
       Command s c tRoot 0 ∧ s.scb b.id = some b ∧ hostArg c 0 = b.id.setWidth 64 ∧ b.tenant = c.tenant ∧ Named s ∧ b.saved = false ∧ b.id ∉ s.kiln.noResume
        ∧ s.allSaved b.id = true)
    ∧ (let c := tHost 4 [3]
       let b := { tScb .isOpen with saved := true }
       let s := tScoped b [] (.host c 0)
       b.saved = true ∧ (∀ e ∈ s.agenda, e.ev ≠ .switchOut) ∧ s.switchOf b.id = b.id)
    ∧ (let c := tHost 5 [0x40000, 4095, 1, 3]
       let b := tScb .isOpen
       let s := tScoped b [] (.host c 0)
       Command s c tRoot 0 ∧ (decodeRegion (hostArg c 0)) = some ⟨0, 0x40000, 12⟩ ∧ (∀ k ∈ s.tokens, k.reg.meets ⟨0, 0x40000, 12⟩ = false) ∧ (⟨0, 0x40000, 12⟩ : Region).vault = false ∧ (hostArg c 1).toNat < 4096
        ∧ (hostArg c 2).toNat < 2 ∧ (hostArg c 3).toNat < 2 ^ 24 ∧ b.tenant = c.tenant ∧ s.tokens.length < 2 ^ 24)
    ∧ (let c := tHost 6 [0x0008000000020000]
       let s := tArg tMem (.host c 0)
       Command s c tRoot 0 ∧ decodeRegion (hostArg c 0) = some ⟨2, 0x20000, 12⟩ ∧ (s.token ⟨2, 0x20000, 12⟩ 0).map (·.state) = some .free)
    ∧ (let c := tHost 7 [0x10000, 0x40000]
       let s := tArg tMem (.host c 0)
       (s.token ⟨0, 0x10000, 12⟩ 0).map (·.state) = some .held ∧ (hostArg c 1).toNat % 2 ^ 12 = 0 ∧ isVisible 0x40000 = true ∧ isVisible (0x40000 + 4095) = true
        ∧ s.cellsIn ⟨0, 0x10000, 12⟩ 0 = false ∧ (s.transEntry 0 0x10000).map (fun e => (e.r, s.keyOf (e.tbase + (0x10000 - e.vbase)))) = some (true, 0x10000)
        ∧ s.pages = [] ∧ ({ s with trans := [] } : State).transEntry 0 (0x10000 + 64 * 63) = none ∧ isTable 0x10000 = false
        ∧ ∀ i < 64, Clean s (0x10000 + 64 * i) ∧ Opens s (0x10000 + 64 * i) 0 ∧ 0x10000 + 64 * i + 64 ≤ 0x40000 ∧ isTable (0x40000 + 64 * i) = false)
    ∧ (let q : SyncReq := { number := 1, sk := 0, handle := 0, lcore := 0, va := 0x10040, key := 0x10040, op := 0, ord := 0, val := 0, cmp := 0, dst := none, retired := 0, pasid := 0, scope := 1 }
       let s : State := { tArg tMem (.host (tHost 7 [0x10000, 0x40000]) 1) with agenda := [{ ev := .syncCellOperation, arg := .syncReq q }] }
       s.cellsIn ⟨0, 0x10000, 12⟩ 0 = true)
    ∧ (let c := tHost 7 [0x10000, 0x40000]
       let k : Token := { tHeldTok 0x10000 .reclaiming with prior := .held, migration := 3 }
       let s : State := { tArg (tM tMS [k]) (.host c 2) with cores := [], trans := [⟨0, 0x10000, 12, 0x40000, true, true⟩] }
       Command s c tRoot 2 ∧ s.token ⟨0, 0x10000, 12⟩ 0 = some k ∧ (s.transEntry 0 0x10000).map (fun e => s.keyOf (e.tbase + (0x10000 - e.vbase))) = some 0x40000
        ∧ { k with migration := 2 }.migration ≠ 3)
    ∧ (let c := tHost 8 [2300]
       Command (tArg tMem (.host c 0)) c tRoot 0 ∧ 1000 ≤ (hostArg c 0).toNat ∧ (hostArg c 0).toNat ≤ 2300 ∧ 2300 < (2301 : Word).toNat ∧ (999 : Word).toNat < 1000)
    ∧ (let c := tHost 9 [0, 0, 3, 3]
       (∀ q < 4, (hostArg c q).toNat ≤ 3) ∧ ∀ kv ∈ tMem.scopes, kv.2.parent = 0)
    ∧ (let c := tHost 11 [9, 2 ^ 20 - 1, 0, 31, 0, 0, 0, 0]
       let s := tArg tMem (.host c 0)
       Command s c tRoot 0 ∧ hostArg c 0 = (9#12).setWidth 64 ∧ s.root 9 = none ∧ (∀ x ∈ s.kiln.tenants, x.1 ≠ 9) ∧ (hostArg c 1).toNat < 2 ^ 20
        ∧ (hostArg c 3).toNat = 31 ∧ s.rootOf ((hostArg c 1).setWidth 20) = none ∧ (1 : BitVec 12) ∉ s.kiln.keys ∧ s.quadRuns (31 / 8) = true ∧ hostArg c 7 = 0 ∧ (s.freeScope 31).isSome = true)
    ∧ (let c := tHost 12 [4095, 2 ^ 45, 256, 0, 3, 0, 0, 0, 0, 0, 0, 0]
       let s := tArg tMem (.host c 0)
       Command s c tRoot 0 ∧ s.kiln.queues.find 4095 = none ∧ s.root 0 ≠ none ∧ (hostArg c 1).toNat % 128 = 0 ∧ (hostArg c 2).toNat % 128 = 0
        ∧ ∀ i < 12, 5 ≤ i → hostArg c i = 0)
    ∧ (let c := tHost 13 [0]
       let x := tQcb 0 0x80
       let s := tArg (tKiln 10 x) (.host c 0)
       Command s c tRoot 0 ∧ s.kiln.queues.find 0 = some x ∧ x.gen.getLsbD 0 = false ∧ x.valid.pend ≠ 0xFFFFFFFF ∧ (tQcb 0 0xFFFFFFFF).valid.pend = 0xFFFFFFFF)
    ∧ (let c := tHost 10 []
       ∀ j < 32, SoundSector tMem (blockKey (tMem.keyOf c.compl.toNat + j))) := by 
  refine ⟨?_, ?_, ?_, ?_, ?_, ?_, ?_, ?_, ?_, ?_, ?_, ⟨?_, ?_, ?_, all_of (fun x => x.1 != 9) ?_ fun x h => by simpa using h, ?_⟩, ?_, ?_, ?_⟩
  all_goals decide +kernel

theorem tKiln_heads (q : Nat) : (tArg (tKiln 10 (tQcb 0 0xFFFFFFFF)) .none).headOf q ≠ .straddle
    ∧ ∀ c, (tArg (tKiln 10 (tQcb 0 0xFFFFFFFF)) .none).headOf q ≠ .missing c := by
  cases q with
  | zero =>
    have h : (match (tArg (tKiln 10 (tQcb 0 0xFFFFFFFF)) .none).headOf 0 with
      | .entry _ _ => true
      | _ => false) = true := by decide +kernel
    split at h
    · rename_i e
      exact ⟨by rw [e]; exact nofun, fun c => by rw [e]; exact nofun⟩
    · cases h
  | succ n => exact ⟨nofun, fun c => nofun⟩

/-- A LAUNCH in PEND of cores 0 and 1 of cluster 0: its entry is `0x11000`, core 0, two ranks. -/
def tLaunching (log placing : List (Word × Nat)) : State :=
  let s := tKiln 1 (tQcb 1 0)
  { tArg s (.n2 0 3) with mem := [(0x11008, 1), (0x11029, 4)], kiln := { s.kiln with log := log, placing := placing } }

theorem wit_KilnEvents :
    (let x := tQcb 0 0xFFFFFFFF
     let s := tArg (tKiln 10 x) (.word 0 128)
     s.arg = .word 0 128 ∧ s.kiln.mode = 1 ∧ s.partGated = false ∧ s.kiln.queues.find 0 = some x ∧ (chosenCopy x).state = 1 ∧ x.gen.getLsbD 0 = false
      ∧ ¬ ((128 : Word).toNat % 128 ≠ 0 ∨ (chosenCopy x).ringsize.toNat ≤ (128 : Word).toNat) ∧ (chosenCopy x).ringsize.toNat ≤ (256 : Word).toNat
      ∧ s.kiln.queues.find 4095 = none ∧ (tQcb 2 0).gen.getLsbD 1 = true ∧ ({ s with clusters := [(0, { gated := true })] } : State).partGated = true)
    ∧ (State.reset.kiln.mode ≠ 1 ∧ (tArg State.reset (.word 4095 128)).arg = .word 4095 128)
    ∧ (let s : State := { tArg tMem (.word 0x030 1) with kiln := { mode := 1, tenants := [(0, 1)], q0ring := 2 ^ 45, q0size := 2 ^ 24 } }
       s.arg = .word 0x030 1 ∧ (s.root 0).isSome = true ∧ s.kiln.queues.find 0 = none ∧ s.kiln.q0ring.toNat % 128 = 0 ∧ s.kiln.q0size.toNat % 128 = 0
        ∧ 256 ≤ s.kiln.q0size.toNat ∧ s.kiln.q0size.toNat ≤ 2 ^ 24)
    ∧ (let s := tArg (tKiln 10 (tQcb 0 0xFFFFFFFF)) .none
       (∀ q, s.headOf q ≠ .straddle) ∧ (∀ q c, s.headOf q ≠ .missing c)
        ∧ (s.heads.all fun h => s.dispatchable h && h.c.tier == 0) = true ∧ s.heads.length = 1 ∧ ∀ e ∈ s.agenda, e.ev ≠ .kilnDispatch)
    ∧ (let x := tQcb 0 0xFFFFFFFF
       let s := tArg (tUnmapped 10 x) .none
       s.kiln.queues = [(0, x)] ∧ s.headOf 0 = .missing (chosenCopy x) ∧ s.ringPage (chosenCopy x) = some (0, 0x11))
    ∧ (let x := tQcb 1 0
       let s := tArg (tUnmapped 10 x) (.n2 0 3)
       s.kiln.queues.find 0 = some x ∧ (chosenCopy x).pend ≠ 0xFFFFFFFF ∧ s.ringPage { chosenCopy x with head := (chosenCopy x).pend } = some (0, 0x11))
    ∧ (let x := tQcb 1 0
       let s := tArg (tKiln 10 x) (.n2 0 3)
       let b := s.bytes 0x11000 128
       s.kiln.queues.find 0 = some x ∧ (chosenCopy x).pend ≠ 0xFFFFFFFF ∧ RingHolds s { chosenCopy x with head := (chosenCopy x).pend } b
        ∧ entryOk (chosenCopy x) b = true ∧ (hostEntry 0 b).opcode = 10)
    ∧ (let s := tLaunching [] []
       let b := s.bytes 0x11000 128
       let cmd := hostEntry 0 b
       RingHolds s { chosenCopy (tQcb 1 0) with head := 0 } b ∧ cmd.opcode = 1 ∧ entryOk (chosenCopy (tQcb 1 0)) b = true ∧ launchClusters cmd = [0]
        ∧ (launchClusters cmd).filter (fun cl => !s.kiln.log.contains (0, cl)) = [0] ∧ s.quadRuns 0 = true ∧ (s.core 0).overflow.length < 256
        ∧ (tLaunching [(0, 0)] []).kiln.log = [(0, 0)] ∧ (tLaunching [(0, 0)] [(0, 0)]).kiln.placing = [(0, 0)])
    ∧ (let s : State := { tArg tMem (.n1 3) with cycle := 1500000 }
       s.arg = .n1 3 ∧ (s.hart 3).waiting = false ∧ (s.hart 3).since + 1500000 ≤ s.cycle ∧ tMem.cycle < (tMem.hart 3).since + 1500000) := by
  refine ⟨by decide +kernel, by decide +kernel, by decide +kernel, ⟨fun q => (tKiln_heads q).1, fun q => (tKiln_heads q).2, ?_, ?_, ?_⟩, ?_, ?_,
    ⟨?_, ?_, ⟨tRoot, 0x11000, ?_, ?_, ?_, ?_, ?_, ?_, ?_, .inr ?_, .inr ?_, rfl⟩, ?_, ?_⟩, ⟨⟨tRoot, 0x11000, ?_, ?_, ?_, ?_, ?_, ?_, ?_, .inr ?_, .inr ?_, rfl⟩, ?_⟩, ?_⟩
  all_goals decide +kernel

/-- Whether a signature verifies is a free value, so no slot can be shown to be valid; without slots neither is. -/
theorem wit_StartUp :
    (State.reset.kiln.slotA = none ∧ State.reset.kiln.slotB = none ∧ State.reset.kiln.mode = 0 ∧ State.reset.kiln.tenants = [] ∧ State.reset.parts = [])
    ∧ (let s : State := { State.reset with kiln := { failures := 2 } }
       s.kiln.failures + 1 = 3 ∧ s.kiln.slotValid (!(s.kiln.slot == 1)) = false)
    ∧ (let s : State := { State.reset with kiln := { mode := 2, svn := 4 }, arg := .word 0 4 }
       s.arg = .word 0 4 ∧ (4 : Word).toNat = s.kiln.svn.toNat ∧ s.kiln.mode = 2 ∧ s.kiln.mboxResp ≠ 0xFF
        ∧ (let s : State := { s with kiln := { s.kiln with mboxResp := 0xFF, mboxArg := 512 * 256 }, arg := .none }
           s.arg = .none ∧ s.kiln.mode = 2 ∧ s.kiln.mboxResp = 0xFF ∧ 512 ≤ s.kiln.mboxArg.toNat / 256 % 2 ^ 24 ∧ slotSized (s.kiln.uploadedSlot 512) = true))
    ∧ (tArg State.reset (.n3 1 (5 : BitVec 12).toNat 1)).arg = .n3 1 (5 : BitVec 12).toNat 1
    ∧ (let s : State := { tArg tQ (.n2 1024 0xFFF) with
         peers := Assoc.insert [] 1023 (1, 0xFFF, 0), kiln := { mode := 1, peersAuth := [1024] }
         tokens := [{ tHeldTok 0x10000 .held with owner := { kind := .peer, id := 5, dev := 1024 } }] }
       1024 ∈ s.kiln.peersAuth ∧ 0xFFF % 4096 ≠ 0 ∧ (s.peers.get (0, 0, 0) 1023).1 = 1 ∧ (s.peers.get (0, 0, 0) 1023).2.1 &&& ~~~(BitVec.ofNat 12 0xFFF) = 0
        ∧ Slots s ∧ (∀ k ∈ s.tokens, k.state = .held ∧ k.owner.kind = .peer ∧ k.owner.dev.toNat = 1024))
    ∧ (let s := tScoped (tScb .isOpen) [(0, tMS)] (.n2 31 1)
       s.arg = .n2 31 1 ∧ Named s ∧ s.scb 3 = some (tScb .isOpen) ∧ (tScb .isOpen).parent ≠ 0 ∧ (s.parts.get (0, 0) (homeCluster 3 / 8)).2 = (s.parts.get (0, 0) (31 / 8)).2
        ∧ (s.ancestors 3).length ≤ s.scopes.length ∧ s.scb 1 = some tRoot ∧ tRoot.parent = 0
        ∧ (s.parts.get (0, 0) (homeCluster 1 / 8)).2 = (s.parts.get (0, 0) (31 / 8)).2 ∧ (∀ k ∈ tMem.tokens, k.owner.kind = .strand ∧ k.migration = 0)) := by
  refine ⟨?_, ?_, ?_, ?_, ⟨?_, ?_, ?_, ?_, slots_of ?_ ?_, ?_⟩, ?_⟩ <;> decide +kernel

theorem wit_EncodeThenDecode : WellFormed (.acas 31 31 31 7 3) ∧ (Instr.acas 31 31 31 7 3).isEvent = false ∧ (Instr.acas 31 31 31 7 3).isKiln = false
    ∧ WellFormed (.krf 31 31 31) ∧ (Instr.krf 31 31 31).isKiln = true := by decide +kernel

theorem wit_DecodeThenEncode : decode [0x29, 0xE0, 0xC0, 0x8E] = .instr (.add 5 6 7 3) 4 ∧ decode [0x00, 0xA6] = .instr .yieldCompact 2
    ∧ decodeKilnBytes [0x0B, 0x85, 0xC5, 0x00] = some (.krf 12 11 10) := by decide +kernel

/-- The strand has the turn and stands at an ADD. -/
def tTurn : State := { tMem with turn := .issue 0, mem := [(2 ^ 67 + 100, 0x29), (2 ^ 67 + 101, 0xE0), (2 ^ 67 + 102, 0xC0), (2 ^ 67 + 103, 0x8E)] }

/-- No entry of the strand or of its core's tiles is flipped. -/
theorem tTurn_unflipped : Unflipped tTurn tMS :=
  ⟨fun n => get_all (P := fun e : RegEntry => e.flip = 0 ∧ e.lost = false) (by decide +kernel) ⟨rfl, rfl⟩ n, fun _ => rfl, fun _ => rfl⟩

/-- Nothing is due; an ADDI stands at the pc of hart 1. -/
def tHartGo : State :=
  { State.reset with agenda := [], mem := [(2 ^ 68 + 64, 0x93), (2 ^ 68 + 65, 0x02), (2 ^ 68 + 66, 0x70)], kiln := { mode := 1, harts := [(1, { pc := 64 })] } }

theorem wit_StepRunsDecoded :
    (tTurn.turn = .issue 0 ∧ tTurn.strand 0 = some tMS ∧ tMS.sk = 0 ∧ tMS.late = [] ∧ tMS.preempt = none ∧ (tTurn.scope tMS.scope).migthr = 0
      ∧ tMS.pc.toNat ≤ 0xFFFC ∧ decode (tTurn.bytes (istoreKey tMS.pcore tMS.pc.toNat) 4) = .instr (.add 5 6 7 3) 4
      ∧ ∀ w ∈ wordsOf (istoreKey tMS.pcore tMS.pc.toNat) 4, parityOf (tTurn.err w) = 0)
    ∧ (let s : State := { tMem with turn := .hart 1, mem := [(2 ^ 68, 0x0B), (2 ^ 68 + 1, 0x85), (2 ^ 68 + 2, 0xC5)] }
       s.turn = .hart 1 ∧ s.kiln.gated = false ∧ (s.hart 1).pc.toNat + 2 < 2 ^ 21 ∧ decodeKilnBytes (s.bytes (2 ^ 68 + (s.hart 1).pc.toNat) 4) = some (.krf 12 11 10)
        ∧ ({ s with kiln := { s.kiln with gated := true } } : State).kiln.gated = true)
    ∧ (let s : State := { State.reset with turn := .event 0 }
       s.turn = .event 0 ∧ s.agenda[0]? = some { ev := .powerOn } ∧ s.kiln.gated = false)
    ∧ (State.reset.turn = .choose ∧ State.reset.clockDue = none ∧ State.reset.dogDue = none ∧ State.reset.sched = [] ∧ State.reset.allMoves = [.event 0]
      ∧ ({ State.reset with agenda := [] } : State).allMoves = [])
    ∧ (let s : State := { tHartGo with cycle := 1500000 }
       s.turn = .choose ∧ s.clockDue = none ∧ s.dogDue = some 1 ∧ tHartGo.dogDue = none ∧ tHartGo.sched = [] ∧ tHartGo.allMoves = [.hart 1])
    ∧ (let s : State := { State.reset with agenda := [{ ev := .heartbeatSend, arg := .n2 1 0 }] }
       s.turn = .choose ∧ s.clockDue = some 0) := by decide +kernel

theorem wit_ExecIsTotal : tMem.strand tMem.cur ≠ none ∧ tMem.curHart < 4 := by decide +kernel

theorem wit_MemoryStaysCanonical : memoryWf tTurn.mem = true ∧ (match step tTurn with
    | .next t => memoryWf t.mem
    | _ => false) = true := by decide +kernel

theorem wit_TablesStayKeyed : Assoc.sorted tTurn.strands = true ∧ (∀ kv ∈ tTurn.strands, kv.2.sk = kv.1) ∧ Named tTurn
    ∧ (match step tTurn with
      | .next t => decide (Named t) && Assoc.sorted t.strands && t.strands.all fun kv => kv.2.sk == kv.1
      | _ => false) = true := by decide +kernel

/-! ### Words of the opcode table

Each word is written out from the encoding of its row (R83 to R95, R358 and the row's own rule), every field with a value of
its own. -/

def reads (l : List (Nat × Nat × Instr)) : Bool := l.all fun x => decodeTableWord x.1 x.2.1 == some x.2.2

theorem test_decode_add_to_sar : reads
  [(32, 0xE0B373C0, .add 22 13 25 7), (32, 0xE0B373C1, .sub 22 13 25 7), (32, 0xE0B373C2, .mul 22 13 25 7),
   (32, 0xE0B373C3, .mulh 22 13 25 7), (32, 0xE0B373C4, .mulhu 22 13 25 7), (32, 0xE0B373C5, .div 22 13 25 7),
   (32, 0xE0B373C6, .divu 22 13 25 7), (32, 0xE0B373C7, .rem 22 13 25 7), (32, 0xE0B373C8, .remu 22 13 25 7),
   (32, 0xE0B373C9, .and 22 13 25 7), (32, 0xE0B373CA, .or 22 13 25 7), (32, 0xE0B373CB, .xor 22 13 25 7),
   (32, 0xE0B373CC, .andn 22 13 25 7), (32, 0xE0B373CD, .shl 22 13 25 7), (32, 0xE0B373CE, .shr 22 13 25 7),
   (32, 0xE0B373CF, .sar 22 13 25 7)] = true := by decide +kernel

theorem test_decode_ror_to_subCompact : reads
  [(32, 0xE0B373D0, .ror 22 13 25 7), (32, 0xE0B373D1, .min 22 13 25 7), (32, 0xE0B373D2, .max 22 13 25 7),
   (32, 0xE0B373D3, .minu 22 13 25 7), (32, 0xE0B373D4, .maxu 22 13 25 7), (32, 0xE0B34055, .clz 22 13 1),
   (32, 0xE0B34056, .ctz 22 13 1), (32, 0xE0B34057, .popc 22 13 1), (32, 0xE0B34058, .bswap 22 13 1),
   (32, 0xE0B345D9, .sext 22 13 2 7), (32, 0xE0B343DA, .zext 22 13 1 7), (32, 0xE0B373DB, .addw 22 13 25 7),
   (32, 0xE0B3405F, .mov 22 13 1), (16, 0x02CD, .movCompact 22 13), (16, 0x06CD, .addCompact 22 13),
   (16, 0x0ACD, .subCompact 22 13)] = true := by decide +kernel

theorem test_decode_andCompact_to_limCompact : reads
  [(16, 0x0ECD, .andCompact 22 13), (16, 0x12CD, .orCompact 22 13), (16, 0x16CD, .xorCompact 22 13),
   (16, 0x1ACD, .shlCompact 22 13), (16, 0x1ECD, .shrCompact 22 13), (32, 0xE1B342D2, .addi 22 13 722),
   (16, 0x36D2, .addiCompact 22 210), (32, 0xE1B352D2, .andi 22 13 722), (32, 0xE1B362D2, .ori 22 13 722),
   (32, 0xE1B372D2, .xori 22 13 722), (32, 0xE2B34012, .shli 22 13 18), (32, 0xE2B35012, .shri 22 13 18),
   (32, 0xE2B36012, .sari 22 13 18), (32, 0xE2B37012, .rori 22 13 18), (32, 0xE3B2D2D2, .lim 22 185042),
   (16, 0x56D2, .limCompact 22 210)] = true := by decide +kernel

theorem test_decode_lis_to_fcle : reads
  [(32, 0xE4B2D2D2, .lis 22 1 53970), (32, 0xE53373C0, .ceq 6 13 25 7), (32, 0xE53373C1, .cne 6 13 25 7),
   (32, 0xE53373C2, .clt 6 13 25 7), (32, 0xE53373C3, .cle 6 13 25 7), (32, 0xE53373C4, .cltu 6 13 25 7),
   (32, 0xE53373C5, .cleu 6 13 25 7), (32, 0xE53143C8, .pand 6 5 1 7), (32, 0xE53143C9, .por 6 5 1 7),
   (32, 0xE53143CA, .pxor 6 5 1 7), (32, 0xE531404B, .pnot 6 5 1), (32, 0xE533404C, .pfx 6 13 1),
   (32, 0xE5B1404D, .xfp 22 5 1), (32, 0xE53373F0, .fceq 6 13 25 7 1), (32, 0xE53373F1, .fclt 6 13 25 7 1),
   (32, 0xE53373F2, .fcle 6 13 25 7 1)] = true := by decide +kernel

theorem test_decode_fcun_to_fmul : reads
  [(32, 0xE53373F3, .fcun 6 13 25 7 1), (32, 0xE63342D2, .ceqi 6 13 722), (32, 0xE63352D2, .cnei 6 13 722),
   (32, 0xE63362D2, .clti 6 13 722), (32, 0xE63372D2, .cltui 6 13 722), (32, 0xE7D2D2D2, .br 6 1 185042),
   (16, 0x9AD2, .brCompact 6 1 210), (32, 0xE816D2D2, .call 22 53970), (32, 0xE8366800, .callr 22 13),
   (32, 0xE8768000, .alloc 22 1), (32, 0xE880B000, .jmpr 22), (32, 0xF6B002D2, .mfs 22 722),
   (32, 0xF605A2D2, .mts 22 722), (32, 0xF8B373E0, .fadd 22 13 25 7 1), (32, 0xF8B373E1, .fsub 22 13 25 7 1),
   (32, 0xF8B373E2, .fmul 22 13 25 7 1)] = true := by decide +kernel

theorem test_decode_ffma_to_ldHu : reads
  [(32, 0xF8B373E3, .ffma 22 13 25 7 1), (32, 0xF8B373E4, .fdiv 22 13 25 7 1), (32, 0xF8B34065, .fsqrt 22 13 1 1),
   (32, 0xF8B373E6, .fmin 22 13 25 7 1), (32, 0xF8B373E7, .fmax 22 13 25 7 1), (32, 0xF8B34068, .fabs 22 13 1 1),
   (32, 0xF8B34069, .fneg 22 13 1 1), (32, 0xF8B347EA, .fcvti 22 13 3 7 1), (32, 0xF8B345EB, .fcvtf 22 13 2 7 1),
   (32, 0xF8B3406C, .fcvtw 22 13 1 1), (32, 0xF8B347ED, .fcvtb 22 13 3 7 1), (32, 0xF8B3406E, .fclass 22 13 1 1),
   (32, 0xE9B342D2, .ldB 22 13 722), (32, 0xE9B34AD2, .ldBu 22 13 722), (32, 0xE9B352D2, .ldH 22 13 722),
   (32, 0xE9B35AD2, .ldHu 22 13 722)] = true := by decide +kernel

theorem test_decode_ldW_to_ldsD : reads
  [(32, 0xE9B362D2, .ldW 22 13 722), (32, 0xE9B36AD2, .ldWu 22 13 722), (32, 0xE9B372D2, .ldD 22 13 722),
   (16, 0x6B35, .ldDCompact 22 13 1), (32, 0xEAB342D2, .stB 22 13 722), (32, 0xEAB34AD2, .stH 22 13 722),
   (32, 0xEAB352D2, .stW 22 13 722), (32, 0xEAB35AD2, .stD 22 13 722), (16, 0x7B35, .stDCompact 22 13 1),
   (32, 0xFAB342D2, .ldsB 22 13 722), (32, 0xFAB34AD2, .ldsBu 22 13 722), (32, 0xFAB352D2, .ldsH 22 13 722),
   (32, 0xFAB35AD2, .ldsHu 22 13 722), (32, 0xFAB362D2, .ldsW 22 13 722), (32, 0xFAB36AD2, .ldsWu 22 13 722),
   (32, 0xFAB372D2, .ldsD 22 13 722)] = true := by decide +kernel

theorem test_decode_chk_to_tlend : reads
  [(32, 0xFBB2D2D2, .chk 22 185042), (32, 0xEBB34041, .sld 22 13 1 1), (32, 0xEB059A46, .sst 22 13 1 2),
   (32, 0xEBB373CB, .aadd 22 13 25 7 3), (32, 0xEBB373CF, .aswap 22 13 25 7 3), (32, 0xEBB373D3, .acas 22 13 25 7 3),
   (32, 0xEBB373D7, .aand 22 13 25 7 3), (32, 0xEBB373DB, .aor 22 13 25 7 3), (32, 0xEBB373DF, .axor 22 13 25 7 3),
   (32, 0xEBB373E3, .amax 22 13 25 7 3), (32, 0xEBB373E7, .amin 22 13 25 7 3), (32, 0xEBB373EB, .amaxu 22 13 25 7 3),
   (32, 0xEBB373EF, .aminu 22 13 25 7 3), (32, 0xEC000192, .fence 6 4 2), (32, 0xEC058160, .flushr 22 5),
   (32, 0xED059A40, .tlend 22 13 1)] = true := by decide +kernel

theorem test_decode_tret_to_vmin : reads
  [(32, 0xED058141, .tret 22 5), (32, 0xED059A42, .tgive 22 13 1), (32, 0xEDB373C3, .tsplit 22 13 25 7),
   (32, 0xED059A44, .tshare 22 13 1), (32, 0xED058145, .tjoin 22 5), (32, 0xEDB34046, .tqry 22 13 1),
   (32, 0xEDB373C7, .twait 22 13 25 7), (32, 0xED058148, .tseal 22 5), (32, 0xED058149, .tunseal 22 5),
   (32, 0xED05814A, .tclr 22 5), (32, 0xEDB3404B, .tclaim 22 13 1), (32, 0xEE3353C0, .vadd 6 13 9 7),
   (32, 0xEE3353C1, .vsub 6 13 9 7), (32, 0xEE3353C2, .vmul 6 13 9 7), (32, 0xEE3353C3, .vfma 6 13 9 7),
   (32, 0xEE3353C4, .vmin 6 13 9 7)] = true := by decide +kernel

theorem test_decode_vmax_to_vperm : reads
  [(32, 0xEE3353C5, .vmax 6 13 9 7), (32, 0xEE334046, .vabs 6 13 1), (32, 0xEE334047, .vneg 6 13 1),
   (32, 0xEE3353C8, .vand 6 13 9 7), (32, 0xEE3353C9, .vor 6 13 9 7), (32, 0xEE3353CA, .vxor 6 13 9 7),
   (32, 0xEE3373CB, .vshl 6 13 25 7), (32, 0xEE3373CC, .vshr 6 13 25 7), (32, 0xEE3343CD, .vcvt 6 13 1 7),
   (32, 0xEE3373CE, .vscl 6 13 25 7), (32, 0xEE33404F, .vreds 6 13 1), (32, 0xEE3343D0, .vredm 6 13 1 7),
   (32, 0xEE334051, .vbc 6 13 1), (32, 0xEEB34FD2, .vext 22 13 7 7), (32, 0xEE334DD3, .vins 6 13 6 7),
   (32, 0xEE3353D4, .vperm 6 13 9 7)] = true := by decide +kernel

theorem test_decode_vsel_to_vlds : reads
  [(32, 0xEE3353D5, .vsel 6 13 9 7), (32, 0xEE3353D6, .vcmpeq 6 13 9 7), (32, 0xEEEA4ED6, .vcmpeqPred 1 5 9 7 3),
   (32, 0xEE3353D7, .vcmplt 6 13 9 7), (32, 0xEEEA4ED7, .vcmpltPred 1 5 9 7 3), (32, 0xEE3353D8, .vcmple 6 13 9 7),
   (32, 0xEEEA4ED8, .vcmplePred 1 5 9 7 3), (32, 0xEE334059, .viota 6 13 1), (32, 0xEE33405A, .vrnd 6 13 1),
   (32, 0xEE01815B, .vdgst 6 5), (32, 0xEE33405C, .vfmt 6 13 1), (32, 0xEE33405D, .vmov 6 13 1),
   (32, 0xEE33405E, .vdesc 6 13 1), (32, 0xEF3342D2, .vld 6 13 722), (32, 0xEFEE4AD2, .vst 1 13 25 722),
   (32, 0xEF3352D2, .vlds 6 13 722)] = true := by decide +kernel

theorem test_decode_vsts_to_qrd : reads
  [(32, 0xEF335AD2, .vsts 6 13 722), (32, 0xF0A64EC0, .mma 2 4 25 7 3), (32, 0xF0A00041, .mzero 2 4 1),
   (32, 0xF0A641C2, .mld 2 4 25 7), (32, 0xF0A642C3, .mst 2 4 25 1 3), (32, 0xF0A64EC4, .msnap 2 4 25 7 3),
   (32, 0xF0A00045, .mwait 2 4 1), (16, 0xA814, .mwaitCompact 2 4), (32, 0xF0A033C6, .mstat 2 4 25 7),
   (32, 0xF0A00047, .mcanc 2 4 1), (32, 0xF0A00048, .mres 2 4 1), (32, 0xF9B34040, .rndk 22 13 1),
   (32, 0xF9058141, .dgst 22 5), (32, 0xF13373C0, .qbind 6 13 25 7), (32, 0xF1000D41, .qunb 6 5),
   (32, 0xF1B00A42, .qrd 22 5 1)] = true := by decide +kernel

theorem test_decode_qrdCompact_to_coll : reads
  [(16, 0xCCD0, .qrdCompact 6 13), (32, 0xF1058A43, .qwr 22 5 1), (16, 0xDCD0, .qwrCompact 6 13),
   (32, 0xF1300A44, .qpoll 6 5 1), (32, 0xF1B00A45, .qstat 22 5 1), (32, 0xF2059A60, .send 22 13 1 4),
   (32, 0xF2DB73D9, .sendr 27 13 25 7 3), (32, 0xF2002D62, .reply 22 5 4), (32, 0xF2000183, .hret 6),
   (32, 0xF2058144, .hmask 22 5), (32, 0xF2058145, .hunm 22 5), (32, 0xF2059A46, .hset 22 13 1),
   (32, 0xF3234040, .cpy 4 13 1), (32, 0xF31B4041, .gath 3 13 1), (32, 0xF3134042, .scat 2 13 1),
   (32, 0xF30B4043, .coll 1 13 1)] = true := by decide +kernel

theorem test_decode_node_to_swin : reads
  [(32, 0xF3B373C4, .node 22 13 25 7), (32, 0xF3B34045, .ewt 22 13 1), (32, 0xF3B34046, .echk 22 13 1),
   (32, 0xF3058147, .edec 22 5), (32, 0xF4B373C0, .spawn 22 13 25 7), (32, 0xF4058141, .migr 22 5),
   (32, 0xF4B34042, .steal 22 13 1), (32, 0xF4000183, .yield 6), (32, 0xF4000184, .endStrand 6),
   (32, 0xF4058145, .gang 22 5), (32, 0xF4058146, .bar 22 5), (16, 0xA716, .barCompact 22),
   (32, 0xF5B373C0, .sopen 22 13 25 7), (32, 0xF5058141, .sclose 22 5), (32, 0xF5058142, .scanc 22 5),
   (32, 0xF5058143, .swin 22 5)] = true := by decide +kernel

theorem test_decode_shld_to_retCompact : reads
  [(32, 0xF5000184, .shld 6), (32, 0xF5000185, .sunsh 6), (32, 0xF5000186, .cpt 6),
   (32, 0xF5B343C7, .sres 22 13 1 7), (32, 0xF7000180, .nop 6), (32, 0xF7058141, .pause 22 5),
   (16, 0xA116, .pauseCompact 22), (32, 0xF7058142, .trap 22 5), (32, 0xF7000183, .eret 6),
   (32, 0xF7058144, .sleep 22 5), (32, 0x01668C8B, .krf 22 13 25), (32, 0x01669C8B, .kbfx 22 13 25),
   (32, 0x000B268B, .kswt 22 13), (32, 0x0166BC8B, .kdsp 22 13 25), (32, 0xE8400000, .ret), (16, 0xA300, .retCompact)] = true := by decide +kernel

theorem test_decode_hretCompact_to_nopCompact : reads
  [(16, 0xA500, .hretCompact), (16, 0xA600, .yieldCompact), (16, 0xA400, .endCompact), (16, 0xA200, .cptCompact),
   (16, 0xA000, .nopCompact)] = true := by decide +kernel

/-! ### Well-formedness: one term that each check refuses, and what stands at its limit -/

theorem test_illFormed : ([.sext 1 2 3 0, .zext 1 2 3 0, .movCompact 0 0, .br 0 1 5, .brCompact 0 1 5, .fcvti 1 2 4 0 0, .fcvtf 1 2 4 0 0, .fcvtb 1 2 4 0 0,
    .sld 1 2 0 2, .sst 1 2 0 1, .fence 0 5 0, .vext 1 2 9 0, .vins 1 2 8 0, .mma 3 2 1 2 0, .mzero 1 3 0, .mld 2 5 1 0, .mst 3 6 1 0 0, .msnap 1 7 1 2 0,
    .mwait 3 1 0, .mwaitCompact 1 1, .mstat 2 3 1 0, .mcanc 3 5 0, .mres 1 5 0, .send 1 2 0 0, .send 1 2 0 5, .sendr 28 1 2 0 1, .sendr 0 1 31 0 2,
    .reply 29 0 4, .cpy 5 1 0, .gath 6 1 0, .scat 7 1 0, .coll 5 1 0] : List Instr).all (fun i => !i.wellFormed) = true := by decide +kernel

theorem test_wellFormed_at_limits : ([.sext 1 2 2 0, .movCompact 0 1, .br 0 0 5, .br 1 1 5, .fcvti 1 2 3 0 0, .sld 1 2 0 1, .sst 1 2 0 2, .fence 7 4 3, .vext 1 2 8 0,
    .vins 1 2 7 0, .mma 3 4 1 2 0, .mzero 1 6 0, .mwaitCompact 0 7, .send 1 28 0 4, .sendr 27 1 31 0 1, .cpy 4 1 0] : List Instr).all (·.wellFormed) = true := by
  decide +kernel

/-- R92, R94, R95: reserved fields, majors and operand values are refused: SEXT with width 3, NOP with a bit of its unused fields,
a compact MOV of x0 to itself, an unassigned major, MMA with a group that does not start at its accumulator. -/
theorem test_refused_words : ([(32, 0xE008861A), (32, 0xF5080010), (16, 0x0000), (32, 0xFF000000), (32, 0xF0C88600)] : List (Nat × Nat)).all
    (fun x => (decodeTableWord x.1 x.2).isNone) = true := by decide +kernel

/-! ### Single steps; what is expected is the manual's own example, or its rule worked out by hand -/

def regs (s : State) (st : Strand) (i : Instr) (r : Nat) : Option RegEntry :=
  match exec i { s with strands := [(st.sk, st)] } with
  | .next t => (t.strand s.cur).map (·.x r)
  | _ => none

/-- Window registers x0, x1, … of a strand with W = 0 and s = 20. -/
def tX (l : List Word) : Strand := { tSt with w := 0, stack := l.mapIdx (fun k v => (k, { val := v })) }

/-- R79: −2^63 / −1, a division by zero, −7 / 2 and its remainder. -/
theorem test_div : [regs tS (tX [0x8000000000000000, -1, 0, -7, 2]) (.div 9 0 1 0) 9, regs tS (tX [0x8000000000000000, -1, 0, -7, 2]) (.div 9 4 2 0) 9,
    regs tS (tX [0x8000000000000000, -1, 0, -7, 2]) (.div 9 3 4 0) 9, regs tS (tX [0x8000000000000000, -1, 0, -7, 2]) (.rem 9 3 4 0) 9]
    = [some { val := 0x8000000000000000 }, some { val := -1 }, some { val := -3 }, some { val := -1 }] := by decide +kernel

/-- R115: a shift amount is taken modulo 64; MULH of −1 by −1; a source that is also the destination. -/
theorem test_alu : [regs tS (tX [-1, 65]) (.shl 0 0 1 0) 0, regs tS (tX [-1, 65]) (.sar 2 0 1 0) 2, regs tS (tX [-1, 65]) (.mulh 2 0 0 0) 2, regs tS (tX [-1, 65]) (.shr 1 0 1 0) 1]
    = [some { val := -2 }, some { val := -1 }, some { val := 0 }, some { val := 0x7FFFFFFFFFFFFFFF }] := by decide +kernel

/-- R119: LIM with #-32768, the manual's example; LIS keeps the other slots. -/
theorem test_lim : [regs tS (tX [0]) (.lim 1 (-32768)) 1, regs tS (tX [0, 0xB68F]) (.lis 1 1 0x7D24) 1] = [some { val := 0xFFFFFFFFFFFF8000 }, some { val := 0x7D24B68F }] := by
  decide +kernel

/-- R140: FCLASS.s of 0x00000001 gives 0x20. R137: the sum 21 of the worked example as FP64. -/
theorem test_float : [regs tS (tX [1, 21]) (.fclass 2 0 0 0) 2, regs tS (tX [1, 21]) (.fcvtf 2 1 2 0 1) 2] = [some { val := 0x20 }, some { val := 0x4035000000000000 }] := by decide +kernel

/-- R127: with W = 40 and s = 12, CALL with n = 8 makes the caller's x8 the callee's x0, of four names. -/
theorem test_call : (match exec (.call 8 16) (withStrand { tSt with w := 40, s := 12, groups := [(5, 0), (6, 1)], stack := [(48, { val := 6 })] }) with
    | .next t => (t.strand 0).map fun x => (x.w, x.s, (x.x 0).val, x.links, x.pc)
    | _ => none) = some (48, 4, 6, [⟨false, 12, 8, 104⟩], 132) := by decide +kernel

/-- R77: the lanes 1, 2^24, 1, −2^24 sum to 1, with INEXACT. -/
def tLanes : Strand := { tSt with vset := true, vregs := [(0, { data := 0x3F800000 + 0x4B800000 * 2 ^ 32 + 0x3F800000 * 2 ^ 64 + 0xCB800000 * 2 ^ 96, desc := 1 })] }

theorem test_vreds : (match exec (.vreds 1 0 0) (withStrand tLanes) with
    | .next t => (t.strand 0).map fun x => ((x.v 1).data, (x.v 1).desc, x.fflags)
    | _ => none) = some (0x3F800000, 1, 16) := by decide +kernel

/-- R196: the byte 0xFF of a vault's word, loaded signed and unsigned. -/
theorem test_load : [regs { tMem with mem := [(vaultKey 0 0x1000, 0xFF)] } tMS (.ldB 9 0 0) 9, regs { tMem with mem := [(vaultKey 0 0x1000, 0xFF)] } tMS (.ldBu 9 0 0) 9]
    = [some { val := -1 }, some { val := 0xFF }] := by decide +kernel

/-- R187, R308: an LD.D at an address that is no multiple of 8 raises ALIGN; the handler runs in eight new registers. -/
theorem test_align : (match exec (.ldD 1 0 0) (tTraps { tMS with stack := [(3, { val := 0x000C000000001004 })] }) with
    | .next t => (t.strand 0).map fun x => (x.w, x.s, x.pc, x.trappc, x.trapva, x.trapcode.setWidth 8 == faultCode .align)
    | _ => none) = some (23, 8, 0x40, 100, 0x000C000000001004, true) := by decide +kernel

/-- R209: TGIVE takes the owner's right at once. -/
theorem test_tgive : (match exec (.tgive 5 3 0) tMem with
    | .next t => (t.token ⟨0, 0x10000, 12⟩ 0).map fun k => (k.giving, k.holdsFull tMS.parties)
    | _ => none) = some (true, false) := by decide +kernel

/-- R361: KBFX of eight bits from bit 4. -/
theorem test_kbfx : (match exec (.kbfx 6 5 7) { tMem with kiln := { harts := [(0, { regs := [(5, 0xABCD), (6, 0x804)] })] } } with
    | .next t => (t.hart 0).reg 7
    | _ => 0) = 0xBC := by decide +kernel

/-- R356: a command outside the table of R355 completes with BAD_COMMAND and its TAG. -/
theorem test_badCommand : (match exec .powerCap (tArg tMem (.host (tHost 8 [999]) 0)) with
    | .next t => (t.word (2 ^ 64 + 2 ^ 45), t.word (2 ^ 64 + 2 ^ 45 + 8), t.powerCap)
    | _ => (0, 0, 0)) = (0x800A000000000000, 7, 2300) := by decide +kernel

/-- From reset the power-on sequence finds no valid slot and the module enters recovery (R365). -/
theorem test_reset_step : (match step State.reset with
    | .next t => (t.kiln.mode, t.kiln.cause)
    | _ => (0, 0)) = (2, 1) := by decide +kernel

/-- An instruction placed by the host's probe is the first to run after reset. -/
theorem test_withFetchWord : (match step (State.reset.withFetchWord 32 0xE308B68F) with
    | .next t => (t.strand 0).map fun x => (x.x 1).val
    | _ => none) = some 0xB68F := by decide +kernel

/-- R354: a hart runs RV64 base instructions from the SRAM: addi x5, x0, 7 (0x00700293). -/
def tHartAt (w : List (Nat × Byte)) (regs : Assoc Word) : State :=
  { State.reset with agenda := [], turn := .hart 1, mem := w, kiln := { mode := 1, harts := [(1, { regs := regs })] } }

theorem test_hart_addi :
    (let t := okState (step (tHartAt [(2 ^ 68, 0x93), (2 ^ 68 + 1, 0x02), (2 ^ 68 + 2, 0x70)] []))
     (t.hart 1).reg 5 = 7 ∧ (t.hart 1).pc = 4) := by decide +kernel

/-- A word of zeros is no instruction: the exception of cause 2, with the word in mtval. -/
theorem test_hart_illegal :
    (let t := okState (step (tHartAt [] [(5, 1)]))
     (t.hart 1).mcause = 2 ∧ (t.hart 1).mepc = 0 ∧ (t.hart 1).mtval = 0) := by decide +kernel

end Sys2Proof.Tests
end

/-! What every operation of the machine keeps: one lemma per operation, in the order of the model's files, each by the
operations it calls. It ends in two facts: every step keeps the shape of the state (`KeepsOut.move`), and every instruction
has its meaning in one of few ways (`means_exec`), from which the obligations on all instructions follow. -/
namespace Sys2Proof.Machine

open Sys2Proof.Claims (Slots Named)

/-- From `s₀` to `s` the state keeps its shape: memory in canonical form stays so, strands stay in their own slots, scope
control blocks under their identifiers. -/
structure Keeps (s₀ s : State) : Prop where
  mem : memoryWf s₀.mem = true → memoryWf s.mem = true
  slots : Slots s₀ → Slots s
  named : Named s₀ → Named s

/-- An action that starts in a state of the same shape leaves one, whether it goes on or stops. -/
def KeepsFrom {α : Type} (s₀ : State) (a : Act α) : Prop := ∀ s, Keeps s₀ s → Keeps s₀ (a.go s).2

/-- The outcome is a next state, of the same shape. -/
def Answers (s₀ : State) (o : Out) : Prop := ∃ t, o = .next t ∧ Keeps s₀ t

/-- Where the outcome is a next state, it has the same shape. -/
def KeepsOut (s₀ : State) (o : Out) : Prop := ∀ t, o = .next t → Keeps s₀ t

/-! ### Tables that the state keeps in shape -/

/-- In order, with every strand under its own key. -/
def KeyedStrands (l : Assoc Strand) : Prop := Assoc.sorted l = true ∧ ∀ kv ∈ l, kv.2.sk = kv.1

/-- Every scope control block under its identifier. -/
def KeyedScopes (l : Assoc Scb) : Prop := ∀ kv ∈ l, kv.2.id.toNat = kv.1

/-- A table keeps its order when its values change under their keys. -/
theorem Assoc.sorted_map {β γ : Type} {f : Nat × β → Nat × γ} (hf : ∀ kv, (f kv).1 = kv.1) {l : Assoc β}
    (h : Assoc.sorted l = true) : Assoc.sorted (l.map f) = true := by
  induction l with
  | nil => rfl
  | cons x rest ih =>
    obtain ⟨habove, hrest⟩ := Assoc.sorted_cons.1 h
    refine Assoc.sorted_cons.2 ⟨fun y hy => ?_, ih hrest⟩
    obtain ⟨z, hz, rfl⟩ := List.mem_map.1 hy
    simpa only [hf] using habove z hz

/-- In a table that is in order, a listed pair is what its key finds. -/
theorem Assoc.find_of_mem {β : Type} {l : Assoc β} (h : Assoc.sorted l = true) {kv : Nat × β} (hm : kv ∈ l) :
    l.find kv.1 = some kv.2 := by
  induction l with
  | nil => cases hm
  | cons x rest ih =>
    obtain ⟨habove, hrest⟩ := Assoc.sorted_cons.1 h
    rcases List.mem_cons.1 hm with rfl | hm
    · exact if_pos rfl
    · exact (if_neg (Nat.ne_of_gt (habove kv hm))).trans (ih hrest hm)

theorem slots_iff {s : State} : Slots s ↔ KeyedStrands s.strands :=
  ⟨fun ⟨ho, hk⟩ => ⟨ho, fun kv hkv => hk kv.1 kv.2 (Assoc.find_of_mem ho hkv)⟩,
   fun ⟨ho, hk⟩ => ⟨ho, fun k x hx => hk (k, x) (Assoc.find_mem hx)⟩⟩

theorem named_iff {s : State} : Named s ↔ KeyedScopes s.scopes := Iff.rfl

theorem KeyedStrands.nil : KeyedStrands [] := ⟨rfl, fun _ hkv => absurd hkv List.not_mem_nil⟩

theorem KeyedStrands.insert {l : Assoc Strand} {st : Strand} (h : KeyedStrands l) : KeyedStrands (l.insert st.sk st) :=
  ⟨Assoc.sorted_insert h.1, fun kv hkv => (Assoc.mem_insert hkv).elim (fun e => e ▸ rfl) (h.2 kv)⟩

theorem KeyedStrands.filter {l : Assoc Strand} {p : Nat × Strand → Bool} (h : KeyedStrands l) : KeyedStrands (l.filter p) :=
  ⟨Assoc.sorted_filter h.1, fun kv hkv => h.2 kv (List.mem_filter.1 hkv).1⟩

/-- Strands change in place, none of them its slot. -/
theorem KeyedStrands.map {l : Assoc Strand} (h : KeyedStrands l) {f : Nat × Strand → Nat × Strand}
    (hf : ∀ kv, (f kv).1 = kv.1 ∧ (f kv).2.sk = kv.2.sk) : KeyedStrands (l.map f) := by
  refine ⟨Assoc.sorted_map (fun kv => (hf kv).1) h.1, fun kv hkv => ?_⟩
  obtain ⟨y, hy, rfl⟩ := List.mem_map.1 hkv
  exact (hf y).2.trans ((h.2 y hy).trans (hf y).1.symm)

theorem KeyedScopes.nil : KeyedScopes [] := fun _ hkv => absurd hkv List.not_mem_nil

theorem KeyedScopes.insert {l : Assoc Scb} {b : Scb} (h : KeyedScopes l) : KeyedScopes (l.insert b.id.toNat b) :=
  fun kv hkv => (Assoc.mem_insert hkv).elim (fun e => e ▸ rfl) (h kv)

theorem KeyedScopes.erase {l : Assoc Scb} {k : Nat} (h : KeyedScopes l) : KeyedScopes (l.erase k) :=
  fun kv hkv => h kv (Assoc.erase_sub hkv)

/-- Blocks change in place, none of them its identifier. -/
theorem KeyedScopes.map {l : Assoc Scb} (h : KeyedScopes l) {f : Nat × Scb → Nat × Scb}
    (hf : ∀ kv, (f kv).1 = kv.1 ∧ (f kv).2.id = kv.2.id) : KeyedScopes (l.map f) := by
  intro kv hkv
  obtain ⟨y, hy, rfl⟩ := List.mem_map.1 hkv
  rw [(hf y).1, (hf y).2, h y hy]

section
variable {s₀ s t : State} {α β : Type}

/-! ### The rules of `Keeps` -/

theorem Keeps.refl (s : State) : Keeps s s := ⟨id, id, id⟩

/-- Keeping depends on memory, strands and scopes alone. -/
theorem Keeps.frame (h : Keeps s₀ s)
    {descs errs badTags seals cores lcores clusters engines links pairs tokens launches gangs images
      domains kept spares trans oldTrans pages pageAlloc pagesOn invalidations devwin hostSeq
      bellSeq cxlRanges unitLogs unitInject parts peers peerOut powerCap noAdmit supply powerOff
      cycle kiln ltimes stuck doneWords agenda outst served idleAt sched turn cur curHart arg fresh} :
    Keeps s₀ { s with
        descs, errs, badTags, seals, cores, lcores, clusters, engines, links, pairs, tokens, launches,
        gangs, images, domains, kept, spares, trans, oldTrans, pages, pageAlloc, pagesOn,
        invalidations, devwin, hostSeq, bellSeq, cxlRanges, unitLogs, unitInject, parts, peers,
        peerOut, powerCap, noAdmit, supply, powerOff, cycle, kiln, ltimes, stuck, doneWords, agenda,
        outst, served, idleAt, sched, turn, cur, curHart, arg, fresh } :=
  ⟨h.mem, h.slots, h.named⟩

/-- Memory, strands and scopes change to what is in shape when they were, the rest in any way. -/
theorem Keeps.update (h : Keeps s₀ s)
    {mem descs errs badTags seals strands cores lcores clusters engines links pairs tokens scopes
     launches gangs images domains kept spares trans oldTrans pages pageAlloc pagesOn invalidations
     devwin hostSeq bellSeq cxlRanges unitLogs unitInject parts peers peerOut powerCap noAdmit
     supply powerOff cycle kiln ltimes stuck doneWords agenda outst served idleAt sched turn cur
     curHart arg fresh}
    (hm : memoryWf s.mem = true → memoryWf mem = true) (hs : KeyedStrands s.strands → KeyedStrands strands)
    (hc : KeyedScopes s.scopes → KeyedScopes scopes) :
    Keeps s₀ {
        mem, descs, errs, badTags, seals, strands, cores, lcores, clusters, engines, links, pairs, tokens,
        scopes, launches, gangs, images, domains, kept, spares, trans, oldTrans, pages, pageAlloc,
        pagesOn, invalidations, devwin, hostSeq, bellSeq, cxlRanges, unitLogs, unitInject, parts,
        peers, peerOut, powerCap, noAdmit, supply, powerOff, cycle, kiln, ltimes, stuck, doneWords,
        agenda, outst, served, idleAt, sched, turn, cur, curHart, arg, fresh } where
  mem h0 := hm (h.mem h0)
  slots h0 := slots_iff.2 (hs (slots_iff.1 (h.slots h0)))
  named h0 := hc (h.named h0)

theorem Keeps.ite {c : Prop} [Decidable c] (hs : Keeps s₀ s) (ht : Keeps s₀ t) : Keeps s₀ (if c then s else t) := by
  split
  · exact hs
  · exact ht

theorem Keeps.foldl {f : State → β → State} {l : List β} (h : Keeps s₀ s)
    (hf : ∀ {s x}, Keeps s₀ s → Keeps s₀ (f s x)) : Keeps s₀ (l.foldl f s) := by
  induction l generalizing s with
  | nil => exact h
  | cons x rest ih => exact ih (hf h)

/-- A state that comes as a part of a pair. -/
theorem Keeps.of_fst {p : State × α} {a : α} (h : Keeps s₀ p.1) (e : p = (s, a)) : Keeps s₀ s := by subst e; exact h
theorem Keeps.of_snd {p : α × State} {a : α} (h : Keeps s₀ p.2) (e : p = (a, s)) : Keeps s₀ s := by subst e; exact h

/-- A fold over pairs of a state and something else. -/
theorem Keeps.foldlFst {f : State × α → β → State × α} {l : List β} {p : State × α} (h : Keeps s₀ p.1)
    (hf : ∀ {p x}, Keeps s₀ p.1 → Keeps s₀ (f p x).1) : Keeps s₀ (l.foldl f p).1 := by
  induction l generalizing p with
  | nil => exact h
  | cons x rest ih => exact ih (hf h)

theorem Keeps.foldlSnd {f : α × State → β → α × State} {l : List β} {p : α × State} (h : Keeps s₀ p.2)
    (hf : ∀ {p x}, Keeps s₀ p.2 → Keeps s₀ (f p x).2) : Keeps s₀ (l.foldl f p).2 := by
  induction l generalizing p with
  | nil => exact h
  | cons x rest ih => exact ih (hf h)

/-- An optional state, or else one of the same shape. -/
theorem Keeps.getD {o : Option State} (h : Keeps s₀ s) (ho : ∀ {t}, o = some t → Keeps s₀ t) : Keeps s₀ (o.getD s) := by
  cases o
  · exact h
  · exact ho rfl

theorem Keeps.fst (h : Keeps s₀ s) {a : α} : Keeps s₀ (s, a).1 := h
theorem Keeps.snd (h : Keeps s₀ s) {a : α} : Keeps s₀ (a, s).2 := h

/-! ### The rules of actions -/

theorem KeepsFrom.pure (a : α) : KeepsFrom s₀ (Pure.pure a : Act α) := fun _ h => h
theorem KeepsFrom.throw (e : Stop) : KeepsFrom s₀ (MonadExcept.throw e : Act α) := fun _ h => h
theorem KeepsFrom.raise (t : Trap) : KeepsFrom s₀ (Machine.raise t : Act α) := fun _ h => h
theorem KeepsFrom.holdFor (w : Wait) : KeepsFrom s₀ (Machine.holdFor w : Act α) := fun _ h => h
theorem KeepsFrom.set (h : Keeps s₀ t) : KeepsFrom s₀ (MonadStateOf.set t : Act PUnit) := fun _ _ => h
theorem KeepsFrom.modify {f : State → State} (hf : ∀ {s}, Keeps s₀ s → Keeps s₀ (f s)) :
    KeepsFrom s₀ (modifyThe State f : Act PUnit) := fun _ h => hf h

theorem KeepsFrom.liftT (e : Except Trap α) : KeepsFrom s₀ (Machine.liftT e) := by
  cases e
  · exact .raise _
  · exact .pure _

theorem KeepsFrom.bind {a : Act α} {f : α → Act β} (ha : KeepsFrom s₀ a) (hf : ∀ {x}, KeepsFrom s₀ (f x)) :
    KeepsFrom s₀ (a >>= f) := by
  intro s h
  have h' := ha s h
  rw [Act.go_bind]
  split
  · rename_i x s' e
    exact hf s' (h'.of_snd e)
  · rename_i x s' e
    exact h'.of_snd e

/-- What is read of the state has the same shape. -/
theorem KeepsFrom.get_bind {f : State → Act β} (hf : ∀ {s}, Keeps s₀ s → KeepsFrom s₀ (f s)) :
    KeepsFrom s₀ (MonadState.get >>= f) := by
  intro s h
  rw [Act.go_bind]
  exact hf h s h

theorem KeepsFrom.ite {c : Prop} [Decidable c] {a b : Act α} (ha : KeepsFrom s₀ a) (hb : KeepsFrom s₀ b) :
    KeepsFrom s₀ (if c then a else b) := by
  split
  · exact ha
  · exact hb

theorem KeepsFrom.mapM {f : α → Act β} {l : List α} (hf : ∀ {x}, KeepsFrom s₀ (f x)) : KeepsFrom s₀ (l.mapM f) := by
  induction l with
  | nil => exact .pure _
  | cons x rest ih =>
    rw [List.mapM_cons]
    exact .bind hf (.bind ih (.pure _))

theorem KeepsFrom.forM {f : α → Act PUnit} {l : List α} (hf : ∀ {x}, KeepsFrom s₀ (f x)) : KeepsFrom s₀ (l.forM f) := by
  induction l with
  | nil => exact .pure _
  | cons x rest ih => exact .bind hf ih

/-! ### The rules of outcomes -/

theorem Answers.next (h : Keeps s₀ s) : Answers s₀ (.next s) := ⟨s, rfl, h⟩

theorem Answers.ite {c : Prop} [Decidable c] {a b : Out} (ha : Answers s₀ a) (hb : Answers s₀ b) :
    Answers s₀ (if c then a else b) := by
  split
  · exact ha
  · exact hb

theorem Answers.keepsOut {o : Out} (h : Answers s₀ o) : KeepsOut s₀ o := by
  obtain ⟨t, rfl, ht⟩ := h
  rintro _ ⟨⟩
  exact ht

theorem KeepsOut.next (h : Keeps s₀ s) : KeepsOut s₀ (.next s) := (Answers.next h).keepsOut
theorem KeepsOut.fault (f : Fault) : KeepsOut s₀ (.fault f) := fun _ e => nomatch e
theorem KeepsOut.refused (r : Refusal) : KeepsOut s₀ (.refused r) := fun _ e => nomatch e

theorem KeepsOut.ite {c : Prop} [Decidable c] {a b : Out} (ha : KeepsOut s₀ a) (hb : KeepsOut s₀ b) :
    KeepsOut s₀ (if c then a else b) := by
  split
  · exact ha
  · exact hb

/-! ### The small updates of the state -/

theorem Keeps.setByte (h : Keeps s₀ s) {k b} : Keeps s₀ (s.setByte k b) := h.update memoryWf_put id id

theorem Keeps.setBytes (h : Keeps s₀ s) {k bs} : Keeps s₀ (s.setBytes k bs) := by
  induction bs generalizing s k with
  | nil => exact h
  | cons b rest ih => exact ih h.setByte

theorem Keeps.setStrand (h : Keeps s₀ s) {st} : Keeps s₀ (s.setStrand st) := h.update id .insert id
theorem Keeps.dropStrand (h : Keeps s₀ s) {k} : Keeps s₀ (s.dropStrand k) := h.update id .filter id
theorem Keeps.setScb (h : Keeps s₀ s) {b} : Keeps s₀ (s.setScb b) := h.update id id .insert

theorem Keeps.modStrand (h : Keeps s₀ s) {k f} : Keeps s₀ (s.modStrand k f) := by
  unfold State.modStrand
  split
  · exact h.setStrand
  · exact h

theorem Keeps.modScb (h : Keeps s₀ s) {k f} : Keeps s₀ (s.modScb k f) := by
  unfold State.modScb
  split
  · exact h.setScb
  · exact h

/-! ### Tables and the named places of the state (Maps.lean) -/

theorem Keeps.setCore (h : Keeps s₀ s) {pcore c} : Keeps s₀ (s.setCore pcore c) := h.frame

theorem Keeps.modCore (h : Keeps s₀ s) {pcore f} : Keeps s₀ (s.modCore pcore f) := h.setCore

theorem Keeps.modLCore (h : Keeps s₀ s) {l f} : Keeps s₀ (s.modLCore l f) := h.frame

theorem Keeps.modCluster (h : Keeps s₀ s) {c f} : Keeps s₀ (s.modCluster c f) := h.frame

theorem Keeps.workLeaves (h : Keeps s₀ s) {c} : Keeps s₀ (s.workLeaves c) := h.frame

theorem Keeps.modEngine (h : Keeps s₀ s) {e f} : Keeps s₀ (s.modEngine e f) := h.frame

theorem Keeps.modKiln (h : Keeps s₀ s) {f} : Keeps s₀ (s.modKiln f) := h.frame

theorem Keeps.modHart (h : Keeps s₀ s) {h' f} : Keeps s₀ (s.modHart h' f) := h.modKiln

theorem Keeps.push (h : Keeps s₀ s) {p} : Keeps s₀ (s.push p) := h.frame

theorem Keeps.send (h : Keeps s₀ s) {lane ev arg} : Keeps s₀ (s.send lane ev arg) := h.push

theorem Keeps.bulk (h : Keeps s₀ s) {src dst ev arg} : Keeps s₀ (s.bulk src dst ev arg) := h.push

theorem Keeps.leaves (h : Keeps s₀ s) {ev} : Keeps s₀ (s.leaves ev) := h.frame

theorem Keeps.after (h : Keeps s₀ s) {cycles ev arg} : Keeps s₀ (s.after cycles ev arg) := h.push

theorem Keeps.number (h : Keeps s₀ s) : Keeps s₀ s.number.2 := by
  unfold State.number
  exact .snd h.frame

theorem Keeps.freeWord (h : Keeps s₀ s) : Keeps s₀ s.freeWord.2 := by
  unfold State.freeWord
  exact .snd h.frame

theorem Keeps.reply (h : Keeps s₀ s) {sk h' n a} : Keeps s₀ (s.reply sk h' n a) := by
  unfold State.reply
  split
  · exact .ite h.setStrand h
  · exact h

/-! ### Bytes, words and blocks (Bytes.lean) -/

theorem Keeps.setDesc (h : Keeps s₀ s) {k d} : Keeps s₀ (s.setDesc k d) := h.frame

theorem Keeps.setErr (h : Keeps s₀ s) {k v} : Keeps s₀ (s.setErr k v) := h.frame

theorem Keeps.setLog (h : Keeps s₀ s) {a i e} : Keeps s₀ (s.setLog a i e) := by
  unfold State.setLog
  split
  · exact h.frame
  · exact h.modCore

theorem Keeps.logEvent (h : Keeps s₀ s) {a cluster kind addr synd ctx pasid keyid} :
    Keeps s₀ (s.logEvent a cluster kind addr synd ctx pasid keyid) := by
  unfold State.logEvent
  extract_lets _ _ s₁
  have hs₁ : Keeps s₀ s₁ := by
    unfold s₁
    split <;> exact h.setLog
  exact .ite hs₁.modCluster hs₁.modCluster

theorem Keeps.clearErrs (h : Keeps s₀ s) {k} : Keeps s₀ (s.clearErrs k) := .foldl h fun h₁ => h₁.setErr

theorem Keeps.setBlock (h : Keeps s₀ s) {k b d} : Keeps s₀ (s.setBlock k b d) := by
  unfold State.setBlock
  extract_lets s₁ s₂
  have hs₁ : Keeps s₀ s₁ := h.setBytes.clearErrs
  have hs₂ : Keeps s₀ s₂ := hs₁.frame
  split
  · exact .ite hs₂ hs₂.setDesc
  · exact hs₂

theorem Keeps.putSector (h : Keeps s₀ s) {c k b d} : Keeps s₀ (s.putSector c k b d) := by
  unfold State.putSector
  extract_lets s₁
  have hs₁ : Keeps s₀ s₁ := h.setBlock
  exact .ite hs₁.setBlock (.ite hs₁.frame hs₁)

theorem Keeps.readSector (h : Keeps s₀ s) {k c} : Keeps s₀ (s.readSector k c).1 := by
  unfold State.readSector
  extract_lets _ _ log fix _ _ s₁ s₂
  have hlog : ∀ {s kind sy}, Keeps s₀ s → Keeps s₀ (log s kind sy) := fun h₁ => h₁.logEvent
  have hfix : ∀ {s}, Keeps s₀ s → Keeps s₀ (fix s) := fun h₁ => h₁.setBytes.clearErrs
  have hs₁ : Keeps s₀ s₁ := hlog h.setBytes.clearErrs
  have hs₂ : Keeps s₀ s₂ := hlog (hfix h)
  split
  · exact .fst hs₁
  · split
    · exact .fst h
    · exact .fst hs₂
    · exact .fst (hlog h)
    · exact .fst (hlog h)
    · exact .fst (hlog (hfix h))

/-! ### Regions and the token directory (Regions.lean) -/

theorem Keeps.modToken (h : Keeps s₀ s) {r pasid f} : Keeps s₀ (s.modToken r pasid f) := by
  unfold State.modToken
  refine .ite h.frame ?_
  split
  · exact h.frame
  · exact h

theorem Keeps.dropToken (h : Keeps s₀ s) {r pasid} : Keeps s₀ (s.dropToken r pasid) := h.frame

/-! ### Reading and writing memory (Memory.lean) -/

theorem Keeps.coneFlits (h : Keeps s₀ s) {cluster scope n} : Keeps s₀ (s.coneFlits cluster scope n) := h.modCluster

theorem Keeps.injects (h : Keeps s₀ s) {cluster n} : Keeps s₀ (s.injects cluster n) := h.modCluster

theorem Keeps.countFlits (h : Keeps s₀ s) {cluster scope n} : Keeps s₀ (s.countFlits cluster scope n) :=
  h.coneFlits.injects

theorem Keeps.memReply (h : Keeps s₀ s) {key kind} : Keeps s₀ (s.memReply key kind) := .ite h h.injects

theorem Keeps.memPacket (h : Keeps s₀ s) {who key kind n} : Keeps s₀ (s.memPacket who key kind n) := by
  unfold State.memPacket
  extract_lets s₁
  have hs₁ : Keeps s₀ s₁ := h.countFlits.memReply
  exact .ite hs₁ hs₁.modStrand

theorem Keeps.vaultPacket (h : Keeps s₀ s) {who key kind n} : Keeps s₀ (s.vaultPacket who key kind n) :=
  .ite h h.memPacket

theorem Keeps.countSector (h : Keeps s₀ s) {cluster scope} : Keeps s₀ (s.countSector cluster scope) := h.modCluster

theorem Keeps.setLine (h : Keeps s₀ s) {pcore key l} : Keeps s₀ (s.setLine pcore key l) := h.modCore

theorem Keeps.dropLine (h : Keeps s₀ s) {pcore key} : Keeps s₀ (s.dropLine pcore key) := h.modCore

theorem Keeps.logLine (h : Keeps s₀ s) {pcore l w kind synd c} : Keeps s₀ (s.logLine pcore l w kind synd c) :=
  h.logEvent

theorem Keeps.writeBack (h : Keeps s₀ s) {pcore key l} : Keeps s₀ (s.writeBack pcore key l) := by
  unfold State.writeBack
  refine .ite h ?_
  extract_lets
  split
  · exact h.logLine.dropLine
  · exact h.putSector.countFlits.memReply.countSector.setLine

theorem Keeps.evict (h : Keeps s₀ s) {pcore key} : Keeps s₀ (s.evict pcore key) := by
  unfold State.evict
  split
  · exact h
  · exact h.writeBack.dropLine

theorem Keeps.makeRoom (h : Keeps s₀ s) {pcore} : Keeps s₀ (s.makeRoom pcore) := by
  unfold State.makeRoom
  split
  · exact .ite h.evict h
  · exact h

theorem KeepsFrom.readHome {key c} : KeepsFrom s₀ (readHome key c) := by
  unfold Machine.readHome
  refine .get_bind fun h₁ => .ite (.pure _) ?_
  split
  rename_i e
  refine .bind (.set (h₁.readSector.of_fst e)) fun {_} => ?_
  split
  · exact .pure _
  · exact .raise _

theorem KeepsFrom.answered {who va aux} : KeepsFrom s₀ (Who.answered who va aux) := by
  unfold Machine.Who.answered
  split
  · exact .raise _
  · exact .pure _

theorem KeepsFrom.vaultAnswered {who key va} : KeepsFrom s₀ (Who.vaultAnswered who key va) := by
  unfold Machine.Who.vaultAnswered
  exact .ite (.pure _) .answered

theorem KeepsFrom.placeAnswered {p who} : KeepsFrom s₀ (Place.answered p who) := by
  unfold Machine.Place.answered
  split
  · exact .vaultAnswered
  · exact .pure _

theorem KeepsFrom.lineFor {who key c ws} : KeepsFrom s₀ (lineFor who key c ws) := by
  unfold Machine.lineFor
  refine .get_bind fun h₁ => ?_
  extract_lets fill
  have hfill : KeepsFrom s₀ fill := by
    unfold fill
    refine .bind .answered fun {_} => .bind .readHome fun {_} => ?_
    split
    extract_lets
    exact .bind (.modify fun h₂ => h₂.makeRoom.memPacket.countSector.setLine.modStrand) (.pure _)
  split
  · exact hfill
  · split
    · exact .bind (.modify fun h₂ => h₂.setLine) (.pure _)
    · exact .bind (.modify fun h₂ => h₂.logLine.dropLine) (.ite (.raise _) hfill)

theorem KeepsFrom.readVault {key n va c} : KeepsFrom s₀ (readVault key n va c) := by
  unfold Machine.readVault
  refine .get_bind fun h₁ => ?_
  split
  · exact .pure _
  · extract_lets
    exact .bind (.modify fun h₂ => h₂.logEvent) (.raise _)

theorem Keeps.writeRaw (h : Keeps s₀ s) {key bs} : Keeps s₀ (s.writeRaw key bs) := by
  unfold State.writeRaw
  extract_lets s₁
  have hs₁ : Keeps s₀ s₁ := .foldl h fun h₁ => .ite h₁.setErr h₁
  exact hs₁.setBytes

theorem KeepsFrom.loadAt {who p n} : KeepsFrom s₀ (loadAt who p n) := by
  unfold Machine.loadAt
  split
  · extract_lets
    refine .ite (.bind .readHome fun {_} => ?_) (.bind .lineFor (.pure _))
    split
    exact .bind (.modify fun h₁ => h₁.memPacket.countSector) (.pure _)
  · exact .bind .vaultAnswered (.bind (.modify fun h₁ => h₁.vaultPacket) (.bind .readVault (.get_bind fun h₁ =>
      .pure _)))
  · refine .bind .readHome fun {_} => ?_
    split
    exact .bind (.modify fun h₁ => h₁.memPacket.countSector) (.pure _)
  · exact .pure _

theorem KeepsFrom.storeAt {who p bs d} : KeepsFrom s₀ (storeAt who p bs d) := by
  unfold Machine.storeAt
  split
  · extract_lets
    refine .ite (.bind (.modify fun h₁ => h₁.countSector) fun {_} => .ite (.modify fun h₁ => h₁.putSector) (.bind
      .readHome fun {_} => ?_)) (.ite (.get_bind fun h₁ => ?_) (.bind .lineFor (.modify fun h₁ => h₁.setLine)))
    · split
      exact .modify fun h₁ => h₁.putSector
    · extract_lets
      refine .modify fun h₂ => ?_
      extract_lets s₁
      have hs₁ : Keeps s₀ s₁ := .ite h₂ h₂.makeRoom
      exact hs₁.setLine
  · refine .bind .vaultAnswered fun {_} => .modify fun h₁ => ?_
    extract_lets s₁ s₂
    have hs₁ : Keeps s₀ s₁ := .ite h₁ h₁.vaultPacket
    have hs₂ : Keeps s₀ s₂ := hs₁.writeRaw
    split
    · exact .ite hs₂.setDesc hs₂
    · exact hs₂
  · extract_lets
    refine .bind .readHome fun {_} => ?_
    split
    exact .modify fun h₁ => h₁.memPacket.countSector.putSector
  · exact .pure _

theorem KeepsFrom.placeOf {who a va} : KeepsFrom s₀ (placeOf who a va) := by
  unfold Machine.placeOf
  refine .get_bind fun h₁ => ?_
  split
  · exact .pure _
  · exact .throw _

theorem Keeps.flushRegion (h : Keeps s₀ s) {pcore r pasid} : Keeps s₀ (s.flushRegion pcore r pasid) :=
  .foldl h fun h₁ => h₁.writeBack

theorem Keeps.invalidateRegion (h : Keeps s₀ s) {pcore r pasid} : Keeps s₀ (s.invalidateRegion pcore r pasid) :=
  h.modCore

theorem Keeps.invalidateAll (h : Keeps s₀ s) {r pasid flush} : Keeps s₀ (s.invalidateAll r pasid flush) :=
  .foldl h fun h₁ => .invalidateRegion (.ite h₁.flushRegion h₁)

theorem KeepsFrom.readRaw {ctx pasid key n} : KeepsFrom s₀ (readRaw ctx pasid key n) := by
  unfold Machine.readRaw
  refine .get_bind fun h₁ => .bind (.mapM (fun {_} => ?_)) (.pure _)
  extract_lets
  refine .ite .readVault (.bind .readHome fun {_} => ?_)
  split
  exact .pure _

theorem KeepsFrom.writeRawAt {ctx pasid key bs} : KeepsFrom s₀ (writeRawAt ctx pasid key bs) := by
  unfold Machine.writeRawAt
  refine .get_bind fun h₁ => .forM (fun {_} => ?_)
  extract_lets
  refine .ite (.modify fun h₂ => h₂.writeRaw) (.ite (.modify fun h₂ => h₂.putSector) (.bind .readHome fun {_} => ?_))
  split
  exact .modify fun h₂ => h₂.putSector

theorem KeepsFrom.keyAt {pasid va} : KeepsFrom s₀ (keyAt pasid va) := by
  unfold Machine.keyAt
  refine .get_bind fun h₁ => ?_
  split
  · exact .pure _
  · exact .raise _

theorem KeepsFrom.readVa {pasid va n} : KeepsFrom s₀ (readVa pasid va n) := by
  unfold Machine.readVa
  exact .bind (.mapM (.bind .keyAt .readRaw)) (.pure _)

theorem KeepsFrom.writeVa {pasid va bs} : KeepsFrom s₀ (writeVa pasid va bs) := by
  unfold Machine.writeVa
  exact .forM (.bind .keyAt .writeRawAt)

/-! ### A strand's registers (Window.lean) -/

theorem Keeps.logSecded (h : Keeps s₀ s) {st array addr two} : Keeps s₀ (s.logSecded st array addr two) := by
  unfold State.logSecded
  split
  rename_i e
  exact .logEvent (h.freeWord.of_snd e)

theorem Keeps.scrubX (h : Keeps s₀ s) {sk pos} : Keeps s₀ (s.scrubX sk pos) := by
  unfold State.scrubX
  split
  · exact h
  · extract_lets _ s₁
    have hs₁ : Keeps s₀ s₁ := h.logSecded
    exact .ite h (.ite hs₁ hs₁.setStrand)

theorem Keeps.scrubV (h : Keeps s₀ s) {sk v} : Keeps s₀ (s.scrubV sk v) := by
  unfold State.scrubV
  refine .foldl h fun h₁ => ?_
  split
  · exact h₁
  · extract_lets _ _ s₁
    have hs₁ : Keeps s₀ s₁ := h₁.logSecded
    exact .ite h₁ (.ite hs₁ hs₁.setStrand)

theorem Keeps.scrubTile (h : Keeps s₀ s) {st t'} : Keeps s₀ (s.scrubTile st t') := by
  unfold State.scrubTile
  refine .foldl h fun h₁ => ?_
  extract_lets s₁
  have hs₁ : Keeps s₀ s₁ := h₁.logSecded
  exact .ite hs₁ hs₁.modCore

theorem Keeps.bankStates (h : Keeps s₀ s) {pcore} : Keeps s₀ (s.bankStates pcore) := by
  unfold State.bankStates
  extract_lets
  refine .foldl h fun h₁ => ?_
  extract_lets _ _ _ _ _ _ _ s₁
  have hs₁ : Keeps s₀ s₁ := .ite h₁.after h₁
  exact hs₁.modCore

theorem Keeps.setMemBit (h : Keeps s₀ s) {base i b} : Keeps s₀ (s.setMemBit base i b) := by
  unfold State.setMemBit
  extract_lets
  exact h.setByte

theorem Keeps.spillGroup (h : Keeps s₀ s) {st g} : Keeps s₀ (s.spillGroup st g) := by
  unfold State.spillGroup
  extract_lets
  refine .foldl h fun h₁ => ?_
  extract_lets _ _ s₁ s₂
  have hs₁ : Keeps s₀ s₁ := h₁.scrubX
  have hs₂ : Keeps s₀ s₂ := hs₁.writeRaw
  exact hs₂.setMemBit.setMemBit

theorem Keeps.spillLinks (h : Keeps s₀ s) {st} : Keeps s₀ (s.spillLinks st) := by
  unfold State.spillLinks
  extract_lets _ _ s₁
  have hs₁ : Keeps s₀ s₁ := .foldl h fun h₁ => h₁.writeRaw
  exact hs₁.setStrand

theorem Keeps.fillLinks (h : Keeps s₀ s) {st} : Keeps s₀ (s.fillLinks st) := by
  unfold State.fillLinks
  extract_lets
  exact h.setStrand

theorem Keeps.startRoom (h : Keeps s₀ s) {st r} : Keeps s₀ (s.startRoom st r) := by
  unfold State.startRoom
  extract_lets s₁
  have hs₁ : Keeps s₀ s₁ := h.setStrand
  split
  · exact h.setStrand
  · exact h.setStrand
  · exact h.setStrand.after
  · exact h.setStrand.after
  · exact h.setStrand.after
  · exact h.setStrand.after

/-! ### The scope tree and the determinism modes (Scopes.lean) -/

theorem Keeps.report (h : Keeps s₀ s) {code fdom detail} : Keeps s₀ (s.report code fdom detail) := h.modKiln

theorem Keeps.complete (h : Keeps s₀ s) {compl tag deadline code close count result} :
    Keeps s₀ (s.complete compl tag deadline code close count result) := by
  unfold State.complete
  extract_lets _ _ put
  have hput : ∀ {s k bs}, Keeps s₀ s → Keeps s₀ (put s k bs) := fun h₁ => KeepsFrom.writeRawAt _ h₁
  exact hput (hput h)

theorem Keeps.signal (h : Keeps s₀ s) {bit} : Keeps s₀ (s.signal bit) := h.modHart

theorem Keeps.request (h : Keeps s₀ s) {scope lcore serial phase lane ev arg waits} :
    Keeps s₀ (s.request scope lcore serial phase lane ev arg waits) := by
  unfold State.request
  refine .ite ?_ h.push
  extract_lets
  exact h.frame

theorem Keeps.countPacket (h : Keeps s₀ s) {sk ev arg} : Keeps s₀ (s.countPacket sk ev arg) := by
  unfold State.countPacket
  split
  · extract_lets s₁
    have hs₁ : Keeps s₀ s₁ := .ite h h.countFlits
    exact hs₁.setStrand
  · exact h

theorem Keeps.requestOf (h : Keeps s₀ s) {st phase lane ev arg waits} :
    Keeps s₀ (s.requestOf st phase lane ev arg waits) := h.request.countPacket

theorem Keeps.requestFor (h : Keeps s₀ s) {st scope phase lane ev arg waits} :
    Keeps s₀ (s.requestFor st scope phase lane ev arg waits) := h.request.countPacket

theorem Keeps.peerRequest (h : Keeps s₀ s) {scope core ev} : Keeps s₀ (s.peerRequest scope core ev) := h.request

theorem Keeps.countAnswer (h : Keeps s₀ s) {lane ev arg} : Keeps s₀ (s.countAnswer lane ev arg) := by
  unfold State.countAnswer
  split
  · exact .ite h h.injects
  · exact h

theorem Keeps.deliver (h : Keeps s₀ s) {scope lane ev arg} : Keeps s₀ (s.deliver scope lane ev arg) :=
  h.request.countAnswer

theorem Keeps.cancelScope (h : Keeps s₀ s) {id} : Keeps s₀ (s.cancelScope id) := by
  unfold State.cancelScope
  refine .foldl h fun h₁ => .ite h₁ ?_
  extract_lets s₁
  have hs₁ : Keeps s₀ s₁ := h₁.modScb
  exact .foldl hs₁ fun h₂ => h₂.request

theorem Keeps.faultScope (h : Keeps s₀ s) {id code detail} : Keeps s₀ (s.faultScope id code detail) := by
  unfold State.faultScope
  extract_lets s₁
  have hs₁ : Keeps s₀ s₁ := h.modScb
  exact hs₁.cancelScope.report

theorem Keeps.winScope (h : Keeps s₀ s) {id w} : Keeps s₀ (s.winScope id w) := .ite h h.modScb.cancelScope

theorem Keeps.passTokens (h : Keeps s₀ s) {id parent} : Keeps s₀ (s.passTokens id parent) := h.frame

theorem Keeps.forgetScope (h : Keeps s₀ s) {id'} : Keeps s₀ (s.forgetScope id') := h.update id id .erase

theorem Keeps.launchLeaves (h : Keeps s₀ s) {l} : Keeps s₀ (s.launchLeaves l) :=
  .foldl h fun h₁ => .ite h₁.workLeaves h₁

theorem Keeps.closeScope (h : Keeps s₀ s) {b} : Keeps s₀ (s.closeScope b) := by
  unfold State.closeScope
  extract_lets s₁ s₂ s₃
  have hs₁ : Keeps s₀ s₁ := h.passTokens
  have hs₂ : Keeps s₀ s₂ := hs₁.forgetScope
  have hs₃ : Keeps s₀ s₃ := by
    unfold s₃
    split
    · extract_lets s₄
      have hs₄ : Keeps s₀ s₄ := hs₂.complete
      exact hs₄.frame.launchLeaves.signal
    · exact hs₂.deliver
  exact hs₃.send

theorem Keeps.homeReturn (h : Keeps s₀ s) {id w lost live} : Keeps s₀ (s.homeReturn id w lost live) := by
  unfold State.homeReturn
  split
  · exact h
  · extract_lets _ _ s₁
    have hs₁ : Keeps s₀ s₁ := h.setScb
    exact .ite hs₁.closeScope hs₁

theorem Keeps.returnWeight (h : Keeps s₀ s) {scope lcore serial w lost live} :
    Keeps s₀ (s.returnWeight scope lcore serial w lost live) := h.request

theorem Keeps.readLog (h : Keeps s₀ s) {scope} : Keeps s₀ (s.readLog scope) := by
  unfold State.readLog
  extract_lets
  refine .ite h (.foldl h fun h₁ => ?_)
  extract_lets
  exact .ite (KeepsFrom.readVa _ h₁) h₁

theorem Keeps.bumpLtime (h : Keeps s₀ s) {scope kind site} : Keeps s₀ (s.bumpLtime scope kind site) := by
  unfold State.bumpLtime
  extract_lets s₁
  have hs₁ : Keeps s₀ s₁ := h.readLog
  exact hs₁.frame.modScb

theorem Keeps.diverges (h : Keeps s₀ s) {scope} : Keeps s₀ (s.diverges scope) := h.readLog.send

theorem Keeps.logFull (h : Keeps s₀ s) {scope} : Keeps s₀ (s.logFull scope) := .ite h h.faultScope

theorem Keeps.logChoice (h : Keeps s₀ s) {scope kind cause site choice} :
    Keeps s₀ (s.logChoice scope kind cause site choice) := by
  unfold State.logChoice
  extract_lets
  refine .ite h.logFull ?_
  split
  · rename_i e
    exact .logFull ((KeepsFrom.writeVa _ h).of_snd e)
  · rename_i e
    extract_lets s₁
    have hs₁ : Keeps s₀ s₁ := .bumpLtime ((KeepsFrom.writeVa _ h).of_snd e)
    exact .ite hs₁.logFull hs₁

theorem Keeps.waitsTurn (h : Keeps s₀ s) {scope kind site choice again}
    (hagain : ∀ {s}, Keeps s₀ s → Keeps s₀ (again s)) :
    Keeps s₀ (s.waitsTurn scope kind site choice again) := by
  unfold State.waitsTurn
  split
  · exact .ite h.diverges (hagain h)
  · exact hagain h.frame

theorem Keeps.turnCame (h : Keeps s₀ s) {scope kind site choice} : Keeps s₀ (s.turnCame scope kind site choice) :=
  h.frame

theorem Keeps.ordered (h : Keeps s₀ s) {scope kind cause site choice again go}
    (hagain : ∀ {s}, Keeps s₀ s → Keeps s₀ (again s)) (hgo : ∀ {s}, Keeps s₀ s → Keeps s₀ (go s)) :
    Keeps s₀ (s.ordered scope kind cause site choice again go) := by
  unfold State.ordered
  refine .ite (hgo h.logChoice) (.ite ?_ (hgo h))
  split
  · exact h.diverges
  · exact .ite (hgo h.bumpLtime.turnCame) (.ite h.diverges (h.waitsTurn hagain))

theorem Keeps.polled (h : Keeps s₀ s) {scope kind site v} : Keeps s₀ (s.polled scope kind site v).1 := by
  unfold State.polled
  split
  · exact .fst h.logChoice
  · split
    · split
      · exact .fst h.bumpLtime
      · exact .fst h.diverges
    · exact .fst h

/-! ### Tokens at their homes (Tokens.lean) -/

theorem Keeps.releaseLines (h : Keeps s₀ s) {p r pasid} : Keeps s₀ (s.releaseLines p r pasid) := by
  unfold State.releaseLines
  split
  · exact h.flushRegion
  · exact h

theorem Keeps.acquireLines (h : Keeps s₀ s) {p r pasid} : Keeps s₀ (s.acquireLines p r pasid) := by
  unfold State.acquireLines
  split
  · exact h.flushRegion.invalidateRegion
  · exact h

theorem Keeps.dropOutst (h : Keeps s₀ s) {n} : Keeps s₀ (s.dropOutst n) := h.frame

theorem Keeps.recordGrant (h : Keeps s₀ s) {g} : Keeps s₀ (s.recordGrant g) := by
  unfold State.recordGrant
  split
  · exact h.dropOutst
  · split
    · exact h.dropOutst
    · extract_lets _ set forward
      have hset : ∀ {s t}, Keeps s₀ s → Keeps s₀ (set s t) := fun h₁ => h₁.modToken
      have hforward : ∀ {s next}, Keeps s₀ s → Keeps s₀ (forward s next) := fun h₁ => h₁.deliver
      refine .ite h.after (.ite (.dropOutst (hset h)) ?_)
      split
      · exact hforward (hset h)
      · split
        · extract_lets
          exact .dropOutst (hset h)
        · split
          · exact hforward (hset h)
          · exact .ite (.dropOutst (hset h)) (hforward (hset h))
      · exact hforward (hset h)
      · exact .dropOutst (hset h)
      · exact hforward (hset h)
      · exact .dropOutst (hset h)

theorem Keeps.grantArrives (h : Keeps s₀ s) {g} : Keeps s₀ (s.grantArrives g) := by
  unfold State.grantArrives
  split
  · exact h.dropOutst
  · extract_lets _ s₁ back
    have hs₁ : Keeps s₀ s₁ := h.acquireLines
    have hback : ∀ {g'}, Keeps s₀ (back g') := h.request
    refine .ite hs₁.modToken.dropOutst ?_
    split
    · split
      · exact .ite hback h.modToken.dropOutst
      · exact h.dropOutst
    · split
      · exact .ite hback h.modToken.dropOutst
      · exact h.dropOutst
    · exact hback
    · exact .ite hback hback

theorem Keeps.sendGrant (h : Keeps s₀ s) {kind r region pasid giver receiver scope lcore serial retired waits} :
    Keeps s₀ (s.sendGrant kind r region pasid giver receiver scope lcore serial retired waits) := by
  unfold State.sendGrant
  split
  rename_i e
  extract_lets s₁ s₂
  have hs₁ : Keeps s₀ s₁ := .releaseLines (h.number.of_snd e)
  have hs₂ : Keeps s₀ s₂ := hs₁.frame
  exact hs₂.request

theorem Keeps.returnTokens (h : Keeps s₀ s) {st} : Keeps s₀ (s.returnTokens st) := by
  unfold State.returnTokens
  extract_lets
  refine .foldl h fun h₁ => ?_
  extract_lets _ s₁
  have hs₁ : Keeps s₀ s₁ := .ite h₁.modToken.sendGrant h₁
  exact .foldl hs₁ fun h₂ => h₂.modToken.sendGrant

theorem Keeps.returnChannel
    (h : Keeps s₀ s) {lcore chan scope l} : Keeps s₀ (s.returnChannel lcore chan scope l) := by
  unfold State.returnChannel
  extract_lets
  exact .foldl h fun h₁ => .ite h₁.modToken.sendGrant h₁

theorem Keeps.parkTokens (h : Keeps s₀ s) {st} : Keeps s₀ (s.parkTokens st) := by
  unfold State.parkTokens
  extract_lets
  exact .foldl h fun h₁ => .ite h₁.releaseLines.modToken h₁

theorem Keeps.serveToken (h : Keeps s₀ s) {q r tok} : Keeps s₀ (s.serveToken q r tok).1 := by
  unfold State.serveToken
  extract_lets _ _ set owned _ s₁ _ _ _ _ s₂
  have hset : ∀ {f}, Keeps s₀ (set f) := h.modToken
  have hs₁ : Keeps s₀ s₁ := hset
  have hs₂ : Keeps s₀ s₂ := .foldl h fun h₁ => h₁.dropToken
  clear_value owned
  split
  · split
    · exact .fst h
    · split
      · exact .fst h
      · split
        · exact .fst h
        · exact .fst hs₁.frame
  · split
    · exact .fst h
    · split
      · exact .fst h
      · exact .fst hs₂.modToken
  · split
    · exact .fst h
    · split
      · exact .fst h
      · exact .fst hset.invalidateAll
  · split
    · exact .fst h
    · split
      · exact .fst h
      · exact .fst hset.invalidateAll
  · split
    · exact .fst h
    · exact .fst hset.acquireLines
  · split
    · exact .fst h
    · split
      · exact .fst hset.acquireLines
      · split
        · exact .fst hset.acquireLines
        · exact .fst h

theorem Keeps.tokenRequested (h : Keeps s₀ s) {n q} : Keeps s₀ (s.tokenRequested n q) := by
  unfold State.tokenRequested
  split
  · exact h
  · extract_lets answer
    have hanswer : ∀ {s a}, Keeps s₀ s → Keeps s₀ (answer s a) := fun h₁ => h₁.deliver
    split
    · exact hanswer h
    · refine .ite h.after ?_
      split
      · rename_i e
        exact hanswer (h.serveToken.of_fst e)
      · rename_i e
        exact hanswer (h.serveToken.of_fst e)

/-! ### Queue registers (Queues.lean) -/

theorem Keeps.setSavedQ (h : Keeps s₀ s) {n sv q b} : Keeps s₀ (s.setSavedQ n sv q b) := by
  unfold State.setSavedQ
  extract_lets
  exact h.modKiln

theorem Keeps.setPair (h : Keeps s₀ s) {p} : Keeps s₀ (s.setPair p) := h.frame

theorem Keeps.placeWord (h : Keeps s₀ s) {pair n right w} : Keeps s₀ (s.placeWord pair n right w) := by
  unfold State.placeWord
  refine .ite ?_ h.modLCore
  split
  · exact .ite h h.setPair
  · exact h

theorem Keeps.pump (h : Keeps s₀ s) {sk q} : Keeps s₀ (s.pump sk q) := by
  unfold State.pump
  split
  · exact h
  · split
    · exact h
    · refine .ite h (.ite h.setStrand ?_)
      extract_lets _ _ _ _ _ s₁ s₂
      have hs₁ : Keeps s₀ s₁ := h.setStrand
      have hs₂ : Keeps s₀ s₂ := .foldl hs₁ fun h₁ => h₁.requestOf
      exact .ite hs₂.requestOf hs₂

theorem Keeps.answerCredit (h : Keeps s₀ s) {fromCore h' n k nochan} :
    Keeps s₀ (s.answerCredit fromCore h' n k nochan) := by
  unfold State.answerCredit
  extract_lets
  exact h.deliver

theorem Keeps.grantWaiting (h : Keeps s₀ s) {sk q} : Keeps s₀ (s.grantWaiting sk q) := by
  unfold State.grantWaiting
  split
  · exact h
  · split
    · exact h
    · exact h.setStrand.answerCredit

theorem Keeps.grantSaved (h : Keeps s₀ s) {m q} : Keeps s₀ (s.grantSaved m q) := by
  unfold State.grantSaved
  split
  · exact h
  · split
    · exact h
    · exact h.setSavedQ.answerCredit

theorem Keeps.returnCredits (h : Keeps s₀ s) {n k} : Keeps s₀ (s.returnCredits n k) := by
  unfold State.returnCredits
  split
  · exact .foldl h.setStrand fun h₁ => h₁.grantWaiting
  · split
    · exact .foldl h.setSavedQ fun h₁ => h₁.grantSaved
    · exact h

theorem Keeps.leavePair (h : Keeps s₀ s) {b} : Keeps s₀ (s.leavePair b) := by
  unfold State.leavePair
  split
  · exact h
  · extract_lets
    exact .ite h.setPair h.frame

theorem Keeps.unbind (h : Keeps s₀ s) {sk q} : Keeps s₀ (s.unbind sk q) := by
  unfold State.unbind
  split
  · exact h
  · split
    · exact h
    · extract_lets s₁
      have hs₁ : Keeps s₀ s₁ := h.setStrand
      exact .ite hs₁.returnCredits (.ite (.foldl hs₁ fun h₁ => h₁.answerCredit) (.ite hs₁.leavePair hs₁))

theorem Keeps.breakTo (h : Keeps s₀ s) {pcore} : Keeps s₀ (s.breakTo pcore) :=
  h.update id (·.map fun _ => ⟨rfl, rfl⟩) id

theorem Keeps.breakPairs (h : Keeps s₀ s) {h'} : Keeps s₀ (s.breakPairs h') := h.frame

/-! ### How strands are born and end (Life.lean) -/

theorem Keeps.sendReply (h : Keeps s₀ s) {scope fromCore r} : Keeps s₀ (s.sendReply scope fromCore r) :=
  h.deliver.coneFlits

theorem Keeps.answerOwed (h : Keeps s₀ s) {st lcore status} : Keeps s₀ (s.answerOwed st lcore status) := by
  unfold State.answerOwed
  split
  · exact h.sendReply
  · exact h

theorem Keeps.refuse (h : Keeps s₀ s) {m cause} : Keeps s₀ (s.refuse m cause) := h.deliver

theorem Keeps.discardMsg (h : Keeps s₀ s) {m} : Keeps s₀ (s.discardMsg m) := by
  unfold State.discardMsg
  extract_lets s₁
  have hs₁ : Keeps s₀ s₁ := h.returnWeight
  exact .ite hs₁.sendReply hs₁

theorem Keeps.acceptMsg (h : Keeps s₀ s) {m} : Keeps s₀ (s.acceptMsg m) := .ite h h.deliver

theorem Keeps.setHandler (h : Keeps s₀ s) {lcore chan h'} : Keeps s₀ (s.setHandler lcore chan h') := h.modLCore

theorem Keeps.born (h : Keeps s₀ s) {sk st} : Keeps s₀ (s.born sk st) := by
  unfold State.born
  extract_lets _ _ _ _ _ s₁ _ _ s₂ s₃
  have hs₁ : Keeps s₀ s₁ := h.modCore
  have hs₂ : Keeps s₀ s₂ := hs₁.frame
  have hs₃ : Keeps s₀ s₃ := hs₂.setStrand.bankStates
  exact .ite hs₃.request hs₃

theorem Keeps.activate (h : Keeps s₀ s) {lcore sk h' m} : Keeps s₀ (s.activate lcore sk h' m) := by
  unfold State.activate
  extract_lets _ s₁ s₂
  have hs₁ : Keeps s₀ s₁ := h.setHandler
  have hs₂ : Keeps s₀ s₂ := hs₁.modScb
  exact hs₂.born

theorem Keeps.startFrom (h : Keeps s₀ s) {lcore pcore chan dom msgs} :
    Keeps s₀ (s.startFrom lcore pcore chan dom msgs) := by
  induction msgs generalizing s with
  | nil => exact h
  | cons m rest ih =>
    unfold State.startFrom
    refine .ite h (.ite (ih h.setHandler.discardMsg.workLeaves) ?_)
    split
    · exact .ite h h.activate
    · exact h

theorem Keeps.startNext (h : Keeps s₀ s) {lcore chan dom} : Keeps s₀ (s.startNext lcore chan dom) := by
  unfold State.startNext
  extract_lets
  split
  · exact h
  · exact .ite h h.startFrom

theorem Keeps.takeMsg (h : Keeps s₀ s) {m} : Keeps s₀ (s.takeMsg m) := by
  unfold State.takeMsg
  split
  · exact h
  · extract_lets _ s₁
    have hs₁ : Keeps s₀ s₁ := h.acceptMsg
    refine .ite hs₁.discardMsg (.ite ?_ hs₁.setHandler)
    split
    · exact hs₁.activate
    · exact hs₁.setHandler

theorem Keeps.setOverflow (h : Keeps s₀ s) {p l} : Keeps s₀ (s.setOverflow p l) := by
  unfold State.setOverflow
  extract_lets s₁
  have hs₁ : Keeps s₀ s₁ := h.modCore
  refine .foldl hs₁ fun h₁ => ?_
  split
  · exact h₁.writeRaw
  · exact h₁

theorem Keeps.arrive (h : Keeps s₀ s) {p c} : Keeps s₀ (s.arrive p c).1 := by
  unfold State.arrive
  extract_lets
  split
  · split
    · exact .fst h
    · exact .fst h.setOverflow
  · exact .fst h.modCore.send

theorem Keeps.refillArrival (h : Keeps s₀ s) {p dom} : Keeps s₀ (s.refillArrival p dom) := by
  unfold State.refillArrival
  extract_lets
  refine .ite h ?_
  split
  · exact h
  · split
    · exact h.logEvent.modCore
    · extract_lets s₁
      have hs₁ : Keeps s₀ s₁ := h.setOverflow
      exact hs₁.modCore.send
    · exact h

theorem Keeps.setNode (h : Keeps s₀ s) {id n} : Keeps s₀ (s.setNode id n) := h.modCluster

theorem Keeps.countIgnored (h : Keeps s₀ s) {cluster} : Keeps s₀ (s.countIgnored cluster) := h.modCluster

theorem Keeps.nodeEnds (h : Keeps s₀ s) {id} : Keeps s₀ (s.nodeEnds id) := by
  unfold State.nodeEnds
  extract_lets _ decr
  have hdecr : ∀ {s succ}, Keeps s₀ s → Keeps s₀ (decr s succ) := fun h₁ => .ite h₁ (.ite h₁.countIgnored h₁.request)
  exact .workLeaves (.setNode (hdecr (hdecr h)))

theorem Keeps.releaseBarrier (h : Keeps s₀ s) {g ga} : Keeps s₀ (s.releaseBarrier g ga) := by
  unfold State.releaseBarrier
  extract_lets s₁
  have hs₁ : Keeps s₀ s₁ := h.frame
  refine .foldl hs₁ fun h₁ => ?_
  split
  · exact h₁.deliver
  · exact h₁

theorem Keeps.barrierCheck (h : Keeps s₀ s) {g} : Keeps s₀ (s.barrierCheck g) := by
  unfold State.barrierCheck
  split
  · exact h
  · exact .ite h.releaseBarrier h

theorem Keeps.leaveGang (h : Keeps s₀ s) {g rank} : Keeps s₀ (s.leaveGang g rank) := by
  unfold State.leaveGang
  split
  · exact h
  · extract_lets _ s₁ _ s₂
    have hs₁ : Keeps s₀ s₁ := h.frame
    have hs₂ : Keeps s₀ s₂ := .foldl hs₁ fun h₁ => h₁.request
    exact hs₂.barrierCheck

theorem Keeps.freeTiles (h : Keeps s₀ s) {sk} : Keeps s₀ (s.freeTiles sk) := h.modCore

theorem Keeps.endStrand (h : Keeps s₀ s) {st} : Keeps s₀ (s.endStrand st) := by
  unfold State.endStrand
  extract_lets _ s₁ s₂ s₃ s₄ s₅ s₆ s₇ s₈ s₉ s₁₀ s₁₁
  have hs₁ : Keeps s₀ s₁ := h.returnTokens
  have hs₂ : Keeps s₀ s₂ := .ite hs₁.parkTokens hs₁
  have hs₃ : Keeps s₀ s₃ := hs₂.answerOwed
  have hs₄ : Keeps s₀ s₄ := .foldl hs₃ fun h₁ => h₁.unbind
  have hs₅ : Keeps s₀ s₅ := hs₄.breakPairs
  have hs₆ : Keeps s₀ s₆ := hs₅.freeTiles
  have hs₇ : Keeps s₀ s₇ := .ite hs₆ hs₆.leaveGang
  have hs₈ : Keeps s₀ s₈ := hs₇.returnWeight
  have hs₉ : Keeps s₀ s₉ := by
    unfold s₉
    split
    · exact hs₈.nodeEnds
    · exact hs₈
  have hs₁₀ : Keeps s₀ s₁₀ := hs₉.dropStrand.bankStates.workLeaves
  have hs₁₁ : Keeps s₀ s₁₁ := by
    unfold s₁₁
    split
    · extract_lets _ s₁₂ s₁₃
      have hs₁₂ : Keeps s₀ s₁₂ := hs₁₀.setHandler
      have hs₁₃ : Keeps s₀ s₁₃ := hs₁₂.returnChannel
      exact hs₁₃.startNext
    · exact hs₁₀
  exact hs₁₁.send

theorem Keeps.discardCtx (h : Keeps s₀ s) {l c lost} : Keeps s₀ (s.discardCtx l c lost) := by
  unfold State.discardCtx
  extract_lets s₁ s₂
  have hs₁ : Keeps s₀ s₁ := h.returnWeight
  have hs₂ : Keeps s₀ s₂ := .ite hs₁ hs₁.leaveGang
  split
  · exact hs₂.nodeEnds
  · exact hs₂

theorem Keeps.returnStock (h : Keeps s₀ s) {st lost} : Keeps s₀ (s.returnStock st lost) := by
  unfold State.returnStock
  split
  · exact h
  · refine .ite h ?_
    extract_lets s₁ s₂
    have hs₁ : Keeps s₀ s₁ := h.setStrand
    have hs₂ : Keeps s₀ s₂ := hs₁.modScb
    exact hs₂.request

theorem Keeps.popKept (h : Keeps s₀ s) {st} : Keeps s₀ (s.popKept st).1 := by
  unfold State.popKept
  extract_lets
  exact .fst h.frame.setStrand

theorem Keeps.dieOn (h : Keeps s₀ s) {sk} : Keeps s₀ (s.dieOn sk) := by
  unfold State.dieOn
  split
  · exact h
  · refine .ite h.setStrand (.ite h.setStrand ?_)
    split
    rename_i e
    split
    · exact .returnStock (.setStrand (h.popKept.of_fst e))
    · exact .endStrand (h.popKept.of_fst e)

theorem Keeps.die (h : Keeps s₀ s) {sk} : Keeps s₀ (s.die sk) := h.modStrand.dieOn

theorem Keeps.settleStore (h : Keeps s₀ s) {st} : Keeps s₀ (s.settleStore st) := by
  unfold State.settleStore
  extract_lets _ _ _ s₁ s₂ s₃
  have hs₁ : Keeps s₀ s₁ := .foldl h fun h₁ => h₁.spillGroup
  have hs₂ : Keeps s₀ s₂ := hs₁.setStrand
  have hs₃ : Keeps s₀ s₃ := by
    unfold s₃
    refine .foldl hs₂ fun h₁ => ?_
    split
    · exact h₁.modStrand
    · exact h₁
  exact .foldl hs₃ fun h₁ => h₁.writeRaw

theorem Keeps.acquireHeld (h : Keeps s₀ s) {h'} : Keeps s₀ (s.acquireHeld h') := by
  unfold State.acquireHeld
  extract_lets
  exact .foldl h fun h₁ => .ite h₁.acquireLines h₁

theorem Keeps.resumeQueues (h : Keeps s₀ s) {st} : Keeps s₀ (s.resumeQueues st) :=
  .foldl h fun h₁ => .ite h₁.pump h₁

theorem Keeps.install (h : Keeps s₀ s) {sk born sv} : Keeps s₀ (s.install sk born sv) := by
  unfold State.install
  extract_lets _ _ _ s₁ _ _ s₂ s₃ s₄ s₅ opener _ _ _ _ scopes strands s₆
  have hs₁ : Keeps s₀ s₁ := h.settleStore
  have hs₂ : Keeps s₀ s₂ := hs₁.frame
  have hs₃ : Keeps s₀ s₃ := hs₂.modCore
  have hs₄ : Keeps s₀ s₄ := .foldl hs₃ fun h₁ => h₁.after
  have hs₅ : Keeps s₀ s₅ := by
    unfold s₅
    split
    · extract_lets
      exact hs₄.setHandler
    · exact hs₄
  have hopener : ∀ b, (opener b).id = b.id := by
    intro b
    unfold opener
    split <;> rfl
  have hscopes : KeyedScopes s₅.scopes → KeyedScopes scopes := (·.map fun kv => ⟨rfl, hopener kv.2⟩)
  have hstrands : KeyedStrands s₅.strands → KeyedStrands strands := (·.map fun _ => ⟨rfl, rfl⟩)
  have hs₆ : Keeps s₀ s₆ := (hs₅.update id hstrands hscopes).acquireHeld
  exact .bankStates (.ite hs₆.dieOn hs₆.resumeQueues)

theorem Keeps.moveTokens (h : Keeps s₀ s) {oldH newH} : Keeps s₀ (s.moveTokens oldH newH) := by
  unfold State.moveTokens
  extract_lets
  exact h.frame.acquireHeld

theorem Keeps.cancelArrived (h : Keeps s₀ s) {sk} : Keeps s₀ (s.cancelArrived sk) := by
  unfold State.cancelArrived
  split
  · exact h
  · refine .ite ?_ h
    extract_lets s₁
    have hs₁ : Keeps s₀ s₁ := .ite h.logChoice h
    exact hs₁.modStrand

theorem Keeps.startCtx (h : Keeps s₀ s) {sk c} : Keeps s₀ (s.startCtx sk c) := by
  unfold State.startCtx
  extract_lets s₁
  have hs₁ : Keeps s₀ s₁ := h.born
  split
  · exact hs₁
  · extract_lets _ s₂ s₃ s₄
    have hs₂ : Keeps s₀ s₂ := .ite hs₁ hs₁.frame
    have hs₃ : Keeps s₀ s₃ := .ite hs₂.moveTokens hs₂
    have hs₄ : Keeps s₀ s₄ := by
      unfold s₄
      split
      · split
        · exact hs₃.install.modKiln
        · exact hs₃
      · exact hs₃
    exact .ite hs₄.cancelArrived hs₄

theorem Keeps.refillLater (h : Keeps s₀ s) {p dom} : Keeps s₀ (s.refillLater p dom) := .ite h h.after

theorem Keeps.letIn (h : Keeps s₀ s) {p dom n} : Keeps s₀ (s.letIn p dom n) := by
  induction n generalizing s with
  | zero => exact h
  | succ n ih =>
    unfold State.letIn
    extract_lets
    split
    · exact ih h.modCore.discardCtx.workLeaves.refillLater
    · split
      · exact ih h.modCore.discardCtx.workLeaves
      · refine .ite h ?_
        split
        · exact h
        · split
          · exact ih h.modCore.startCtx.refillLater
          · refine .ite h ?_
            split
            · exact ih h.modCore.startCtx
            · exact h

/-! ### Device registers (Registers.lean) -/

theorem Keeps.flipBits (h : Keeps s₀ s) {key bits} : Keeps s₀ (s.flipBits key bits) := by
  unfold State.flipBits
  refine .foldl h fun h₁ => ?_
  extract_lets _ _ s₁
  have hs₁ : Keeps s₀ s₁ := h₁.setByte
  exact hs₁.setErr

theorem Keeps.flipReg (h : Keeps s₀ s) {pcore entry m} : Keeps s₀ (s.flipReg pcore entry m) := by
  refine h.update id (·.map fun kv => ?_) id
  split <;> exact ⟨rfl, rfl⟩

theorem Keeps.flipVec (h : Keeps s₀ s) {pcore word m} : Keeps s₀ (s.flipVec pcore word m) := h.modStrand

theorem Keeps.flipTile (h : Keeps s₀ s) {pcore word m} : Keeps s₀ (s.flipTile pcore word m) := h.modCore

theorem Keeps.inject (h : Keeps s₀ s) {a v} : Keeps s₀ (s.inject a v) := by
  unfold State.inject
  extract_lets
  refine .ite h ?_
  split
  · exact .ite (.ite (.ite h.frame h) h.flipBits) h
  · refine .ite h ?_
    split
    · exact .ite h.flipBits h
    · split
      · exact h.setLine
      · exact h
    · exact .ite h.flipBits h
    · exact h.flipReg
    · exact h.flipVec
    · exact h.flipTile

theorem Keeps.setInjectReg (h : Keeps s₀ s) {a v} : Keeps s₀ (s.setInjectReg a v) := by
  unfold State.setInjectReg
  split
  · exact h.frame
  · exact h.modCore

theorem Keeps.writeInject (h : Keeps s₀ s) {a v} : Keeps s₀ (s.writeInject a v) := .ite h h.inject.setInjectReg

theorem Keeps.clearLog (h : Keeps s₀ s) {a e v} : Keeps s₀ (s.clearLog a e v) := by
  unfold State.clearLog
  extract_lets
  exact h.setLog

theorem Keeps.writeReg (h : Keeps s₀ s) {r v} (e : s.writeReg r v = some t) : Keeps s₀ t := by
  unfold State.writeReg at e
  split at e <;> cases e
  · exact h.clearLog
  · exact h.writeInject
  · exact h.modCluster
  · exact h.frame

theorem Answers.execRegisterWrite (h : Keeps s₀ s) : Answers s₀ (execRegisterWrite s) := by
  unfold Machine.execRegisterWrite
  split
  · split
    · exact .next (.getD h fun e => h.writeReg e)
    · exact .next h
  · exact .next h

theorem Answers.execErrorInjection (h : Keeps s₀ s) : Answers s₀ (execErrorInjection s) := by
  unfold Machine.execErrorInjection
  split
  · split
    · exact .next h.writeInject
    · exact .next h
  · exact .next h

theorem Answers.execLogEntryClear (h : Keeps s₀ s) : Answers s₀ (execLogEntryClear s) := by
  unfold Machine.execLogEntryClear
  split
  · split
    · exact .next h.clearLog
    · exact .next h
  · exact .next h

/-! ### Retirement, idempotent regions, traps and runners (Ops.lean) -/

theorem Keeps.answerWords (h : Keeps s₀ s) {here} : Keeps s₀ (s.answerWords here) := by
  refine h.update id (·.map fun kv => ⟨rfl, ?_⟩) id
  dsimp only
  split
  · split <;> rfl
  · rfl

theorem Keeps.sendCell (h : Keeps s₀ s) {sk op ord va key val dst} :
    Keeps s₀ (s.sendCell sk op ord va key val dst) := by
  unfold State.sendCell
  split
  · exact h
  · extract_lets _ _ _ s₁
    have hs₁ : Keeps s₀ s₁ := h.frame
    exact hs₁.setStrand.requestOf

theorem Keeps.performStore (h : Keeps s₀ s) {st h'} : Keeps s₀ (s.performStore st h') := by
  unfold State.performStore
  refine .ite ?_ ?_
  · split
    · exact .getD h fun e => h.writeReg e
    · exact h
  · extract_lets
    exact KeepsFrom.storeAt _ h

theorem Keeps.commitFrom (h : Keeps s₀ s) {st stores} : Keeps s₀ (s.commitFrom st stores) := by
  induction stores generalizing s with
  | nil => exact h
  | cons x rest ih =>
    unfold State.commitFrom
    exact .ite (.ite h.sendCell h.sendCell.modStrand) (ih h.performStore)

theorem Keeps.commitIdem (h : Keeps s₀ s) {st} : Keeps s₀ (s.commitIdem st) := by
  unfold State.commitIdem
  split
  · exact h
  · exact h.modStrand.commitFrom

theorem Keeps.commitGoes (h : Keeps s₀ s) {sk n} : Keeps s₀ (s.commitGoes sk n) := by
  unfold State.commitGoes
  split
  · exact h
  · split
    · exact .ite h.setStrand.commitFrom h
    · exact h

theorem Keeps.leaveIdem (h : Keeps s₀ s) {st} : Keeps s₀ (s.leaveIdem st) := by
  unfold State.leaveIdem
  split
  · exact h.setStrand
  · exact .ite h.setStrand h.setStrand.commitIdem

theorem Keeps.retire (h : Keeps s₀ s) {st pc cls} : Keeps s₀ (s.retire st pc cls) := h.leaveIdem

theorem Keeps.unhandled (h : Keeps s₀ s) {st t' trappc} : Keeps s₀ (s.unhandled st t' trappc) := by
  unfold State.unhandled
  extract_lets
  exact h.faultScope.die

theorem Keeps.auxOf (h : Keeps s₀ s) {t'} : Keeps s₀ (s.auxOf t').2 := by
  unfold State.auxOf
  split
  · exact .snd h
  · exact h.freeWord

theorem Keeps.takeTrap (h : Keeps s₀ s) {sk t' trappc} : Keeps s₀ (s.takeTrap sk t' trappc) := by
  unfold State.takeTrap
  extract_lets s₁
  have hs₁ : Keeps s₀ s₁ := by
    unfold s₁
    split
    · exact h.commitIdem
    · exact h
  split
  · exact hs₁
  · refine .ite hs₁.setStrand (.ite hs₁.setStrand ?_)
    split
    rename_i e
    extract_lets
    split
    · exact .ite (.die (hs₁.auxOf.of_snd e)) (.unhandled (hs₁.auxOf.of_snd e))
    · split
      · exact .unhandled (hs₁.auxOf.of_snd e)
      · split
        · exact .bankStates (.setStrand (hs₁.auxOf.of_snd e))
        · exact .startRoom (hs₁.auxOf.of_snd e)

theorem Keeps.sendPages (h : Keeps s₀ s) : Keeps s₀ s.sendPages := .ite h.frame h

theorem Keeps.askPage (h : Keeps s₀ s) {pasid page need asked} : Keeps s₀ (s.askPage pasid page need asked) := by
  unfold State.askPage
  refine .ite h ?_
  extract_lets
  exact h.frame.sendPages

theorem Keeps.askAts (h : Keeps s₀ s) {pasid page} : Keeps s₀ (s.askAts pasid page) := by
  unfold State.askAts
  extract_lets
  exact .ite h h.frame

theorem Keeps.stopAt (h : Keeps s₀ s) {sk e} : Keeps s₀ (s.stopAt sk e) := by
  unfold State.stopAt
  split
  · exact h
  · split
    · exact h.takeTrap
    · exact h.askAts.setStrand
    · exact h.setStrand.bankStates
    · exact h.setStrand
    · extract_lets
      exact .ite h.askAts.setStrand h.askPage.setStrand

theorem KeepsFrom.cancelPoint {st} : KeepsFrom s₀ (cancelPoint st) := by
  unfold Machine.cancelPoint
  refine .get_bind fun h₁ => .ite ?_ (.pure _)
  extract_lets jp
  have hjp : KeepsFrom s₀ (jp ()) := .raise _
  exact .ite (.bind (.modify fun h₂ => h₂.logChoice) hjp) hjp

theorem KeepsFrom.me : KeepsFrom s₀ me := by
  unfold Machine.me
  refine .get_bind fun h₁ => ?_
  split
  · exact .pure _
  · exact .holdFor _

theorem KeepsFrom.setMe {st} : KeepsFrom s₀ (setMe st) := by
  unfold Machine.setMe
  exact .modify fun h₁ => h₁.setStrand

theorem KeepsFrom.putX {i v d} : KeepsFrom s₀ (putX i v d) := by
  unfold Machine.putX
  exact .bind .me (.bind (.liftT _) .setMe)

theorem KeepsFrom.drained {st} : KeepsFrom s₀ (drained st) := by
  unfold Machine.drained
  exact .ite (.pure _) (.holdFor _)

theorem KeepsFrom.moveWindow {st m} : KeepsFrom s₀ (moveWindow st m) := by
  unfold Machine.moveWindow
  refine .bind (.liftT _) fun {_} => .get_bind fun h₁ => ?_
  split
  · exact .modify fun h₂ => h₂.setStrand.bankStates
  · exact .holdFor _
  · exact .bind (.modify fun h₂ => h₂.startRoom) (.holdFor _)

theorem KeepsFrom.newNumber : KeepsFrom s₀ newNumber := by
  unfold Machine.newNumber
  exact .get_bind fun h₁ => .bind (.set h₁.frame) (.pure _)

theorem KeepsFrom.weightReady : KeepsFrom s₀ weightReady := by
  unfold Machine.weightReady
  refine .bind .me fun {_} => ?_
  split
  · exact .pure _
  · extract_lets
    exact .bind (.modify fun h₁ => h₁.request.countPacket) (.holdFor _)

theorem KeepsFrom.splitWeight : KeepsFrom s₀ splitWeight := by
  unfold Machine.splitWeight
  refine .bind .weightReady fun {_} => .bind .me fun {_} => ?_
  split
  · exact .bind .setMe (.pure _)
  · exact .holdFor _

theorem Keeps.finish (h : Keeps s₀ s) {sk n len cls} : Keeps s₀ (s.finish sk n len cls) := by
  unfold State.finish
  split
  · exact h
  · split
    · exact h.retire
    · exact h.retire
    · exact h

theorem KeepsOut.runPure (h : Keeps s₀ s) {cls len g f} : KeepsOut s₀ (runPure cls len g f s) := by
  unfold Machine.runPure
  split
  · exact .refused _
  · refine .ite ?_ (.next h.retire)
    split
    · exact .next h.retire
    · exact .next h.takeTrap

theorem KeepsOut.runAct (h : Keeps s₀ s) {cls len g c body} (hbody : ∀ {st}, KeepsFrom s₀ (body st)) :
    KeepsOut s₀ (runAct cls len g c body s) := by
  unfold Machine.runAct
  split
  · exact .refused _
  · refine .ite ?_ (.next h.retire)
    extract_lets s₁ st
    have hs₁ : Keeps s₀ s₁ := .ite h.commitIdem h.setStrand
    refine .ite (.next hs₁.setStrand) ?_
    split
    · rename_i e
      exact .next ((hbody _ hs₁).of_snd e).finish
    · rename_i e
      exact .next ((hbody _ hs₁).of_snd e).stopAt

theorem Keeps.afterDrain (h : Keeps s₀ s) {sk} : Keeps s₀ (s.afterDrain sk) := by
  unfold State.afterDrain
  split
  · exact h
  · refine .ite h (.ite h.dieOn (.ite h.setStrand ?_))
    split
    · exact h.setStrand.takeTrap
    · exact h.setStrand

theorem Keeps.afterSpill (h : Keeps s₀ s) {sk} : Keeps s₀ (s.afterSpill sk) := by
  unfold State.afterSpill
  split
  · exact h
  · refine .ite h ?_
    split
    · exact h.setStrand.takeTrap
    · exact h.setStrand

theorem Keeps.afterTransfer (h : Keeps s₀ s) {sk} : Keeps s₀ (s.afterTransfer sk) := by
  unfold State.afterTransfer
  split
  · exact h
  · refine .ite h ?_
    extract_lets s₁
    have hs₁ : Keeps s₀ s₁ := h.setStrand
    refine .ite hs₁.dieOn ?_
    split
    · exact hs₁.takeTrap
    · exact hs₁

/-! ### Operand forms (Operands.lean) -/

theorem KeepsOut.runJump (h : Keeps s₀ s) {cls f} : KeepsOut s₀ (runJump cls f s) := by
  unfold Machine.runJump
  split
  · exact .refused _
  · extract_lets
    split
    · exact .next h.retire
    · exact .next h.takeTrap

/-! ### Loads, stores, sync cells and fences (LoadStore.lean) -/

theorem KeepsFrom.noteRemote {st p} : KeepsFrom s₀ (noteRemote st p) := by
  unfold Machine.noteRemote
  refine .get_bind fun h₁ => ?_
  split
  · exact .ite (.pure _) (.modify fun h₂ => h₂.modStrand)
  · exact .pure _

theorem KeepsFrom.issueCell {op ord va val dst} : KeepsFrom s₀ (issueCell op ord va val dst) := by
  unfold Machine.issueCell
  refine .bind .me fun {_} => .get_bind fun h₁ => .bind .placeOf fun {_} => .bind .noteRemote fun {_} => .bind .me
    fun {_} => .get_bind fun h₂ => .get_bind fun h₃ => ?_
  extract_lets jp
  have hjp : KeepsFrom s₀ (jp ()) := .modify fun h₅ => h₅.sendCell
  exact .ite (.bind (.holdFor _) hjp) hjp

theorem KeepsFrom.sldBody {d a o st} : KeepsFrom s₀ (sldBody d a o st) := by
  unfold Machine.sldBody
  exact .bind (.liftT _) (.bind (.liftT _) (.bind .issueCell (.pure _)))

theorem KeepsFrom.sstBody {a b o st} : KeepsFrom s₀ (sstBody a b o st) := by
  unfold Machine.sstBody
  exact .bind (.liftT _) (.bind .issueCell (.pure _))

theorem KeepsFrom.rmwBody {op d a b o st} : KeepsFrom s₀ (rmwBody op d a b o st) := by
  unfold Machine.rmwBody
  exact .bind (.liftT _) (.bind (.liftT _) (.bind .issueCell (.pure _)))

theorem Keeps.observed (h : Keeps s₀ s) {r word} : Keeps s₀ (s.observed r word).1 := by
  unfold State.observed
  extract_lets logged
  clear_value logged
  split
  · exact .fst h
  · split
    · exact .fst h.logChoice
    · split
      · split
        · exact .fst h.bumpLtime
        · exact .fst h.diverges
      · exact .fst h

theorem Keeps.ewtAtHome (h : Keeps s₀ s) {r w f} : Keeps s₀ (s.ewtAtHome r w f) := by
  unfold State.ewtAtHome
  split
  · exact h
  · refine .ite h ?_
    split
    · exact h.setStrand
    · exact .ite h.setStrand h.setStrand

theorem Keeps.performCell (h : Keeps s₀ s) {r} : Keeps s₀ (s.performCell r) := by
  unfold State.performCell
  extract_lets _ _ _ _ answer s₁
  have hanswer : ∀ {s v f}, Keeps s₀ s → Keeps s₀ (answer s v f) := fun h₁ => .ite h₁.ewtAtHome h₁.deliver
  have hs₁ : Keeps s₀ s₁ := h.frame
  refine .ite (hanswer hs₁) ?_
  split
  · rename_i e
    exact hanswer ((KeepsFrom.readHome _ hs₁).of_snd e)
  · rename_i e
    exact hanswer ((KeepsFrom.readHome _ hs₁).of_snd e)
  · rename_i e
    extract_lets _ _ s₂ s₃
    have hs₂ : Keeps s₀ s₂ := .countSector ((KeepsFrom.readHome _ hs₁).of_snd e)
    have hs₃ : Keeps s₀ s₃ := .ite hs₂ hs₂.frame.putSector.answerWords
    refine .ite hs₂.ewtAtHome ?_
    split
    rename_i e₁
    exact .deliver (hs₃.observed.of_fst e₁)

theorem Answers.execSyncCellOperation (h : Keeps s₀ s) : Answers s₀ (execSyncCellOperation s) := by
  unfold Machine.execSyncCellOperation
  split
  · extract_lets again _ total
    have hagain : ∀ {s}, Keeps s₀ s → Keeps s₀ (again s) := fun h₁ => h₁.after
    have htotal : ∀ {s}, Keeps s₀ s → Keeps s₀ (total s) := fun h₁ => .ite (h₁.ordered hagain (fun h₃ =>
      h₃.performCell)) h₁.performCell
    exact .ite (.next (h.waitsTurn hagain)) (.ite (.next (h.ordered hagain (fun h₁ => h₁))) (.next
      (h.ordered hagain htotal)))
  · exact .next h

theorem Keeps.putReply (h : Keeps s₀ s) {st pos v} : Keeps s₀ (s.putReply st pos v) := by
  unfold State.putReply
  refine .ite ?_ h.setStrand
  extract_lets
  exact h.setStrand.writeRaw.setMemBit.setMemBit

theorem Answers.execSyncCellReply (h : Keeps s₀ s) : Answers s₀ (execSyncCellReply s) := by
  unfold Machine.execSyncCellReply
  split
  · split
    · exact .next h
    · split
      · exact .next h
      · extract_lets _ s₁
        have hs₁ : Keeps s₀ s₁ := by
          unfold s₁
          split
          · exact h.setStrand
          · exact h.putReply
          · exact h.setStrand
        exact .next hs₁.commitGoes.afterDrain
  · exact .next h

theorem Answers.execLateFaultTrap (h : Keeps s₀ s) : Answers s₀ (execLateFaultTrap s) := by
  unfold Machine.execLateFaultTrap
  split
  · split
    · exact .next h
    · split
      · exact .next h
      · exact .ite (.next h.setStrand) (.next h.setStrand.takeTrap)
  · exact .next h

theorem KeepsFrom.committed {sk} : KeepsFrom s₀ (committed sk) := by
  unfold Machine.committed
  refine .get_bind fun h₁ => ?_
  split
  · exact .ite (.holdFor _) (.pure _)
  · exact .pure _

theorem KeepsFrom.ioOrder {st io} : KeepsFrom s₀ (ioOrder st io) := by
  unfold Machine.ioOrder
  split
  · exact .pure _
  · exact .ite (.bind (.modify fun h₁ => h₁.commitIdem) (.bind .committed (.bind .me .drained))) (.pure _)

theorem KeepsFrom.loadBytes {a va n} : KeepsFrom s₀ (loadBytes a va n) := by
  unfold Machine.loadBytes
  refine .bind .me fun {_} => .get_bind fun h₁ => .bind .placeOf fun {_} => ?_
  split
  · refine .bind .drained fun {_} => .bind .ioOrder fun {_} => .get_bind fun h₂ => ?_
    split
    · exact .throw _
    · exact .get_bind fun h₃ => .pure _
  · refine .bind .ioOrder fun {_} => .bind .noteRemote fun {_} => .get_bind fun h₂ => .bind .loadAt fun {_} => ?_
    split
    exact .bind .me (.pure _)

theorem KeepsFrom.loadBody {size signed d b disp st} : KeepsFrom s₀ (loadBody size signed d b disp st) := by
  unfold Machine.loadBody
  refine .bind (.liftT _) fun {_} => .bind (.liftT _) fun {_} => ?_
  extract_lets _ jp
  have hjp : KeepsFrom s₀ (jp ()) := .pure _
  refine .ite (.bind .ioOrder fun {_} => .bind .me fun {_} => ?_) (.bind .loadBytes fun {_} => ?_)
  · split
    · exact .get_bind fun h₁ => .bind .placeOf (.bind .noteRemote (.bind .putX hjp))
    · exact .bind .issueCell hjp
  · split
    exact .bind .putX (.pure _)

theorem KeepsFrom.holdStore {st h'} : KeepsFrom s₀ (holdStore st h') := by
  unfold Machine.holdStore
  exact .modify fun h₁ => h₁.modStrand

theorem KeepsFrom.holds {st} : KeepsFrom s₀ (holds st) := by
  unfold Machine.holds
  split
  · exact .pure _
  · exact .ite (.pure _) (.bind (.modify fun h₁ => h₁.commitIdem) (.bind .committed (.pure _)))

theorem KeepsFrom.prefill {who p n} : KeepsFrom s₀ (prefill who p n) := by
  unfold Machine.prefill
  split
  · exact .bind .lineFor (.pure _)
  · exact .pure _

theorem KeepsFrom.storeBytes {a va bs d} : KeepsFrom s₀ (storeBytes a va bs d) := by
  unfold Machine.storeBytes
  refine .bind .me fun {_} => .get_bind fun h₁ => ?_
  extract_lets
  refine .bind .placeOf fun {_} => ?_
  split
  · refine .bind .drained fun {_} => .get_bind fun h₂ => ?_
    split
    · exact .throw _
    · refine .get_bind fun h₃ => ?_
      split
      · exact .bind .holds (.ite .holdStore (.modify fun h₄ => .getD h₄ fun e => h₄.writeReg e))
      · exact .throw _
  · refine .bind .noteRemote fun {_} => .bind .holds fun {_} => .ite ?_ .storeAt
    extract_lets jp
    have hjp : KeepsFrom s₀ (jp ()) := .holdStore
    exact .ite (.bind .prefill hjp) hjp

theorem KeepsFrom.storeBody {size x b disp st} : KeepsFrom s₀ (storeBody size x b disp st) := by
  unfold Machine.storeBody
  refine .bind (.liftT _) fun {_} => ?_
  extract_lets _ jp
  have hjp : KeepsFrom s₀ (jp ()) := .pure _
  exact .ite (.get_bind fun h₁ => .bind .placeOf (.bind .holds (.ite (.bind .holdStore hjp) (.bind .issueCell hjp))))
    (.bind .storeBytes (.pure _))

/-- Of a deferred access stays what the memory detects and logs: its bytes with their state, and nothing of the
strands. -/
theorem KeepsFrom.tryLoad {st size va} : KeepsFrom s₀ (tryLoad st size va) := by
  unfold Machine.tryLoad
  refine .ite (.pure _) (.get_bind fun h₁ => ?_)
  split
  · rename_i e
    exact .bind (.set ((KeepsFrom.loadBytes _ h₁).of_snd e)) (.pure _)
  · rename_i e
    have h₂ := (KeepsFrom.loadBytes _ h₁).of_snd e
    exact .bind (.set ⟨h₂.mem, h₁.slots, h₁.named⟩) (.pure _)
  · exact .ite (.pure _) (.holdFor _)
  · exact .holdFor _
  · exact .throw _

theorem KeepsFrom.ldsBody {size signed d b disp st} : KeepsFrom s₀ (ldsBody size signed d b disp st) := by
  unfold Machine.ldsBody
  refine .bind (.liftT _) fun {_} => .bind (.liftT _) fun {_} => ?_
  extract_lets jp
  have hjp : KeepsFrom s₀ (jp ()) := .pure _
  split
  · exact .bind .putX hjp
  · refine .bind .tryLoad fun {_} => ?_
    split <;> exact .bind .putX hjp

theorem KeepsFrom.fenceBody {kind core st} : KeepsFrom s₀ (fenceBody kind core st) := by
  unfold Machine.fenceBody
  refine .get_bind fun h₁ => .ite (.holdFor _) (.ite ?_ (.pure _))
  extract_lets
  refine .ite (.bind (.modify fun h₂ => h₂.logChoice) (.pure _)) (.ite ?_ (.pure _))
  split
  · exact .ite (.bind (.modify fun h₂ => h₂.bumpLtime) (.pure _)) (.ite (.holdFor _) (.bind (.modify fun h₂ =>
      h₂.diverges) (.pure _)))
  · exact .bind (.modify fun h₂ => h₂.diverges) (.pure _)

theorem KeepsFrom.regionOf {w} : KeepsFrom s₀ (regionOf w) := by
  unfold Machine.regionOf
  split
  · exact .pure _
  · exact .raise _

theorem KeepsFrom.flushrBody {a st} : KeepsFrom s₀ (flushrBody a st) := by
  unfold Machine.flushrBody
  refine .bind (.liftT _) fun {_} => ?_
  extract_lets
  refine .bind .regionOf fun {_} => .get_bind fun h₁ => ?_
  split
  · exact .raise _
  · refine .ite (.throw _) (.ite (.raise _) ?_)
    extract_lets
    split
    · extract_lets
      exact .bind (.set h₁.logLine.dropLine) (.raise _)
    · exact .bind (.set h₁.flushRegion) (.pure _)

/-! ### The token instructions and their events (TokenOps.lean) -/

theorem KeepsFrom.tokenOf {st w} : KeepsFrom s₀ (tokenOf st w) := by
  unfold Machine.tokenOf
  refine .bind .regionOf fun {_} => .get_bind fun h₁ => ?_
  split
  · exact .raise _
  · exact .ite (.throw _) (.ite (.raise _) (.pure _))

theorem KeepsFrom.transfer {st kind r w giver receiver f} : KeepsFrom s₀ (transfer st kind r w giver receiver f) := by
  unfold Machine.transfer
  refine .modify fun h₁ => ?_
  extract_lets _ _ s₁
  have hs₁ : Keeps s₀ s₁ := h₁.modToken.sendGrant
  exact hs₁.modStrand.countPacket

theorem KeepsFrom.lendable {st w} : KeepsFrom s₀ (lendable st w) := by
  unfold Machine.lendable
  refine .bind .tokenOf fun {_} => ?_
  split
  extract_lets
  exact .ite (.raise _) (.ite (.raise _) (.ite (.raise _) (.pure _)))

theorem KeepsFrom.tlendBody {a b st} : KeepsFrom s₀ (tlendBody a b st) := by
  unfold Machine.tlendBody
  refine .bind (.liftT _) fun {_} => ?_
  extract_lets
  refine .bind .lendable fun {_} => .get_bind fun h₁ => .bind (.liftT _) fun {_} => ?_
  extract_lets jp
  have hjp : KeepsFrom s₀ (jp ()) := .bind .transfer (.pure _)
  refine .ite (.bind (.modify fun h₂ => ?_) hjp) hjp
  extract_lets
  exact h₂.setHandler

theorem KeepsFrom.tretBody {a st} : KeepsFrom s₀ (tretBody a st) := by
  unfold Machine.tretBody
  refine .bind (.liftT _) fun {_} => ?_
  extract_lets
  refine .bind .tokenOf fun {_} => ?_
  split
  split
  · exact .bind .transfer (.pure _)
  · split
    · exact .bind .transfer (.pure _)
    · exact .raise _

theorem KeepsFrom.tgiveBody {a b st} : KeepsFrom s₀ (tgiveBody a b st) := by
  unfold Machine.tgiveBody
  refine .bind (.liftT _) fun {_} => ?_
  extract_lets
  refine .bind .tokenOf fun {_} => ?_
  split
  exact .ite (.raise _) (.ite (.raise _) (.ite (.bind .transfer (.pure _)) (.get_bind fun h₁ => .bind (.liftT _)
    (.bind .transfer (.pure _)))))

theorem KeepsFrom.tshareBody {a b st} : KeepsFrom s₀ (tshareBody a b st) := by
  unfold Machine.tshareBody
  refine .bind (.liftT _) fun {_} => ?_
  extract_lets
  refine .bind .tokenOf fun {_} => ?_
  split
  exact .ite (.raise _) (.ite (.raise _) (.ite (.raise _) (.get_bind fun h₁ => .bind (.liftT _) (.bind .transfer
    (.pure _)))))

theorem KeepsFrom.askHome {ev op r w arg st} : KeepsFrom s₀ (askHome ev op r w arg st) := by
  unfold Machine.askHome
  split
  · exact .pure _
  · exact .raise _
  · refine .get_bind fun h₁ => ?_
    extract_lets _ _ jp
    have hjp : KeepsFrom s₀ (jp ()) := .bind .newNumber (.bind (.modify fun h₃ => h₃.requestOf) (.holdFor _))
    split
    · exact .ite (.bind (.throw _) hjp) hjp
    · exact hjp

theorem KeepsFrom.tokenBody {op a st} : KeepsFrom s₀ (tokenBody op a st) := by
  unfold Machine.tokenBody
  refine .get_bind fun h₁ => .ite (.raise _) (.bind (.liftT _) fun {_} => ?_)
  extract_lets
  refine .bind .regionOf fun {_} => ?_
  extract_lets jp
  have hjp : KeepsFrom s₀ (jp ()) := .bind .askHome (.pure _)
  exact .ite (.bind (.modify fun h₂ => h₂.flushRegion) hjp) hjp

theorem KeepsFrom.tokenValueBody {op d a b st} : KeepsFrom s₀ (tokenValueBody op d a b st) := by
  unfold Machine.tokenValueBody
  refine .bind (.liftT _) fun {_} => .bind (.liftT _) fun {_} => ?_
  extract_lets
  exact .bind .regionOf (.bind .askHome (.bind .putX (.pure _)))

theorem KeepsFrom.tqryBody {d a st} : KeepsFrom s₀ (tqryBody d a st) := by
  unfold Machine.tqryBody
  refine .bind (.liftT _) fun {_} => .bind (.liftT _) fun {_} => ?_
  extract_lets
  exact .bind .regionOf (.bind .askHome (.bind .putX (.pure _)))

theorem KeepsFrom.twaitEnd {st w timed d v} : KeepsFrom s₀ (twaitEnd st w timed d v) := by
  unfold Machine.twaitEnd
  extract_lets jp
  have hjp : KeepsFrom s₀ (jp ()) := .bind .putX (.pure _)
  exact .ite (.bind (.modify fun h₁ => .ite h₁.logChoice (.ite h₁.bumpLtime h₁)) hjp) hjp

theorem KeepsFrom.twaitBody {d a b st} : KeepsFrom s₀ (twaitBody d a b st) := by
  unfold Machine.twaitBody
  refine .bind (.liftT _) fun {_} => .get_bind fun h₁ => ?_
  extract_lets _ _ _ _ jp
  have hjp : KeepsFrom s₀ (jp ()) := by
    unfold jp
    refine .ite .twaitEnd (.ite .twaitEnd (.ite .twaitEnd (.bind .newNumber fun {_} => ?_)))
    extract_lets jp₁
    have hjp₁ : KeepsFrom s₀ (jp₁ ()) := .holdFor _
    exact .ite (.bind (.modify fun h₃ => h₃.after) hjp₁) hjp₁
  exact .ite (.raise _) (.bind (.liftT _) (.bind .tokenOf (.ite (.bind (.modify fun h₂ => h₂.diverges) hjp) hjp)))

theorem Answers.execTwaitTimeout (h : Keeps s₀ s) : Answers s₀ (execTwaitTimeout s) := by
  unfold Machine.execTwaitTimeout
  split
  · split
    · exact .next h
    · split
      · exact .ite (.next h.setStrand) (.next h)
      · exact .next h
  · exact .next h

theorem Answers.execTokenRequest (h : Keeps s₀ s) : Answers s₀ (execTokenRequest s) := by
  unfold Machine.execTokenRequest
  split
  · exact .ite (.next h.after) (.next (h.ordered (fun h₁ => h₁.after) (fun h₁ => h₁.tokenRequested)))
  · exact .next h

theorem Answers.execTokenQuery (h : Keeps s₀ s) : Answers s₀ (execTokenQuery s) := by
  unfold Machine.execTokenQuery
  split
  · split
    · exact .next h
    · extract_lets
      exact .next h.deliver
  · exact .next h

theorem Answers.execTokenQueryReply (h : Keeps s₀ s) : Answers s₀ (execTokenQueryReply s) := by
  unfold Machine.execTokenQueryReply
  split
  · exact .next h.reply
  · exact .next h

theorem Answers.execTokenGrant (h : Keeps s₀ s) : Answers s₀ (execTokenGrant s) := by
  unfold Machine.execTokenGrant
  split
  · exact .ite (.next h.after) (.next (h.ordered (fun h₁ => h₁.after) (fun h₁ => h₁.recordGrant)))
  · exact .next h

theorem Answers.execTokenGrantArrival (h : Keeps s₀ s) : Answers s₀ (execTokenGrantArrival s) := by
  unfold Machine.execTokenGrantArrival
  split
  · exact .next h.grantArrives
  · exact .next h

/-! ### The queue instructions and their events (QueueOps.lean) -/

theorem KeepsFrom.bindingOf {st q} : KeepsFrom s₀ (bindingOf st q) := by
  unfold Machine.bindingOf
  split
  · exact .pure _
  · exact .raise _

theorem Keeps.numbered (h : Keeps s₀ s) {st b} : Keeps s₀ (s.numbered st b).1 := by
  unfold State.numbered
  extract_lets _ fresh
  have hfresh : Keeps s₀ fresh := h.frame
  split
  · exact .fst hfresh
  · split
    · split
      split
      · exact .fst h.setPair
      · exact .fst hfresh.setPair
    · exact .fst h

theorem KeepsFrom.qbindBody {q a b st} : KeepsFrom s₀ (qbindBody q a b st) := by
  unfold Machine.qbindBody
  extract_lets
  refine .bind (.liftT _) fun {_} => .bind (.modify fun h₁ => h₁.unbind) fun {_} => .get_bind fun h₁ => ?_
  split
  · exact .raise _
  · extract_lets
    refine .ite (.raise _) (.ite (.raise _) (.ite (.raise _) (.ite (.raise _) (.bind (.modify fun h₂ => ?_)
      (.pure _)))))
    split
    rename_i e
    exact .modStrand (h₂.numbered.of_fst e)

theorem KeepsFrom.qunbBody {q st} : KeepsFrom s₀ (qunbBody q st) := by
  unfold Machine.qunbBody
  exact .bind .bindingOf (.bind (.modify fun h₁ => h₁.unbind) (.pure _))

theorem Keeps.takeWord (h : Keeps s₀ s) {st q b} : Keeps s₀ (s.takeWord st q b) := by
  unfold State.takeWord
  refine .ite h.modStrand.grantWaiting (.ite h.modLCore ?_)
  split
  · exact h.setPair
  · exact h

theorem KeepsFrom.qrdBody {d q st} : KeepsFrom s₀ (qrdBody d q st) := by
  unfold Machine.qrdBody
  refine .bind .bindingOf fun {_} => .ite (.raise _) (.get_bind fun h₁ => ?_)
  split
  · exact .bind .putX (.bind (.modify fun h₂ => h₂.takeWord) (.pure _))
  · refine .ite ?_ (.holdFor _)
    split
    exact .ite (.raise _) (.bind .cancelPoint (.holdFor _))

theorem Keeps.writeWord (h : Keeps s₀ s) {st q b w} : Keeps s₀ (s.writeWord st q b w) := by
  unfold State.writeWord
  extract_lets
  exact .ite h.modStrand.pump (.ite h.requestOf h.placeWord)

theorem KeepsFrom.qwrBody {a q st} : KeepsFrom s₀ (qwrBody a q st) := by
  unfold Machine.qwrBody
  refine .bind (.liftT _) fun {_} => .bind .bindingOf fun {_} => .ite (.raise _) (.get_bind fun h₁ => ?_)
  split
  exact .ite (.raise _) (.ite (.holdFor _) (.bind (.modify fun h₂ => h₂.writeWord) (.pure _)))

theorem KeepsFrom.qpollBody {p q st} : KeepsFrom s₀ (qpollBody p q st) := by
  unfold Machine.qpollBody
  refine .bind .bindingOf fun {_} => .get_bind fun h₁ => ?_
  split
  refine .ite (.raise _) ?_
  extract_lets
  split
  rename_i e
  exact .bind (.set (h₁.polled.of_fst e)) (.bind .me (.bind .setMe (.pure _)))

theorem KeepsFrom.qstatBody {d q st} : KeepsFrom s₀ (qstatBody d q st) := by
  unfold Machine.qstatBody
  refine .bind (.liftT _) fun {_} => .get_bind fun h₁ => ?_
  extract_lets
  split
  rename_i e
  exact .bind (.set (h₁.polled.of_fst e)) (.bind .putX (.pure _))

theorem Keeps.modSender (h : Keeps s₀ s) {n f} : Keeps s₀ (s.modSender n f) := by
  unfold State.modSender
  split
  · exact h.setStrand
  · split
    · exact h.setSavedQ
    · exact h

theorem Keeps.breakSend (h : Keeps s₀ s) {n} : Keeps s₀ (s.breakSend n) := h.modSender

theorem Keeps.wordArrives (h : Keeps s₀ s) {lcore chan h' n w} : Keeps s₀ (s.wordArrives lcore chan h' n w) := by
  unfold State.wordArrives
  extract_lets
  split
  · split
    · exact h.answerCredit
    · exact .ite h.setSavedQ h
  · exact .ite h.setStrand h

theorem Keeps.crosses (h : Keeps s₀ s) {lcore n ev} : Keeps s₀ (s.crosses lcore n ev) := by
  unfold State.crosses
  extract_lets
  exact .ite h.leaves h.modSender

theorem Answers.execQueueWord (h : Keeps s₀ s) : Answers s₀ (execQueueWord s) := by
  unfold Machine.execQueueWord
  split
  · refine .next (.ite h.crosses ?_)
    split
    · exact h.peerRequest
    · exact h.wordArrives
  · exact .next h.placeWord
  · exact .next h

theorem Keeps.creditAsked (h : Keeps s₀ s) {lcore chan h' n k} : Keeps s₀ (s.creditAsked lcore chan h' n k) := by
  unfold State.creditAsked
  split
  · split
    · exact h.answerCredit
    · extract_lets
      exact .ite h.setSavedQ.answerCredit (.ite h.answerCredit h.setSavedQ)
  · extract_lets
    exact .ite h.setStrand.answerCredit (.ite h.answerCredit h.setStrand)

theorem Answers.execCreditRequest (h : Keeps s₀ s) : Answers s₀ (execCreditRequest s) := by
  unfold Machine.execCreditRequest
  split
  · exact .next (.ite h.crosses h.creditAsked)
  · exact .next h

theorem Keeps.creditGranted (h : Keeps s₀ s) {h' n k nochan} : Keeps s₀ (s.creditGranted h' n k nochan) := by
  unfold State.creditGranted
  refine .ite h.breakSend (.ite h.after ?_)
  extract_lets s'
  have hs' : Keeps s₀ s' := h.modSender
  split
  · exact hs'.pump
  · exact .ite hs' h.returnCredits

theorem Answers.execCreditGrant (h : Keeps s₀ s) : Answers s₀ (execCreditGrant s) := by
  unfold Machine.execCreditGrant
  split
  · exact .next (.ite h.leaves h.creditGranted)
  · exact .next h

theorem Answers.execCreditRequestRetry (h : Keeps s₀ s) : Answers s₀ (execCreditRequestRetry s) := by
  unfold Machine.execCreditRequestRetry
  split
  · extract_lets s'
    have hs' : Keeps s₀ s' := h.modSender
    split
    · exact .next hs'.pump
    · exact .next hs'
  · exact .next h

/-! ### Messages (Messages.lean) -/

theorem Keeps.giveBack (h : Keeps s₀ s) {sk h' scope lcore w} : Keeps s₀ (s.giveBack sk h' scope lcore w) := by
  unfold State.giveBack
  split
  · exact h.setStrand
  · exact h.returnWeight

theorem Keeps.wakeCore (h : Keeps s₀ s) {p} : Keeps s₀ (s.wakeCore p) := h.modCore.modCluster.workLeaves

theorem Keeps.wakeFirst (h : Keeps s₀ s) {lcore} : Keeps s₀ (s.wakeFirst lcore) := by
  unfold State.wakeFirst
  split
  · exact .ite h.wakeCore h
  · exact h

theorem KeepsFrom.sendMessage {dst words wantReply} : KeepsFrom s₀ (sendMessage dst words wantReply) := by
  unfold Machine.sendMessage
  refine .bind .splitWeight fun {_} => .bind .newNumber fun {_} => .bind .me fun {_} => .get_bind fun h₁ => ?_
  extract_lets
  exact .bind (.modify fun h₂ => h₂.requestFor) (.pure _)

theorem KeepsFrom.sendTo {a b n d st} : KeepsFrom s₀ (sendTo a b n d st) := by
  unfold Machine.sendTo
  extract_lets _ jp
  have hjp : KeepsFrom s₀ (jp ()) := by
    unfold jp
    split
    · exact .raise _
    · exact .get_bind fun h₂ => .ite (.raise _) (.pure _)
  refine .bind (.liftT _) fun {_} => ?_
  split
  · exact .ite (.bind (.raise _) hjp) hjp
  · exact hjp

theorem KeepsFrom.sendBody {a b n st} : KeepsFrom s₀ (sendBody a b n st) := by
  unfold Machine.sendBody
  split
  · exact .pure _
  · exact .raise _
  · exact .raise _
  · refine .bind .cancelPoint fun {_} => .bind .sendTo fun {_} => ?_
    split
    exact .bind .sendMessage (.holdFor _)

theorem KeepsFrom.sendrBody {d a b n st} : KeepsFrom s₀ (sendrBody d a b n st) := by
  unfold Machine.sendrBody
  split
  · extract_lets
    exact .bind (.forM .putX) (.pure _)
  · refine .bind .cancelPoint fun {_} => .bind .sendTo fun {_} => ?_
    split
    exact .bind .sendMessage (.holdFor _)

theorem KeepsFrom.replyBody {b n st} : KeepsFrom s₀ (replyBody b n st) := by
  unfold Machine.replyBody
  extract_lets
  refine .bind (.liftT _) fun {_} => ?_
  split
  · extract_lets
    exact .bind (.modify fun h₁ => h₁.modStrand.requestOf) (.pure _)
  · exact .raise _

theorem KeepsFrom.endBody {st} : KeepsFrom s₀ (endBody st) := by
  unfold Machine.endBody
  split
  · exact .raise _
  · refine .get_bind fun h₁ => ?_
    split
    · exact .raise _
    · refine .bind .drained fun {_} => .get_bind fun h₂ => ?_
      extract_lets jp
      have hjp : KeepsFrom s₀ (jp ()) := .bind (.modify fun h₄ => h₄.endStrand) (.pure _)
      exact .ite (.bind (.holdFor _) hjp) hjp

theorem KeepsFrom.hretBody {i st} : KeepsFrom s₀ (hretBody i st) := by
  unfold Machine.hretBody
  exact .ite (.raise _) .endBody

theorem Keeps.maskChannels (h : Keeps s₀ s) {st w m} : Keeps s₀ (s.maskChannels st w m) := by
  unfold State.maskChannels
  extract_lets
  refine .foldl h fun h₁ => ?_
  extract_lets _ s₁
  have hs₁ : Keeps s₀ s₁ := h₁.setHandler
  exact .ite (.ite hs₁ hs₁.startNext) h₁

theorem KeepsFrom.maskBody {m a st} : KeepsFrom s₀ (maskBody m a st) := by
  unfold Machine.maskBody
  exact .bind (.liftT _) (.bind (.modify fun h₁ => h₁.maskChannels) (.pure _))

theorem Keeps.endLends (h : Keeps s₀ s) {lcore chan scope} : Keeps s₀ (s.endLends lcore chan scope) := by
  unfold State.endLends
  extract_lets
  exact .ite h.returnChannel h.setHandler

theorem Keeps.removeHandler (h : Keeps s₀ s) {lcore chan scope cause} :
    Keeps s₀ (s.removeHandler lcore chan scope cause) := by
  unfold State.removeHandler
  extract_lets s₁ _ s₂
  have hs₁ : Keeps s₀ s₁ := h.endLends
  have hs₂ : Keeps s₀ s₂ := hs₁.setHandler
  exact .foldl hs₂ fun h₁ => h₁.refuse

theorem KeepsFrom.hsetBody {a b st} : KeepsFrom s₀ (hsetBody a b st) := by
  unfold Machine.hsetBody
  refine .bind (.liftT _) fun {_} => ?_
  extract_lets
  refine .get_bind fun h₁ => ?_
  extract_lets
  exact .ite (.raise _) (.ite (.raise _) (.ite (.raise _) (.ite (.raise _) (.bind (.modify fun h₂ =>
    .ite h₂.removeHandler h₂.setHandler) (.pure _)))))

theorem Keeps.settleMsg (h : Keeps s₀ s) {m cause} : Keeps s₀ (s.settleMsg m cause) := by
  unfold State.settleMsg
  split
  · exact h.takeMsg
  · exact h.refuse

theorem Keeps.messageAt (h : Keeps s₀ s) {m} : Keeps s₀ (s.messageAt m) := by
  unfold State.messageAt
  extract_lets again
  have hagain : ∀ {s}, Keeps s₀ s → Keeps s₀ (again s) := fun h₁ => h₁.after
  refine .ite ?_ (h.ordered hagain (fun h₁ => h₁.settleMsg))
  split
  · exact .ite (h.waitsTurn hagain) (h.ordered hagain (fun h₁ => h₁.settleMsg))
  · exact h.ordered hagain (fun h₁ => h₁.settleMsg)
  · exact h.diverges

theorem Keeps.peerAnswered (h : Keeps s₀ s) {n} : Keeps s₀ (s.peerAnswered n) := by
  unfold State.peerAnswered
  extract_lets
  exact h.frame

theorem Answers.execMessage (h : Keeps s₀ s) : Answers s₀ (execMessage s) := by
  unfold Machine.execMessage
  split
  · exact .next (.ite (.ite h.leaves h.refuse) (.ite h.peerRequest h.wakeFirst.messageAt))
  · exact .next h

theorem Answers.execReplyArrival (h : Keeps s₀ s) : Answers s₀ (execReplyArrival s) := by
  unfold Machine.execReplyArrival
  split
  · exact .next (.ite h.leaves h.peerAnswered.reply)
  · exact .next h

theorem Keeps.msgRefused (h : Keeps s₀ s) {cause m} : Keeps s₀ (s.msgRefused cause m) := by
  unfold State.msgRefused
  extract_lets s₁
  have hs₁ : Keeps s₀ s₁ := h.peerAnswered.giveBack
  refine .ite hs₁.reply ?_
  split
  · exact hs₁
  · exact .ite hs₁ (.ite hs₁.setStrand.after hs₁.reply)

theorem Keeps.cmdRefused (h : Keeps s₀ s) {c} : Keeps s₀ (s.cmdRefused c) := h.after

theorem Answers.execRefusal (h : Keeps s₀ s) : Answers s₀ (execRefusal s) := by
  unfold Machine.execRefusal
  split
  · exact .next (.ite h.leaves h.msgRefused)
  · exact .next h.cmdRefused
  · exact .next h.reply
  · exact .next h

theorem Answers.execSendResend (h : Keeps s₀ s) : Answers s₀ (execSendResend s) := by
  unfold Machine.execSendResend
  split
  · exact .next h.request.countFlits
  · split
    · exact .next h
    · refine .ite (.next h) ?_
      split
      · exact .next h.setStrand
      · extract_lets
        exact .next h.setStrand.requestFor
  · exact .next h

/-! ### Contexts on their way to a core (Placement.lean) -/

theorem Keeps.reserveLive (h : Keeps s₀ s) {scope} (e : s.reserveLive scope = some t) : Keeps s₀ t := by
  unfold State.reserveLive at e
  extract_lets at e
  split at e <;> cases e
  exact h.modScb

theorem Keeps.sendPlacement (h : Keeps s₀ s) {lcore serial cluster named c} :
    Keeps s₀ (s.sendPlacement lcore serial cluster named c) := h.request

theorem Keeps.placeOn (h : Keeps s₀ s) {l cluster named c} : Keeps s₀ (s.placeOn l cluster named c) := by
  unfold State.placeOn
  extract_lets back
  have hback : ∀ {s}, Keeps s₀ s → Keeps s₀ (back s) := fun h₁ => h₁.after
  split
  · exact .ite h.discardCtx (hback h)
  · refine .ite h.push ?_
    split
    · rename_i e
      exact h.arrive.of_fst e
    · rename_i e
      exact hback (h.arrive.of_fst e)

theorem Keeps.placement (h : Keeps s₀ s) {cluster named c} : Keeps s₀ (s.placement cluster named c) := by
  unfold State.placement
  split
  · exact h.placeOn
  · extract_lets
    split
    · exact h.after
    · split
      rename_i e
      exact .placeOn (h.polled.of_fst e)

theorem Answers.execSpawnPlacement (h : Keeps s₀ s) : Answers s₀ (execSpawnPlacement s) := by
  unfold Machine.execSpawnPlacement
  split
  · exact .next h.wakeFirst.placement
  · exact .next h.wakeFirst.placeOn
  · exact .next h

theorem Answers.execWheelReplace (h : Keeps s₀ s) : Answers s₀ (execWheelReplace s) := by
  unfold Machine.execWheelReplace
  split
  · exact .next h.sendPlacement
  · exact .next h

theorem Keeps.flushOwned (h : Keeps s₀ s) {st} : Keeps s₀ (s.flushOwned st) := by
  unfold State.flushOwned
  extract_lets
  exact .foldl h fun h₁ => .ite h₁.flushRegion h₁

theorem Keeps.leaveChannel (h : Keeps s₀ s) {st} : Keeps s₀ (s.leaveChannel st) := by
  unfold State.leaveChannel
  split
  · exact h
  · extract_lets s₁ _ s₂ s₃
    have hs₁ : Keeps s₀ s₁ := h.answerOwed
    have hs₂ : Keeps s₀ s₂ := hs₁.setHandler
    have hs₃ : Keeps s₀ s₃ := hs₂.returnChannel
    exact hs₃.startNext

theorem Keeps.departed (h : Keeps s₀ s) {sk} : Keeps s₀ (s.departed sk) := by
  unfold State.departed
  split
  · exact h
  · exact h.leaveChannel.dropStrand.bankStates.workLeaves.send

theorem Keeps.migrationAnswer (h : Keeps s₀ s) {sk h' n a} : Keeps s₀ (s.migrationAnswer sk h' n a) := by
  unfold State.migrationAnswer
  split
  · exact h
  · split
    · refine .ite h ?_
      split
      · exact h.departed
      · exact h.setStrand
    · exact h

theorem Keeps.withdraw (h : Keeps s₀ s) {st} : Keeps s₀ (s.withdraw st) := by
  unfold State.withdraw
  split
  · exact h
  · extract_lets
    exact h.frame

theorem Keeps.memberDied (h : Keeps s₀ s) {g rank lcore} : Keeps s₀ (s.memberDied g rank lcore) := by
  unfold State.memberDied
  split
  · exact h
  · extract_lets _ _ s₁ s₂
    have hs₁ : Keeps s₀ s₁ := h.frame
    have hs₂ : Keeps s₀ s₂ := by
      unfold s₂
      refine .foldl hs₁ fun h₁ => ?_
      split
      · exact h₁
      · split
        · exact .ite h₁.withdraw.setStrand.bankStates h₁
        · exact h₁
    exact hs₂.leaveGang

theorem Keeps.ctxDies (h : Keeps s₀ s) {l c} : Keeps s₀ (s.ctxDies l c) := by
  unfold State.ctxDies
  extract_lets s₁
  have hs₁ : Keeps s₀ s₁ := .ite h h.memberDied
  exact hs₁.discardCtx

theorem Keeps.answerMigration (h : Keeps s₀ s) {c n lcore a} : Keeps s₀ (s.answerMigration c n lcore a) := by
  unfold State.answerMigration
  extract_lets
  exact .ite h.ctxDies (.ite h.migrationAnswer h.send)

theorem Keeps.migrationArrives (h : Keeps s₀ s) {n l c} : Keeps s₀ (s.migrationArrives n l c) := by
  unfold State.migrationArrives
  split
  · exact h.answerMigration
  · split
    · rename_i e
      exact .answerMigration (h.arrive.of_fst e)
    · rename_i e
      exact .answerMigration (h.arrive.of_fst e)

theorem Answers.execMigration (h : Keeps s₀ s) : Answers s₀ (execMigration s) := by
  unfold Machine.execMigration
  split
  · exact .next h.wakeFirst.migrationArrives
  · exact .next h

theorem Answers.execAcknowledgement (h : Keeps s₀ s) : Answers s₀ (execAcknowledgement s) := by
  unfold Machine.execAcknowledgement
  split
  · extract_lets s₁
    have hs₁ : Keeps s₀ s₁ := .ite h.leaves h.peerAnswered
    split
    · exact .next hs₁
    · split
      · exact .next hs₁.migrationAnswer
      · exact .next hs₁.reply
  · exact .next h

theorem Keeps.admitCore (h : Keeps s₀ s) {p} : Keeps s₀ (s.admitCore p) := by
  unfold State.admitCore
  extract_lets _ s₁
  have hs₁ : Keeps s₀ s₁ := .ite h (.foldl h fun h₁ => h₁.startNext)
  exact hs₁.letIn

theorem Answers.execAdmission (h : Keeps s₀ s) : Answers s₀ (execAdmission s) := by
  unfold Machine.execAdmission
  split
  · exact .next h.admitCore
  · exact .next h

theorem Answers.execOverflowRefill (h : Keeps s₀ s) : Answers s₀ (execOverflowRefill s) := by
  unfold Machine.execOverflowRefill
  split
  · exact .next h.refillArrival
  · exact .next h

/-! ### Vector instructions (Vector.lean) -/

theorem KeepsFrom.setVreg {d f} : KeepsFrom s₀ (setVreg d f) := by
  unfold Machine.setVreg
  exact .bind .me .setMe

theorem KeepsFrom.vldBody {d b disp st} : KeepsFrom s₀ (vldBody d b disp st) := by
  unfold Machine.vldBody
  refine .bind (.liftT _) fun {_} => ?_
  extract_lets
  refine .bind .loadBytes fun {_} => ?_
  split
  exact .bind .setVreg (.pure _)

theorem KeepsFrom.vstBody {c x b disp st0} : KeepsFrom s₀ (vstBody c x b disp st0) := by
  unfold Machine.vstBody
  extract_lets
  refine .bind (.liftT _) fun {_} => .bind (.liftT _) fun {_} => ?_
  split
  exact .bind .storeBytes (.bind .me (.bind .setMe (.pure _)))

theorem KeepsFrom.vldsBody {d b disp st} : KeepsFrom s₀ (vldsBody d b disp st) := by
  unfold Machine.vldsBody
  refine .bind (.liftT _) fun {_} => ?_
  extract_lets
  refine .bind (.mapM (fun {_} => .bind .loadBytes fun {_} => ?_)) (.bind .setVreg (.pure _))
  split
  exact .pure _

theorem KeepsFrom.vstsBody {x b disp st0} : KeepsFrom s₀ (vstsBody x b disp st0) := by
  unfold Machine.vstsBody
  extract_lets _ _ _ _ _ _ jp
  have hjp : KeepsFrom s₀ (jp ()) := .bind .me (.bind .setMe (.pure _))
  refine .bind (.liftT _) fun {_} => .get_bind fun h₁ => ?_
  extract_lets
  refine .bind (.mapM (fun {_} => .bind .placeOf fun {_} => .bind .noteRemote fun {_} => ?_)) fun {_} => .bind .holds
    fun {_} => ?_
  · extract_lets jp₁
    have hjp₁ : KeepsFrom s₀ (jp₁ ()) := .pure _
    exact .ite hjp₁ (.bind .prefill hjp₁)
  · extract_lets jp₁
    have hjp₁ : KeepsFrom s₀ (jp₁ ()) := by
      unfold jp₁
      refine .ite ?_ (.bind (.forM (fun {_} => ?_)) hjp)
      · split
        · exact .ite (.bind .holdStore hjp) (.bind .storeAt hjp)
        · exact hjp
      · split
        extract_lets
        exact .ite .holdStore .storeAt
    exact .ite hjp₁ (.bind (.forM .placeAnswered) hjp₁)

/-! ### Engines (Engines.lean) -/

theorem KeepsFrom.readBlock {va} : KeepsFrom s₀ (readBlock va) := by
  unfold Machine.readBlock
  refine .bind .loadBytes fun {_} => ?_
  split
  exact .pure _

theorem KeepsFrom.cellPlace {write va} : KeepsFrom s₀ (cellPlace write va) := by
  unfold Machine.cellPlace
  exact .bind .me (.get_bind fun h₁ => .bind .placeOf (.ite (.holdFor _) (.pure _)))

theorem KeepsFrom.clearWord {va} : KeepsFrom s₀ (clearWord va) := by
  unfold Machine.clearWord
  exact .bind .cellPlace (.bind .me (.bind .noteRemote (.get_bind fun h₁ => .bind .me .storeAt)))

theorem KeepsFrom.lendTokens {st c} : KeepsFrom s₀ (lendTokens st c) := by
  unfold Machine.lendTokens
  exact .forM (.bind .regionOf .transfer)

theorem KeepsFrom.issueEffects {st c} : KeepsFrom s₀ (issueEffects st c) := by
  unfold Machine.issueEffects
  exact .bind .clearWord .lendTokens

theorem KeepsFrom.reachable {st c} : KeepsFrom s₀ (reachable st c) := by
  unfold Machine.reachable
  exact .get_bind fun h₁ => .ite (.raise _) (.pure _)

theorem KeepsFrom.commandBody {op fscope a st} : KeepsFrom s₀ (commandBody op fscope a st) := by
  unfold Machine.commandBody
  split
  · exact .pure _
  · exact .raise _
  · refine .bind (.liftT _) fun {_} => .bind .readBlock fun {_} => .get_bind fun h₁ => ?_
    extract_lets
    refine .bind .reachable fun {_} => .bind .cellPlace fun {_} => .bind (.forM (.bind .lendable (.pure _)))
      fun {_} => .bind .weightReady fun {_} => .bind .newNumber fun {_} => ?_
    extract_lets
    refine .get_bind fun h₂ => ?_
    extract_lets _ jp
    have hjp : KeepsFrom s₀ (jp ()) := by
      unfold jp
      refine .bind .splitWeight fun {_} => ?_
      extract_lets
      refine .bind (.modify fun h₄ => ?_) (.holdFor _)
      extract_lets s₁
      have hs₁ : Keeps s₀ s₁ := h₄.modStrand
      exact hs₁.requestFor
    exact .ite (.bind .issueEffects hjp) hjp

theorem Keeps.modCmd (h : Keeps s₀ s) {e n f} : Keeps s₀ (s.modCmd e n f) := h.modEngine

theorem Keeps.kick (h : Keeps s₀ s) {e} : Keeps s₀ (s.kick e) := .ite h h.after

theorem Keeps.endCmd (h : Keeps s₀ s) {c code} : Keeps s₀ (s.endCmd c code) := by
  unfold State.endCmd
  split
  · exact h
  · exact .ite h h.modCmd.request

theorem Keeps.endAll (h : Keeps s₀ s) {c code} : Keeps s₀ (s.endAll c code) := by
  unfold State.endAll
  refine .ite ?_ h.endCmd
  extract_lets s₁
  have hs₁ : Keeps s₀ s₁ := .foldl h.endCmd fun h₁ => h₁.endCmd
  split
  · exact hs₁.frame
  · exact hs₁

theorem Keeps.joinStep (h : Keeps s₀ s) {c early} : Keeps s₀ (s.joinStep c early) := by
  unfold State.joinStep
  refine .ite (.ite h.endCmd (.ite h.endCmd (.ite h.endCmd h.kick))) ?_
  split
  · exact h.endCmd
  · extract_lets _ s₁
    have hs₁ : Keeps s₀ s₁ := h.frame
    split
    · exact hs₁.endCmd
    · split
      · exact hs₁.endAll
      · exact .ite hs₁.endAll (.ite hs₁ (.ite hs₁.endAll (.ite hs₁.endAll (.foldl hs₁ fun h₁ => h₁.kick))))

theorem Keeps.enterInbox (h : Keeps s₀ s) {c} : Keeps s₀ (s.enterInbox c) := by
  unfold State.enterInbox
  refine .ite h.deliver ?_
  extract_lets s₁ early _ _ s₂ s₃
  have hs₁ : Keeps s₀ s₁ := h.modCluster
  have hs₂ : Keeps s₀ s₂ := hs₁.modEngine
  have hs₃ : Keeps s₀ s₃ := .ite hs₂ hs₂.deliver
  refine .ite hs₃.joinStep ?_
  clear_value early
  split
  · exact hs₃.endCmd
  · exact .ite hs₃.endCmd hs₃.kick

theorem Keeps.commandArrives (h : Keeps s₀ s) {c} : Keeps s₀ (s.commandArrives c) := by
  unfold State.commandArrives
  refine .ite h.enterInbox ?_
  split
  · exact h.enterInbox
  · split
    · rename_i e
      exact .enterInbox ((KeepsFrom.issueEffects _ h.frame).of_snd e)
    · rename_i e
      extract_lets s₁
      have hs₁ : Keeps s₀ s₁ := .ite (.modStrand ((KeepsFrom.issueEffects _ h.frame).of_snd e))
        ((KeepsFrom.issueEffects _ h.frame).of_snd e)
      exact hs₁.giveBack.deliver
    · exact h.after

theorem Answers.execEngineCommand (h : Keeps s₀ s) : Answers s₀ (execEngineCommand s) := by
  unfold Machine.execEngineCommand
  split
  · exact .next h.commandArrives
  · exact .next h

theorem KeepsFrom.engineRead {c va n} : KeepsFrom s₀ (engineRead c va n) := by
  unfold Machine.engineRead
  refine .get_bind fun h₁ => ?_
  extract_lets
  exact .bind .placeOf .loadAt

theorem KeepsFrom.engineWrite {c va bs d} : KeepsFrom s₀ (engineWrite c va bs d) := by
  unfold Machine.engineWrite
  refine .get_bind fun h₁ => ?_
  extract_lets
  exact .bind .placeOf .storeAt

theorem KeepsFrom.fetchUnit {c} : KeepsFrom s₀ (fetchUnit c) := by
  unfold Machine.fetchUnit
  extract_lets
  refine .ite (.bind .engineRead fun {_} => ?_) (.ite (.pure _) (.ite (.bind .engineRead fun {_} => ?_) (.bind
    .engineRead fun {_} => ?_)))
  · split
    refine .bind (.liftT _) fun {_} => ?_
    split
    exact .pure _
  · split
    exact .pure _
  · split
    extract_lets
    split
    refine .bind .engineRead fun {_} => ?_
    split
    exact .pure _

theorem Keeps.stopCmd (h : Keeps s₀ s) {c e} : Keeps s₀ (s.stopCmd c e) := by
  unfold State.stopCmd
  split
  · exact h.endAll
  · exact h.askPage.modCmd
  · exact h.modCmd

theorem Keeps.moveSector (h : Keeps s₀ s) {c} : Keeps s₀ (s.moveSector c) := by
  unfold State.moveSector
  refine .ite h.endAll ?_
  split
  · rename_i e
    exact .stopCmd ((KeepsFrom.fetchUnit _ h).of_snd e)
  · rename_i e
    extract_lets s₁
    have hs₁ : Keeps s₀ s₁ := .countFlits (.modCmd ((KeepsFrom.fetchUnit _ h).of_snd e))
    exact .ite hs₁.bulk hs₁.bulk

theorem Answers.execEngineSector (h : Keeps s₀ s) : Answers s₀ (execEngineSector s) := by
  unfold Machine.execEngineSector
  split
  · split
    · exact .next h.kick
    · exact .next h.modEngine.moveSector.kick
  · exact .next h

theorem Keeps.unitDone (h : Keeps s₀ s) {c} : Keeps s₀ (s.unitDone c) := by
  unfold State.unitDone
  extract_lets s₁
  have hs₁ : Keeps s₀ s₁ := h.modCmd
  exact .ite hs₁.endCmd hs₁.kick

theorem Answers.execEngineData (h : Keeps s₀ s) : Answers s₀ (execEngineData s) := by
  unfold Machine.execEngineData
  split
  · split
    · split
      · exact .next h
      · refine .ite (.next h) ?_
        extract_lets
        split
        · rename_i e
          exact .next (.unitDone ((KeepsFrom.engineWrite _ h).of_snd e))
        · rename_i e
          exact .next (.kick (.stopCmd ((KeepsFrom.engineWrite _ h).of_snd e)))
    · exact .next h
  · exact .next h

theorem Keeps.dropParts (h : Keeps s₀ s) {c} : Keeps s₀ (s.dropParts c) := by
  unfold State.dropParts
  split
  · exact h.frame
  · exact h

theorem Keeps.combine (h : Keeps s₀ s) {c cmds parts} : Keeps s₀ (s.combine c cmds parts) := by
  unfold State.combine
  split
  · exact h.endAll
  · extract_lets _ _ s₁ s₂ s₃
    have hs₁ : Keeps s₀ s₁ := .foldl h fun h₁ => h₁.modCmd
    have hs₂ : Keeps s₀ s₂ := hs₁.dropParts
    have hs₃ : Keeps s₀ s₃ := by
      unfold s₃
      refine .foldl h fun h₁ => ?_
      split
      · rename_i e
        exact .unitDone (.modCmd (.injects ((KeepsFrom.engineWrite _ h₁).of_snd e)))
      · rename_i e
        exact .stopCmd ((KeepsFrom.engineWrite _ h₁).of_snd e)
    split
    · exact .foldl hs₂.stopCmd fun h₁ => h₁.kick
    · exact hs₃.dropParts

theorem Keeps.contribute (h : Keeps s₀ s) {c b d} : Keeps s₀ (s.contribute c b d) := by
  unfold State.contribute
  refine .ite h.combine ?_
  split
  · exact h.endCmd
  · extract_lets _ s₁
    have hs₁ : Keeps s₀ s₁ := h.frame
    exact .ite hs₁ hs₁.combine

theorem Answers.execCollectiveData (h : Keeps s₀ s) : Answers s₀ (execCollectiveData s) := by
  unfold Machine.execCollectiveData
  split
  · split
    · split
      · exact .next h
      · exact .ite (.next h) (.next h.contribute)
    · exact .next h
  · exact .next h

theorem Keeps.digestAt (h : Keeps s₀ s) {g step rank d} : Keeps s₀ (s.digestAt g step rank d) := by
  unfold State.digestAt
  split
  · exact h
  · extract_lets _ _ s₁
    have hs₁ : Keeps s₀ s₁ := h.frame
    refine .ite h.frame ?_
    split
    · exact hs₁
    · split
      · exact hs₁.report
      · exact hs₁

theorem Answers.execDigest (h : Keeps s₀ s) : Answers s₀ (execDigest s) := by
  unfold Machine.execDigest
  split
  · exact .next h.digestAt
  · exact .next h

theorem Keeps.returnLent (h : Keeps s₀ s) {c} : Keeps s₀ (s.returnLent c).1 := by
  refine .foldlFst (.fst h) fun {p _} h₁ => ?_
  obtain ⟨s₁, ns⟩ := p
  dsimp only
  split
  · exact .fst (.sendGrant (.modToken h₁))
  · exact .fst h₁

theorem Keeps.writeCell (h : Keeps s₀ s) {c va v} (e : s.writeCell c va v = .ok t) : Keeps s₀ t := by
  unfold State.writeCell at e
  extract_lets who body at e
  have hbody : KeepsFrom s₀ body := .bind .placeOf .storeAt
  split at e <;> cases e
  rename_i e
  exact (hbody _ h).of_snd e

theorem Keeps.countDropped (h : Keeps s₀ s) {cluster} : Keeps s₀ (s.countDropped cluster) := h.modCluster

theorem Keeps.leaveInbox (h : Keeps s₀ s) {c lost} : Keeps s₀ (s.leaveInbox c lost) := by
  unfold State.leaveInbox
  extract_lets s₁ s₂ s₃ s₄ s₅ s₆
  have hs₁ : Keeps s₀ s₁ := h.modEngine
  have hs₂ : Keeps s₀ s₂ := hs₁.workLeaves
  have hs₃ : Keeps s₀ s₃ := by
    unfold s₃
    split
    · refine .ite ?_ hs₂
      extract_lets
      exact hs₂.frame
    · exact hs₂
  have hs₄ : Keeps s₀ s₄ := .ite hs₃.deliver hs₃
  have hs₅ : Keeps s₀ s₅ := hs₄.returnWeight
  have hs₆ : Keeps s₀ s₆ := by
    unfold s₆
    split
    · exact hs₅.nodeEnds
    · exact hs₅
  exact hs₆.kick

theorem Keeps.cellTurn (h : Keeps s₀ s) {c va go} (hgo : ∀ {s}, Keeps s₀ s → Keeps s₀ (go s)) :
    Keeps s₀ (s.cellTurn c va go) := h.ordered (fun h₁ => h₁.after) hgo

theorem Keeps.wordWritten (h : Keeps s₀ s) {c} : Keeps s₀ (s.wordWritten c) := by
  unfold State.wordWritten
  split
  · exact h.frame.answerWords
  · exact h

theorem Keeps.completeCmd (h : Keeps s₀ s) {c} : Keeps s₀ (s.completeCmd c) := by
  unfold State.completeCmd
  extract_lets s₁
  have hs₁ : Keeps s₀ s₁ := by
    unfold s₁
    refine .ite ?_ h
    split
    · rename_i e
      exact h.writeCell e
    · exact h.countDropped
  split
  · refine hs₁.cellTurn (fun h₁ => ?_)
    split
    · rename_i e₁
      exact .leaveInbox (.wordWritten (h₁.writeCell e₁))
    · exact h₁.countDropped.leaveInbox
  · exact hs₁.after
  · exact hs₁.askPage.modCmd
  · exact hs₁.countDropped.leaveInbox

theorem Keeps.engineDies (h : Keeps s₀ s) {c reach} : Keeps s₀ (s.engineDies c reach) := by
  unfold State.engineDies
  extract_lets
  split
  · exact h.leaveInbox
  · refine .ite h.leaveInbox ?_
    split
    · rename_i e
      exact .leaveInbox (.wordWritten (h.writeCell e))
    · exact h.leaveInbox

theorem Keeps.commandEnds (h : Keeps s₀ s) {e n code} : Keeps s₀ (s.commandEnds e n code) := by
  unfold State.commandEnds
  split
  · exact h
  · split
    · exact h.endCmd
    · exact h
    · exact h
    · refine .ite h.completeCmd (.ite h.after ?_)
      split
      rename_i e
      extract_lets s₁
      have hs₁ : Keeps s₀ s₁ := .modCmd (h.returnLent.of_fst e)
      exact hs₁.request

theorem Answers.execEngineCommandEnd (h : Keeps s₀ s) : Answers s₀ (execEngineCommandEnd s) := by
  unfold Machine.execEngineCommandEnd
  split
  · exact .next h.commandEnds
  · exact .next h.commandEnds
  · exact .next h

theorem KeepsFrom.askWord {st va key} : KeepsFrom s₀ (askWord st va key) := by
  unfold Machine.askWord
  refine .bind .newNumber fun {_} => .bind (.modify fun h₁ => ?_) (.holdFor _)
  extract_lets
  exact h₁.requestOf

theorem KeepsFrom.ewtBody {d a st} : KeepsFrom s₀ (ewtBody d a st) := by
  unfold Machine.ewtBody
  split
  · exact .bind .putX (.pure _)
  · exact .raise _
  · refine .bind .cancelPoint fun {_} => .bind (.liftT _) fun {_} => ?_
    extract_lets
    refine .get_bind fun h₁ => .ite (.get_bind fun h₂ => .bind .placeOf (.bind .noteRemote (.bind .askWord
      (.pure _)))) (.bind .cellPlace fun {_} => .get_bind fun h₂ => .bind .loadAt fun {_} => ?_)
    split
    extract_lets
    exact .ite (.bind .noteRemote (.bind .putX (.pure _))) (.holdFor _)

theorem KeepsFrom.echkBody {d a st} : KeepsFrom s₀ (echkBody d a st) := by
  unfold Machine.echkBody
  exact .bind (.liftT _) (.get_bind fun h₁ => .bind .placeOf (.bind (.liftT _) (.bind .issueCell (.pure _))))

/-! ### The dependence graph (Nodes.lean) -/

theorem Keeps.lendNode (h : Keeps s₀ s) {c w} : Keeps s₀ (s.lendNode c w) := by
  unfold State.lendNode
  split
  · exact h
  · extract_lets
    exact h.modToken.sendGrant

theorem Keeps.fireCommand (h : Keeps s₀ s) {id c} : Keeps s₀ (s.fireCommand id c) := by
  unfold State.fireCommand
  refine .ite ?_ ?_
  · extract_lets
    exact .ite h h.after
  · extract_lets s₁ _ _ s₂ _ s₃ _ _ s₄
    have hs₁ : Keeps s₀ s₁ := by
      unfold s₁
      split
      · exact .ite h h.commitIdem
      · exact h
    have hs₂ : Keeps s₀ s₂ := hs₁.setNode
    have hs₃ : Keeps s₀ s₃ := hs₂.frame
    have hs₄ : Keeps s₀ s₄ := .ite (.foldl hs₃ fun h₁ => h₁.lendNode) hs₃
    exact .ite (.ite hs₁ hs₁.after) hs₄.injects.send

theorem Keeps.fireStrand (h : Keeps s₀ s) {id} : Keeps s₀ (s.fireStrand id) := by
  unfold State.fireStrand
  extract_lets
  split
  · exact .ite h h.after
  · rename_i e
    extract_lets
    exact .send (.injects (.setNode (h.reserveLive e)))

theorem Keeps.fireNode (h : Keeps s₀ s) {id} : Keeps s₀ (s.fireNode id) := by
  unfold State.fireNode
  extract_lets _ s₁ s₂
  have hs₁ : Keeps s₀ s₁ := h.returnWeight
  have hs₂ : Keeps s₀ s₂ := h.setNode
  refine .ite hs₁.setNode.nodeEnds ?_
  split
  · exact .ite hs₂.fireStrand hs₂.fireCommand
  · exact hs₂.fireStrand

theorem Keeps.refire (h : Keeps s₀ s) {id} : Keeps s₀ (s.refire id) := by
  unfold State.refire
  extract_lets
  split
  · exact .ite h.fireStrand h.fireCommand
  · exact h.fireStrand

theorem KeepsFrom.checkRegions {c} : KeepsFrom s₀ (checkRegions c) := by
  unfold Machine.checkRegions
  refine .forM (fun {_} => .bind .regionOf fun {_} => .get_bind fun h₁ => ?_)
  split
  · exact .pure _
  · exact .raise _

theorem KeepsFrom.nodeWord {w c} : KeepsFrom s₀ (nodeWord w c) := by
  unfold Machine.nodeWord
  exact .get_bind fun h₁ => .ite .clearWord (.pure _)

theorem KeepsFrom.createNode {w c} : KeepsFrom s₀ (createNode w c) := by
  unfold Machine.createNode
  refine .get_bind fun h₁ => ?_
  split
  · exact .bind (.set h₁.giveBack) (.pure _)
  · extract_lets _ _ _ _ _ jp
    have hjp : KeepsFrom s₀ (jp ()) := .pure _
    exact .bind (.set h₁.setNode) (.ite (.bind (.modify fun h₂ => h₂.fireNode) hjp) hjp)

theorem KeepsFrom.nodeMade {d v op} : KeepsFrom s₀ (nodeMade d v op) := by
  unfold Machine.nodeMade
  exact .bind (.modify fun h₁ => .ite h₁.modStrand h₁) (.bind .putX (.pure _))

theorem KeepsFrom.nodeBody {d a b st} : KeepsFrom s₀ (nodeBody d a b st) := by
  unfold Machine.nodeBody
  split
  · exact .nodeMade
  · exact .raise _
  · extract_lets _ _ jp
    have hjp : ∀ {x}, KeepsFrom s₀ (jp x) := by
      intro _
      unfold jp
      refine .get_bind fun h₂ => ?_
      extract_lets _ jp₁
      have hjp₁ : KeepsFrom s₀ (jp₁ ()) := by
        unfold jp₁
        refine .get_bind fun h₄ => ?_
        split
        · exact .raise _
        · refine .bind (.liftT _) fun {_} => .bind .weightReady fun {_} => .get_bind fun h₅ => ?_
          extract_lets _ jp₂
          have hjp₂ : KeepsFrom s₀ (jp₂ ()) := by
            unfold jp₂
            refine .bind .splitWeight fun {_} => ?_
            extract_lets
            exact .ite (.bind .newNumber (.bind (.modify fun h₇ => h₇.request) (.holdFor _))) (.bind .createNode
              .nodeMade)
          exact .ite (.bind .nodeWord hjp₂) hjp₂
      exact .ite (.bind .reachable (.bind .cellPlace (.bind .checkRegions hjp₁))) hjp₁
    exact .bind (.liftT _) (.ite (.raise _) (.ite (.bind (.pure _) hjp) (.bind .readBlock hjp)))

theorem Keeps.serveNode (h : Keeps s₀ s) {n w c} : Keeps s₀ (s.serveNode n w c) := by
  unfold State.serveNode
  split
  · exact h.returnWeight
  · refine .ite h ?_
    extract_lets answer
    have hanswer : ∀ {s a}, Keeps s₀ s → Keeps s₀ (answer s a) := fun h₁ => h₁.deliver
    split
    · rename_i e
      exact hanswer (((KeepsFrom.bind .nodeWord .createNode) _ h.frame).of_snd e)
    · rename_i e
      exact hanswer (.giveBack (((KeepsFrom.bind .nodeWord .createNode) _ h.frame).of_snd e))
    · rename_i e
      exact .modStrand (.giveBack (((KeepsFrom.bind .nodeWord .createNode) _ h.frame).of_snd e))

theorem KeepsFrom.edecBody {a st} : KeepsFrom s₀ (edecBody a st) := by
  unfold Machine.edecBody
  refine .bind (.liftT _) fun {_} => ?_
  extract_lets
  refine .bind (.modify fun h₁ => ?_) (.pure _)
  extract_lets
  exact .ite h₁.countIgnored (.ite h₁.requestOf h₁.push.countPacket)

theorem Keeps.decrement (h : Keeps s₀ s) {id gen n} : Keeps s₀ (s.decrement id gen n) := by
  unfold State.decrement
  extract_lets _ _ s₁
  have hs₁ : Keeps s₀ s₁ := h.setNode
  exact .ite h.countIgnored (.ite hs₁.fireNode hs₁)

theorem Answers.execPredecessorDecrement (h : Keeps s₀ s) : Answers s₀ (execPredecessorDecrement s) := by
  unfold Machine.execPredecessorDecrement
  split
  · exact .next h.decrement
  · exact .next h

theorem Answers.execNodeReservationRetry (h : Keeps s₀ s) : Answers s₀ (execNodeReservationRetry s) := by
  unfold Machine.execNodeReservationRetry
  split
  · extract_lets
    exact .ite (.next h.refire) (.next h)
  · exact .next h

theorem Keeps.fireNodes (h : Keeps s₀ s) {top} : Keeps s₀ (s.fireNodes top) := by
  unfold State.fireNodes
  extract_lets
  refine .foldl h fun h₁ => ?_
  extract_lets
  exact .ite h₁ (.ite h₁.fireNode (.ite h₁.refire h₁))

/-! ### The moves that can come next (Schedule.lean) -/

theorem Keeps.readSources (h : Keeps s₀ s) {st i} : Keeps s₀ (s.readSources st i) := by
  unfold State.readSources
  refine .ite h ?_
  extract_lets s₁ s₂
  have hs₁ : Keeps s₀ s₁ := .foldl h fun h₁ => .ite h₁.scrubX h₁
  have hs₂ : Keeps s₀ s₂ := .foldl hs₁ fun h₁ => h₁.scrubV
  exact .foldl hs₂ fun h₁ => .ite h₁.scrubTile h₁

theorem Keeps.takes (h : Keeps s₀ s) {p} : Keeps s₀ (s.takes p) := by
  unfold State.takes
  split
  · exact h.frame
  · exact h

theorem Keeps.tick (h : Keeps s₀ s) {n} : Keeps s₀ (s.tick n) := by
  refine .ite h (h.update id (·.map fun kv => ⟨rfl, ?_⟩) id)
  dsimp only
  split
  iterate 3
    · split <;> rfl
  all_goals rfl

/-! ### The strand instructions and their events (Strands.lean) -/

theorem KeepsFrom.performed {st} : KeepsFrom s₀ (performed st) := by
  unfold Machine.performed
  exact .bind .drained (.get_bind fun h₁ => .ite (.holdFor _) (.pure _))

theorem KeepsFrom.sendChild {st p c} : KeepsFrom s₀ (sendChild st p c) := by
  unfold Machine.sendChild
  refine .get_bind fun h₁ => ?_
  extract_lets _ _ _ _ _ jp
  have hjp : KeepsFrom s₀ (jp ()) := .pure _
  exact .ite (.bind (.set h₁.modCore.send) (.pure _)) (.ite (.bind (.set h₁.request.countPacket) hjp) (.bind
    (.set h₁.push.countPacket) hjp))

theorem Keeps.unreserve (h : Keeps s₀ s) {scope} : Keeps s₀ (s.unreserve scope) := h.modScb

theorem KeepsFrom.spawnChild {d pc p st} : KeepsFrom s₀ (spawnChild d pc p st) := by
  unfold Machine.spawnChild
  extract_lets _ giveUp
  have hgiveUp : KeepsFrom s₀ giveUp := .ite (.modify fun h₁ => h₁.unreserve) (.pure _)
  refine .get_bind fun h₁ => .ite (.bind hgiveUp (.holdFor _)) ?_
  split
  · exact .bind hgiveUp (.bind .splitWeight (.pure _))
  · exact .bind .setMe (.bind .sendChild (.bind .putX (.pure _)))

theorem KeepsFrom.spawnBody {d a b st} : KeepsFrom s₀ (spawnBody d a b st) := by
  unfold Machine.spawnBody
  extract_lets
  split
  · exact .raise _
  · exact .ite (.bind (.modify fun h₁ => h₁.unreserve) (.raise _)) (.get_bind fun h₁ => .spawnChild)
  · refine .bind (.liftT _) fun {_} => .bind .cancelPoint fun {_} => .bind (.liftT _) fun {_} => .bind (.liftT _)
      fun {_} => .get_bind fun h₁ => ?_
    split
    · exact .raise _
    · exact .ite (.bind .newNumber (.bind (.modify fun h₂ => h₂.request) (.holdFor _))) (.ite (.raise _) (.bind
        (.liftT _) (.bind (.modify fun h₂ => h₂.modScb) .spawnChild)))

theorem Keeps.sendContext
    (h : Keeps s₀ s) {st pc counted auto l} : Keeps s₀ (s.sendContext st pc counted auto l) := by
  unfold State.sendContext
  extract_lets _ _ _ _ _ s₁ s₂ s₃
  have hs₁ : Keeps s₀ s₁ := h.frame
  have hs₂ : Keeps s₀ s₂ := hs₁.flushOwned
  have hs₃ : Keeps s₀ s₃ := hs₂.requestOf
  exact hs₃.modStrand

theorem KeepsFrom.migrBody {a st} : KeepsFrom s₀ (migrBody a st) := by
  unfold Machine.migrBody
  split
  · exact .raise _
  · exact .raise _
  · refine .bind (.liftT _) fun {_} => ?_
    split
    · exact .raise _
    · refine .get_bind fun h₁ => .ite (.pure _) (.bind (.liftT _) fun {_} => ?_)
      split
      · exact .raise _
      · exact .ite (.raise _) (.bind .performed (.bind (.modify fun h₂ => h₂.sendContext) (.pure _)))

theorem Keeps.autoTarget (h : Keeps s₀ s) {st} : Keeps s₀ (s.autoTarget st).1 := by
  unfold State.autoTarget
  extract_lets
  split
  · exact .fst h
  · split
    · exact .fst h
    · split
      rename_i e
      exact .fst (h.polled.of_fst e)

theorem Keeps.autoMigrate (h : Keeps s₀ s) {sk} : Keeps s₀ (s.autoMigrate sk) := by
  unfold State.autoMigrate
  split
  · exact h
  · extract_lets zero s₁
    have hzero : ∀ {s}, Keeps s₀ s → Keeps s₀ (zero s) := fun h₁ => h₁.modStrand
    have hs₁ : Keeps s₀ s₁ := .foldl h fun h₁ => h₁.scrubX
    refine .ite h (.ite h.setStrand (.ite h.setStrand ?_))
    split
    · rename_i e
      exact hzero (hs₁.autoTarget.of_fst e)
    · rename_i e
      refine .ite (hzero (hs₁.autoTarget.of_fst e)) ?_
      extract_lets s₂
      have hs₂ : Keeps s₀ s₂ := .commitIdem (hs₁.autoTarget.of_fst e)
      exact .ite (.sendContext (hzero hs₂)) hs₂.setStrand

theorem Answers.execAutoMigration (h : Keeps s₀ s) : Answers s₀ (execAutoMigration s) := by
  unfold Machine.execAutoMigration
  split
  · exact .ite (.next h.autoMigrate) (.next h)
  · exact .next h

theorem KeepsFrom.stealBody {d a st} : KeepsFrom s₀ (stealBody d a st) := by
  unfold Machine.stealBody
  split
  · exact .bind .putX (.pure _)
  · exact .raise _
  · refine .bind (.liftT _) fun {_} => ?_
    extract_lets
    refine .get_bind fun h₁ => ?_
    extract_lets
    exact .ite (.raise _) (.ite (.raise _) (.bind (.liftT _) (.ite (.bind .putX (.pure _)) (.bind .newNumber (.bind
      (.modify fun h₂ => h₂.requestOf) (.holdFor _))))))

theorem Keeps.stealAt (h : Keeps s₀ s) {thief st n victim} : Keeps s₀ (s.stealAt thief st n victim) := by
  unfold State.stealAt
  extract_lets _ _ _ answer again found take s₁
  have hanswer : ∀ {s c}, Keeps s₀ s → Keeps s₀ (answer s c) := fun h₁ => h₁.deliver
  have hagain : ∀ {s}, Keeps s₀ s → Keeps s₀ (again s) := fun h₁ => h₁.after
  have htake : ∀ {s p c}, Keeps s₀ s → Keeps s₀ (take s p c) := fun h₁ => hanswer h₁.modCore.workLeaves
  have hs₁ : Keeps s₀ s₁ := .ite h.logChoice h
  clear_value found
  refine .ite h.deliver (.ite ?_ ?_)
  · split
    · exact hanswer h
    · exact h.waitsTurn hagain
    · exact h.waitsTurn hagain
    · exact .ite (hagain h) (htake h.bumpLtime.turnCame)
  · split
    · exact hanswer h
    · exact .ite (hanswer h) (htake hs₁)

theorem Answers.execStealRequest (h : Keeps s₀ s) : Answers s₀ (execStealRequest s) := by
  unfold Machine.execStealRequest
  split
  · split
    · exact .next h
    · exact .next h.wakeFirst.stealAt
  · exact .next h

theorem Answers.execStealReply (h : Keeps s₀ s) : Answers s₀ (execStealReply s) := by
  unfold Machine.execStealReply
  split
  · extract_lets s₁
    have hs₁ : Keeps s₀ s₁ := by
      unfold s₁
      split
      · exact h.placeOn
      · exact h
    exact .next hs₁.reply
  · exact .next h

theorem KeepsFrom.yieldBody {st} : KeepsFrom s₀ (yieldBody st) := by
  unfold Machine.yieldBody
  refine .get_bind fun h₁ => ?_
  extract_lets
  exact .bind .setMe (.pure _)

theorem KeepsFrom.gangBody {a st} : KeepsFrom s₀ (gangBody a st) := by
  unfold Machine.gangBody
  refine .bind (.liftT _) fun {_} => .bind .readBlock fun {_} => .get_bind fun h₁ => ?_
  split
  · exact .raise _
  · refine .bind .cellPlace fun {_} => .bind .weightReady fun {_} => .get_bind fun h₂ => ?_
    extract_lets jp
    have hjp : KeepsFrom s₀ (jp ()) := .bind .splitWeight (.bind (.modify fun h₄ => h₄.requestFor) (.pure _))
    exact .ite (.bind .clearWord hjp) hjp

theorem Keeps.deathFor (h : Keeps s₀ s) {st l} (e : s.deathFor st = some (l, t)) : Keeps s₀ t := by
  unfold State.deathFor at e
  split at e
  · cases e
  · obtain ⟨d, -, hd⟩ := Option.map_eq_some_iff.1 e
    cases hd
    exact h.frame

theorem Keeps.barDone (h : Keeps s₀ s) {st} : Keeps s₀ (s.barDone st) := by
  unfold State.barDone
  split
  · exact h
  · extract_lets
    exact h.frame

theorem KeepsFrom.barBody {a st} : KeepsFrom s₀ (barBody a st) := by
  unfold Machine.barBody
  split
  · exact .bind (.modify fun h₁ => h₁.barDone.modStrand) (.pure _)
  · exact .bind (.modify fun h₁ => h₁.modStrand) (.raise _)
  · refine .get_bind fun h₁ => ?_
    extract_lets _ jp
    have hjp : KeepsFrom s₀ (jp ()) := by
      unfold jp
      refine .bind .cancelPoint fun {_} => .bind (.liftT _) fun {_} => .get_bind fun h₃ => .ite (.raise _) (.ite
        (.pure _) ?_)
      split
      · rename_i e
        exact .bind (.set (.withdraw (h₃.deathFor e))) (.raise _)
      · refine .bind .performed fun {_} => .bind .newNumber fun {_} => .bind (.modify fun h₄ => ?_) (.holdFor _)
        extract_lets s₁ s₂
        have hs₁ : Keeps s₀ s₁ := h₄.modStrand
        have hs₂ : Keeps s₀ s₂ := hs₁.requestOf
        exact .ite hs₂ hs₂.after
    exact .ite (.bind (.modify fun h₂ => h₂.withdraw.modStrand) hjp) hjp

theorem Keeps.barrierArrives (h : Keeps s₀ s) {st} : Keeps s₀ (s.barrierArrives st) := by
  unfold State.barrierArrives
  extract_lets
  split
  · exact h
  · extract_lets
    exact .ite h.deliver h.frame.barrierCheck

theorem Answers.execBarrierArrival (h : Keeps s₀ s) : Answers s₀ (execBarrierArrival s) := by
  unfold Machine.execBarrierArrival
  split
  · split
    · exact .next h
    · exact .ite (.next h.barrierArrives) (.next h)
  · exact .next h

theorem Answers.execBarrierRelease (h : Keeps s₀ s) : Answers s₀ (execBarrierRelease s) := by
  unfold Machine.execBarrierRelease
  split
  · split
    · exact .next h
    · split
      · exact .ite (.next h.reply.bankStates) (.next h)
      · exact .next h
  · exact .next h

theorem Keeps.barTimesOut (h : Keeps s₀ s) {st n} : Keeps s₀ (s.barTimesOut st n) := by
  unfold State.barTimesOut
  split
  · exact h
  · extract_lets
    exact h.withdraw.reply.bankStates

theorem Answers.execBarTimeout (h : Keeps s₀ s) : Answers s₀ (execBarTimeout s) := by
  unfold Machine.execBarTimeout
  split
  · split
    · exact .next h
    · exact .ite (.next h.barTimesOut) (.next h)
  · exact .next h

theorem Keeps.drainOpens (h : Keeps s₀ s) {st} : Keeps s₀ (s.drainOpens st) :=
  .foldl h fun h₁ => .ite h₁ h₁.modScb.returnWeight

theorem Answers.execWeightReturn (h : Keeps s₀ s) : Answers s₀ (execWeightReturn s) := by
  unfold Machine.execWeightReturn
  split
  · exact .next h.homeReturn
  · exact .next h

theorem Keeps.refillAt (h : Keeps s₀ s) {scope sk h'} : Keeps s₀ (s.refillAt scope sk h') := by
  unfold State.refillAt
  extract_lets s₁
  have hs₁ : Keeps s₀ s₁ := h.modScb
  exact hs₁.deliver

theorem Answers.execRefillRequest (h : Keeps s₀ s) : Answers s₀ (execRefillRequest s) := by
  unfold Machine.execRefillRequest
  split
  · exact .next h.refillAt
  · exact .next h

theorem Answers.execRefillReply (h : Keeps s₀ s) : Answers s₀ (execRefillReply s) := by
  unfold Machine.execRefillReply
  split
  · extract_lets
    split
    · exact .next h.setStrand
    · exact .next h.returnWeight
  · exact .next h

theorem Keeps.flagArrives (h : Keeps s₀ s) {scope cluster} : Keeps s₀ (s.flagArrives scope cluster) := by
  unfold State.flagArrives
  extract_lets _ s₁ s₂
  have hs₁ : Keeps s₀ s₁ := .foldl h fun h₁ => h₁.modCore
  have hs₂ : Keeps s₀ s₂ := by
    unfold s₂
    refine .foldl hs₁ fun h₁ => ?_
    extract_lets
    exact .ite h₁.setStrand.bankStates h₁
  refine .foldl hs₂ fun h₁ => ?_
  extract_lets
  exact .ite h₁ h₁.send

theorem Answers.execCancelPacket (h : Keeps s₀ s) : Answers s₀ (execCancelPacket s) := by
  unfold Machine.execCancelPacket
  split
  · exact .ite (.next h.flagArrives) (.next h)
  · exact .next h

theorem Answers.execSuccessDeclaration (h : Keeps s₀ s) : Answers s₀ (execSuccessDeclaration s) := by
  unfold Machine.execSuccessDeclaration
  split
  · exact .next (h.ordered (fun h₁ => h₁.after) (fun h₁ => h₁.winScope))
  · exact .next h

theorem Keeps.closeArrives (h : Keeps s₀ s) {num sk h' status res} :
    Keeps s₀ (s.closeArrives num sk h' status res) := by
  unfold State.closeArrives
  extract_lets _ keep
  have hkeep : ∀ {s}, Keeps s₀ s → Keeps s₀ (keep s) := fun h₁ => .ite h₁.frame h₁
  split
  · exact hkeep h
  · exact .ite (.ite h.setStrand.dieOn h.setStrand.bankStates) (hkeep h)

theorem Answers.execCloseStatus (h : Keeps s₀ s) : Answers s₀ (execCloseStatus s) := by
  unfold Machine.execCloseStatus
  split
  · exact .next h.closeArrives
  · exact .next h

/-! ### The scope instructions (ScopeOps.lean) -/

theorem Keeps.beginScope (h : Keeps s₀ s) {b} : Keeps s₀ (s.beginScope b) := by
  unfold State.beginScope
  extract_lets s₁
  have hs₁ : Keeps s₀ s₁ := h.setScb
  exact .ite hs₁.frame hs₁

theorem Keeps.openOn (h : Keeps s₀ s) {st b pw k} : Keeps s₀ (s.openOn st b pw k) := by
  unfold State.openOn
  extract_lets _ _ _ s₁
  have hs₁ : Keeps s₀ s₁ := h.frame.beginScope
  split
  · extract_lets
    exact hs₁.setStrand.bankStates
  · exact hs₁

theorem KeepsFrom.newScopeId {st} : KeepsFrom s₀ (newScopeId st) := by
  unfold Machine.newScopeId
  refine .get_bind fun h₁ => ?_
  split
  · exact .raise _
  · exact .pure _
  · refine .ite (.bind .newNumber (.bind (.modify fun h₂ => h₂.request) (.holdFor _))) ?_
    split
    · exact .raise _
    · exact .pure _

theorem KeepsFrom.roomReady {st m} : KeepsFrom s₀ (roomReady st m) := by
  unfold Machine.roomReady
  refine .bind (.liftT _) fun {_} => .get_bind fun h₁ => ?_
  split
  · exact .pure _
  · exact .bind (.modify fun h₂ => h₂.startRoom) (.holdFor _)

theorem Keeps.unserve (h : Keeps s₀ s) {st} : Keeps s₀ (s.unserve st) := by
  unfold State.unserve
  split
  · exact h.forgetScope
  · exact h

theorem KeepsFrom.sopenTry {d a k st} : KeepsFrom s₀ (sopenTry d a k st) := by
  unfold Machine.sopenTry
  refine .bind (.liftT _) fun {_} => ?_
  extract_lets _ jp
  have hjp : ∀ {x}, KeepsFrom s₀ (jp x) := by
    intro _
    unfold jp
    refine .get_bind fun h₂ => ?_
    extract_lets
    split
    · exact .raise _
    · exact .raise _
    · refine .bind .newScopeId fun {_} => .bind .splitWeight fun {_} => .get_bind fun h₃ => .bind .me fun {_} => ?_
      split
      · exact .raise _
      · exact .bind (.set h₃.openOn) (.bind .putX (.pure _))
  exact .ite (.raise _) (.ite (.raise _) (.ite (.raise _) (.bind .roomReady (.ite (.bind (.pure _) hjp) (.bind
    .readBlock hjp)))))

theorem KeepsFrom.sopenBody {d a k st} : KeepsFrom s₀ (sopenBody d a k st) := by
  unfold Machine.sopenBody
  refine .get_bind fun h₁ => ?_
  split
  · rename_i e
    exact .bind (.set ((KeepsFrom.sopenTry _ h₁).of_snd e)) (.pure _)
  · rename_i e
    have h₂ := (KeepsFrom.sopenTry _ h₁).of_snd e
    refine .bind (.set ?_) (.throw _)
    split
    · exact h₂.unserve
    · exact h₂.unserve
    · exact h₂

theorem KeepsFrom.writeResult {va v} : KeepsFrom s₀ (writeResult va v) := by
  unfold Machine.writeResult
  refine .bind .me fun {_} => .get_bind fun h₁ => ?_
  split
  · exact .issueCell
  · exact .modify fun h₂ => h₂.countDropped

theorem KeepsFrom.pairReady {pair st} : KeepsFrom s₀ (pairReady pair st) := by
  unfold Machine.pairReady
  exact .get_bind fun h₁ => .ite (.holdFor _) (.pure _)

theorem KeepsFrom.closed {a status res st r} : KeepsFrom s₀ (closed a status res st r) := by
  unfold Machine.closed
  extract_lets _ _ jp jp₁
  have hjp : KeepsFrom s₀ (jp ()) := .pure _
  have hjp₁ : KeepsFrom s₀ (jp₁ ()) := by
    unfold jp₁
    refine .bind .me fun {_} => .get_bind fun h₂ => ?_
    extract_lets s₁
    have hs₁ : Keeps s₀ s₁ := h₂.retire
    split
    · exact .pure _
    · refine .ite ?_ (.bind (.set hs₁) hjp)
      extract_lets s₂
      have hs₂ : Keeps s₀ s₂ := .ite hs₁.logChoice hs₁
      exact .bind (.set hs₂.takeTrap) hjp
  exact .bind .setMe (.bind (.modify fun h₁ => h₁.bankStates) (.ite (.bind .writeResult (.bind
    .writeResult hjp₁)) hjp₁))

theorem KeepsFrom.scloseBody {a st} : KeepsFrom s₀ (scloseBody a st) := by
  unfold Machine.scloseBody
  refine .bind (.liftT _) fun {_} => ?_
  split
  · exact .raise _
  · split
    · exact .bind .pairReady .closed
    · refine .ite (.raise _) ?_
      extract_lets _ jp
      have hjp : KeepsFrom s₀ (jp ()) := by
        unfold jp
        refine .get_bind fun h₂ => ?_
        split
        · exact .bind .pairReady (.bind (.set h₂.frame) .closed)
        · exact .bind (.set h₂.returnStock) (.holdFor _)
      exact .ite (.get_bind fun h₁ => .bind .placeOf (.bind .placeOf hjp)) hjp

theorem Keeps.serveScope (h : Keeps s₀ s) {sk scope op} : Keeps s₀ (s.serveScope sk scope op).1 := by
  unfold State.serveScope
  split
  · split
    · rename_i e
      exact .fst (h.reserveLive e)
    · exact .fst h
  · split
    · exact .fst h.setScb
    · exact .fst h
  · exact .fst h.cancelScope
  · exact .fst h
  · exact .fst h

theorem KeepsFrom.askScope {scope op st} : KeepsFrom s₀ (askScope scope op st) := by
  unfold Machine.askScope
  split
  · exact .pure _
  · refine .get_bind fun h₁ => .ite (.bind .newNumber fun {_} => ?_) ?_
    · extract_lets
      exact .bind (.modify fun h₂ => h₂.request) (.holdFor _)
    · split
      rename_i e
      exact .bind (.set (h₁.serveScope.of_fst e)) (.pure _)

theorem KeepsFrom.scancBody {a st} : KeepsFrom s₀ (scancBody a st) := by
  unfold Machine.scancBody
  exact .bind (.liftT _) (.get_bind fun h₁ => .bind (.liftT _) (.bind .askScope (.pure _)))

theorem KeepsFrom.sresBody {d a op st} : KeepsFrom s₀ (sresBody d a op st) := by
  unfold Machine.sresBody
  refine .bind (.liftT _) fun {_} => .get_bind fun h₁ => .bind (.liftT _) fun {_} => .bind (.liftT _) fun {_} => .bind
    .askScope fun {_} => ?_
  split
  · exact .bind .putX (.pure _)
  · exact .pure _

theorem KeepsFrom.swinBody {a st} : KeepsFrom s₀ (swinBody a st) := by
  unfold Machine.swinBody
  refine .bind (.liftT _) fun {_} => .bind (.modify fun h₁ => ?_) (.pure _)
  extract_lets
  exact .ite h₁.requestOf h₁.push.countPacket

theorem KeepsFrom.shldBody {st} : KeepsFrom s₀ (shldBody st) := by
  unfold Machine.shldBody
  exact .get_bind fun h₁ => .ite (.raise _) (.bind .setMe (.pure _))

theorem KeepsFrom.sunshBody {st} : KeepsFrom s₀ (sunshBody st) := by
  unfold Machine.sunshBody
  exact .bind .cancelPoint (.ite (.raise _) (.bind .setMe (.pure _)))

theorem KeepsFrom.cptBody {st} : KeepsFrom s₀ (cptBody st) := by
  unfold Machine.cptBody
  exact .bind .cancelPoint (.pure _)

/-! ### The Kiln's loader (Loader.lean) -/

theorem Keeps.imageWords (h : Keeps s₀ s) {pasid va n} : Keeps s₀ (s.imageWords pasid va n).1 := by
  induction n generalizing s va with
  | zero => exact h
  | succ n ih =>
    unfold State.imageWords
    split
    · exact .fst h
    · split
      rename_i k _ s₁ r e
      have hs₁ : Keeps s₀ s₁ := by
        split at e
        · cases e
          exact h
        · exact h.readSector.of_fst e
      split
      · exact .fst hs₁
      · split
        · rename_i e
          exact .fst ((ih hs₁).of_fst e)
        · rename_i e
          exact .fst ((ih hs₁).of_fst e)

theorem Keeps.readImage (h : Keeps s₀ s) {r} : Keeps s₀ (s.readImage r).1 := by
  unfold State.readImage
  extract_lets
  split
  · exact .fst h
  · split
    · exact .fst h
    · split
      · rename_i e
        exact .fst (h.imageWords.of_fst e)
      · rename_i e
        extract_lets
        split
        · exact .fst (h.imageWords.of_fst e)
        · split
          · exact .fst (h.imageWords.of_fst e)
          · exact .imageWords (h.imageWords.of_fst e)

theorem Keeps.writeDescs (h : Keeps s₀ s) {b x key} : Keeps s₀ (s.writeDescs b x key) := by
  unfold State.writeDescs
  extract_lets
  refine .foldl h fun h₁ => ?_
  split
  · exact h₁.setDesc
  · exact h₁

theorem Keeps.writeSection (h : Keeps s₀ s) {c b x key} : Keeps s₀ (s.writeSection c b x key) := by
  unfold State.writeSection
  extract_lets _ s₁
  have hs₁ : Keeps s₀ s₁ := by
    unfold s₁
    refine .foldl h fun h₁ => ?_
    split
    · extract_lets
      exact .ite h₁.writeRaw h₁.putSector
    · exact h₁
  exact .ite hs₁.writeDescs hs₁

theorem Keeps.loadSections (h : Keeps s₀ s) {r b} : Keeps s₀ (s.loadSections r b) := by
  unfold State.loadSections
  refine .foldl h fun h₁ => .ite h₁ ?_
  extract_lets _ _ _ _ s₁
  have hs₁ : Keeps s₀ s₁ := h₁.writeSection
  exact hs₁.frame

theorem Keeps.loadVault (h : Keeps s₀ s) {r b x l} : Keeps s₀ (s.loadVault r b x l) := by
  unfold State.loadVault
  refine .ite h ?_
  extract_lets s₁
  have hs₁ : Keeps s₀ s₁ := h.writeSection
  exact hs₁.frame

theorem Keeps.takeRange (h : Keeps s₀ s) {l tenant scope lo hi} : Keeps s₀ (s.takeRange l tenant scope lo hi) := by
  unfold State.takeRange
  extract_lets _ _ s₁
  have hs₁ : Keeps s₀ s₁ := by
    unfold s₁
    refine .foldl h fun h₁ => ?_
    extract_lets
    exact .ite h₁.removeHandler h₁
  exact hs₁.modLCore

theorem Keeps.sendLoad (h : Keeps s₀ s) {scope dst ev arg} : Keeps s₀ (s.sendLoad scope dst ev arg) := by
  unfold State.sendLoad
  extract_lets
  exact .ite h.request h.push

theorem Keeps.performLoad (h : Keeps s₀ s) {r b} : Keeps s₀ (s.performLoad r b) := by
  unfold State.performLoad
  extract_lets s₁ s₂ _ _ _ s₃ _ _ s₄ s₅
  have hs₁ : Keeps s₀ s₁ := h.loadSections
  have hs₂ : Keeps s₀ s₂ := by
    unfold s₂
    split
    · exact .foldl hs₁ fun h₁ => h₁.loadVault
    · exact hs₁
  have hs₃ : Keeps s₀ s₃ := hs₂.frame
  have hs₄ : Keeps s₀ s₄ := .ite hs₃ hs₃.frame
  have hs₅ : Keeps s₀ s₅ := by
    unfold s₅
    refine .foldl hs₄ fun h₁ => ?_
    extract_lets s₆ s₇
    have hs₆ : Keeps s₀ s₆ := h₁.takeRange
    have hs₇ : Keeps s₀ s₇ := .foldl hs₆ fun h₂ => h₂.sendLoad
    refine .foldl hs₇ fun h₂ => ?_
    split
    exact h₂.sendLoad
  exact hs₅.sendLoad

theorem Keeps.releaseRanks (h : Keeps s₀ s) {r start} : Keeps s₀ (s.releaseRanks r start) := by
  unfold State.releaseRanks
  extract_lets _ _ s₁
  have hs₁ : Keeps s₀ s₁ := h.modScb
  refine .sendLoad (.foldl hs₁ fun h₁ => ?_)
  extract_lets
  exact h₁.sendLoad

theorem Keeps.kilnCell (h : Keeps s₀ s) {pcore pasid scope va v} : Keeps s₀ (s.kilnCell pcore pasid scope va v) := by
  unfold State.kilnCell
  extract_lets _ body
  have hbody : KeepsFrom s₀ body := .bind .placeOf .storeAt
  split
  · rename_i e
    exact (hbody _ h).of_snd e
  · exact h

theorem Keeps.launchReleased (h : Keeps s₀ s) {r} : Keeps s₀ (s.launchReleased r) := by
  unfold State.launchReleased
  extract_lets s₁ s₂ s₃
  have hs₁ : Keeps s₀ s₁ := by
    unfold s₁
    split
    · exact h.frame
    · exact h
  have hs₂ : Keeps s₀ s₂ := hs₁.modScb
  have hs₃ : Keeps s₀ s₃ := hs₂.homeReturn
  split
  · exact .ite hs₃ hs₃.after
  · exact hs₃

theorem Keeps.launchFails (h : Keeps s₀ s) {scope code} : Keeps s₀ (s.launchFails scope code) := by
  unfold State.launchFails
  extract_lets _ s₁ _ s₂ s₃
  have hs₁ : Keeps s₀ s₁ := by
    unfold s₁
    split
    · exact h.complete.launchLeaves
    · exact h
  have hs₂ : Keeps s₀ s₂ := hs₁.passTokens.forgetScope
  have hs₃ : Keeps s₀ s₃ := hs₂.frame
  exact hs₃.signal.send

theorem Keeps.loadEnds (h : Keeps s₀ s) {r code} : Keeps s₀ (s.loadEnds r code) := by
  unfold State.loadEnds
  refine .ite ?_ (.ite h.launchReleased h.launchFails)
  extract_lets
  exact h.kilnCell.returnWeight

theorem Keeps.loadNow (h : Keeps s₀ s) {r} : Keeps s₀ (s.loadNow r) := by
  unfold State.loadNow
  refine .ite h.loadEnds (.ite h.loadEnds (.ite h.loadEnds ?_))
  split
  · rename_i e
    exact .loadEnds (h.readImage.of_fst e)
  · rename_i e
    extract_lets
    exact .ite (.performLoad (h.readImage.of_fst e)) (.loadEnds (h.readImage.of_fst e))

theorem Answers.execImageLoad (h : Keeps s₀ s) : Answers s₀ (execImageLoad s) := by
  unfold Machine.execImageLoad
  split
  · exact .next (.loadNow (.ite h.kilnCell h))
  · exact .next (.ite h.loadEnds h.releaseRanks)
  · exact .next (.ite h.after h.loadEnds)
  · exact .next h

theorem Keeps.storeCode (h : Keeps s₀ s) {l off bytes} : Keeps s₀ (s.storeCode l off bytes) := by
  unfold State.storeCode
  extract_lets
  split
  · exact h.modLCore.writeRaw
  · exact .ite h h.after

theorem Answers.execCodeStore (h : Keeps s₀ s) : Answers s₀ (execCodeStore s) := by
  unfold Machine.execCodeStore
  split
  · exact .next h.storeCode
  · exact .next h

theorem Keeps.writeHandler (h : Keeps s₀ s) {l chan e} : Keeps s₀ (s.writeHandler l chan e) := by
  unfold State.writeHandler
  extract_lets _ s₁
  have hs₁ : Keeps s₀ s₁ := .ite h.removeHandler (.ite h.endLends h)
  exact .ite hs₁ hs₁.setHandler

theorem Answers.execHandlerTableWrite (h : Keeps s₀ s) : Answers s₀ (execHandlerTableWrite s) := by
  unfold Machine.execHandlerTableWrite
  split
  · exact .next (.ite h.writeHandler (.ite h h.after))
  · exact .next h

theorem Answers.execStart (h : Keeps s₀ s) : Answers s₀ (execStart s) := by
  unfold Machine.execStart
  split
  · exact .ite (.next h.after) (.next h.wakeFirst.placeOn)
  · exact .next h

/-! ### Matrix instructions (Matrix.lean) -/

theorem KeepsFrom.waitTiles {st ts} : KeepsFrom s₀ (waitTiles st ts) := by
  unfold Machine.waitTiles
  refine .get_bind fun h₁ => ?_
  extract_lets
  split
  · exact .raise _
  · exact .ite (.pure _) (.holdFor _)

theorem Keeps.wakeTile (h : Keeps s₀ s) {sk} : Keeps s₀ (s.wakeTile sk) := h.modStrand

theorem KeepsFrom.mzeroBody {h' f st} : KeepsFrom s₀ (mzeroBody h' f st) := by
  unfold Machine.mzeroBody
  extract_lets
  exact .get_bind fun h₁ => .bind (.liftT _) (.bind .waitTiles (.bind (.modify fun h₂ => h₂.modCore) (.pure _)))

theorem KeepsFrom.rowBlock {who st va} : KeepsFrom s₀ (rowBlock who st va) := by
  unfold Machine.rowBlock
  refine .bind .placeOf fun {_} => .bind .noteRemote fun {_} => .bind .loadAt fun {_} => ?_
  split
  exact .pure _

theorem KeepsFrom.rowValues {who st base stride row n e} : KeepsFrom s₀ (rowValues who st base stride row n e) := by
  unfold Machine.rowValues
  refine .bind (.mapM (fun {_} => .bind .rowBlock fun {_} => ?_)) (.pure _)
  split
  exact .ite (.raise _) (.pure _)

theorem KeepsFrom.mldBody {h' f a st} : KeepsFrom s₀ (mldBody h' f a st) := by
  unfold Machine.mldBody
  extract_lets
  refine .bind (.liftT _) fun {_} => .get_bind fun h₁ => .bind (.liftT _) fun {_} => .bind (.liftT _) fun {_} => .bind
    (.liftT _) fun {_} => .get_bind fun h₂ => ?_
  extract_lets
  refine .bind .rowBlock fun {_} => ?_
  split
  exact .ite (.raise _) (.bind (.mapM .rowValues) (.bind .waitTiles (.bind (.modify fun h₃ => h₃.modCore) (.pure _))))

theorem KeepsFrom.stepRows {who st base stride rows e k0 k1} :
    KeepsFrom s₀ (stepRows who st base stride rows e k0 k1) := by
  unfold Machine.stepRows
  refine .mapM (fun {_} => .bind .rowBlock fun {_} => ?_)
  split
  exact .ite (.raise _) (.pure _)

theorem KeepsFrom.operandLanes {who st base} : KeepsFrom s₀ (operandLanes who st base) := by
  unfold Machine.operandLanes
  refine .bind .rowBlock fun {_} => ?_
  split
  exact .ite (.pure _) (.raise _)

theorem KeepsFrom.stepOp {who st o} : KeepsFrom s₀ (stepOp who st o) := by
  unfold Machine.stepOp
  refine .bind (.modify fun h₁ => .foldl h₁ fun h₂ => h₂.scrubTile) fun {_} => .get_bind fun h₁ => ?_
  extract_lets _ jp
  have hjp : ∀ {x}, KeepsFrom s₀ (jp x) := by
    intro _
    unfold jp
    extract_lets jp₁
    have hjp₁ : ∀ {x}, KeepsFrom s₀ (jp₁ x) := by
      intro _
      unfold jp₁
      extract_lets
      refine .bind .stepRows fun {_} => .bind .stepRows fun {_} => .get_bind fun h₄ => ?_
      extract_lets
      exact .pure _
    exact .ite (.bind .operandLanes hjp₁) (.bind (.pure _) hjp₁)
  split
  · exact .raise _
  · exact .ite (.bind .operandLanes hjp) (.bind (.pure _) hjp)

theorem Keeps.endOp (h : Keeps s₀ s) {pcore o} : Keeps s₀ (s.endOp pcore o) := by
  unfold State.endOp
  extract_lets s₁
  have hs₁ : Keeps s₀ s₁ := h.modCore
  exact hs₁.modStrand.wakeTile

theorem Answers.execMatrixStep (h : Keeps s₀ s) : Answers s₀ (execMatrixStep s) := by
  unfold Machine.execMatrixStep
  split
  · split
    · exact .next h
    · split
      · exact .next h
      · extract_lets again
        have hagain : ∀ {s}, Keeps s₀ s → Keeps s₀ (again s) := fun h₁ => h₁.after
        refine .ite (.next h) (.ite (.next (hagain h)) (.ite (.next h.endOp) ?_))
        split
        · rename_i e
          extract_lets _ s'
          have hs' : Keeps s₀ s' := .modCore ((KeepsFrom.stepOp _ h).of_snd e)
          exact .next (.ite hs'.endOp (hagain hs'))
        · rename_i e
          exact .next (.modCore (.askPage ((KeepsFrom.stepOp _ h).of_snd e)))
        · rename_i e
          exact .next (.wakeTile (.modCore ((KeepsFrom.stepOp _ h).of_snd e)))
        · exact .next (hagain h)
  · exact .next h

theorem KeepsFrom.mmaBody {h' f a b st} : KeepsFrom s₀ (mmaBody h' f a b st) := by
  unfold Machine.mmaBody
  extract_lets _ _ jp
  have hjp : KeepsFrom s₀ (jp ()) := .pure _
  refine .bind (.liftT _) fun {_} => .get_bind fun h₁ => ?_
  extract_lets
  refine .bind (.liftT _) fun {_} => .bind (.liftT _) fun {_} => .bind (.liftT _) fun {_} => .bind (.liftT _)
    fun {_} => .bind (.liftT _) fun {_} => ?_
  split
  · split
    · exact .raise _
    · exact .holdFor _
  · refine .bind .newNumber fun {_} => .get_bind fun h₂ => ?_
    extract_lets
    exact .ite (.bind (.modify fun h₃ => h₃.modCore) hjp) (.bind (.modify fun h₃ => h₃.modCore.after) hjp)

theorem KeepsFrom.outPlaces {st bs} : KeepsFrom s₀ (outPlaces st bs) := by
  unfold Machine.outPlaces
  refine .get_bind fun h₁ => ?_
  extract_lets
  refine .mapM (fun {_} => .bind .placeOf fun {_} => .bind .noteRemote fun {_} => ?_)
  extract_lets jp
  have hjp : KeepsFrom s₀ (jp ()) := .pure _
  exact .ite (.bind .prefill hjp) hjp

theorem KeepsFrom.outBlocks {h' f a st} : KeepsFrom s₀ (outBlocks h' f a st) := by
  unfold Machine.outBlocks
  extract_lets
  refine .get_bind fun h₁ => ?_
  extract_lets
  exact .bind (.liftT _) (.bind (.liftT _) (.bind (.liftT _) (.bind (.liftT _) (.bind (.liftT _) (.bind (.liftT _)
    (.bind (.liftT _) (.bind .outPlaces (.pure _))))))))

theorem KeepsFrom.writeOut {st ps fl} : KeepsFrom s₀ (writeOut st ps fl) := by
  unfold Machine.writeOut
  refine .get_bind fun h₁ => ?_
  extract_lets
  refine .bind (.forM (fun {_} => ?_)) (.bind .me .setMe)
  split
  exact .storeAt

theorem KeepsFrom.mstBody {h' f a e st} : KeepsFrom s₀ (mstBody h' f a e st) := by
  unfold Machine.mstBody
  extract_lets _ jp
  have hjp : KeepsFrom s₀ (jp ()) := .pure _
  refine .bind .outBlocks fun {_} => ?_
  split
  exact .bind .waitTiles (.bind .writeOut (.ite (.bind (.modify fun h₁ => h₁.modCore.send) hjp) hjp))

theorem KeepsFrom.waitModes {st f} : KeepsFrom s₀ (waitModes st f) := by
  unfold Machine.waitModes
  refine .get_bind fun h₁ => .ite (.pure _) ?_
  split
  · exact .ite (.holdFor _) (.pure _)
  · exact .pure _

theorem KeepsFrom.msnapBody {h' f a b st} : KeepsFrom s₀ (msnapBody h' f a b st) := by
  unfold Machine.msnapBody
  refine .bind .outBlocks fun {_} => ?_
  split
  exact .bind .waitModes (.bind (.liftT _) (.bind .writeOut (.get_bind fun h₁ => .bind .putX (.pure _))))

theorem KeepsFrom.mwaitBody {h' f st} : KeepsFrom s₀ (mwaitBody h' f st) := by
  unfold Machine.mwaitBody
  extract_lets
  exact .get_bind fun h₁ => .bind (.liftT _) (.bind .waitTiles (.pure _))

theorem KeepsFrom.mstatBody {h' f b st} : KeepsFrom s₀ (mstatBody h' f b st) := by
  unfold Machine.mstatBody
  exact .get_bind fun h₁ => .bind (.liftT _) (.bind .waitModes (.get_bind fun h₂ => .bind .putX (.pure _)))

theorem KeepsFrom.mcancBody {h' f st} : KeepsFrom s₀ (mcancBody h' f st) := by
  unfold Machine.mcancBody
  extract_lets
  exact .get_bind fun h₁ => .bind (.liftT _) (.bind (.modify fun h₂ => .foldl h₂ fun h₃ => h₃.endOp) (.pure _))

theorem KeepsFrom.mresBody {h' f st} : KeepsFrom s₀ (mresBody h' f st) := by
  unfold Machine.mresBody
  refine .get_bind fun h₁ => ?_
  extract_lets
  refine .bind (.liftT _) fun {_} => ?_
  split
  · exact .bind (.modify fun h₂ => h₂.modCore.after) (.pure _)
  · exact .pure _

/-! ### Events of the memories (Storage.lean) -/

theorem Keeps.stopCore (h : Keeps s₀ s) {p} : Keeps s₀ (s.stopCore p) := h.modCore

theorem Answers.execCoreStop (h : Keeps s₀ s) : Answers s₀ (execCoreStop s) := by
  unfold Machine.execCoreStop
  split
  · exact .next h.stopCore
  · exact .next h

theorem Keeps.vaultStop (h : Keeps s₀ s) {pcore key n} (e : s.vaultStop pcore key n = some t) : Keeps s₀ t := by
  obtain ⟨k, -, rfl⟩ := Option.map_eq_some_iff.1 e
  exact h.logEvent.stopCore

theorem Keeps.groupStop (h : Keeps s₀ s) {st g} (e : s.groupStop st g = some t) : Keeps s₀ t := by
  unfold State.groupStop at e
  extract_lets at e
  rcases Option.or_eq_some_iff.1 e with e | ⟨-, e⟩
  · rcases Option.or_eq_some_iff.1 e with e | ⟨-, e⟩
    · exact h.vaultStop e
    · exact h.vaultStop e
  · exact h.vaultStop e

theorem Keeps.wakeBank (h : Keeps s₀ s) {pcore bank} : Keeps s₀ (s.wakeBank pcore bank) := h.modCore

theorem Keeps.spillOut (h : Keeps s₀ s) {sk g waiter} : Keeps s₀ (s.spillOut sk g waiter) := by
  unfold State.spillOut
  split
  · exact h
  · split
    · exact h
    · refine .ite h ?_
      extract_lets s₁
      have hs₁ : Keeps s₀ s₁ := h.wakeBank.spillGroup
      exact hs₁.modStrand.bankStates

theorem Answers.execGroupSpill (h : Keeps s₀ s) : Answers s₀ (execGroupSpill s) := by
  unfold Machine.execGroupSpill
  split
  · extract_lets s₁
    have hs₁ : Keeps s₀ s₁ := h.spillOut.afterSpill
    exact .next (.ite hs₁ hs₁.afterTransfer)
  · exact .next h

theorem Keeps.fillIn (h : Keeps s₀ s) {sk g} : Keeps s₀ (s.fillIn sk g) := by
  unfold State.fillIn
  split
  · exact h
  · split
    · exact h
    · refine .ite h ?_
      split
      · rename_i e
        exact h.groupStop e
      · extract_lets
        exact h.setStrand.bankStates

theorem Answers.execGroupFill (h : Keeps s₀ s) : Answers s₀ (execGroupFill s) := by
  unfold Machine.execGroupFill
  split
  · exact .next h.fillIn.afterSpill
  · exact .next h

theorem Keeps.linkTransfer (h : Keeps s₀ s) {sk mode} : Keeps s₀ (s.linkTransfer sk mode) := by
  unfold State.linkTransfer
  split
  · exact h
  · refine .ite h.spillLinks ?_
    extract_lets
    split
    · rename_i e
      exact h.vaultStop e
    · exact h.fillLinks

theorem Answers.execLinkRecordSpill (h : Keeps s₀ s) : Answers s₀ (execLinkRecordSpill s) := by
  unfold Machine.execLinkRecordSpill
  split
  · exact .next h.linkTransfer.afterSpill
  · exact .next h

theorem Keeps.bankOff (h : Keeps s₀ s) {p b} : Keeps s₀ (s.bankOff p b) := by
  unfold State.bankOff
  split
  · exact h
  · exact .ite h h.modCore

theorem Answers.execBankPowerOff (h : Keeps s₀ s) : Answers s₀ (execBankPowerOff s) := by
  unfold Machine.execBankPowerOff
  split
  · exact .next h.bankOff
  · exact .next h

theorem Answers.execL0Eviction (h : Keeps s₀ s) : Answers s₀ (execL0Eviction s) := by
  unfold Machine.execL0Eviction
  split
  · exact .next h.evict
  · exact .next h

theorem Keeps.answerPage (h : Keeps s₀ s) {q code} : Keeps s₀ (s.answerPage q code) := by
  unfold State.answerPage
  extract_lets _ wake s₁ s₂
  have hwake : ∀ kv, (wake kv).1 = kv.1 ∧ (wake kv).2.sk = kv.2.sk := by
    intro kv
    unfold wake
    split <;> exact ⟨rfl, rfl⟩
  have hs₁ : Keeps s₀ s₁ := h.update id (·.map hwake) id
  have hs₂ : Keeps s₀ s₂ := by
    unfold s₂
    refine .foldl hs₁ fun h₁ => .foldl h₁ fun h₂ => ?_
    extract_lets
    exact .ite h₂.modCore.send h₂
  refine .foldl hs₂ fun h₁ => .foldl h₁ fun h₂ => .ite ?_ h₂
  extract_lets s₃
  have hs₃ : Keeps s₀ s₃ := h₂.modCmd
  exact .ite hs₃.send hs₃.kick

theorem Keeps.endPages (h : Keeps s₀ s) {hit code} : Keeps s₀ (s.endPages hit code) := by
  unfold State.endPages
  extract_lets _ left
  have hleft : Keeps s₀ left := h.frame
  exact .sendPages (.foldl hleft fun h₁ => h₁.answerPage)

theorem Keeps.answerQuiet (h : Keeps s₀ s) {q} : Keeps s₀ (s.answerQuiet q) := by
  refine h.update id (·.map fun kv => ?_) id
  split <;> exact ⟨rfl, rfl⟩

theorem Keeps.iommuAnswer (h : Keeps s₀ s) {here} : Keeps s₀ (s.iommuAnswer here) := by
  unfold State.iommuAnswer
  extract_lets s₁ s₂
  have hs₁ : Keeps s₀ s₁ := .foldl h fun h₁ => h₁.answerQuiet
  have hs₂ : Keeps s₀ s₂ := hs₁.endPages
  exact hs₂.frame.sendPages

theorem Keeps.transGone (h : Keeps s₀ s) {gone} : Keeps s₀ (s.transGone gone) := h.frame

theorem Answers.execAtsCompletion (h : Keeps s₀ s) : Answers s₀ (execAtsCompletion s) := by
  unfold Machine.execAtsCompletion
  split
  · extract_lets _ s₁ s₂
    have hs₁ : Keeps s₀ s₁ := h.transGone
    have hs₂ : Keeps s₀ s₂ := hs₁.frame
    exact .next hs₂.iommuAnswer
  · exact .next h.iommuAnswer
  · exact .next h

theorem Keeps.pageResponse (h : Keeps s₀ s) {pasid page code} : Keeps s₀ (s.pageResponse pasid page code) := by
  unfold State.pageResponse
  extract_lets
  exact .ite h.frame.endPages (.ite h.endPages (.ite h.endPages h.frame.sendPages))

theorem Answers.execPriResponse (h : Keeps s₀ s) : Answers s₀ (execPriResponse s) := by
  unfold Machine.execPriResponse
  split
  · exact .next h.pageResponse
  · exact .next h.frame.sendPages
  · exact .next h.frame.sendPages
  · exact .next h

theorem Keeps.invalidated (h : Keeps s₀ s) {pasid base size} : Keeps s₀ (s.invalidated pasid base size) := h.frame

theorem Keeps.invalidate (h : Keeps s₀ s) {pasid vbase logSize} : Keeps s₀ (s.invalidate pasid vbase logSize) := by
  unfold State.invalidate
  extract_lets _ _ _ s₁
  have hs₁ : Keeps s₀ s₁ := .foldl h fun h₁ => h₁.evict
  exact hs₁.transGone

theorem Answers.execAtsInvalidation (h : Keeps s₀ s) : Answers s₀ (execAtsInvalidation s) := by
  unfold Machine.execAtsInvalidation
  split
  · extract_lets s₁
    have hs₁ : Keeps s₀ s₁ := h.invalidate
    exact .next hs₁.push
  · extract_lets
    exact .ite (.next h.after) (.next h.invalidated)
  · exact .next h

theorem Answers.execMemoryRead (h : Keeps s₀ s) : Answers s₀ (execMemoryRead s) := by
  unfold Machine.execMemoryRead
  split
  · extract_lets
    split
    · rename_i e
      exact .next (.bulk (h.readSector.of_fst e))
    · rename_i e
      exact .next (.bulk (h.readSector.of_fst e))
  · exact .next h

theorem Keeps.replyCut (h : Keeps s₀ s) {sk t'} : Keeps s₀ (s.replyCut sk t') := h.modStrand

theorem Answers.execReadReply (h : Keeps s₀ s) : Answers s₀ (execReadReply s) := by
  unfold Machine.execReadReply
  split
  · split
    · exact .ite (.next h) (.next h.makeRoom.setLine)
    · exact .next h.replyCut
    · exact .next h
  · exact .next h

theorem Keeps.writeSector (h : Keeps s₀ s) {r} : Keeps s₀ (s.writeSector r).1 := by
  unfold State.writeSector
  extract_lets
  split
  · exact .fst h.putSector
  · split
    · rename_i e
      exact .fst (.putSector (h.readSector.of_fst e))
    · rename_i e
      exact .fst (h.readSector.of_fst e)

theorem Answers.execMemoryWrite (h : Keeps s₀ s) : Answers s₀ (execMemoryWrite s) := by
  unfold Machine.execMemoryWrite
  split
  · split
    rename_i e
    exact .next (.bulk (h.writeSector.of_fst e))
  · exact .next h

theorem Answers.execWriteAcknowledgement (h : Keeps s₀ s) : Answers s₀ (execWriteAcknowledgement s) := by
  unfold Machine.execWriteAcknowledgement
  split
  · split
    · exact .next h
    · split
      · exact .next h.replyCut
      · exact .next h.dropOutst
    · exact .next h.dropOutst
  · exact .next h

theorem KeepsOut.execHostBar2Access (h : Keeps s₀ s) : KeepsOut s₀ (execHostBar2Access s) := by
  unfold Machine.execHostBar2Access
  split
  · exact .next h.frame
  · exact .next h.frame
  · refine .ite (.next h) (.ite (.fault _) ?_)
    extract_lets s₁
    have hs₁ : Keeps s₀ s₁ := .ite h.send h
    split
    · exact .next hs₁.bulk
    · extract_lets
      exact .next hs₁.frame.bulk
  · exact .next h

/-! ### Pre-emption and context switch (Saves.lean) -/

theorem Keeps.layRecords (h : Keeps s₀ s) {top} : Keeps s₀ (s.layRecords top) := by
  unfold State.layRecords
  extract_lets
  refine .foldlFst (.fst h) fun h₁ => ?_
  extract_lets s₁ _ _ _ put write
  have hs₁ : Keeps s₀ s₁ := h₁
  have hput : ∀ {s off}, Keeps s₀ s → Keeps s₀ (put s off) := fun h₂ => h₂.modKiln
  have hwrite : KeepsFrom s₀ write := .ite .writeVa (.raise _)
  split
  · rename_i e
    exact .fst (hput ((hwrite _ hs₁).of_snd e))
  · rename_i e
    extract_lets s₂ s₃
    have hs₂ : Keeps s₀ s₂ := hput ((hwrite _ hs₁).of_snd e)
    have hs₃ : Keeps s₀ s₃ := .ite hs₂ hs₂.modScb.report
    exact .fst hs₃.modKiln

theorem Keeps.wholeStrand (h : Keeps s₀ s) {st} (e : s.wholeStrand st = .error t) : Keeps s₀ t := by
  unfold State.wholeStrand at e
  split at e <;> cases e
  rename_i e
  rcases Option.or_eq_some_iff.1 e with e | ⟨-, e⟩
  · obtain ⟨g, -, hg⟩ := List.exists_of_findSome?_eq_some e
    exact h.groupStop hg
  · split at e
    · cases e
    · exact h.vaultStop e

theorem Keeps.parkFor (h : Keeps s₀ s) {st} : Keeps s₀ (s.parkFor st).2 := by
  unfold State.parkFor
  extract_lets
  exact .snd h.parkTokens

theorem Keeps.readForSave (h : Keeps s₀ s) {st m} : Keeps s₀ (s.readForSave st m) := by
  unfold State.readForSave
  extract_lets s₁ s₂ s₃
  have hs₁ : Keeps s₀ s₁ := h.setStrand.bankStates
  have hs₂ : Keeps s₀ s₂ := .foldl hs₁ fun h₁ => h₁.scrubX
  have hs₃ : Keeps s₀ s₃ := .foldl hs₂ fun h₁ => h₁.scrubV
  exact .foldl hs₃ fun h₁ => h₁.scrubTile

theorem Keeps.saveStrand (h : Keeps s₀ s) {top st0 m} : Keeps s₀ (s.saveStrand top st0 m) := by
  unfold State.saveStrand
  extract_lets s₁
  have hs₁ : Keeps s₀ s₁ := h.readForSave
  split
  · rename_i e
    exact hs₁.wholeStrand e
  · extract_lets s₂ _ _ _ s₃
    have hs₂ : Keeps s₀ s₂ := hs₁.setStrand
    have hs₃ : Keeps s₀ s₃ := .foldl hs₂ fun h₁ => h₁.unbind
    split
    rename_i e
    extract_lets s₄ s₅ s₆ _ _ s₇
    have hs₄ : Keeps s₀ s₄ := .flushOwned (hs₃.parkFor.of_snd e)
    have hs₅ : Keeps s₀ s₅ := .ite hs₄ hs₄.withdraw
    have hs₆ : Keeps s₀ s₆ := hs₅.freeTiles.dropStrand.workLeaves
    have hs₇ : Keeps s₀ s₇ := hs₆.modKiln
    exact hs₇.bankStates.layRecords.send

theorem Keeps.preemptSave (h : Keeps s₀ s) {sk} : Keeps s₀ (s.preemptSave sk) := by
  unfold State.preemptSave
  split
  · exact h
  · extract_lets s₁
    have hs₁ : Keeps s₀ s₁ := h.commitIdem
    exact .ite hs₁.setStrand (.ite hs₁.setStrand (.ite hs₁.setStrand hs₁.saveStrand))

theorem Answers.execPreemptionSave (h : Keeps s₀ s) : Answers s₀ (execPreemptionSave s) := by
  unfold Machine.execPreemptionSave
  split
  · exact .ite (.next h.preemptSave) (.next h)
  · exact .next h

theorem Keeps.withdrawCmd (h : Keeps s₀ s) {st} : Keeps s₀ (s.withdrawCmd st) := by
  unfold State.withdrawCmd
  split
  · exact h
  · extract_lets s₁ s₂
    have hs₁ : Keeps s₀ s₁ := h.frame
    have hs₂ : Keeps s₀ s₂ := hs₁.modStrand
    exact hs₂.giveBack.returnLent

theorem Keeps.saveCtx (h : Keeps s₀ s) {top p i c} : Keeps s₀ (s.saveCtx top p i c) := by
  unfold State.saveCtx
  extract_lets
  split
  · exact h.modKiln
  · exact h.modKiln.layRecords

theorem Keeps.saveQueues (h : Keeps s₀ s) {top p} : Keeps s₀ (s.saveQueues top p) := by
  unfold State.saveQueues
  extract_lets _ _ _ _ s₁ s₂
  have hs₁ : Keeps s₀ s₁ := h.modCore
  have hs₂ : Keeps s₀ s₂ := .foldl hs₁.workLeaves fun h₁ => h₁.refillLater
  refine .ite h (.foldl hs₂ fun h₁ => ?_)
  split
  · exact h₁.saveCtx
  · exact h₁

theorem Keeps.preempt (h : Keeps s₀ s) {top} : Keeps s₀ (s.preempt top) := by
  unfold State.preempt
  extract_lets _ s₁
  have hs₁ : Keeps s₀ s₁ := by
    unfold s₁
    refine .foldl h fun h₁ => ?_
    split
    · exact h₁
    · refine .ite ?_ (.ite h₁.setStrand h₁)
      extract_lets s₂
      have hs₂ : Keeps s₀ s₂ := h₁.withdrawCmd.commitIdem
      split
      · exact .ite hs₂.saveStrand hs₂.setStrand
      · exact hs₂
  exact .foldl hs₁ fun h₁ => h₁.saveQueues

theorem Answers.execPreemptionRequest (h : Keeps s₀ s) : Answers s₀ (execPreemptionRequest s) := by
  unfold Machine.execPreemptionRequest
  split
  · exact .next h.preempt
  · exact .next h

theorem Keeps.releaseSaved (h : Keeps s₀ s) {n sv} : Keeps s₀ (s.releaseSaved n sv) := by
  unfold State.releaseSaved
  extract_lets _ s₁
  have hs₁ : Keeps s₀ s₁ := h.modKiln
  refine .foldl hs₁ fun h₁ => ?_
  extract_lets
  exact .ite h₁.returnCredits (.ite (.foldl h₁ fun h₂ => h₂.answerCredit) (.ite h₁.leavePair h₁))

theorem Keeps.restore (h : Keeps s₀ s) {n} : Keeps s₀ (s.restore n) := by
  unfold State.restore
  split
  · exact h
  · extract_lets _ read
    have hread : KeepsFrom s₀ read := by
      unfold read
      split
      · exact .raise _
      · exact .bind .readVa (.ite (.pure _) (.raise _))
    split
    · rename_i e
      exact .ctxDies (.drainOpens (.modKiln ((hread _ h).of_snd e)))
    · rename_i e
      split
      extract_lets s₁ _ _ s₂
      have hs₁ : Keeps s₀ s₁ := .modKiln (.frame ((hread _ h).of_snd e))
      have hs₂ : Keeps s₀ s₂ := .ite hs₁.releaseSaved hs₁
      exact hs₂.sendPlacement

theorem Answers.execPreemptionRestore (h : Keeps s₀ s) : Answers s₀ (execPreemptionRestore s) := by
  unfold Machine.execPreemptionRestore
  split
  · exact .next h.restore
  · exact .next h

/-! ### The host's commands (HostCmds.lean) -/

theorem Keeps.answerHost (h : Keeps s₀ s) {c code} : Keeps s₀ (s.answerHost c code) := h.complete

theorem Answers.runHost (h : Keeps s₀ s) {f} (hf : ∀ {c b n s}, Keeps s₀ s → Keeps s₀ (f c b n s)) :
    Answers s₀ (runHost f s) := by
  unfold Machine.runHost
  split
  · split
    · exact .next (hf h)
    · exact .next h.answerHost
  · exact .next h

theorem Keeps.wordsAt (h : Keeps s₀ s) {pasid va} : Keeps s₀ (s.wordsAt pasid va).1 := by
  unfold State.wordsAt
  split
  · exact .fst h
  · split
    · rename_i e
      exact .fst ((KeepsFrom.readVa _ h).of_snd e)
    · rename_i e
      exact .fst ((KeepsFrom.readVa _ h).of_snd e)
    · rename_i e
      exact .fst ((KeepsFrom.readVa _ h).of_snd e)

theorem Keeps.launchOfCmd (h : Keeps s₀ s) {c r} : Keeps s₀ (s.launchOfCmd c r).1 := by
  unfold State.launchOfCmd
  extract_lets
  split
  · exact .fst h
  · split
    · rename_i e
      exact .fst (h.wordsAt.of_fst e)
    · rename_i e _
      exact .fst (h.wordsAt.of_fst e)
    · rename_i e _
      extract_lets
      split
      · exact .fst (h.wordsAt.of_fst e)
      · split <;> exact .fst (h.wordsAt.of_fst e)

theorem Keeps.beginLaunch (h : Keeps s₀ s) {c r q b} : Keeps s₀ (s.beginLaunch c r q b) := by
  unfold State.beginLaunch
  extract_lets s₁ s₂ s₃ s₄
  have hs₁ : Keeps s₀ s₁ := h.modScb
  have hs₂ : Keeps s₀ s₂ := hs₁.beginScope
  have hs₃ : Keeps s₀ s₃ := hs₂.frame
  have hs₄ : Keeps s₀ s₄ := by
    unfold s₄
    refine .foldl hs₃ fun h₁ => ?_
    extract_lets s₅
    have hs₅ : Keeps s₀ s₅ := .foldl h₁ fun h₂ => h₂.modCore
    exact .ite hs₅.modCluster hs₅
  exact hs₄.send

theorem Keeps.launch (h : Keeps s₀ s) {c r phase} : Keeps s₀ (State.launch c r phase s) := by
  unfold State.launch
  split
  · rename_i e
    exact .answerHost (h.launchOfCmd.of_fst e)
  · rename_i e
    exact .ite (.beginLaunch (h.launchOfCmd.of_fst e)) (.after (h.launchOfCmd.of_fst e))

theorem Answers.execLaunch (h : Keeps s₀ s) : Answers s₀ (execLaunch s) := by
  unfold Machine.execLaunch
  exact .runHost h (fun h₁ => h₁.launch)

theorem Keeps.hostCancel (h : Keeps s₀ s) {c _r _phase} : Keeps s₀ (State.hostCancel c _r _phase s) := by
  unfold State.hostCancel
  split
  · exact h.cancelScope.answerHost
  · exact h.answerHost

theorem Answers.execCancel (h : Keeps s₀ s) : Answers s₀ (execCancel s) := by
  unfold Machine.execCancel
  exact .runHost h (fun h₁ => h₁.hostCancel)

theorem Keeps.setSaved (h : Keeps s₀ s) {top v} : Keeps s₀ (s.setSaved top v) := .foldl h fun h₁ => h₁.modScb

theorem Keeps.switchOut (h : Keeps s₀ s) {c _r phase} : Keeps s₀ (State.switchOut c _r phase s) := by
  unfold State.switchOut
  split
  · exact h.answerHost
  · extract_lets again
    have hagain : ∀ {s}, Keeps s₀ s → Keeps s₀ (again s) := fun h₁ => h₁.after
    exact .ite (.ite h.answerHost (hagain h.setSaved.send)) (.ite h.answerHost (.ite h.layRecords.answerHost
      (hagain h.setSaved.preempt)))

theorem Answers.execSwitchOut (h : Keeps s₀ s) : Answers s₀ (execSwitchOut s) := by
  unfold Machine.execSwitchOut
  exact .runHost h (fun h₁ => h₁.switchOut)

theorem Keeps.switchIn (h : Keeps s₀ s) {c _r _phase} : Keeps s₀ (State.switchIn c _r _phase s) := by
  unfold State.switchIn
  split
  · exact h.answerHost
  · extract_lets _ s₁ s₂ s₃
    have hs₁ : Keeps s₀ s₁ := h.setSaved
    have hs₂ : Keeps s₀ s₂ := .foldl hs₁ fun h₁ => h₁.send
    have hs₃ : Keeps s₀ s₃ := .foldl hs₂ fun h₁ => h₁.send
    exact .ite h.answerHost hs₃.answerHost

theorem Answers.execSwitchIn (h : Keeps s₀ s) : Answers s₀ (execSwitchIn s) := by
  unfold Machine.execSwitchIn
  exact .runHost h (fun h₁ => h₁.switchIn)

theorem Keeps.hostNop (h : Keeps s₀ s) {c _r _phase} : Keeps s₀ (State.hostNop c _r _phase s) := h.answerHost

theorem Answers.execNopCommand (h : Keeps s₀ s) : Answers s₀ (execNopCommand s) := by
  unfold Machine.execNopCommand
  exact .runHost h (fun h₁ => h₁.hostNop)

theorem Keeps.regionCreate (h : Keeps s₀ s) {c r phase} : Keeps s₀ (State.regionCreate c r phase s) := by
  unfold State.regionCreate
  extract_lets _ integ
  split
  · exact h.answerHost
  · refine .ite h.answerHost (.ite h.answerHost ?_)
    have htag : Keeps s₀ (if integ then s.freeWord else (0, s)).2 := by
      split
      · exact h.freeWord
      · exact h
    split
    rename_i e
    exact .answerHost (.frame (.frame (htag.of_snd e)))

theorem Answers.execRegionCreate (h : Keeps s₀ s) : Answers s₀ (execRegionCreate s) := by
  unfold Machine.execRegionCreate
  exact .runHost h (fun h₁ => h₁.regionCreate)

theorem Keeps.regionDestroy (h : Keeps s₀ s) {c r _phase} : Keeps s₀ (State.regionDestroy c r _phase s) := by
  unfold State.regionDestroy
  split
  · exact h.answerHost
  · exact .ite h.invalidateAll.dropToken.answerHost h.answerHost

theorem Answers.execRegionDestroy (h : Keeps s₀ s) : Answers s₀ (execRegionDestroy s) := by
  unfold Machine.execRegionDestroy
  exact .runHost h (fun h₁ => h₁.regionDestroy)

theorem Keeps.copyBacking (h : Keeps s₀ s) {tok pasid base new n i} :
    Keeps s₀ (s.copyBacking tok pasid base new n i).1 := by
  induction n generalizing s i with
  | zero => exact h
  | succ n ih =>
    unfold State.copyBacking
    split
    · exact .fst h
    · extract_lets key c
      have hread : Keeps s₀ (if isHost key then (s, .ok (s.block key)) else s.readSector key c).1 := by
        split
        · exact h
        · exact h.readSector
      split
      · rename_i e
        exact .fst (hread.of_fst e)
      · rename_i e
        exact ih (hread.of_fst e).putSector

theorem Keeps.modInside (h : Keeps s₀ s) {r pasid f} : Keeps s₀ (s.modInside r pasid f) := h.frame

theorem Keeps.reclaim (h : Keeps s₀ s) {r pasid} : Keeps s₀ (s.reclaim r pasid) := by
  unfold State.reclaim
  extract_lets s₁
  have hs₁ : Keeps s₀ s₁ := .foldl h fun h₁ => .ite h₁.commitIdem h₁
  exact hs₁.invalidateAll.modInside

theorem Keeps.restoreRegion (h : Keeps s₀ s) {r pasid} : Keeps s₀ (s.restoreRegion r pasid) :=
  h.invalidateAll.modInside

theorem Keeps.hostMigrate (h : Keeps s₀ s) {c r phase} : Keeps s₀ (State.hostMigrate c r phase s) := by
  unfold State.hostMigrate
  extract_lets _ again
  have hagain : ∀ {s n}, Keeps s₀ s → Keeps s₀ (again s n) := fun h₁ => h₁.after
  split
  · exact h.answerHost
  · extract_lets
    refine .ite (.ite h.answerHost (hagain h.reclaim)) (.ite (.ite (hagain h) (hagain h.invalidateAll)) (.ite (.ite
      (hagain h) ?_) (.ite h.restoreRegion.answerHost h.after)))
    split
    · rename_i e
      exact .answerHost (.restoreRegion (h.copyBacking.of_fst e))
    · rename_i e
      exact .ite (.answerHost (.restoreRegion (h.copyBacking.of_fst e))) (hagain (.askPage (h.copyBacking.of_fst e)))
    · rename_i e
      exact hagain (.modInside (h.copyBacking.of_fst e))

theorem Answers.execMigrate (h : Keeps s₀ s) : Answers s₀ (execMigrate s) := by
  unfold Machine.execMigrate
  exact .runHost h (fun h₁ => h₁.hostMigrate)

theorem Keeps.setCap (h : Keeps s₀ s) {c _r _phase} : Keeps s₀ (State.setCap c _r _phase s) := by
  unfold State.setCap
  extract_lets
  exact .ite h.answerHost h.frame.answerHost

theorem Answers.execPowerCap (h : Keeps s₀ s) : Answers s₀ (execPowerCap s) := by
  unfold Machine.execPowerCap
  exact .runHost h (fun h₁ => h₁.setCap)

theorem Keeps.routeTable (h : Keeps s₀ s) : Keeps s₀ s.routeTable := by
  unfold State.routeTable
  refine .foldl h fun h₁ => ?_
  extract_lets
  exact h₁.modCluster

theorem Keeps.setParts (h : Keeps s₀ s) {c _r _phase} : Keeps s₀ (State.setParts c _r _phase s) := by
  unfold State.setParts
  extract_lets _ _ s₁
  have hs₁ : Keeps s₀ s₁ := .foldl h fun h₁ => h₁.frame
  exact .ite h.answerHost hs₁.routeTable.answerHost

theorem Answers.execPartition (h : Keeps s₀ s) : Answers s₀ (execPartition s) := by
  unfold Machine.execPartition
  exact .runHost h (fun h₁ => h₁.setParts)

theorem Keeps.makeRoot (h : Keeps s₀ s) {b} : Keeps s₀ (s.makeRoot b) := h.setScb.modKiln

theorem Keeps.newKey (h : Keeps s₀ s) : Keeps s₀ s.newKey.2 := by
  unfold State.newKey
  split
  rename_i e
  extract_lets
  exact .snd (.modKiln (.frame (h.freeWord.of_snd e)))

theorem Keeps.tenantCreate (h : Keeps s₀ s) {c _r _phase} : Keeps s₀ (State.tenantCreate c _r _phase s) := by
  unfold State.tenantCreate
  extract_lets
  refine .ite h.answerHost ?_
  split
  · rename_i e
    exact .answerHost (h.wordsAt.of_fst e)
  · rename_i e _
    exact .answerHost (h.wordsAt.of_fst e)
  · rename_i e _
    extract_lets
    refine .ite (.answerHost (h.wordsAt.of_fst e)) ?_
    split
    rename_i e₁
    extract_lets
    exact .answerHost (.makeRoot ((Keeps.newKey (h.wordsAt.of_fst e)).of_snd e₁))

theorem Answers.execTenantCreate (h : Keeps s₀ s) : Answers s₀ (execTenantCreate s) := by
  unfold Machine.execTenantCreate
  exact .runHost h (fun h₁ => h₁.tenantCreate)

theorem Keeps.makeQueue (h : Keeps s₀ s) {q ring size tenant tiermin} :
    Keeps s₀ (s.makeQueue q ring size tenant tiermin) := by
  unfold State.makeQueue
  extract_lets
  exact h.modKiln

theorem Keeps.queueCreate (h : Keeps s₀ s) {c _r _phase} : Keeps s₀ (State.queueCreate c _r _phase s) := by
  unfold State.queueCreate
  extract_lets
  exact .ite h.answerHost h.makeQueue.answerHost

theorem Answers.execQueueCreate (h : Keeps s₀ s) : Answers s₀ (execQueueCreate s) := by
  unfold Machine.execQueueCreate
  exact .runHost h (fun h₁ => h₁.queueCreate)

theorem Keeps.queueDestroy (h : Keeps s₀ s) {c _r phase} : Keeps s₀ (State.queueDestroy c _r phase s) := by
  unfold State.queueDestroy
  extract_lets
  split
  · exact h.answerHost
  · extract_lets s₁
    have hs₁ : Keeps s₀ s₁ := .ite h.modKiln h
    exact .ite hs₁.after hs₁.modKiln.answerHost

theorem Answers.execQueueDestroy (h : Keeps s₀ s) : Answers s₀ (execQueueDestroy s) := by
  unfold Machine.execQueueDestroy
  exact .runHost h (fun h₁ => h₁.queueDestroy)

/-! ### The Kiln (Kiln.lean) -/

theorem Keeps.hartTrap (h : Keeps s₀ s) {h' cause val} : Keeps s₀ (s.hartTrap h' cause val) := h.modHart

theorem Keeps.breakReservations (h : Keeps s₀ s) {addr n} : Keeps s₀ (s.breakReservations addr n) := by
  unfold State.breakReservations
  extract_lets
  exact h.modKiln

theorem KeepsOut.runHart (h : Keeps s₀ s) {d f} (hf : ∀ {x s}, Keeps s₀ s → Keeps s₀ (f x s).1) :
    KeepsOut s₀ (runHart d f s) := by
  unfold Machine.runHart
  refine .ite (.refused _) ?_
  split
  · rename_i e
    exact .next ((hf h).of_fst e).modHart
  · rename_i e
    exact .next ((hf h).of_fst e).hartTrap

theorem Keeps.readRing (h : Keeps s₀ s) {c} : Keeps s₀ (s.readRing c).1 := by
  unfold State.readRing
  split
  · split
    · rename_i e
      exact .fst ((KeepsFrom.readVa _ h).of_snd e)
    · rename_i e
      exact .fst ((KeepsFrom.readVa _ h).of_snd e)
  · exact .fst h

theorem Keeps.askRing (h : Keeps s₀ s) {c} : Keeps s₀ (s.askRing c) := by
  unfold State.askRing
  split
  · exact h.askPage
  · exact h

theorem Keeps.setQcb (h : Keeps s₀ s) {q f} : Keeps s₀ (s.setQcb q f) := by
  unfold State.setQcb
  split
  · exact h.modKiln
  · exact h

theorem Keeps.stopQueue (h : Keeps s₀ s) {q} : Keeps s₀ (s.stopQueue q) := h.setQcb

theorem Keeps.krf (h : Keeps s₀ s) {t' a d x} : Keeps s₀ (krf t' a d x s).1 := by
  unfold Machine.krf
  extract_lets
  split
  · exact .fst h
  · split
    · exact .fst h
    · split
      · exact .fst h
      · split
        · exact .fst h
        · exact .fst h.stopQueue
        · exact .fst h.readRing
        · extract_lets s₁ s₂
          have hs₁ : Keeps s₀ s₁ := h.readRing.setBytes.breakReservations
          have hs₂ : Keeps s₀ s₂ := hs₁.modHart
          split
          · exact .fst hs₂
          · split <;> exact .fst hs₂

theorem KeepsOut.execKrf (h : Keeps s₀ s) {t' a d} : KeepsOut s₀ (execKrf t' a d s) := by
  unfold Machine.execKrf
  split
  · exact .ite (.refused _) (.next h.askPage.modHart)
  · exact .runHart h (fun h₁ => h₁.krf)

theorem KeepsOut.execKbfx (h : Keeps s₀ s) {t' a d} : KeepsOut s₀ (execKbfx t' a d s) := by
  unfold Machine.execKbfx
  exact .runHart h (fun h₁ => .fst h₁)

theorem KeepsOut.execKswt (h : Keeps s₀ s) {a d} : KeepsOut s₀ (execKswt a d s) := by
  unfold Machine.execKswt
  refine .ite (.refused _) ?_
  extract_lets
  exact .ite (.next h.modHart) (.next h.modHart)

theorem Keeps.wheelRanks (h : Keeps s₀ s) {w} : Keeps s₀ (s.wheelRanks w) := by
  unfold State.wheelRanks
  extract_lets _ _ _ _ _ _ _ _ _ s₁
  have hs₁ : Keeps s₀ s₁ := h.modScb
  refine .foldl hs₁ fun h₁ => ?_
  extract_lets
  exact h₁.sendLoad

theorem Keeps.wheelTakes (h : Keeps s₀ s) {cluster w} : Keeps s₀ (s.wheelTakes cluster w).1 := by
  unfold State.wheelTakes
  extract_lets _ _ _ s₁
  have hs₁ : Keeps s₀ s₁ := h.signal
  split
  · exact .fst hs₁
  · split
    · exact .fst hs₁
    · exact .fst hs₁.modKiln.wheelRanks

theorem Keeps.kdsp (h : Keeps s₀ s) {t' a _d x} : Keeps s₀ (kdsp t' a _d x s).1 := by
  unfold Machine.kdsp
  extract_lets
  split
  · exact .fst h
  · split
    · exact .fst h
    · split
      · exact .fst h
      · split
        rename_i e
        exact .fst (h.wheelTakes.of_fst e)

theorem KeepsOut.execKdsp (h : Keeps s₀ s) {t' a d} : KeepsOut s₀ (execKdsp t' a d s) := by
  unfold Machine.execKdsp
  exact .runHart h (fun h₁ => h₁.kdsp)

theorem Keeps.ring (h : Keeps s₀ s) {q v} : Keeps s₀ (s.ring q v) := by
  unfold State.ring
  extract_lets discard
  have hdiscard : Keeps s₀ discard := h.modKiln
  split
  · exact hdiscard
  · extract_lets _ s₁
    have hs₁ : Keeps s₀ s₁ := .ite h.setQcb h
    exact .ite hdiscard (.ite h.stopQueue.signal hs₁.modKiln.signal.send)

theorem Keeps.doorbell (h : Keeps s₀ s) {q v} : Keeps s₀ (s.doorbell q v) := by
  unfold State.doorbell
  refine .ite h.ring ?_
  extract_lets s₁
  have hs₁ : Keeps s₀ s₁ := h.modKiln
  exact .ite hs₁.send hs₁

theorem Answers.execDoorbell (h : Keeps s₀ s) : Answers s₀ (execDoorbell s) := by
  unfold Machine.execDoorbell
  split
  · exact .ite (.next h.frame.doorbell) (.next h)
  · exact .next h

theorem Keeps.replayLatch (h : Keeps s₀ s) : Keeps s₀ s.replayLatch := by
  unfold State.replayLatch
  extract_lets _ _ s₁
  have hs₁ : Keeps s₀ s₁ := h.modKiln
  exact .foldl hs₁ fun h₁ => h₁.ring

theorem Keeps.makeQueue0 (h : Keeps s₀ s) : Keeps s₀ s.makeQueue0 := by
  unfold State.makeQueue0
  refine .ite h ?_
  extract_lets _ s₁
  have hs₁ : Keeps s₀ s₁ := h.modKiln
  exact .ite hs₁ hs₁.makeQueue

theorem Answers.execQueue0Create (h : Keeps s₀ s) : Answers s₀ (execQueue0Create s) := by
  unfold Machine.execQueue0Create
  split
  · exact .next h.modKiln
  · exact .next h.modKiln
  · exact .next (.ite h.modKiln.makeQueue0 h)
  · exact .next h

theorem Keeps.dispatchLaunch (h : Keeps s₀ s) {c tag q} : Keeps s₀ (s.dispatchLaunch c tag q) := by
  unfold State.dispatchLaunch
  split
  · extract_lets _ s₁
    have hs₁ : Keeps s₀ s₁ := h.modKiln
    exact .send (.ite hs₁ hs₁.send)
  · extract_lets _ _ s₁
    have hs₁ : Keeps s₀ s₁ := h.signal
    exact .ite hs₁.after hs₁.modKiln.send

theorem Keeps.withEntry (h : Keeps s₀ s) {q n c f} (hf : ∀ {s a}, Keeps s₀ s → Keeps s₀ (f s a)) :
    Keeps s₀ (s.withEntry q n c f) := by
  unfold State.withEntry
  split
  · rename_i e
    exact hf (h.readRing.of_fst e)
  · rename_i e
    exact .after (.askRing (h.readRing.of_fst e))

theorem Keeps.dispatchPart (h : Keeps s₀ s) {q n} : Keeps s₀ (s.dispatchPart q n) := by
  unfold State.dispatchPart
  extract_lets next
  have hnext : ∀ {s}, Keeps s₀ s → Keeps s₀ (next s) := fun h₁ => h₁.send
  split
  · exact h.setQcb.send
  · exact h.setQcb.send
  · split
    · exact h
    · exact h.withEntry (fun h₁ => .ite h₁.dispatchLaunch h₁.send)
  · exact h.setQcb.send
  · split
    · exact h
    · refine h.withEntry (fun h₁ => ?_)
      extract_lets s₁ s₂
      have hs₁ : Keeps s₀ s₁ := h₁.setQcb
      have hs₂ : Keeps s₀ s₂ := by
        unfold s₂
        split
        · exact hs₁
        · exact hs₁.send
        · exact hs₁.answerHost
      exact hs₂.send

theorem Keeps.dispatch (h : Keeps s₀ s) : Keeps s₀ s.dispatch := by
  unfold State.dispatch
  refine .ite h ?_
  extract_lets s₁
  have hs₁ : Keeps s₀ s₁ := by
    unfold s₁
    refine .foldl h fun h₁ => ?_
    split
    · exact h₁.stopQueue.signal
    · exact h₁.askRing
    · exact h₁
  refine .ite hs₁ ?_
  split
  · exact hs₁.send
  · exact .ite hs₁ hs₁.after

theorem Answers.execKilnDispatch (h : Keeps s₀ s) : Answers s₀ (execKilnDispatch s) := by
  unfold Machine.execKilnDispatch
  split
  · exact .next h.dispatchPart
  · exact .next h.dispatch

theorem Keeps.watchdog (h : Keeps s₀ s) {h'} : Keeps s₀ (s.watchdog h') := by
  unfold State.watchdog
  extract_lets s₁ _ s₂ s₃
  have hs₁ : Keeps s₀ s₁ := h.modHart
  have hs₂ : Keeps s₀ s₂ := hs₁.frame
  have hs₃ : Keeps s₀ s₃ := hs₂.modKiln
  exact .send (.foldl hs₃ fun h₁ => h₁.send)

theorem Answers.execKilnWatchdog (h : Keeps s₀ s) : Answers s₀ (execKilnWatchdog s) := by
  unfold Machine.execKilnWatchdog
  split
  · exact .ite (.next h.watchdog) (.next h)
  · exact .next h

theorem Answers.execKilnTimer (h : Keeps s₀ s) : Answers s₀ (execKilnTimer s) := by
  unfold Machine.execKilnTimer
  extract_lets s₁
  have hs₁ : Keeps s₀ s₁ := h.signal
  exact .next (.ite hs₁.send hs₁)

/-! ### Packets and flits on the links (Links.lean) -/

theorem Keeps.freeBlock (h : Keeps s₀ s) : Keeps s₀ s.freeBlock.2 := by
  unfold State.freeBlock
  exact .snd h.frame

theorem Keeps.flitsOf (h : Keeps s₀ s) {w parcel} : Keeps s₀ (s.flitsOf w parcel).2 := by
  unfold State.flitsOf
  refine .foldlSnd (.snd h) fun h₁ => ?_
  split
  rename_i e
  extract_lets
  exact .snd (h₁.freeBlock.of_snd e)

theorem Keeps.modLink (h : Keeps s₀ s) {p f} : Keeps s₀ (s.modLink p f) := h.frame

theorem Keeps.modClass (h : Keeps s₀ s) {p c f} : Keeps s₀ (s.modClass p c f) := h.modLink

theorem Keeps.queueFlit (h : Keeps s₀ s) {p c f} : Keeps s₀ (s.queueFlit p c f) := h.modClass

theorem Keeps.inject1 (h : Keeps s₀ s) {p i} : Keeps s₀ (s.inject1 p i) := by
  unfold State.inject1
  split
  · exact h
  · split
    · exact h
    · refine .ite h ?_
      extract_lets
      split
      rename_i e
      extract_lets s₁
      have hs₁ : Keeps s₀ s₁ := .frame (h.frame.flitsOf.of_snd e)
      exact .foldl hs₁ fun h₁ => h₁.queueFlit

theorem Keeps.sendFlit (h : Keeps s₀ s) {p} : Keeps s₀ (s.sendFlit p) := by
  unfold State.sendFlit
  extract_lets _ _ s₁
  have hs₁ : Keeps s₀ s₁ := h.modLink
  refine .ite h ?_
  split
  · exact hs₁
  · extract_lets _ _ s₂ s₃
    have hs₂ : Keeps s₀ s₂ := hs₁.modClass
    have hs₃ : Keeps s₀ s₃ := by
      unfold s₃
      split
      · exact hs₂.modClass
      · exact hs₂
    exact hs₃.push

theorem Keeps.drain (h : Keeps s₀ s) {p n} : Keeps s₀ (s.drain p n) := .foldl h fun h₁ => h₁.modClass

theorem Answers.execFlitSend (h : Keeps s₀ s) : Answers s₀ (execFlitSend s) := by
  unfold Machine.execFlitSend
  split
  · exact .next (.sendFlit (.drain (.ite h h.inject1)))
  · exact .next h

theorem Keeps.dropParcel (h : Keeps s₀ s) {n} : Keeps s₀ (s.dropParcel n) := h.frame

theorem Keeps.landAs (h : Keeps s₀ s) {n arg} : Keeps s₀ (s.landAs n arg) := h.frame

theorem Keeps.land (h : Keeps s₀ s) {n} : Keeps s₀ (s.land n) := h.frame

theorem Keeps.reissue (h : Keeps s₀ s) {scope w} : Keeps s₀ (s.reissue scope w) := h.modScb

theorem Keeps.truncateLoad (h : Keeps s₀ s) {n} : Keeps s₀ (s.truncateLoad n) := by
  unfold State.truncateLoad
  extract_lets
  split
  · exact h.dropParcel
  · extract_lets
    exact h.frame.loadEnds

theorem Keeps.truncateStart (h : Keeps s₀ s) {c} : Keeps s₀ (s.truncateStart c) := by
  unfold State.truncateStart
  extract_lets _ _ load _ s₁ s₂
  have hs₁ : Keeps s₀ s₁ := h.frame
  have hs₂ : Keeps s₀ s₂ := hs₁.modScb
  clear_value load
  split
  · exact hs₂.loadEnds
  · exact hs₂.launchFails

theorem Keeps.truncateCtx (h : Keeps s₀ s) {n e} : Keeps s₀ (s.truncateCtx n e) := by
  unfold State.truncateCtx
  extract_lets
  split
  · exact .ite h.reissue.landAs h.dropParcel.answerMigration
  · extract_lets s₁
    have hs₁ : Keeps s₀ s₁ := h.reissue
    exact .ite hs₁.landAs hs₁.dropParcel.send
  · exact h.truncateStart
  · exact h.land

theorem Keeps.truncateWord (h : Keeps s₀ s) {num} : Keeps s₀ (s.truncateWord num) := h.modSender

theorem Keeps.undoCell (h : Keeps s₀ s) {a} : Keeps s₀ (s.undoCell a) := .ite h h.putSector

theorem Keeps.truncated (h : Keeps s₀ s) {n sub} : Keeps s₀ (s.truncated n sub) := by
  unfold State.truncated
  split
  · exact h
  · extract_lets
    split
    · exact h.landAs
    · split
      · exact h.landAs
      · exact h.undoCell.landAs
    · exact h.landAs
    · extract_lets s₁
      have hs₁ : Keeps s₀ s₁ := h.dropParcel.dropOutst
      exact .ite hs₁.ewtAtHome hs₁.deliver
    · refine .ite h.dropParcel.bulk ?_
      split
      · split
        · exact h.dropParcel.endAll
        · exact h.dropParcel
      · exact h.dropParcel
    · exact h.dropParcel.returnWeight.refuse
    · exact h.dropParcel.truncateWord
    · exact h.truncateCtx
    · exact h.truncateLoad
    · exact h.truncateLoad
    · exact h.dropParcel.reissue.cmdRefused
    · exact h.land

theorem Keeps.truncate (h : Keeps s₀ s) {p c sub} : Keeps s₀ (s.truncate p c sub) := by
  unfold State.truncate
  extract_lets _ s₁ s₂
  have hs₁ : Keeps s₀ s₁ := h.modClass
  have hs₂ : Keeps s₀ s₂ := hs₁.modCluster
  refine .ite h ?_
  split
  · exact hs₂.truncated
  · split
    rename_i e
    exact .queueFlit (hs₂.freeBlock.of_snd e)

theorem Keeps.cutSub (h : Keeps s₀ s) : Keeps s₀ s.cutSub.2 := by
  unfold State.cutSub
  split
  rename_i e
  exact .snd (h.freeWord.of_snd e)

theorem Answers.execTruncationTimeout (h : Keeps s₀ s) : Answers s₀ (execTruncationTimeout s) := by
  unfold Machine.execTruncationTimeout
  split
  · exact .ite (.next h.truncate) (.next h)
  · exact .next h

theorem Keeps.truncateFrom (h : Keeps s₀ s) {pcore} : Keeps s₀ (s.truncateFrom pcore) := by
  unfold State.truncateFrom
  extract_lets
  exact .foldl h fun h₁ => h₁.truncate

theorem Keeps.partitionDown (h : Keeps s₀ s) {cluster} : Keeps s₀ (s.partitionDown cluster) := by
  unfold State.partitionDown
  extract_lets _ s₁ _ s₂ _ s₃ s₄
  have hs₁ : Keeps s₀ s₁ := .foldl h fun h₁ => h₁.stopCore
  have hs₂ : Keeps s₀ s₂ := .foldl hs₁ fun h₁ => h₁.modEngine
  have hs₃ : Keeps s₀ s₃ := .foldl hs₂ fun h₁ => h₁.engineDies
  have hs₄ : Keeps s₀ s₄ := .foldl hs₃ fun h₁ => h₁.modLink
  exact hs₄.signal.send

theorem Keeps.uncorrectable (h : Keeps s₀ s) {p c f} : Keeps s₀ (s.uncorrectable p c f) := by
  unfold State.uncorrectable
  extract_lets s₁
  have hs₁ : Keeps s₀ s₁ := h.modClass
  exact .ite hs₁.partitionDown hs₁.truncate

theorem Keeps.countDiscard (h : Keeps s₀ s) {p} : Keeps s₀ (s.countDiscard p) := h.modCluster

theorem Keeps.takeFlit (h : Keeps s₀ s) {p c f} : Keeps s₀ (s.takeFlit p c f) := by
  unfold State.takeFlit
  extract_lets s₁ _ s₂ s₃
  have hs₁ : Keeps s₀ s₁ := h.modClass
  have hs₂ : Keeps s₀ s₂ := by
    unfold s₂
    split
    · exact hs₁.queueFlit
    · exact hs₁
  have hs₃ : Keeps s₀ s₃ := hs₂.modClass
  exact .ite (.ite hs₃ (.ite hs₃.truncated hs₃.land)) hs₂.push

theorem Keeps.openFlit (h : Keeps s₀ s) {p c f} : Keeps s₀ (s.openFlit p c f) := by
  unfold State.openFlit
  extract_lets _ s₁ s₂
  have hs₁ : Keeps s₀ s₁ := h.countDiscard.dropParcel
  have hs₂ : Keeps s₀ s₂ := by
    unfold s₂
    refine .ite ?_ h
    split
    rename_i e
    exact .truncate (h.cutSub.of_snd e)
  exact .ite (.ite hs₁ hs₁.returnWeight) hs₂.modClass.takeFlit

theorem Keeps.acceptFlit (h : Keeps s₀ s) {p c f} : Keeps s₀ (s.acceptFlit p c f) := by
  unfold State.acceptFlit
  extract_lets s₁ s₂
  have hs₁ : Keeps s₀ s₁ := h.modClass
  have hs₂ : Keeps s₀ s₂ := hs₁.send
  exact .ite hs₂.openFlit (.ite hs₂.takeFlit hs₂.countDiscard)

theorem Keeps.flitArrives (h : Keeps s₀ s) {p f} : Keeps s₀ (s.flitArrives p f) := by
  unfold State.flitArrives
  extract_lets
  exact .ite h (.ite (.ite h.uncorrectable h.send) (.ite h h.acceptFlit))

theorem Answers.execFlitArrival (h : Keeps s₀ s) : Answers s₀ (execFlitArrival s) := by
  unfold Machine.execFlitArrival
  split
  · exact .next h.flitArrives
  · exact .next h

theorem Keeps.resend (h : Keeps s₀ s) {p c seq} : Keeps s₀ (s.resend p c seq) := by
  unfold State.resend
  extract_lets _ from' _ s₁
  have hs₁ : Keeps s₀ s₁ := h.modClass
  clear_value s₁ from'
  split
  · exact h
  · exact .ite h.uncorrectable (.foldl hs₁ fun h₁ => h₁.modCluster.push)

theorem Answers.execNegativeAcknowledge (h : Keeps s₀ s) : Answers s₀ (execNegativeAcknowledge s) := by
  unfold Machine.execNegativeAcknowledge
  split
  · exact .next h.resend
  · exact .next h

theorem Answers.execFlitAcknowledge (h : Keeps s₀ s) : Answers s₀ (execFlitAcknowledge s) := by
  unfold Machine.execFlitAcknowledge
  split
  · exact .next h.modClass
  · exact .next h

/-! ### Health and power (Health.lean) -/

theorem Keeps.settleTokens (h : Keeps s₀ s) {dead pcores} : Keeps s₀ (s.settleTokens dead pcores) := h.frame

theorem Keeps.poisonTokens (h : Keeps s₀ s) : Keeps s₀ s.poisonTokens := h.frame

theorem Keeps.strandDies (h : Keeps s₀ s) {st} : Keeps s₀ (s.strandDies st) := by
  unfold State.strandDies
  refine .ite h.departed ?_
  extract_lets _ s₁ s₂ s₃ s₄ s₅ s₆ s₇
  have hs₁ : Keeps s₀ s₁ := h.drainOpens.returnWeight
  have hs₂ : Keeps s₀ s₂ := hs₁.answerOwed
  have hs₃ : Keeps s₀ s₃ := by
    unfold s₃
    split
    · exact hs₂.setHandler
    · exact hs₂
  have hs₄ : Keeps s₀ s₄ := hs₃.breakPairs
  have hs₅ : Keeps s₀ s₅ := .foldl hs₄ fun h₁ => h₁.returnCredits
  have hs₆ : Keeps s₀ s₆ := by
    unfold s₆
    split
    · exact hs₅.nodeEnds
    · exact hs₅
  have hs₇ : Keeps s₀ s₇ := .ite hs₆ hs₆.memberDied
  exact hs₇.dropStrand.workLeaves

theorem Keeps.clearBoxes (h : Keeps s₀ s) {l} : Keeps s₀ (s.clearBoxes l) := by
  unfold State.clearBoxes
  extract_lets s₁
  have hs₁ : Keeps s₀ s₁ := by
    unfold s₁
    refine .foldl h fun h₁ => ?_
    extract_lets
    exact .foldl h₁.setHandler fun h₂ => h₂.refuse
  exact hs₁.modLCore

theorem Keeps.refuseWaiting (h : Keeps s₀ s) {l p} : Keeps s₀ (s.refuseWaiting l p) := by
  unfold State.refuseWaiting
  extract_lets _ _ s₁
  have hs₁ : Keeps s₀ s₁ := .foldl h.frame fun h₁ => h₁.refuse
  refine .foldl hs₁ fun h₁ => ?_
  split
  · exact .ite h₁.setStrand (.ite h₁.setStrand.takeTrap h₁)
  · exact h₁

theorem Keeps.coreDies (h : Keeps s₀ s) {p} : Keeps s₀ (s.coreDies p) := by
  unfold State.coreDies
  extract_lets _ _ _ _ _ _ _ s₁ s₂ s₃
  have hs₁ : Keeps s₀ s₁ := .ite h.clearBoxes.refuseWaiting h
  have hs₂ : Keeps s₀ s₂ := .foldl hs₁ fun h₁ => h₁.strandDies
  have hs₃ : Keeps s₀ s₃ := .foldl hs₂ fun h₁ => h₁.ctxDies
  exact hs₃.frame.modCore.breakTo

theorem Keeps.declareDead (h : Keeps s₀ s) {p codes} : Keeps s₀ (s.declareDead p codes) := by
  unfold State.declareDead
  refine .ite h ?_
  extract_lets _ s₁ s₂ s₃
  have hs₁ : Keeps s₀ s₁ := h.truncateFrom.coreDies
  have hs₂ : Keeps s₀ s₂ := hs₁.modCore
  have hs₃ : Keeps s₀ s₃ := .foldl hs₂ fun h₁ => .foldl h₁ fun h₂ => h₂.report
  exact hs₃.signal.send

theorem Keeps.zeroRange (h : Keeps s₀ s) {lo hi} : Keeps s₀ (s.zeroRange lo hi) := h.update memoryWf_filter id id

theorem Keeps.remap (h : Keeps s₀ s) {p} : Keeps s₀ (s.remap p) := by
  unfold State.remap
  extract_lets _ _ _ s₁ s₂
  have hs₁ : Keeps s₀ s₁ := h.zeroRange
  have hs₂ : Keeps s₀ s₂ := .foldl hs₁ fun h₁ => h₁.writeRaw
  exact .ite h (.ite h.modCore.report hs₂.frame)

theorem Answers.execSpareRemap (h : Keeps s₀ s) : Answers s₀ (execSpareRemap s) := by
  unfold Machine.execSpareRemap
  split
  · exact .next h.poisonTokens.remap
  · exact .next h.poisonTokens

theorem Keeps.at_ (h : Keeps s₀ s) {cycle lane ev arg} : Keeps s₀ (s.at_ cycle lane ev arg) := h.push

theorem Keeps.sendBeat (h : Keeps s₀ s) {w k} : Keeps s₀ (s.sendBeat w k) := by
  unfold State.sendBeat
  extract_lets _ s₁
  have hs₁ : Keeps s₀ s₁ := .ite h.push h
  exact .ite hs₁.at_ hs₁.at_

theorem Answers.execHeartbeatSend (h : Keeps s₀ s) : Answers s₀ (execHeartbeatSend s) := by
  unfold Machine.execHeartbeatSend
  split
  · exact .next h.sendBeat
  · exact .next h

theorem Answers.execHeartbeat (h : Keeps s₀ s) : Answers s₀ (execHeartbeat s) := by
  unfold Machine.execHeartbeat
  split
  · exact .next (.ite h h.modCore)
  · exact .next h

theorem Keeps.judge (h : Keeps s₀ s) {p} : Keeps s₀ (s.judge p) := by
  unfold State.judge
  extract_lets _ s₁
  have hs₁ : Keeps s₀ s₁ := h.modCore
  exact .ite h (.ite h.modCore (.ite h (.ite hs₁.declareDead hs₁)))

theorem Keeps.windowEnds (h : Keeps s₀ s) {w} : Keeps s₀ (s.windowEnds w) := .at_ (.foldl h fun h₁ => h₁.judge)

theorem Answers.execHeartbeatWindowEnd (h : Keeps s₀ s) : Answers s₀ (execHeartbeatWindowEnd s) := by
  unfold Machine.execHeartbeatWindowEnd
  split
  · exact .next h.windowEnds
  · exact .next h

theorem Answers.execSentinelReplay (h : Keeps s₀ s) : Answers s₀ (execSentinelReplay s) := by
  unfold Machine.execSentinelReplay
  split
  · extract_lets s₁
    have hs₁ : Keeps s₀ s₁ := h.modCore
    exact .next hs₁.modCluster
  · exact .next h

theorem Keeps.adjustQuad (h : Keeps s₀ s) {q} : Keeps s₀ (s.adjustQuad q) := by
  unfold State.adjustQuad
  extract_lets _ _ _ _ s₁ s₂
  have hs₁ : Keeps s₀ s₁ := .foldl h fun h₁ => h₁.modCore
  have hs₂ : Keeps s₀ s₂ := .foldl hs₁ fun h₁ => h₁.declareDead
  exact hs₂.frame

theorem Answers.execSupplyAdjust (h : Keeps s₀ s) : Answers s₀ (execSupplyAdjust s) := by
  unfold Machine.execSupplyAdjust
  split
  · extract_lets s₁
    have hs₁ : Keeps s₀ s₁ := .foldl h fun h₁ => h₁.adjustQuad
    exact .next hs₁.at_
  · exact .next h

theorem Keeps.cleanCore (h : Keeps s₀ s) {p} : Keeps s₀ (s.cleanCore p) := by
  unfold State.cleanCore
  extract_lets s₁
  have hs₁ : Keeps s₀ s₁ := .foldl h fun h₁ => h₁.writeBack
  exact hs₁

theorem Keeps.gateCluster (h : Keeps s₀ s) {c} : Keeps s₀ (s.gateCluster c) := by
  unfold State.gateCluster
  extract_lets gate s₁ s₂
  have hgate : ∀ {s p}, Keeps s₀ s → Keeps s₀ (gate s p) := fun h₁ => h₁.cleanCore.modCore
  have hs₁ : Keeps s₀ s₁ := .foldl h fun h₁ => hgate h₁
  have hs₂ : Keeps s₀ s₂ := hs₁.modCluster
  exact .ite hs₂.send hs₂

theorem Answers.execClusterGate (h : Keeps s₀ s) : Answers s₀ (execClusterGate s) := by
  unfold Machine.execClusterGate
  split
  · exact .ite (.next h.gateCluster) (.next h)
  · exact .next h

theorem Answers.execKilnGate (h : Keeps s₀ s) : Answers s₀ (execKilnGate s) := by
  unfold Machine.execKilnGate
  exact .next (.ite h.modKiln h)

theorem Answers.execWakeSequence (h : Keeps s₀ s) : Answers s₀ (execWakeSequence s) := by
  unfold Machine.execWakeSequence
  extract_lets s₁
  have hs₁ : Keeps s₀ s₁ := h.modKiln
  exact .next (.ite hs₁.replayLatch hs₁)

theorem Answers.execCoreWake (h : Keeps s₀ s) : Answers s₀ (execCoreWake s) := by
  unfold Machine.execCoreWake
  split
  · exact .next h.wakeCore
  · exact .next h

theorem Scb.newCones_id (b : Scb) : b.newCones.id = b.id := by
  unfold Scb.newCones
  split <;> rfl

theorem Keeps.newPeriod (h : Keeps s₀ s) : Keeps s₀ s.newPeriod := by
  refine .foldl (h.update id id (·.map fun kv => ⟨rfl, Scb.newCones_id kv.2⟩)) fun h₁ => ?_
  extract_lets
  exact .ite h₁.after h₁

theorem Answers.execBudgetPeriodStart (h : Keeps s₀ s) : Answers s₀ (execBudgetPeriodStart s) := by
  unfold Machine.execBudgetPeriodStart
  split
  · extract_lets s₁
    have hs₁ : Keeps s₀ s₁ := h.newPeriod.at_
    exact .next (.ite hs₁.send hs₁)
  · exact .next h

theorem Keeps.lowerScope (h : Keeps s₀ s) {id} : Keeps s₀ (s.lowerScope id) := by
  unfold State.lowerScope
  split
  rename_i e
  exact .modScb (h.freeWord.of_snd e)

theorem Keeps.overCap (h : Keeps s₀ s) : Keeps s₀ s.overCap := by
  unfold State.overCap
  extract_lets
  split
  · exact .foldl h fun h₁ => h₁.lowerScope
  · exact h.frame.report

theorem Answers.execModulePowerCrossesCap (h : Keeps s₀ s) : Answers s₀ (execModulePowerCrossesCap s) := by
  unfold Machine.execModulePowerCrossesCap
  split
  · exact .next h.overCap.signal
  · exact .next h.frame.signal
  · exact .next h

theorem Answers.execThermalLimit (h : Keeps s₀ s) : Answers s₀ (execThermalLimit s) := by
  unfold Machine.execThermalLimit
  exact .next h.overCap.signal

/-- With no strand and no scope left, what stays of memory is in order as it was. -/
theorem Keeps.emptied (h : Keeps s₀ s) {p} (hm : t.mem = s.mem.filter p) (hs : t.strands = []) (hc : t.scopes = []) :
    Keeps s₀ t where
  mem h₀ := by
    rw [hm]
    exact memoryWf_filter (h.mem h₀)
  slots _ := by
    rw [slots_iff, hs]
    exact .nil
  named _ := by
    rw [named_iff, hc]
    exact .nil

theorem Keeps.darken (h : Keeps s₀ s) : Keeps s₀ s.darken := h.emptied rfl rfl rfl

theorem Answers.execThermalShutdown (h : Keeps s₀ s) : Answers s₀ (execThermalShutdown s) := by
  unfold Machine.execThermalShutdown
  refine .next (.modKiln ?_)
  extract_lets s₁
  have hs₁ : Keeps s₀ s₁ := h.darken
  exact hs₁.frame

theorem Answers.execHealthEvent (h : Keeps s₀ s) : Answers s₀ (execHealthEvent s) := by
  unfold Machine.execHealthEvent
  split
  · exact .ite (.next h.modCluster) (.next h)
  · exact .next h

theorem Answers.execRefreshFault (h : Keeps s₀ s) : Answers s₀ (execRefreshFault s) := by
  unfold Machine.execRefreshFault
  split
  · exact .ite (.next h.modCluster) (.next h)
  · exact .next h

/-! ### Start-up, recovery and reset (Boot.lean) -/

theorem Keeps.startFirmware (h : Keeps s₀ s) : Keeps s₀ s.startFirmware := by
  unfold State.startFirmware
  extract_lets _ s₁ s₂
  have hs₁ : Keeps s₀ s₁ := h.frame
  have hs₂ : Keeps s₀ s₂ := hs₁.modKiln
  exact hs₂.send.after

theorem Keeps.runSlot (h : Keeps s₀ s) {b} : Keeps s₀ (s.runSlot b) := by
  unfold State.runSlot
  extract_lets
  exact h.modKiln.startFirmware

theorem Keeps.enterRecovery (h : Keeps s₀ s) {cause} : Keeps s₀ (s.enterRecovery cause) := h.frame.modKiln

theorem Keeps.powerOn (h : Keeps s₀ s) : Keeps s₀ s.powerOn := by
  unfold State.powerOn
  extract_lets s₁
  have hs₁ : Keeps s₀ s₁ := h.modKiln
  split
  · exact hs₁.runSlot
  · exact hs₁.enterRecovery

theorem Answers.execPowerOn (h : Keeps s₀ s) : Answers s₀ (execPowerOn s) := by
  unfold Machine.execPowerOn
  exact .next h.powerOn

theorem Keeps.startClocks (h : Keeps s₀ s) : Keeps s₀ s.startClocks := by
  unfold State.startClocks
  extract_lets _ _ _ _ s₁ s₂
  have hs₁ : Keeps s₀ s₁ := h.at_
  have hs₂ : Keeps s₀ s₂ := hs₁.at_
  exact hs₂.at_

theorem Keeps.bringUp (h : Keeps s₀ s) : Keeps s₀ s.bringUp := by
  unfold State.bringUp
  extract_lets _ s₁ s₂ s₃ s₄
  have hs₁ : Keeps s₀ s₁ := h.darken
  have hs₂ : Keeps s₀ s₂ := hs₁.frame.routeTable
  have hs₃ : Keeps s₀ s₃ := by
    unfold s₃
    split
    · exact hs₂.makeRoot
    · exact hs₂
  have hs₄ : Keeps s₀ s₄ := hs₃.startClocks.modKiln
  exact hs₄.makeQueue0.replayLatch

theorem Answers.execFirmwareBringup (h : Keeps s₀ s) : Answers s₀ (execFirmwareBringup s) := by
  unfold Machine.execFirmwareBringup
  exact .ite (.next h.bringUp) (.next h)

theorem Keeps.bootTimeout (h : Keeps s₀ s) : Keeps s₀ s.bootTimeout := by
  unfold State.bootTimeout
  extract_lets _ _ s₁
  have hs₁ : Keeps s₀ s₁ := h.modKiln
  exact .ite (.ite hs₁.runSlot hs₁.enterRecovery) (.ite hs₁.enterRecovery hs₁.runSlot)

theorem Answers.execFirmwareTimeout (h : Keeps s₀ s) : Answers s₀ (execFirmwareTimeout s) := by
  unfold Machine.execFirmwareTimeout
  exact .ite (.next h.bootTimeout) (.next h)

theorem Answers.execSvncommit (h : Keeps s₀ s) : Answers s₀ (execSvncommit s) := by
  unfold Machine.execSvncommit
  split
  · exact .ite (.next h.modKiln) (.next h)
  · exact .next h

theorem Keeps.checkSlot (h : Keeps s₀ s) : Keeps s₀ s.checkSlot := by
  unfold State.checkSlot
  extract_lets
  exact h.modKiln

theorem Keeps.mailbox (h : Keeps s₀ s) {off v} : Keeps s₀ (s.mailbox off v) := by
  unfold State.mailbox
  refine .ite h.modKiln ?_
  split
  · exact h.modKiln
  · exact .ite h h.modKiln.signal.send
  · exact h.modKiln.signal.send
  · exact h

theorem Answers.execWriteSlot (h : Keeps s₀ s) : Answers s₀ (execWriteSlot s) := by
  unfold Machine.execWriteSlot
  refine .ite (.next h) ?_
  split
  · exact .next h.mailbox
  · exact .next (.ite h.checkSlot h)
  · exact .next h

theorem Keeps.coldReset (h : Keeps s₀ s) : Keeps s₀ s.coldReset := h.emptied rfl rfl rfl

theorem Answers.execColdReset (h : Keeps s₀ s) : Answers s₀ (execColdReset s) := by
  unfold Machine.execColdReset
  exact .next h.coldReset

theorem Answers.execReset (h : Keeps s₀ s) : Answers s₀ (execReset s) := by
  unfold Machine.execReset
  exact .ite (.next h.coldReset) (.next h)

theorem Answers.execSpdmRequest (h : Keeps s₀ s) : Answers s₀ (execSpdmRequest s) := by
  unfold Machine.execSpdmRequest
  split
  · split
    · extract_lets
      exact .next h.modKiln
    · exact .next h
  · exact .next h

theorem Keeps.pairTenant (h : Keeps s₀ s) {dev tenant on} : Keeps s₀ (s.pairTenant dev tenant on) := by
  unfold State.pairTenant
  extract_lets
  exact h.modKiln

theorem Answers.execKilnControl (h : Keeps s₀ s) : Answers s₀ (execKilnControl s) := by
  unfold Machine.execKilnControl
  extract_lets s₁
  have hs₁ : Keeps s₀ s₁ := .ite h.send h
  split
  · exact .next hs₁.modKiln.signal
  · exact .next hs₁.pairTenant.signal
  · exact .next hs₁.signal

theorem Keeps.peerLinks (h : Keeps s₀ s) {dev links} : Keeps s₀ (s.peerLinks dev links) := by
  unfold State.peerLinks
  extract_lets
  exact h.frame

theorem Answers.execPeerLinkUp (h : Keeps s₀ s) : Answers s₀ (execPeerLinkUp s) := by
  unfold Machine.execPeerLinkUp
  split
  · exact .ite (.next h.peerLinks.signal) (.next h)
  · exact .next h

theorem Keeps.peerWakes (h : Keeps s₀ s) {p} : Keeps s₀ (s.peerWakes p) := .ite h.send h

theorem Keeps.peerGone (h : Keeps s₀ s) {dev} : Keeps s₀ (s.peerGone dev) := by
  unfold State.peerGone
  extract_lets _ _ _ _ s₁ s₂
  have hs₁ : Keeps s₀ s₁ := h.update id (·.map fun _ => ⟨rfl, rfl⟩) id
  have hs₂ : Keeps s₀ s₂ := by
    unfold s₂
    refine .foldl hs₁ fun h₁ => ?_
    split
    · extract_lets s₃
      have hs₃ : Keeps s₀ s₃ := h₁.returnWeight
      exact .ite hs₃.reply hs₃.reply
    · exact h₁
  exact hs₂.settleTokens.send

theorem Keeps.peerLinkLost (h : Keeps s₀ s) {dev links} : Keeps s₀ (s.peerLinkLost dev links) := by
  unfold State.peerLinkLost
  extract_lets _ _ s₁
  have hs₁ : Keeps s₀ s₁ := h.frame
  exact .ite hs₁.peerGone hs₁

theorem Answers.execPeerLinkDown (h : Keeps s₀ s) : Answers s₀ (execPeerLinkDown s) := by
  unfold Machine.execPeerLinkDown
  split
  · exact .ite (.next h.peerLinkLost.signal) (.next h)
  · exact .next h

theorem Keeps.setPartState (h : Keeps s₀ s) {qs v} : Keeps s₀ (s.setPartState qs v) := .foldl h fun h₁ => h₁.frame

theorem Keeps.restart1 (h : Keeps s₀ s) {cluster} : Keeps s₀ (s.restart1 cluster) := by
  unfold State.restart1
  extract_lets _ s₁ _ s₂
  have hs₁ : Keeps s₀ s₁ := h.setPartState
  have hs₂ : Keeps s₀ s₂ := .foldl hs₁ fun h₁ => h₁.report
  refine .foldl hs₂ fun h₁ => ?_
  split
  · extract_lets s₃
    have hs₃ : Keeps s₀ s₃ := h₁.closeScope.report
    exact hs₃.frame
  · exact h₁

theorem Keeps.restart2 (h : Keeps s₀ s) {cluster} : Keeps s₀ (s.restart2 cluster) := by
  unfold State.restart2
  extract_lets _ _ _ s₁
  have hs₁ : Keeps s₀ s₁ := .poisonTokens (.settleTokens h.frame)
  exact hs₁.update id .filter id

theorem Keeps.restart3 (h : Keeps s₀ s) {cluster} : Keeps s₀ (s.restart3 cluster) := by
  unfold State.restart3
  extract_lets _ _ _ s₁
  have hs₁ : Keeps s₀ s₁ := h.setPartState
  exact hs₁.frame

theorem Answers.execPartitionRestart (h : Keeps s₀ s) : Answers s₀ (execPartitionRestart s) := by
  unfold Machine.execPartitionRestart
  split
  · exact .next h.restart1.send
  · exact .next h.restart2.send
  · exact .next h.restart3.send
  · exact .next h.setPartState
  · exact .next h

/-! ### Calls, window moves and status words (Control.lean) -/

theorem KeepsFrom.callTo {n t' st} : KeepsFrom s₀ (callTo n t' st) := by
  unfold Machine.callTo
  extract_lets
  exact .ite (.raise _) (.ite (.raise _) (.bind .moveWindow (.pure _)))

theorem KeepsFrom.callBody {n o st} : KeepsFrom s₀ (callBody n o st) := by
  unfold Machine.callBody
  exact .bind (.liftT _) .callTo

theorem KeepsFrom.callrBody {n a st} : KeepsFrom s₀ (callrBody n a st) := by
  unfold Machine.callrBody
  exact .bind (.liftT _) (.bind (.liftT _) .callTo)

theorem KeepsFrom.retBody {i st} : KeepsFrom s₀ (retBody i st) := by
  unfold Machine.retBody
  split
  · exact .raise _
  · exact .ite (.raise _) (.bind .moveWindow (.pure _))

theorem KeepsFrom.allocBody {n h' st} : KeepsFrom s₀ (allocBody n h' st) := by
  unfold Machine.allocBody
  extract_lets
  exact .ite (.raise _) (.bind .moveWindow (.pure _))

theorem KeepsFrom.mtsBody {a n st} : KeepsFrom s₀ (mtsBody a n st) := by
  unfold Machine.mtsBody
  refine .get_bind fun h₁ => ?_
  split
  · exact .raise _
  · refine .ite (.raise _) (.bind (.liftT _) fun {_} => .bind (.liftT _) fun {_} => ?_)
    split
    · exact .holdFor _
    · exact .bind .setMe (.pure _)

/-! ### The end of a quantum (Quanta.lean) -/

theorem Keeps.serveHeld (h : Keeps s₀ s) {d k dom} : Keeps s₀ (s.serveHeld d k dom) := by
  unfold State.serveHeld
  extract_lets _ s₁
  have hs₁ : Keeps s₀ s₁ := h.frame
  exact .send (.foldl hs₁ fun h₁ => h₁.push)

theorem Keeps.startHeads (h : Keeps s₀ s) {top} : Keeps s₀ (s.startHeads top) := .foldl h fun h₁ => h₁.startNext

theorem Keeps.countWaiting (h : Keeps s₀ s) {top} : Keeps s₀ (s.countWaiting top) := by
  unfold State.countWaiting
  extract_lets
  refine .foldl h fun h₁ => ?_
  extract_lets s₁
  have hs₁ : Keeps s₀ s₁ := .ite h₁.setOverflow h₁
  exact hs₁.modCore

theorem Keeps.migrateDue (h : Keeps s₀ s) {top} : Keeps s₀ (s.migrateDue top) := by
  unfold State.migrateDue
  refine .foldl h fun h₁ => ?_
  extract_lets
  exact .ite h₁.autoMigrate h₁

theorem Keeps.dropOverflow (h : Keeps s₀ s) {p d} : Keeps s₀ (s.dropOverflow p d) := by
  unfold State.dropOverflow
  extract_lets
  exact .ite h (.foldl h.setOverflow fun h₁ => h₁.discardCtx.workLeaves)

theorem Keeps.admitDomain (h : Keeps s₀ s) {d} : Keeps s₀ (s.admitDomain d) := by
  unfold State.admitDomain
  extract_lets _ s₁
  have hs₁ : Keeps s₀ s₁ := .foldl h fun h₁ => h₁.dropOverflow.letIn
  exact .foldl hs₁ fun h₁ => .foldl h₁ fun h₂ => h₂.refillArrival

theorem Keeps.closeDue (h : Keeps s₀ s) {top} : Keeps s₀ (s.closeDue top) := .foldl h fun h₁ => h₁.closeScope

theorem Keeps.phaseDone (h : Keeps s₀ s) {top k} : Keeps s₀ (s.phaseDone top k) := by
  unfold State.phaseDone
  split
  · exact h.answerWords
  · exact h.fireNodes
  · exact h.startHeads
  · exact h.countWaiting.migrateDue
  · exact h.admitDomain.closeDue
  · exact h

theorem Keeps.nextQuantum (h : Keeps s₀ s) {d dom} : Keeps s₀ (s.nextQuantum d dom) := by
  unfold State.nextQuantum
  extract_lets _ strand _ _ _ _ s₁
  have hstrand : ∀ st, (strand st).sk = st.sk := by
    intro st
    unfold strand
    split
    · rfl
    · dsimp only
      split <;> rfl
  have hs₁ : Keeps s₀ s₁ := h.update id (·.map fun kv => ⟨rfl, hstrand kv.2⟩) id
  exact .ite h.frame (.foldl hs₁ fun h₁ => h₁.kick)

theorem Keeps.quantumPhase (h : Keeps s₀ s) {d k dom} : Keeps s₀ (s.quantumPhase d k dom) := by
  unfold State.quantumPhase
  extract_lets _ s₁
  have hs₁ : Keeps s₀ s₁ := h.frame
  exact .ite hs₁.serveHeld (.ite hs₁.send (.ite hs₁.closeDue.send (.ite hs₁.after hs₁.phaseDone.send)))

theorem Keeps.beginQuanta (h : Keeps s₀ s) {d dom} : Keeps s₀ (s.beginQuanta d dom) := by
  unfold State.beginQuanta
  extract_lets _ _ strand
  have hstrand : ∀ st, (strand st).sk = st.sk := by
    intro st
    unfold strand
    split <;> rfl
  exact .ite h.after (h.update id (·.map fun kv => ⟨rfl, hstrand kv.2⟩) id)

theorem Answers.execQuantumEnd (h : Keeps s₀ s) : Answers s₀ (execQuantumEnd s) := by
  unfold Machine.execQuantumEnd
  split
  · split
    · exact .next h
    · exact .ite (.next h.beginQuanta) (.ite (.next h.nextQuantum) (.next h.quantumPhase))
  · split
    rename_i e
    extract_lets
    exact .next (.deliver (h.serveScope.of_fst e))
  · exact .next h.serveNode
  · exact .next h

theorem Answers.execReplayDiverged (h : Keeps s₀ s) : Answers s₀ (execReplayDiverged s) := by
  unfold Machine.execReplayDiverged
  split
  · exact .next h.faultScope
  · exact .next h

/-! ### System instructions (SysOps.lean) -/

theorem KeepsFrom.pauseBody {a st} : KeepsFrom s₀ (pauseBody a st) := by
  unfold Machine.pauseBody
  refine .bind .cancelPoint fun {_} => .bind (.liftT _) fun {_} => ?_
  extract_lets
  refine .ite (.pure _) (.get_bind fun h₁ => ?_)
  extract_lets
  exact .bind (.set h₁.setStrand.after) (.pure _)

theorem Answers.execPauseEnd (h : Keeps s₀ s) : Answers s₀ (execPauseEnd s) := by
  unfold Machine.execPauseEnd
  split
  · split
    · exact .next h
    · exact .ite (.next h.setStrand) (.next h)
  · exact .next h

theorem KeepsFrom.trapBody {a st} : KeepsFrom s₀ (trapBody a st) := by
  unfold Machine.trapBody
  exact .bind (.liftT _) (.raise _)

theorem KeepsFrom.eretBody {i st} : KeepsFrom s₀ (eretBody i st) := by
  unfold Machine.eretBody
  refine .bind (.liftT _) fun {_} => ?_
  split
  · exact .raise _
  · exact .ite (.raise _) (.bind .moveWindow (.bind .me (.bind .setMe (.pure _))))

theorem KeepsFrom.sleepBody {a st} : KeepsFrom s₀ (sleepBody a st) := by
  unfold Machine.sleepBody
  split
  · exact .pure _
  · refine .bind (.liftT _) fun {_} => ?_
    extract_lets
    exact .ite (.pure _) (.get_bind fun h₁ => .ite (.raise _) (.bind .newNumber (.bind (.modify fun h₂ => h₂.after)
      (.holdFor _))))

theorem Answers.execSleepEnd (h : Keeps s₀ s) : Answers s₀ (execSleepEnd s) := by
  unfold Machine.execSleepEnd
  split
  · exact .next h.reply.bankStates
  · exact .next h

theorem Answers.execNotAnInstruction (h : Keeps s₀ s) : Answers s₀ (execNotAnInstruction s) := by
  unfold Machine.execNotAnInstruction
  split
  · exact .next h.takeTrap
  · exact .next h

theorem Answers.execSequentialFlowPastEnd (h : Keeps s₀ s) : Answers s₀ (execSequentialFlowPastEnd s) := by
  unfold Machine.execSequentialFlowPastEnd
  split
  · split
    · exact .next h
    · exact .next h.takeTrap
  · exact .next h

/-! ### What each instruction and event does (Dispatch.lean) -/

/-- How an instruction means what it means: a runner takes it to the current strand (with the guard, the counter and
the length that `guardClass` gives, if it is guarded), a hart executes it, or it is an event, which always happens. -/
inductive Means (i : Instr) (s : State) : Out → Prop where
  | pure {cls len g f} (hg : Claims.guardClass i = none ∨ Claims.guardClass i = some (g, cls) ∧ len = 4) :
    Means i s (runPure cls len g f s)
  | act {cls len g c body} (hg : Claims.guardClass i = none ∨ Claims.guardClass i = some (g, cls) ∧ len = 4)
    (hbody : ∀ {s₀ st}, KeepsFrom s₀ (body st)) : Means i s (runAct cls len g c body s)
  | jump {cls f} (hg : Claims.guardClass i = none) : Means i s (runJump cls f s)
  | hart {o} (hg : Claims.guardClass i = none) (hk : ∀ {s₀}, Keeps s₀ s → KeepsOut s₀ o)
    (ht : s.curHart < 4 → ∃ t, o = .next t) : Means i s o
  | window {o} (hi : i = .hostBar2Access) (hk : ∀ {s₀}, Keeps s₀ s → KeepsOut s₀ o) : Means i s o
  | event {o} (hg : Claims.guardClass i = none) (ha : ∀ {s₀}, Keeps s₀ s → Answers s₀ o) : Means i s o

/-- A guarded vector instruction runs on the strand that has claimed the vector unit. -/
theorem Means.vec {i : Instr} {g f} (hg : Claims.guardClass i = some (g, clsVec)) : Means i s (runVec g f s) :=
  .pure (.inr ⟨hg, rfl⟩)

/-- Where there is a hart, it goes on or takes a trap. -/
theorem runHart_next {d f} {s : State} (h : s.curHart < 4) : ∃ t, runHart d f s = .next t := by
  unfold runHart
  rw [if_neg (Nat.not_le.2 h)]
  split
  · exact ⟨_, rfl⟩
  · exact ⟨_, rfl⟩

theorem execKrf_next {t a d} {s : State} (h : s.curHart < 4) : ∃ t', execKrf t a d s = .next t' := by
  unfold execKrf
  split
  · exact ⟨_, if_neg (Nat.not_le.2 h)⟩
  · exact runHart_next h

theorem execKswt_next {a d} {s : State} (h : s.curHart < 4) : ∃ t, execKswt a d s = .next t := by
  unfold execKswt
  rw [if_neg (Nat.not_le.2 h)]
  extract_lets x mask got
  split
  · exact ⟨_, rfl⟩
  · exact ⟨_, rfl⟩

/-- Every instruction and every event has its meaning in one of these ways. -/
theorem means_exec (i : Instr) (s : State) : Means i s (exec i s) := by
  unfold exec
  cases i
  case add | sub | mul | mulh | mulhu | div | divu | rem | remu | and | or | xor | andn | shl | shr | sar | ror |
      min | max | minu | maxu | clz | ctz | popc | bswap | sext | zext | addw | mov | ceq | cne | clt | cle |
      cltu | cleu | pand | por | pxor | pnot | pfx | xfp | fceq | fclt | fcle | fcun | fadd | fsub | fmul | ffma |
      fdiv | fsqrt | fmin | fmax | fabs | fneg | fcvti | fcvtf | fcvtw | fcvtb | fclass | rndk | dgst =>
    exact .pure (.inr ⟨rfl, rfl⟩)
  case movCompact | addCompact | subCompact | andCompact | orCompact | xorCompact | shlCompact | shrCompact |
      addi | addiCompact | andi | ori | xori | shli | shri | sari | rori | lim | limCompact | lis | ceqi | cnei |
      clti | cltui | mfs | nopCompact =>
    exact .pure (.inl rfl)
  case br | brCompact | jmpr | chk => exact .jump rfl
  case call => exact .act (.inl rfl) .callBody
  case callr => exact .act (.inl rfl) .callrBody
  case alloc => exact .act (.inl rfl) .allocBody
  case mts => exact .act (.inl rfl) .mtsBody
  case ldB | ldBu | ldH | ldHu | ldW | ldWu | ldD | ldDCompact => exact .act (.inl rfl) .loadBody
  case stB | stH | stW | stD | stDCompact => exact .act (.inl rfl) .storeBody
  case ldsB | ldsBu | ldsH | ldsHu | ldsW | ldsWu | ldsD => exact .act (.inl rfl) .ldsBody
  case sld => exact .act (.inr ⟨rfl, rfl⟩) .sldBody
  case sst => exact .act (.inr ⟨rfl, rfl⟩) .sstBody
  case aadd | aswap | acas | aand | aor | axor | amax | amin | amaxu | aminu =>
    exact .act (.inr ⟨rfl, rfl⟩) .rmwBody
  case fence => exact .act (.inr ⟨rfl, rfl⟩) .fenceBody
  case flushr => exact .act (.inr ⟨rfl, rfl⟩) .flushrBody
  case tlend => exact .act (.inr ⟨rfl, rfl⟩) .tlendBody
  case tret => exact .act (.inr ⟨rfl, rfl⟩) .tretBody
  case tgive => exact .act (.inr ⟨rfl, rfl⟩) .tgiveBody
  case tsplit | tclaim => exact .act (.inr ⟨rfl, rfl⟩) .tokenValueBody
  case tshare => exact .act (.inr ⟨rfl, rfl⟩) .tshareBody
  case tjoin | tseal | tunseal | tclr => exact .act (.inr ⟨rfl, rfl⟩) .tokenBody
  case tqry => exact .act (.inr ⟨rfl, rfl⟩) .tqryBody
  case twait => exact .act (.inr ⟨rfl, rfl⟩) .twaitBody
  case vadd | vsub | vmul | vfma | vmin | vmax | vabs | vneg | vand | vor | vxor | vshl | vshr | vcvt | vscl |
      vreds | vredm | vbc | vext | vins | vperm | vsel | vcmpeq | vcmpeqPred | vcmplt | vcmpltPred | vcmple |
      vcmplePred | viota | vrnd | vdgst | vfmt | vmov | vdesc =>
    exact .vec rfl
  case vld => exact .act (.inl rfl) .vldBody
  case vst => exact .act (.inl rfl) .vstBody
  case vlds => exact .act (.inl rfl) .vldsBody
  case vsts => exact .act (.inl rfl) .vstsBody
  case mma => exact .act (.inr ⟨rfl, rfl⟩) .mmaBody
  case mzero => exact .act (.inr ⟨rfl, rfl⟩) .mzeroBody
  case mld => exact .act (.inr ⟨rfl, rfl⟩) .mldBody
  case mst => exact .act (.inr ⟨rfl, rfl⟩) .mstBody
  case msnap => exact .act (.inr ⟨rfl, rfl⟩) .msnapBody
  case mwait => exact .act (.inr ⟨rfl, rfl⟩) .mwaitBody
  case mwaitCompact => exact .act (.inl rfl) .mwaitBody
  case mstat => exact .act (.inr ⟨rfl, rfl⟩) .mstatBody
  case mcanc => exact .act (.inr ⟨rfl, rfl⟩) .mcancBody
  case mres => exact .act (.inr ⟨rfl, rfl⟩) .mresBody
  case qbind => exact .act (.inr ⟨rfl, rfl⟩) .qbindBody
  case qunb => exact .act (.inr ⟨rfl, rfl⟩) .qunbBody
  case qrd => exact .act (.inr ⟨rfl, rfl⟩) .qrdBody
  case qrdCompact => exact .act (.inl rfl) .qrdBody
  case qwr => exact .act (.inr ⟨rfl, rfl⟩) .qwrBody
  case qwrCompact => exact .act (.inl rfl) .qwrBody
  case qpoll => exact .act (.inr ⟨rfl, rfl⟩) .qpollBody
  case qstat => exact .act (.inr ⟨rfl, rfl⟩) .qstatBody
  case send => exact .act (.inr ⟨rfl, rfl⟩) .sendBody
  case sendr => exact .act (.inr ⟨rfl, rfl⟩) .sendrBody
  case reply => exact .act (.inr ⟨rfl, rfl⟩) .replyBody
  case hret => exact .act (.inr ⟨rfl, rfl⟩) .hretBody
  case hmask | hunm => exact .act (.inr ⟨rfl, rfl⟩) .maskBody
  case hset => exact .act (.inr ⟨rfl, rfl⟩) .hsetBody
  case cpy | gath | scat | coll => exact .act (.inr ⟨rfl, rfl⟩) .commandBody
  case node => exact .act (.inr ⟨rfl, rfl⟩) .nodeBody
  case ewt => exact .act (.inr ⟨rfl, rfl⟩) .ewtBody
  case echk => exact .act (.inr ⟨rfl, rfl⟩) .echkBody
  case edec => exact .act (.inr ⟨rfl, rfl⟩) .edecBody
  case spawn => exact .act (.inr ⟨rfl, rfl⟩) .spawnBody
  case migr => exact .act (.inr ⟨rfl, rfl⟩) .migrBody
  case steal => exact .act (.inr ⟨rfl, rfl⟩) .stealBody
  case yield => exact .act (.inr ⟨rfl, rfl⟩) .yieldBody
  case endStrand => exact .act (.inr ⟨rfl, rfl⟩) .endBody
  case gang => exact .act (.inr ⟨rfl, rfl⟩) .gangBody
  case bar => exact .act (.inr ⟨rfl, rfl⟩) .barBody
  case barCompact => exact .act (.inl rfl) .barBody
  case sopen => exact .act (.inr ⟨rfl, rfl⟩) .sopenBody
  case sclose => exact .act (.inr ⟨rfl, rfl⟩) .scloseBody
  case scanc => exact .act (.inr ⟨rfl, rfl⟩) .scancBody
  case swin => exact .act (.inr ⟨rfl, rfl⟩) .swinBody
  case shld => exact .act (.inr ⟨rfl, rfl⟩) .shldBody
  case sunsh => exact .act (.inr ⟨rfl, rfl⟩) .sunshBody
  case cpt => exact .act (.inr ⟨rfl, rfl⟩) .cptBody
  case sres => exact .act (.inr ⟨rfl, rfl⟩) .sresBody
  case nop => exact .pure (f := .ok) (.inr ⟨rfl, rfl⟩)
  case pause => exact .act (.inr ⟨rfl, rfl⟩) .pauseBody
  case pauseCompact => exact .act (.inl rfl) .pauseBody
  case trap => exact .act (.inr ⟨rfl, rfl⟩) .trapBody
  case eret => exact .act (.inr ⟨rfl, rfl⟩) .eretBody
  case sleep => exact .act (.inr ⟨rfl, rfl⟩) .sleepBody
  case krf => exact .hart rfl (fun h => .execKrf h) execKrf_next
  case kbfx => exact .hart rfl (fun h => .execKbfx h) runHart_next
  case kswt => exact .hart rfl (fun h => .execKswt h) execKswt_next
  case kdsp => exact .hart rfl (fun h => .execKdsp h) runHart_next
  case ret | retCompact => exact .act (.inl rfl) .retBody
  case hretCompact => exact .act (.inl rfl) .hretBody
  case yieldCompact => exact .act (.inl rfl) .yieldBody
  case endCompact => exact .act (.inl rfl) .endBody
  case cptCompact => exact .act (.inl rfl) .cptBody
  case lateFaultTrap => exact .event rfl .execLateFaultTrap
  case groupSpill => exact .event rfl .execGroupSpill
  case groupFill => exact .event rfl .execGroupFill
  case linkRecordSpill => exact .event rfl .execLinkRecordSpill
  case bankPowerOff => exact .event rfl .execBankPowerOff
  case matrixStep => exact .event rfl .execMatrixStep
  case engineSector => exact .event rfl .execEngineSector
  case engineCommandEnd => exact .event rfl .execEngineCommandEnd
  case nodeReservationRetry => exact .event rfl .execNodeReservationRetry
  case l0Eviction => exact .event rfl .execL0Eviction
  case atsCompletion => exact .event rfl .execAtsCompletion
  case priResponse => exact .event rfl .execPriResponse
  case atsInvalidation => exact .event rfl .execAtsInvalidation
  case flitSend => exact .event rfl .execFlitSend
  case flitArrival => exact .event rfl .execFlitArrival
  case negativeAcknowledge => exact .event rfl .execNegativeAcknowledge
  case flitAcknowledge => exact .event rfl .execFlitAcknowledge
  case truncationTimeout => exact .event rfl .execTruncationTimeout
  case partitionRestart => exact .event rfl .execPartitionRestart
  case message => exact .event rfl .execMessage
  case replyArrival => exact .event rfl .execReplyArrival
  case refusal => exact .event rfl .execRefusal
  case sendResend => exact .event rfl .execSendResend
  case queueWord => exact .event rfl .execQueueWord
  case creditRequest => exact .event rfl .execCreditRequest
  case creditGrant => exact .event rfl .execCreditGrant
  case creditRequestRetry => exact .event rfl .execCreditRequestRetry
  case syncCellOperation => exact .event rfl .execSyncCellOperation
  case syncCellReply => exact .event rfl .execSyncCellReply
  case migration => exact .event rfl .execMigration
  case spawnPlacement => exact .event rfl .execSpawnPlacement
  case wheelReplace => exact .event rfl .execWheelReplace
  case overflowRefill => exact .event rfl .execOverflowRefill
  case admission => exact .event rfl .execAdmission
  case autoMigration => exact .event rfl .execAutoMigration
  case codeStore => exact .event rfl .execCodeStore
  case handlerTableWrite => exact .event rfl .execHandlerTableWrite
  case start => exact .event rfl .execStart
  case imageLoad => exact .event rfl .execImageLoad
  case engineCommand => exact .event rfl .execEngineCommand
  case stealRequest => exact .event rfl .execStealRequest
  case stealReply => exact .event rfl .execStealReply
  case tokenQuery => exact .event rfl .execTokenQuery
  case tokenQueryReply => exact .event rfl .execTokenQueryReply
  case memoryRead => exact .event rfl .execMemoryRead
  case readReply => exact .event rfl .execReadReply
  case memoryWrite => exact .event rfl .execMemoryWrite
  case writeAcknowledgement => exact .event rfl .execWriteAcknowledgement
  case engineData => exact .event rfl .execEngineData
  case collectiveData => exact .event rfl .execCollectiveData
  case tokenRequest => exact .event rfl .execTokenRequest
  case tokenGrant => exact .event rfl .execTokenGrant
  case tokenGrantArrival => exact .event rfl .execTokenGrantArrival
  case weightReturn => exact .event rfl .execWeightReturn
  case refillRequest => exact .event rfl .execRefillRequest
  case refillReply => exact .event rfl .execRefillReply
  case cancelPacket => exact .event rfl .execCancelPacket
  case successDeclaration => exact .event rfl .execSuccessDeclaration
  case closeStatus => exact .event rfl .execCloseStatus
  case barrierArrival => exact .event rfl .execBarrierArrival
  case barrierRelease => exact .event rfl .execBarrierRelease
  case predecessorDecrement => exact .event rfl .execPredecessorDecrement
  case acknowledgement => exact .event rfl .execAcknowledgement
  case kilnControl => exact .event rfl .execKilnControl
  case digest => exact .event rfl .execDigest
  case healthEvent => exact .event rfl .execHealthEvent
  case heartbeatSend => exact .event rfl .execHeartbeatSend
  case heartbeat => exact .event rfl .execHeartbeat
  case heartbeatWindowEnd => exact .event rfl .execHeartbeatWindowEnd
  case spareRemap => exact .event rfl .execSpareRemap
  case coreStop => exact .event rfl .execCoreStop
  case sentinelReplay => exact .event rfl .execSentinelReplay
  case supplyAdjust => exact .event rfl .execSupplyAdjust
  case budgetPeriodStart => exact .event rfl .execBudgetPeriodStart
  case quantumEnd => exact .event rfl .execQuantumEnd
  case replayDiverged => exact .event rfl .execReplayDiverged
  case twaitTimeout => exact .event rfl .execTwaitTimeout
  case barTimeout => exact .event rfl .execBarTimeout
  case sleepEnd => exact .event rfl .execSleepEnd
  case preemptionRequest => exact .event rfl .execPreemptionRequest
  case preemptionSave => exact .event rfl .execPreemptionSave
  case preemptionRestore => exact .event rfl .execPreemptionRestore
  case clusterGate => exact .event rfl .execClusterGate
  case kilnGate => exact .event rfl .execKilnGate
  case wakeSequence => exact .event rfl .execWakeSequence
  case coreWake => exact .event rfl .execCoreWake
  case thermalLimit => exact .event rfl .execThermalLimit
  case thermalShutdown => exact .event rfl .execThermalShutdown
  case kilnDispatch => exact .event rfl .execKilnDispatch
  case kilnWatchdog => exact .event rfl .execKilnWatchdog
  case doorbell => exact .event rfl .execDoorbell
  case queue0Create => exact .event rfl .execQueue0Create
  case svncommit => exact .event rfl .execSvncommit
  case writeSlot => exact .event rfl .execWriteSlot
  case reset => exact .event rfl .execReset
  case errorInjection => exact .event rfl .execErrorInjection
  case logEntryClear => exact .event rfl .execLogEntryClear
  case registerWrite => exact .event rfl .execRegisterWrite
  case hostBar2Access => exact .window rfl .execHostBar2Access
  case launch => exact .event rfl .execLaunch
  case cancel => exact .event rfl .execCancel
  case switchOut => exact .event rfl .execSwitchOut
  case switchIn => exact .event rfl .execSwitchIn
  case regionCreate => exact .event rfl .execRegionCreate
  case regionDestroy => exact .event rfl .execRegionDestroy
  case migrate => exact .event rfl .execMigrate
  case powerCap => exact .event rfl .execPowerCap
  case partition => exact .event rfl .execPartition
  case nopCommand => exact .event rfl .execNopCommand
  case tenantCreate => exact .event rfl .execTenantCreate
  case queueCreate => exact .event rfl .execQueueCreate
  case queueDestroy => exact .event rfl .execQueueDestroy
  case powerOn => exact .event rfl .execPowerOn
  case firmwareBringup => exact .event rfl .execFirmwareBringup
  case firmwareTimeout => exact .event rfl .execFirmwareTimeout
  case spdmRequest => exact .event rfl .execSpdmRequest
  case peerLinkUp => exact .event rfl .execPeerLinkUp
  case peerLinkDown => exact .event rfl .execPeerLinkDown
  case notAnInstruction => exact .event rfl .execNotAnInstruction
  case sequentialFlowPastEnd => exact .event rfl .execSequentialFlowPastEnd
  case pauseEnd => exact .event rfl .execPauseEnd
  case kilnTimer => exact .event rfl .execKilnTimer
  case modulePowerCrossesCap => exact .event rfl .execModulePowerCrossesCap
  case coldReset => exact .event rfl .execColdReset
  case refreshFault => exact .event rfl .execRefreshFault

/-- Whichever way it is, the next state has the shape of the one before. -/
theorem KeepsOut.of_means {i : Instr} {o : Out} (h : Keeps s₀ s) (hm : Means i s o) : KeepsOut s₀ o := by
  cases hm with
  | pure => exact .runPure h
  | act _ hbody => exact .runAct h hbody
  | jump => exact .runJump h
  | hart _ hk => exact hk h
  | window _ hk => exact hk h
  | event _ ha => exact (ha h).keepsOut

theorem KeepsOut.exec (h : Keeps s₀ s) {i} : KeepsOut s₀ (exec i s) := .of_means h (means_exec i s)

/-! ### The instructions of a hart (Riscv.lean) -/

theorem Keeps.rvDone (h : Keeps s₀ s) {h' rd v pc} : Keeps s₀ (s.rvDone h' rd v pc) := h.modHart

theorem Keeps.rvWrite (h : Keeps s₀ s) {addr n v} : Keeps s₀ (s.rvWrite addr n v) := h.setBytes.breakReservations

theorem Keeps.rvCsrOp (h : Keeps s₀ s) {hart op rd src n next} (e : s.rvCsrOp hart op rd src n next = some t) :
    Keeps s₀ t := by
  unfold State.rvCsrOp at e
  split at e
  · cases e
  · extract_lets _ _ _ s₁ s₂ at e
    have hs₁ : Keeps s₀ s₁ := h.rvDone
    have hs₂ : Keeps s₀ s₂ := .ite hs₁.modHart hs₁
    split at e <;> cases e
    exact .ite hs₂.frame hs₂

theorem Keeps.rvExec (h : Keeps s₀ s) {h' len bits i} : Keeps s₀ (s.rvExec h' len bits i) := by
  unfold State.rvExec
  extract_lets _ _ done
  have hdone : ∀ {rd v}, Keeps s₀ (done rd v) := h.rvDone
  split
  · exact hdone
  · exact hdone
  · exact h.rvDone
  · exact h.rvDone
  · exact h.rvDone
  · extract_lets
    split
    · exact h.hartTrap
    · exact hdone
  · extract_lets
    split
    · exact h.hartTrap
    · exact h.rvWrite.rvDone
  · exact hdone
  · exact hdone
  · exact hdone
  · extract_lets
    split
    · exact h.hartTrap
    · exact h.modHart.rvDone
  · extract_lets _ _ s₁
    have hs₁ : Keeps s₀ s₁ := .ite h.rvWrite h
    split
    · exact h.hartTrap
    · exact hs₁.modHart.rvDone
  · extract_lets
    split
    · exact h.hartTrap
    · exact h.rvWrite.rvDone
  · split
    · rename_i e
      exact h.rvCsrOp e
    · exact h.hartTrap
  · exact hdone
  · exact hdone
  · exact h.hartTrap
  · exact h.hartTrap
  · exact h.rvDone.modHart

/-! ### One move of the module (Issue.lean) -/

theorem KeepsOut.fire (h : Keeps s₀ s) {i a} : KeepsOut s₀ (s.fire i a) := by
  unfold State.fire
  exact .exec h.frame

theorem Keeps.prepare (h : Keeps s₀ s) {st} : Keeps s₀ (s.prepare st) := by
  unfold State.prepare
  extract_lets _ s₁ _ s₂ s₃
  have hs₁ : Keeps s₀ s₁ := h.modCore
  have hs₂ : Keeps s₀ s₂ := hs₁.update id (·.map fun _ => ⟨rfl, rfl⟩) id
  have hs₃ : Keeps s₀ s₃ := hs₂.setStrand.bankStates
  exact hs₃.frame

theorem KeepsOut.issueStrand (h : Keeps s₀ s) {sk} : KeepsOut s₀ (s.issueStrand sk) := by
  unfold State.issueStrand
  split
  · exact .next h.frame
  · extract_lets s₁
    have hs₁ : Keeps s₀ s₁ := h.prepare
    refine .ite (.fire hs₁) (.ite (.fire hs₁) (.ite (.fire hs₁) ?_))
    split
    · exact .exec hs₁.readSources
    · exact .fire hs₁
    · exact .fire hs₁
    · extract_lets _ s₂
      have hs₂ : Keeps s₀ s₂ := hs₁.logEvent
      exact .next hs₂.takeTrap

theorem KeepsOut.ticked {o n} (h : KeepsOut s₀ o) : KeepsOut s₀ (ticked o n) := by
  unfold Machine.ticked
  split
  · exact .next (h _ rfl).tick
  · exact .fault _
  · exact .refused _

theorem KeepsOut.takeEvent (h : Keeps s₀ s) {i} : KeepsOut s₀ (s.takeEvent i) := by
  unfold State.takeEvent
  split
  · exact .next h.frame
  · exact .fire h.frame.peerWakes.takes

theorem KeepsOut.endQuantum (h : Keeps s₀ s) {d} : KeepsOut s₀ (s.endQuantum d) := by
  unfold State.endQuantum
  exact .fire h.frame

theorem KeepsOut.issueHart (h : Keeps s₀ s) {h'} : KeepsOut s₀ (s.issueHart h') := by
  unfold State.issueHart
  extract_lets s₁
  have hs₁ : Keeps s₀ s₁ := h.frame
  refine .ite (.next hs₁) ?_
  split
  · exact .exec hs₁
  · exact .next hs₁.rvExec
  · exact .next hs₁.hartTrap
  · exact .next hs₁.hartTrap

theorem KeepsOut.moveOn (h : Keeps s₀ s) {m} : KeepsOut s₀ (s.moveOn m) := by
  unfold State.moveOn
  split
  · exact .takeEvent h
  · exact .ticked (.issueStrand h)
  · exact .endQuantum h
  · exact .ticked (.issueHart h)

theorem KeepsOut.scheduled (h : Keeps s₀ s) : KeepsOut s₀ s.scheduled := by
  unfold State.scheduled
  split
  · exact .takeEvent h
  · split
    · exact .fire h
    · split
      extract_lets s₁ s₂
      have hs₁ : Keeps s₀ s₁ := h.tick
      have hs₂ : Keeps s₀ s₂ := hs₁.frame
      split
      · exact .next hs₂.tick
      · exact .moveOn hs₂

theorem KeepsOut.move (h : Keeps s₀ s) : KeepsOut s₀ s.move := by
  unfold State.move
  split
  · exact .scheduled h
  · exact .ticked (.issueStrand h)
  · exact .ticked (.issueHart h)
  · exact .takeEvent h

/-! ### Obligations -/

/-- With a strand and a hart there, all but the host's window answers. -/
theorem Means.next {i : Instr} {o : Out} (hm : Means i s o) (hstrand : s.strand s.cur ≠ none) (hhart : s.curHart < 4)
    (hi : i ≠ .hostBar2Access) : ∃ t, o = .next t := by
  obtain ⟨st, hst⟩ := Option.ne_none_iff_exists'.1 hstrand
  cases hm with
  | pure => exact runPure_next hst
  | act => exact runAct_next hst
  | jump => exact runJump_next hst
  | hart _ _ ht => exact ht hhart
  | window hwin => exact absurd hwin hi
  | event _ ha =>
    obtain ⟨t, e, -⟩ := ha (.refl s)
    exact ⟨t, e⟩

/-- What the claims call the strand after a plain instruction is what retirement leaves. -/
theorem retire_eq_after {st : Strand} {pc : BitVec 17} {cls : Nat} (h : st.idem = none) :
    s.retire st pc cls = s.setStrand (Claims.after s st pc cls) := by
  rw [retire_outside h, Claims.after, Strand.counted, h]

theorem guarded_eq {i : Instr} {g g' : BitVec 3} {cls cls' len : Nat} (hi : Claims.guardClass i = some (g, cls))
    (h : Claims.guardClass i = none ∨ Claims.guardClass i = some (g', cls') ∧ len = 4) :
    g' = g ∧ cls' = cls ∧ len = 4 := by
  rw [hi] at h
  rcases h with h | ⟨h, hlen⟩
  · exact nomatch h
  · cases h
    exact ⟨rfl, rfl, hlen⟩

/-- Where the guard is false, the instruction only retires. -/
theorem Means.skipped {i : Instr} {o : Out} {st : Strand} {g : BitVec 3} {cls : Nat} (hm : Means i s o)
    (hout : Claims.Outside s st) (hi : Claims.guardClass i = some (g, cls)) (hp : st.p g = false) :
    o = .next (s.setStrand (Claims.after s st (st.pc + 4) cls)) := by
  obtain ⟨hst, -, hidem, henter, -⟩ := hout
  cases hm with
  | pure hg =>
    obtain ⟨rfl, rfl, rfl⟩ := guarded_eq hi hg
    rw [runPure_skipped hst (henter.symm ▸ hp), henter, retire_eq_after hidem]
    rfl
  | act hg =>
    obtain ⟨rfl, rfl, rfl⟩ := guarded_eq hi hg
    rw [runAct_skipped hst hp, henter, retire_eq_after hidem]
    rfl
  | jump hg => exact nomatch hg.symm.trans hi
  | hart hg => exact nomatch hg.symm.trans hi
  | window hwin =>
    subst hwin
    exact nomatch hi
  | event hg => exact nomatch hg.symm.trans hi

end
end Sys2Proof.Machine

section
open Sys2Proof.Machine

/-- Settles O58: a step keeps the shape of the state, and the canonical form of memory is a part of it. -/
theorem memoryStaysCanonical : Obligations.MemoryStaysCanonical :=
  fun s t hwf e => (KeepsOut.move (.refl s) t e).mem hwf

/-- Settles O57: every way in which an instruction means what it means answers a next state, but for the host's
window. -/
theorem execIsTotal : Obligations.ExecIsTotal :=
  fun i s hstrand hhart hi => (means_exec i s).next hstrand hhart hi

/-- Settles O1: a guarded instruction is one that a runner takes to the strand, and both runners skip it alike. -/
theorem falseGuard : Obligations.FalseGuard :=
  fun i s _ _ _ hout hi hp => (means_exec i s).skipped hout hi hp

end

/-! Vector moves, fills, generator and digest (R59, R150 to R152, R170): what the sources of a vector instruction come to
when none of them faults, what a block holds lane by lane, and the result of each instruction. -/
namespace Sys2Proof.Machine

open Sys2Proof.Claims (Outside Sound Undeferred VSound allFlags)

/-! ### The claim of the vector set (R49) -/

/-- A claim changes the vector registers alone. -/
theorem Strand.claimV_eq (st : Strand) :
    st.claimV = { st with vset := true, vregs := if st.vset then st.vregs else [] } := by
  unfold Strand.claimV
  cases h : st.vset
  · rfl
  · simp only [if_true, ← h]

@[simp] theorem Strand.claimV_x (st : Strand) : st.claimV.x = st.x := by rw [claimV_eq]; rfl
@[simp] theorem Strand.claimV_xv (st : Strand) : st.claimV.xv = st.xv := by rw [claimV_eq]; rfl
@[simp] theorem Strand.claimV_xd (st : Strand) : st.claimV.xd = st.xd := by rw [claimV_eq]; rfl
@[simp] theorem Strand.claimV_s (st : Strand) : st.claimV.s = st.s := by rw [claimV_eq]
@[simp] theorem Strand.claimV_vfmt (st : Strand) : st.claimV.vfmt = st.vfmt := by rw [claimV_eq]
@[simp] theorem Strand.claimV_frm (st : Strand) : st.claimV.frm = st.frm := by rw [claimV_eq]
@[simp] theorem Strand.claimV_fflags (st : Strand) : st.claimV.fflags = st.fflags := by rw [claimV_eq]
@[simp] theorem Strand.claimV_rkey0 (st : Strand) : st.claimV.rkey0 = st.rkey0 := by rw [claimV_eq]
@[simp] theorem Strand.claimV_rkey1 (st : Strand) : st.claimV.rkey1 = st.rkey1 := by rw [claimV_eq]
@[simp] theorem Strand.claimV_digest (st : Strand) : st.claimV.digest = st.digest := by rw [claimV_eq]
@[simp] theorem Strand.claimV_idem (st : Strand) : st.claimV.idem = st.idem := by rw [claimV_eq]

/-! ### Sources that do not fault (R41, R53, R142) -/

theorem sound_claimV {st : Strand} {xs : List (BitVec 5)} (h : Sound st xs) : Sound st.claimV xs := fun x hx => by
  rw [Strand.claimV_x]
  exact h x hx

theorem undeferred_claimV {st : Strand} {xs : List (BitVec 5)} (h : Undeferred st xs) : Undeferred st.claimV xs :=
  fun x hx => by
    rw [Strand.claimV_xd]
    exact h x hx

/-- A search for the first fault of a list finds none where no member has it. -/
theorem find_none_of_forall {α : Type} {p : α → Bool} {l : List α} (h : ∀ x ∈ l, p x = false) : l.find? p = none :=
  List.find?_eq_none.2 fun x hx => Bool.not_eq_true _ ▸ h x hx

theorem Strand.checkUe_of_sound {st : Strand} {xs : List (BitVec 5)} (h : Sound st xs) : st.checkUe xs = .ok () := by
  rw [Strand.checkUe, find_none_of_forall h]

theorem Strand.checkD_of_undeferred {st : Strand} {xs : List (BitVec 5)} (h : Undeferred st xs) :
    st.checkD xs = .ok () := by
  rw [Strand.checkD, find_none_of_forall (p := fun r : BitVec 5 => (st.x r.toNat).d) h]

theorem Strand.checkVue_of_sound {st : Strand} {vs : List (BitVec 4)} (h : VSound st vs) : st.checkVue vs = .ok () := by
  rw [Strand.checkVue, find_none_of_forall h]

theorem Strand.sources_ok {st : Strand} {xs : List (BitVec 5)} (hx : Sound st xs) (hd : Undeferred st xs) :
    st.sources xs = .ok () := by
  rw [Strand.sources, checkUe_of_sound hx]
  exact checkD_of_undeferred hd

theorem Strand.vsources_ok {st : Strand} {xs : List (BitVec 5)} {vs : List (BitVec 4)} (hx : Sound st xs)
    (hd : Undeferred st xs) (hv : VSound st vs) : st.vsources xs vs = .ok () := by
  rw [Strand.vsources, checkUe_of_sound hx, checkVue_of_sound hv]
  exact checkD_of_undeferred hd

/-- The vector sources alone. -/
theorem Strand.vsources_v_ok {st : Strand} {vs : List (BitVec 4)} (hv : VSound st vs) : st.vsources [] vs = .ok () :=
  vsources_ok (List.forall_mem_nil _) (List.forall_mem_nil _) hv

theorem checkFormats_ok {ok : Desc → Bool} {f : Desc} (h : ok f = true) : checkFormats ok [f] = .ok () := by
  simp [checkFormats, h]

theorem Strand.writeX_ok {st : Strand} {i : BitVec 5} {v : Word} {d : Bool} (h : i.toNat < st.s) :
    st.writeX i v d = .ok (st.setX i.toNat v d) := by
  simp [Strand.writeX, Strand.checkDst, h]

/-! ### Blocks by lanes (R59, R60) -/

/-- Digit `j`, in base `2 ^ w`, of the number that `blockOf` packs. -/
theorem packed_digit (w : Nat) (ls : List Nat) (j : Nat) :
    ls.foldr (fun x acc => x % 2 ^ w + acc * 2 ^ w) 0 / 2 ^ (w * j) % 2 ^ w = ls.getD j 0 % 2 ^ w := by
  induction ls generalizing j with
  | nil => simp
  | cons x xs ih =>
    rw [List.foldr_cons]
    cases j with
    | zero => simp
    | succ j =>
      have hw : 0 < 2 ^ w := Nat.two_pow_pos w
      rw [Nat.mul_succ, Nat.add_comm (w * j), Nat.pow_add, ← Nat.div_div_eq_div_mul, Nat.add_mul_div_right _ _ hw,
        Nat.div_eq_of_lt (Nat.mod_lt _ hw), Nat.zero_add, ih, List.getD_cons_succ]

/-- A digit that ends within a vector does not see the bits beyond it. -/
theorem ofNat_digit (x : Nat) {n k w : Nat} (h : k + w ≤ n) :
    (BitVec.ofNat n x >>> k).toNat % 2 ^ w = x / 2 ^ k % 2 ^ w := by
  obtain ⟨r, rfl⟩ := Nat.exists_eq_add_of_le h
  rw [BitVec.toNat_ushiftRight, BitVec.toNat_ofNat, Nat.shiftRight_eq_div_pow, Nat.add_assoc, Nat.pow_add,
    Nat.mod_mul_right_div_self, Nat.mod_mod_of_dvd _ (Nat.pow_dvd_pow 2 (Nat.le_add_right w r))]

/-- The lanes of a packed block are the low bits of what was packed. -/
theorem laneOf'_blockOf {d : Desc} (ls : List Nat) {j : Nat} (hj : j < lanes d) :
    laneOf' (blockOf (laneBits d) ls) d j = ls.getD j 0 % 2 ^ laneBits d := by
  have hfit : laneBits d * j + laneBits d ≤ 512 :=
    calc laneBits d * j + laneBits d = (j + 1) * laneBits d := by rw [Nat.succ_mul, Nat.mul_comm]
      _ ≤ lanes d * laneBits d := Nat.mul_le_mul_right _ hj
      _ ≤ 512 := Nat.div_mul_le_self _ _
  rw [laneOf', blockOf, ofNat_digit _ hfit, packed_digit]

/-! ### Bytes laid over a block -/

/-- A bit of the number that bytes hold is a bit of one of them. -/
theorem ofLe_testBit (bs : List Byte) (i : Nat) : (ofLe bs).testBit i = (bs.getD (i / 8) 0).getLsbD (i % 8) := by
  induction bs generalizing i with
  | nil => simp [ofLe]
  | cons b rest ih =>
    rw [ofLe, Nat.add_comm, show (256 : Nat) = 2 ^ 8 from rfl, Nat.testBit_two_pow_mul_add _ b.isLt]
    split
    next h => simp [Nat.div_eq_of_lt h, Nat.mod_eq_of_lt h, BitVec.getLsbD]
    next h =>
      obtain ⟨k, rfl⟩ := Nat.exists_eq_add_of_le' (Nat.not_lt.1 h)
      rw [Nat.add_sub_cancel, ih, Nat.add_div_right _ (by decide), Nat.add_mod_right, List.getD_cons_succ]

/-- The bytes of a word, read as a number, are its low bits again. -/
theorem ofLe_leBytes_testBit {w : Nat} (n : Nat) (v : BitVec w) {i : Nat} (hi : i < 8 * n) :
    (ofLe (leBytes n v)).testBit i = v.getLsbD i := by
  have hbyte : i / 8 < n := by omega
  have hmod : i % 8 < 8 := Nat.mod_lt _ (by decide)
  simp [ofLe_testBit, leBytes, hbyte, hmod, Nat.div_add_mod]

/-- Bit `i` of an overlaid block: from the bytes where they lie, from the block elsewhere. -/
theorem overlay_getLsbD (b : Block) (off : Nat) (bs : List Byte) {i : Nat} (hi : i < 512) :
    (overlay b off bs).getLsbD i =
      if 8 * off ≤ i ∧ i < 8 * off + 8 * bs.length then (ofLe bs).testBit (i - 8 * off) else b.getLsbD i := by
  have hmask : ((BitVec.ofNat 512 (2 ^ (8 * bs.length) - 1)) <<< (8 * off)).getLsbD i =
      decide (8 * off ≤ i ∧ i < 8 * off + 8 * bs.length) := by
    simp only [BitVec.getLsbD_shiftLeft, BitVec.getLsbD_ofNat, Nat.testBit_two_pow_sub_one]
    grind
  simp only [overlay, BitVec.getLsbD_or, BitVec.getLsbD_and, BitVec.getLsbD_not, hmask, BitVec.getLsbD_shiftLeft,
    BitVec.getLsbD_ofNat]
  split
  next h => simp [h, hi, show i - 8 * off < 512 by omega, Nat.not_lt.2 h.1]
  next h => simp [h, hi]

/-- A doubleword laid over a block replaces the one at its place. -/
theorem blockWord_overlay (b : Block) (x : Word) {n j : Nat} (hj : j < 8) :
    blockWord (overlay b (8 * n) (leBytes 8 x)) j = if j = n then x else blockWord b j := by
  have hlen : (leBytes 8 x).length = 8 := by simp [leBytes]
  refine BitVec.eq_of_getLsbD_eq fun i hi => ?_
  rw [blockWord, BitVec.getLsbD_extractLsb', overlay_getLsbD _ _ _ (by omega), hlen]
  split
  next h =>
    have hjn : j = n := by omega
    subst hjn
    rw [ofLe_leBytes_testBit _ _ (by omega), if_pos rfl]
    simp [hi, show 64 * j + i - 8 * (8 * j) = i by omega]
  next h =>
    have hjn : j ≠ n := by omega
    simp [hjn, blockWord, hi]

/-! ### What the instructions make of their strand (R150 to R152, R170) -/

section
variable {st : Strand} {d a : BitVec 4} {xd xa n : BitVec 5}

theorem vfmtOp_ok (hv : VSound st [a]) (hfmt : descCode st.vfmt < 12) :
    vfmtOp d a st = .ok (st.setV d { data := (st.v a).data, desc := st.vfmt }) := by
  rw [vfmtOp, Strand.vsources_v_ok hv, checkFormats_ok (decide_eq_true hfmt)]
  rfl

/-- The code of a descriptor that comes from a word is the word's low byte. -/
theorem descCode_setWidth (x : Word) : descCode (x.setWidth 16) = x.toNat % 256 := by
  simp only [descCode, BitVec.extractLsb'_toNat, BitVec.toNat_setWidth, Nat.shiftRight_zero]
  omega

theorem vdescOp_ok (hx : Sound st [xa]) (hd : Undeferred st [xa]) (hv : VSound st [d])
    (hfmt : (st.xv xa).toNat % 256 < 12) :
    vdescOp d xa st = .ok (st.setV d { data := (st.v d).data, desc := (st.xv xa).setWidth 16 }) := by
  rw [← descCode_setWidth] at hfmt
  rw [vdescOp, Strand.vsources_ok hx hd hv]
  dsimp only
  rw [checkFormats_ok (decide_eq_true hfmt)]
  rfl

theorem vextOp_word_ok (hv : VSound st [a]) (hdst : xd.toNat < st.s) (hn : n.toNat < 8) :
    vextOp xd a n st = .ok (st.setX xd.toNat ((st.v a).data.extractLsb' (64 * n.toNat) 64) false) := by
  rw [vextOp, Strand.vsources_v_ok hv]
  dsimp only
  rw [Strand.writeX_ok hdst, if_neg (Nat.ne_of_lt hn)]
  rfl

theorem vextOp_desc_ok (hv : VSound st [a]) (hdst : xd.toNat < st.s) (hn : n.toNat = 8) :
    vextOp xd a n st = .ok (st.setX xd.toNat ((st.v a).desc.setWidth 64) false) := by
  rw [vextOp, Strand.vsources_v_ok hv]
  dsimp only
  rw [Strand.writeX_ok hdst, if_pos hn]
  rfl

theorem vinsOp_ok (hx : Sound st [xa]) (hd : Undeferred st [xa]) (hv : VSound st [d]) :
    vinsOp d xa n st = .ok (st.setV d
      { data := overlay (st.v d).data (8 * n.toNat) (leBytes 8 (st.xv xa)), desc := (st.v d).desc }) := by
  rw [vinsOp, Strand.vsources_ok hx hd hv]
  rfl

/-- A fill writes every lane's bits, and the flags of all lanes go to sw.fflags. -/
theorem vfill_ok (lane : Strand → Word → Nat → Nat × BitVec 6) (hx : Sound st [xa]) (hd : Undeferred st [xa])
    (hfmt : vectorFormat st.vfmt = true) :
    vfill lane d xa st = .ok
      { st.setV d { data := blockOf (laneBits st.vfmt) ((List.range (lanes st.vfmt)).map fun j => (lane st (st.xv xa) j).1)
                    desc := st.vfmt } with
        fflags := st.fflags ||| allFlags ((List.range (lanes st.vfmt)).map fun j => (lane st (st.xv xa) j).2) } := by
  rw [vfill, Strand.vsources_ok hx hd (List.forall_mem_nil _), checkFormats_ok hfmt]
  simp [allFlags, List.foldl_map, Strand.putV, Strand.orFlags, Function.comp_def]

/-! The lanes of the three fills, on a strand that has claimed its vector set (R81, R151). -/

theorem laneBc_claimV (x : Word) (j : Nat) : laneBc st.claimV x j = (x.toNat % 2 ^ laneBits st.vfmt, 0) := by
  rw [laneBc, Strand.claimV_vfmt]

theorem laneIota_claimV (x : Word) (j : Nat) :
    laneIota st.claimV x j = laneRound st.vfmt (modeOf st.frm) (.fin (x.toInt + j < 0) (x.toInt + j).natAbs 0) := by
  rw [laneIota, Strand.claimV_vfmt, Strand.claimV_frm]
  rfl

theorem uniformOf_eq (z : Word) : uniformOf z = .fin false (z.toNat / 2 ^ 40) (-24) := by
  rw [uniformOf, BitVec.toNat_ushiftRight, Nat.shiftRight_eq_div_pow]

theorem laneRnd_claimV (x : Word) (j : Nat) :
    laneRnd st.claimV x j =
      if descCode st.vfmt ≤ 5 then
        laneRound st.vfmt (modeOf st.frm) (.fin false ((genK st.rkey0 st.rkey1 (x + BitVec.ofNat 64 j)).toNat / 2 ^ 40) (-24))
      else ((genK st.rkey0 st.rkey1 (x + BitVec.ofNat 64 j)).toNat % 2 ^ laneBits st.vfmt, 0) := by
  simp only [laneRnd, uniformOf_eq, Strand.claimV_vfmt, Strand.claimV_frm, Strand.claimV_rkey0, Strand.claimV_rkey1]

theorem vdgst_ok (hv : VSound st [a]) :
    vdgst a st = .ok { st with digest := digestBlock st.digest (st.v a).data (st.v a).desc } := by
  rw [vdgst, Strand.vsources_v_ok hv]

theorem dgst_ok (hx : Sound st [xa]) (hd : Undeferred st [xa]) :
    dgst xa st = .ok { st with digest := digestStep st.digest (st.xv xa) } := by
  rw [dgst, Strand.sources_ok hx hd]

theorem rndk_ok (hx : Sound st [xa]) (hd : Undeferred st [xa]) (hdst : xd.toNat < st.s) :
    rndk xd xa st = .ok (st.setX xd.toNat (genK st.rkey0 st.rkey1 (st.xv xa)) false) := by
  rw [rndk, unaryOp, Strand.checkUe_of_sound hx, hd xa List.mem_cons_self]
  exact Strand.writeX_ok hdst

end

/-! ### Retirement of an instruction that does not fault -/

section
variable {s : State} {st new : Strand} {g : BitVec 3} {f : Strand → Except Trap Strand}

/-- An instruction that only changes its strand retires with what it makes of it. -/
theorem runPure_ok (hout : Outside s st) (hg : st.p g = true) (cls : Nat) (hf : f st = .ok new)
    (hidem : new.idem = none) :
    runPure cls 4 g f s = .next (s.setStrand (Claims.after s new (st.pc + 4) cls)) := by
  obtain ⟨hst, -, -, henter, -⟩ := hout
  rw [runPure_taken hst (henter.symm ▸ hg), henter, hf, ← retire_eq_after hidem]
  rfl

theorem runVec_ok (hout : Outside s st) (hg : st.p g = true) (hf : f st.claimV = .ok new) (hidem : new.idem = none) :
    runVec g f s = .next (s.setStrand (Claims.after s new (st.pc + 4) clsVec)) :=
  runPure_ok hout hg clsVec hf hidem

/-- A fill whose lanes are those of `out` under the strand's own sw.vfmt: every lane of the new block, and the flags. -/
theorem fill_retires {lane : Strand → Word → Nat → Nat × BitVec 6} {d : BitVec 4} {xa : BitVec 5} (out : Nat → Nat × BitVec 6)
    (hout : Outside s st) (hg : st.p g = true) (hx : Sound st [xa]) (hd : Undeferred st [xa])
    (hfmt : vectorFormat st.vfmt = true)
    (hlane : ∀ j, (lane st.claimV (st.xv xa) j).1 % 2 ^ laneBits st.vfmt = (out j).1 % 2 ^ laneBits st.vfmt
      ∧ (lane st.claimV (st.xv xa) j).2 = (out j).2) :
    ∃ b : Block,
      runVec g (vfill lane d xa) s = .next (s.setStrand (Claims.after s
        { st.claimV.setV d { data := b, desc := st.vfmt } with
          fflags := st.fflags ||| allFlags ((List.range (lanes st.vfmt)).map fun j => (out j).2) } (st.pc + 4) clsVec))
      ∧ ∀ j, j < lanes st.vfmt → laneOf' b st.vfmt j = (out j).1 % 2 ^ laneBits st.vfmt := by
  have ⟨_, _, hidem, _, _⟩ := hout
  refine ⟨blockOf (laneBits st.vfmt) ((List.range (lanes st.vfmt)).map fun j => (lane st.claimV (st.xv xa) j).1),
    runVec_ok hout hg ?_ ((Strand.claimV_idem st).trans hidem), fun j hj => ?_⟩
  · have hfill := vfill_ok (d := d) lane (sound_claimV hx) (undeferred_claimV hd) (Strand.claimV_vfmt st ▸ hfmt)
    simpa only [Strand.claimV_vfmt, Strand.claimV_xv, Strand.claimV_fflags, fun j => (hlane j).2] using hfill
  · rw [laneOf'_blockOf _ hj, ← (hlane j).1]
    simp [hj]

end

end Sys2Proof.Machine

section
open Sys2Proof.Machine Sys2Proof.Claims

/-- Settles O11: each instruction's sources pass their checks on the strand that has claimed its vector set, and what it
makes of that strand retires. -/
theorem vectorMoves : Obligations.VectorMoves := by
  intro s st d a xd xa n g hout hg hv hx hd
  have ⟨_, _, hidem, _, _⟩ := hout
  have hcx := sound_claimV hx
  have hcd := undeferred_claimV hd
  have hc : st.claimV.idem = none := (Strand.claimV_idem st).trans hidem
  have hva : VSound st.claimV [a] := fun v h => hv v (List.mem_cons.2 (.inl (List.mem_singleton.1 h)))
  have hvd : VSound st.claimV [d] := fun v h => hv v (List.mem_cons_of_mem a h)
  refine ⟨fun hf => ?vfmt, fun hf => ?vdesc, fun hs hn => ?vextWord, fun hs hn => ?vextDesc, fun hn => ?vins,
    fun hf => ⟨?vbc, ?viota, ?vrnd⟩, ?vdgst, ?dgst, fun hs => ?rndk⟩
  case vfmt =>
    have h := vfmtOp_ok (d := d) hva (Strand.claimV_vfmt st ▸ hf)
    rw [Strand.claimV_vfmt] at h
    exact runVec_ok hout hg h ((Strand.setV_idem ..).trans hc)
  case vdesc =>
    have h := vdescOp_ok hcx hcd hvd (Strand.claimV_xv st ▸ hf)
    rw [Strand.claimV_xv] at h
    exact runVec_ok hout hg h ((Strand.setV_idem ..).trans hc)
  case vextWord => exact runVec_ok hout hg (vextOp_word_ok hva (Strand.claimV_s st ▸ hs) hn) ((Strand.setX_idem ..).trans hc)
  case vextDesc => exact runVec_ok hout hg (vextOp_desc_ok hva (Strand.claimV_s st ▸ hs) hn) ((Strand.setX_idem ..).trans hc)
  case vins =>
    refine ⟨_, runVec_ok hout hg (vinsOp_ok hcx hcd hvd) ((Strand.setV_idem ..).trans hc), fun j hj => ?_⟩
    rw [Strand.claimV_xv]
    exact blockWord_overlay _ _ hj
  case vbc =>
    refine fill_retires _ hout hg hx hd hf fun j => ?_
    rw [laneBc_claimV]
    exact ⟨Nat.mod_mod _ _, rfl⟩
  case viota =>
    refine fill_retires _ hout hg hx hd hf fun j => ?_
    rw [laneIota_claimV]
    exact ⟨rfl, rfl⟩
  case vrnd =>
    refine fill_retires _ hout hg hx hd hf fun j => ?_
    rw [laneRnd_claimV]
    dsimp only
    split
    · exact ⟨rfl, rfl⟩
    · exact ⟨Nat.mod_mod _ _, rfl⟩
  case vdgst =>
    have h := vdgst_ok hva
    rw [Strand.claimV_digest] at h
    exact runVec_ok hout hg h hc
  case dgst => exact runPure_ok hout hg clsVec (dgst_ok hx hd) hidem
  case rndk => exact runPure_ok hout hg clsVec (rndk_ok hx hd hs) ((Strand.setX_idem ..).trans hidem)

end
